-- ==== Sys2Proof/Word.lean ====
section
/-! DEFINITION. The word types of the VH-FLK9 and their plainest arithmetic: 64-bit words, bytes, little-endian
packing (R5) and the extensions that the pseudocode names (R113). -/

namespace Sys2Proof

/-- A 64-bit general register value (R14). -/
abbrev Word := BitVec 64

/-- One byte of memory. -/
abbrev Byte := BitVec 8

/-- The number of a general or vector register. -/
abbrev Reg := Fin 32

/-- Little-endian value of a list of bytes (R5). -/
def leNat : List Byte → Nat
  | [] => 0
  | b :: bs => b.toNat + 256 * leNat bs

/-- The `n` little-endian bytes of a number (R5). -/
def leBytes : Nat → Nat → List Byte
  | 0, _ => []
  | n + 1, x => BitVec.ofNat 8 x :: leBytes n (x / 256)

/-- Sign extension of the low `n` bits of a number to a 64-bit word (R113). -/
def signExt64 (n x : Nat) : Word :=
  (BitVec.ofNat n x).signExtend 64

/-- Bits `[lo + n - 1 : lo]` of a number. -/
def bitsOf (x lo n : Nat) : Nat := (x / 2 ^ lo) % 2 ^ n

end Sys2Proof
end

