-- ==== Sys2Proof/Syntax.lean ====
section
/-! DEFINITION. The instructions and events of the VH-FLK9 as syntax: operand structures of the formats of
Table 03-1, Table 03-4 and Table 03-6, and one constructor for each row of the table of operations and events. -/

namespace Sys2Proof

/-- Scope codes of Table 03-3 (R79). -/
inductive Scope where
  | lane | hart | core | cluster | package | system
  deriving DecidableEq, Repr

/-- Order of a scalar atomic, x[4:3] (R80). -/
inductive Order where
  | rlx | acq | rel | ar
  deriving DecidableEq, Repr

/-- Kind of FENCE, x[4:3] (R81). -/
inductive FenceKind where
  | full | acq | rel
  deriving DecidableEq, Repr

/-- The RM field of major 0x0A (R78). -/
inductive Rm where
  | rne | rtz | rdn | rup | rmm | dyn
  deriving DecidableEq, Repr

/-- The FT field of major 0x0A (R78). -/
inductive FpType where
  | fp64 | fp32 | bf16
  deriving DecidableEq, Repr

/-- The integer side of FCVTFI and FCVTIF (R78). -/
inductive IntType where
  | i64 | u64 | i32 | u32
  deriving DecidableEq, Repr

/-- Source width of SEXT and ZEXT (R77). -/
inductive ExtSize where
  | b8 | b16 | b32
  deriving DecidableEq, Repr

/-- Register group of ENQ (R83). -/
inductive EnqGroup where
  | one | two | four
  deriving DecidableEq, Repr

/-- The fmt field of the VM format (R86). -/
inductive VmFmt where
  | native | fp16 | e4m3 | e5m2 | e2m1 | s8 | z8 | s4
  deriving DecidableEq, Repr

/-- Stationary slot formats, the STSTAT codes 1 to 9 (Table 01-4, R213). -/
inductive TileFmt where
  | bf16 | e4m3 | e5m2 | e2m1 | s8 | z8 | s4 | fp32 | fp64
  deriving DecidableEq, Repr

/-- Element type of an accumulator row (Table 03-6, R224). -/
inductive Ef where
  | fp32 | fp64 | int32
  deriving DecidableEq, Repr

/-- Addressing mode of MAST (Table 03-6, R226). -/
inductive AccMode where
  | unit | strided | indexed
  deriving DecidableEq, Repr

/-- R format with three registers: `op gd, ga, gb`. -/
structure R3 where
  d : Reg
  a : Reg
  b : Reg
  deriving DecidableEq, Repr

/-- Two registers: `op gd, ga`. -/
structure R2 where
  d : Reg
  a : Reg
  deriving DecidableEq, Repr

/-- SEXT and ZEXT (R77). -/
structure ExtOp where
  d : Reg
  a : Reg
  sz : ExtSize
  deriving DecidableEq, Repr

/-- SEL, whose condition register is named by x (R77). -/
structure SelOp where
  d : Reg
  a : Reg
  b : Reg
  x : Reg
  deriving DecidableEq, Repr

/-- I format: `op gd, ga, imm`. -/
structure IOp where
  d : Reg
  a : Reg
  imm : BitVec 12
  deriving DecidableEq, Repr

/-- Immediate shifts (R77). -/
structure ShOp where
  d : Reg
  a : Reg
  sh : BitVec 6
  deriving DecidableEq, Repr

/-- U format: `op gd, imm20`. -/
structure UOp where
  d : Reg
  imm : BitVec 20
  deriving DecidableEq, Repr

/-- M format: `op gd, off(ga)`. -/
structure MOp where
  d : Reg
  a : Reg
  off : BitVec 12
  deriving DecidableEq, Repr

/-- B format: `op ga, gb, label`. -/
structure BOp where
  a : Reg
  b : Reg
  off : BitVec 12
  deriving DecidableEq, Repr

/-- BSTRIP (R121). -/
structure BsOp where
  a : Reg
  off : BitVec 12
  deriving DecidableEq, Repr

/-- JI and CALLI (R88). -/
structure JiOp where
  a : Reg
  imm : BitVec 12
  deriving DecidableEq, Repr

/-- Scalar floating point (R126). -/
structure FpOp where
  d : Reg
  a : Reg
  b : Reg
  rm : Rm
  ft : FpType
  deriving DecidableEq, Repr

/-- FCVTFI and FCVTIF (R127). -/
structure FcvtIOp where
  d : Reg
  a : Reg
  it : IntType
  rm : Rm
  ft : FpType
  deriving DecidableEq, Repr

/-- FCVTFF (R127). -/
structure FcvtFOp where
  d : Reg
  a : Reg
  sf : FpType
  rm : Rm
  ft : FpType
  deriving DecidableEq, Repr

/-- Scalar atomics of major 0x0B (R80, R128); `w32` is fn[4]. -/
structure AmoOp where
  d : Reg
  a : Reg
  b : Reg
  scope : Scope
  ord : Order
  w32 : Bool
  deriving DecidableEq, Repr

/-- CRD (R136). -/
structure CrdOp where
  d : Reg
  cr : BitVec 12
  deriving DecidableEq, Repr

/-- CWR, CRS and CRC (R136). -/
structure CrOp where
  d : Reg
  a : Reg
  cr : BitVec 12
  deriving DecidableEq, Repr

/-- Two general registers read as operands: TLBINV and WATCH. -/
structure AbOp where
  a : Reg
  b : Reg
  deriving DecidableEq, Repr

/-- SETVLI (R82). -/
structure SetvliOp where
  d : Reg
  a : Reg
  vtype : BitVec 9
  deriving DecidableEq, Repr

/-- ENQ (R245). -/
structure EnqOp where
  d : Reg
  a : Reg
  b : Reg
  w : Fin 8
  grp : EnqGroup
  deriving DecidableEq, Repr

/-- QBIND (R253). -/
structure QbindOp where
  n : Fin 4
  a : Reg
  b : Reg
  deriving DecidableEq, Repr

/-- QRD (R254). -/
structure QrdOp where
  d : Reg
  n : Fin 4
  deriving DecidableEq, Repr

/-- FARM and WLOOP (R87, R202): `a` names a weight register. -/
structure ArmOp where
  a : Fin 8
  off : BitVec 12
  deriving DecidableEq, Repr

/-- V format (Table 03-1, R74). -/
structure VOp where
  d : Reg
  a : Reg
  b : Reg
  w : Fin 8
  fa : Bool
  fb : Bool
  c : Bool
  s : Bool
  deriving DecidableEq, Repr

/-- VM format (Table 03-1, R86). -/
structure VMOp where
  d : Reg
  a : Reg
  b : Reg
  w : Fin 8
  fmt : VmFmt
  c : Bool
  s : Bool
  deriving DecidableEq, Repr

/-- MTLD (R213). -/
structure MtldOp where
  a : Reg
  b : Reg
  ksel : Fin 4
  blk : Fin 8
  t : Bool
  fmt : TileFmt
  slot : Fin 2
  s : Bool
  c : Bool
  deriving DecidableEq, Repr

/-- MROW (R216). -/
structure MrowOp where
  v : Reg
  fv : Bool
  rr : Reg
  q : Bool
  p : Bool
  row : Fin 64
  acc : Fin 4
  slot : Fin 2
  s : Bool
  c : Bool
  deriving DecidableEq, Repr

/-- MACLR (R225): rows `row` to `row + n`. -/
structure MaclrOp where
  n : Fin 64
  row : Fin 64
  acc : Fin 4
  s : Bool
  c : Bool
  deriving DecidableEq, Repr

/-- MARD, MAWR and MAST (R224). -/
structure AccOp where
  a : Reg
  b : Reg
  v : Reg
  w : Fin 8
  fv : Bool
  rr : Reg
  mode : AccMode
  ef : Ef
  row : Fin 64
  acc : Fin 4
  s : Bool
  c : Bool
  deriving DecidableEq, Repr

/-- Array instructions that read one general register: LACFG, LASTL, LASTS, LATBL, LASEED. -/
structure LaAOp where
  a : Reg
  s : Bool
  c : Bool
  deriving DecidableEq, Repr

/-- LAEVAL, LAVOTE and LAFB: a vector source and the fields of layout LAOUT or LAFB; `flag` is SNAP or TYPE,
`vd` is VD or VM (Table 03-6). -/
structure LaVOp where
  v : Reg
  fv : Bool
  flag : Bool
  vd : Reg
  s : Bool
  c : Bool
  deriving DecidableEq, Repr

/-- LATRAIN (R237). -/
structure LatrainOp where
  v : Reg
  fv : Bool
  a : Reg
  s : Bool
  c : Bool
  deriving DecidableEq, Repr

/-- Compressed forms with a register and a 5-bit immediate (Table 03-7). -/
structure CiOp where
  d : Reg
  imm : BitVec 5
  deriving DecidableEq, Repr

/-- Members of the V-format majors (Table 03-2). -/
inductive VOpc where
  | vadd | vsub | vmul | vmulh | vmulhu | vmin | vmax | vminu | vmaxu | vand | vor | vxor | vsll | vsrl | vsra
  | vabs | vdiv | vdivu | vrem | vremu | vsadd | vssub | vsaddu | vssubu | vwmul | vwmulu | vwmac | vwmacu
  | vwmacsu | vnshr | vnshru | vmv | vaddVx | vsubVx | vmulVx | vmulhVx | vmulhuVx | vminVx | vmaxVx | vminuVx
  | vmaxuVx | vandVx | vorVx | vxorVx | vsllVx | vsrlVx | vsraVx | vdivVx | vdivuVx | vremVx | vremuVx | vsaddVx
  | vssubVx | vsadduVx | vssubuVx | vwmulVx | vwmuluVx | vwmacVx | vwmacuVx | vwmacsuVx | vnshrVx | vnshruVx
  | vfadd | vfsub | vfmul | vfdiv | vfmin | vfmax | vfma | vfms | vfnma | vfnms | vfsqrt | vfrece | vfrsqe | vfsgn
  | vfclass | vfabs | vfcvtF2i | vfcvtF2u | vfcvtI2f | vfcvtU2f | vfcvtF2iz | vfcvtF2uz | vfcvtFwid | vfcvtFnar
  | vfcvtFrnd | vfaddVx | vfsubVx | vfmulVx | vfdivVx | vfminVx | vfmaxVx | vfmaVx | vfmsVx | vcmpEq | vcmpNe
  | vcmpLt | vcmpGe | vcmpLtu | vcmpGeu | vfcmpEq | vfcmpLt | vfcmpLe | vfcmpNe | vfcmpUnord | vfcmpOrd | vredsum
  | vredmax | vredmin | vredmaxu | vredminu | vredand | vredor | vredxor | vfredsumO | vfredsumU | vfredmax
  | vfredmin | vfscanO | vfscanF | vscan | vsegscan | vcompress | vexpand | vpopcpfx | vconflict | vprune | vperm
  | vslideup | vslidedn | vbcast | vmvxv | vmvvx | viota | vqrd | vmvcmpl | wcond | wsig | wnot | wmul | wmin
  | wmax | wmv | wmvv | join | jgrad | wdcond | wdsig | wscale | wcnt
  deriving DecidableEq, Repr

/-- Members of the VM-format majors (Table 03-2, R86). -/
inductive VMOpc where
  | vldUnit | vldStrided | vldIndexed | vldff | vstUnit | vstStrided | vstIndexed | vstbUnit | vstbStrided
  | vstbIndexed | vamoadd | vamoand | vamoor | vamoxor | vamomin | vamomax | vamoswap | vscaddD | vscaddU
  | vldkUnit | vldkStrided | vsave | vrest
  deriving DecidableEq, Repr

/-- An instruction that enters the VIQ (R11, R287): a V-format, VM-format or tile instruction, one of the four fences
that execute in VIQ order, a vector-length-setting instruction, the vector part of ENQ, or RESTVQ. -/
inductive VInstr where
  | v (op : VOpc) (o : VOp)
  | vm (op : VMOpc) (o : VMOp)
  | mtld (o : MtldOp)
  | mrow (o : MrowOp)
  | maclr (o : MaclrOp)
  | mard (o : AccOp)
  | mawr (o : AccOp)
  | mast (o : AccOp)
  | lacfg (o : LaAOp)
  | laeval (o : LaVOp)
  | lavote (o : LaVOp)
  | latrain (o : LatrainOp)
  | lafb (o : LaVOp)
  | lastl (o : LaAOp)
  | lasts (o : LaAOp)
  | latbl (o : LaAOp)
  | laseed (o : LaAOp)
  | vlsync
  | lafence (scope : Scope)
  | tlbinv (o : AbOp)
  | efence (scope : Scope)
  | setvli (o : SetvliOp)
  | setvl (o : R3)
  | enq (o : EnqOp)
  | restvq (a : Reg)
  deriving DecidableEq, Repr

/-- Who writes MBREQ (R388): a port, or a hart through the control window. -/
inductive Requester where
  | port (p : Fin 2)
  | management
  | hart (hartid : BitVec 12) (secure : Bool)
  deriving DecidableEq, Repr

/-- A register that REGISTER_WRITE can name (R7): a control register by its number, a register of the engine and
control window by its offset (R384), or a host control register by its BAR0 offset and port (R385). -/
inductive RegName where
  | cr (n : BitVec 12)
  | window (off : BitVec 16)
  | host (p : Fin 2) (off : BitVec 12)
  | management (off : BitVec 16)
  deriving DecidableEq, Repr

/-- Where an uncorrectable error is found (R364). -/
inductive ErrKind where
  /-- data of a memory block at a physical address, found by no hart's read (write-back, engine or scrubbing) -/
  | block
  /-- a byte of the scratchpad of the hart's core, found by no hart's read -/
  | scratchpad
  /-- a byte of the memory of the hart's cluster, likewise -/
  | clusterMemory
  /-- a byte of the package scratchpad, likewise -/
  | package
  /-- registers, queues or return stack of the hart -/
  | hartState
  /-- a stationary slot of the hart's core -/
  | slot (n : Fin 2)
  /-- an accumulator tile of the hart's core -/
  | acc
  /-- the array of the hart's cluster -/
  | array
  deriving DecidableEq, Repr

/-- A block that has a world (R395). -/
inductive Block where
  | core (n : Fin 512)
  | clusterMem (n : Fin 64)
  | array (n : Fin 64)
  | package (die : Fin 4)
  | engine (n : Fin 64)
  | mru (channel : Fin 192)
  deriving DecidableEq, Repr

/-- The read-modify-writes that a peer's agent makes (R129, R306). -/
inductive BusRmw where
  | add | and | or | xor | min | max | minu | maxu | swap
  /-- the operand is written if the old value equals the value given with it -/
  | cas
  deriving DecidableEq, Repr

/-- An access that arrives from outside: a host through a BAR (R385), or a peer agent (R306). A write and a
read-modify-write say whether they have release order (R137); the latter has 4 or 8 bytes, an operand, and a value to
compare with. -/
inductive BusAccess where
  | read (addr : BitVec 48) (len : Nat)
  | write (addr : BitVec 48) (data : List Byte) (rel : Bool)
  | rmw (op : BusRmw) (w32 : Bool) (rel : Bool) (addr : BitVec 48) (x cmp : Word)
  deriving DecidableEq, Repr

/-- One constructor for each row of the table of operations and events. -/
inductive Instr where
  /-- ADD (R114): Writes the sum of two general registers, modulo 2^64. -/
  | add (o : R3)
  /-- SUB (R114): Writes the difference of two general registers, modulo 2^64. -/
  | sub (o : R3)
  /-- AND (R114): Writes the bitwise AND of two general registers. -/
  | and (o : R3)
  /-- OR (R114): Writes the bitwise OR of two general registers. -/
  | or (o : R3)
  /-- XOR (R114): Writes the bitwise XOR of two general registers. -/
  | xor (o : R3)
  /-- ANDN (R114): Writes a AND NOT b. -/
  | andn (o : R3)
  /-- SLL (R114): Shifts a left by b[5:0]. -/
  | sll (o : R3)
  /-- SRL (R114): Shifts a right by b[5:0], shifting in zeros. -/
  | srl (o : R3)
  /-- SRA (R114): Shifts a right by b[5:0], shifting in copies of the sign. -/
  | sra (o : R3)
  /-- ROL (R114): Rotates a left by b[5:0]. -/
  | rol (o : R3)
  /-- SLT (R114): Writes 1 if a < b as signed numbers, else 0. -/
  | slt (o : R3)
  /-- SLTU (R114): Writes 1 if a < b as unsigned numbers, else 0. -/
  | sltu (o : R3)
  /-- MIN (R114): Writes the signed minimum. -/
  | min (o : R3)
  /-- MAX (R114): Writes the signed maximum. -/
  | max (o : R3)
  /-- MINU (R114): Writes the unsigned minimum. -/
  | minu (o : R3)
  /-- MAXU (R114): Writes the unsigned maximum. -/
  | maxu (o : R3)
  /-- MUL (R114): Writes the low 64 bits of a × b. -/
  | mul (o : R3)
  /-- MULH (R114): Writes the high 64 bits of the signed product. -/
  | mulh (o : R3)
  /-- MULHU (R114): Writes the high 64 bits of the unsigned product. -/
  | mulhu (o : R3)
  /-- DIV (R115): Writes the signed quotient, with the zero-divisor and overflow results and flags. -/
  | div (o : R3)
  /-- DIVU (R115): Writes the unsigned quotient; a zero divisor gives all ones and sets IFLAGS.DZ. -/
  | divu (o : R3)
  /-- REM (R115): Writes the signed remainder, with the zero-divisor and overflow results and flags. -/
  | rem (o : R3)
  /-- REMU (R115): Writes the unsigned remainder; a zero divisor returns the dividend and sets IFLAGS.DZ. -/
  | remu (o : R3)
  /-- CLZ (R114): Counts the leading zeros of a. -/
  | clz (o : R2)
  /-- CTZ (R114): Counts the trailing zeros of a. -/
  | ctz (o : R2)
  /-- POPC (R114): Counts the 1 bits of a. -/
  | popc (o : R2)
  /-- BSWAP (R114): Reverses the byte order of a. -/
  | bswap (o : R2)
  /-- SEXT (R114): Sign-extends a from the width that x gives. -/
  | sext (o : ExtOp)
  /-- ZEXT (R114): Zero-extends a from the width that x gives. -/
  | zext (o : ExtOp)
  /-- SEL (R114): Writes a if g[x] is nonzero, else b. -/
  | sel (o : SelOp)
  /-- ADDI (R116): Adds a sign-extended 12-bit immediate. -/
  | addi (o : IOp)
  /-- ANDI (R116): ANDs with a sign-extended immediate. -/
  | andi (o : IOp)
  /-- ORI (R116): ORs with a sign-extended immediate. -/
  | ori (o : IOp)
  /-- XORI (R116): XORs with a sign-extended immediate. -/
  | xori (o : IOp)
  /-- SLLI (R116): Shifts left by imm[5:0]. -/
  | slli (o : ShOp)
  /-- SRLI (R116): Shifts right logically by imm[5:0]. -/
  | srli (o : ShOp)
  /-- SRAI (R116): Shifts right arithmetically by imm[5:0]. -/
  | srai (o : ShOp)
  /-- SLTI (R116): Signed set-less-than against the immediate. -/
  | slti (o : IOp)
  /-- LIH (R117): Writes SignExt(imm × 2^12, 32). -/
  | lih (o : UOp)
  /-- ADDPC (R117): Writes PC + SignExt(imm × 2^12, 32). -/
  | addpc (o : UOp)
  /-- LB (R119): Loads a byte, sign-extended. -/
  | lb (o : MOp)
  /-- LH (R119): Loads a halfword, sign-extended. -/
  | lh (o : MOp)
  /-- LW (R119): Loads a word, sign-extended. -/
  | lw (o : MOp)
  /-- LD (R119): Loads a doubleword. -/
  | ld (o : MOp)
  /-- LBU (R119): Loads a byte, zero-extended. -/
  | lbu (o : MOp)
  /-- LHU (R119): Loads a halfword, zero-extended. -/
  | lhu (o : MOp)
  /-- LWU (R119): Loads a word, zero-extended. -/
  | lwu (o : MOp)
  /-- SB (R119): Stores the low byte of a register. -/
  | sb (o : MOp)
  /-- SH (R119): Stores the low halfword of a register. -/
  | sh (o : MOp)
  /-- SW (R119): Stores the low word of a register. -/
  | sw (o : MOp)
  /-- SD (R119): Stores a doubleword. -/
  | sd (o : MOp)
  /-- BEQ (R120): Branches when a = b. -/
  | beq (o : BOp)
  /-- BNE (R120): Branches when a ≠ b. -/
  | bne (o : BOp)
  /-- BLT (R120): Branches when a < b, signed. -/
  | blt (o : BOp)
  /-- BGE (R120): Branches when a ≥ b, signed. -/
  | bge (o : BOp)
  /-- BLTU (R120): Branches when a < b, unsigned. -/
  | bltu (o : BOp)
  /-- BGEU (R120): Branches when a ≥ b, unsigned. -/
  | bgeu (o : BOp)
  /-- BSTRIP (R121): Closes a strip loop: branches while the count is nonzero and traps NOPROG when the count fails to
  decrease. -/
  | bstrip (o : BsOp)
  /-- J (R122): Jumps PC-relative; with offset 0 the hart parks. -/
  | j (off : BitVec 20)
  /-- CALL (R122): Pushes PC + 4 on the return stack, then jumps PC-relative. -/
  | call (off : BitVec 20)
  /-- JI (R122): Jumps to g[a] + imm, with bit 0 cleared. -/
  | ji (o : JiOp)
  /-- CALLI (R122): Pushes PC + 4, then jumps to g[a] + imm. -/
  | calli (o : JiOp)
  /-- RET (R125): Pops the return address from hardware or from the spill area; traps RETEMPTY when both are empty. -/
  | ret
  /-- FADD (R126): Scalar floating-point add with a static or dynamic rounding mode. -/
  | fadd (o : FpOp)
  /-- FSUB (R126): Scalar floating-point subtract. -/
  | fsub (o : FpOp)
  /-- FMUL (R126): Scalar floating-point multiply. -/
  | fmul (o : FpOp)
  /-- FDIV (R126): Scalar floating-point divide. -/
  | fdiv (o : FpOp)
  /-- FSQRT (R126): Scalar floating-point square root. -/
  | fsqrt (o : FpOp)
  /-- FMA (R126): Scalar fused multiply-add with d as the addend, one rounding. -/
  | fma (o : FpOp)
  /-- FMIN (R126): Scalar minimumNumber. -/
  | fmin (o : FpOp)
  /-- FMAX (R126): Scalar maximumNumber. -/
  | fmax (o : FpOp)
  /-- FCMPEQ (R126): Writes 1 when a = b. -/
  | fcmpeq (o : FpOp)
  /-- FCMPLT (R126): Writes 1 when a < b. -/
  | fcmplt (o : FpOp)
  /-- FCMPLE (R126): Writes 1 when a ≤ b. -/
  | fcmple (o : FpOp)
  /-- FCLASS (R126): Writes a one-hot class mask of a. -/
  | fclass (o : FpOp)
  /-- FSGNJ (R126): Writes a with the sign of b. -/
  | fsgnj (o : FpOp)
  /-- FSGNJN (R126): Writes a with the inverted sign of b. -/
  | fsgnjn (o : FpOp)
  /-- FSGNJX (R126): Writes a with the XOR of the two signs. -/
  | fsgnjx (o : FpOp)
  /-- FCVTFI (R127): Converts a float to an integer type, saturating. -/
  | fcvtfi (o : FcvtIOp)
  /-- FCVTIF (R127): Converts an integer type to a float. -/
  | fcvtif (o : FcvtIOp)
  /-- FCVTFF (R127): Converts between floating-point formats. -/
  | fcvtff (o : FcvtFOp)
  /-- AMOADD (R129): Atomic add at the given order and scope; returns the old value. -/
  | amoadd (o : AmoOp)
  /-- AMOAND (R129): Atomic AND. -/
  | amoand (o : AmoOp)
  /-- AMOOR (R129): Atomic OR. -/
  | amoor (o : AmoOp)
  /-- AMOXOR (R129): Atomic XOR. -/
  | amoxor (o : AmoOp)
  /-- AMOMIN (R129): Atomic signed minimum. -/
  | amomin (o : AmoOp)
  /-- AMOMAX (R129): Atomic signed maximum. -/
  | amomax (o : AmoOp)
  /-- AMOMINU (R129): Atomic unsigned minimum. -/
  | amominu (o : AmoOp)
  /-- AMOMAXU (R129): Atomic unsigned maximum. -/
  | amomaxu (o : AmoOp)
  /-- AMOSWAP (R129): Atomic swap. -/
  | amoswap (o : AmoOp)
  /-- AMOCAS (R129): Atomic compare-and-swap against the old value of g[d]. -/
  | amocas (o : AmoOp)
  /-- LDA (R130): Ordered load that also sets the monitored line. -/
  | lda (o : AmoOp)
  /-- STR (R130): Ordered store of g[b]. -/
  | str (o : AmoOp)
  /-- TAKE (R132): Owner's indivisible pop from the bottom of a queue object. -/
  | take (o : AmoOp)
  /-- STEAL (R132): Thief's indivisible pop from the top of a queue object. -/
  | steal (o : AmoOp)
  /-- TICKET (R133): Takes a ticket by incrementing NEXT of a ticket word; returns the old word. -/
  | ticket (o : AmoOp)
  /-- TRAP (R134): Raises the software trap with a 12-bit code. -/
  | trap (code : BitVec 12)
  /-- ERET (R135): Returns from a trap to EPC, restores privilege and IE, and thaws frozen vector entries. -/
  | eret
  /-- CRD (R136): Reads a control register. -/
  | crd (o : CrdOp)
  /-- CWR (R136): Writes a control register and returns its old value. -/
  | cwr (o : CrOp)
  /-- CRS (R136): Sets bits of a control register and returns its old value. -/
  | crs (o : CrOp)
  /-- CRC (R136): Clears bits of a control register and returns its old value. -/
  | crc (o : CrOp)
  /-- WFE (R137): Suspends the hart until an interrupt, a release to the monitored line or a timeout. -/
  | wfe
  /-- PAUSE (R138): Stops fetch for 32 cycles and has no architectural effect. -/
  | pause
  /-- FENCE (R256): Drain point; orders accesses by kind at a scope. -/
  | fence (scope : Scope) (kind : FenceKind)
  /-- SVFENCE (R256): Drain point; orders all earlier scalar and vector accesses before all later ones. -/
  | svfence
  /-- IFENCE (R256): Makes earlier scalar stores visible to later fetches and discards prefetched instructions. -/
  | ifence
  /-- VLSYNC (R256): In VIQ order, waits until the vector accesses of every lane slice have performed. -/
  | vlsync
  /-- LAFENCE (R318): Orders array events and vector memory accesses at a scope. -/
  | lafence (scope : Scope)
  /-- TLBINV (R257): Invalidates translations for a page, or for the hart's world, and waits until no pinned use
  remains. -/
  | tlbinv (o : AbOp)
  /-- EFENCE (R256): Orders earlier accesses before later ENQ slot writes at a scope. -/
  | efence (scope : Scope)
  /-- SETVLI (R142): Sets VTYPE from an immediate and grants VL. -/
  | setvli (o : SetvliOp)
  /-- SETVL (R142): Sets VTYPE from g[b] and grants VL. -/
  | setvl (o : R3)
  /-- ENQ (R245): Reserves chain slots indivisibly at the descriptor and returns the count and first sequence number. -/
  | enq (o : EnqOp)
  /-- ENQ_SLOT_WRITE (R245): Part 2 of ENQ in VIQ order writes each command or VOID slot with V = 1 and sets the
  result weights. -/
  | enqSlotWrite
  /-- SEQWAIT (R252): Waits until DONE.SEQ reaches a value or DONE.F is set, as an acquire. -/
  | seqwait (o : R3)
  /-- SEQRD (R252): Reads a chain's DONE word as an acquire. -/
  | seqrd (o : R2)
  /-- QBIND (R253): Binds a stream register to a copy engine command. -/
  | qbind (o : QbindOp)
  /-- QRD (R254): Reads 8 bytes of a stream into a general register. -/
  | qrd (o : QrdOp)
  /-- ARRWAIT (R252): Waits until an 8-byte counter reaches a value, as an acquire. -/
  | arrwait (o : R3)
  /-- WAIT_SATISFIED (R252): The condition of a waiting SEQWAIT or ARRWAIT becomes true, and the instruction
  completes. -/
  | waitSatisfied
  /-- GBAR (R255): Arrives at the gang barrier and waits. -/
  | gbar
  /-- GBAR_RELEASE (R255): Once every live hart has arrived, all arrivals of the episode complete together. -/
  | gbarRelease
  /-- WATCH_SET (R260): Sets the watch bit of every granule in a range. -/
  | watchSet (o : AbOp)
  /-- WATCH_CLR (R260): Clears the watch bit of every granule in a range. -/
  | watchClr (o : AbOp)
  /-- SAVEVQ (R258): Writes the decoupled state frame, empties the queues and marks every register full. -/
  | savevq (a : Reg)
  /-- RESTVQ (R259): Reads and checks a frame, writes the trap copy of VTYPE and enters the VIQ. -/
  | restvq (a : Reg)
  /-- RESTVQ_HEAD (R259): At the head of the VIQ, restores VL, VTYPE, FEMAP and the held instructions, then restarts
  the head. -/
  | restvqHead
  /-- VADD (R165): Element-wise integer add. -/
  | vadd (o : VOp)
  /-- VSUB (R165): Element-wise integer subtract. -/
  | vsub (o : VOp)
  /-- VMUL (R165): Element-wise low product. -/
  | vmul (o : VOp)
  /-- VMULH (R165): Element-wise high signed product. -/
  | vmulh (o : VOp)
  /-- VMULHU (R165): Element-wise high unsigned product. -/
  | vmulhu (o : VOp)
  /-- VMIN (R165): Element-wise signed minimum. -/
  | vmin (o : VOp)
  /-- VMAX (R165): Element-wise signed maximum. -/
  | vmax (o : VOp)
  /-- VMINU (R165): Element-wise unsigned minimum. -/
  | vminu (o : VOp)
  /-- VMAXU (R165): Element-wise unsigned maximum. -/
  | vmaxu (o : VOp)
  /-- VAND (R165): Element-wise AND. -/
  | vand (o : VOp)
  /-- VOR (R165): Element-wise OR. -/
  | vor (o : VOp)
  /-- VXOR (R165): Element-wise XOR. -/
  | vxor (o : VOp)
  /-- VSLL (R165): Element-wise shift left. -/
  | vsll (o : VOp)
  /-- VSRL (R165): Element-wise logical shift right. -/
  | vsrl (o : VOp)
  /-- VSRA (R165): Element-wise arithmetic shift right. -/
  | vsra (o : VOp)
  /-- VABS (R165): Element-wise absolute value, wrapping. -/
  | vabs (o : VOp)
  /-- VDIV (R167): Element-wise signed divide with per-element corner cases. -/
  | vdiv (o : VOp)
  /-- VDIVU (R167): Element-wise unsigned divide. -/
  | vdivu (o : VOp)
  /-- VREM (R167): Element-wise signed remainder. -/
  | vrem (o : VOp)
  /-- VREMU (R167): Element-wise unsigned remainder. -/
  | vremu (o : VOp)
  /-- VSADD (R166): Element-wise saturating signed add. -/
  | vsadd (o : VOp)
  /-- VSSUB (R166): Element-wise saturating signed subtract. -/
  | vssub (o : VOp)
  /-- VSADDU (R166): Element-wise saturating unsigned add. -/
  | vsaddu (o : VOp)
  /-- VSSUBU (R166): Element-wise saturating unsigned subtract. -/
  | vssubu (o : VOp)
  /-- VWMUL (R168): Widening signed multiply into a register pair. -/
  | vwmul (o : VOp)
  /-- VWMULU (R168): Widening unsigned multiply. -/
  | vwmulu (o : VOp)
  /-- VWMAC (R168): Widening signed multiply-accumulate into the pair. -/
  | vwmac (o : VOp)
  /-- VWMACU (R168): Widening unsigned multiply-accumulate. -/
  | vwmacu (o : VOp)
  /-- VWMACSU (R168): Widening signed-by-unsigned multiply-accumulate. -/
  | vwmacsu (o : VOp)
  /-- VNSHR (R169): Narrowing arithmetic shift with signed saturation. -/
  | vnshr (o : VOp)
  /-- VNSHRU (R169): Narrowing logical shift with unsigned saturation. -/
  | vnshru (o : VOp)
  /-- VMV (R170): Copies the raw bits of each active element. -/
  | vmv (o : VOp)
  /-- VADD_VX (R161): Integer add of a scalar from the SOQ. -/
  | vaddVx (o : VOp)
  /-- VSUB_VX (R161): Integer subtract of a scalar. -/
  | vsubVx (o : VOp)
  /-- VMUL_VX (R161): Low product by a scalar. -/
  | vmulVx (o : VOp)
  /-- VMULH_VX (R161): High signed product by a scalar. -/
  | vmulhVx (o : VOp)
  /-- VMULHU_VX (R161): High unsigned product by a scalar. -/
  | vmulhuVx (o : VOp)
  /-- VMIN_VX (R161): Signed minimum with a scalar. -/
  | vminVx (o : VOp)
  /-- VMAX_VX (R161): Signed maximum with a scalar. -/
  | vmaxVx (o : VOp)
  /-- VMINU_VX (R161): Unsigned minimum with a scalar. -/
  | vminuVx (o : VOp)
  /-- VMAXU_VX (R161): Unsigned maximum with a scalar. -/
  | vmaxuVx (o : VOp)
  /-- VAND_VX (R161): AND with a scalar. -/
  | vandVx (o : VOp)
  /-- VOR_VX (R161): OR with a scalar. -/
  | vorVx (o : VOp)
  /-- VXOR_VX (R161): XOR with a scalar. -/
  | vxorVx (o : VOp)
  /-- VSLL_VX (R161): Shift left by a scalar. -/
  | vsllVx (o : VOp)
  /-- VSRL_VX (R161): Logical shift right by a scalar. -/
  | vsrlVx (o : VOp)
  /-- VSRA_VX (R161): Arithmetic shift right by a scalar. -/
  | vsraVx (o : VOp)
  /-- VDIV_VX (R161): Signed divide by a scalar. -/
  | vdivVx (o : VOp)
  /-- VDIVU_VX (R161): Unsigned divide by a scalar. -/
  | vdivuVx (o : VOp)
  /-- VREM_VX (R161): Signed remainder by a scalar. -/
  | vremVx (o : VOp)
  /-- VREMU_VX (R161): Unsigned remainder by a scalar. -/
  | vremuVx (o : VOp)
  /-- VSADD_VX (R161): Saturating signed add of a scalar. -/
  | vsaddVx (o : VOp)
  /-- VSSUB_VX (R161): Saturating signed subtract of a scalar. -/
  | vssubVx (o : VOp)
  /-- VSADDU_VX (R161): Saturating unsigned add of a scalar. -/
  | vsadduVx (o : VOp)
  /-- VSSUBU_VX (R161): Saturating unsigned subtract of a scalar. -/
  | vssubuVx (o : VOp)
  /-- VWMUL_VX (R161): Widening signed multiply by a scalar. -/
  | vwmulVx (o : VOp)
  /-- VWMULU_VX (R161): Widening unsigned multiply by a scalar. -/
  | vwmuluVx (o : VOp)
  /-- VWMAC_VX (R161): Widening signed multiply-accumulate by a scalar. -/
  | vwmacVx (o : VOp)
  /-- VWMACU_VX (R161): Widening unsigned multiply-accumulate by a scalar. -/
  | vwmacuVx (o : VOp)
  /-- VWMACSU_VX (R161): Widening signed-by-unsigned multiply-accumulate by a scalar. -/
  | vwmacsuVx (o : VOp)
  /-- VNSHR_VX (R161): Narrowing arithmetic shift by a scalar amount. -/
  | vnshrVx (o : VOp)
  /-- VNSHRU_VX (R161): Narrowing logical shift by a scalar amount. -/
  | vnshruVx (o : VOp)
  /-- VFADD (R171): Element-wise floating-point add. -/
  | vfadd (o : VOp)
  /-- VFSUB (R171): Element-wise floating-point subtract. -/
  | vfsub (o : VOp)
  /-- VFMUL (R171): Element-wise floating-point multiply. -/
  | vfmul (o : VOp)
  /-- VFDIV (R171): Element-wise floating-point divide. -/
  | vfdiv (o : VOp)
  /-- VFMIN (R171): Element-wise minimumNumber. -/
  | vfmin (o : VOp)
  /-- VFMAX (R171): Element-wise maximumNumber. -/
  | vfmax (o : VOp)
  /-- VFMA (R171): Fused a × b + c, with c read from vd. -/
  | vfma (o : VOp)
  /-- VFMS (R171): Fused a × b − c. -/
  | vfms (o : VOp)
  /-- VFNMA (R172): Fused −(a × b) − c. -/
  | vfnma (o : VOp)
  /-- VFNMS (R172): Fused −(a × b) + c. -/
  | vfnms (o : VOp)
  /-- VFSQRT (R172): Element-wise square root. -/
  | vfsqrt (o : VOp)
  /-- VFRECE (R173): Reciprocal estimate rounded to the target set. -/
  | vfrece (o : VOp)
  /-- VFRSQE (R173): Reciprocal square-root estimate. -/
  | vfrsqe (o : VOp)
  /-- VFSGN (R172): Writes a with the sign bit of b. -/
  | vfsgn (o : VOp)
  /-- VFCLASS (R172): Writes the FCLASS bit of a as an integer. -/
  | vfclass (o : VOp)
  /-- VFABS (R172): Clears the sign bit of a. -/
  | vfabs (o : VOp)
  /-- VFCVT_F2I (R174): Converts float to signed integer by FCSR.RM. -/
  | vfcvtF2i (o : VOp)
  /-- VFCVT_F2U (R174): Converts float to unsigned integer by FCSR.RM. -/
  | vfcvtF2u (o : VOp)
  /-- VFCVT_I2F (R174): Converts signed integer to float. -/
  | vfcvtI2f (o : VOp)
  /-- VFCVT_U2F (R174): Converts unsigned integer to float. -/
  | vfcvtU2f (o : VOp)
  /-- VFCVT_F2IZ (R174): Converts float to signed integer toward zero. -/
  | vfcvtF2iz (o : VOp)
  /-- VFCVT_F2UZ (R174): Converts float to unsigned integer toward zero. -/
  | vfcvtF2uz (o : VOp)
  /-- VFCVT_FWID (R174): Widens floats exactly into a register pair. -/
  | vfcvtFwid (o : VOp)
  /-- VFCVT_FNAR (R174): Narrows pair floats to SEW. -/
  | vfcvtFnar (o : VOp)
  /-- VFCVT_FRND (R174): Rounds to an integral value in the same format. -/
  | vfcvtFrnd (o : VOp)
  /-- VFADD_VX (R161): Floating-point add of a scalar. -/
  | vfaddVx (o : VOp)
  /-- VFSUB_VX (R161): Floating-point subtract of a scalar. -/
  | vfsubVx (o : VOp)
  /-- VFMUL_VX (R161): Floating-point multiply by a scalar. -/
  | vfmulVx (o : VOp)
  /-- VFDIV_VX (R161): Floating-point divide by a scalar. -/
  | vfdivVx (o : VOp)
  /-- VFMIN_VX (R161): minimumNumber with a scalar. -/
  | vfminVx (o : VOp)
  /-- VFMAX_VX (R161): maximumNumber with a scalar. -/
  | vfmaxVx (o : VOp)
  /-- VFMA_VX (R161): Fused a × x + c with a scalar x. -/
  | vfmaVx (o : VOp)
  /-- VFMS_VX (R161): Fused a × x − c with a scalar x. -/
  | vfmsVx (o : VOp)
  /-- VCMP_EQ (R175): Integer equal compare into a weight register. -/
  | vcmpEq (o : VOp)
  /-- VCMP_NE (R175): Integer not-equal compare into a weight. -/
  | vcmpNe (o : VOp)
  /-- VCMP_LT (R175): Signed less-than compare into a weight. -/
  | vcmpLt (o : VOp)
  /-- VCMP_GE (R175): Signed greater-or-equal compare into a weight. -/
  | vcmpGe (o : VOp)
  /-- VCMP_LTU (R175): Unsigned less-than compare into a weight. -/
  | vcmpLtu (o : VOp)
  /-- VCMP_GEU (R175): Unsigned greater-or-equal compare into a weight. -/
  | vcmpGeu (o : VOp)
  /-- VFCMP_EQ (R176): Floating-point equal compare into a weight. -/
  | vfcmpEq (o : VOp)
  /-- VFCMP_LT (R176): Floating-point less-than compare into a weight. -/
  | vfcmpLt (o : VOp)
  /-- VFCMP_LE (R176): Floating-point less-or-equal compare into a weight. -/
  | vfcmpLe (o : VOp)
  /-- VFCMP_NE (R176): Floating-point not-equal compare into a weight. -/
  | vfcmpNe (o : VOp)
  /-- VFCMP_UNORD (R176): Unordered test into a weight. -/
  | vfcmpUnord (o : VOp)
  /-- VFCMP_ORD (R176): Ordered test into a weight. -/
  | vfcmpOrd (o : VOp)
  /-- VREDSUM (R177): Integer sum reduction into element 0. -/
  | vredsum (o : VOp)
  /-- VREDMAX (R177): Signed maximum reduction. -/
  | vredmax (o : VOp)
  /-- VREDMIN (R177): Signed minimum reduction. -/
  | vredmin (o : VOp)
  /-- VREDMAXU (R177): Unsigned maximum reduction. -/
  | vredmaxu (o : VOp)
  /-- VREDMINU (R177): Unsigned minimum reduction. -/
  | vredminu (o : VOp)
  /-- VREDAND (R177): AND reduction. -/
  | vredand (o : VOp)
  /-- VREDOR (R177): OR reduction. -/
  | vredor (o : VOp)
  /-- VREDXOR (R177): XOR reduction. -/
  | vredxor (o : VOp)
  /-- VFREDSUM_O (R65): Ordered floating-point sum reduction. -/
  | vfredsumO (o : VOp)
  /-- VFREDSUM_U (R66): Tree floating-point sum reduction, fixed by the partition width; DETVIOL under DET. -/
  | vfredsumU (o : VOp)
  /-- VFREDMAX (R178): maximumNumber reduction. -/
  | vfredmax (o : VOp)
  /-- VFREDMIN (R178): minimumNumber reduction. -/
  | vfredmin (o : VOp)
  /-- VFSCAN_O (R67): Ordered floating-point inclusive scan. -/
  | vfscanO (o : VOp)
  /-- VFSCAN_F (R67): Doubling-distance floating-point scan; DETVIOL under DET. -/
  | vfscanF (o : VOp)
  /-- VSCAN (R178): Integer inclusive prefix sums over the active elements. -/
  | vscan (o : VOp)
  /-- VSEGSCAN (R178): Segmented integer scan with segment starts from vb. -/
  | vsegscan (o : VOp)
  /-- VLD_UNIT (R150): Unit-stride vector load, widening by fmt. -/
  | vldUnit (o : VMOp)
  /-- VLD_STRIDED (R150): Strided vector load. -/
  | vldStrided (o : VMOp)
  /-- VLD_INDEXED (R150): Indexed gather through the page sorter. -/
  | vldIndexed (o : VMOp)
  /-- VLDFF (R151): Unit-stride first-fault load that shortens VL at a later fault. -/
  | vldff (o : VMOp)
  /-- VST_UNIT (R150): Unit-stride vector store, narrowing by fmt. -/
  | vstUnit (o : VMOp)
  /-- VST_STRIDED (R150): Strided vector store. -/
  | vstStrided (o : VMOp)
  /-- VST_INDEXED (R150): Indexed scatter, with duplicates resolved by the highest index. -/
  | vstIndexed (o : VMOp)
  /-- VSTB_UNIT (R152): Unit-stride blend store: read-modify-write blending new and old by weight. -/
  | vstbUnit (o : VMOp)
  /-- VSTB_STRIDED (R152): Strided blend store. -/
  | vstbStrided (o : VMOp)
  /-- VSTB_INDEXED (R152): Indexed blend store. -/
  | vstbIndexed (o : VMOp)
  /-- VAMOADD (R153): Vector atomic add at the memory-side reduction unit; returns old values. -/
  | vamoadd (o : VMOp)
  /-- VAMOAND (R153): Vector atomic AND. -/
  | vamoand (o : VMOp)
  /-- VAMOOR (R153): Vector atomic OR. -/
  | vamoor (o : VMOp)
  /-- VAMOXOR (R153): Vector atomic XOR. -/
  | vamoxor (o : VMOp)
  /-- VAMOMIN (R153): Vector atomic signed minimum. -/
  | vamomin (o : VMOp)
  /-- VAMOMAX (R153): Vector atomic signed maximum. -/
  | vamomax (o : VMOp)
  /-- VAMOSWAP (R153): Vector atomic swap. -/
  | vamoswap (o : VMOp)
  /-- VSCADD_D (R154): Deterministic scatter-add applied per address in ascending element index. -/
  | vscaddD (o : VMOp)
  /-- VSCADD_U (R154): Unordered scatter-add; DETVIOL under DET. -/
  | vscaddU (o : VMOp)
  /-- VSCADD_REPLAY_GROUP (R155): After a group of 16 ranks to one address has applied, the core sends the next group.
  -/
  | vscaddReplayGroup
  /-- VLDK_UNIT (R156): Loads 256 E8M0 scales into a scale register, unit stride. -/
  | vldkUnit (o : VMOp)
  /-- VLDK_STRIDED (R156): Loads scales with a byte stride. -/
  | vldkStrided (o : VMOp)
  /-- VCOMPRESS (R181): Packs the active elements in ascending order. -/
  | vcompress (o : VOp)
  /-- VEXPAND (R182): Spreads packed elements to the active positions. -/
  | vexpand (o : VOp)
  /-- VPOPCPFX (R183): Writes the prefix counts of active elements. -/
  | vpopcpfx (o : VOp)
  /-- VCONFLICT (R184): Writes each active element's rank among equal raw values. -/
  | vconflict (o : VOp)
  /-- VPRUNE (R185): Keeps the n largest magnitudes in each group of m elements. -/
  | vprune (o : VOp)
  /-- VPERM (R187): Permutes va by the indices in vb. -/
  | vperm (o : VOp)
  /-- VSLIDEUP (R188): Slides elements up by a scalar amount. -/
  | vslideup (o : VOp)
  /-- VSLIDEDN (R188): Slides elements down by a scalar amount. -/
  | vslidedn (o : VOp)
  /-- VBCAST (R189): Broadcasts a scalar to the active elements. -/
  | vbcast (o : VOp)
  /-- VMVXV (R190): Drain point; moves one vector element into a general register. -/
  | vmvxv (o : VOp)
  /-- VMVVX (R191): Writes a scalar into element g[a] of a vector register. -/
  | vmvvx (o : VOp)
  /-- VIOTA (R192): Writes the element index to each active element. -/
  | viota (o : VOp)
  /-- VQRD (R254): Consumes stream bytes into the active elements of a vector register. -/
  | vqrd (o : VOp)
  /-- VMVCMPL (R192): Writes the bitwise complement of each active element. -/
  | vmvcmpl (o : VOp)
  /-- WCOND (R197): Turns vector values into weights by WeightOf. -/
  | wcond (o : VOp)
  /-- WSIG (R198): Writes the weight nearest 32768 · σ(x). -/
  | wsig (o : VOp)
  /-- WNOT (R199): Writes the complementary weight 32768 − q. -/
  | wnot (o : VOp)
  /-- WMUL (R199): Writes the rounded product of two weights. -/
  | wmul (o : VOp)
  /-- WMIN (R199): Writes the minimum of two weights. -/
  | wmin (o : VOp)
  /-- WMAX (R199): Writes the maximum of two weights. -/
  | wmax (o : VOp)
  /-- WMV (R200): Moves raw vector bits into a weight register without saturation. -/
  | wmv (o : VOp)
  /-- WMVV (R200): Moves raw weight encodings into vector elements. -/
  | wmvv (o : VOp)
  /-- JOIN (R204): Blends two arms by weight with one RNE rounding. -/
  | join (o : VOp)
  /-- JGRAD (R205): Replaces the upstream gradient with dL/dw; pruned elements become +0 with PRUNEZ. -/
  | jgrad (o : VOp)
  /-- WDCOND (R207): Carries a gradient through WCOND. -/
  | wdcond (o : VOp)
  /-- WDSIG (R208): Carries a gradient through WSIG. -/
  | wdsig (o : VOp)
  /-- WSCALE (R206): Splits a gradient into the gradients of the two arms. -/
  | wscale (o : VOp)
  /-- WCNT (R201): Counts the elements active under both weights. -/
  | wcnt (o : VOp)
  /-- FARM (R202): Drains, then branches when no element's weight exceeds THR. -/
  | farm (o : ArmOp)
  /-- WLOOP (R202): Drains, then branches when any element's weight exceeds THR. -/
  | wloop (o : ArmOp)
  /-- VSAVE (R158): Writes a spill frame of a vector register's raw elements. -/
  | vsave (o : VMOp)
  /-- VREST (R159): Checks a spill frame header and restores a vector register, clearing the bits above. -/
  | vrest (o : VMOp)
  /-- C_ADDI (R92): Compressed ADDI d, d, imm. -/
  | cAddi (o : CiOp)
  /-- C_LI (R92): Compressed ADDI d, g0, imm. -/
  | cLi (o : CiOp)
  /-- C_MV (R92): Compressed ADD d, g0, a. -/
  | cMv (o : R2)
  /-- C_ADD (R92): Compressed ADD d, d, a. -/
  | cAdd (o : R2)
  /-- C_SUB (R92): Compressed SUB d, d, a. -/
  | cSub (o : R2)
  /-- C_LD (R92): Compressed LD from g1 plus a scaled offset. -/
  | cLd (o : CiOp)
  /-- C_SD (R92): Compressed SD to g1 plus a scaled offset. -/
  | cSd (o : CiOp)
  /-- C_J (R92): Compressed J with a 10-bit halfword offset. -/
  | cJ (off : BitVec 10)
  /-- C_BEQZ (R92): Compressed BEQ a, g0. -/
  | cBeqz (o : CiOp)
  /-- C_BNEZ (R92): Compressed BNE a, g0. -/
  | cBnez (o : CiOp)
  /-- C_RET (R92): Compressed RET. -/
  | cRet
  /-- C_NOP (R92): Compressed no-operation. -/
  | cNop
  /-- C_VGAP (R93): In compiler-directed mode, holds the next vector issue back by n slots. -/
  | cVgap (n : BitVec 4)
  /-- C_TRAP0 (R134): Compressed TRAP 0. -/
  | cTrap0
  /-- MTLD (R214): Loads a whole B tile into a stationary slot, translating in pass 1 and writing in pass 2. -/
  | mtld (o : MtldOp)
  /-- MROW (R217): Adds one row of A·B block products to an accumulator row. -/
  | mrow (o : MrowOp)
  /-- MACLR (R225): Zeroes a run of accumulator rows. -/
  | maclr (o : MaclrOp)
  /-- MARD (R225): Moves raw bits of an accumulator row into a vector register. -/
  | mard (o : AccOp)
  /-- MAWR (R225): Writes raw bits of a vector register into an accumulator row. -/
  | mawr (o : AccOp)
  /-- MAST (R226): Stores accumulator row elements to memory as a native vector store. -/
  | mast (o : AccOp)
  /-- STE_GRANT (R220): The STE grants the next ready MROW from the high or low tile queue, with the 7-grant
  anti-starvation rule. -/
  | steGrant
  /-- LACFG (R232): Writes the array configuration word. -/
  | lacfg (o : LaAOp)
  /-- LAEVAL (R233): Evaluates every clause on a feature vector into a bit vector. -/
  | laeval (o : LaVOp)
  /-- LAVOTE (R234): Sums clause votes per class, clamped to ±T. -/
  | lavote (o : LaVOp)
  /-- LATRAIN (R237): One training step with selection draws and table-driven nudges. -/
  | latrain (o : LatrainOp)
  /-- LAFB (R238): One step applying type I or II feedback to masked clauses. -/
  | lafb (o : LaVOp)
  /-- LASTL (R239): Checks and loads an array state image. -/
  | lastl (o : LaAOp)
  /-- LASTS (R239): Writes the array state image at one step boundary. -/
  | lasts (o : LaAOp)
  /-- LATBL (R235): Loads the 16-entry nudge table. -/
  | latbl (o : LaAOp)
  /-- LASEED (R236): Sets SEED and resets the step count n. -/
  | laseed (o : LaAOp)
  /-- RASD_FLUSH (R16): Writing 1 to RASD.FLUSH spills every hardware return-stack entry, or traps STACKLIM. -/
  | rasdFlush (x : Word)
  /-- QS_REBIND (R23): A CWR to QSn rebinds the stream register to the named command and position. -/
  | qsRebind (n : Fin 4) (x : Word)
  /-- VL_WRITE (R379): A control register write of VL stores the WARL length and closes a strip. -/
  | vlWrite (x : Word)
  /-- VTYPE_WRITE (R51): In S, a control register write of VTYPE also writes the trap copy. -/
  | vtypeWrite (x : Word)
  /-- REGISTER_WRITE (R7): A write to a register without a row of its own stores the value under its access code. -/
  | registerWrite (r : RegName) (x : Word)
  /-- GMBLIM_WRITE (R343): Writes the ramp limit unless locked, then sets LOCK as written. -/
  | gmblimWrite (x : Word)
  /-- SEM_READ (R386): A host read of SEM claims the semaphore when free and returns it. -/
  | semRead (p : Fin 2)
  /-- SEM_RELEASE (R386): The owner's write of SEM with HELD = 0 releases the semaphore. -/
  | semRelease (p : Fin 2)
  /-- PUSHGO (R393): The semaphore holder's GO starts verification and boot of the pushed image. -/
  | pushgo (p : Fin 2) (x : Word)
  /-- NOR_PROGRAM (R393): With PROGRAM = 1, the firmware writes the booted pushed image to SPI NOR. -/
  | norProgram
  /-- MBREQ (R388): Writing a request address to MBREQ submits it, or drops it when 64 are pending. -/
  | mbreq (src : Requester) (addr : Word)
  /-- LOAD (R389): Reads NVMe logical blocks into consecutive physical memory. -/
  | reqLoad
  /-- ATTEST (R394): Writes a signed attestation report. -/
  | reqAttest
  /-- DRAIN (R398): Stops placement on a cluster until it is offline, then tests and repairs it. -/
  | reqDrain
  /-- RETURN (R398): Zeroes a cluster and puts it back into service. -/
  | returnCluster
  /-- RETIRE (R399): Copies a channel's blocks into the spared range and redirects them. -/
  | reqRetire
  /-- REQUEST_COMPLETE (R388): A finished request gets its STATUS, its counter add and, for a port, MSI-X vector 1. -/
  | requestComplete
  /-- ENGINE_COMMAND_START (R247): The engine starts the next valid command after its trigger is met, taking ownership
  of its destination lines. -/
  | engineCommandStart (e : Fin 68)
  /-- VOID (R250): The VOID operation does nothing and completes at once. -/
  | engVoid (e : Fin 64)
  /-- COPY (R250): Copies LEN bytes from SRC to DST. -/
  | engCopy (e : Fin 64)
  /-- COPY2D (R250): Copies rows with source and destination strides. -/
  | engCopy2d (e : Fin 64)
  /-- COPYD (R250): Copies rows of compressed sectors, decompressing in the engine. -/
  | engCopyd (e : Fin 64)
  /-- FILL (R250): Fills rows with an 8-byte pattern. -/
  | engFill (e : Fin 64)
  /-- ROWGATHER (R250): Gathers rows by a 32-bit index list. -/
  | engRowgather (e : Fin 64)
  /-- PGMODE (R280): Sets frames' compression attribute and re-encodes their blocks. -/
  | pgmode (d : Fin 4)
  /-- PGZERO (R280): Zeroes frames by metadata and invalidates their cached copies. -/
  | pgzero (d : Fin 4)
  /-- HOTREAD (R280): Writes the hotness words of frames to a buffer. -/
  | hotread (d : Fin 4)
  /-- HOTCLEAR (R280): Clears the hotness counters of frames. -/
  | hotclear (d : Fin 4)
  /-- MIGRATE (R284): Moves a frame to a target frame, or refuses after four moves within 8 ms. -/
  | migrate (d : Fin 4)
  /-- MIGFREEZE_MESSAGE (R284): The target device receives a refusal message and counts MIGFREEZE. -/
  | migfreezeMessage
  /-- ENGINE_COMMAND_COMPLETE (R247): A finished command adds to its arrival counter, then releases its DONE word. -/
  | engineCommandComplete (e : Fin 68)
  /-- ENGINE_COMMAND_FAULT (R248): A faulted command writes DONE with F and CODE, sets HALT and sends a fault message.
  -/
  | engineCommandFault (e : Fin 68)
  /-- CHAIN_RESUME (R314): Writing HALT := 0 makes the engine rerun the faulted command from its start. -/
  | chainResume (e : Fin 68)
  /-- STREAM_BUFFER_RESUME (R253): A stalled stream delivery resumes when reads free room in the 4 KiB buffer. -/
  | streamBufferResume (e : Fin 64)
  /-- LINE_RECALL (R311): An access that waited on an engine-owned line performs once the engine has written it. -/
  | lineRecall
  /-- PARTIAL_WRITE_MERGE (R279): The controller reads, merges, re-encodes and writes a block for a partial write. -/
  | partialWriteMerge (pa : BitVec 48) (data : List Byte)
  /-- L2_WRITEBACK (R266): An L2 line is written back whole and compressed again. -/
  | l2Writeback (blk : BitVec 40)
  /-- HELM_WALK (R326): The Helm walks the region tree by priority and places, resumes or pre-empts gangs. -/
  | helmWalk
  /-- RAMP_SLOT_START (R344): Every 2 µs a new ramp slot begins and triggers a walk. -/
  | rampSlotStart
  /-- GIMBAL_CAP_STEP (R345): Every 175 cycles the Gimbal lowers or raises gang issue caps by one eighth. -/
  | gimbalCapStep (pwr : BitVec 16)
  /-- BALLAST_TAPER_STEP (R346): Ballast duty falls by one eighth at each taper interval. -/
  | ballastTaperStep
  /-- RELEASE_CAP_STEP (R347): After a GBAR release, a hart's issue cap rises by one eighth every 175 cycles. -/
  | releaseCapStep
  /-- ELEMENT_GROUP_ISSUE (R336): Each cycle the partition sequencer issues one element group of a chosen ready hart. -/
  | elementGroupIssue
  /-- REGISTER_FULL (R26): A long-latency producer writes its last element and marks its destination full. -/
  | registerFull (isW : Bool) (n : Fin 32)
  /-- HART_RETIRE (R329): A parked hart retires once its earlier work has completed and performed. -/
  | hartRetire
  /-- HART_YIELD (R332): A parked hart with a pending pre-emption yields. -/
  | hartYield
  /-- PREEMPT_TIMEOUT (R332): A gang not yielded 1 ms after the request is ended with a fault message. -/
  | preemptTimeout
  /-- TRAP_ENTRY (R353): The hart stops the vector unit, saves state into EPC, CAUSE, TVAL and TAUX, and enters S at
  TVEC. -/
  | trapEntry
  /-- WFE_WAKE (R137): A release to the monitored line or a pending interrupt ends WFE. -/
  | wfeWake
  /-- WFE_TIMEOUT (R137): WFE ends after 4,096 cycles. -/
  | wfeTimeout
  /-- PAUSE_END (R138): Fetch resumes 32 cycles after PAUSE. -/
  | pauseEnd
  /-- SAMPLE_TAG (R376): When the drawn gap expires, the next fetched instruction is tagged, or the tag is dropped as
  LOST. -/
  | sampleTag
  /-- SAMPLE_RECORD (R377): A tagged instruction's record is written when it completes or traps, then COUNT advances. -/
  | sampleRecord
  /-- UNCORRECTABLE_ERROR (R364): An uncorrectable error raises a machine check at the owning hart and sends a fault
  message. -/
  | uncorrectableError (k : ErrKind) (addr : Word)
  /-- SOFT_ERROR (R283): A single-bit soft error is corrected silently and counted. -/
  | softError (inHart : Bool)
  /-- FAULT_MESSAGE (R397): The kernel routes a fault message by DOMAIN to a ring, then to the host or NOTIFY at a
  hart. -/
  | faultMessage
  /-- FLIT_RETRY (R390): A flit that fails its CRC is sent again and RETRY rises. -/
  | flitRetry (l : Fin 24)
  /-- LINK_DOWN (R390): After 16 failed sends the link goes down and SECURE clears. -/
  | linkDown (l : Fin 24)
  /-- LINK_UP (R390): After both ends have retrained, UP returns to 1. -/
  | linkUp (l : Fin 24) (peer : BitVec 16)
  /-- PORT_LINK_DOWN (R386): A link-down of the owning PCIe port releases the semaphore. -/
  | portLinkDown (p : Fin 2)
  /-- HOST_ACCESS (R387): A host read or posted write through BAR2, checked against the worlds. -/
  | hostAccess (p : Fin 2) (acc : BusAccess)
  /-- MODULE_RESET (R391): Management core 0 runs the boot ROM, verifies the firmware and jumps to it. -/
  | moduleReset
  /-- KERNEL_START (R391): The firmware verifies the kernel image and starts it. -/
  | kernelStart
  /-- BOOT_READY (R391): The kernel brings up memory, links and root ports and sets STATE := 3. -/
  | bootReady
  /-- WORLD_SET (R395): The management cluster sets an idle block's world, zeroing it when it leaves secure. -/
  | worldSet (b : Block) (secure : Bool)
  /-- THERMAL_THROTTLE (R400): A die at 105 °C makes the Gimbal lower gang caps. -/
  | thermalThrottle
  /-- THERMAL_CUTOFF (R400): At 115 °C power to the compute dies is cut. -/
  | thermalCutoff
  /-- PEER_ACCESS (R306): A read, write or read-modify-write from an agent of a peer device arrives over a Norontu
  link and performs at this module's home, checked against the worlds. -/
  | peerAccess (l : Fin 24) (acc : BusAccess)
  /-- POWER_LOSS (R393): The module's input power is lost, ending all activity and leaving a SPI NOR write that was in
  progress failing at the next boot. -/
  | powerLoss
  deriving DecidableEq, Repr

/-- The VIQ entry of an instruction that enters the VIQ; none for scalar instructions and events. -/
def Instr.toV : Instr → Option VInstr
  | .vadd o => some (.v .vadd o)
  | .vsub o => some (.v .vsub o)
  | .vmul o => some (.v .vmul o)
  | .vmulh o => some (.v .vmulh o)
  | .vmulhu o => some (.v .vmulhu o)
  | .vmin o => some (.v .vmin o)
  | .vmax o => some (.v .vmax o)
  | .vminu o => some (.v .vminu o)
  | .vmaxu o => some (.v .vmaxu o)
  | .vand o => some (.v .vand o)
  | .vor o => some (.v .vor o)
  | .vxor o => some (.v .vxor o)
  | .vsll o => some (.v .vsll o)
  | .vsrl o => some (.v .vsrl o)
  | .vsra o => some (.v .vsra o)
  | .vabs o => some (.v .vabs o)
  | .vdiv o => some (.v .vdiv o)
  | .vdivu o => some (.v .vdivu o)
  | .vrem o => some (.v .vrem o)
  | .vremu o => some (.v .vremu o)
  | .vsadd o => some (.v .vsadd o)
  | .vssub o => some (.v .vssub o)
  | .vsaddu o => some (.v .vsaddu o)
  | .vssubu o => some (.v .vssubu o)
  | .vwmul o => some (.v .vwmul o)
  | .vwmulu o => some (.v .vwmulu o)
  | .vwmac o => some (.v .vwmac o)
  | .vwmacu o => some (.v .vwmacu o)
  | .vwmacsu o => some (.v .vwmacsu o)
  | .vnshr o => some (.v .vnshr o)
  | .vnshru o => some (.v .vnshru o)
  | .vmv o => some (.v .vmv o)
  | .vaddVx o => some (.v .vaddVx o)
  | .vsubVx o => some (.v .vsubVx o)
  | .vmulVx o => some (.v .vmulVx o)
  | .vmulhVx o => some (.v .vmulhVx o)
  | .vmulhuVx o => some (.v .vmulhuVx o)
  | .vminVx o => some (.v .vminVx o)
  | .vmaxVx o => some (.v .vmaxVx o)
  | .vminuVx o => some (.v .vminuVx o)
  | .vmaxuVx o => some (.v .vmaxuVx o)
  | .vandVx o => some (.v .vandVx o)
  | .vorVx o => some (.v .vorVx o)
  | .vxorVx o => some (.v .vxorVx o)
  | .vsllVx o => some (.v .vsllVx o)
  | .vsrlVx o => some (.v .vsrlVx o)
  | .vsraVx o => some (.v .vsraVx o)
  | .vdivVx o => some (.v .vdivVx o)
  | .vdivuVx o => some (.v .vdivuVx o)
  | .vremVx o => some (.v .vremVx o)
  | .vremuVx o => some (.v .vremuVx o)
  | .vsaddVx o => some (.v .vsaddVx o)
  | .vssubVx o => some (.v .vssubVx o)
  | .vsadduVx o => some (.v .vsadduVx o)
  | .vssubuVx o => some (.v .vssubuVx o)
  | .vwmulVx o => some (.v .vwmulVx o)
  | .vwmuluVx o => some (.v .vwmuluVx o)
  | .vwmacVx o => some (.v .vwmacVx o)
  | .vwmacuVx o => some (.v .vwmacuVx o)
  | .vwmacsuVx o => some (.v .vwmacsuVx o)
  | .vnshrVx o => some (.v .vnshrVx o)
  | .vnshruVx o => some (.v .vnshruVx o)
  | .vfadd o => some (.v .vfadd o)
  | .vfsub o => some (.v .vfsub o)
  | .vfmul o => some (.v .vfmul o)
  | .vfdiv o => some (.v .vfdiv o)
  | .vfmin o => some (.v .vfmin o)
  | .vfmax o => some (.v .vfmax o)
  | .vfma o => some (.v .vfma o)
  | .vfms o => some (.v .vfms o)
  | .vfnma o => some (.v .vfnma o)
  | .vfnms o => some (.v .vfnms o)
  | .vfsqrt o => some (.v .vfsqrt o)
  | .vfrece o => some (.v .vfrece o)
  | .vfrsqe o => some (.v .vfrsqe o)
  | .vfsgn o => some (.v .vfsgn o)
  | .vfclass o => some (.v .vfclass o)
  | .vfabs o => some (.v .vfabs o)
  | .vfcvtF2i o => some (.v .vfcvtF2i o)
  | .vfcvtF2u o => some (.v .vfcvtF2u o)
  | .vfcvtI2f o => some (.v .vfcvtI2f o)
  | .vfcvtU2f o => some (.v .vfcvtU2f o)
  | .vfcvtF2iz o => some (.v .vfcvtF2iz o)
  | .vfcvtF2uz o => some (.v .vfcvtF2uz o)
  | .vfcvtFwid o => some (.v .vfcvtFwid o)
  | .vfcvtFnar o => some (.v .vfcvtFnar o)
  | .vfcvtFrnd o => some (.v .vfcvtFrnd o)
  | .vfaddVx o => some (.v .vfaddVx o)
  | .vfsubVx o => some (.v .vfsubVx o)
  | .vfmulVx o => some (.v .vfmulVx o)
  | .vfdivVx o => some (.v .vfdivVx o)
  | .vfminVx o => some (.v .vfminVx o)
  | .vfmaxVx o => some (.v .vfmaxVx o)
  | .vfmaVx o => some (.v .vfmaVx o)
  | .vfmsVx o => some (.v .vfmsVx o)
  | .vcmpEq o => some (.v .vcmpEq o)
  | .vcmpNe o => some (.v .vcmpNe o)
  | .vcmpLt o => some (.v .vcmpLt o)
  | .vcmpGe o => some (.v .vcmpGe o)
  | .vcmpLtu o => some (.v .vcmpLtu o)
  | .vcmpGeu o => some (.v .vcmpGeu o)
  | .vfcmpEq o => some (.v .vfcmpEq o)
  | .vfcmpLt o => some (.v .vfcmpLt o)
  | .vfcmpLe o => some (.v .vfcmpLe o)
  | .vfcmpNe o => some (.v .vfcmpNe o)
  | .vfcmpUnord o => some (.v .vfcmpUnord o)
  | .vfcmpOrd o => some (.v .vfcmpOrd o)
  | .vredsum o => some (.v .vredsum o)
  | .vredmax o => some (.v .vredmax o)
  | .vredmin o => some (.v .vredmin o)
  | .vredmaxu o => some (.v .vredmaxu o)
  | .vredminu o => some (.v .vredminu o)
  | .vredand o => some (.v .vredand o)
  | .vredor o => some (.v .vredor o)
  | .vredxor o => some (.v .vredxor o)
  | .vfredsumO o => some (.v .vfredsumO o)
  | .vfredsumU o => some (.v .vfredsumU o)
  | .vfredmax o => some (.v .vfredmax o)
  | .vfredmin o => some (.v .vfredmin o)
  | .vfscanO o => some (.v .vfscanO o)
  | .vfscanF o => some (.v .vfscanF o)
  | .vscan o => some (.v .vscan o)
  | .vsegscan o => some (.v .vsegscan o)
  | .vcompress o => some (.v .vcompress o)
  | .vexpand o => some (.v .vexpand o)
  | .vpopcpfx o => some (.v .vpopcpfx o)
  | .vconflict o => some (.v .vconflict o)
  | .vprune o => some (.v .vprune o)
  | .vperm o => some (.v .vperm o)
  | .vslideup o => some (.v .vslideup o)
  | .vslidedn o => some (.v .vslidedn o)
  | .vbcast o => some (.v .vbcast o)
  | .vmvxv o => some (.v .vmvxv o)
  | .vmvvx o => some (.v .vmvvx o)
  | .viota o => some (.v .viota o)
  | .vqrd o => some (.v .vqrd o)
  | .vmvcmpl o => some (.v .vmvcmpl o)
  | .wcond o => some (.v .wcond o)
  | .wsig o => some (.v .wsig o)
  | .wnot o => some (.v .wnot o)
  | .wmul o => some (.v .wmul o)
  | .wmin o => some (.v .wmin o)
  | .wmax o => some (.v .wmax o)
  | .wmv o => some (.v .wmv o)
  | .wmvv o => some (.v .wmvv o)
  | .join o => some (.v .join o)
  | .jgrad o => some (.v .jgrad o)
  | .wdcond o => some (.v .wdcond o)
  | .wdsig o => some (.v .wdsig o)
  | .wscale o => some (.v .wscale o)
  | .wcnt o => some (.v .wcnt o)
  | .vldUnit o => some (.vm .vldUnit o)
  | .vldStrided o => some (.vm .vldStrided o)
  | .vldIndexed o => some (.vm .vldIndexed o)
  | .vldff o => some (.vm .vldff o)
  | .vstUnit o => some (.vm .vstUnit o)
  | .vstStrided o => some (.vm .vstStrided o)
  | .vstIndexed o => some (.vm .vstIndexed o)
  | .vstbUnit o => some (.vm .vstbUnit o)
  | .vstbStrided o => some (.vm .vstbStrided o)
  | .vstbIndexed o => some (.vm .vstbIndexed o)
  | .vamoadd o => some (.vm .vamoadd o)
  | .vamoand o => some (.vm .vamoand o)
  | .vamoor o => some (.vm .vamoor o)
  | .vamoxor o => some (.vm .vamoxor o)
  | .vamomin o => some (.vm .vamomin o)
  | .vamomax o => some (.vm .vamomax o)
  | .vamoswap o => some (.vm .vamoswap o)
  | .vscaddD o => some (.vm .vscaddD o)
  | .vscaddU o => some (.vm .vscaddU o)
  | .vldkUnit o => some (.vm .vldkUnit o)
  | .vldkStrided o => some (.vm .vldkStrided o)
  | .vsave o => some (.vm .vsave o)
  | .vrest o => some (.vm .vrest o)
  | .mtld o => some (.mtld o)
  | .mrow o => some (.mrow o)
  | .maclr o => some (.maclr o)
  | .mard o => some (.mard o)
  | .mawr o => some (.mawr o)
  | .mast o => some (.mast o)
  | .lacfg o => some (.lacfg o)
  | .laeval o => some (.laeval o)
  | .lavote o => some (.lavote o)
  | .latrain o => some (.latrain o)
  | .lafb o => some (.lafb o)
  | .lastl o => some (.lastl o)
  | .lasts o => some (.lasts o)
  | .latbl o => some (.latbl o)
  | .laseed o => some (.laseed o)
  | .vlsync => some .vlsync
  | .lafence sc => some (.lafence sc)
  | .tlbinv o => some (.tlbinv o)
  | .efence sc => some (.efence sc)
  | .setvli o => some (.setvli o)
  | .setvl o => some (.setvl o)
  | .enq o => some (.enq o)
  | .restvq a => some (.restvq a)
  | .add _ | .sub _ | .and _ | .or _ | .xor _ | .andn _ | .sll _ | .srl _ | .sra _ | .rol _ | .slt _ | .sltu _
  | .min _ | .max _ | .minu _ | .maxu _ | .mul _ | .mulh _ | .mulhu _ | .div _ | .divu _ | .rem _ | .remu _
  | .clz _ | .ctz _ | .popc _ | .bswap _ | .sext _ | .zext _ | .sel _ | .addi _ | .andi _ | .ori _ | .xori _
  | .slli _ | .srli _ | .srai _ | .slti _ | .lih _ | .addpc _ | .lb _ | .lh _ | .lw _ | .ld _ | .lbu _ | .lhu _
  | .lwu _ | .sb _ | .sh _ | .sw _ | .sd _ | .beq _ | .bne _ | .blt _ | .bge _ | .bltu _ | .bgeu _ | .bstrip _
  | .j _ | .call _ | .ji _ | .calli _ | .ret | .fadd _ | .fsub _ | .fmul _ | .fdiv _ | .fsqrt _ | .fma _ | .fmin _
  | .fmax _ | .fcmpeq _ | .fcmplt _ | .fcmple _ | .fclass _ | .fsgnj _ | .fsgnjn _ | .fsgnjx _ | .fcvtfi _
  | .fcvtif _ | .fcvtff _ | .amoadd _ | .amoand _ | .amoor _ | .amoxor _ | .amomin _ | .amomax _ | .amominu _
  | .amomaxu _ | .amoswap _ | .amocas _ | .lda _ | .str _ | .take _ | .steal _ | .ticket _ | .trap _ | .eret
  | .crd _ | .cwr _ | .crs _ | .crc _ | .wfe | .pause | .fence _ _ | .svfence | .ifence | .enqSlotWrite
  | .seqwait _ | .seqrd _ | .qbind _ | .qrd _ | .arrwait _ | .waitSatisfied | .gbar | .gbarRelease | .watchSet _
  | .watchClr _ | .savevq _ | .restvqHead | .vscaddReplayGroup | .farm _ | .wloop _ | .cAddi _ | .cLi _ | .cMv _
  | .cAdd _ | .cSub _ | .cLd _ | .cSd _ | .cJ _ | .cBeqz _ | .cBnez _ | .cRet | .cNop | .cVgap _ | .cTrap0
  | .steGrant | .rasdFlush _ | .qsRebind _ _ | .vlWrite _ | .vtypeWrite _ | .registerWrite _ _ | .gmblimWrite _
  | .semRead _ | .semRelease _ | .pushgo _ _ | .norProgram | .mbreq _ _ | .reqLoad | .reqAttest | .reqDrain
  | .returnCluster | .reqRetire | .requestComplete | .engineCommandStart _ | .engVoid _ | .engCopy _
  | .engCopy2d _ | .engCopyd _ | .engFill _ | .engRowgather _ | .pgmode _ | .pgzero _ | .hotread _ | .hotclear _
  | .migrate _ | .migfreezeMessage | .engineCommandComplete _ | .engineCommandFault _ | .chainResume _
  | .streamBufferResume _ | .lineRecall | .partialWriteMerge _ _ | .l2Writeback _ | .helmWalk | .rampSlotStart
  | .gimbalCapStep _ | .ballastTaperStep | .releaseCapStep | .elementGroupIssue | .registerFull _ _ | .hartRetire
  | .hartYield | .preemptTimeout | .trapEntry | .wfeWake | .wfeTimeout | .pauseEnd | .sampleTag | .sampleRecord
  | .uncorrectableError _ _ | .softError _ | .faultMessage | .flitRetry _ | .linkDown _ | .linkUp _ _
  | .portLinkDown _ | .hostAccess _ _ | .moduleReset | .kernelStart | .bootReady | .worldSet _ _
  | .thermalThrottle | .thermalCutoff | .peerAccess _ _ | .powerLoss => none

end Sys2Proof
end

