-- ==== Sys2Proof/WellFormed.lean ====
section
/-! DEFINITION. Well-formed instructions: the conditions on operands that an encoding must meet beyond the width of its
fields (R75, R77 to R88, R90 to R92). An encoding that breaks one of them raises ILL (R95). -/

namespace Sys2Proof

/-- Registers of an ENQ group (R83). -/
def EnqGroup.count : EnqGroup → Nat
  | .one => 1
  | .two => 2
  | .four => 4

/-- Operand conditions of the V-format members: reserved fields (R75), weight and stream registers (R73), the
conversion code of VFCVT (R85) and even pairs (R84). -/
def VOp.admits (o : VOp) : VOpc → Bool
  | .vadd | .vsub | .vmul | .vmulh | .vmulhu | .vmin | .vmax | .vminu | .vmaxu | .vand | .vor | .vxor | .vsll
  | .vsrl | .vsra | .vdiv | .vdivu | .vrem | .vremu | .vsadd | .vssub | .vsaddu | .vssubu | .vfadd | .vfsub
  | .vfmul | .vfdiv | .vfmin | .vfmax | .vfma | .vfms | .vfnma | .vfnms | .vfsgn | .vredsum | .vredmax | .vredmin
  | .vredmaxu | .vredminu | .vredand | .vredor | .vredxor | .vfredsumO | .vfredsumU | .vfredmax | .vfredmin
  | .vsegscan | .vperm | .join | .jgrad | .wdcond => true
  | .vabs | .vmv | .vfsqrt | .vfrece | .vfrsqe | .vfclass | .vfabs | .vfcvtF2i | .vfscanO | .vfscanF | .vscan
  | .vcompress | .vexpand | .vconflict | .vmvcmpl => o.b == 0 && !o.fb
  | .vwmul | .vwmulu | .vwmac | .vwmacu | .vwmacsu => o.d.val % 2 == 0
  | .vnshr | .vnshru => o.a.val % 2 == 0
  | .vaddVx | .vsubVx | .vmulVx | .vmulhVx | .vmulhuVx | .vminVx | .vmaxVx | .vminuVx | .vmaxuVx | .vandVx
  | .vorVx | .vxorVx | .vsllVx | .vsrlVx | .vsraVx | .vdivVx | .vdivuVx | .vremVx | .vremuVx | .vsaddVx | .vssubVx
  | .vsadduVx | .vssubuVx | .vfaddVx | .vfsubVx | .vfmulVx | .vfdivVx | .vfminVx | .vfmaxVx | .vfmaVx | .vfmsVx
  | .vslideup | .vslidedn | .wscale => !o.fb
  | .vprune => !o.fb && o.b.val / 8 != 3 && decide (o.b.val % 8 + 1 < 4 * 2 ^ (o.b.val / 8))
  | .vwmulVx | .vwmuluVx | .vwmacVx | .vwmacuVx | .vwmacsuVx => !o.fb && o.d.val % 2 == 0
  | .vnshrVx | .vnshruVx => !o.fb && o.a.val % 2 == 0
  | .vfcvtF2u => o.b == 1 && !o.fb
  | .vfcvtI2f => o.b == 2 && !o.fb
  | .vfcvtU2f => o.b == 3 && !o.fb
  | .vfcvtF2iz => o.b == 4 && !o.fb
  | .vfcvtF2uz => o.b == 5 && !o.fb
  | .vfcvtFwid => o.b == 6 && !o.fb && o.d.val % 2 == 0
  | .vfcvtFnar => o.b == 7 && !o.fb && o.a.val % 2 == 0
  | .vfcvtFrnd => o.b == 8 && !o.fb
  | .vcmpEq | .vcmpNe | .vcmpLt | .vcmpGe | .vcmpLtu | .vcmpGeu | .vfcmpEq | .vfcmpLt | .vfcmpLe | .vfcmpNe
  | .vfcmpUnord | .vfcmpOrd => decide (o.d < 8)
  | .vpopcpfx | .viota => o.a == 0 && o.b == 0 && !o.fa && !o.fb
  | .vbcast => o.a == 0 && !o.fa && !o.fb
  | .vmvxv => o.w == 0 && !o.fb
  | .vmvvx => o.w == 0 && !o.fa && !o.fb
  | .vqrd => decide (o.a < 4) && o.b == 0 && !o.fa && !o.fb
  | .wcond | .wsig | .wmv => decide (o.d < 8) && o.b == 0 && !o.fb
  | .wnot => decide (o.d < 8) && decide (o.a < 8) && o.b == 0 && !o.fb
  | .wmul | .wmin | .wmax => decide (o.d < 8) && decide (o.a < 8) && decide (o.b < 8)
  | .wmvv | .wcnt => decide (o.a < 8) && o.b == 0 && !o.fb
  | .wdsig => decide (o.b < 8)

/-- Operand conditions of the VM-format members (R86). -/
def VMOp.admits (o : VMOp) : VMOpc → Bool
  | .vldUnit | .vldff | .vstUnit => o.b == 0
  | .vldStrided | .vldIndexed | .vstStrided | .vstIndexed => true
  | .vstbUnit => o.b == 0 && o.fmt == .native
  | .vstbStrided | .vstbIndexed | .vamoadd | .vscaddD | .vscaddU => o.fmt == .native
  | .vamoand => o.fmt == .fp16
  | .vamoor => o.fmt == .e4m3
  | .vamoxor => o.fmt == .e5m2
  | .vamomin => o.fmt == .e2m1
  | .vamomax => o.fmt == .s8
  | .vamoswap => o.fmt == .z8
  | .vldkUnit => decide (o.d < 4) && o.b == 0 && o.w == 0 && o.fmt == .native
  | .vldkStrided => decide (o.d < 4) && o.w == 0 && o.fmt == .native
  | .vsave | .vrest => o.b == 0 && o.w == 0 && o.fmt == .native

/-- Operand conditions of the instructions that enter the VIQ (R75, R83, R90, R91). DESIGN CHOICE (log entry 43): an
MTLD with BLK = 0 and KSEL other than 0 is legal, and KSEL is not used. -/
def VInstr.wellFormed : VInstr → Bool
  | .v op o => o.admits op
  | .vm op o => o.admits op
  | .mtld o => o.blk != 1 && o.blk != 2 && (o.blk == 0 || o.fmt == .e4m3 || o.fmt == .e5m2 || o.fmt == .e2m1)
  | .mrow _ | .lacfg _ | .laeval _ | .latrain _ | .lafb _ | .lastl _ | .lasts _ | .latbl _ | .laseed _ => true
  | .maclr o => decide (o.row.val + o.n.val < 64)
  | .mard o => o.a == 0 && o.b == 0 && !o.fv && o.mode == .unit
  | .mawr o => o.a == 0 && o.b == 0 && o.mode == .unit
  | .mast o => (o.mode == .strided || o.b == 0) && (o.mode == .indexed || (o.v == 0 && !o.fv))
  | .lavote o => !o.flag
  | .enq o => o.b.val % o.grp.count == 0
  | .vlsync | .lafence _ | .tlbinv _ | .efence _ | .setvli _ | .setvl _ | .restvq _ => true

/-- An instruction whose operands its encoding admits: reserved fields are zero, a register field of a smaller class is
in range (R73), a pair names an even register (R84), and the member's own conditions hold. Every event is well formed:
it has no encoding. -/
def wellFormed (i : Instr) : Bool :=
  match i.toV with
  | some v => v.wellFormed
  | none => match i with
    | .fsqrt o | .fclass o => o.b == 0
    | .amoadd o | .amoand o | .amoor o | .amoxor o | .amomin o | .amomax o | .amominu o | .amomaxu o | .amoswap o
    | .amocas o => o.scope != .lane
    | .lda o => o.scope != .lane && o.b == 0 && (o.ord == .rlx || o.ord == .acq)
    | .str o => o.scope != .lane && o.d == 0 && (o.ord == .rlx || o.ord == .rel)
    | .take o | .steal o | .ticket o => o.scope != .lane && o.b == 0 && !o.w32
    | .cAddi o | .cLi o => o.d != 0
    | .cMv o | .cAdd o | .cSub o => o.d != 0
    | .cVgap n => n != 0
    | _ => true

end Sys2Proof
end

