-- ==== Sys2Proof/Decode.lean ====
section
/-! DEFINITION. Decoding and encoding: the lengths of R69, the field layouts of Table 03-1, Table 03-4, Table 03-6 and
R92, the major map of Table 03-2 and the sub-field rules R77 to R92. A decoder reads the fields of the format that the
major assigns; it accepts the instruction only when its operands are well formed and its own encoding is the very word,
so that no reserved bit is dropped (R75, R95). -/

namespace Sys2Proof

/-- Fields of an encoding, lowest bits first: (width, value). -/
abbrev Fields := List (Nat × Nat)

/-- The number whose bit fields, lowest first, are given. -/
def pack : Fields → Nat
  | [] => 0
  | (n, x) :: fs => x % 2 ^ n + 2 ^ n * pack fs

/-- The values of consecutive bit fields of the given widths, lowest first. -/
def unpack : List Nat → Nat → List Nat
  | [], _ => []
  | n :: ns, x => x % 2 ^ n :: unpack ns (x / 2 ^ n)

/-- A one-bit field. -/
def flag (b : Bool) : Nat := if b then 1 else 0

/-- Field code (R78). -/
def Rm.code : Rm → Nat
  | .rne => 0
  | .rtz => 1
  | .rdn => 2
  | .rup => 3
  | .rmm => 4
  | .dyn => 7

/-- The member with a field code, if any (R78). -/
def Rm.ofCode : Nat → Option Rm
  | 0 => some .rne
  | 1 => some .rtz
  | 2 => some .rdn
  | 3 => some .rup
  | 4 => some .rmm
  | 7 => some .dyn
  | _ => none

/-- Field code (Table 01-4, STSTAT). -/
def TileFmt.code : TileFmt → Nat
  | .bf16 => 1
  | .e4m3 => 2
  | .e5m2 => 3
  | .e2m1 => 4
  | .s8 => 5
  | .z8 => 6
  | .s4 => 7
  | .fp32 => 8
  | .fp64 => 9

/-- The member with a field code, if any (Table 01-4, STSTAT). -/
def TileFmt.ofCode : Nat → Option TileFmt
  | 1 => some .bf16
  | 2 => some .e4m3
  | 3 => some .e5m2
  | 4 => some .e2m1
  | 5 => some .s8
  | 6 => some .z8
  | 7 => some .s4
  | 8 => some .fp32
  | 9 => some .fp64
  | _ => none

/-- Field code (Table 03-3). -/
def Scope.code : Scope → Nat
  | .lane => 0
  | .hart => 1
  | .core => 2
  | .cluster => 3
  | .package => 4
  | .system => 5

/-- The member with a field code, if any (Table 03-3). -/
def Scope.ofCode : Nat → Option Scope
  | 0 => some .lane
  | 1 => some .hart
  | 2 => some .core
  | 3 => some .cluster
  | 4 => some .package
  | 5 => some .system
  | _ => none

/-- Field code (R80). -/
def Order.code : Order → Nat
  | .rlx => 0
  | .acq => 1
  | .rel => 2
  | .ar => 3

/-- The member with a field code, if any (R80). -/
def Order.ofCode : Nat → Option Order
  | 0 => some .rlx
  | 1 => some .acq
  | 2 => some .rel
  | 3 => some .ar
  | _ => none

/-- Field code (R81). -/
def FenceKind.code : FenceKind → Nat
  | .full => 0
  | .acq => 1
  | .rel => 2

/-- The member with a field code, if any (R81). -/
def FenceKind.ofCode : Nat → Option FenceKind
  | 0 => some .full
  | 1 => some .acq
  | 2 => some .rel
  | _ => none

/-- Field code (R78). -/
def FpType.code : FpType → Nat
  | .fp64 => 0
  | .fp32 => 1
  | .bf16 => 2

/-- The member with a field code, if any (R78). -/
def FpType.ofCode : Nat → Option FpType
  | 0 => some .fp64
  | 1 => some .fp32
  | 2 => some .bf16
  | _ => none

/-- Field code (R78). -/
def IntType.code : IntType → Nat
  | .i64 => 0
  | .u64 => 1
  | .i32 => 2
  | .u32 => 3

/-- The member with a field code, if any (R78). -/
def IntType.ofCode : Nat → Option IntType
  | 0 => some .i64
  | 1 => some .u64
  | 2 => some .i32
  | 3 => some .u32
  | _ => none

/-- Field code (R77). -/
def ExtSize.code : ExtSize → Nat
  | .b8 => 0
  | .b16 => 1
  | .b32 => 2

/-- The member with a field code, if any (R77). -/
def ExtSize.ofCode : Nat → Option ExtSize
  | 0 => some .b8
  | 1 => some .b16
  | 2 => some .b32
  | _ => none

/-- Field code (R83). -/
def EnqGroup.code : EnqGroup → Nat
  | .one => 0
  | .two => 1
  | .four => 2

/-- The member with a field code, if any (R83). -/
def EnqGroup.ofCode : Nat → Option EnqGroup
  | 0 => some .one
  | 1 => some .two
  | 2 => some .four
  | _ => none

/-- Field code (R86). -/
def VmFmt.code : VmFmt → Nat
  | .native => 0
  | .fp16 => 1
  | .e4m3 => 2
  | .e5m2 => 3
  | .e2m1 => 4
  | .s8 => 5
  | .z8 => 6
  | .s4 => 7

/-- The member with a field code, if any (R86). -/
def VmFmt.ofCode : Nat → Option VmFmt
  | 0 => some .native
  | 1 => some .fp16
  | 2 => some .e4m3
  | 3 => some .e5m2
  | 4 => some .e2m1
  | 5 => some .s8
  | 6 => some .z8
  | 7 => some .s4
  | _ => none

/-- Field code (Table 03-6). -/
def Ef.code : Ef → Nat
  | .fp32 => 0
  | .fp64 => 1
  | .int32 => 2

/-- The member with a field code, if any (Table 03-6). -/
def Ef.ofCode : Nat → Option Ef
  | 0 => some .fp32
  | 1 => some .fp64
  | 2 => some .int32
  | _ => none

/-- Field code (Table 03-6). -/
def AccMode.code : AccMode → Nat
  | .unit => 0
  | .strided => 1
  | .indexed => 2

/-- The member with a field code, if any (Table 03-6). -/
def AccMode.ofCode : Nat → Option AccMode
  | 0 => some .unit
  | 1 => some .strided
  | 2 => some .indexed
  | _ => none

/-- R format (Table 03-1). -/
def fieldsR (mj fn x b a d : Nat) : Fields := [(1, 0), (6, mj), (5, d), (5, a), (5, b), (5, fn), (5, x)]

/-- I, B and M formats: two registers, a 3-bit selector and a 12-bit immediate (Table 03-1). -/
def fieldsI (mj fn imm a d : Nat) : Fields := [(1, 0), (6, mj), (5, d), (5, a), (3, fn), (12, imm)]

/-- U and J formats (Table 03-1). -/
def fieldsU (mj imm d : Nat) : Fields := [(1, 0), (6, mj), (5, d), (20, imm)]

/-- V format (Table 03-1). -/
def fieldsV (mj fn : Nat) (o : VOp) : Fields :=
  [(1, 0), (6, mj), (5, o.d.val), (5, o.a.val), (5, o.b.val), (3, o.w.val), (1, flag o.fa), (1, flag o.fb),
    (1, flag o.c), (1, flag o.s), (3, fn)]

/-- VM format (Table 03-1). -/
def fieldsVM (mj mode : Nat) (o : VMOp) : Fields :=
  [(1, 0), (6, mj), (5, o.d.val), (5, o.a.val), (5, o.b.val), (3, o.w.val), (3, o.fmt.code),
    (1, flag o.c), (1, flag o.s), (2, mode)]

/-- Tile prefix W0 (Table 03-4) followed by the fields of the suffix W1. -/
def fieldsT (tmaj fn a b v w : Nat) (fv s c : Bool) (w1 : Fields) : Fields :=
  [(2, 3), (5, tmaj), (3, fn), (5, a), (5, b), (5, v), (3, w), (1, flag fv), (1, flag s), (1, flag c), (1, 0)] ++ w1

/-- Suffix layout MTLD (Table 03-6). -/
def suffixMtld (o : MtldOp) : Fields :=
  [(1, o.slot.val), (4, o.fmt.code), (1, flag o.t), (3, o.blk.val), (2, o.ksel.val), (21, 0)]

/-- Suffix layout MROW (Table 03-6). -/
def suffixMrow (o : MrowOp) : Fields :=
  [(1, o.slot.val), (2, o.acc.val), (6, o.row.val), (1, flag o.p), (1, flag o.q), (5, o.rr.val), (16, 0)]

/-- Suffix layout MACLR (Table 03-6). -/
def suffixMaclr (o : MaclrOp) : Fields := [(2, o.acc.val), (6, o.row.val), (6, o.n.val), (18, 0)]

/-- Suffix layout ACCROW (Table 03-6). -/
def suffixAcc (o : AccOp) : Fields :=
  [(2, o.acc.val), (6, o.row.val), (2, o.ef.code), (2, o.mode.code), (5, o.rr.val), (15, 0)]

/-- Suffix layouts LAOUT and LAFB (Table 03-6). -/
def suffixLa (o : LaVOp) : Fields := [(5, o.vd.val), (1, flag o.flag), (26, 0)]

/-- A suffix whose bits are all reserved. -/
def suffixNone : Fields := [(32, 0)]

/-- Compressed halfword (R92). -/
def fieldsC (op lo hi : Nat) : Fields := [(2, 1), (4, op), (5, lo), (5, hi)]

/-- Scalar floating point: RM and FT lie in x (R78). -/
def fieldsFp (fn : Nat) (rm : Rm) (ft : FpType) (b a d : Nat) : Fields := fieldsR 10 fn (rm.code * 4 + ft.code) b a d

/-- Atomics: scope and order lie in x, the width in fn[4] (R80). -/
def fieldsAmo (fn : Nat) (o : AmoOp) : Fields :=
  fieldsR 11 (fn + 16 * flag o.w32) (o.scope.code + 8 * o.ord.code) o.b.val o.a.val o.d.val

/-- Major and fn of the V-format members (Table 03-2). -/
def VOpc.code : VOpc → Nat × Nat
  | .vadd => (16, 0)
  | .vsub => (16, 1)
  | .vmul => (16, 2)
  | .vmulh => (16, 3)
  | .vmulhu => (16, 4)
  | .vmin => (16, 5)
  | .vmax => (16, 6)
  | .vminu => (16, 7)
  | .vmaxu => (17, 0)
  | .vand => (17, 1)
  | .vor => (17, 2)
  | .vxor => (17, 3)
  | .vsll => (17, 4)
  | .vsrl => (17, 5)
  | .vsra => (17, 6)
  | .vabs => (17, 7)
  | .vdiv => (18, 0)
  | .vdivu => (18, 1)
  | .vrem => (18, 2)
  | .vremu => (18, 3)
  | .vsadd => (18, 4)
  | .vssub => (18, 5)
  | .vsaddu => (18, 6)
  | .vssubu => (18, 7)
  | .vwmul => (19, 0)
  | .vwmulu => (19, 1)
  | .vwmac => (19, 2)
  | .vwmacu => (19, 3)
  | .vwmacsu => (19, 4)
  | .vnshr => (19, 5)
  | .vnshru => (19, 6)
  | .vmv => (19, 7)
  | .vaddVx => (20, 0)
  | .vsubVx => (20, 1)
  | .vmulVx => (20, 2)
  | .vmulhVx => (20, 3)
  | .vmulhuVx => (20, 4)
  | .vminVx => (20, 5)
  | .vmaxVx => (20, 6)
  | .vminuVx => (20, 7)
  | .vmaxuVx => (21, 0)
  | .vandVx => (21, 1)
  | .vorVx => (21, 2)
  | .vxorVx => (21, 3)
  | .vsllVx => (21, 4)
  | .vsrlVx => (21, 5)
  | .vsraVx => (21, 6)
  | .vdivVx => (22, 0)
  | .vdivuVx => (22, 1)
  | .vremVx => (22, 2)
  | .vremuVx => (22, 3)
  | .vsaddVx => (22, 4)
  | .vssubVx => (22, 5)
  | .vsadduVx => (22, 6)
  | .vssubuVx => (22, 7)
  | .vwmulVx => (23, 0)
  | .vwmuluVx => (23, 1)
  | .vwmacVx => (23, 2)
  | .vwmacuVx => (23, 3)
  | .vwmacsuVx => (23, 4)
  | .vnshrVx => (23, 5)
  | .vnshruVx => (23, 6)
  | .vfadd => (24, 0)
  | .vfsub => (24, 1)
  | .vfmul => (24, 2)
  | .vfdiv => (24, 3)
  | .vfmin => (24, 4)
  | .vfmax => (24, 5)
  | .vfma => (24, 6)
  | .vfms => (24, 7)
  | .vfnma => (25, 0)
  | .vfnms => (25, 1)
  | .vfsqrt => (25, 2)
  | .vfrece => (25, 3)
  | .vfrsqe => (25, 4)
  | .vfsgn => (25, 5)
  | .vfclass => (25, 6)
  | .vfabs => (25, 7)
  | .vfcvtF2i => (26, 0)
  | .vfcvtF2u => (26, 0)
  | .vfcvtI2f => (26, 0)
  | .vfcvtU2f => (26, 0)
  | .vfcvtF2iz => (26, 0)
  | .vfcvtF2uz => (26, 0)
  | .vfcvtFwid => (26, 0)
  | .vfcvtFnar => (26, 0)
  | .vfcvtFrnd => (26, 0)
  | .vfaddVx => (27, 0)
  | .vfsubVx => (27, 1)
  | .vfmulVx => (27, 2)
  | .vfdivVx => (27, 3)
  | .vfminVx => (27, 4)
  | .vfmaxVx => (27, 5)
  | .vfmaVx => (27, 6)
  | .vfmsVx => (27, 7)
  | .vcmpEq => (28, 0)
  | .vcmpNe => (28, 1)
  | .vcmpLt => (28, 2)
  | .vcmpGe => (28, 3)
  | .vcmpLtu => (28, 4)
  | .vcmpGeu => (28, 5)
  | .vfcmpEq => (29, 0)
  | .vfcmpLt => (29, 1)
  | .vfcmpLe => (29, 2)
  | .vfcmpNe => (29, 3)
  | .vfcmpUnord => (29, 4)
  | .vfcmpOrd => (29, 5)
  | .vredsum => (30, 0)
  | .vredmax => (30, 1)
  | .vredmin => (30, 2)
  | .vredmaxu => (30, 3)
  | .vredminu => (30, 4)
  | .vredand => (30, 5)
  | .vredor => (30, 6)
  | .vredxor => (30, 7)
  | .vfredsumO => (31, 0)
  | .vfredsumU => (31, 1)
  | .vfredmax => (31, 2)
  | .vfredmin => (31, 3)
  | .vfscanO => (31, 4)
  | .vfscanF => (31, 5)
  | .vscan => (31, 6)
  | .vsegscan => (31, 7)
  | .vcompress => (37, 0)
  | .vexpand => (37, 1)
  | .vpopcpfx => (37, 2)
  | .vconflict => (37, 3)
  | .vprune => (37, 4)
  | .vperm => (37, 5)
  | .vslideup => (37, 6)
  | .vslidedn => (37, 7)
  | .vbcast => (38, 0)
  | .vmvxv => (38, 1)
  | .vmvvx => (38, 2)
  | .viota => (38, 3)
  | .vqrd => (38, 4)
  | .vmvcmpl => (38, 5)
  | .wcond => (39, 0)
  | .wsig => (39, 1)
  | .wnot => (39, 2)
  | .wmul => (39, 3)
  | .wmin => (39, 4)
  | .wmax => (39, 5)
  | .wmv => (39, 6)
  | .wmvv => (39, 7)
  | .join => (40, 0)
  | .jgrad => (40, 1)
  | .wdcond => (40, 2)
  | .wdsig => (40, 3)
  | .wscale => (40, 4)
  | .wcnt => (40, 5)

/-- Major and mode of the VM-format members (Table 03-2). -/
def VMOpc.code : VMOpc → Nat × Nat
  | .vldUnit => (32, 0)
  | .vldStrided => (32, 1)
  | .vldIndexed => (32, 2)
  | .vldff => (32, 3)
  | .vstUnit => (33, 0)
  | .vstStrided => (33, 1)
  | .vstIndexed => (33, 2)
  | .vstbUnit => (34, 0)
  | .vstbStrided => (34, 1)
  | .vstbIndexed => (34, 2)
  | .vamoadd => (34, 3)
  | .vamoand => (34, 3)
  | .vamoor => (34, 3)
  | .vamoxor => (34, 3)
  | .vamomin => (34, 3)
  | .vamomax => (34, 3)
  | .vamoswap => (34, 3)
  | .vscaddD => (35, 0)
  | .vscaddU => (35, 1)
  | .vldkUnit => (36, 0)
  | .vldkStrided => (36, 1)
  | .vsave => (42, 0)
  | .vrest => (42, 1)

/-- The fields of an instruction that enters the VIQ, lowest first. -/
def VInstr.fields : VInstr → Fields
  | .v op o => fieldsV op.code.1 op.code.2 o
  | .vm op o => fieldsVM op.code.1 op.code.2 o
  | .mtld o => fieldsT 0 0 o.a.val o.b.val 0 0 false o.s o.c (suffixMtld o)
  | .mrow o => fieldsT 1 0 0 0 o.v.val 0 o.fv o.s o.c (suffixMrow o)
  | .maclr o => fieldsT 2 0 0 0 0 0 false o.s o.c (suffixMaclr o)
  | .mard o => fieldsT 2 1 o.a.val o.b.val o.v.val o.w.val o.fv o.s o.c (suffixAcc o)
  | .mawr o => fieldsT 2 2 o.a.val o.b.val o.v.val o.w.val o.fv o.s o.c (suffixAcc o)
  | .mast o => fieldsT 2 3 o.a.val o.b.val o.v.val o.w.val o.fv o.s o.c (suffixAcc o)
  | .lacfg o => fieldsT 8 0 o.a.val 0 0 0 false o.s o.c suffixNone
  | .laeval o => fieldsT 9 0 0 0 o.v.val 0 o.fv o.s o.c (suffixLa o)
  | .lavote o => fieldsT 9 1 0 0 o.v.val 0 o.fv o.s o.c (suffixLa o)
  | .latrain o => fieldsT 10 0 o.a.val 0 o.v.val 0 o.fv o.s o.c suffixNone
  | .lafb o => fieldsT 10 1 0 0 o.v.val 0 o.fv o.s o.c (suffixLa o)
  | .lastl o => fieldsT 11 0 o.a.val 0 0 0 false o.s o.c suffixNone
  | .lasts o => fieldsT 11 1 o.a.val 0 0 0 false o.s o.c suffixNone
  | .latbl o => fieldsT 11 2 o.a.val 0 0 0 false o.s o.c suffixNone
  | .laseed o => fieldsT 11 3 o.a.val 0 0 0 false o.s o.c suffixNone
  | .vlsync => fieldsR 13 3 0 0 0 0
  | .lafence scope => fieldsR 13 4 scope.code 0 0 0
  | .tlbinv o => fieldsR 13 5 0 o.b.val o.a.val 0
  | .efence scope => fieldsR 13 6 scope.code 0 0 0
  | .setvli o => fieldsI 14 0 o.vtype.toNat o.a.val o.d.val
  | .setvl o => fieldsR 14 0 16 o.b.val o.a.val o.d.val
  | .enq o => fieldsR 15 0 (o.w.val + 8 * o.grp.code) o.b.val o.a.val o.d.val
  | .restvq a => fieldsR 15 9 0 0 a.val 0

/-- The fields of an instruction's encoding, lowest first; events have none. -/
def encFields (i : Instr) : Option Fields :=
  match i.toV with
  | some v => some v.fields
  | none => match i with
    | .add o => some (fieldsR 1 0 0 o.b.val o.a.val o.d.val)
    | .sub o => some (fieldsR 1 1 0 o.b.val o.a.val o.d.val)
    | .and o => some (fieldsR 1 2 0 o.b.val o.a.val o.d.val)
    | .or o => some (fieldsR 1 3 0 o.b.val o.a.val o.d.val)
    | .xor o => some (fieldsR 1 4 0 o.b.val o.a.val o.d.val)
    | .andn o => some (fieldsR 1 5 0 o.b.val o.a.val o.d.val)
    | .sll o => some (fieldsR 1 6 0 o.b.val o.a.val o.d.val)
    | .srl o => some (fieldsR 1 7 0 o.b.val o.a.val o.d.val)
    | .sra o => some (fieldsR 1 8 0 o.b.val o.a.val o.d.val)
    | .rol o => some (fieldsR 1 9 0 o.b.val o.a.val o.d.val)
    | .slt o => some (fieldsR 1 10 0 o.b.val o.a.val o.d.val)
    | .sltu o => some (fieldsR 1 11 0 o.b.val o.a.val o.d.val)
    | .min o => some (fieldsR 1 12 0 o.b.val o.a.val o.d.val)
    | .max o => some (fieldsR 1 13 0 o.b.val o.a.val o.d.val)
    | .minu o => some (fieldsR 1 14 0 o.b.val o.a.val o.d.val)
    | .maxu o => some (fieldsR 1 15 0 o.b.val o.a.val o.d.val)
    | .mul o => some (fieldsR 1 16 0 o.b.val o.a.val o.d.val)
    | .mulh o => some (fieldsR 1 17 0 o.b.val o.a.val o.d.val)
    | .mulhu o => some (fieldsR 1 18 0 o.b.val o.a.val o.d.val)
    | .div o => some (fieldsR 1 19 0 o.b.val o.a.val o.d.val)
    | .divu o => some (fieldsR 1 20 0 o.b.val o.a.val o.d.val)
    | .rem o => some (fieldsR 1 21 0 o.b.val o.a.val o.d.val)
    | .remu o => some (fieldsR 1 22 0 o.b.val o.a.val o.d.val)
    | .clz o => some (fieldsR 1 23 0 0 o.a.val o.d.val)
    | .ctz o => some (fieldsR 1 24 0 0 o.a.val o.d.val)
    | .popc o => some (fieldsR 1 25 0 0 o.a.val o.d.val)
    | .bswap o => some (fieldsR 1 26 0 0 o.a.val o.d.val)
    | .sext o => some (fieldsR 1 27 o.sz.code 0 o.a.val o.d.val)
    | .zext o => some (fieldsR 1 28 o.sz.code 0 o.a.val o.d.val)
    | .sel o => some (fieldsR 1 29 o.x.val o.b.val o.a.val o.d.val)
    | .addi o => some (fieldsI 2 0 o.imm.toNat o.a.val o.d.val)
    | .andi o => some (fieldsI 2 1 o.imm.toNat o.a.val o.d.val)
    | .ori o => some (fieldsI 2 2 o.imm.toNat o.a.val o.d.val)
    | .xori o => some (fieldsI 2 3 o.imm.toNat o.a.val o.d.val)
    | .slli o => some (fieldsI 2 4 o.sh.toNat o.a.val o.d.val)
    | .srli o => some (fieldsI 2 5 o.sh.toNat o.a.val o.d.val)
    | .srai o => some (fieldsI 2 6 o.sh.toNat o.a.val o.d.val)
    | .slti o => some (fieldsI 2 7 o.imm.toNat o.a.val o.d.val)
    | .lih o => some (fieldsU 3 o.imm.toNat o.d.val)
    | .addpc o => some (fieldsU 4 o.imm.toNat o.d.val)
    | .lb o => some (fieldsI 5 0 o.off.toNat o.a.val o.d.val)
    | .lh o => some (fieldsI 5 1 o.off.toNat o.a.val o.d.val)
    | .lw o => some (fieldsI 5 2 o.off.toNat o.a.val o.d.val)
    | .ld o => some (fieldsI 5 3 o.off.toNat o.a.val o.d.val)
    | .lbu o => some (fieldsI 5 4 o.off.toNat o.a.val o.d.val)
    | .lhu o => some (fieldsI 5 5 o.off.toNat o.a.val o.d.val)
    | .lwu o => some (fieldsI 5 6 o.off.toNat o.a.val o.d.val)
    | .sb o => some (fieldsI 6 0 o.off.toNat o.a.val o.d.val)
    | .sh o => some (fieldsI 6 1 o.off.toNat o.a.val o.d.val)
    | .sw o => some (fieldsI 6 2 o.off.toNat o.a.val o.d.val)
    | .sd o => some (fieldsI 6 3 o.off.toNat o.a.val o.d.val)
    | .beq o => some (fieldsI 7 0 o.off.toNat o.b.val o.a.val)
    | .bne o => some (fieldsI 7 1 o.off.toNat o.b.val o.a.val)
    | .blt o => some (fieldsI 7 2 o.off.toNat o.b.val o.a.val)
    | .bge o => some (fieldsI 7 3 o.off.toNat o.b.val o.a.val)
    | .bltu o => some (fieldsI 7 4 o.off.toNat o.b.val o.a.val)
    | .bgeu o => some (fieldsI 7 5 o.off.toNat o.b.val o.a.val)
    | .bstrip o => some (fieldsI 7 6 o.off.toNat 0 o.a.val)
    | .j off => some (fieldsU 8 off.toNat 0)
    | .call off => some (fieldsU 8 off.toNat 1)
    | .ji o => some (fieldsI 9 0 o.imm.toNat o.a.val 0)
    | .calli o => some (fieldsI 9 1 o.imm.toNat o.a.val 0)
    | .ret => some (fieldsI 9 2 0 0 0)
    | .fadd o => some (fieldsFp 0 o.rm o.ft o.b.val o.a.val o.d.val)
    | .fsub o => some (fieldsFp 1 o.rm o.ft o.b.val o.a.val o.d.val)
    | .fmul o => some (fieldsFp 2 o.rm o.ft o.b.val o.a.val o.d.val)
    | .fdiv o => some (fieldsFp 3 o.rm o.ft o.b.val o.a.val o.d.val)
    | .fsqrt o => some (fieldsFp 4 o.rm o.ft o.b.val o.a.val o.d.val)
    | .fma o => some (fieldsFp 5 o.rm o.ft o.b.val o.a.val o.d.val)
    | .fmin o => some (fieldsFp 6 o.rm o.ft o.b.val o.a.val o.d.val)
    | .fmax o => some (fieldsFp 7 o.rm o.ft o.b.val o.a.val o.d.val)
    | .fcmpeq o => some (fieldsFp 8 o.rm o.ft o.b.val o.a.val o.d.val)
    | .fcmplt o => some (fieldsFp 9 o.rm o.ft o.b.val o.a.val o.d.val)
    | .fcmple o => some (fieldsFp 10 o.rm o.ft o.b.val o.a.val o.d.val)
    | .fclass o => some (fieldsFp 11 o.rm o.ft o.b.val o.a.val o.d.val)
    | .fsgnj o => some (fieldsFp 12 o.rm o.ft o.b.val o.a.val o.d.val)
    | .fsgnjn o => some (fieldsFp 13 o.rm o.ft o.b.val o.a.val o.d.val)
    | .fsgnjx o => some (fieldsFp 14 o.rm o.ft o.b.val o.a.val o.d.val)
    | .fcvtfi o => some (fieldsFp 15 o.rm o.ft o.it.code o.a.val o.d.val)
    | .fcvtif o => some (fieldsFp 16 o.rm o.ft o.it.code o.a.val o.d.val)
    | .fcvtff o => some (fieldsFp 17 o.rm o.ft o.sf.code o.a.val o.d.val)
    | .amoadd o => some (fieldsAmo 0 o)
    | .amoand o => some (fieldsAmo 1 o)
    | .amoor o => some (fieldsAmo 2 o)
    | .amoxor o => some (fieldsAmo 3 o)
    | .amomin o => some (fieldsAmo 4 o)
    | .amomax o => some (fieldsAmo 5 o)
    | .amominu o => some (fieldsAmo 6 o)
    | .amomaxu o => some (fieldsAmo 7 o)
    | .amoswap o => some (fieldsAmo 8 o)
    | .amocas o => some (fieldsAmo 9 o)
    | .lda o => some (fieldsAmo 10 o)
    | .str o => some (fieldsAmo 11 o)
    | .take o => some (fieldsAmo 12 o)
    | .steal o => some (fieldsAmo 13 o)
    | .ticket o => some (fieldsAmo 14 o)
    | .trap code => some (fieldsI 12 0 code.toNat 0 0)
    | .eret => some (fieldsI 12 1 0 0 0)
    | .crd o => some (fieldsI 12 2 o.cr.toNat 0 o.d.val)
    | .cwr o => some (fieldsI 12 3 o.cr.toNat o.a.val o.d.val)
    | .crs o => some (fieldsI 12 4 o.cr.toNat o.a.val o.d.val)
    | .crc o => some (fieldsI 12 5 o.cr.toNat o.a.val o.d.val)
    | .wfe => some (fieldsI 12 6 0 0 0)
    | .pause => some (fieldsI 12 7 0 0 0)
    | .fence scope kind => some (fieldsR 13 0 (scope.code + 8 * kind.code) 0 0 0)
    | .svfence => some (fieldsR 13 1 0 0 0 0)
    | .ifence => some (fieldsR 13 2 0 0 0 0)
    | .seqwait o => some (fieldsR 15 1 0 o.b.val o.a.val o.d.val)
    | .seqrd o => some (fieldsR 15 2 0 0 o.a.val o.d.val)
    | .qbind o => some (fieldsR 15 3 o.n.val o.b.val o.a.val 0)
    | .qrd o => some (fieldsR 15 4 o.n.val 0 0 o.d.val)
    | .arrwait o => some (fieldsR 15 5 0 o.b.val o.a.val o.d.val)
    | .gbar => some (fieldsR 15 6 0 0 0 0)
    | .watchSet o => some (fieldsR 15 7 1 o.b.val o.a.val 0)
    | .watchClr o => some (fieldsR 15 7 0 o.b.val o.a.val 0)
    | .savevq a => some (fieldsR 15 8 0 0 a.val 0)
    | .farm o => some (fieldsI 41 0 o.off.toNat 0 o.a.val)
    | .wloop o => some (fieldsI 41 1 o.off.toNat 0 o.a.val)
    | .cAddi o => some (fieldsC 0 o.d.val o.imm.toNat)
    | .cLi o => some (fieldsC 1 o.d.val o.imm.toNat)
    | .cMv o => some (fieldsC 2 o.d.val o.a.val)
    | .cAdd o => some (fieldsC 3 o.d.val o.a.val)
    | .cSub o => some (fieldsC 4 o.d.val o.a.val)
    | .cLd o => some (fieldsC 5 o.d.val o.imm.toNat)
    | .cSd o => some (fieldsC 6 o.d.val o.imm.toNat)
    | .cJ off => some (fieldsC 7 (off.toNat % 32) (off.toNat / 32))
    | .cBeqz o => some (fieldsC 8 o.d.val o.imm.toNat)
    | .cBnez o => some (fieldsC 9 o.d.val o.imm.toNat)
    | .cRet => some (fieldsC 10 0 0)
    | .cNop => some (fieldsC 11 0 0)
    | .cVgap n => some (fieldsC 12 n.toNat 0)
    | .cTrap0 => some (fieldsC 13 0 0)
    | _ => none

/-- The word (or words, first lowest) of an instruction; events have none. -/
def encode (i : Instr) : Option Nat := (encFields i).map pack

/-- A register field (R73). -/
def reg (n : Nat) : Reg := Fin.ofNat 32 n

/-- V-format members of each major in order of fn (Table 03-2); VFCVT apart. -/
def vMembers : Nat → List VOpc
  | 16 => [.vadd, .vsub, .vmul, .vmulh, .vmulhu, .vmin, .vmax, .vminu]
  | 17 => [.vmaxu, .vand, .vor, .vxor, .vsll, .vsrl, .vsra, .vabs]
  | 18 => [.vdiv, .vdivu, .vrem, .vremu, .vsadd, .vssub, .vsaddu, .vssubu]
  | 19 => [.vwmul, .vwmulu, .vwmac, .vwmacu, .vwmacsu, .vnshr, .vnshru, .vmv]
  | 20 => [.vaddVx, .vsubVx, .vmulVx, .vmulhVx, .vmulhuVx, .vminVx, .vmaxVx, .vminuVx]
  | 21 => [.vmaxuVx, .vandVx, .vorVx, .vxorVx, .vsllVx, .vsrlVx, .vsraVx]
  | 22 => [.vdivVx, .vdivuVx, .vremVx, .vremuVx, .vsaddVx, .vssubVx, .vsadduVx, .vssubuVx]
  | 23 => [.vwmulVx, .vwmuluVx, .vwmacVx, .vwmacuVx, .vwmacsuVx, .vnshrVx, .vnshruVx]
  | 24 => [.vfadd, .vfsub, .vfmul, .vfdiv, .vfmin, .vfmax, .vfma, .vfms]
  | 25 => [.vfnma, .vfnms, .vfsqrt, .vfrece, .vfrsqe, .vfsgn, .vfclass, .vfabs]
  | 27 => [.vfaddVx, .vfsubVx, .vfmulVx, .vfdivVx, .vfminVx, .vfmaxVx, .vfmaVx, .vfmsVx]
  | 28 => [.vcmpEq, .vcmpNe, .vcmpLt, .vcmpGe, .vcmpLtu, .vcmpGeu]
  | 29 => [.vfcmpEq, .vfcmpLt, .vfcmpLe, .vfcmpNe, .vfcmpUnord, .vfcmpOrd]
  | 30 => [.vredsum, .vredmax, .vredmin, .vredmaxu, .vredminu, .vredand, .vredor, .vredxor]
  | 31 => [.vfredsumO, .vfredsumU, .vfredmax, .vfredmin, .vfscanO, .vfscanF, .vscan, .vsegscan]
  | 37 => [.vcompress, .vexpand, .vpopcpfx, .vconflict, .vprune, .vperm, .vslideup, .vslidedn]
  | 38 => [.vbcast, .vmvxv, .vmvvx, .viota, .vqrd, .vmvcmpl]
  | 39 => [.wcond, .wsig, .wnot, .wmul, .wmin, .wmax, .wmv, .wmvv]
  | 40 => [.join, .jgrad, .wdcond, .wdsig, .wscale, .wcnt]
  | _ => []

/-- VFCVT members in order of the conversion code in b (R85, R174). -/
def vfcvtMembers : List (VOpc) :=
    [.vfcvtF2i, .vfcvtF2u, .vfcvtI2f, .vfcvtU2f, .vfcvtF2iz, .vfcvtF2uz, .vfcvtFwid, .vfcvtFnar, .vfcvtFrnd]

/-- VM-format members of each major in order of mode (Table 03-2); VAMO apart. -/
def vmMembers : Nat → List VMOpc
  | 32 => [.vldUnit, .vldStrided, .vldIndexed, .vldff]
  | 33 => [.vstUnit, .vstStrided, .vstIndexed]
  | 34 => [.vstbUnit, .vstbStrided, .vstbIndexed]
  | 35 => [.vscaddD, .vscaddU]
  | 36 => [.vldkUnit, .vldkStrided]
  | 42 => [.vsave, .vrest]
  | _ => []

/-- VAMO members in order of fmt (R86). -/
def vamoMembers : List (VMOpc) :=
    [.vamoadd, .vamoand, .vamoor, .vamoxor, .vamomin, .vamomax, .vamoswap]

/-- Three-register members of major 0x01 in order of fn (Table 05-1). -/
def aluMembers : List (R3 → Instr) :=
    [.add, .sub, .and, .or, .xor, .andn, .sll, .srl, .sra, .rol, .slt, .sltu, .min, .max, .minu, .maxu, .mul,
    .mulh, .mulhu, .div, .divu, .rem, .remu]

/-- Members of major 0x05 in order of sz (Table 05-3). -/
def loadMembers : List (MOp → Instr) :=
    [.lb, .lh, .lw, .ld, .lbu, .lhu, .lwu]

/-- Members of major 0x06 in order of sz (Table 05-3). -/
def storeMembers : List (MOp → Instr) :=
    [.sb, .sh, .sw, .sd]

/-- Compare branches of major 0x07 in order of cc (Table 05-4). -/
def branchMembers : List (BOp → Instr) :=
    [.beq, .bne, .blt, .bge, .bltu, .bgeu]

/-- Members 0 to 14 of major 0x0A (Table 05-5). -/
def fpMembers : List (FpOp → Instr) :=
    [.fadd, .fsub, .fmul, .fdiv, .fsqrt, .fma, .fmin, .fmax, .fcmpeq, .fcmplt, .fcmple, .fclass, .fsgnj,
    .fsgnjn, .fsgnjx]

/-- Members of major 0x0B in order of fn[3:0] (R128 to R133). -/
def amoMembers : List (AmoOp → Instr) :=
    [.amoadd, .amoand, .amoor, .amoxor, .amomin, .amomax, .amominu, .amomaxu, .amoswap, .amocas, .lda, .str,
    .take, .steal, .ticket]

/-- The V-format instruction with the field values after the major, if its fn (and for VFCVT its b) names a member.
Majors 0x15 and 0x17 have no .vx form of VABS and VMV (R84). -/
def decV (mj : Nat) : List Nat → Option VInstr
  | [d, a, b, w, fa, fb, c, s, fn] =>
    let o : VOp := ⟨reg d, reg a, reg b, Fin.ofNat 8 w, fa == 1, fb == 1, c == 1, s == 1⟩
    if mj = 26 then (if fn = 0 then (vfcvtMembers[b]?).map (.v · o) else none) else ((vMembers mj)[fn]?).map (.v · o)
  | _ => none

/-- The VM-format instruction with the field values after the major. -/
def decVM (mj : Nat) : List Nat → Option VInstr
  | [d, a, b, w, fmt, c, s, mode] =>
    match VmFmt.ofCode fmt with
    | some f =>
      let o : VMOp := ⟨reg d, reg a, reg b, Fin.ofNat 8 w, f, c == 1, s == 1⟩
      if mj = 34 ∧ mode = 3 then (vamoMembers[fmt]?).map (.vm · o) else ((vmMembers mj)[mode]?).map (.vm · o)
    | none => none
  | _ => none

/-- Major 0x01 (R77, Table 05-1). -/
def decAlu (d a b fn x : Nat) : Option Instr :=
  match fn with
  | 23 => some (.clz ⟨reg d, reg a⟩)
  | 24 => some (.ctz ⟨reg d, reg a⟩)
  | 25 => some (.popc ⟨reg d, reg a⟩)
  | 26 => some (.bswap ⟨reg d, reg a⟩)
  | 27 => (ExtSize.ofCode x).map fun z => .sext ⟨reg d, reg a, z⟩
  | 28 => (ExtSize.ofCode x).map fun z => .zext ⟨reg d, reg a, z⟩
  | 29 => some (.sel ⟨reg d, reg a, reg b, reg x⟩)
  | _ => (aluMembers[fn]?).map (· ⟨reg d, reg a, reg b⟩)

/-- Major 0x02 (R77, Table 05-2). -/
def decImm (d a fn imm : Nat) : Option Instr :=
  match fn with
  | 0 => some (.addi ⟨reg d, reg a, BitVec.ofNat 12 imm⟩)
  | 1 => some (.andi ⟨reg d, reg a, BitVec.ofNat 12 imm⟩)
  | 2 => some (.ori ⟨reg d, reg a, BitVec.ofNat 12 imm⟩)
  | 3 => some (.xori ⟨reg d, reg a, BitVec.ofNat 12 imm⟩)
  | 4 => some (.slli ⟨reg d, reg a, BitVec.ofNat 6 imm⟩)
  | 5 => some (.srli ⟨reg d, reg a, BitVec.ofNat 6 imm⟩)
  | 6 => some (.srai ⟨reg d, reg a, BitVec.ofNat 6 imm⟩)
  | 7 => some (.slti ⟨reg d, reg a, BitVec.ofNat 12 imm⟩)
  | _ => none

/-- Major 0x0A (R78). -/
def decFp (d a b fn x : Nat) : Option Instr := do
  let rm ← Rm.ofCode (x / 4)
  let ft ← FpType.ofCode (x % 4)
  match fn with
  | 15 => (IntType.ofCode b).map fun t => .fcvtfi ⟨reg d, reg a, t, rm, ft⟩
  | 16 => (IntType.ofCode b).map fun t => .fcvtif ⟨reg d, reg a, t, rm, ft⟩
  | 17 => (FpType.ofCode b).map fun t => .fcvtff ⟨reg d, reg a, t, rm, ft⟩
  | _ => (fpMembers[fn]?).map (· ⟨reg d, reg a, reg b, rm, ft⟩)

/-- Major 0x0B (R80). -/
def decAmo (d a b fn x : Nat) : Option Instr := do
  let scope ← Scope.ofCode (x % 8)
  let ord ← Order.ofCode (x / 8)
  (amoMembers[fn % 16]?).map (· ⟨reg d, reg a, reg b, scope, ord, decide (16 ≤ fn)⟩)

/-- Major 0x0C (R88). -/
def decSys (d a fn imm : Nat) : Option Instr :=
  let n := BitVec.ofNat 12 imm
  match fn with
  | 0 => some (.trap n)
  | 1 => some .eret
  | 2 => some (.crd ⟨reg d, n⟩)
  | 3 => some (.cwr ⟨reg d, reg a, n⟩)
  | 4 => some (.crs ⟨reg d, reg a, n⟩)
  | 5 => some (.crc ⟨reg d, reg a, n⟩)
  | 6 => some .wfe
  | 7 => some .pause
  | _ => none

/-- Major 0x0D (R81). -/
def decFence (fn x : Nat) : Option Instr :=
  match fn with
  | 0 => do
    let scope ← Scope.ofCode (x % 8)
    let kind ← FenceKind.ofCode (x / 8)
    return .fence scope kind
  | 1 => some .svfence
  | 2 => some .ifence
  | _ => none

/-- Major 0x0F (R83). -/
def decSync (d a b fn x : Nat) : Option Instr :=
  match fn with
  | 1 => some (.seqwait ⟨reg d, reg a, reg b⟩)
  | 2 => some (.seqrd ⟨reg d, reg a⟩)
  | 3 => some (.qbind ⟨Fin.ofNat 4 x, reg a, reg b⟩)
  | 4 => some (.qrd ⟨reg d, Fin.ofNat 4 x⟩)
  | 5 => some (.arrwait ⟨reg d, reg a, reg b⟩)
  | 6 => some .gbar
  | 7 => some (if x = 1 then .watchSet ⟨reg a, reg b⟩ else .watchClr ⟨reg a, reg b⟩)
  | 8 => some (.savevq (reg a))
  | _ => none

/-- R-format words: the members by major. -/
def decR (mj : Nat) : List Nat → Option Instr
  | [d, a, b, fn, x] =>
    match mj with
    | 1 => decAlu d a b fn x
    | 10 => decFp d a b fn x
    | 11 => decAmo d a b fn x
    | 13 => decFence fn x
    | 15 => decSync d a b fn x
    | _ => none
  | _ => none

/-- Words of the I, B and M formats: the members by major. The first register field is d in I and M and a in B. -/
noncomputable def decI (mj : Nat) : List Nat → Option Instr
  | [p, q, fn, imm] =>
    let off := BitVec.ofNat 12 imm
    match mj with
    | 2 => decImm p q fn imm
    | 5 => (loadMembers[fn]?).map (· ⟨reg p, reg q, off⟩)
    | 6 => (storeMembers[fn]?).map (· ⟨reg p, reg q, off⟩)
    | 7 => if fn = 6 then some (.bstrip ⟨reg p, off⟩) else (branchMembers[fn]?).map (· ⟨reg p, reg q, off⟩)
    | 9 => match fn with
      | 0 => some (.ji ⟨reg q, off⟩)
      | 1 => some (.calli ⟨reg q, off⟩)
      | 2 => some .ret
      | _ => none
    | 12 => decSys p q fn imm
    | 41 => match fn with
      | 0 => some (.farm ⟨Fin.ofNat 8 p, off⟩)
      | 1 => some (.wloop ⟨Fin.ofNat 8 p, off⟩)
      | _ => none
    | _ => none
  | _ => none

/-- Words of the U and J formats (R117, R122). -/
def decU (mj : Nat) : List Nat → Option Instr
  | [d, imm] =>
    match mj, d with
    | 3, _ => some (.lih ⟨reg d, BitVec.ofNat 20 imm⟩)
    | 4, _ => some (.addpc ⟨reg d, BitVec.ofNat 20 imm⟩)
    | 8, 0 => some (.j (BitVec.ofNat 20 imm))
    | 8, 1 => some (.call (BitVec.ofNat 20 imm))
    | _, _ => none
  | _ => none

/-- The tile members by tile major and fn (Table 03-5), the suffix read by the member's layout (Table 03-6). -/
def decTile (a b v w fv s c w1 : Nat) : Nat → Nat → Option VInstr
  | 0, 0 =>
    match unpack [1, 4, 1, 3, 2] w1 with
    | [slot, fmt, t, blk, ksel] => (TileFmt.ofCode fmt).map fun f =>
      .mtld ⟨reg a, reg b, Fin.ofNat 4 ksel, Fin.ofNat 8 blk, t == 1, f, Fin.ofNat 2 slot, s == 1, c == 1⟩
    | _ => none
  | 1, 0 =>
    match unpack [1, 2, 6, 1, 1, 5] w1 with
    | [slot, acc, row, p, q, rr] =>
      some (.mrow ⟨reg v, fv == 1, reg rr, q == 1, p == 1, Fin.ofNat 64 row, Fin.ofNat 4 acc, Fin.ofNat 2 slot,
        s == 1, c == 1⟩)
    | _ => none
  | 2, 0 =>
    match unpack [2, 6, 6] w1 with
    | [acc, row, n] => some (.maclr ⟨Fin.ofNat 64 n, Fin.ofNat 64 row, Fin.ofNat 4 acc, s == 1, c == 1⟩)
    | _ => none
  | 2, fn =>
    match unpack [2, 6, 2, 2, 5] w1 with
    | [acc, row, ef, mode, rr] => do
      let e ← Ef.ofCode ef
      let m ← AccMode.ofCode mode
      let o : AccOp := ⟨reg a, reg b, reg v, Fin.ofNat 8 w, fv == 1, reg rr, m, e, Fin.ofNat 64 row,
        Fin.ofNat 4 acc, s == 1, c == 1⟩
      match fn with
      | 1 => some (.mard o)
      | 2 => some (.mawr o)
      | 3 => some (.mast o)
      | _ => none
    | _ => none
  | 8, 0 => some (.lacfg ⟨reg a, s == 1, c == 1⟩)
  | 9, fn =>
    let o : LaVOp := ⟨reg v, fv == 1, w1 / 32 % 2 == 1, reg w1, s == 1, c == 1⟩
    match fn with
    | 0 => some (.laeval o)
    | 1 => some (.lavote o)
    | _ => none
  | 10, 0 => some (.latrain ⟨reg v, fv == 1, reg a, s == 1, c == 1⟩)
  | 10, 1 => some (.lafb ⟨reg v, fv == 1, w1 / 32 % 2 == 1, reg w1, s == 1, c == 1⟩)
  | 11, fn =>
    let o : LaAOp := ⟨reg a, s == 1, c == 1⟩
    match fn with
    | 0 => some (.lastl o)
    | 1 => some (.lasts o)
    | 2 => some (.latbl o)
    | 3 => some (.laseed o)
    | _ => none
  | _, _ => none

/-- 64-bit tile instructions: prefix W0, then suffix W1 (R89). -/
def dec64 (w : Nat) : Option VInstr :=
  match unpack [2, 5, 3, 5, 5, 5, 3, 1, 1, 1, 1] w with
  | [_, tmaj, fn, a, b, v, wr, fv, s, c, _] => decTile a b v wr fv s c (w / 2 ^ 32 % 2 ^ 32) tmaj fn
  | _ => none

/-- The instruction of a word that enters the VIQ, before its reserved fields are checked. -/
def rawHeld (w : Nat) : Option VInstr :=
  if w % 4 = 3 then dec64 (w % 2 ^ 64)
  else if w % 2 = 1 then none
  else
    let mj := (w / 2) % 64
    let rest := w % 2 ^ 32 / 128
    match mj with
    | 13 =>
      match unpack [5, 5, 5, 5, 5] rest with
      | [_, a, b, fn, x] =>
        match fn with
        | 3 => some .vlsync
        | 4 => (Scope.ofCode x).map .lafence
        | 5 => some (.tlbinv ⟨reg a, reg b⟩)
        | 6 => (Scope.ofCode x).map .efence
        | _ => none
      | _ => none
    | 14 =>
      match unpack [5, 5, 3, 12] rest with
      | [d, a, _, imm] =>
        if imm < 2 ^ 11 then some (.setvli ⟨reg d, reg a, BitVec.ofNat 9 imm⟩)
        else some (.setvl ⟨reg d, reg a, reg (rest / 2 ^ 10)⟩)
      | _ => none
    | 15 =>
      match unpack [5, 5, 5, 5, 5] rest with
      | [d, a, b, fn, x] =>
        match fn with
        | 0 => (EnqGroup.ofCode (x / 8)).map fun g => .enq ⟨reg d, reg a, reg b, Fin.ofNat 8 x, g⟩
        | 9 => some (.restvq (reg a))
        | _ => none
      | _ => none
    | 32 | 33 | 34 | 35 | 36 | 42 => decVM mj (unpack [5, 5, 5, 3, 3, 1, 1, 2] rest)
    | _ => decV mj (unpack [5, 5, 5, 3, 1, 1, 1, 1, 3] rest)

/-- The instruction that enters the VIQ whose encoding is exactly the number. -/
def decodeHeld (w : Nat) : Option VInstr :=
  match rawHeld w with
  | some v => if v.wellFormed && pack v.fields == w then some v else none
  | none => none

/-- The table row of a V-format member. -/
noncomputable def VOpc.toInstr (o : VOp) : VOpc → Instr
  | .vadd => .vadd o
  | .vsub => .vsub o
  | .vmul => .vmul o
  | .vmulh => .vmulh o
  | .vmulhu => .vmulhu o
  | .vmin => .vmin o
  | .vmax => .vmax o
  | .vminu => .vminu o
  | .vmaxu => .vmaxu o
  | .vand => .vand o
  | .vor => .vor o
  | .vxor => .vxor o
  | .vsll => .vsll o
  | .vsrl => .vsrl o
  | .vsra => .vsra o
  | .vabs => .vabs o
  | .vdiv => .vdiv o
  | .vdivu => .vdivu o
  | .vrem => .vrem o
  | .vremu => .vremu o
  | .vsadd => .vsadd o
  | .vssub => .vssub o
  | .vsaddu => .vsaddu o
  | .vssubu => .vssubu o
  | .vwmul => .vwmul o
  | .vwmulu => .vwmulu o
  | .vwmac => .vwmac o
  | .vwmacu => .vwmacu o
  | .vwmacsu => .vwmacsu o
  | .vnshr => .vnshr o
  | .vnshru => .vnshru o
  | .vmv => .vmv o
  | .vaddVx => .vaddVx o
  | .vsubVx => .vsubVx o
  | .vmulVx => .vmulVx o
  | .vmulhVx => .vmulhVx o
  | .vmulhuVx => .vmulhuVx o
  | .vminVx => .vminVx o
  | .vmaxVx => .vmaxVx o
  | .vminuVx => .vminuVx o
  | .vmaxuVx => .vmaxuVx o
  | .vandVx => .vandVx o
  | .vorVx => .vorVx o
  | .vxorVx => .vxorVx o
  | .vsllVx => .vsllVx o
  | .vsrlVx => .vsrlVx o
  | .vsraVx => .vsraVx o
  | .vdivVx => .vdivVx o
  | .vdivuVx => .vdivuVx o
  | .vremVx => .vremVx o
  | .vremuVx => .vremuVx o
  | .vsaddVx => .vsaddVx o
  | .vssubVx => .vssubVx o
  | .vsadduVx => .vsadduVx o
  | .vssubuVx => .vssubuVx o
  | .vwmulVx => .vwmulVx o
  | .vwmuluVx => .vwmuluVx o
  | .vwmacVx => .vwmacVx o
  | .vwmacuVx => .vwmacuVx o
  | .vwmacsuVx => .vwmacsuVx o
  | .vnshrVx => .vnshrVx o
  | .vnshruVx => .vnshruVx o
  | .vfadd => .vfadd o
  | .vfsub => .vfsub o
  | .vfmul => .vfmul o
  | .vfdiv => .vfdiv o
  | .vfmin => .vfmin o
  | .vfmax => .vfmax o
  | .vfma => .vfma o
  | .vfms => .vfms o
  | .vfnma => .vfnma o
  | .vfnms => .vfnms o
  | .vfsqrt => .vfsqrt o
  | .vfrece => .vfrece o
  | .vfrsqe => .vfrsqe o
  | .vfsgn => .vfsgn o
  | .vfclass => .vfclass o
  | .vfabs => .vfabs o
  | .vfcvtF2i => .vfcvtF2i o
  | .vfcvtF2u => .vfcvtF2u o
  | .vfcvtI2f => .vfcvtI2f o
  | .vfcvtU2f => .vfcvtU2f o
  | .vfcvtF2iz => .vfcvtF2iz o
  | .vfcvtF2uz => .vfcvtF2uz o
  | .vfcvtFwid => .vfcvtFwid o
  | .vfcvtFnar => .vfcvtFnar o
  | .vfcvtFrnd => .vfcvtFrnd o
  | .vfaddVx => .vfaddVx o
  | .vfsubVx => .vfsubVx o
  | .vfmulVx => .vfmulVx o
  | .vfdivVx => .vfdivVx o
  | .vfminVx => .vfminVx o
  | .vfmaxVx => .vfmaxVx o
  | .vfmaVx => .vfmaVx o
  | .vfmsVx => .vfmsVx o
  | .vcmpEq => .vcmpEq o
  | .vcmpNe => .vcmpNe o
  | .vcmpLt => .vcmpLt o
  | .vcmpGe => .vcmpGe o
  | .vcmpLtu => .vcmpLtu o
  | .vcmpGeu => .vcmpGeu o
  | .vfcmpEq => .vfcmpEq o
  | .vfcmpLt => .vfcmpLt o
  | .vfcmpLe => .vfcmpLe o
  | .vfcmpNe => .vfcmpNe o
  | .vfcmpUnord => .vfcmpUnord o
  | .vfcmpOrd => .vfcmpOrd o
  | .vredsum => .vredsum o
  | .vredmax => .vredmax o
  | .vredmin => .vredmin o
  | .vredmaxu => .vredmaxu o
  | .vredminu => .vredminu o
  | .vredand => .vredand o
  | .vredor => .vredor o
  | .vredxor => .vredxor o
  | .vfredsumO => .vfredsumO o
  | .vfredsumU => .vfredsumU o
  | .vfredmax => .vfredmax o
  | .vfredmin => .vfredmin o
  | .vfscanO => .vfscanO o
  | .vfscanF => .vfscanF o
  | .vscan => .vscan o
  | .vsegscan => .vsegscan o
  | .vcompress => .vcompress o
  | .vexpand => .vexpand o
  | .vpopcpfx => .vpopcpfx o
  | .vconflict => .vconflict o
  | .vprune => .vprune o
  | .vperm => .vperm o
  | .vslideup => .vslideup o
  | .vslidedn => .vslidedn o
  | .vbcast => .vbcast o
  | .vmvxv => .vmvxv o
  | .vmvvx => .vmvvx o
  | .viota => .viota o
  | .vqrd => .vqrd o
  | .vmvcmpl => .vmvcmpl o
  | .wcond => .wcond o
  | .wsig => .wsig o
  | .wnot => .wnot o
  | .wmul => .wmul o
  | .wmin => .wmin o
  | .wmax => .wmax o
  | .wmv => .wmv o
  | .wmvv => .wmvv o
  | .join => .join o
  | .jgrad => .jgrad o
  | .wdcond => .wdcond o
  | .wdsig => .wdsig o
  | .wscale => .wscale o
  | .wcnt => .wcnt o

/-- The table row of a VM-format member. -/
noncomputable def VMOpc.toInstr (o : VMOp) : VMOpc → Instr
  | .vldUnit => .vldUnit o
  | .vldStrided => .vldStrided o
  | .vldIndexed => .vldIndexed o
  | .vldff => .vldff o
  | .vstUnit => .vstUnit o
  | .vstStrided => .vstStrided o
  | .vstIndexed => .vstIndexed o
  | .vstbUnit => .vstbUnit o
  | .vstbStrided => .vstbStrided o
  | .vstbIndexed => .vstbIndexed o
  | .vamoadd => .vamoadd o
  | .vamoand => .vamoand o
  | .vamoor => .vamoor o
  | .vamoxor => .vamoxor o
  | .vamomin => .vamomin o
  | .vamomax => .vamomax o
  | .vamoswap => .vamoswap o
  | .vscaddD => .vscaddD o
  | .vscaddU => .vscaddU o
  | .vldkUnit => .vldkUnit o
  | .vldkStrided => .vldkStrided o
  | .vsave => .vsave o
  | .vrest => .vrest o

/-- The table row of an instruction that enters the VIQ. -/
noncomputable def VInstr.toInstr : VInstr → Instr
  | .v op o => op.toInstr o
  | .vm op o => op.toInstr o
  | .mtld o => .mtld o
  | .mrow o => .mrow o
  | .maclr o => .maclr o
  | .mard o => .mard o
  | .mawr o => .mawr o
  | .mast o => .mast o
  | .lacfg o => .lacfg o
  | .laeval o => .laeval o
  | .lavote o => .lavote o
  | .latrain o => .latrain o
  | .lafb o => .lafb o
  | .lastl o => .lastl o
  | .lasts o => .lasts o
  | .latbl o => .latbl o
  | .laseed o => .laseed o
  | .vlsync => .vlsync
  | .lafence scope => .lafence scope
  | .tlbinv o => .tlbinv o
  | .efence scope => .efence scope
  | .setvli o => .setvli o
  | .setvl o => .setvl o
  | .enq o => .enq o
  | .restvq a => .restvq a

/-- The scalar members of the 32-bit words: the format of each major (Table 03-2). -/
noncomputable def dec32 (w : Nat) : Option Instr :=
  let mj := (w / 2) % 64
  let rest := w / 128
  match mj with
  | 1 | 10 | 11 | 13 | 15 => decR mj (unpack [5, 5, 5, 5, 5] rest)
  | 2 | 5 | 6 | 7 | 9 | 12 | 41 => decI mj (unpack [5, 5, 3, 12] rest)
  | 3 | 4 | 8 => decU mj (unpack [5, 20] rest)
  | _ => none

/-- Compressed halfwords (Table 03-7). -/
noncomputable def dec16 (h : Nat) : Option Instr :=
  match unpack [2, 4, 5, 5] h with
  | [_, op, lo, hi] =>
    let ci : CiOp := ⟨reg lo, BitVec.ofNat 5 hi⟩
    let r2 : R2 := ⟨reg lo, reg hi⟩
    match op with
    | 0 => some (.cAddi ci)
    | 1 => some (.cLi ci)
    | 2 => some (.cMv r2)
    | 3 => some (.cAdd r2)
    | 4 => some (.cSub r2)
    | 5 => some (.cLd ci)
    | 6 => some (.cSd ci)
    | 7 => some (.cJ (BitVec.ofNat 10 (lo + 32 * hi)))
    | 8 => some (.cBeqz ci)
    | 9 => some (.cBnez ci)
    | 10 => some .cRet
    | 11 => some .cNop
    | 12 => some (.cVgap (BitVec.ofNat 4 lo))
    | 13 => some .cTrap0
    | _ => none
  | _ => none

/-- Length in bytes that the first halfword fixes (R69). -/
def lengthOf (h : Nat) : Nat := if h % 2 = 0 then 4 else if h % 4 = 1 then 2 else 8

/-- The instruction that the fields of a word name, before the reserved fields are checked. -/
noncomputable def rawDecode (w : Nat) : Option Instr :=
  match rawHeld w with
  | some v => some v.toInstr
  | none => if w % 2 = 0 then dec32 (w % 2 ^ 32) else dec16 (w % 2 ^ 16)

/-- The instruction whose encoding is exactly the number, whose length R69 gives; none raises ILL (R95). -/
noncomputable def decodeWord (w : Nat) : Option Instr :=
  match rawDecode w with
  | some i => if wellFormed i && encode i == some (w % 2 ^ (8 * lengthOf w)) then some i else none
  | none => none

/-- Why bytes are no instruction. -/
inductive Reject where
  /-- fewer bytes than the length of R69 needs -/
  | truncated
  /-- an encoding that raises ILL (R95), with the value that TVAL receives -/
  | illegal (enc : Word)
  deriving DecidableEq, Repr

/-- The instruction at the head of a list of bytes and the bytes after it. -/
noncomputable def decodeBytes (bs : List Byte) : Except Reject (Instr × List Byte) :=
  if bs.length < 2 then .error .truncated
  else
    let n := lengthOf (leNat (bs.take 2))
    if bs.length < n then .error .truncated
    else
      let w := leNat (bs.take n)
      match decodeWord w with
      | some i => .ok (i, bs.drop n)
      | none => .error (.illegal (BitVec.ofNat 64 w))

/-- The number of bytes an instruction occupies; 0 for an event. -/
def instrLen (i : Instr) : Nat :=
  match encode i with
  | some w => lengthOf w
  | none => 0

/-- The instruction that the decoder reads from an instruction whose bits are `w`, bit 0 the least significant bit of
its first byte, every bit from `nbits` on 0. -/
noncomputable def decodeTableWord (nbits w : Nat) : Option Instr :=
  match decodeBytes (leBytes 8 (w % 2 ^ nbits)) with
  | .ok (i, _) => some i
  | .error _ => none

end Sys2Proof
end

