-- ==== Sys2Proof/Config.lean ====
section
/-! DEFINITION. What one implementation fixes and the values the manual leaves open. Every constant here has no body, so
that no proof can depend on its value. -/

namespace Sys2Proof.Config

/-- A fresh open value, applied to the counter `fresh` of State: a value that the manual does not state (log entry 8).
-/
opaque freeWord : Nat → Word

/-- Order in which an unordered scatter applies its updates (R154): a key for each fresh value and element (log entry
9). -/
opaque orderKey : Nat → Nat → Nat

/-- Fused serial number of the module (R394). -/
opaque serial : Word

/-- Fused minimum security version (R392). -/
opaque minSvn : BitVec 32

/-- Fused hash of the firmware key (R391). -/
opaque rootHash : BitVec 256

/-- Fused hash of the kernel key (R391). -/
opaque kernHash : BitVec 256

/-- Public modulus of the identity key (R394). -/
opaque identityModulus : BitVec 3072

/-- The private exponent of the identity key, which never leaves the security block (R394). -/
opaque identityExponent : Nat

/-- Whether a read of the SPI NOR fails at boot, by the fresh counter (R392). -/
opaque norReadFails : Nat → Bool

/-- The bytes of the block world map that a report's digest covers (R394), whose layout the manual does not state,
from the worlds of the blocks. -/
opaque worldMap : List Bool → List Byte

/-- Whether the kernel set sparing at boot (R399). -/
opaque sparing : Bool

/-- Whether namespace `nsid` of drive `unit` uses 4 KiB blocks (R389). -/
opaque nvme4k : Nat → Nat → Bool

/-- Whether a LOAD meets a drive error, by the fresh counter (R389). -/
opaque nvmeError : Nat → Bool

/-- Byte `k` of logical block `lba` of namespace `nsid` of drive `unit`, by the fresh counter (R389). -/
opaque nvmeByte : Nat → Nat → Nat → Nat → Nat → Byte

/-- Whether the cluster test of DRAIN or RETURN fails, by the fresh counter (R398). -/
opaque testFails : Nat → Bool

end Sys2Proof.Config
end

