-- ==== Sys2Proof/Machine/State.lean ====
section
/-! DEFINITION. The state of a VH-FLK9 module as plain data: the hart whose turn it is and the other placed harts, the
core and cluster state they share, memory and its metadata, the engines, the Helm, the Gimbal, the host and boot
registers, and what is pending between them. `State.reset` is the module right after reset. -/

namespace Sys2Proof.Machine

/-- Why the machine takes no step. -/
inductive Fault where
  /-- Raised by `step` when the module has no input power (R393): nothing executes until power returns. Safe: the
  hardware does nothing either. -/
  | poweredOff
  deriving DecidableEq, Repr

/-- Why an instruction has no meaning. -/
inductive Refusal where
  /-- Raised by an arm of `exec` whose instruction has no meaning in the model. Safe: nothing can be proved of it. -/
  | notModelled (mnemonic : String)
  deriving DecidableEq, Repr

/-- A sparse map by key: keys strictly rising, no entry equal to what an unlisted key reads as. -/
abbrev SMap (α : Type) := List (Nat × α)

/-- Bytes by location, a sparse map whose unlisted bytes read zero. -/
abbrev Memory := List Host.Cell

/-- The bits of one vector register at the larger VLR (R17). -/
abbrev VBits := BitVec 16384

/-- STATUS (Table 01-4). -/
structure Status where
  cd : Bool
  det : Bool
  pin : Bool
  world : Bool
  pmode : BitVec 2
  vs : BitVec 2
  ppriv : Bool
  pie : Bool
  ie : Bool
  priv : Bool
  deriving DecidableEq, Repr

/-- The control registers of a hart (Table 01-4), each as its fields hold it; RASD.DEPTH is the length of the return
stack, and STSTAT and BALLASTCYC belong to the core. -/
structure Csr where
  vl : BitVec 11
  vtype : BitVec 9
  vstart : BitVec 11
  vlr : BitVec 15
  thr : BitVec 16
  fracctl : BitVec 1
  demoted : BitVec 32
  firstdem : BitVec 12
  vdirty : BitVec 32
  fcsr : BitVec 3
  fflags : BitVec 7
  iflags : BitVec 3
  firstx : BitVec 60
  firstxi : BitVec 48
  rasp : Word
  rasl : Word
  spill : BitVec 32
  hartid : BitVec 12
  rank : BitVec 6
  gangsz : BitVec 7
  evsel : Vector (BitVec 16) 4
  evcnt : Vector Word 4
  status : Status
  tvec : Word
  epc : Word
  cause : Word
  tval : Word
  taux : Word
  qs : Vector Word 4
  striplog : Word
  sampctl : Word
  deriving DecidableEq, Repr

/-- What the front-end of a hart is doing. -/
inductive Run where
  /-- no hart is placed -/
  | vacant
  /-- bound to its front-end; the first instruction issues at the start of the ramp slot (R326) -/
  | starting (slot : Nat)
  /-- executing instructions -/
  | running
  /-- held at its instruction until a queue, a register, a stream, a ticket turn or an engine-owned line lets it go on
  -/
  | stalled
  /-- suspended in WFE (R137) -/
  | wfe
  /-- fetching nothing after PAUSE (R138) -/
  | pause
  /-- waiting in SEQWAIT (R252) -/
  | seqwait (o : R3)
  /-- waiting in ARRWAIT (R252) -/
  | arrwait (o : R3)
  /-- arrived at GBAR and waiting (R255) -/
  | gbar
  /-- a scalar read-modify-write of a peer's memory is on its way over a link (R307): the old value once it has
  performed at the peer, and whether it hit a watch bit -/
  | peer (link : Nat) (old : Option Nat) (hit : Bool)
  /-- parked (R329) -/
  | parked
  deriving DecidableEq, Repr

/-- The strip record of BSTRIP (R121). -/
structure StripRecord where
  valid : Bool
  pc : Word
  value : Word
  deriving DecidableEq, Repr

/-- A translation that a core keeps in its TLB, or pinned for a chunk (R270, R271): the root and the world it was walked
for, the page it maps as an address divided by 2^bits, and its leaf PTE as it was read, with the leaf's location. -/
structure Xlat where
  root : BitVec 48
  secure : Bool
  bits : Nat
  page : Nat
  slot : Nat
  pte : Nat
  deriving DecidableEq, Repr

/-- What a waiting write is, beside its bytes. -/
inductive PendKind where
  | plain
  /-- a misaligned scalar store, whose bytes are accesses of their own, in ascending order (R118) -/
  | bytewise
  /-- an element of a store, at the address of its instruction, that writes a location which a higher element of the
  same instruction has still to write: it performs only if the instruction stops before that (R294) -/
  | held (pc : Word)
  /-- the write of a VSTB element, which no other access of the hart may part from its read (R152) -/
  | blend
  /-- a scalar release (R289 row 10) -/
  | release
  deriving DecidableEq, Repr

/-- A write that the hart has passed and that has not performed (R289, R295): the lane group whose store queue holds
it, none for a scalar store, the link over which it goes to a peer, its locations with their bytes, and the bits of
each byte that it leaves (R145). -/
structure Pend where
  lane : Option Nat
  link : Option Nat
  locs : List Nat
  bytes : List Byte
  keep : Byte
  kind : PendKind
  deriving DecidableEq, Repr

/-- A plain scalar load that the front-end has passed and that has not performed (R295): its destination, its length and
whether it extends the sign, the locations that it has still to read, and the bytes read. A misaligned load reads byte
by byte (R118). -/
structure LateLoad where
  d : Reg
  len : Nat
  signed : Bool
  locs : List Nat
  got : List Byte
  deriving DecidableEq, Repr

/-- An entry of the VIQ with the scalar operands that the front-end put into the SOQ for it (R11). -/
structure Held where
  instr : VInstr
  pc : Word
  ops : List Word
  /-- privilege and FCSR.RM when the front-end queued the entry -/
  priv : Bool
  rm : BitVec 3
  /-- the bytes of a decoded state frame that RESTVQ read (R259) -/
  data : List Byte
  /-- CONVOY conflict code found when the entry joined its convoy, 0 for none (R341) -/
  conv : Nat
  /-- registers that earlier members of its convoy write, as a set of bits: v0 to v31, then w0 to w7 (R26) -/
  skip : Nat
  /-- the tagged instruction (R376) -/
  tagged : Bool
  /-- the elements that have performed since an entry in flight began or restarted, and its restart point, none when it
  is not in flight (R148) -/
  done : BitVec 1024
  restart : Option (BitVec 11)
  /-- it has issued, so that its operands have left the SOQ; a long-latency producer has left its destination empty for
  itself (R11, R26) -/
  begun : Bool
  /-- it is in flight: it has issued, and its elements perform by turns (R148, R293) -/
  flying : Bool
  /-- VSTART with which this issue began, the flags that its elements have raised, and whether one has been demoted
  (R31, R147) -/
  first : BitVec 11
  raised : List (Nat × Nat)
  demoted : Bool
  /-- values of elements that have been read and not yet written to the destination (R293) -/
  early : List (Nat × Nat)
  /-- VTYPE that an ERET leaves once this entry, the newest of those it thaws, has left the VIQ (R51, R356) -/
  thenVtype : Option (BitVec 9)
  /-- the translations pinned for its chunk in flight (R271) -/
  pins : List Xlat
  /-- the elements that its turn performs, when it does not run to its end, and whether the turn only reads them -/
  part : Option (BitVec 1024)
  reading : Bool
  deriving DecidableEq, Repr

/-- A strip that the strip log has open (R379). -/
structure OpenStrip where
  pc : Word
  vl : BitVec 11
  vtype : BitVec 9
  start : Nat
  /-- element groups that issued to the arithmetic and the memory pipes, STE cycles and ballast (Table 17-2) -/
  arith : Nat
  mem : Nat
  tile : Nat
  ballast : Nat
  deriving DecidableEq, Repr

/-- A tagged instruction in flight (R376, R377). -/
structure Tag where
  pc : Word
  enc : Word
  fetched : Nat
  vector : Bool
  trapped : Bool
  restarted : Bool
  code : Byte
  vl : BitVec 11
  vstart : BitVec 11
  vtype : BitVec 9
  /-- the elements that performed or were computed, and whether the instruction has elements (FLAGS[2]) -/
  mask : BitVec 1024
  masked : Bool
  deriving DecidableEq, Repr

/-- The stream buffer of one stream register (R253, R254): the bytes delivered and not yet consumed, for the command
numbered `seq` of engine `ce`, `pos` the position of the first of them, `total` the byte count of the command. -/
structure StreamBuf where
  live : Bool
  ce : BitVec 6
  seq : BitVec 32
  pos : Nat
  total : Nat
  data : List Byte
  deriving DecidableEq, Repr

/-- One update of a VSCADD.d that has not yet applied (R155): its location, the element that it comes from, its addend
and the element width in bits. -/
structure Replay where
  loc : Nat
  elem : Nat
  addend : Nat
  sew : Nat
  deriving DecidableEq, Repr

/-- A tile instruction that waits in a tile queue of its core (R220): the queue, the cycle of its arrival, and the
entry, which goes back to the VIQ when a stop withdraws it (R223). -/
structure TileReq where
  high : Bool
  since : Nat
  entry : Held
  deriving DecidableEq, Repr

/-- One hart (R10) with what the Helm bound to it at placement (R328). -/
structure Hart where
  pc : Word
  g : Vector Word 32
  v : Vector VBits 32
  w : Vector VBits 8
  k : Vector (BitVec 2048) 4
  sbuf : Vector StreamBuf 4
  vfull : BitVec 32
  wfull : BitVec 8
  rstack : List Word
  csr : Csr
  trapVtype : BitVec 9
  strip : StripRecord
  run : Run
  /-- the VIQ and the SOQ, oldest first -/
  viq : List Held
  /-- writes that have not performed, oldest first (R295) -/
  pend : List Pend
  /-- scalar loads that have not performed, oldest first (R295) -/
  late : List LateLoad
  /-- the VL that the front-end last granted (R142, R245) -/
  grantedVl : BitVec 11
  /-- element groups of issued instructions for which the partition still has to give an issue slot (R335) -/
  groups : Nat
  /-- tile instructions that wait in the tile queues, oldest first (R220) -/
  tiles : List TileReq
  /-- the entries are frozen (R354) -/
  frozen : Bool
  /-- the head of the frozen entries trapped (FLAGS.HT) -/
  headTrapped : Bool
  /-- the completion mask of the head (R148) -/
  mask : BitVec 1024
  maskValid : Bool
  /-- lowest element whose access hit a watch bit, its address, the access kind and whether more hit (R374) -/
  watchHit : Option (Nat × Word × BitVec 2 × Bool)
  /-- members of the convoy that the next c = 1 instruction would join, oldest first; none after an instruction that is
  no V, VM or tile instruction (R339, R341) -/
  convoy : Option (List VInstr)
  /-- the members, in order, of the convoy of the last entry that has left, up to that entry: when the oldest entry has
  c = 1, the members of its convoy before it (R339) -/
  gone : List VInstr
  /-- registers that a long-latency producer has left empty, v0 to v31 as 0 to 31 and w0 to w7 as 32 to 39, each with
  the cycle of its last element (R26) -/
  filling : List (Nat × Nat)
  /-- ranks of a running VSCADD.d still to apply (R155) -/
  replay : List Replay
  /-- idle issue slots that C.VGAP asked for (R93), and the cycle after the last one that has passed -/
  vgap : Nat
  idleTo : Nat
  /-- 64-byte line that LDA monitors, by location, and whether a release has reached it (R130, R137) -/
  monitor : Option Nat
  monitorHit : Bool
  /-- an unmasked machine check is pending (R357, R364) -/
  pendMchkUnmasked : Bool
  /-- masked machine checks, oldest first: CSPEC and TVAL -/
  pendMchk : List (BitVec 16 × Word)
  pendPreempt : Bool
  /-- message words of NOTIFY, oldest first -/
  pendNotify : List Word
  /-- the next fetch is that of a handler's first instruction (R350) -/
  handlerEntry : Bool
  /-- GBAR arrival of the current episode, and whether that episode has completed (R255) -/
  arrived : Bool
  episodeDone : Bool
  /-- the open strip, and the records of closed strips that are still to be written, oldest first (R379) -/
  openStrip : Option OpenStrip
  stripOut : List (List Word)
  /-- fetched instructions until the next tag (R376) and the tagged instruction in flight -/
  tagGap : Nat
  tagNext : Bool
  tag : Option Tag
  /-- tagged instructions that have ended and whose records are still to be written, oldest first (R377) -/
  tagDone : List Tag
  /-- a member of the convoy in issue carries s = 1 (R338) -/
  sSeen : Bool
  partition : Fin 8
  ptroot : Option (BitVec 48)
  domain : BitVec 16
  share : BitVec 8
  prio : BitVec 4
  /-- physical address of the region's RCB and the number of the hart's gang -/
  region : Nat
  gang : Nat
  /-- arbiter credit and wait (R336) -/
  credit : Int
  waits : Nat
  /-- cycle of the WFE or PAUSE, or of the GBAR arrival -/
  since : Nat
  /-- the event that the cycles of a stall count, 0 for none (Table 17-3) -/
  waitEv : Nat
  /-- issue slots and STE cycles used in the last 1,024 cycles, newest in bit 0 (R346) -/
  used : BitVec 1024
  usedSte : BitVec 1024
  /-- cycles among the last 8 in which the STE granted the hart an MROW, newest in bit 0 (R345) -/
  granted : BitVec 8
  /-- issue cap after a GBAR release, in eighths, and the cycle of its last rise (R347) -/
  relCap : Nat
  relAt : Nat
  deriving DecidableEq, Repr

/-- A stationary slot (R24, R214): its STSTAT format code, 0 when empty, and the scales it keeps. -/
structure Slot where
  fmt : BitVec 4
  blk : Fin 8
  scales : BitVec 2048
  deriving DecidableEq, Repr

/-- Ballast in the share of a hart slot of a core (R346): in the lanes of its partition or in the STE, its first and
present duty in eighths, whether its taper has begun, the cycle at which the present duty began, the slots issued since
then, the hart's part of its gang's step in eighths of a watt, and whether the hart whose share it fills is still
placed. -/
structure Ballast where
  slot : Nat
  partition : Fin 8
  ste : Bool
  duty0 : Nat
  duty : Nat
  tapering : Bool
  stepAt : Nat
  counted : Nat
  part : Nat
  live : Bool
  deriving DecidableEq, Repr

/-- The state that the harts of a core share (R10, R12, R24). Accumulator and slot bytes lie in State. -/
structure CoreSt where
  pmode : BitVec 2
  vlr8 : Bool
  cd : Bool
  secure : Bool
  slot0 : Slot
  slot1 : Slot
  ballastcyc : Word
  /-- cycle at which the STE is free, and the high grants made while a ready low MROW waited (R220) -/
  steUntil : Nat
  grants : Nat
  ballast : List Ballast
  /-- the translations in the core's TLB, newest first (R270), and the harts that wait for entries of its pin table, by
  HARTID, in the order in which they asked (R271) -/
  tlb : List Xlat
  pinQueue : List (BitVec 12)
  /-- slot of the hart with which a compiler-directed partition stays, by partition, 8 for none yet (R338) -/
  cdSlot : SMap Nat
  deriving DecidableEq, Repr

/-- The state of a cluster (R229, R395, R398). The array's cells lie in State. -/
structure ClusterSt where
  memSecure : Bool
  arraySecure : Bool
  offline : Bool
  draining : Bool
  configured : Bool
  config : Word
  seed : BitVec 32
  steps : Word
  table : BitVec 512
  /-- clauses of a step in progress whose rows have still to change, with their new bytes, and the hart whose step it is
  (R240) -/
  rows : List (Nat × List Byte)
  stepBy : BitVec 12
  deriving DecidableEq, Repr

/-- What a slot write records with a command (R247, R262): the chain, the sequence number, and the privilege, world,
page tables, fault domain and place of the hart whose ENQ wrote it. -/
structure SlotRec where
  chain : Word
  seq : Nat
  engine : Fin 68
  priv : Bool
  secure : Bool
  ptroot : Option (BitVec 48)
  domain : BitVec 16
  hartid : BitVec 12
  region : Nat
  /-- doublewords 0, 2 and 3 of the command as written, which name its destination (R262, R333) -/
  cmd0 : Word
  cmd2 : Word
  cmd3 : Word
  deriving DecidableEq, Repr

/-- How far a started command has come. -/
inductive Phase where
  /-- started, its operation not yet performed -/
  | started
  /-- a stream delivery stalled on a full buffer, with the bytes still to deliver (R253) -/
  | stalled (rest : List Byte)
  /-- performed; its completion writes remain -/
  | performed
  /-- faulted with a code of Table 11-4 and an address -/
  | faulted (code : Nat) (addr : Word)
  /-- the fault has been written to DONE, and the chain is halted (R248) -/
  | halted
  deriving DecidableEq, Repr

/-- A command that an engine has started: its slot record, its eight doublewords and its progress. -/
structure EngCmd where
  slot : SlotRec
  dw : Vector Word 8
  phase : Phase
  deriving DecidableEq, Repr

/-- A range of locations that an engine owns from the start of its command, none for an engine of a peer (R311). -/
structure Owned where
  lo : Nat
  len : Nat
  engine : Option (Fin 68)
  deriving DecidableEq, Repr

/-- A fault message (Table 16-3) waiting for the management kernel. -/
structure FaultMsg where
  domain : BitVec 16
  kind : Byte
  code : Byte
  source : BitVec 32
  object : Word
  addr : Word
  time : Nat
  deriving DecidableEq, Repr

/-- A change of a word that the Helm makes by a read-modify-write: USE of an RCB (R321), or STATE of a launch record
(R323). -/
inductive HelmChange where
  | take (step harts : Nat)
  | give (step harts : Nat)
  | placed
  | retired
  | preempted
  | resumed
  | rampv
  | malformed
  deriving DecidableEq, Repr

/-- A change that the Helm makes at an RCB or at a launch record, whether the link that led there lies in a secure
frame, and the domain of the region concerned. -/
structure HelmWrite where
  base : Nat
  secure : Bool
  domain : BitVec 16
  change : HelmChange
  deriving DecidableEq, Repr

/-- A gang that the Helm has placed and not yet retired (R326 to R332): `anc` are the RCBs of its region and of every
ancestor, each of them and the record with whether the link that led there lies in a secure frame. -/
structure Gang where
  id : Nat
  region : Nat
  anc : List (Nat × Bool)
  record : Nat
  recSecure : Bool
  cluster : Nat
  h : Nat
  /-- power step in eighths of a watt -/
  step : Nat
  prio : Nat
  domain : BitVec 16
  save : Word
  pmode : BitVec 2
  vlr8 : Bool
  cd : Bool
  /-- placement order, later is larger -/
  order : Nat
  /-- front-ends that the gang holds, each with its partition: HARTID and partition; none while it is pre-empted -/
  places : List (Nat × Fin 8)
  /-- harts counted in USEH -/
  counted : Nat
  /-- ranks that have yielded; the gang is pre-empted when no live hart remains placed -/
  yielded : List Nat
  preempted : Bool
  /-- cycle of the pre-emption request, if one is pending -/
  preemptAt : Option Nat
  /-- issue cap in eighths (R345) -/
  cap : Nat
  /-- ramp slot in which the gang starts, and the slots over which its step is spread (R344) -/
  slot : Nat
  nslots : Nat
  deriving DecidableEq, Repr

/-- A request that waits at the management kernel (R388). -/
structure Request where
  src : Requester
  addr : Word
  /-- status once the kernel has performed it -/
  result : Option (Fin 5)
  deriving DecidableEq, Repr

/-- A Norontu link (R390). -/
structure Link where
  up : Bool
  secure : Bool
  retry : BitVec 16
  peerid : BitVec 16
  /-- consecutive failed sends of the current flit -/
  fails : Nat
  deriving DecidableEq, Repr

/-- What an outside access receives. -/
inductive BusResp where
  | none
  | data (bytes : List Byte)
  | done
  /-- completer abort, or an access fault at the peer -/
  | abort
  deriving DecidableEq, Repr

/-- An outside access that waits for an engine-owned line. -/
inductive Recall where
  | host (p : Fin 2) (acc : BusAccess)
  | peer (l : Fin 24) (acc : BusAccess)
  deriving DecidableEq, Repr

/-- The registers of the host interface, boot and management (Table 18-2). -/
structure HostSt where
  semHeld : Bool
  semOwner : Bool
  bootState : Byte
  bootReason : Byte
  pushlen : BitVec 25
  /-- PROGRAM of the PUSHGO whose image is being checked or booted -/
  pushProgram : Bool
  /-- the kernel image has been verified and started -/
  kernelUp : Bool
  /-- images still to be written to SPI NOR, the one being written first (R393) -/
  norQueue : List (List Byte)
  /-- a power loss has cut off the write of the firmware image, or of the kernel image, in SPI NOR (R393) -/
  norBad : Bool
  kernelBad : Bool
  /-- the firmware waits for a kernel image, not the ROM for a firmware image (R393) -/
  expectKernel : Bool
  /-- the pushed image as it was verified -/
  pushImage : List Byte
  /-- the image now booted came from the staging buffer -/
  pushed : Bool
  drop : BitVec 16
  requests : List Request
  domtab : Word
  /-- security version and SHA-256 of the running firmware, SHA-256 of the running kernel (R394) -/
  fwSvn : BitVec 32
  fwHash : BitVec 256
  kernHash : BitVec 256
  /-- length of the firmware image in SPI NOR, header and body -/
  fwLen : Nat
  /-- MSI-X messages raised on vectors 0 and 1 -/
  msix0 : Nat
  msix1 : List (Fin 2)
  hostResp : BusResp
  peerResp : BusResp
  deriving DecidableEq, Repr

/-- Front-ends of a cluster, by HARTID, that the Helm holds for a region's record after a pre-emption (R331). -/
structure Claim where
  region : Nat
  record : Nat
  cluster : Nat
  prio : Nat
  fronts : List Nat
  deriving DecidableEq, Repr

/-- The Helm and the Gimbal (Table 15-5, R326, R344, R345). -/
structure HelmSt where
  root : Word
  lock : Bool
  limit : BitVec 9
  /-- GMBPWR.PWR and the readings of the last microsecond with their cycles, newest first (R345) -/
  power : BitVec 16
  powers : List (Nat × BitVec 16)
  /-- cycle of the last cap step (R345) -/
  capAt : Nat
  rampdefer : Word
  rampvcnt : Word
  /-- rise and fall reserved in each ramp slot, by slot number, in eighths of a watt -/
  rise : SMap Nat
  fall : SMap Nat
  gangs : List Gang
  nextGang : Nat
  /-- RCBs skipped, each with the bytes it then held (R322) -/
  skipped : List (Nat × List Byte)
  claims : List Claim
  /-- ramp slot whose start has been handled -/
  slot : Nat
  /-- RCBs, current records and dependences as the last walk left them (R326) -/
  seen : List Nat
  /-- changes that wait for an engine that owns their lines, oldest first (R311) -/
  todo : List HelmWrite
  deriving DecidableEq, Repr

/-- The module's LPDDR6 controllers beside the bytes: metadata, attributes, hotness and errors. -/
structure MemCtl where
  /-- CODE, FMT and BASE of each block's metadata entry, by block number; HDR is read from `watch` -/
  blockMeta : SMap (BitVec 32)
  /-- compression attribute by frame number -/
  compressed : SMap Bool
  /-- hotness word by frame number -/
  hotness : SMap Word
  /-- move record by frame number: the cycles of the last four moves -/
  moves : SMap (List Nat)
  /-- watched 32-byte granules, by location div 32, rising -/
  watch : List Nat
  /-- 256-byte units of memory with an uncorrectable error, by location div 256 -/
  bad : List Nat
  /-- blocks that have a line in L2, and those whose line is modified (R266) -/
  lines : List Nat
  dirty : List Nat
  /-- the sectors of each compressed block as stored, by block number (R273, R275) -/
  sectors : SMap (List Byte)
  /-- refusal messages for peer targets -/
  freezeOut : Nat
  /-- sparing was set at boot, and the channel retired -/
  sparing : Bool
  retired : Option Nat
  deriving DecidableEq, Repr

/-- What happens next when the outside world or another agent takes a turn. -/
inductive Turn where
  /-- an event, or an instruction of the hart whose turn it is -/
  | event (i : Instr)
  /-- the turn passes to the n-th of the other harts -/
  | hart (n : Nat)
  /-- a cycle as the module takes by itself -/
  | cycle
  /-- from here on writes of the harts may wait in their queues, and vector memory instructions wait for their turns
  (R289, R295) -/
  | loosen
  /-- the k-th entry of the hart's VIQ performs those of its elements that a set names (R148, R293) -/
  | elements (k : Nat) (m : BitVec 1024)
  /-- the k-th entry of the hart's VIQ reads those of its elements that a set names (R293) -/
  | fetch (k : Nat) (m : BitVec 1024)
  /-- a cycle in which a plain scalar load of the hart is passed before it performs (R295) -/
  | late
  /-- the k-th scalar load that the hart has passed reads its bytes, or the next of them (R118, R295) -/
  | arrive (k : Nat)
  /-- the oldest step that the hart has on its way reaches the array, whose rows stay to change one by one (R240) -/
  | stepRows
  /-- the n-th row that a step of a cluster's array has still to change does (R240) -/
  | row (cluster n : Nat)
  /-- a link goes down while the accesses of an event are on their way over it; writes of some 64-byte lines have
  performed (R307) -/
  | cut (l : Fin 24) (i : Instr) (kept : List Nat)
  /-- the k-th write that waits in the hart's queues performs (R289) -/
  | perform (k : Nat)
  /-- the TLB of the hart's core takes in the translation that the page tables now give an address (R270) -/
  | takeXlat (va : Word)
  /-- the TLB of a core drops its n-th translation (R270) -/
  | dropXlat (core n : Nat)
  /-- an L2 slice takes in the line of a block, or drops an unmodified one (R266) -/
  | takeLine (blk : Nat)
  | dropLine (blk : Nat)
  /-- a peer's own agent writes a byte of that peer's memory (R306) -/
  | peerWrite (peer : BitVec 16) (off : Nat) (b : Byte)
  /-- an engine of a peer takes ownership of locations of this module's LPDDR6, writes the bytes of one line and gives
  that line up, or gives up what it still owns (R311) -/
  | peerOwn (lo len : Nat)
  | peerLine (lo : Nat) (bs : List Byte)
  | peerYield
  /-- a flit over a link passes its check (R390) -/
  | flitSent (l : Fin 24)
  /-- the dies that stand at 105 °C or above change (R400) -/
  | heat (hot : BitVec 4)
  deriving DecidableEq, Repr

/-- The module. -/
structure State where
  /-- the hart whose turn it is -/
  hart : Hart
  /-- every other placed hart -/
  others : List Hart
  /-- events that outside agents have scheduled, first first -/
  agenda : List Turn
  /-- LPDDR6, scratchpads, cluster memories, lane-private memories and peers' memory, by location -/
  mem : Memory
  /-- accumulator tiles, by core, tile, row and byte -/
  acc : Memory
  /-- stationary slots, by core, slot and byte -/
  slots : Memory
  /-- automaton array cells, by cluster, clause and literal -/
  cells : Memory
  /-- SPI NOR -/
  nor : Memory
  ctl : MemCtl
  cores : SMap CoreSt
  clusters : SMap ClusterSt
  /-- worlds of the package scratchpad slices, copy engines and MRUs (R395) -/
  pkgSecure : BitVec 4
  engSecure : BitVec 64
  mruSecure : BitVec 192
  /-- slot writes whose commands have not completed, in order of writing -/
  slotRecs : List SlotRec
  /-- commands that ENQ has reserved and whose slots are still to be written, by engine and the low 32 bits of the
  sequence number (R245, R254) -/
  reserved : List (Nat × Nat)
  running : List EngCmd
  owned : List Owned
  /-- outside accesses that wait for an engine-owned line (R311), oldest first -/
  recalled : List Recall
  helm : HelmSt
  host : HostSt
  /-- world region registers, by 64 · die + index: doubleword 0 and LIMIT -/
  wrg : SMap (Word × Word)
  links : Vector Link 24
  messages : List FaultMsg
  /-- messages written to each domain's ring -/
  ringCount : SMap Nat
  softerr : Word
  migfreeze : Word
  /-- arithmetic clock cycles since module reset -/
  time : Nat
  powered : Bool
  /-- power to the compute dies has been cut (R400) -/
  cutOff : Bool
  /-- dies that stand at 105 °C or above (R400) -/
  hotDies : BitVec 4
  /-- writes may wait in their queues (R289); false when nothing outside schedules them -/
  loose : Bool
  /-- the model's own counter of open values (Config.freeWord) -/
  fresh : Nat
  deriving DecidableEq, Repr

/-- STATUS at placement (Table 01-4). -/
def Status.reset : Status :=
  { cd := false, det := false, pin := false, world := false, pmode := 0, vs := 1, ppriv := false, pie := false,
    ie := true, priv := false }

/-- The control registers at placement (Table 01-4). -/
def Csr.reset : Csr :=
  { vl := 0, vtype := 2, vstart := 0, vlr := 16384, thr := 0, fracctl := 0, demoted := 0, firstdem := 0xFFF,
    vdirty := 0, fcsr := 0, fflags := 0, iflags := 0, firstx := BitVec.allOnes 60, firstxi := BitVec.allOnes 48,
    rasp := 0, rasl := 0, spill := 0, hartid := 0, rank := 0, gangsz := 1, evsel := Vector.replicate 4 0,
    evcnt := Vector.replicate 4 0, status := Status.reset, tvec := 0, epc := 0, cause := 0, tval := 0, taux := 0,
    qs := Vector.replicate 4 0, striplog := 0, sampctl := 0 }

/-- An empty stream buffer. -/
def StreamBuf.empty : StreamBuf := { live := false, ce := 0, seq := 0, pos := 0, total := 0, data := [] }

/-- A hart's state at placement, before what the launch sets (R34, Table 01-4); it is also what an unoccupied front-end
holds. DESIGN CHOICE (log entry 49): a hart that has executed no LDA monitors no line. -/
def Hart.reset : Hart :=
  { pc := 0, g := Vector.replicate 32 0, v := Vector.replicate 32 0, w := Vector.replicate 8 0,
    k := Vector.replicate 4 (BitVec.ofNat 2048 (0x7F * ((2 ^ 2048 - 1) / 255))),
    sbuf := Vector.replicate 4 StreamBuf.empty, vfull := BitVec.allOnes 32, wfull := BitVec.allOnes 8, rstack := [],
    csr := Csr.reset, trapVtype := 2, strip := { valid := false, pc := 0, value := 0 }, run := .vacant, viq := [],
    pend := [], late := [], grantedVl := 0, groups := 0, tiles := [], frozen := false, headTrapped := false,
    mask := 0, maskValid := false,
    watchHit := none, convoy := some [], gone := [], filling := [],
    replay := [], vgap := 0, idleTo := 0, monitor := none, monitorHit := false,
    pendMchkUnmasked := false, pendMchk := [],
    pendPreempt := false, pendNotify := [], handlerEntry := false, arrived := false, episodeDone := false,
    openStrip := none, stripOut := [], tagGap := 0, tagNext := false, tag := none, tagDone := [],
    sSeen := false, partition := 0, ptroot := none, domain := 0,
    share := 1, prio := 0, region := 0, gang := 0, credit := 0, waits := 0, since := 0, waitEv := 0, used := 0,
    usedSte := 0, granted := 0,
    relCap := 8, relAt := 0 }

/-- An empty stationary slot. -/
def Slot.empty : Slot := { fmt := 0, blk := 0, scales := 0 }

/-- A core in service with no hart placed (R24, R395). -/
def CoreSt.reset : CoreSt :=
  { pmode := 0, vlr8 := false, cd := false, secure := false, slot0 := Slot.empty, slot1 := Slot.empty,
    ballastcyc := 0, steUntil := 0, grants := 0, ballast := [], tlb := [], pinQueue := [], cdSlot := [] }

/-- A cluster entering service (R229, R395). -/
def ClusterSt.reset : ClusterSt :=
  { memSecure := false, arraySecure := false, offline := false, draining := false, configured := false, config := 0,
    seed := 0, steps := 0, table := 0, rows := [], stepBy := 0 }

/-- A link that has not trained. -/
def Link.reset : Link := { up := false, secure := false, retry := 0, peerid := 0, fails := 0 }

/-- The module right after reset: no hart is placed, the Helm does not walk, boot has not begun (R391, R395). DESIGN
CHOICE (log entry 3): GMBPWR.PWR, to which Table 15-5 gives no reset value, starts at 0. -/
def State.reset : State :=
  { hart := Hart.reset, others := [], agenda := [], mem := [], acc := [], slots := [], cells := [], nor := [],
    ctl := { blockMeta := [], compressed := [], hotness := [], moves := [], watch := [], bad := [], lines := [],
             dirty := [], sectors := [], freezeOut := 0, sparing := false, retired := none },
    cores := [], clusters := [], pkgSecure := 0, engSecure := 0, mruSecure := 0, slotRecs := [],
    reserved := [], running := [],
    owned := [], recalled := [],
    helm := { root := 0, lock := false, limit := 120, power := 0, powers := [], capAt := 0, rampdefer := 0, rampvcnt := 0,
              rise := [], fall := [], gangs := [], nextGang := 1, skipped := [], claims := [], slot := 0,
              seen := [], todo := [] },
    host := { semHeld := false, semOwner := false, bootState := 0, bootReason := 0, pushlen := 0,
              pushProgram := false, kernelUp := false, norQueue := [], norBad := false, kernelBad := false,
              expectKernel := false, pushImage := [], pushed := false, drop := 0, requests := [], domtab := 0,
              fwSvn := 0, fwHash := 0, kernHash := 0, fwLen := 0, msix0 := 0, msix1 := [], hostResp := .none,
              peerResp := .none },
    wrg := [], links := Vector.replicate 24 Link.reset, messages := [], ringCount := [], softerr := 0,
    migfreeze := 0, time := 0, powered := true, cutOff := false, hotDies := 0, loose := false, fresh := 0 }

end Sys2Proof.Machine
end

