-- ==== Sys2Proof/Machine/Mem.lean ====
section
/-! DEFINITION. Sparse memory, the locations of the memories (R24, R228, R262, R264, R265), the state of a core and of a
cluster, the world of a frame (R396), and machine checks that wait at a hart (R364). -/

namespace Sys2Proof.Machine

/-! ### Sparse maps -/

/-- What a key reads as. -/
def mapGet {α : Type} (d : α) : SMap α → Nat → α
  | [], _ => d
  | (a, x) :: r, k => if a = k then x else mapGet d r k

/-- Writing a key keeps the canonical form: writing what an unlisted key reads as removes the entry. -/
def mapSet {α : Type} [DecidableEq α] (d : α) : SMap α → Nat → α → SMap α
  | [], k, x => if x = d then [] else [(k, x)]
  | (a, y) :: r, k, x =>
    if k < a then (if x = d then (a, y) :: r else (k, x) :: (a, y) :: r)
    else if k = a then (if x = d then r else (k, x) :: r)
    else (a, y) :: mapSet d r k x

/-- The entries of consecutive keys from `k` up. -/
def mapEntries {α : Type} [DecidableEq α] (d : α) : Nat → List α → SMap α
  | _, [] => []
  | k, x :: xs => if x = d then mapEntries d (k + 1) xs else (k, x) :: mapEntries d (k + 1) xs

/-- Consecutive keys written at once: what stood at them is replaced. -/
def mapPut {α : Type} [DecidableEq α] (d : α) (m : SMap α) (lo : Nat) (xs : List α) : SMap α :=
  m.takeWhile (fun p => decide (p.1 < lo)) ++ mapEntries d lo xs ++
    m.dropWhile fun p => decide (p.1 < lo + xs.length)

/-- Keys are at least `lo` and strictly rise, and no entry equals the default. -/
def mapWfFrom {α : Type} [DecidableEq α] (d : α) : Nat → SMap α → Bool
  | _, [] => true
  | lo, (a, x) :: r => decide (lo ≤ a) && decide (x ≠ d) && mapWfFrom d (a + 1) r

/-- The canonical form of a sparse map. -/
def mapWf {α : Type} [DecidableEq α] (d : α) (m : SMap α) : Bool := mapWfFrom d 0 m

/-- What an unlisted byte of memory reads as. DESIGN CHOICE (log entry 1): the manual gives LPDDR6 no contents at
reset. -/
def emptyByte : Byte := 0

/-- The byte at a location. -/
def readByte (m : Memory) (loc : Nat) : Byte := mapGet emptyByte m loc

/-- Memory with one byte written. -/
def writeByte (m : Memory) (loc : Nat) (b : Byte) : Memory := mapSet emptyByte m loc b

/-- The canonical form of memory: locations strictly rising, no entry equal to what an unlisted location reads as. -/
def memWf (m : Memory) : Bool := mapWf emptyByte m

/-- The bytes from a location up. -/
def readBytes (m : Memory) : Nat → Nat → List Byte
  | _, 0 => []
  | loc, n + 1 => readByte m loc :: readBytes m (loc + 1) n

/-- Memory with consecutive bytes written. -/
def writeBytes (m : Memory) : Nat → List Byte → Memory
  | _, [] => m
  | loc, b :: bs => writeBytes (writeByte m loc b) (loc + 1) bs

/-- Memory with a run of bytes replaced at once; it holds the same bytes as `writeBytes` gives. -/
def replaceBytes (m : Memory) (loc : Nat) (bs : List Byte) : Memory := mapPut emptyByte m loc bs

/-- The little-endian number of `n` bytes at a location (R5). -/
def readNat (m : Memory) (loc n : Nat) : Nat := leNat (readBytes m loc n)

/-- Memory with the `n` low bytes of a number written little-endian (R5). -/
def writeNat (m : Memory) (loc n x : Nat) : Memory := writeBytes m loc (leBytes n x)

/-- A rising list of numbers with one added. -/
def setAdd : List Nat → Nat → List Nat
  | [], k => [k]
  | a :: r, k => if k < a then k :: a :: r else if k = a then a :: r else a :: setAdd r k

/-- A list of numbers with one removed. -/
def setDel (l : List Nat) (k : Nat) : List Nat := l.filter (· ≠ k)

/-! ### Locations (R262, R264, R265) -/

/-- End of this module's LPDDR6 (Table 12-2). -/
def lpddrEnd : Nat := 0x18000000000

/-- Location of byte `o` of the scratchpad of a core. -/
def coreLoc (core o : Nat) : Nat := 2 ^ 52 + core * 2 ^ 19 + o

/-- Location of byte `o` of the CLUSTER window of a cluster; the rotation of R262 over the cores' slices is a
renaming of these bytes. -/
def clusterLoc (cluster o : Nat) : Nat := 2 ^ 53 + cluster * 2 ^ 22 + o

/-- Location of byte `o` of the PACKAGE window. -/
def packageLoc (o : Nat) : Nat := 2 ^ 54 + o

/-- Location of byte `o` of the lane-private memory of a lane of a core. -/
def laneLoc (core lane o : Nat) : Nat := 2 ^ 55 + (core * 32 + lane) * 4096 + o

/-- Location of byte `o` of the LPDDR6 of a peer (R306): the peer is named by its PEERID, so every link that leads to it
reaches the same bytes. -/
def peerLoc (peer o : Nat) : Nat := 2 ^ 60 + peer * 2 ^ 41 + o

/-- Key of a byte of an accumulator tile of a core (R24). -/
def accLoc (core tile row byte : Nat) : Nat := ((core * 4 + tile) * 64 + row) * 1024 + byte

/-- Key of a byte of a stationary slot of a core. -/
def slotLoc (core slot byte : Nat) : Nat := (core * 2 + slot) * 65536 + byte

/-- Key of an array cell of a cluster (R228). -/
def cellLoc (cluster c l : Nat) : Nat := (cluster * 1024 + c) * 1024 + l

/-- The core of a HARTID, 0 to 511. -/
def coreOf (hartid : BitVec 12) : Nat := hartid.toNat / 8

/-- The cluster of a HARTID, 0 to 63. -/
def clusterOf (hartid : BitVec 12) : Nat := hartid.toNat / 64

/-- State of a core. -/
def State.coreSt (s : State) (n : Nat) : CoreSt := mapGet CoreSt.reset s.cores n

/-- State with a core's state replaced. -/
def State.setCore (s : State) (n : Nat) (c : CoreSt) : State := { s with cores := mapSet CoreSt.reset s.cores n c }

/-- State of a cluster. -/
def State.clusterSt (s : State) (n : Nat) : ClusterSt := mapGet ClusterSt.reset s.clusters n

/-- State with a cluster's state replaced. -/
def State.setCluster (s : State) (n : Nat) (c : ClusterSt) : State :=
  { s with clusters := mapSet ClusterSt.reset s.clusters n c }

/-- An array's effective world is secure (R263). -/
def ClusterSt.arrayWorld (c : ClusterSt) : Bool := c.arraySecure || c.config.getLsbD 32

/-! ### Clause rows of an array (R228, R240) -/

/-- The row of clause c is replaced at once. -/
def State.setRow (s : State) (cl c : Nat) (row : List Byte) : State :=
  { s with cells := replaceBytes s.cells (cellLoc cl c 0) row }

/-- The step in progress in a cluster's array ends: its rows that have still to change do (R240). -/
def State.landRows (s : State) (cl : Nat) : State :=
  let a := s.clusterSt cl
  if a.rows.isEmpty then s
  else (a.rows.foldl (fun t r => t.setRow cl r.1 r.2) s).setCluster cl { a with rows := [] }

/-- A step in progress of the hart whose turn it is ends (R241). -/
def State.landOwn (s : State) : State :=
  let cl := clusterOf s.hart.csr.hartid
  if (s.clusterSt cl).stepBy = s.hart.csr.hartid then s.landRows cl else s

/-! ### World region registers and fault messages -/

/-- A die holds a frame secure (R396): an enabled world region register of the die covers it with WORLD = 1. -/
def State.dieSecure (s : State) (die frame : Nat) : Bool :=
  (List.range 64).any fun i =>
    let (r0, lim) := mapGet (0, 0) s.wrg (64 * die + i)
    r0.getLsbD 0 && r0.getLsbD 1 && decide (bitsOf r0.toNat 16 32 ≤ frame) && decide (frame ≤ bitsOf lim.toNat 16 32)

/-- The block of a physical address is secure: the die that holds it decides (R265, R396). -/
def State.frameSecure (s : State) (pa : Nat) : Bool := s.dieSecure (pa / 256 % 192 / 48) (pa / 65536)

/-- A frame whose blocks lie on all four dies is refused to a world: some die holds it secure (R265, R396). -/
def State.frameRefused (s : State) (secure : Bool) (frame : Nat) : Bool :=
  !secure && (List.range 4).any fun d => s.dieSecure d frame

/-- A fault message joins those that wait for the management kernel (R365). -/
def State.sendFault (s : State) (m : FaultMsg) : State := { s with messages := s.messages ++ [m] }

/-- A hart's machine check that no instruction of its own reports (R364, R307): it waits at the hart of a HARTID, when
one of the region that owns the access is placed there, and its fault message goes to the region's domain. -/
def State.pendCheck (s : State) (id : BitVec 12) (region : Nat) (domain cspec : BitVec 16) (addr : Word) : State :=
  let f (h : Hart) : Hart :=
    if h.run ≠ .vacant ∧ h.csr.hartid = id ∧ h.region = region then { h with pendMchk := h.pendMchk ++ [(cspec, addr)] } else h
  { s with hart := f s.hart, others := s.others.map f }.sendFault
    { domain := domain, kind := 1, code := 0x10, source := id.setWidth 32, object := 0, addr := addr, time := s.time }

end Sys2Proof.Machine
end

