-- ==== Sys2Proof/Machine/Block.lean ====
section
/-! DEFINITION. LPDDR6 blocks (R273 to R279): the compressed formats, the choice of a format, the metadata entry, the
sectors as stored, and the two ways in which a store reaches a block: its line in L2 or the controller (R266, R279). -/

namespace Sys2Proof.Machine

/-! ### Compressed formats (R275, R276) -/

/-- The little-endian elements of `w` bytes in a block. -/
def unitsOf (w : Nat) : Nat → List Byte → List Nat
  | 0, _ => []
  | n + 1, bs => leNat (bs.take w) :: unitsOf w n (bs.drop w)

/-- FMT values of Table 12-5. -/
inductive BlockFmt where
  | none | const | zmap16 | zmap32
  /-- EXPD16 with delta codes of 2, 3 or 4 bits -/
  | expd (d : Fin 3)
  deriving DecidableEq, Repr

/-- FMT of the metadata entry (Table 12-5). -/
def BlockFmt.code : BlockFmt → Nat
  | .none => 0
  | .const => 1
  | .zmap16 => 2
  | .zmap32 => 3
  | .expd d => 4 + d.val

/-- The width of a delta code. -/
def deltaBits (d : Fin 3) : Nat := d.val + 2

/-- The exponent fields of the 16-bit elements. -/
def expFields (bs : List Byte) : List Nat := (unitsOf 2 128 bs).map fun e => bitsOf e 7 8

/-- BASE of EXPD16: the least nonzero exponent field, or 0 (R276). -/
def expBase (xs : List Nat) : Nat := (xs.filter (· ≠ 0)).foldl min 255 % 256 * (if xs.all (· == 0) then 0 else 1)

/-- EXPD16 with width `d` can encode the block (R276). -/
def expFits (d : Fin 3) (bs : List Byte) : Bool :=
  let xs := expFields bs
  let b := expBase xs
  xs.all fun x => x == 0 || (decide (b ≤ x) && decide (x ≤ b + 2 ^ deltaBits d - 2))

/-- Number of elements other than zero. -/
def nonzero (xs : List Nat) : Nat := (xs.filter (· ≠ 0)).length

/-- Bytes of payload of a format (R275), none when the format cannot encode the block. -/
def payloadSize (f : BlockFmt) (bs : List Byte) : Option Nat :=
  match f with
  | .none => none
  | .const => if (unitsOf 8 32 bs).all (· == leNat (bs.take 8)) then some 8 else none
  | .zmap16 => some (16 + 2 * nonzero (unitsOf 2 128 bs))
  | .zmap32 => some (8 + 4 * nonzero (unitsOf 4 64 bs))
  | .expd d => if expFits d bs then some (128 + 16 * deltaBits d) else none

/-- The set bits of a bitmap over elements, as a number. -/
def bitmapOf (xs : List Nat) : Nat := (xs.zipIdx.map fun p => if p.1 = 0 then 0 else 2 ^ p.2).sum

/-- The delta code of an exponent field (R276). -/
def deltaCode (base x : Nat) : Nat := if x = 0 then 0 else x - base + 1

/-- The payload of a block in a format, from byte 0 of its sectors (R275). -/
def payload (f : BlockFmt) (bs : List Byte) : List Byte :=
  match f with
  | .none => bs
  | .const => bs.take 8
  | .zmap16 =>
    let xs := unitsOf 2 128 bs
    leBytes 16 (bitmapOf xs) ++ (xs.filter (· ≠ 0)).flatMap (leBytes 2)
  | .zmap32 =>
    let xs := unitsOf 4 64 bs
    leBytes 8 (bitmapOf xs) ++ (xs.filter (· ≠ 0)).flatMap (leBytes 4)
  | .expd d =>
    let xs := unitsOf 2 128 bs
    let base := expBase (expFields bs)
    xs.map (fun e => BitVec.ofNat 8 (e / 2 ^ 15 * 128 + e % 128)) ++
      leBytes (16 * deltaBits d)
        ((xs.zipIdx.map fun p => deltaCode base (bitsOf p.1 7 8) * 2 ^ (deltaBits d * p.2)).sum)

/-! ### Choosing the format (R277) -/

/-- The candidates in tie order, each with its sectors. -/
def candidates (bs : List Byte) : List (BlockFmt × Nat) :=
  [BlockFmt.const, .zmap16, .zmap32, .expd 0, .expd 1, .expd 2].filterMap fun f =>
    match payloadSize f bs with
    | some n => if n ≤ 192 then some (f, (n + 63) / 64) else none
    | none => none

/-- The first candidate with the fewest sectors. -/
def fewest : List (BlockFmt × Nat) → Option (BlockFmt × Nat)
  | [] => none
  | p :: ps =>
    match fewest ps with
    | none => some p
    | some q => if p.2 ≤ q.2 then some p else some q

/-- CODE and FMT that a compressed frame gives a block (R277). -/
def chooseFormat (bs : List Byte) : Nat × BlockFmt :=
  if bs.all (· == 0) then (0, .none)
  else match fewest (candidates bs) with
    | some (f, n) => (n, f)
    | none => (4, .none)

/-- CODE, FMT and BASE of a metadata entry in their places; HDR lies with the watch bits (Table 12-5). -/
def metaEntry (code : Nat) (f : BlockFmt) (bs : List Byte) : BitVec 32 :=
  let base := match f with
    | .expd _ => expBase (expFields bs)
    | _ => 0
  BitVec.ofNat 32 (code + 8 * f.code + 2 ^ 16 * base)

/-- The entry that a write leaves (R274, R277): CODE 4 in a raw frame. -/
def encodeEntry (compressed : Bool) (bs : List Byte) : BitVec 32 :=
  if compressed then
    let c := chooseFormat bs
    metaEntry c.1 c.2 bs
  else metaEntry 4 .none bs

/-- The sectors that a compressed block occupies, the unused bytes of the last one zero (R275); none for a block of CODE
0, and none of their own for a raw one, whose sectors are its bytes. -/
def encodeSectors (compressed : Bool) (bs : List Byte) : List Byte :=
  let c := chooseFormat bs
  if compressed && c.2 != .none then
    let p := payload c.2 bs
    p ++ List.replicate (64 * c.1 - p.length) 0
  else []

/-- CODE of an entry. -/
def entryCode (e : BitVec 32) : Nat := bitsOf e.toNat 0 3

/-- FMT of an entry. -/
def entryFmt (e : BitVec 32) : Nat := bitsOf e.toNat 3 3

/-- An entry is consistent (R273): CODE and FMT are values that are written, FMT is 0 exactly for a block of zeros or a
raw one, CODE is a number of sectors that the format's payload can take (R275), and BASE is 0 outside EXPD16. -/
def entryOk (e : BitVec 32) : Bool :=
  let k := entryCode e
  let sectors := match entryFmt e with
    | 0 => k == 0 || k == 4
    | 1 => k == 1
    | 2 => decide (1 ≤ k) && decide (k ≤ 3)
    | 3 => decide (1 ≤ k) && decide (k ≤ 3)
    | 7 => false
    | _ => k == 3
  sectors && (decide (4 ≤ entryFmt e) || bitsOf e.toNat 16 8 == 0)

/-! ### Blocks in memory -/

/-- The 256 bytes of a block. -/
def State.blockBytes (s : State) (b : Nat) : List Byte := readBytes s.mem (256 * b) 256

/-- Compression attribute of the frame that holds a block (R274). -/
def State.blockCompressed (s : State) (b : Nat) : Bool := mapGet false s.ctl.compressed (b / 256)

/-- The state with the controllers' record changed. -/
def State.onCtl (s : State) (f : MemCtl → MemCtl) : State := { s with ctl := f s.ctl }

/-- A block is encoded afresh (R274, R277): its entry and its sectors; HDR is kept. -/
def State.encodeBlock (s : State) (b : Nat) : State :=
  s.onCtl fun c => { c with
    blockMeta := mapSet 0 c.blockMeta b (encodeEntry (s.blockCompressed b) (s.blockBytes b))
    sectors := mapSet [] c.sectors b (encodeSectors (s.blockCompressed b) (s.blockBytes b)) }

/-- A write has changed bytes of a block (R266): they merge into its line in L2, or the controller makes the partial
write and encodes the block afresh (R279). -/
def State.settleBlock (s : State) (b : Nat) : State :=
  if s.ctl.lines.contains b then s.onCtl fun c => { c with dirty := setAdd c.dirty b } else s.encodeBlock b

/-- The blocks of LPDDR6 among locations, each once. -/
def blocksAt (ls : List Nat) : List Nat := ((ls.filter fun l => decide (l < lpddrEnd)).map (· / 256)).eraseDups

/-- A block holds an uncorrectable error (R273, R283): it is marked, or no line holds it and its entry is
inconsistent. -/
def State.badUnit (s : State) (b : Nat) : Bool :=
  s.ctl.bad.contains b ||
    (decide (256 * b < lpddrEnd) && !s.ctl.lines.contains b && !entryOk (mapGet 0 s.ctl.blockMeta b))

/-- The metadata entry of a block with HDR in its place (Table 12-5). -/
def State.metadata (s : State) (b : Nat) : BitVec 32 :=
  mapGet 0 s.ctl.blockMeta b +
    BitVec.ofNat 32 (256 * ((List.range 8).map fun g => if s.ctl.watch.contains (8 * b + g) then 2 ^ g else 0).sum)


end Sys2Proof.Machine
end

