-- ==== Sys2Proof/Machine/Access.lean ====
section
/-! DEFINITION. Accesses: the windows, Translate with the TLB and the pinned translations, and the checks of a data
access (R261 to R273, R279, R283, R311, R384, R395, R396): where an access reaches, whether it faults or waits, the
bytes it reads or writes, and the writes that wait in the hart's queues (R289, R295). -/

namespace Sys2Proof.Machine

/-! ### Agents, kinds and faults of an access -/

/-- The kind of a translation (R269). -/
inductive Kind where
  | load | store | rmw | fetch
  deriving DecidableEq, Repr

/-- How an access is made, which decides the windows it may reach (Table 12-1). -/
inductive Via where
  /-- a scalar LD, SD, or 64-bit LDA or STR -/
  | plain8
  /-- any other scalar load or store, a structure access, a frame, a spill or a log write -/
  | scalar
  /-- a scalar atomic, TAKE, STEAL or TICKET -/
  | atomic
  /-- an element access of an element that resides in a lane of the core (R13) -/
  | element (lane : Nat)
  /-- an MTLD, LASTL, LASTS or LATBL access, in no lane -/
  | tile
  /-- an engine -/
  | engine
  deriving DecidableEq, Repr

/-- Who accesses: privilege, world, page tables and place; the hart, its region and its fault domain, which own the
access (R364); the engine that makes it, if one does; and the translations pinned for it (R271). -/
structure Agent where
  sup : Bool
  secure : Bool
  ptroot : Option (BitVec 48)
  core : Nat
  cluster : Nat
  hartid : BitVec 12
  region : Nat
  domain : BitVec 16
  engine : Option (Fin 68)
  pins : List Xlat
  deriving DecidableEq, Repr

/-- The hart as an agent. -/
def Hart.agent (h : Hart) : Agent :=
  { sup := h.csr.status.priv, secure := h.csr.status.world, ptroot := h.ptroot, core := coreOf h.csr.hartid,
    cluster := clusterOf h.csr.hartid, hartid := h.csr.hartid, region := h.region,
    domain := h.domain, engine := none, pins := [] }

/-- Causes of a failed access: the translation fault, the access fault by a right or the map, the access fault by a
world test, and an uncorrectable error. -/
inductive MemCause where
  | xlate | access | world | mchk
  deriving DecidableEq, Repr

/-- A failed access and its lowest faulting byte address. -/
structure MemFault where
  cause : MemCause
  addr : Word
  deriving DecidableEq, Repr

/-- Outcome of an access: done; faulted, with the state that its translations leave (R269); or waiting for a line that
an engine owns (R311). -/
inductive Acc (α : Type) where
  | ok (a : α)
  | fault (f : MemFault) (s : State)
  | wait
  deriving Repr

/-- What an address reaches. -/
inductive Target where
  | mem (loc : Nat)
  | array (off : Nat)
  | control (off : Nat)
  deriving DecidableEq, Repr

/-! ### Windows (Table 12-1, R262, R263, R384) -/

/-- The offsets of the engine and control window that name a register (Table 18-1). -/
def isControlReg (o : Nat) : Bool :=
  o == 0 || o == 8 || o == 0x10 || o == 0x18 || o == 0x20 || o == 0x40 || o == 0x48 || o == 0x80 ||
    (decide (0x1000 ≤ o) && decide (o < 0x2000) && o % 8 == 0) ||
    (decide (0x2000 ≤ o) && decide (o < 0x2000 + 8 * 24) && o % 8 == 0)

/-- The target of a window address, or the fault (R261 to R263, R384). -/
def window (s : State) (ag : Agent) (via : Via) (k : Kind) (va : Nat) : Except MemCause Target :=
  let inst := via != .engine
  if k = .fetch then .error .access
  else if va < 0xFFF1000000000 then
    let o := va - 0xFFF0000000000
    match via with
    | .element lane => if o < 4096 then .ok (.mem (laneLoc ag.core lane o)) else .error .access
    | _ => .error .access
  else if va < 0xFFF2000000000 then
    let o := va - 0xFFF1000000000
    if 2 ^ 19 ≤ o then .error .access
    else if (s.coreSt ag.core).secure && !ag.secure then .error .world
    else .ok (.mem (coreLoc ag.core o))
  else if va < 0xFFF3000000000 then
    let o := va - 0xFFF2000000000
    if 2 ^ 22 ≤ o then .error .access
    else if (s.clusterSt ag.cluster).memSecure && !ag.secure then .error .world
    else .ok (.mem (clusterLoc ag.cluster o))
  else if va < 0xFFF4000000000 then
    let o := va - 0xFFF3000000000
    if 2 ^ 26 ≤ o then .error .access
    else if s.pkgSecure.getLsbD (o / 4096 % 4) && !ag.secure then .error .world
    else .ok (.mem (packageLoc o))
  else if va < 0xFFF5000000000 then
    let o := va - 0xFFF4000000000
    if 2 ^ 21 ≤ o || k != .load || !inst || via == .tile || via == .atomic then .error .access
    else if (s.clusterSt ag.cluster).arrayWorld && !ag.secure then .error .world
    else .ok (.array o)
  else if va < 0xFFF8000000000 then .error .access
  else
    let o := va - 0xFFF8000000000
    if via == .plain8 && ag.sup && isControlReg o then .ok (.control o) else .error .access

/-! ### Lines, errors and watch bits -/

/-- Two ranges of locations share a location. -/
def overlaps (lo len lo' len' : Nat) : Bool := decide (lo < lo' + len') && decide (lo' < lo + len)

/-- An owned range, widened to whole 64-byte lines, holds a location (R311). -/
def Owned.holds (o : Owned) (loc : Nat) : Bool :=
  overlaps (o.lo / 64 * 64) ((o.lo + o.len + 63) / 64 * 64 - o.lo / 64 * 64) loc 1

/-- An engine other than the agent itself owns the line of a location (R311). -/
def State.ownedLoc (s : State) (eng : Option (Fin 68)) (loc : Nat) : Bool :=
  s.owned.any fun o => (o.engine.isNone || o.engine != eng) && o.holds loc

/-- A location lies in a unit of memory with an uncorrectable error (R283). -/
def State.badLoc (s : State) (loc : Nat) : Bool := s.badUnit (loc / 256)

/-- A target lies in a 64-byte line that an engine owns (R311). -/
def State.ownedTarget (s : State) (eng : Option (Fin 68)) : Target → Bool
  | .mem l => s.ownedLoc eng l
  | _ => false

/-- A target holds an uncorrectable error (R283). -/
def State.badTarget (s : State) : Target → Bool
  | .mem l => s.badLoc l
  | _ => false

/-- A target lies in a granule whose watch bit is 1 (R372). -/
def State.watchedTarget (s : State) : Target → Bool
  | .mem l => s.ctl.watch.contains (l / 32)
  | _ => false

/-! ### Physical addresses (R264, R306, R396, R399) -/

/-- The link of a peer window address. -/
def State.linkOf (s : State) (pa : Nat) : Option Link := s.links.toList[bitsOf pa 41 5]?

/-- A physical address exists and may be reached by a world. -/
def physCheck (s : State) (secure : Bool) (pa : Nat) : Option MemCause :=
  if pa < lpddrEnd then
    if s.ctl.sparing && 0x17E00000000 ≤ pa then some .access
    else if s.frameSecure pa && !secure then some .world
    else none
  else if pa < 2 ^ 47 then some .access
  else if pa < 0xC00000000000 then
    if 24 ≤ bitsOf pa 41 5 || lpddrEnd ≤ pa % 2 ^ 41 then some .access
    else if ((s.linkOf pa).map (·.up)).getD false then none
    else some .access
  else some .access

/-- The location of a physical address: a byte of this module's LPDDR6, or of the peer that the link reaches. -/
def State.physLoc (s : State) (pa : Nat) : Nat :=
  if pa < lpddrEnd then pa else peerLoc (((s.linkOf pa).map (·.peerid.toNat)).getD 0) (pa % 2 ^ 41)

/-- Bytes written at a location, of LPDDR6 through L2 or the controller (R266). -/
def State.putBytes (s : State) (loc : Nat) (bs : List Byte) : State :=
  (blocksAt ((List.range bs.length).map (loc + ·))).foldl State.settleBlock { s with mem := writeBytes s.mem loc bs }

/-! ### Page tables (R267 to R271) -/

/-- A PTE with A set, and D for kinds that write (R269). -/
def pteTouched (e : Nat) (k : Kind) : Nat :=
  let e := if e.testBit 7 then e else e + 2 ^ 7
  if (k == .store || k == .rmw) && !e.testBit 8 then e + 2 ^ 8 else e

/-- A leaf's rights allow the access (R269). -/
def leafCheck (e : Nat) (ag : Agent) (k : Kind) : Option MemCause :=
  let r := e.testBit 1
  let w := e.testBit 2
  let x := e.testBit 3
  let right := match k with
    | .load => r
    | .store => w
    | .rmw => r && w
    | .fetch => x
  if !right then some .access
  else if !e.testBit 4 && !ag.sup then some .access
  else if e.testBit 6 && !ag.secure then some .world
  else none

/-- Outcome of a walk: a leaf, a fault, or a line that an engine owns. -/
inductive Found where
  | leaf (x : Xlat)
  | fault (c : MemCause)
  | wait

/-- The walk from level `lev` down, with `fuel` levels left (R269). Each PTE is read as an access of the agent's world:
its address must exist, and it waits for an engine that owns its line and finds an uncorrectable error as any read does
(R264, R283, R311, R396). -/
def walk (s : State) (ag : Agent) (root : BitVec 48) (va : Nat) : Nat → Nat → Nat → Found
  | 0, _, _ => .fault .xlate
  | fuel + 1, lev, table =>
    let slot := table + 8 * bitsOf va (40 - 12 * lev) 12
    match physCheck s ag.secure slot with
    | some c => .fault c
    | none =>
      let loc := s.physLoc slot
      let e := readNat s.mem loc 8
      let pa := bitsOf e 16 32
      if s.ownedLoc ag.engine loc then .wait
      else if s.badLoc loc then .fault .mchk
      else if !e.testBit 0 || bitsOf e 48 16 != 0 || bitsOf e 9 7 != 0 then .fault .xlate
      else if e.testBit 1 || e.testBit 2 || e.testBit 3 then
        if lev = 0 then .fault .xlate
        else if lev = 1 && pa % 4096 != 0 then .fault .xlate
        else if e.testBit 2 && !e.testBit 1 then .fault .xlate
        else
          let bits := if lev = 1 then 28 else 16
          .leaf { root := root, secure := ag.secure, bits := bits, page := va / 2 ^ bits, slot := loc, pte := e }
      else if bitsOf e 4 5 != 0 || lev = 2 then .fault .xlate
      else walk s ag root va fuel (lev + 1) (pa * 2 ^ 16)

/-- A kept translation serves an address of an agent (R270). -/
def Xlat.serves (x : Xlat) (ag : Agent) (va : Nat) : Bool :=
  ag.ptroot == some x.root && x.secure == ag.secure && x.page == va / 2 ^ x.bits

/-- The translation that an agent uses for an address: the one pinned for it (R271), the one that the TLB of its core
holds (R270), or what the page tables hold. -/
def findLeaf (s : State) (ag : Agent) (va : Nat) : Found :=
  match ag.pins.find? (·.serves ag va) with
  | some x => .leaf x
  | none =>
    match if ag.engine.isNone then (s.coreSt ag.core).tlb.find? (·.serves ag va) else none with
    | some x => .leaf x
    | none =>
      match ag.ptroot with
      | none => .fault .xlate
      | some root => walk s ag root va 3 0 root.toNat

/-- The physical address that a translation gives (R269). -/
def Xlat.apply (x : Xlat) (va : Nat) : Nat := bitsOf x.pte 16 32 * 2 ^ 16 / 2 ^ x.bits * 2 ^ x.bits + va % 2 ^ x.bits

/-- The leaf PTE of a translation has A set, and D for kinds that write (R269); nothing is written when it has them.
DESIGN CHOICE (log entry 52): the bits join whatever word stands at the leaf's place, also when software has changed it
since a TLB or a pin took the leaf in. -/
def State.touchLeaf (s : State) (x : Xlat) (k : Kind) : State :=
  if pteTouched x.pte k = x.pte then s
  else s.putBytes x.slot (leBytes 8 (pteTouched (readNat s.mem x.slot 8) k))

/-- An agent may not write the PTE of a kept leaf: its frame has gone to the secure world since (R396). -/
def slotRefused (s : State) (ag : Agent) (slot : Nat) : Bool := decide (slot < lpddrEnd) && (physCheck s ag.secure slot).isSome

/-- Translate (R269): the target of an address with the state after the translation, the fault, or a wait. A leaf whose
rights allow the access has its A and D set even when the physical address then refuses it. -/
def translate (s : State) (ag : Agent) (via : Via) (k : Kind) (va : Word) : Acc (State × Target) :=
  let a := va.toNat
  let refuse (c : MemCause) (t : State) : Acc (State × Target) := .fault { cause := c, addr := va } t
  if 2 ^ 52 ≤ a then refuse .access s
  else if 0xFFF0000000000 ≤ a then
    match window s ag via k a with
    | .ok t => .ok (s, t)
    | .error c => refuse c s
  else
    match findLeaf s ag a with
    | .fault c => refuse c s
    | .wait => .wait
    | .leaf x =>
      match leafCheck x.pte ag k with
      | some c => refuse c s
      | none =>
        if pteTouched x.pte k != x.pte && s.ownedLoc ag.engine x.slot then .wait
        else if pteTouched x.pte k != x.pte && slotRefused s ag x.slot then refuse .world s
        else
          let s1 := s.touchLeaf x k
          match physCheck s ag.secure (x.apply a) with
          | some c => refuse c s1
          | none => .ok (s1, .mem (s.physLoc (x.apply a)))

/-- The target `i` bytes after a target. -/
def Target.plus (t : Target) (i : Nat) : Target :=
  match t with
  | .mem l => .mem (l + i)
  | .array o => .array (o + i)
  | .control o => .control (o + i)

/-- The bytes of an access from an address to the next 4 KiB boundary. -/
def pieceLen (va : Word) (n : Nat) : Nat := min n (4096 - va.toNat % 4096)

/-- The targets of `n` consecutive byte addresses, split where 4 KiB boundaries are crossed, with the state after the
translations; the fault of the first byte address that fails otherwise. `fuel` bounds the pieces. -/
def locate (ag : Agent) (via : Via) (k : Kind) : Nat → State → Word → Nat → Acc (State × List Target)
  | 0, s, _, _ => .ok (s, [])
  | fuel + 1, s, va, n =>
    if n = 0 then .ok (s, [])
    else
      let m := pieceLen va n
      match translate s ag via k va with
      | .fault f u => .fault f u
      | .wait => .wait
      | .ok (s1, t) =>
        match locate ag via k fuel s1 (va + BitVec.ofNat 64 m) (n - m) with
        | .fault f u => .fault f u
        | .wait => .wait
        | .ok (s2, rest) => .ok (s2, (List.range m).map t.plus ++ rest)

/-! ### Array window contents (Table 10-3, R262) -/

/-- The 256 header bytes of an array's state image. -/
def arrayHeader (c : ClusterSt) : List Byte :=
  leBytes 8 c.config.toNat ++ leBytes 4 c.seed.toNat ++ leBytes 4 0 ++ leBytes 8 c.steps.toNat ++ leBytes 40 0 ++
    leBytes 64 c.table.toNat ++ leBytes 128 0

/-- A byte of the array window. -/
def arrayByte (s : State) (cluster o : Nat) : Byte :=
  if o < 2 ^ 20 then readByte s.cells (cluster * 2 ^ 20 + o)
  else if o < 2 ^ 20 + 256 then ((arrayHeader (s.clusterSt cluster))[o - 2 ^ 20]?).getD 0
  else 0

/-! ### Control window registers (Table 15-5, Table 18-2) -/

/-- LINK l as a register. -/
def Link.word (l : Link) : Word :=
  BitVec.ofNat 64 ((if l.up then 2 ^ 63 else 0) + (if l.secure then 2 ^ 62 else 0) + l.retry.toNat * 2 ^ 16 +
    (if l.up then l.peerid.toNat else 0))

/-- Rise reserved in the current ramp slot, in watts (GMBPWR.RSV). -/
def State.reservedNow (s : State) : Nat := mapGet 0 s.helm.rise (s.time / 1400) / 8

/-- The value of a register of the engine and control window. -/
def controlRead (s : State) (o : Nat) : Word :=
  if o = 0 then s.helm.root
  else if o = 8 then BitVec.ofNat 64 ((if s.helm.lock then 2 ^ 31 else 0) + s.helm.limit.toNat)
  else if o = 0x10 then BitVec.ofNat 64 (s.reservedNow % 65536 * 65536 + s.helm.power.toNat)
  else if o = 0x18 then s.helm.rampdefer
  else if o = 0x20 then s.helm.rampvcnt
  else if o = 0x48 then BitVec.ofNat 64 (s.host.drop.toNat * 65536 + s.host.requests.length)
  else if o = 0x80 then s.host.domtab
  else if 0x1000 ≤ o ∧ o < 0x2000 then
    let r := mapGet (0, 0) s.wrg ((o - 0x1000) / 16)
    if o % 16 = 0 then r.1 else r.2
  else if 0x2000 ≤ o then (((s.links.toList[(o - 0x2000) / 8]?).map Link.word)).getD 0
  else 0

/-- The ramp limit a write of LIMIT stores (Table 15-5). -/
def limitOf (x : Nat) : BitVec 9 := BitVec.ofNat 9 (max 20 (min 400 x))

/-- A write of GMBLIM (R343): LIMIT first unless locked, then LOCK. -/
def State.writeGmblim (s : State) (x : Word) : State :=
  let lim := if s.helm.lock then s.helm.limit else limitOf (x.toNat % 512)
  { s with helm := { s.helm with limit := lim, lock := s.helm.lock || x.getLsbD 31 } }

/-- A write of MBREQ (R388): the request joins the pending ones, or is dropped when 64 are pending. -/
def State.submit (s : State) (src : Requester) (x : Word) : State :=
  if 64 ≤ s.host.requests.length then { s with host := { s.host with drop := s.host.drop + 1 } }
  else { s with host := { s.host with
    requests := s.host.requests ++ [{ src := src, addr := x &&& 0xFFFFFFFFFFC0, result := none }] } }

/-- A hart's write of a register of the engine and control window (R384). -/
def controlWrite (s : State) (o : Nat) (x : Word) : State :=
  if o = 0 then { s with helm := { s.helm with root := x &&& 0xFFFFFFFFFF01 } }
  else if o = 8 then s.writeGmblim x
  else if o = 0x40 then s.submit (.hart s.hart.csr.hartid s.hart.csr.status.world) x
  else s

/-! ### Bytes of an access -/

/-- The location of a target in memory. -/
def Target.loc? : Target → Option Nat
  | .mem l => some l
  | _ => none

/-- The 64-byte line of a target, by location; a window outside the memories has lines of its own (R130). -/
def Target.line : Target → Nat
  | .mem l => l / 64
  | .control o => (2 ^ 61 + o) / 64
  | .array o => (2 ^ 62 + o) / 64

/-- A release write to a line wakes its monitors (R137). -/
def Hart.seeRelease (h : Hart) (line : Nat) : Hart := if h.monitor = some line then { h with monitorHit := true } else h

/-- A write with release order has reached a line (R137). -/
def State.releaseLine (s : State) (line : Nat) : State :=
  { s with hart := s.hart.seeRelease line, others := s.others.map (·.seeRelease line) }

/-- A write with release order has reached a location. -/
def State.releaseAt (s : State) (loc : Nat) : State := s.releaseLine (loc / 64)

/-- A write with release order has reached the first of the targets. -/
def State.releaseTargets (s : State) (ts : List Target) : State :=
  match ts.head? with
  | some t => s.releaseLine t.line
  | none => s

/-- The byte at a target; control registers are read by doublewords. -/
def targetByte (s : State) (ag : Agent) : Target → Byte
  | .mem l => readByte s.mem l
  | .array o => arrayByte s ag.cluster o
  | .control o => ((leBytes 8 (controlRead s (o / 8 * 8)).toNat)[o % 8]?).getD 0

/-- A hotness word with one of its three counters raised by 1, saturating (Table 12-7): 0 unit, 1 strided, 2 indexed. -/
def hotUp (x : Word) (k : Nat) : Word :=
  if bitsOf x.toNat (16 * k) 16 = 0xFFFF then x else x + BitVec.ofNat 64 (2 ^ (16 * k))

/-- The 64 KiB frames of LPDDR6 that targets touch, each once. -/
def framesOf (ts : List Target) : List Nat :=
  (ts.filterMap fun t => match t with
    | .mem l => if l < lpddrEnd then some (l / 65536) else none
    | _ => none).eraseDups

/-- An element access counts in the hotness words of the frames it touches (R282). -/
def State.countHot (s : State) (k : Nat) (ts : List Target) : State :=
  { s with ctl := { s.ctl with
      hotness := (framesOf ts).foldl (fun m f => mapSet 0 m f (hotUp (mapGet 0 m f) k)) s.ctl.hotness } }

/-- The bytes of an access put at its targets, one by one, without what the controllers do. -/
def putTargets (s : State) : List Target → List Byte → State
  | .mem l :: ts, b :: bs => putTargets { s with mem := writeByte s.mem l b } ts bs
  | .control o :: ts, bs =>
    if o % 8 = 0 ∧ ts.length = 7 then controlWrite s o (BitVec.ofNat 64 (leNat bs)) else putTargets s ts bs.tail
  | .array _ :: ts, _ :: bs => putTargets s ts bs
  | _, _ => s

/-- The blocks of LPDDR6 that targets touch, each once. -/
def blocksHit (ts : List Target) : List Nat := blocksAt (ts.filterMap Target.loc?)

/-- The bytes of an access written to its targets; each block of LPDDR6 takes them in its line of L2 or by a partial
write of its controller (R266, R279). -/
def writeTargets (s : State) (ts : List Target) (bs : List Byte) : State :=
  (blocksHit ts).foldl State.settleBlock (putTargets s ts bs)

/-- An access that has performed: the state after it, the bytes it read, whether it touched a watched granule, and the
targets of its bytes. -/
structure Done where
  st : State
  data : List Byte
  hit : Bool
  targets : List Target

/-- Uncorrectable errors that a write meets where the controller merges it into a block (R279, R364): they raise a
machine check at the hart that owns the access, and the units stay in error. -/
def State.mergeErrors (s : State) (ag : Agent) (ts : List Target) : State :=
  if ts.any s.badTarget then
    { s with ctl := { s.ctl with bad := ((ts.filter s.badTarget).filterMap Target.loc?).foldl (fun l a => setAdd l (a / 256)) s.ctl.bad } }.pendCheck
      ag.hartid ag.region ag.domain 1 0
  else s

/-- The bytes of an access of an agent stored, with the errors that the merge meets. -/
def storeBytes (s : State) (ag : Agent) (ts : List Target) (bs : List Byte) : State :=
  writeTargets (s.mergeErrors ag ts) ts bs

/-! ### Writes that have not performed (R289, R295) -/

/-- A byte written under a mask of bits that it leaves. -/
def keepBits (keep old new : Byte) : Byte := (old &&& keep) ||| (new &&& ~~~keep)

/-- A waiting write performs; a release wakes the monitors of its line (R137). -/
def State.performPend (s : State) (ag : Agent) (p : Pend) : State :=
  let t := storeBytes s ag (p.locs.map .mem) (List.zipWith (fun l b => keepBits p.keep (readByte s.mem l) b) p.locs p.bytes)
  if p.kind = .release then t.releaseTargets (p.locs.map .mem) else t

/-- Two waiting writes share a location. -/
def Pend.meets (p q : Pend) : Bool := p.locs.any q.locs.contains

/-- A waiting write that performs only if its instruction stops (R294). -/
def Pend.isHeld (p : Pend) : Bool :=
  match p.kind with
  | .held _ => true
  | _ => false

/-- An earlier waiting write of the hart performs before a later one: writes of one lane group, scalar writes that share
a location, and the scalar writes before a release (R289 rows 1, 3 and 10); the write of a VSTB element before any that
shares a location with it (R152). -/
def Pend.precedes (p q : Pend) : Bool :=
  !p.isHeld && ((p.lane == q.lane && (p.lane.isSome || p.meets q || q.kind == .release)) || (p.kind == .blend && p.meets q))

/-- Waiting writes, each with whether it performs when those that meet a condition do: it is one of them, or precedes
one that performs. -/
def forcedBy (hit : Pend → Bool) : List Pend → List (Pend × Bool)
  | [] => []
  | p :: ps =>
    let r := forcedBy hit ps
    (p, (!p.isHeld && hit p) || r.any fun q => q.2 && p.precedes q.1) :: r

/-- The hart's waiting writes that meet a condition perform, after those that precede them, oldest first. -/
def State.flush (s : State) (hit : Pend → Bool) : State :=
  let l := forcedBy hit s.hart.pend
  ((l.filter (·.2)).map (·.1)).foldl (fun t p => t.performPend s.hart.agent p)
    { s with hart := { s.hart with pend := (l.filter fun x => !x.2).map (·.1) } }

/-- Every waiting write of the hart performs. -/
def State.flushAll (s : State) : State := s.flush fun _ => true

/-- The waiting scalar stores of the hart perform. -/
def State.flushScalar (s : State) : State := s.flush fun p => p.lane.isNone

/-- The hart's lane groups empty their store queues. -/
def State.flushLanes (s : State) : State := s.flush fun p => p.lane.isSome

/-- The waiting writes of the harts that meet a condition perform. -/
def State.flushHarts (s : State) (which : Hart → Bool) : State :=
  let s1 := ((s.hart :: s.others).filter which).foldl (fun t h =>
    (h.pend.filter (!·.isHeld)).foldl (fun t p => t.performPend h.agent p) t) s
  let clear (h : Hart) : Hart := if which h then { h with pend := h.pend.filter (·.isHeld) } else h
  { s1 with hart := clear s1.hart, others := s1.others.map clear }

/-- A hart's store elements that waited for a higher one of their instruction wait for it no more: the instruction at an
address, or every one, has completed or stopped (R294). -/
def Hart.releaseHeld (h : Hart) (ended : Word → Bool) : Hart :=
  { h with pend := h.pend.map fun p => match p.kind with
      | .held pc => if ended pc then { p with kind := .plain } else p
      | _ => p }

/-- A waiting write touches one of some targets. -/
def Pend.touches (p : Pend) (ts : List Target) : Bool := (ts.filterMap Target.loc?).any p.locs.contains

/-- The waiting writes that an access of the hart on a path comes after perform: those of its path that share a
location (R289 rows 1 and 2), and the write of a VSTB element, which no access of the hart parts from its read (R152).
Local order is transitive, so that what the access reads has then performed. -/
def State.after (s : State) (lane : Option Nat) (ts : List Target) : State :=
  s.flush fun p => (p.lane == lane || p.kind == .blend) && p.touches ts

/-- Likewise for an access in no lane group that is no scalar access: an MTLD, LASTL, LASTS or LATBL. -/
def State.afterBlend (s : State) (ts : List Target) : State := s.flush fun p => p.kind == .blend && p.touches ts

/-- The link over which an address reaches a peer, none for any other address. -/
def linkOver (s : State) (ag : Agent) (va : Word) : Option Nat :=
  if 0xFFF0000000000 ≤ va.toNat then none
  else match findLeaf s ag va.toNat with
    | .leaf x => if x.apply va.toNat < lpddrEnd then none else some (bitsOf (x.apply va.toNat) 41 5)
    | _ => none

/-- A write of the hart to memory at an address joins the queue of its path: a lane group's for an element, the scalar
path's otherwise (R289, R295). `keep` masks the bits of each byte that it leaves. -/
def State.queueWrite (s : State) (ag : Agent) (lane : Option Nat) (kind : PendKind) (keep : Byte) (va : Word)
    (ts : List Target) (bs : List Byte) : State :=
  { s with hart := { s.hart with
      pend := s.hart.pend ++
        [{ lane := lane, link := linkOver s ag va, locs := ts.filterMap Target.loc?, bytes := bs, keep := keep, kind := kind }] } }

/-- A target lies in a memory, where a write may wait. -/
def Target.inMemory (t : Target) : Bool := t.loc?.isSome

/-! ### Accesses -/

/-- The targets of an access, if they translate and no engine owns their lines. -/
def access (s : State) (ag : Agent) (via : Via) (k : Kind) (va : Word) (n : Nat) : Acc (State × List Target) :=
  match locate ag via k (n / 4096 + 2) s va n with
  | .fault f u => .fault f u
  | .wait => .wait
  | .ok (s1, ts) => if ts.any (s1.ownedTarget ag.engine) then .wait else .ok (s1, ts)

/-- The hart's own scalar accesses come after its waiting writes; an engine's do not. -/
def State.afterOwn (s : State) (ag : Agent) (ts : List Target) : State := if ag.engine.isNone then s.after none ts else s

/-- A read of `n` bytes (R118). -/
def loadAt (s : State) (ag : Agent) (via : Via) (va : Word) (n : Nat) : Acc Done :=
  match access s ag via .load va n with
  | .fault f u => .fault f u
  | .wait => .wait
  | .ok (s0, ts) =>
    if ts.any s0.badTarget then .fault { cause := .mchk, addr := va } s0
    else
      let s1 := s0.afterOwn ag ts
      .ok { st := s1, data := ts.map (targetByte s1 ag), hit := ts.any s1.watchedTarget, targets := ts }

/-- A read of `n` bytes as a vector access in no lane group (R289, R317). -/
def loadTile (s : State) (ag : Agent) (va : Word) (n : Nat) : Acc Done :=
  match access s ag .tile .load va n with
  | .fault f u => .fault f u
  | .wait => .wait
  | .ok (s0, ts) =>
    if ts.any s0.badTarget then .fault { cause := .mchk, addr := va } s0
    else
      let s1 := s0.afterBlend ts
      .ok { st := s1, data := ts.map (targetByte s1 ag), hit := ts.any s1.watchedTarget, targets := ts }

/-- The waiting scalar stores of the hart perform before an access that follows them at once. -/
def State.settled (s : State) (ag : Agent) (ts : List Target) : State :=
  if ag.engine.isNone then (s.after none ts).flushScalar else s

/-- A write of bytes that performs at once (R118). -/
def storeAt (s : State) (ag : Agent) (via : Via) (va : Word) (bs : List Byte) : Acc Done :=
  match access s ag via .store va bs.length with
  | .fault f u => .fault f u
  | .wait => .wait
  | .ok (s1, ts) =>
    .ok { st := storeBytes (s1.settled ag ts) ag ts bs, data := [], hit := ts.any s1.watchedTarget, targets := ts }

/-- A write of bytes as a vector access in no lane group (R289, R317). -/
def storeTile (s : State) (ag : Agent) (va : Word) (bs : List Byte) : Acc Done :=
  match access s ag .tile .store va bs.length with
  | .fault f u => .fault f u
  | .wait => .wait
  | .ok (s1, ts) =>
    .ok { st := storeBytes (s1.afterBlend ts) ag ts bs, data := [], hit := ts.any s1.watchedTarget, targets := ts }

/-- The target is MBREQ, whose write by a hart is a release of its earlier accesses (R388). -/
def Target.isMbreq (t : Target) : Bool := t == .control 0x40

/-- What a scalar store is while it waits: a release, a misaligned one whose bytes are accesses of their own (R118), or
a plain one. -/
def storeKind (rel : Bool) (va : Word) (n : Nat) : PendKind :=
  if rel then .release else if va.toNat % max 1 n = 0 then .plain else .bytewise

/-- A plain or release store of the hart (R118, R130), which may wait in its path (R295). -/
def storeLater (s : State) (ag : Agent) (via : Via) (rel : Bool) (va : Word) (bs : List Byte) : Acc Done :=
  match access s ag via .store va bs.length with
  | .fault f u => .fault f u
  | .wait => .wait
  | .ok (s1, ts) =>
    let s2 :=
      if s1.loose && ts.all Target.inMemory then s1.queueWrite ag none (storeKind rel va bs.length) 0 va ts bs
      else
        let s0 := if rel || ts.any Target.isMbreq then s1.settled ag ts else s1.afterOwn ag ts
        let t := storeBytes s0 ag ts bs
        if rel then t.releaseTargets ts else t
    .ok { st := s2, data := [], hit := ts.any s1.watchedTarget, targets := ts }

/-- A read-modify-write of `n` bytes as one step (R288): `f` gives the new value, or none when nothing is written. -/
def rmwAt (s : State) (ag : Agent) (via : Via) (va : Word) (n : Nat) (f : Nat → Option Nat) : Acc Done :=
  match access s ag via .rmw va n with
  | .fault f u => .fault f u
  | .wait => .wait
  | .ok (s0, ts) =>
    if ts.any s0.badTarget then .fault { cause := .mchk, addr := va } s0
    else
      let s1 := s0.settled ag ts
      let old := ts.map (targetByte s1 ag)
      let s2 := match f (leNat old) with
        | some x => writeTargets s1 ts (leBytes n x)
        | none => s1
      .ok { st := s2, data := old, hit := ts.any s1.watchedTarget, targets := ts }

end Sys2Proof.Machine
end

