-- ==== Sys2Proof/Machine/Ops.lean ====
section
/-! DEFINITION. Named operations over the hart: registers, flags, counters and logs, the end of a gang, taking an
exception (R349 to R355), returning from one (R135, R356), and the outcome of a scalar instruction (R113). -/

namespace Sys2Proof.Machine

/-- Outcome of a meaning. -/
abbrev Out := Host.Outcome State Fault Refusal

/-! ### Registers -/

/-- General register n; g0 reads zero (R14). -/
def Hart.getG (h : Hart) (n : Reg) : Word := if n = 0 then 0 else h.g[n.val]'n.isLt

/-- The hart with a general register written; a write of g0 is discarded (R14). -/
def Hart.setG (h : Hart) (n : Reg) (x : Word) : Hart := if n = 0 then h else { h with g := h.g.set n.val x n.isLt }

/-- The state with the hart's record changed. -/
def State.onHart (s : State) (f : Hart → Hart) : State := { s with hart := f s.hart }

/-- The state with the hart's control registers changed. -/
def State.onCsr (s : State) (f : Csr → Csr) : State := { s with hart := { s.hart with csr := f s.hart.csr } }

/-- The state with the hart's STATUS changed. -/
def State.onStatus (s : State) (f : Status → Status) : State := s.onCsr fun c => { c with status := f c.status }

/-- General register n of the hart. -/
def State.getG (s : State) (n : Reg) : Word := s.hart.getG n

/-- The state with a general register of the hart written. -/
def State.setG (s : State) (n : Reg) (x : Word) : State := s.onHart (·.setG n x)

/-- The state with the program counter at an address. -/
def State.setPc (s : State) (pc : Word) : State := { s with hart := { s.hart with pc := pc } }

/-- The state after an instruction of `n` bytes that falls through (R69). -/
def State.advance (s : State) (n : Nat) : State := s.setPc (s.hart.pc + BitVec.ofNat 64 n)

/-- The state with the front-end in another condition. -/
def State.setRun (s : State) (r : Run) : State := { s with hart := { s.hart with run := r } }

/-- VLR of the hart in bits (R17). -/
def Hart.vlrBits (h : Hart) : Nat := h.csr.vlr.toNat

/-- Element width of a VTYPE value, 0 when its SEW field is illegal (Table 01-4). -/
def sewOf (t : BitVec 9) : Nat :=
  match t.toNat % 4 with
  | 1 => 16
  | 2 => 32
  | 3 => 64
  | _ => 0

/-- A VTYPE value is legal (R141, Table 01-4): SEW, FLUSH and BLK hold legal values. -/
def vtypeLegal (t : BitVec 9) : Bool :=
  let x := t.toNat
  x % 4 != 0 && x / 4 % 4 != 3 && x / 16 % 8 != 1 && x / 16 % 8 != 2

/-- VLMAX of a VTYPE value under a VLR (R17). -/
def vlmaxOf (vlr : Nat) (t : BitVec 9) : Nat := if sewOf t = 0 then 0 else vlr / sewOf t

/-- Stream register QSn is written (R23). -/
def Hart.setQs (h : Hart) (n : Fin 4) (x : Word) : Hart :=
  { h with csr := { h.csr with qs := h.csr.qs.set n.val x n.isLt } }

/-! ### Event counters (R380) -/

/-- Adds `k` events of a code to the counters that select it. -/
def Csr.count (c : Csr) (code k : Nat) : Csr :=
  if c.evsel.toList.any (·.toNat == code) then
    { c with evcnt := Vector.ofFn fun i : Fin 4 =>
        if (c.evsel[i.val]'i.isLt).toNat = code then c.evcnt[i.val]'i.isLt + BitVec.ofNat 64 k
        else c.evcnt[i.val]'i.isLt }
  else c

/-- Adds `k` events of a code to the hart's counters. -/
def State.count (s : State) (code k : Nat) : State := s.onCsr (·.count code k)

/-- Event codes of Table 17-3. -/
def evCycles : Nat := 1
/-- Instructions executed by the front-end. -/
def evInstret : Nat := 2
/-- Vector, tile and array instructions completed. -/
def evVcompl : Nat := 3
/-- Element groups issued. -/
def evEgissue : Nat := 4
/-- Ballast slots. -/
def evBallast : Nat := 5
/-- Cycles ready but held by the issue cap. -/
def evThrottle : Nat := 6
/-- Cycles waiting at GBAR. -/
def evGbarwait : Nat := 7
/-- Cycles stopped on a full queue. -/
def evQfull : Nat := 8
/-- Elements demoted. -/
def evDemote : Nat := 14
/-- WATCHHIT traps taken. -/
def evWatchhit : Nat := 15
/-- Soft errors corrected for the hart. -/
def evSofterr : Nat := 16
/-- Soft errors corrected anywhere in the module. -/
def evSofterrMod : Nat := 17
/-- Cycles waiting at drain points. -/
def evDrainwait : Nat := 9
/-- Cycles that chunks waited for pin-table entries. -/
def evPinwait : Nat := 10
/-- Ramp slots by which the gang start was deferred. -/
def evRampdefer : Nat := 19
/-- MROW grants. -/
def evStegrant : Nat := 20
/-- Tags dropped. -/
def evSamplost : Nat := 21
/-- Sample and strip-log facilities stopped by a fault. -/
def evLogfault : Nat := 22

/-! ### Open values -/

/-- A fresh open value and the state whose counter has advanced. -/
def State.freshWord (s : State) : Word × State := (Config.freeWord s.fresh, { s with fresh := s.fresh + 1 })

/-! ### Sample and strip-log records (R376 to R379) -/

/-- The agent that log writes translate as: the hart with the rights of U (R378). -/
def Hart.logAgent (h : Hart) : Agent := { h.agent with sup := false }

/-- Outcome of the writes of a log record. -/
inductive Logged where
  | done (s : State)
  /-- an access has faulted, and the later ones are dropped -/
  | fault (s : State)
  /-- an engine owns a line that they reach (R311) -/
  | wait

/-- A fault of a log access: an uncorrectable error raises its machine check (R364, R378). -/
def State.logFault (s : State) (f : MemFault) : State :=
  if f.cause = .mchk then s.pendCheck s.hart.csr.hartid s.hart.region s.hart.domain 1 f.addr else s

/-- Writes doublewords from an address up as log writes (R378); the record waits whole for a line that an engine owns. A
merge that meets an uncorrectable error raises its machine check (R364). -/
def logWrites : List Word → State → Word → Logged
  | [], t, _ => .done t
  | x :: xs, t, va =>
    match access t t.hart.logAgent .scalar .store va 8 with
    | .ok (t1, ts) => logWrites xs (storeBytes t1 t1.hart.logAgent ts (leBytes 8 x.toNat)) (va + 8)
    | .fault f u => .fault (u.logFault f)
    | .wait => .wait

/-- STRIPLOG.EN (Table 01-4). -/
def Csr.stripEn (c : Csr) : Bool := c.striplog.getLsbD 0

/-- SAMPCTL.EN (Table 01-4). -/
def Csr.sampEn (c : Csr) : Bool := c.sampctl.getLsbD 0

/-- Records of the strip log: 16 · 2^SIZE (Table 01-4). -/
def Csr.stripCount (c : Csr) : Nat := 16 * 2 ^ bitsOf c.striplog.toNat 4 4

/-- A facility stops on a faulted log write: its EN clears and LOGFAULT counts (R378). -/
def State.stopStripLog (s : State) : State :=
  (s.onCsr fun c => { c with striplog := c.striplog &&& ~~~1#64 }).count evLogfault 1

/-- Likewise for sampling (R378). -/
def State.stopSampling (s : State) : State :=
  (s.onCsr fun c => { c with sampctl := c.sampctl &&& ~~~1#64 }).count evLogfault 1

/-- A count of a record, saturated (Table 17-1, Table 17-2). -/
def sat32 (n : Nat) : Nat := min n 0xFFFFFFFF

/-- The four doublewords of a strip's record (Table 17-2); `trap` is FLAGS[0]. -/
def OpenStrip.words (o : OpenStrip) (now : Nat) (trap : Bool) : List Word :=
  [BitVec.ofNat 64 (o.vl.toNat * 2 ^ 52 + o.pc.toNat % 2 ^ 52),
    BitVec.ofNat 64 (sat32 (now - o.start) + sat32 o.arith * 2 ^ 32),
    BitVec.ofNat 64 (sat32 o.mem + sat32 o.tile * 2 ^ 32),
    BitVec.ofNat 64 (sat32 o.ballast + o.vtype.toNat * 2 ^ 32 + (if trap then 2 ^ 48 else 0))]

/-- The open strip's counts change (Table 17-2). -/
def Hart.onStrip (h : Hart) (f : OpenStrip → OpenStrip) : Hart := { h with openStrip := h.openStrip.map f }

/-- The oldest record of a closed strip is written and HEAD moves on (R379); it stays while an engine owns its line. -/
def State.writeStrip (s : State) : State :=
  match s.hart.stripOut with
  | [] => s
  | r :: rest =>
    let s0 := s.onHart fun h => { h with stripOut := rest }
    if !s.hart.csr.stripEn then s0
    else
      let n := s.hart.csr.stripCount
      let head := bitsOf s.hart.csr.striplog.toNat 52 12
      let base := s.hart.csr.striplog &&& 0xFFFFFFFFFF000
      match logWrites r s0 (base + BitVec.ofNat 64 (32 * (head % n))) with
      | .wait => s
      | .fault t => (t.onHart fun h => { h with stripOut := [] }).stopStripLog
      | .done t => t.onCsr fun c => { c with striplog :=
          (c.striplog &&& 0x000FFFFFFFFFFFFF) ||| BitVec.ofNat 64 ((head + 1) % n * 2 ^ 52) }

/-- Closes the open strip, if any, and writes its record (R379, Table 17-2); `trap` is FLAGS[0]. -/
def State.closeStrip (s : State) (trap : Bool) : State :=
  match s.hart.openStrip with
  | none => s
  | some o =>
    let s0 := s.onHart fun h => { h with openStrip := none }
    if !s.hart.csr.stripEn then s0
    else (s0.onHart fun h => { h with stripOut := h.stripOut ++ [o.words s.time trap] }).writeStrip

/-- The strip that opens at an instruction (R379). -/
def OpenStrip.begin (h : Hart) (pc : Word) (now : Nat) : OpenStrip :=
  { pc := pc, vl := h.csr.vl, vtype := h.csr.vtype, start := now, arith := 0, mem := 0, tile := 0, ballast := 0 }

/-- A vector-length-setting instruction at the vector unit closes the open strip and, in U, opens the next (R379). -/
def State.stripTurn (s : State) (pc : Word) (user : Bool) : State :=
  if !s.hart.csr.stripEn then s
  else
    let s1 := s.closeStrip false
    if user && s1.hart.csr.stripEn then
      s1.onHart fun h => { h with openStrip := some (OpenStrip.begin h pc s1.time) }
    else s1

/-- The words of a sample record (Table 17-1); the cycle fields are open timing values. -/
def sampleWords (t : Tag) (cyc : List Nat) : List Word :=
  let f (i : Nat) : Nat := cyc[i]?.getD 0
  let flags := (if t.vector then 1 else 0) + (if t.trapped then 2 else 0) + (if t.masked then 4 else 0) +
    (if t.restarted then 8 else 0)
  let wait := if t.vector then f 1 else 0
  [t.pc, BitVec.ofNat 64 t.fetched, t.enc, BitVec.ofNat 64 (f 0 + wait * 2 ^ 32), BitVec.ofNat 64 (f 2 + f 3 * 2 ^ 32),
    BitVec.ofNat 64 (f 4 + f 5 * 2 ^ 32),
    BitVec.ofNat 64 (t.vl.toNat + t.vstart.toNat * 2 ^ 16 + t.vtype.toNat * 2 ^ 32 + flags * 2 ^ 48 +
      t.code.toNat * 2 ^ 56), 0] ++
    (List.range 16).map fun i => BitVec.ofNat 64 (bitsOf t.mask.toNat (64 * i) 64)

/-- Six open cycle counts. -/
def State.freshSix (s : State) : List Nat × State :=
  ((List.range 6).map fun i => (Config.freeWord (s.fresh + i)).toNat % 2 ^ 32, { s with fresh := s.fresh + 6 })

/-- The tagged instruction has completed or trapped, and its record is to be written (R377). -/
def State.recordSample (s : State) (t : Tag) : State := s.onHart fun h => { h with tag := none, tagDone := h.tagDone ++ [t] }

/-- Writes the record of a tagged instruction and then COUNT (R377); none while an engine owns a line that it reaches.
-/
def State.writeSample (s : State) (t : Tag) : Option State :=
  if !s.hart.csr.sampEn then some s
  else
    let base := s.hart.csr.sampctl &&& 0xFFFFFFFFFF000
    match loadAt s s.hart.logAgent .scalar base 8 with
    | .fault f u => some (u.logFault f).stopSampling
    | .wait => none
    | .ok r =>
      let k := leNat r.data
      let (c, s2) := r.st.freshSix
      match logWrites (sampleWords t c ++ List.replicate 8 0) s2 (base + BitVec.ofNat 64 (256 * (1 + k % 15))) with
      | .fault u => some u.stopSampling
      | .wait => none
      | .done s3 =>
        match logWrites [BitVec.ofNat 64 (k + 1)] s3 base with
        | .fault u => some u.stopSampling
        | .wait => none
        | .done s4 => some s4

/-! ### Regions and records in memory (Table 15-1, Table 15-3) -/

/-- The doubleword at a physical address. -/
def State.phys64 (s : State) (pa : Nat) : Nat := readNat s.mem pa 8

/-- The state with the doubleword at a physical address written, through L2 or the controller (R266, R274). -/
def State.setPhys64 (s : State) (pa x : Nat) : State := s.putBytes pa (leBytes 8 x)

/-- USE of an RCB with the steps, gangs and harts of a gang added or taken away (Table 15-1). -/
def useWord (x step h : Nat) (add : Bool) : Nat :=
  let w := bitsOf x 32 20
  let g := bitsOf x 16 16
  let n := bitsOf x 0 16
  if add then (w + step) % 2 ^ 20 * 2 ^ 32 + (g + 1) % 2 ^ 16 * 2 ^ 16 + (n + h) % 2 ^ 16
  else (w - step) * 2 ^ 32 + (g - 1) * 2 ^ 16 + (n - h)

/-- STATE of a launch record after one more gang has retired (R324, R330): RETIRED rises, and DONE is set when it
reaches G. -/
def retiredState (x g : Nat) : Nat :=
  let r := (bitsOf x 16 16 + 1) % 2 ^ 16
  let y := x - bitsOf x 16 16 * 2 ^ 16 + r * 2 ^ 16
  if r = g && !x.testBit 63 then y + 2 ^ 63 else y

/-- The offset of the word that a change of the Helm concerns: USE, or STATE. -/
def HelmChange.offset : HelmChange → Nat
  | .take _ _ => 0x50
  | .give _ _ => 0x50
  | _ => 0x48

/-- The word after a change of the Helm; `g` is G of the launch record (R321, R323, R324, R332, R344). -/
def HelmChange.apply (c : HelmChange) (x g : Nat) : Nat :=
  match c with
  | .take step h => useWord x step h true
  | .give step h => useWord x step h false
  | .placed => x + 1
  | .retired => retiredState x g
  | .preempted => x + 2 ^ 32
  | .resumed => x - 2 ^ 32
  | .rampv => if x.testBit 62 then x else x + 2 ^ 62
  | .malformed => if x.testBit 61 then x else x + 2 ^ 61

/-- An address of LPDDR6 that the Helm may reach by a link: it exists, and its frame is not secure unless the link lies
in a secure frame itself. DESIGN CHOICE (log entry 53): the manual gives the Helm's accesses no world. -/
def helmReaches (s : State) (secure : Bool) (a : Nat) : Bool := decide (a < lpddrEnd) && (physCheck s secure a).isNone

/-- An access of the Helm for a domain that meets an uncorrectable error raises a machine check to that domain
(R283, R364); no hart's region owns it. -/
def State.helmCheck (s : State) (domain : BitVec 16) (a : Nat) : State :=
  s.sendFault { domain := domain, kind := 1, code := 0x10, source := 0xFFFFFFFF, object := BitVec.ofNat 64 a, addr := 0,
                time := s.time }

/-- The word that a change of the Helm concerns. -/
def HelmWrite.at (w : HelmWrite) : Nat := w.base + w.change.offset

/-- A change that the Helm makes, STATE with release (R323): none at an address that the link may not reach, and none
where the word cannot be read for an uncorrectable error. -/
def State.helmApply (s : State) (w : HelmWrite) : State :=
  if w.base = 0 || !helmReaches s w.secure w.at then s
  else if s.badLoc w.at then s.helmCheck w.domain w.at
  else
    let t := s.setPhys64 w.at (w.change.apply (s.phys64 w.at) (bitsOf (s.phys64 (w.base + 0x18)) 0 16))
    if w.change.offset = 0x48 then t.releaseAt w.at else t

/-- Changes of the Helm in order, up to one whose line an engine owns; that one and those behind it wait (R311). -/
def helmDrain : List HelmWrite → State → State
  | [], s => { s with helm := { s.helm with todo := [] } }
  | w :: ws, s =>
    if s.ownedLoc none w.at then { s with helm := { s.helm with todo := w :: ws } } else helmDrain ws (s.helmApply w)

/-- The Helm makes changes, after those that wait. -/
def State.helmWrites (s : State) (ws : List HelmWrite) : State := helmDrain (s.helm.todo ++ ws) s

/-- A change of USE in the RCBs of a gang's region and its ancestors (R321). -/
def Gang.useWrites (g : Gang) (c : HelmChange) : List HelmWrite :=
  g.anc.map fun a => { base := a.1, secure := a.2, domain := g.domain, change := c }

/-- A change of STATE of a gang's record. -/
def Gang.stateWrite (g : Gang) (c : HelmChange) : HelmWrite :=
  { base := g.record, secure := g.recSecure, domain := g.domain, change := c }

/-- A front-end that holds no hart. -/
def Hart.vacated : Hart := Hart.reset

/-- The gang of a number, if it is placed. -/
def State.gang? (s : State) (id : Nat) : Option Gang := s.helm.gangs.find? (·.id == id)

/-- A core's record once the hart of a HARTID has left: it waits for no pins (R271), and its ballast belongs to no
placed hart (R346). -/
def CoreSt.leaves (c : CoreSt) (id : BitVec 12) : CoreSt :=
  { c with
    pinQueue := c.pinQueue.filter (· != id)
    ballast := c.ballast.map fun b => if b.slot = id.toNat % 8 then { b with live := false } else b }

/-- Harts have left their cores. -/
def State.vacate (s : State) (ids : List (BitVec 12)) : State :=
  ids.foldl (fun t id => t.setCore (coreOf id) ((t.coreSt (coreOf id)).leaves id)) s

/-- The placed harts of a gang, by HARTID. -/
def State.gangIds (s : State) (id : Nat) : List (BitVec 12) :=
  ((s.hart :: s.others).filter fun h => h.gang == id && h.run != .vacant).map (·.csr.hartid)

/-- The Helm ends a gang (R332, R350): its harts leave without saving anything, while writes that they have passed still
perform; a fault message of kind 6 goes to the region's domain, the budget returns and RETIRED rises by 1. -/
def State.endGang (s : State) (id : Nat) : State :=
  let dom := s.hart.domain
  let src := s.hart.csr.hartid
  let stop (h : Hart) : Hart := if h.gang = id then h.releaseHeld fun _ => true else h
  let s0 := ({ s with hart := stop s.hart, others := s.others.map stop }.flushHarts fun h => h.gang == id).vacate
    (s.gangIds id)
  let s1 : State := { s0 with
    hart := if s0.hart.gang = id then Hart.vacated else s0.hart
    others := s0.others.filter (·.gang != id) }
  match s.gang? id with
  | none => s1.sendFault { domain := dom, kind := 6, code := 0, source := src.setWidth 32, object := 0, addr := 0, time := s.time }
  | some g =>
    let s2 := { s1 with helm := { s1.helm with gangs := s1.helm.gangs.filter (·.id != id) } }
    (s2.helmWrites ((if g.preempted then [] else g.useWrites (.give g.step g.counted)) ++ [g.stateWrite .retired])).sendFault
      { domain := g.domain, kind := 6, code := 0, source := 0xFFFFFFFF, object := BitVec.ofNat 64 g.record, addr := 0,
        time := s.time }

/-! ### Taking an exception (R349 to R355) -/

/-- Classes of Table 16-1: precise scalar, vector, asynchronous. -/
inductive TrapClass where
  | scalar | vector | async
  deriving DecidableEq, Repr

/-- A trap to take: cause code, class, TVAL and TAUX (Table 16-1). -/
structure Trap where
  code : Nat
  cls : TrapClass
  tval : Word
  taux : Word
  deriving DecidableEq, Repr

/-- TAUX from its fields (Table 01-4). -/
def mkTaux (ev : Bool) (cspec wreg elem : Nat) : Word :=
  BitVec.ofNat 64 ((if ev then 2 ^ 63 else 0) + cspec % 2 ^ 16 * 2 ^ 32 + wreg % 8 * 2 ^ 16 + elem % 2 ^ 16)

/-- CAUSE of a trap (Table 01-4, R351). -/
def causeWord (code : Nat) (cls : TrapClass) : Word :=
  BitVec.ofNat 64 (code % 256 + (if cls = .vector then 256 else 0) + (if cls = .async then 2 ^ 63 else 0))

/-- TVEC as it stores a value (Table 01-4): BASE, and MODE 0 or 1; a MODE of 2 or 3 stores 0. -/
def tvecOf (x : Word) : Word := x &&& 0xFFFFFFFFFFFC0 ||| (if x.toNat % 4 = 1 then 1 else 0)

/-- The handler address of a cause (R351, R353). -/
def handlerOf (tvec : Word) (code : Nat) : Word :=
  let base := tvec &&& 0xFFFFFFFFFFFC0
  if tvec.toNat % 4 = 1 then base + BitVec.ofNat 64 (64 * code) else base

/-- A two-byte field of the frame that a queued RESTVQ has read (Table 11-7). -/
def Held.frame16 (e : Held) (off : Nat) : Nat := leNat ((e.data.drop off).take 2)

/-- The VTYPE in force after the entries of a queue, when `t` is in force before them: that of the newest
length-setting entry, of TAILVTYPE of a frame, or of an ERET behind them. -/
def tailOf (q : List Held) (t : BitVec 9) : BitVec 9 :=
  q.foldl (fun t e => e.thenVtype.getD (match e.instr with
    | .setvli _ | .setvl _ => BitVec.ofNat 9 (e.ops.getLastD 0).toNat
    | .restvq _ => BitVec.ofNat 9 (e.frame16 0x16)
    | _ => t)) t

/-- A VTYPE that an ERET leaves is in force once the newest entry of a queue has left (R51, R356). -/
def thenTail (q : List Held) (t vt : BitVec 9) : List Held :=
  match q.getLast? with
  | some e => q.dropLast ++ [{ e with thenVtype := if tailOf q t = vt then e.thenVtype else some vt }]
  | none => []

/-- The entries that the vector unit still holds, oldest first: those that wait in the tile queues, and those of the
VIQ. -/
def Hart.entries (h : Hart) : List Held := h.tiles.map (·.entry) ++ h.viq

/-- The VTYPE left by every instruction that the front-end has executed (R353). -/
def tailVtype (h : Hart) : BitVec 9 := tailOf h.entries h.csr.vtype

/-- The VL left by every instruction that the front-end has executed. -/
def tailVl (h : Hart) : BitVec 11 :=
  h.viq.foldl (fun t e => match e.instr, e.ops with
    | .setvli _, [vl, _] => BitVec.ofNat 11 vl.toNat
    | .setvl _, [vl, _] => BitVec.ofNat 11 vl.toNat
    | .restvq _, _ => BitVec.ofNat 11 (e.frame16 0x14)
    | _, _ => t) h.csr.vl

/-- STATUS after trap entry (R353). -/
def Status.enter (st : Status) : Status := { st with ppriv := st.priv, pie := st.ie, priv := true, ie := false }

/-- A vector memory instruction whose performed elements are a prefix at a stop (R148): unit and strided modes, VLDK,
VSAVE and VREST, and MAST likewise (R223). -/
def stopsInOrder (v : VInstr) : Bool :=
  match v with
  | .vm op _ =>
    match op with
    | .vldUnit | .vldStrided | .vldff | .vstUnit | .vstStrided | .vstbUnit | .vstbStrided | .vldkUnit | .vldkStrided
    | .vsave | .vrest => true
    | _ => false
  | .mast o => o.mode != .indexed
  | _ => false

/-- An entry that stops is in flight no more and gives back its pinned translations (R271); where the performed set is a
prefix, elements that have performed above the restart point do not count (R148). -/
def Held.stop (e : Held) : Held :=
  { e with pins := [], flying := false, early := [], raised := [], demoted := false
           done := if stopsInOrder e.instr then 0 else e.done }

/-- The entry of a request that a stop withdraws: it has not issued, unless some of its elements have performed
(R223). -/
def TileReq.withdrawn (q : TileReq) : Held := { q.entry with begun := q.entry.restart.isSome }

/-- The entries of a hart that a stop leaves: the tile instructions that wait for a grant go back to the VIQ (R223), and
pinned translations are given back. -/
def Hart.stoppedViq (h : Hart) : List Held := (h.tiles.map TileReq.withdrawn ++ h.viq).map Held.stop

/-- The registers full that a producer which has not been granted had left empty; it goes back to the VIQ (R26, R223).
-/
def refill (ts : List TileReq) (full : BitVec 32) : BitVec 32 :=
  ts.foldl (fun m q => match q.entry.instr with
    | .mard o => m ||| BitVec.ofNat 32 (2 ^ o.v.val)
    | _ => m) full

/-- The oldest entry of a hart records its restart point and the elements above it that have performed in VSTART and in
the completion mask when it stops in flight (R148). A younger one keeps its own with its entry. -/
def Hart.stopHead (h : Hart) : Hart :=
  match h.viq with
  | [] => h
  | e :: rest =>
    match e.restart with
    | none => h
    | some r =>
      let m := (h.mask ||| e.done) &&& ~~~(BitVec.ofNat 1024 (2 ^ r.toNat - 1))
      { h with
        viq := { e with done := 0, restart := none } :: rest
        mask := m
        maskValid := m != 0
        csr := { h.csr with vstart := r } }

/-- The register changes of trap entry (R353): the trap copy of VTYPE from U, STATUS, the strip record, EPC, CAUSE,
TVAL, TAUX and PC; what is in flight stops, and the entries that remain in the VIQ freeze (R354). -/
def Hart.enterTrap (h : Hart) (t : Trap) (epc : Word) : Hart :=
  let h1 := { h with viq := h.stoppedViq, tiles := [], vfull := refill h.tiles h.vfull }.stopHead
  { h1 with
    trapVtype := if h.csr.status.priv then h.trapVtype else tailVtype h
    strip := { h.strip with valid := false }
    frozen := !h1.viq.isEmpty
    run := .running
    tag := if h.viq.any fun e => e.tagged && e.restart.isSome then h.tag.map fun g => { g with restarted := true } else h.tag
    handlerEntry := true
    pc := handlerOf h.csr.tvec t.code
    csr := { h1.csr with
      status := h.csr.status.enter
      epc := epc &&& 0xFFFFFFFFFFFFE
      cause := causeWord t.code t.cls
      tval := t.tval
      taux := t.taux } }

/-- The tagged instruction in flight is the scalar instruction that traps (R377); the issue of a tagged VIQ entry
records its own traps. -/
def tagTraps (h : Hart) (t : Trap) : Bool :=
  match h.tag, t.cls with
  | some g, .scalar => !g.vector
  | _, _ => false

/-- The records that a trap writes before the registers change: the open strip of U closes (R379), and the tagged
instruction that traps is recorded (R377). -/
def State.trapRecords (s : State) (t : Trap) : State :=
  let s1 := if s.hart.csr.status.priv then s else s.closeStrip true
  match s1.hart.tag with
  | some g =>
    if tagTraps s1.hart t then s1.recordSample { g with trapped := true, code := BitVec.ofNat 8 t.code } else s1
  | none => s1

/-- Taking an exception (R353): element stores that have been sent perform first, and a step of the array in progress
ends (R148, R241); then the gang ends when
TVEC.BASE = 0 (R350), and otherwise the records are written and the hart enters S at its handler. `epc` is the address
that R355 gives. -/
def State.takeTrap (s : State) (t : Trap) (epc : Word) : State :=
  let s0 := (s.landOwn.onHart (·.releaseHeld fun _ => true)).flushLanes
  if s.hart.csr.tvec &&& 0xFFFFFFFFFFFC0 = 0 then s0.endGang s.hart.gang
  else
    let s1 := s0.trapRecords t
    let s2 := s1.onHart (·.enterTrap t epc)
    if t.code = 13 then s2.count evWatchhit 1 else s2

/-- A precise scalar trap on the instruction at PC (R113, R355). -/
def State.trapP (s : State) (code : Nat) (tval taux : Word) : State :=
  s.takeTrap { code := code, cls := .scalar, tval := tval, taux := taux } s.hart.pc

/-- A vector-class trap at the front-end's position (R355). -/
def State.trapV (s : State) (code : Nat) (tval taux : Word) : State :=
  s.takeTrap { code := code, cls := .vector, tval := tval, taux := taux } s.hart.pc

/-- Cause codes of Table 16-1. -/
def cILL : Nat := 0x01
/-- XLATE. -/
def cXLATE : Nat := 0x02
/-- ACCESS. -/
def cACCESS : Nat := 0x03
/-- SWTRAP. -/
def cSWTRAP : Nat := 0x04
/-- STACKLIM. -/
def cSTACKLIM : Nat := 0x05
/-- RETEMPTY. -/
def cRETEMPTY : Nat := 0x06
/-- NOPROG. -/
def cNOPROG : Nat := 0x07
/-- EMPTY. -/
def cEMPTY : Nat := 0x08
/-- OVERLAP. -/
def cOVERLAP : Nat := 0x09
/-- CONVOY. -/
def cCONVOY : Nat := 0x0A
/-- DETVIOL. -/
def cDETVIOL : Nat := 0x0B
/-- VFIRST. -/
def cVFIRST : Nat := 0x0C
/-- WATCHHIT. -/
def cWATCHHIT : Nat := 0x0D
/-- MCHK. -/
def cMCHK : Nat := 0x10
/-- PREEMPT. -/
def cPREEMPT : Nat := 0x11
/-- NOTIFY. -/
def cNOTIFY : Nat := 0x12
/-- RESUME. -/
def cRESUME : Nat := 0x13

/-- The cause code of a failed access (R351): every refusal by a right, the map or a world is ACCESS. -/
def MemCause.code : MemCause → Nat
  | .xlate => cXLATE
  | .access => cACCESS
  | .world => cACCESS
  | .mchk => cMCHK

/-- CSPEC of a failed data access (Table 16-2). -/
def MemCause.cspec : MemCause → Nat
  | .mchk => 1
  | _ => 0

/-- A machine check that a hart's own read takes also sends a fault message (R364). -/
def State.mchkMessage (s : State) (f : MemFault) : State :=
  if f.cause = .mchk then
    s.sendFault
      { domain := s.hart.domain, kind := 1, code := 0x10, source := s.hart.csr.hartid.setWidth 32, object := 0,
        addr := f.addr, time := s.time }
  else s

/-- A scalar data access fault (R118, R351). -/
def State.trapMem (s : State) (f : MemFault) : State :=
  (s.mchkMessage f).trapP f.cause.code f.addr (mkTaux false f.cause.cspec 0 0)

/-- ILL on an encoding or a privilege, TVAL the encoding (R95). -/
def State.trapIll (s : State) (enc : Word) : State := s.trapP cILL enc 0

/-- The encoding of an instruction as TVAL reports it (R95). -/
def encWord (i : Instr) : Word := BitVec.ofNat 64 ((encode i).getD 0)

/-- The encoding of a VIQ entry as TVAL reports it (R95). -/
def heldWord (v : VInstr) : Word := BitVec.ofNat 64 (pack v.fields)

/-- WATCHHIT of a scalar instruction that has performed its whole effect (R373): `va` its lowest byte address, `kind`
1 read, 2 write, 3 both, `len` its length. -/
def State.watchScalar (s : State) (pc va : Word) (kind len : Nat) : State :=
  s.takeTrap { code := cWATCHHIT, cls := .scalar, tval := va, taux := mkTaux false (kind + len * 16) 0 0 } pc

/-- The vector unit still has work: element groups or an MROW to issue, or an entry. A drain point waits for it, and
counts frozen entries as settled (R11, R354). -/
def Hart.viqReady (h : Hart) : Bool := decide (0 < h.groups) || !h.tiles.isEmpty || (!h.viq.isEmpty && !h.frozen)

/-- The hart waits at its instruction; the cycles of its wait count an event, if it is not 0 (Table 17-3). -/
def State.stallOn (s : State) (ev : Nat) : State := { s with hart := { s.hart with run := .stalled, waitEv := ev } }

/-- The hart waits at its instruction. -/
def State.stall (s : State) : State := s.stallOn 0

/-! ### Returning from an exception (R135, R356) -/

/-- STATUS after ERET (R135). -/
def Status.leave (st : Status) : Status := { st with priv := st.ppriv, ie := st.pie, ppriv := false, pie := true }

/-- Likewise behind the newest of some requests of the tile queues. -/
def thenTiles (ts : List TileReq) (vt : BitVec 9) : List TileReq :=
  match ts.getLast? with
  | some q => ts.dropLast ++ [{ q with entry := { q.entry with thenVtype := some vt } }]
  | none => []

/-- The register changes of ERET (R135): PC, STATUS, VTYPE from the trap copy when the new privilege is U (R51), and the
strip record. The VTYPE write takes its place behind what the vector unit still holds: the entries of the VIQ that thaw
(R356), or the requests of the tile queues. -/
def Hart.leaveTrap (h : Hart) : Hart :=
  let toU := !h.csr.status.ppriv
  let h1 : Hart := { h with
    pc := h.csr.epc
    strip := { h.strip with valid := false }
    frozen := false
    csr := { h.csr with status := h.csr.status.leave } }
  if !toU then h1
  else if !h.viq.isEmpty then
    { h1 with viq := thenTail h.viq (tailOf (h.tiles.map (·.entry)) h.csr.vtype) h.trapVtype }
  else if !h.tiles.isEmpty then { h1 with tiles := thenTiles h.tiles h.trapVtype }
  else { h1 with csr := { h1.csr with vtype := h.trapVtype } }

end Sys2Proof.Machine
end

