-- ==== Sys2Proof/Machine/Flags.lean ====
section
/-! DEFINITION. Flags: FFLAGS and IFLAGS, and the element indexes of FIRSTX and FIRSTXI (R31, R47, R115, Table 01-4).
A set of raised flags is one number; its low seven bits are those of FFLAGS and bits 7 to 9 those of IFLAGS. -/

namespace Sys2Proof.Machine

/-- Inexact. -/
def fNX : Nat := 1
/-- Underflow. -/
def fUF : Nat := 2
/-- Overflow. -/
def fOF : Nat := 4
/-- Division by zero. -/
def fDZ : Nat := 8
/-- Invalid operation. -/
def fNV : Nat := 16
/-- MROW truncated A bits beyond its planes. -/
def fPLANE : Nat := 32
/-- JGRAD met a pruned arm. -/
def fPRUNEZ : Nat := 64
/-- Integer division by zero. -/
def fIDZ : Nat := 128
/-- Most negative integer divided by −1. -/
def fIOV : Nat := 256
/-- Integer saturation. -/
def fSAT : Nat := 512

/-- The control registers with flags set; no field of FIRSTX or FIRSTXI changes (R31). -/
def Csr.raise (c : Csr) (bits : Nat) : Csr :=
  { c with fflags := c.fflags ||| BitVec.ofNat 7 bits, iflags := c.iflags ||| BitVec.ofNat 3 (bits / 128) }

/-- A scalar instruction sets flags (R21, R31). -/
def State.raise (s : State) (bits : Nat) : State := s.onCsr (·.raise bits)

/-- Flags raised by the elements of one vector instruction: (element index, flags). -/
abbrev Raised := List (Nat × Nat)

/-- The lowest element that raised a flag. -/
def firstRaised (r : Raised) (bit : Nat) : Option Nat :=
  r.foldl (fun best (i, b) =>
    if b &&& bit = 0 then best
    else match best with
      | none => some i
      | some j => some (min i j)) none

/-- A 12-bit field of FIRSTX or FIRSTXI after an instruction that started at element `vstart` (R31). -/
def firstField (old vstart : Nat) : Option Nat → Nat
  | none => old
  | some i => if vstart = 0 || old = 0xFFF || vstart ≤ old then i else old

/-- A register of 12-bit fields with the fields of the given flags, lowest first, written. -/
def firstWrite (x vstart : Nat) (r : Raised) : List Nat → Nat
  | [] => 0
  | bit :: bits => firstField (x % 4096) vstart (firstRaised r bit) + 4096 * firstWrite (x / 4096) vstart r bits

/-- All flags of a list. -/
def allRaised (r : Raised) : Nat := r.foldl (fun a p => a ||| p.2) 0

/-- The control registers after a vector instruction that started at `vstart` and raised flags by element (R31). -/
def Csr.raiseElems (c : Csr) (vstart : Nat) (r : Raised) : Csr :=
  if r.isEmpty then c
  else
    let c1 := c.raise (allRaised r)
    { c1 with
      firstx := BitVec.ofNat 60 (firstWrite c.firstx.toNat vstart r [fNX, fUF, fOF, fDZ, fNV])
      firstxi := BitVec.ofNat 48 (firstWrite c.firstxi.toNat vstart r [fIDZ, fIOV, fSAT, fPRUNEZ]) }

end Sys2Proof.Machine
end

