-- ==== Sys2Proof/Machine/Ballast.lean ====
section
/-! DEFINITION. The Gimbal's part in a hart's issue: ballast (R346), the caps on issue (R344, R345, R347) and the rise
and fall that ramp slots can take (R344). -/

namespace Sys2Proof.Machine

/-- Cycles of a ramp slot (R344). -/
def slotCycles : Nat := 1400

/-- The ramp slot of the present cycle. -/
def State.slotNow (s : State) : Nat := s.time / slotCycles

/-- CAP in eighths of a watt: 2 · LIMIT watts (R344). -/
def State.capEighths (s : State) : Nat := 16 * s.helm.limit.toNat

/-- A quotient rounded up. -/
def ceilDiv (a b : Nat) : Nat := (a + b - 1) / b

/-- The part of a gang's step that one hart has, in eighths of a watt (R346). The steps are counted with a resolution
of one eighth, so the quotient is rounded up. -/
def State.hartPart (s : State) (h : Hart) : Nat :=
  match s.gang? h.gang with
  | some g => ceilDiv g.step (max 1 g.h)
  | none => 4

/-- Rise is reserved in a slot when the slot has room for it. -/
def State.takeRise (s : State) (k x : Nat) : Option State :=
  let used := mapGet 0 s.helm.rise k
  if used + x ≤ s.capEighths then some { s with helm := { s.helm with rise := mapSet 0 s.helm.rise k (used + x) } }
  else none

/-- Likewise for fall. -/
def State.takeFall (s : State) (k x : Nat) : Option State :=
  let used := mapGet 0 s.helm.fall k
  if used + x ≤ s.capEighths then some { s with helm := { s.helm with fall := mapSet 0 s.helm.fall k (used + x) } }
  else none

/-! ### Duty (R346) -/

/-- Number of 1 bits among the low `n` bits. -/
def popCount (x : Nat) : Nat → Nat
  | 0 => 0
  | n + 1 => x % 2 + popCount (x / 2) n

/-- Eighths, rounded up, of the last 1,024 slots that a usage record marks. -/
def dutyOf (used : BitVec 1024) : Nat := ceilDiv (popCount used.toNat 1024 * 8) 1024

/-- The slot of a hart on its core. -/
def slotOf (hartid : BitVec 12) : Nat := hartid.toNat % 8

/-- The state with a hart changed by its HARTID, wherever it stands. -/
def State.onPlaced (s : State) (id : BitVec 12) (f : Hart → Hart) : State :=
  let g (h : Hart) : Hart := if h.run ≠ .vacant ∧ h.csr.hartid = id then f h else h
  { s with hart := g s.hart, others := s.others.map g }

/-- Slots of ballast that `t` cycles at a duty issue. -/
def ballastSlots (t duty : Nat) : Nat := t * duty / 8

/-- `n` ballast slots of a core's hart slot are counted (R346, R348): BALLASTCYC, and while the hart is placed its
strip, and BALLAST of the hart for those in its lanes. -/
def State.countBallast (s : State) (core : Nat) (b : Ballast) (n : Nat) : State :=
  let c := s.coreSt core
  let s1 := s.setCore core { c with ballastcyc := c.ballastcyc + BitVec.ofNat 64 n }
  if b.live then
    s1.onPlaced (BitVec.ofNat 12 (core * 8 + b.slot)) fun h =>
      { h.onStrip fun o => { o with ballast := o.ballast + n } with
        csr := if b.ste then h.csr else h.csr.count evBallast n }
  else s1

/-- Cycles between taper steps (R346). -/
def taperCycles (b : Ballast) : Nat := slotCycles / max 1 b.duty0

/-- Slots that a ballast has issued at its present duty since that began, up to the end of a taper step (R346). -/
def Ballast.issued (b : Ballast) (now : Nat) : Nat :=
  let t := now - b.stepAt
  ballastSlots (if b.tapering then min t (taperCycles b) else t) b.duty

/-- Ballast of one core, changed one by one. -/
def mapBallast (f : State → Nat → Ballast → State × Ballast) (core : Nat) : List Ballast → State → State × List Ballast
  | [], s => (s, [])
  | b :: bs, s =>
    let (s1, b1) := f s core b
    let (s2, r) := mapBallast f core bs s1
    (s2, b1 :: r)

/-- Ballast of one core, with the core's record updated. -/
def State.eachBallast (s : State) (core : Nat) (f : State → Nat → Ballast → State × Ballast) : State :=
  let (s1, bs) := mapBallast f core (s.coreSt core).ballast s
  s1.setCore core { s1.coreSt core with ballast := bs }

/-- The slots that a ballast has issued and that are not yet counted are counted (R346, R348). -/
def countIssued (s : State) (core : Nat) (b : Ballast) : State × Ballast :=
  let n := b.issued s.time
  (s.countBallast core b (n - b.counted), { b with counted := n })

/-- A ballast fills the share of a hart slot: of the hart that is placed there, or of one that has left it. -/
def Ballast.isFor (b : Ballast) (slot : Nat) (live : Bool) : Bool := b.slot == slot && b.live == live

/-- The fall that the taper of a hart's ballast takes: the hart's part scaled by its duty in the lanes (R346). -/
def taperFall (bs : List Ballast) (slot : Nat) (live : Bool) : Nat :=
  ((bs.filter fun b => b.isFor slot live && !b.ste && !b.tapering).map fun b => ceilDiv (b.part * b.duty) 8).sum

/-- The taper of a hart's ballast begins when the present ramp slot has fall for it: in the lanes and in the STE
together (R346). -/
def State.beginTaper (core : Nat) (s : State) (slot : Nat) (live : Bool) : State :=
  let bs := (s.coreSt core).ballast
  if bs.any fun b => b.isFor slot live && !b.tapering then
    match s.takeFall s.slotNow (taperFall bs slot live) with
    | none => s
    | some t => t.eachBallast core fun u core b =>
      if b.isFor slot live && !b.tapering then
        let x := countIssued u core b
        (x.1, { x.2 with tapering := true, stepAt := u.time, counted := 0 })
      else (u, b)
  else s

/-- Tapers begin on a core, hart slot by hart slot. -/
def State.beginTapers (s : State) (core : Nat) : State :=
  (List.range 8).foldl (fun t k => (t.beginTaper core k true).beginTaper core k false) s

/-- The hart's share begins to be filled with ballast at its measured duties; at the start of a slot the taper may begin
at once. Ballast that a hart which has left the slot still runs goes on. -/
def State.startBallast (s : State) : State :=
  let h := s.hart
  let core := coreOf h.csr.hartid
  let slot := slotOf h.csr.hartid
  let c := s.coreSt core
  let one (ste : Bool) (d : Nat) : Ballast :=
    { slot := slot, partition := h.partition, ste := ste, duty0 := d, duty := d, tapering := false, stepAt := s.time,
      counted := 0, part := s.hartPart h, live := true }
  let e := dutyOf h.usedSte
  let kept := c.ballast.filter fun b => !b.isFor slot true
  let s1 := s.setCore core { c with
    ballast := kept ++ one false (dutyOf h.used) :: (if e = 0 then [] else [one true e]) }
  if s.time % slotCycles = 0 then s1.beginTaper core slot true else s1

/-- The ballast of a core that meets a condition ends, counted up to now. -/
def State.dropBallast (s : State) (core : Nat) (p : Ballast → Bool) : State :=
  let s1 := s.eachBallast core countIssued
  let c := s1.coreSt core
  s1.setCore core { c with ballast := c.ballast.filter fun b => !p b }

/-- The ballast of the hart placed in a slot ends. -/
def State.endBallast (s : State) (core slot : Nat) : State := s.dropBallast core (·.isFor slot true)

/-- The lane duty of the ballast of the hart placed in a slot, none when it has none. -/
def State.ballastDuty (s : State) (core slot : Nat) : Option Nat :=
  ((s.coreSt core).ballast.find? fun b => b.isFor slot true && !b.ste).map (·.duty)

/-- A taper step of a ballast is due. -/
def Ballast.stepDue (b : Ballast) (now : Nat) : Bool :=
  b.tapering && decide (0 < b.duty) && decide (b.stepAt + taperCycles b ≤ now)

/-- One taper step of a ballast, when it is due. -/
def taperStep (s : State) (core : Nat) (b : Ballast) : State × Ballast :=
  if b.stepDue s.time then
    let x := countIssued s core b
    countIssued x.1 core { x.2 with duty := b.duty - 1, stepAt := b.stepAt + taperCycles b, counted := 0 }
  else (s, b)

/-- The cores that have a record. -/
def State.knownCores (s : State) : List Nat := s.cores.map (·.1)

/-- Every ballast whose interval has passed falls by one eighth (R346). -/
def State.taperAll (s : State) : State := s.knownCores.foldl (fun t c => t.eachBallast c taperStep) s

/-- The ballast of every core is counted up to now (R346, R348). -/
def State.countAllBallast (s : State) : State :=
  (s.cores.filter fun p => !p.2.ballast.isEmpty).foldl (fun t p => t.eachBallast p.1 countIssued) s

/-- BALLAST_TAPER_STEP (R346). -/
def execBallastTaperStep (s : State) : Out := .next s.taperAll

/-- A taper step is due. -/
def State.taperDue (s : State) : Bool := s.cores.any fun p => p.2.ballast.any (·.stepDue s.time)

/-! ### Caps on issue (R344, R345, R347) -/

/-- Cap(i/n) of a gang whose step is spread over slots (R344). -/
def splitCap (i n : Nat) : Nat := if n ≤ i then 8 else max 1 (8 * i / n)

/-- The issue cap of a hart, in eighths: the least of the gang's start cap, its throttle cap and the hart's release
cap. -/
def State.issueCap (s : State) (h : Hart) : Nat :=
  match s.gang? h.gang with
  | some g => min h.relCap (min g.cap (splitCap (s.slotNow - g.slot + 1) g.nslots))
  | none => h.relCap

/-- The cap of a hart is exhausted in the current aligned window of 8 cycles (R336, R345). -/
def State.capped (s : State) (h : Hart) : Bool :=
  decide (s.issueCap h < 8) && decide (s.issueCap h ≤ popCount (h.used.toNat % 2 ^ (s.time % 8 + 1)) 8)

/-- The cap of a hart is exhausted for STE grants, counted in the cycles in which it is granted an MROW (R345, log entry
23). -/
def State.cappedSte (s : State) (h : Hart) : Bool :=
  decide (s.issueCap h < 8) && decide (s.issueCap h ≤ popCount (h.granted.toNat % 2 ^ (s.time % 8 + 1)) 8)

/-- A hart's release cap rises by one eighth, 175 cycles after its last rise, when the slot takes the rise; a rise that
had to wait counts the next 175 cycles from itself (R347). -/
def State.releaseCap (s : State) (h : Hart) : State :=
  if h.run == .vacant || decide (8 ≤ h.relCap) || decide (s.time < h.relAt + 175) then s
  else match s.takeRise s.slotNow (ceilDiv (s.hartPart h) 8) with
    | some t => t.onPlaced h.csr.hartid fun h => { h with relCap := h.relCap + 1, relAt := s.time }
    | none => s

/-- RELEASE_CAP_STEP of the hart whose turn it is (R347). -/
def execReleaseCapStep (s : State) : Out := .next (s.releaseCap s.hart)

/-- A gang takes part in throttling: one of its harts is placed. -/
def State.gangLive (s : State) (g : Gang) : Bool := (s.hart :: s.others).any fun h => h.gang == g.id && h.run != .vacant

/-- One throttle step over gangs (R345): `low` lowers the gangs of the lowest PRIO above 1/8, else raises those of the
highest PRIO below 8/8. -/
def throttle (low : Bool) (s : State) : State :=
  let part (g : Gang) : Bool := s.gangLive g && (if low then decide (1 < g.cap) else decide (g.cap < 8))
  let prios := (s.helm.gangs.filter part).map (·.prio)
  let pick := (if low then prios.min? else prios.max?).getD 0
  let turn (g : Gang) : Gang :=
    if part g && g.prio == pick then { g with cap := if low then g.cap - 1 else g.cap + 1 } else g
  { s with helm := { s.helm with gangs := s.helm.gangs.map turn } }

/-- A step of the caps, at most one in 175 cycles (R345): they fall in the cases that R345 and R400 name and rise
otherwise. -/
def State.capStep (s : State) (lower : Bool) : State :=
  if s.time < s.helm.capAt + 175 then s
  else throttle lower { s with helm := { s.helm with capAt := s.time } }

/-- The readings of module power of the last microsecond, newest first (R345). -/
def HelmSt.recent (h : HelmSt) (now : Nat) : List (Nat × BitVec 16) := h.powers.filter fun p => decide (now ≤ p.1 + 700)

/-- Module power has risen by more than LIMIT within the last microsecond (R345). -/
def HelmSt.rises (h : HelmSt) (now : Nat) (pwr : BitVec 16) : Bool :=
  (h.recent now).any fun p => decide (p.2.toNat + h.limit.toNat < pwr.toNat)

/-- GIMBAL_CAP_STEP (R345, R400): with a reading of module power, caps fall while power exceeds 2,600 W, has risen by
more than LIMIT within a microsecond, or while a die stands at 105 °C; they rise otherwise. -/
def execGimbalCapStep (pwr : BitVec 16) (s : State) : Out :=
  let h := s.helm
  let lower := decide (2600 < pwr.toNat) || h.rises s.time pwr || s.hotDies != 0
  .next ({ s with helm := { h with power := pwr, powers := (s.time, pwr) :: h.recent s.time } }.capStep lower)

/-- THERMAL_THROTTLE (R400): while a die stands at 105 °C or above, the Gimbal lowers caps as for excess power. -/
def execThermalThrottle (s : State) : Out := .next (if s.hotDies = 0 then s else s.capStep true)

end Sys2Proof.Machine
end

