-- ==== Sys2Proof/Machine/Scalar.lean ====
section
/-! DEFINITION. Scalar integer instructions, loads and stores, branches, jumps and the return stack (R113 to R125),
and their compressed forms (R92 to R94). -/

namespace Sys2Proof.Machine

/-! ### Integer arithmetic (R114 to R117) -/

/-- A result written to g[d], then the next instruction after `len` bytes. -/
def writeNext (len : Nat) (d : Reg) (x : Word) (s : State) : Out := .next ((s.setG d x).advance len)

/-- `op gd, ga, gb` for a function of two words (R114). -/
def alu3 (f : Word → Word → Word) (o : R3) (s : State) : Out := writeNext 4 o.d (f (s.getG o.a) (s.getG o.b)) s

/-- `op gd, ga` for a function of one word (R114). -/
def alu2 (f : Word → Word) (o : R2) (s : State) : Out := writeNext 4 o.d (f (s.getG o.a)) s

/-- `op gd, ga, imm` with the sign-extended immediate (R116). -/
def aluImm (f : Word → Word → Word) (o : IOp) (s : State) : Out :=
  writeNext 4 o.d (f (s.getG o.a) (o.imm.signExtend 64)) s

/-- Shift by an immediate amount (R116). -/
def aluShift (f : Word → Nat → Word) (o : ShOp) (s : State) : Out := writeNext 4 o.d (f (s.getG o.a) o.sh.toNat) s

/-- A truth value as a word. -/
def boolWord (b : Bool) : Word := if b then 1 else 0

/-- Shift amounts are g[b][5:0] (R114). -/
def shamt (b : Word) : Nat := b.toNat % 64

/-- Leading zeros among the low `n` bits. -/
def leadingZeros (x : Word) : Nat → Nat
  | 0 => 0
  | n + 1 => if x.getLsbD n then 0 else 1 + leadingZeros x n

/-- Trailing zeros from bit `i` up, `n` bits left. -/
def trailingZeros (x : Word) (i : Nat) : Nat → Nat
  | 0 => 0
  | n + 1 => if x.getLsbD i then 0 else 1 + trailingZeros x (i + 1) n

/-- The 8 bytes of a word in reverse order. -/
def byteSwap (x : Word) : Word := BitVec.ofNat 64 (leNat (leBytes 8 x.toNat).reverse)

/-- Product of two signed words, its high 64 bits (Table 05-1). -/
def mulHigh (a b : Word) : Word := BitVec.ofInt 64 (a.toInt * b.toInt / 2 ^ 64)

/-- Product of two unsigned words, its high 64 bits (Table 05-1). -/
def mulHighU (a b : Word) : Word := BitVec.ofNat 64 (a.toNat * b.toNat / 2 ^ 64)

/-- The most negative word. -/
def minWord : Word := 0x8000000000000000

/-- DIV: quotient toward zero and flags (R115). -/
def divSigned (a b : Word) : Word × Nat :=
  if b = 0 then (BitVec.allOnes 64, fIDZ)
  else if a = minWord ∧ b = BitVec.allOnes 64 then (minWord, fIOV)
  else (BitVec.ofInt 64 (a.toInt.tdiv b.toInt), 0)

/-- DIVU (R115). -/
def divUnsigned (a b : Word) : Word × Nat :=
  if b = 0 then (BitVec.allOnes 64, fIDZ) else (BitVec.ofNat 64 (a.toNat / b.toNat), 0)

/-- REM: the sign of the dividend (R115). -/
def remSigned (a b : Word) : Word × Nat :=
  if b = 0 then (a, fIDZ)
  else if a = minWord ∧ b = BitVec.allOnes 64 then (0, fIOV)
  else (BitVec.ofInt 64 (a.toInt.tmod b.toInt), 0)

/-- REMU (R115). -/
def remUnsigned (a b : Word) : Word × Nat :=
  if b = 0 then (a, fIDZ) else (BitVec.ofNat 64 (a.toNat % b.toNat), 0)

/-- A division: its result and its IFLAGS (R115). -/
def aluDiv (f : Word → Word → Word × Nat) (o : R3) (s : State) : Out :=
  let r := f (s.getG o.a) (s.getG o.b)
  writeNext 4 o.d r.1 (s.raise r.2)

/-- Sign extension of a word's low bits (R113). -/
def extSigned (z : ExtSize) (x : Word) : Word :=
  match z with
  | .b8 => (x.setWidth 8).signExtend 64
  | .b16 => (x.setWidth 16).signExtend 64
  | .b32 => (x.setWidth 32).signExtend 64

/-- Zero extension of a word's low bits (R113). -/
def extZero (z : ExtSize) (x : Word) : Word :=
  match z with
  | .b8 => (x.setWidth 8).setWidth 64
  | .b16 => (x.setWidth 16).setWidth 64
  | .b32 => (x.setWidth 32).setWidth 64

/-- ADD (R114). -/
def execAdd (o : R3) (s : State) : Out := alu3 (fun a b => a + b) o s
/-- SUB (R114). -/
def execSub (o : R3) (s : State) : Out := alu3 (fun a b => a - b) o s
/-- AND (R114). -/
def execAnd (o : R3) (s : State) : Out := alu3 (fun a b => a &&& b) o s
/-- OR (R114). -/
def execOr (o : R3) (s : State) : Out := alu3 (fun a b => a ||| b) o s
/-- XOR (R114). -/
def execXor (o : R3) (s : State) : Out := alu3 (fun a b => a ^^^ b) o s
/-- ANDN (R114). -/
def execAndn (o : R3) (s : State) : Out := alu3 (fun a b => a &&& ~~~b) o s
/-- SLL (R114). -/
def execSll (o : R3) (s : State) : Out := alu3 (fun a b => a <<< shamt b) o s
/-- SRL (R114). -/
def execSrl (o : R3) (s : State) : Out := alu3 (fun a b => a >>> shamt b) o s
/-- SRA (R114). -/
def execSra (o : R3) (s : State) : Out := alu3 (fun a b => a.sshiftRight (shamt b)) o s
/-- ROL (R114). -/
def execRol (o : R3) (s : State) : Out := alu3 (fun a b => a.rotateLeft (shamt b)) o s
/-- SLT (R114). -/
def execSlt (o : R3) (s : State) : Out := alu3 (fun a b => boolWord (a.slt b)) o s
/-- SLTU (R114). -/
def execSltu (o : R3) (s : State) : Out := alu3 (fun a b => boolWord (a.ult b)) o s
/-- MIN (R114). -/
def execMin (o : R3) (s : State) : Out := alu3 (fun a b => if a.slt b then a else b) o s
/-- MAX (R114). -/
def execMax (o : R3) (s : State) : Out := alu3 (fun a b => if a.slt b then b else a) o s
/-- MINU (R114). -/
def execMinu (o : R3) (s : State) : Out := alu3 (fun a b => if a.ult b then a else b) o s
/-- MAXU (R114). -/
def execMaxu (o : R3) (s : State) : Out := alu3 (fun a b => if a.ult b then b else a) o s
/-- MUL (R114). -/
def execMul (o : R3) (s : State) : Out := alu3 (fun a b => a * b) o s
/-- MULH (R114). -/
def execMulh (o : R3) (s : State) : Out := alu3 mulHigh o s
/-- MULHU (R114). -/
def execMulhu (o : R3) (s : State) : Out := alu3 mulHighU o s
/-- DIV (R115). -/
def execDiv (o : R3) (s : State) : Out := aluDiv divSigned o s
/-- DIVU (R115). -/
def execDivu (o : R3) (s : State) : Out := aluDiv divUnsigned o s
/-- REM (R115). -/
def execRem (o : R3) (s : State) : Out := aluDiv remSigned o s
/-- REMU (R115). -/
def execRemu (o : R3) (s : State) : Out := aluDiv remUnsigned o s
/-- CLZ (R114). -/
def execClz (o : R2) (s : State) : Out := alu2 (fun a => BitVec.ofNat 64 (leadingZeros a 64)) o s
/-- CTZ (R114). -/
def execCtz (o : R2) (s : State) : Out := alu2 (fun a => BitVec.ofNat 64 (trailingZeros a 0 64)) o s
/-- POPC (R114). -/
def execPopc (o : R2) (s : State) : Out := alu2 (fun a => BitVec.ofNat 64 (popCount a.toNat 64)) o s
/-- BSWAP (R114). -/
def execBswap (o : R2) (s : State) : Out := alu2 byteSwap o s
/-- SEXT (R77, R114). -/
def execSext (o : ExtOp) (s : State) : Out := writeNext 4 o.d (extSigned o.sz (s.getG o.a)) s
/-- ZEXT (R77, R114). -/
def execZext (o : ExtOp) (s : State) : Out := writeNext 4 o.d (extZero o.sz (s.getG o.a)) s
/-- SEL (R114). -/
def execSel (o : SelOp) (s : State) : Out :=
  writeNext 4 o.d (if s.getG o.x ≠ 0 then s.getG o.a else s.getG o.b) s
/-- ADDI (R116). -/
def execAddi (o : IOp) (s : State) : Out := aluImm (fun a b => a + b) o s
/-- ANDI (R116). -/
def execAndi (o : IOp) (s : State) : Out := aluImm (fun a b => a &&& b) o s
/-- ORI (R116). -/
def execOri (o : IOp) (s : State) : Out := aluImm (fun a b => a ||| b) o s
/-- XORI (R116). -/
def execXori (o : IOp) (s : State) : Out := aluImm (fun a b => a ^^^ b) o s
/-- SLTI (R116). -/
def execSlti (o : IOp) (s : State) : Out := aluImm (fun a b => boolWord (a.slt b)) o s
/-- SLLI (R116). -/
def execSlli (o : ShOp) (s : State) : Out := aluShift (fun a n => a <<< n) o s
/-- SRLI (R116). -/
def execSrli (o : ShOp) (s : State) : Out := aluShift (fun a n => a >>> n) o s
/-- SRAI (R116). -/
def execSrai (o : ShOp) (s : State) : Out := aluShift (fun a n => a.sshiftRight n) o s

/-- imm20 · 2^12 as a signed 32-bit value (R117). -/
def upperImm (imm : BitVec 20) : Word := (imm ++ (0 : BitVec 12)).signExtend 64

/-- LIH (R117). -/
def execLih (o : UOp) (s : State) : Out := writeNext 4 o.d (upperImm o.imm) s
/-- ADDPC (R117). -/
def execAddpc (o : UOp) (s : State) : Out := writeNext 4 o.d (s.hart.pc + upperImm o.imm) s

/-! ### Loads and stores (R118, R119) -/

/-- The effective address g[a] + SignExt(off) (R118). -/
def State.ea (s : State) (a : Reg) (off : BitVec 12) : Word := s.getG a + off.signExtend 64

/-- A watch hit counts only in U (R372). -/
def watchCounts (s : State) (hit : Bool) : Bool := hit && !s.hart.csr.status.priv

/-- The state after a scalar access that performed, with WATCHHIT taken when it hit a watch bit (R373); `s` is the state
before the instruction. -/
def finishAccess (s s1 : State) (hit : Bool) (va : Word) (kind len : Nat) : Out :=
  if watchCounts s hit then .next (s1.watchScalar s.hart.pc va kind len) else .next s1

/-- A scalar load of `n` bytes at an address (R118, R119). -/
def scalarLoad (len n : Nat) (ext : Nat → Word) (d : Reg) (va : Word) (s : State) : Out :=
  match loadAt s s.hart.agent (if n = 8 then .plain8 else .scalar) va n with
  | .fault f u => .next (u.trapMem f)
  | .wait => .next s.stall
  | .ok r => finishAccess s ((r.st.setG d (ext (leNat r.data))).advance len) r.hit va 1 len

/-- A scalar store of the low `n` bytes of a word (R118, R119), which may wait in the hart's scalar path (R295). -/
def scalarStore (len n : Nat) (x va : Word) (s : State) : Out :=
  match storeLater s s.hart.agent (if n = 8 then .plain8 else .scalar) false va (leBytes n x.toNat) with
  | .fault f u => .next (u.trapMem f)
  | .wait => .next s.stall
  | .ok r => finishAccess s (r.st.advance len) r.hit va 2 len

/-- LB (R119). -/
def execLb (o : MOp) (s : State) : Out := scalarLoad 4 1 (signExt64 8) o.d (s.ea o.a o.off) s
/-- LH (R119). -/
def execLh (o : MOp) (s : State) : Out := scalarLoad 4 2 (signExt64 16) o.d (s.ea o.a o.off) s
/-- LW (R119). -/
def execLw (o : MOp) (s : State) : Out := scalarLoad 4 4 (signExt64 32) o.d (s.ea o.a o.off) s
/-- LD (R119). -/
def execLd (o : MOp) (s : State) : Out := scalarLoad 4 8 (BitVec.ofNat 64) o.d (s.ea o.a o.off) s
/-- LBU (R119). -/
def execLbu (o : MOp) (s : State) : Out := scalarLoad 4 1 (BitVec.ofNat 64) o.d (s.ea o.a o.off) s
/-- LHU (R119). -/
def execLhu (o : MOp) (s : State) : Out := scalarLoad 4 2 (BitVec.ofNat 64) o.d (s.ea o.a o.off) s
/-- LWU (R119). -/
def execLwu (o : MOp) (s : State) : Out := scalarLoad 4 4 (BitVec.ofNat 64) o.d (s.ea o.a o.off) s
/-- SB (R119). -/
def execSb (o : MOp) (s : State) : Out := scalarStore 4 1 (s.getG o.d) (s.ea o.a o.off) s
/-- SH (R119). -/
def execSh (o : MOp) (s : State) : Out := scalarStore 4 2 (s.getG o.d) (s.ea o.a o.off) s
/-- SW (R119). -/
def execSw (o : MOp) (s : State) : Out := scalarStore 4 4 (s.getG o.d) (s.ea o.a o.off) s
/-- SD (R119). -/
def execSd (o : MOp) (s : State) : Out := scalarStore 4 8 (s.getG o.d) (s.ea o.a o.off) s

/-! ### Branches and jumps (R120 to R122) -/

/-- A target of `off` halfwords from the instruction's address (R71). -/
def State.relTarget (s : State) {n : Nat} (off : BitVec n) : Word := s.hart.pc + off.signExtend 64 * 2

/-- A compare branch (R120). -/
def branch (len : Nat) {n : Nat} (off : BitVec n) (taken : Bool) (s : State) : Out :=
  if taken then .next (s.setPc (s.relTarget off)) else .next (s.advance len)

/-- BEQ (R120). -/
def execBeq (o : BOp) (s : State) : Out := branch 4 o.off (s.getG o.a == s.getG o.b) s
/-- BNE (R120). -/
def execBne (o : BOp) (s : State) : Out := branch 4 o.off (s.getG o.a != s.getG o.b) s
/-- BLT (R120). -/
def execBlt (o : BOp) (s : State) : Out := branch 4 o.off ((s.getG o.a).slt (s.getG o.b)) s
/-- BGE (R120). -/
def execBge (o : BOp) (s : State) : Out := branch 4 o.off (!(s.getG o.a).slt (s.getG o.b)) s
/-- BLTU (R120). -/
def execBltu (o : BOp) (s : State) : Out := branch 4 o.off ((s.getG o.a).ult (s.getG o.b)) s
/-- BGEU (R120). -/
def execBgeu (o : BOp) (s : State) : Out := branch 4 o.off (!(s.getG o.a).ult (s.getG o.b)) s

/-- BSTRIP (R121). NOPROG reads VL as at a drain point, so it waits for earlier vector instructions. -/
def execBstrip (o : BsOp) (s : State) : Out :=
  let v := s.getG o.a
  let r := s.hart.strip
  if v = 0 then .next ((s.onHart fun h => { h with strip := { r with valid := false } }).advance 4)
  else if r.valid && r.pc == s.hart.pc && !v.ult r.value then
    if s.hart.viqReady then .next s.stall
    else .next (s.trapP cNOPROG s.hart.pc (mkTaux false s.hart.csr.vl.toNat 0 0))
  else .next ((s.onHart fun h => { h with strip := { valid := true, pc := h.pc, value := v } }).setPc (s.relTarget o.off))

/-! ### Return stack (R15, R16, R124, R125) -/

/-- RASP as a 52-bit address. -/
def raspOf (s : State) : Nat := s.hart.csr.rasp.toNat

/-- Spills the oldest hardware entry, whose value is given (R15): it is written at RASP, RASP rises by 8 and SPILL by
1. -/
def spillOldest (s : State) (oldest : Word) : Acc State :=
  match storeLater s s.hart.agent .scalar false s.hart.csr.rasp (leBytes 8 oldest.toNat) with
  | .fault f u => .fault f u
  | .wait => .wait
  | .ok r => .ok (r.st.onHart fun h => { h with
      rstack := h.rstack.tail
      csr := { h.csr with rasp := (h.csr.rasp + 8) &&& 0xFFFFFFFFFFFF8, spill := h.csr.spill + 1 } })

/-- STACKLIM: the spill would take RASP past RASL (R16, R124). DESIGN CHOICE (log entry 38): RASP + 8 is compared
without a wrap at 2^52. -/
def spillBlocked (s : State) : Bool := decide (s.hart.csr.rasl.toNat < raspOf s + 8)

/-- A push of a return address (R124); `k` continues when the push is done. The hardware entries stand oldest first. -/
def push (s : State) (ret : Word) (k : State → Out) : Out :=
  let add (t : State) : State := t.onHart fun h => { h with rstack := h.rstack ++ [ret] }
  match s.hart.rstack with
  | oldest :: _ =>
    if s.hart.rstack.length < 16 then k (add s)
    else if spillBlocked s then .next (s.trapP cSTACKLIM s.hart.csr.rasp 0)
    else match spillOldest s oldest with
      | .fault f u => .next (u.trapMem f)
      | .wait => .next s.stall
      | .ok s1 => k (add s1)
  | [] => k (add s)

/-- A jump target with bit 0 cleared (R71). -/
def jumpTarget (x : Word) : Word := x &&& ~~~1#64

/-- A pop into PC (R125). -/
def popReturn (s : State) : Out :=
  match s.hart.rstack.getLast? with
  | some t => .next ((s.onHart fun h => { h with rstack := h.rstack.dropLast }).setPc (jumpTarget t))
  | none =>
    if s.hart.csr.spill = 0 then .next (s.trapP cRETEMPTY s.hart.pc 0)
    else
      let a := (s.hart.csr.rasp - 8) &&& 0xFFFFFFFFFFFF8
      match loadAt s s.hart.agent .scalar a 8 with
      | .fault f u => .next (u.trapMem f)
      | .wait => .next s.stall
      | .ok r =>
        .next ((r.st.onCsr fun c => { c with rasp := a, spill := c.spill - 1 }).setPc
          (jumpTarget (BitVec.ofNat 64 (leNat r.data))))

/-! ### Parking (R329) -/

/-- A pre-emption of the hart's gang is pending (R332). -/
def State.preempting (s : State) : Bool := ((s.gang? s.hart.gang).bind (·.preemptAt)).isSome

/-- A jump to its own address parks the hart: the front-end fetches nothing further (R329), and when the hart parks to
retire, ballast fills its share (R346). -/
def State.park (s : State) : State :=
  let s1 := s.setRun .parked
  if s.preempting then s1 else s1.startBallast

/-- J (R122, R329). -/
def execJ (off : BitVec 20) (s : State) : Out :=
  if off = 0 then .next s.park else .next (s.setPc (s.relTarget off))
/-- CALL (R122, R124). -/
def execCall (off : BitVec 20) (s : State) : Out :=
  push s (s.hart.pc + 4) fun t => .next (t.setPc (s.relTarget off))
/-- JI (R122). -/
def execJi (o : JiOp) (s : State) : Out := .next (s.setPc (jumpTarget (s.ea o.a o.imm)))
/-- CALLI (R122, R124). -/
def execCalli (o : JiOp) (s : State) : Out :=
  push s (s.hart.pc + 4) fun t => .next (t.setPc (jumpTarget (s.ea o.a o.imm)))
/-- RET (R125). -/
def execRet (s : State) : Out := popReturn s

/-- Spills every hardware entry, oldest first, for a flush (R16): none left, the state with STACKLIM, or a fault; `fuel`
bounds the entries. -/
inductive Flush where
  | done (s : State)
  | limit (s : State)
  | fault (s : State) (f : MemFault)
  | wait (s : State)

/-- R16. -/
def flushStack : Nat → State → Flush
  | 0, s => .done s
  | fuel + 1, s =>
    match s.hart.rstack with
    | [] => .done s
    | oldest :: _ =>
      if spillBlocked s then .limit s
      else match spillOldest s oldest with
        | .fault f u => .fault u f
        | .wait => .wait s
        | .ok s1 => flushStack fuel s1

/-! ### Compressed forms (R92, Table 03-7) -/

/-- C.ADDI: ADDI d, d, imm. -/
def execCAddi (o : CiOp) (s : State) : Out := writeNext 2 o.d (s.getG o.d + o.imm.signExtend 64) s
/-- C.LI: ADDI d, g0, imm. -/
def execCLi (o : CiOp) (s : State) : Out := writeNext 2 o.d (o.imm.signExtend 64) s
/-- C.MV: ADD d, g0, a. -/
def execCMv (o : R2) (s : State) : Out := writeNext 2 o.d (s.getG o.a) s
/-- C.ADD: ADD d, d, a. -/
def execCAdd (o : R2) (s : State) : Out := writeNext 2 o.d (s.getG o.d + s.getG o.a) s
/-- C.SUB: SUB d, d, a. -/
def execCSub (o : R2) (s : State) : Out := writeNext 2 o.d (s.getG o.d - s.getG o.a) s
/-- The offset of C.LD and C.SD in bytes. -/
def scaledOff (o : CiOp) : Word := o.imm.setWidth 64 * 8
/-- C.LD: LD d, off(g1). -/
def execCLd (o : CiOp) (s : State) : Out := scalarLoad 2 8 (BitVec.ofNat 64) o.d (s.getG 1 + scaledOff o) s
/-- C.SD: SD b, off(g1). -/
def execCSd (o : CiOp) (s : State) : Out := scalarStore 2 8 (s.getG o.d) (s.getG 1 + scaledOff o) s
/-- C.J: J off. -/
def execCJ (off : BitVec 10) (s : State) : Out :=
  if off = 0 then .next s.park else .next (s.setPc (s.relTarget off))
/-- C.BEQZ: BEQ a, g0, off. -/
def execCBeqz (o : CiOp) (s : State) : Out := branch 2 o.imm (s.getG o.d == 0) s
/-- C.BNEZ: BNE a, g0, off. -/
def execCBnez (o : CiOp) (s : State) : Out := branch 2 o.imm (s.getG o.d != 0) s
/-- C.RET: RET. -/
def execCRet (s : State) : Out := popReturn s
/-- C.NOP: ADDI g0, g0, 0. -/
def execCNop (s : State) : Out := .next (s.advance 2)
/-- C.VGAP holds the next vector issue back by n issue slots while STATUS.CD is 1 (R93). DESIGN CHOICE (log entry 47):
two of them before one issue add. -/
def execCVgap (n : BitVec 4) (s : State) : Out :=
  if s.hart.csr.status.cd then .next ((s.onHart fun h => { h with vgap := h.vgap + n.toNat }).advance 2)
  else .next (s.advance 2)
/-- C.TRAP0: TRAP 0, with its own length in CSPEC (R134). -/
def execCTrap0 (s : State) : Out := .next (s.trapP cSWTRAP 0 (mkTaux false 2 0 0))

end Sys2Proof.Machine
end

