-- ==== Sys2Proof/Machine/Atomics.lean ====
section
/-! DEFINITION. Scalar atomics, ordered loads and stores, work queues and tickets (R128 to R133). In one turn a member
reads and writes as one step, so it is indivisible at every scope; its order and scope decide which other agents it
synchronises with, and a release that writes wakes the monitors of its line (R137). -/

namespace Sys2Proof.Machine

/-- Width in bytes (R80). -/
def amoBytes (o : AmoOp) : Nat := if o.w32 then 4 else 8

/-- The order has a release part (R80). -/
def isRelease : Order → Bool
  | .rel | .ar => true
  | .rlx | .acq => false

/-- The alignment rule of the atomics: an address that is not a multiple of the size raises the access fault (R128). -/
def aligned (va : Word) (n : Nat) : Bool := va.toNat % n == 0

/-- Sign extension of an old memory value to g[d] (R128). -/
def amoResult (n x : Nat) : Word := signExt64 (8 * n) x

/-! ### Read-modify-writes on their way to a peer (R307, log entry 41) -/

/-- What a read-modify-write does next: it performs, and its outcome is received at once; it starts over a link; it
performs at the peer; or its outcome arrives. -/
inductive Trip where
  | now
  | send (link : Nat)
  | perform (link : Nat)
  | receive (old : Nat) (hit : Bool)

/-- While writes may wait, a read-modify-write of a peer's memory goes over its link, performs there, and receives its
outcome, each in a turn of its own. -/
def tripOf (s : State) (va : Word) : Trip :=
  match s.hart.run with
  | .peer _ (some old) hit => .receive old hit
  | .peer l none _ => if s.loose then .perform l else .now
  | _ => if s.loose then (match linkOver s s.hart.agent va with
      | some l => .send l
      | none => .now) else .now

/-- The hart waits for its read-modify-write. -/
def State.onTrip (s : State) (link : Nat) (old : Option Nat) (hit : Bool) : State := s.setRun (.peer link old hit)

/-- A hart that has received its outcome goes on. -/
def State.home (s : State) : State :=
  match s.hart.run with
  | .peer _ _ _ => s.setRun .running
  | _ => s

/-- A read-modify-write of g[a] (R128): `f` gives the new value of the old one, or none for no write. -/
def amo (o : AmoOp) (f : Nat → Option Nat) (s : State) : Out :=
  let va := s.getG o.a
  let n := amoBytes o
  let finish (t : State) (old : Nat) (hit : Bool) : Out :=
    finishAccess s ((t.home.setG o.d (amoResult n old)).advance 4) hit va 3 4
  if !aligned va n then .next (s.trapMem { cause := .access, addr := va })
  else match tripOf s va with
    | .receive old hit => finish s old hit
    | .send l => .next (s.onTrip l none false)
    | trip =>
      match rmwAt s s.hart.agent .atomic va n f with
      | .fault e u => .next (u.trapMem e)
      | .wait => .next s.stall
      | .ok r =>
        let s1 := if isRelease o.ord && (f (leNat r.data)).isSome then r.st.releaseTargets r.targets else r.st
        match trip with
        | .perform l => .next (s1.onTrip l (some (leNat r.data)) r.hit)
        | _ => finish s1 (leNat r.data) r.hit

/-- The low bits of a register at the operation's width. -/
def amoArg (n : Nat) (x : Word) : Nat := x.toNat % 2 ^ (8 * n)

/-- A read-modify-write whose new value is a function of the old value and g[b] at the width (R129). -/
def amoOp2 (f : (w : Nat) → BitVec w → BitVec w → BitVec w) (o : AmoOp) (s : State) : Out :=
  let w := 8 * amoBytes o
  amo o (fun old => some (f w (BitVec.ofNat w old) (BitVec.ofNat w (s.getG o.b).toNat)).toNat) s

/-- AMOADD (R129). -/
def execAmoadd (o : AmoOp) (s : State) : Out := amoOp2 (fun _ a b => a + b) o s
/-- AMOAND (R129). -/
def execAmoand (o : AmoOp) (s : State) : Out := amoOp2 (fun _ a b => a &&& b) o s
/-- AMOOR (R129). -/
def execAmoor (o : AmoOp) (s : State) : Out := amoOp2 (fun _ a b => a ||| b) o s
/-- AMOXOR (R129). -/
def execAmoxor (o : AmoOp) (s : State) : Out := amoOp2 (fun _ a b => a ^^^ b) o s
/-- AMOMIN (R129). -/
def execAmomin (o : AmoOp) (s : State) : Out := amoOp2 (fun _ a b => if a.slt b then a else b) o s
/-- AMOMAX (R129). -/
def execAmomax (o : AmoOp) (s : State) : Out := amoOp2 (fun _ a b => if a.slt b then b else a) o s
/-- AMOMINU (R129). -/
def execAmominu (o : AmoOp) (s : State) : Out := amoOp2 (fun _ a b => if a.ult b then a else b) o s
/-- AMOMAXU (R129). -/
def execAmomaxu (o : AmoOp) (s : State) : Out := amoOp2 (fun _ a b => if a.ult b then b else a) o s
/-- AMOSWAP (R129). -/
def execAmoswap (o : AmoOp) (s : State) : Out := amoOp2 (fun _ _ b => b) o s
/-- AMOCAS: g[b] is written if the old value equals the low width bits of g[d] (R129). -/
def execAmocas (o : AmoOp) (s : State) : Out :=
  amo o (fun old => if old = amoArg (amoBytes o) (s.getG o.d) then some (amoArg (amoBytes o) (s.getG o.b)) else none) s

/-- LDA: an ordered load that sets the monitored line, that of its first byte (R130). -/
def execLda (o : AmoOp) (s : State) : Out :=
  let va := s.getG o.a
  let n := amoBytes o
  if !aligned va n then .next (s.trapMem { cause := .access, addr := va })
  else match loadAt s s.hart.agent (if n = 8 then .plain8 else .scalar) va n with
    | .fault e u => .next (u.trapMem e)
    | .wait => .next s.stall
    | .ok r =>
      let s1 := r.st.onHart fun h => { h with monitor := r.targets.head?.map Target.line, monitorHit := false }
      finishAccess s ((s1.setG o.d (amoResult n (leNat r.data))).advance 4) r.hit va 1 4

/-- STR: an ordered store of g[b] (R130). A release performs after the hart's earlier scalar stores (R289 row 10). -/
def execStr (o : AmoOp) (s : State) : Out :=
  let va := s.getG o.a
  let n := amoBytes o
  if !aligned va n then .next (s.trapMem { cause := .access, addr := va })
  else match storeLater s s.hart.agent (if n = 8 then .plain8 else .scalar) (isRelease o.ord) va
      (leBytes n (s.getG o.b).toNat) with
    | .fault e u => .next (u.trapMem e)
    | .wait => .next s.stall
    | .ok r => finishAccess s (r.st.advance 4) r.hit va 2 4

/-- The empty code (R131). -/
def emptyCode : Word := 0xFFFFFFFFFFFFFFFF

/-- TAKE and STEAL on a queue object, in one indivisible step (R132): the state after it with the word that g[d]
receives, and whether an access hit a watch bit. -/
def queueAccess (take : Bool) (o : AmoOp) (s : State) : Acc (State × Word × Bool) :=
  let va := s.getG o.a
  match rmwAt s s.hart.agent .atomic va 16 (fun _ => none) with
  | .fault e u => .fault e u
  | .wait => .wait
  | .ok r =>
    let top := leNat (r.data.take 8)
    let bot := leNat (r.data.drop 8)
    if top < bot then
      let n := if take then bot - 1 else top
      let slotVa := va + BitVec.ofNat 64 (0x1000 + 8 * (n % 512))
      match rmwAt r.st s.hart.agent .atomic slotVa 8 (fun _ => none) with
      | .fault e u => .fault e u
      | .wait => .wait
      | .ok q =>
        let put := if take then leBytes 8 top ++ leBytes 8 (bot - 1) else leBytes 8 (top + 1) ++ leBytes 8 bot
        let s1 := storeBytes q.st s.hart.agent r.targets put
        let s2 := if isRelease o.ord then s1.releaseTargets r.targets else s1
        .ok (s2, BitVec.ofNat 64 (leNat q.data), r.hit || q.hit)
    else .ok (r.st, emptyCode, r.hit)

/-- TAKE and STEAL (R132), whose outcome may be on its way over a link (R307). -/
def queueStep (take : Bool) (o : AmoOp) (s : State) : Out :=
  let va := s.getG o.a
  let finish (t : State) (x : Word) (hit : Bool) : Out := finishAccess s ((t.home.setG o.d x).advance 4) hit va 3 4
  if !aligned va 8192 then .next (s.trapMem { cause := .access, addr := va })
  else match tripOf s va with
    | .receive x hit => finish s (BitVec.ofNat 64 x) hit
    | .send l => .next (s.onTrip l none false)
    | trip =>
      match queueAccess take o s with
      | .fault e u => .next (u.trapMem e)
      | .wait => .next s.stall
      | .ok (t, x, hit) =>
        match trip with
        | .perform l => .next (t.onTrip l (some x.toNat) hit)
        | _ => finish t x hit

/-- TAKE (R132). -/
def execTake (o : AmoOp) (s : State) : Out := queueStep true o s
/-- STEAL (R132). -/
def execSteal (o : AmoOp) (s : State) : Out := queueStep false o s

/-- The ticket word with NEXT advanced and SERVING unchanged (R133). -/
def nextTicket (x : Nat) : Nat := x / 2 ^ 32 * 2 ^ 32 + (x + 1) % 2 ^ 32

/-- TICKET (R133): g[d] receives the old word. -/
def execTicket (o : AmoOp) (s : State) : Out := amo o (fun x => some (nextTicket x)) s

end Sys2Proof.Machine
end

