-- ==== Sys2Proof/Machine/Sha.lean ====
section
/-! DEFINITION. SHA-256 and the RSASSA-PKCS1-v1_5 check that the boot and attestation rules name (R392, R394). Both
are taken from the published standards (FIPS 180-4, RFC 8017), which the manual names and does not repeat (log entry
30). -/

namespace Sys2Proof.Machine

/-- A big-endian number. -/
def beNat (bs : List Byte) : Nat := leNat bs.reverse

/-- Big-endian bytes of a number. -/
def beBytes (n x : Nat) : List Byte := (leBytes n x).reverse

/-- A 32-bit word of the digest computation. -/
abbrev ShaWord := BitVec 32

/-- The primes below a bound, rising. -/
def primesBelow (n : Nat) : List Nat :=
  (List.range n).filter fun p => decide (2 ≤ p) && (List.range p).all fun d => decide (d < 2) || p % d != 0

/-- The largest number whose k-th power is at most `x`, found bit by bit from bit `n - 1` down. -/
def floorRoot (k x : Nat) : Nat → Nat → Nat
  | 0, r => r
  | n + 1, r => floorRoot k x n (if (r + 2 ^ n) ^ k ≤ x then r + 2 ^ n else r)

/-- The first 32 bits of the fractional part of the k-th root of a prime, which is how the standard defines each of its
constants. -/
def rootFraction (k p : Nat) : ShaWord := BitVec.ofNat 32 (floorRoot k (p * 2 ^ (32 * k)) 40 0)

/-- The 64 round constants: from the cube roots of the first 64 primes. -/
def roundKeys : List ShaWord := (primesBelow 312).map (rootFraction 3)

/-- The chaining value before the first block: from the square roots of the first eight primes. -/
def firstChain : List ShaWord := (primesBelow 20).map (rootFraction 2)

/-- The exclusive or of a word turned right by each of some distances. -/
def turned (x : ShaWord) (ns : List Nat) : ShaWord := ns.foldl (fun y n => y ^^^ x.rotateRight n) 0

/-- The progress of one block: the eight working words, first to last, and the next sixteen words of the message
schedule. -/
structure ShaRun where
  work : List ShaWord
  sched : List ShaWord
  deriving DecidableEq, Repr

/-- One round: the head of the schedule is used, and its successor by 16 places joins the end. -/
def ShaRun.round (r : ShaRun) (key : ShaWord) : ShaRun :=
  let w (i : Nat) : ShaWord := r.sched.getD i 0
  let v (i : Nat) : ShaWord := r.work.getD i 0
  let mix := v 7 + key + w 0 + turned (v 4) [6, 11, 25] + (v 6 ^^^ (v 4 &&& (v 5 ^^^ v 6)))
  let top := turned (v 0) [2, 13, 22] + ((v 0 &&& v 1) ||| (v 2 &&& (v 0 ||| v 1)))
  let low := turned (w 1) [7, 18] ^^^ (w 1 >>> 3)
  let high := turned (w 14) [17, 19] ^^^ (w 14 >>> 10)
  { work := (mix + top) :: r.work.take 3 ++ (v 3 + mix) :: (r.work.drop 4).take 3
    sched := r.sched.tail ++ [w 0 + low + w 9 + high] }

/-- The words of a list of bytes, each big-endian, `n` of them. -/
def beWords : Nat → List Byte → List ShaWord
  | 0, _ => []
  | n + 1, bs => BitVec.ofNat 32 (beNat (bs.take 4)) :: beWords n (bs.drop 4)

/-- The chaining value after a message of `n` blocks of 64 bytes. -/
def shaChain : Nat → List Byte → List ShaWord → List ShaWord
  | 0, _, c => c
  | n + 1, bs, c =>
    let r := roundKeys.foldl ShaRun.round { work := c, sched := beWords 16 bs }
    shaChain n (bs.drop 64) (List.zipWith (· + ·) c r.work)

/-- SHA-256 of bytes: the message is followed by a one bit, zero bits up to eight bytes before the end of a block, and
its length in bits. -/
def sha256 (bs : List Byte) : List Byte :=
  let fill := (55 + 64 - bs.length % 64) % 64
  let m := bs ++ 0x80 :: List.replicate fill 0 ++ beBytes 8 (8 * bs.length)
  (shaChain (m.length / 64) m firstChain).flatMap fun x => beBytes 4 x.toNat

/-- x^65537 modulo n. -/
def powF4 (x n : Nat) : Nat := ((List.range 16).foldl (fun y _ => y * y % n) (x % n)) * x % n

/-- The encoded message of RSASSA-PKCS1-v1_5 with SHA-256 for a modulus of 384 bytes. -/
def pkcsEncode (digest : List Byte) : List Byte :=
  [0x00, 0x01] ++ List.replicate 330 0xFF ++ [0x00] ++
    [0x30, 0x31, 0x30, 0x0d, 0x06, 0x09, 0x60, 0x86, 0x48, 0x01, 0x65, 0x03, 0x04, 0x02, 0x01, 0x05, 0x00, 0x04, 0x20] ++ digest

/-- x^d modulo n, for an exponent of `k` bits. -/
def powMod (n : Nat) : Nat → Nat → Nat → Nat
  | 0, _, _ => 1 % n
  | k + 1, x, d =>
    let y := powMod n k (x * x % n) (d / 2)
    if d % 2 = 1 then x * y % n else y

/-- The signature that a private exponent gives a digest. -/
def rsaSign (modulus exponent : Nat) (digest : List Byte) : List Byte :=
  beBytes 384 (powMod modulus 3072 (beNat (pkcsEncode digest)) exponent)

/-- The signature check. -/
def rsaVerify (modulus sig : List Byte) (digest : List Byte) : Bool :=
  let n := beNat modulus
  let s := beNat sig
  decide (s < n) && beBytes 384 (powF4 s n) == pkcsEncode digest

end Sys2Proof.Machine
end

