-- ==== Sys2Proof/Machine/Boot.lean ====
section
/-! DEFINITION. Boot (R391 to R393): the image check, the ROM, the firmware and the kernel, a pushed image and the
write of SPI NOR, and the loss of power. -/

namespace Sys2Proof.Machine

/-- The host registers changed. -/
def State.onHost (s : State) (f : HostSt → HostSt) : State := { s with host := f s.host }

/-- An image as verification sees it: a reader of its bytes and the bytes that may be read from its start. -/
structure Source where
  bytes : Nat → Nat → List Byte
  room : Nat

/-- Bytes of a SPI NOR that this model takes to be unbounded. -/
def norSource (s : State) (off : Nat) : Source := { bytes := fun o n => readBytes s.nor (off + o) n, room := 2 ^ 32 }

/-- The pushed image in the staging buffer, which is the PACKAGE window's first 16 MiB (R385). -/
def pushSource (s : State) : Source :=
  { bytes := fun o n => readBytes s.mem (packageLoc o) n, room := s.host.pushlen.toNat }

/-- A number of the header (Table 18-4). -/
def Source.num (i : Source) (off n : Nat) : Nat := leNat (i.bytes off n)

/-- LENGTH. -/
def Source.length (i : Source) : Nat := i.num 0x10 8

/-- The whole image, header and body. -/
def Source.image (i : Source) : List Byte := i.bytes 0 (0x800 + i.length)

/-- Bytes are all zero. -/
def allZero (bs : List Byte) : Bool := bs.all (· == 0)

/-- Check 1 (R392): MAGIC, HVER, KIND, the LENGTH bounds and the reserved bytes. -/
def Source.formatOk (i : Source) (kind : Nat) : Bool :=
  i.num 0 4 == 0x4B4C4656 && i.num 4 4 == 1 && i.num 0xC 4 == kind && i.length % 64 == 0 && decide (64 ≤ i.length) &&
    decide (i.length ≤ 0xFFF800) && decide (0x800 + i.length ≤ i.room) && allZero (i.bytes 0x20 224) &&
    allZero (i.bytes 0x284 380) && allZero (i.bytes 0x580 640)

/-- The fused hash for a KIND (R391). -/
def fusedHash (kind : Nat) : BitVec 256 := if kind = 1 then Config.rootHash else Config.kernHash

/-- The digest that SIG signs: header bytes 0 to 0x3FF, then the body. -/
def Source.digest (i : Source) : List Byte := sha256 (i.bytes 0 0x400 ++ i.bytes 0x800 i.length)

/-- IMAGE_VERIFY (R392): 0, or the REASON of the first check that fails. -/
def Source.verify (i : Source) (kind : Nat) : Nat :=
  if !i.formatOk kind then 1
  else if BitVec.ofNat 256 (beNat (sha256 (i.bytes 0x100 384))) ≠ fusedHash kind then 2
  else if i.num 8 4 < Config.minSvn.toNat then 4
  else if rsaVerify (i.bytes 0x100 384) (i.bytes 0x400 384) i.digest then 0
  else 3

/-- The firmware has been verified and runs (R391): STATE 2, and what a report says of it (R394). -/
def startFirmware (i : Source) (s : State) : State :=
  s.onHost fun h => { h with
    bootState := 2
    fwSvn := BitVec.ofNat 32 (i.num 8 4)
    fwHash := BitVec.ofNat 256 (beNat (sha256 i.image))
    fwLen := 0x800 + i.length }

/-- The kernel has been verified and runs. -/
def startKernel (i : Source) (s : State) : State :=
  s.onHost fun h => { h with
    bootState := 2
    kernelUp := true
    kernHash := BitVec.ofNat 256 (beNat (sha256 i.image)) }

/-- A check has failed: REASON, and STATE 4 waits for a push (R391). -/
def bootFailed (reason : Nat) (kernel : Bool) (s : State) : State :=
  s.onHost fun h => { h with bootState := 4, bootReason := BitVec.ofNat 8 reason, expectKernel := kernel }

/-- REASON of a boot from a NOR whose write was cut off, which the manual leaves among the failures of the check
(R393). -/
def cutReason (s : State) : Nat := 1 + (Config.freeWord s.fresh).toNat % 5

/-- Peers' memory (R306). -/
def peerMemory (m : Memory) : Memory := m.filter fun p => decide (2 ^ 60 ≤ p.1)

/-- The module right after reset (R391, R395): what no reset touches stays, which is SPI NOR, peers' memory, the
events to come and the model's counter. -/
def State.afterReset (s : State) : State :=
  { State.reset with
    agenda := s.agenda
    nor := s.nor
    mem := peerMemory s.mem
    host := { State.reset.host with norBad := s.host.norBad, kernelBad := s.host.kernelBad }
    fresh := s.fresh }

/-- One more open value has been drawn. -/
def State.drawn (s : State) : State := { s with fresh := s.fresh + 1 }

/-- MODULE_RESET (R391): management core 0 runs the boot ROM. A read error of the NOR gives REASON 5 (R392). -/
def execModuleReset (s : State) : Out :=
  let t0 := s.afterReset.onHost fun h => { h with bootState := 1 }
  let t := t0.drawn
  if t0.host.norBad then .next (bootFailed (cutReason t0) false t)
  else if Config.norReadFails t0.fresh then .next (bootFailed 5 false t)
  else
    let i := norSource t 0
    match i.verify 1 with
    | 0 => .next (startFirmware i t)
    | r => .next (bootFailed r false t)

/-- The next 64 KiB boundary at or above an offset. -/
def nextBoundary (x : Nat) : Nat := (x + 0xFFFF) / 0x10000 * 0x10000

/-- KERNEL_START (R391): the firmware verifies the kernel image that follows it in SPI NOR; a read error of the NOR
gives REASON 5 here too (R392). A kernel image whose write was cut off fails (R393). -/
def execKernelStart (s : State) : Out :=
  if s.host.bootState ≠ 2 ∨ s.host.kernelUp = true then .next s
  else if Config.norReadFails s.fresh then .next (bootFailed 5 true s.drawn)
  else if s.host.kernelBad then .next (bootFailed 6 true s.drawn)
  else
    let i := norSource s (nextBoundary s.host.fwLen)
    match i.verify 2 with
    | 0 => .next (startKernel i s.drawn)
    | _ => .next (bootFailed 6 true s.drawn)

/-- BOOT_READY (R391): memory, links and root ports are up. -/
def execBootReady (s : State) : Out :=
  if s.host.bootState = 2 ∧ s.host.kernelUp = true then
    .next ((s.onHost fun h => { h with bootState := 3 }).onCtl fun c => { c with sparing := Config.sparing })
  else .next s

/-- The port holds the semaphore (R386). -/
def HostSt.holds (h : HostSt) (p : Fin 2) : Bool := h.semHeld && (h.semOwner == (p == 1))

/-- A write of PUSHGO (R393): the semaphore holder's GO verifies the pushed image and boots it. A failed kernel is
reported as REASON 6 (R392). With PROGRAM = 1 the image joins those to be written to SPI NOR. After the cutoff the
ports are down (R400). -/
def pushgo (p : Fin 2) (x : Word) (s : State) : Out :=
  if s.cutOff || !(s.host.holds p && s.host.bootState == 4 && x.getLsbD 0) then .next s
  else
    let t := s.onHost fun h => { h with bootState := 5 }
    let i := pushSource t
    let kind := if s.host.expectKernel then 2 else 1
    match i.verify kind with
    | 0 =>
      let u := if s.host.expectKernel then startKernel i t else startFirmware i t
      .next (u.onHost fun h => { h with
        pushed := true
        pushProgram := x.getLsbD 1
        norQueue := if x.getLsbD 1 then h.norQueue ++ [i.image] else h.norQueue
        pushImage := i.image })
    | r => .next (bootFailed (if s.host.expectKernel then 6 else r) s.host.expectKernel t)

/-- An image for SPI NOR is a kernel image, by its KIND (Table 18-4). -/
def isKernelImage (image : List Byte) : Bool := leNat ((image.drop 0xC).take 4) == 2

/-- Where an image goes in SPI NOR: a kernel after the firmware image (R393). -/
def norPlace (s : State) (image : List Byte) : Nat := if isKernelImage image then nextBoundary s.host.fwLen else 0

/-- An image of SPI NOR is whole, or has been cut off (R393). -/
def HostSt.markNor (h : HostSt) (kernel bad : Bool) : HostSt := if kernel then { h with kernelBad := bad } else { h with norBad := bad }

/-- NOR_PROGRAM (R393): the oldest booted pushed image that is to be written goes to SPI NOR. -/
def execNorProgram (s : State) : Out :=
  match s.host.norQueue with
  | [] => .next s
  | image :: rest =>
    .next ({ s with nor := replaceBytes s.nor (norPlace s image) image }.onHost fun h =>
      { h.markNor (isKernelImage image) false with norQueue := rest })

/-- POWER_LOSS (R393): all activity ends, and a write of an image to SPI NOR in progress is cut off. -/
def execPowerLoss (s : State) : Out :=
  let t := s.afterReset
  .next { t with
    powered := false
    host := match s.host.norQueue with
      | image :: _ => t.host.markNor (isKernelImage image) true
      | [] => t.host }

end Sys2Proof.Machine
end

