-- ==== Sys2Proof/Machine/Fetch.lean ====
section
/-! DEFINITION. The front-end between instructions: fetch (R69, R70), sampling tags (R376), asynchronous causes
(R357), and whose turn it is. -/

namespace Sys2Proof.Machine

/-- The lowest address of a part of an instruction whose byte holds an uncorrectable error. -/
def firstBad (s : State) (va : Word) : List Target → Option Word
  | [] => none
  | t :: ts => if s.badTarget t then some va else firstBad s (va + 1) ts

/-- The bytes of a part of an instruction as a number, with the state after the translation: a fault of the
translation or of a block with an uncorrectable error, with the lowest address that could not be fetched (R70, R283,
R364), or a wait for a line that an engine owns (R311). -/
def fetchPart (s : State) (va : Word) (n : Nat) : Acc (State × Nat) :=
  match access s s.hart.agent .scalar .fetch va n with
  | .fault f u => .fault f u
  | .wait => .wait
  | .ok (s1, ts) =>
    match firstBad s1 va ts with
    | some a => .fault { cause := .mchk, addr := a } s1
    | none => .ok (s1, leNat (ts.map (targetByte s1 s.hart.agent)))

/-- The bytes of the instruction at PC as a number, with the state after the fetch translations; or the fetch fault
with the lowest address that could not be fetched, or a wait (R70). -/
def fetch (s : State) : Acc (State × Nat) :=
  match fetchPart s s.hart.pc 2 with
  | .fault f u => .fault f u
  | .wait => .wait
  | .ok (s1, h) =>
    match fetchPart s1 (s.hart.pc + 2) (lengthOf h - 2) with
    | .fault f u => .fault f u
    | .wait => .wait
    | .ok (s2, r) => .ok (s2, h + 2 ^ 16 * r)

/-- A tag on the instruction about to execute (R376, R377). -/
def State.mkTag (s : State) (enc : Nat) : Tag :=
  { pc := s.hart.pc, enc := BitVec.ofNat 64 enc, fetched := s.time, vector := false, trapped := false,
    restarted := false, code := 0, vl := s.hart.csr.vl, vstart := s.hart.csr.vstart, vtype := s.hart.csr.vtype, mask := 0,
    masked := false }

/-- The next gap between tags: uniform on 1 to 2^(RATE+7) − 1, from a generator no program can read (R376). -/
def State.drawGap (s : State) : Nat × State :=
  let n := 2 ^ (bitsOf s.hart.csr.sampctl.toNat 4 4 + 7) - 1
  (1 + (Config.freeWord s.fresh).toNat % n, { s with fresh := s.fresh + 1 })

/-- A tag that falls while another tagged instruction is in flight is dropped, and LOST rises by 1 (R376, R377); none
while an engine owns the line of LOST (R311). -/
def State.loseTag (s : State) : Option State :=
  let base := s.hart.csr.sampctl &&& 0xFFFFFFFFFF000
  let s1 := s.count evSamplost 1
  match loadAt s1 s.hart.logAgent .scalar (base + 8) 8 with
  | .fault f u => some (u.logFault f).stopSampling
  | .wait => none
  | .ok r =>
    match logWrites [BitVec.ofNat 64 (leNat r.data + 1)] r.st (base + 8) with
    | .done t => some t
    | .fault t => some t.stopSampling
    | .wait => none

/-- The fetched instruction is tagged when its gap has expired (R376). A dropped tag whose LOST cannot be written yet
falls on the next instruction. -/
def State.tagFetched (s : State) (enc : Nat) : State :=
  if !s.hart.csr.sampEn then s
  else if s.hart.tagNext || s.hart.tagGap ≤ 1 then
    let (gap, s1) := s.drawGap
    let s2 := s1.onHart fun h => { h with tagGap := gap, tagNext := false }
    match s.hart.tag with
    | some _ => s2.loseTag.getD (s.onHart fun h => { h with tagNext := true })
    | none => s2.onHart fun h => { h with tag := some (s.mkTag enc) }
  else s.onHart fun h => { h with tagGap := h.tagGap - 1 }

/-- The instruction makes a scalar read-modify-write, which may be on its way to a peer (R307). -/
def isRmw (i : Instr) : Bool :=
  match i with
  | .amoadd _ | .amoand _ | .amoor _ | .amoxor _ | .amomin _ | .amomax _ | .amominu _ | .amomaxu _ | .amoswap _
  | .amocas _ | .take _ | .steal _ | .ticket _ | .enq _ => true
  | _ => false

/-- The front-end is at an instruction that it has tried before. -/
def Run.again : Run → Bool
  | .stalled => true
  | .peer _ _ _ => true
  | _ => false

/-- The front-end as a fetched instruction, if it decodes to one, finds it: a read-modify-write on its way stays so. -/
def Run.atInstr (r : Run) (i : Option Instr) : Run :=
  match r with
  | .peer l old hit => if (i.map isRmw).getD false then .peer l old hit else .running
  | _ => .running

/-- The state in which a fetched instruction executes: the front-end has left any handler entry behind, and the tag has
fallen where it falls; an instruction that has waited is not tagged again. -/
noncomputable def State.ready (s : State) (enc : Nat) : State :=
  let s1 := s.onHart fun h => { h with handlerEntry := false, run := h.run.atInstr (decodeWord enc) }
  if s.hart.run.again then s1 else s1.tagFetched enc

/-- A fetch fault (R70): the first fetch of a handler ends the gang (R350). -/
def State.fetchFault (s : State) (f : MemFault) : State :=
  if s.hart.handlerEntry then s.endGang s.hart.gang
  else (s.mchkMessage f).trapP f.cause.code f.addr (mkTaux false (if f.cause = .mchk then 1 else 3) 0 0)

/-- A trap that the hart has taken at the instruction at an address, which it has not executed; one that executed
before a watch hit has (R113, R355, R373). A vector-class trap stands behind an instruction that the front-end has
executed, unless it reports that very instruction. -/
def Hart.turnedAway (h : Hart) (pc : Word) : Bool :=
  h.handlerEntry && h.csr.epc == pc && h.csr.cause != causeWord cWATCHHIT .scalar

/-- After an instruction at an address: it counts as executed unless it trapped or waits, and a tagged scalar
instruction's record is written when it completes (R377, R380). -/
def State.retired (s : State) (pc : Word) : State :=
  if s.hart.turnedAway pc || s.hart.run.again || s.hart.run == .vacant then s
  else
    let s1 := s.count evInstret 1
    match s1.hart.tag with
    | some t => if t.vector then s1 else s1.recordSample t
    | none => s1

/-- The asynchronous cause that the hart takes at a boundary, if any (R357); an instruction whose read-modify-write has
performed at a peer is no boundary. -/
def asyncCause (h : Hart) : Option Trap :=
  if h.run == .vacant || h.run == .parked then none
  else match h.run with
    | .starting _ => none
    | .peer _ (some _) _ => none
    | _ =>
      if h.pendMchkUnmasked then some { code := cMCHK, cls := .async, tval := 0, taux := mkTaux false 2 0 0 }
      else if !h.csr.status.ie then none
      else match h.pendMchk with
        | (c, a) :: _ => some { code := cMCHK, cls := .async, tval := a, taux := mkTaux false c.toNat 0 0 }
        | [] =>
          if h.pendPreempt then some { code := cPREEMPT, cls := .async, tval := 0, taux := 0 }
          else match h.pendNotify with
            | m :: _ => some { code := cNOTIFY, cls := .async, tval := m, taux := 0 }
            | [] => none

/-- The pending bit of an asynchronous cause clears when it is taken. -/
def Hart.clearPending (h : Hart) (t : Trap) : Hart :=
  if t.code = cPREEMPT then { h with pendPreempt := false }
  else if t.code = cNOTIFY then { h with pendNotify := h.pendNotify.tail }
  else if h.pendMchkUnmasked then { h with pendMchkUnmasked := false }
  else { h with pendMchk := h.pendMchk.tail }

/-- EPC of an asynchronous trap (R355): the next instruction; at GBAR, past it when the episode has completed (R255). -/
def asyncEpc (h : Hart) : Word := if h.run == .gbar && h.episodeDone then h.pc + 4 else h.pc

/-- An interrupt is pending for the hart, whatever STATUS.IE holds (R137). -/
def interruptPending (h : Hart) : Bool :=
  h.pendMchkUnmasked || !h.pendMchk.isEmpty || h.pendPreempt || !h.pendNotify.isEmpty

/-- The turn passes to the n-th of the other harts. -/
def State.switchTo (s : State) (n : Nat) : State :=
  match s.others[n]? with
  | none => s
  | some h => { s with hart := h, others := s.others.set n s.hart }

end Sys2Proof.Machine
end

