-- ==== Sys2Proof/Machine/Errors.lean ====
section
/-! DEFINITION. What the memory controllers do (R266, R279): writes block by block, write-backs and partial writes, and
errors of memory, of a hart and of the core and cluster units (R283, R364). -/

namespace Sys2Proof.Machine

/-- A full write of a block ends its uncorrectable error (R283). -/
def State.healBlock (s : State) (b : Nat) : State := s.onCtl fun c => { c with bad := setDel c.bad b }

/-- A range covers a whole block. -/
def coversBlock (pa n b : Nat) : Bool := decide (pa ≤ 256 * b) && decide (256 * b + 256 ≤ pa + n)

/-- Blocks that a range of physical addresses meets. -/
def blocksOf (pa n : Nat) : List Nat :=
  if n = 0 then [] else (List.range ((pa + n - 1) / 256 - pa / 256 + 1)).map (pa / 256 + ·)

/-- Bytes are written at a physical address block by block: a full write replaces the block, any other merges into its
line in L2 or at its controller (R266, R279). -/
def State.controllerWrite (s : State) (pa : Nat) (bs : List Byte) : State :=
  let s1 := { s with mem := writeBytes s.mem pa bs }
  (blocksOf pa bs.length).foldl (fun t b =>
    if b * 256 < lpddrEnd then (if coversBlock pa bs.length b then t.healBlock b else t).settleBlock b else t) s1

/-- What a partial write meets in the blocks that it does not replace whole (R279, R283, R364): an uncorrectable error
stays, and raises a machine check at the hart of a HARTID. -/
def State.mergeCheck (s : State) (id : BitVec 12) (region : Nat) (domain : BitVec 16) (pa n : Nat) : State :=
  let hit := (blocksOf pa n).filter fun b => s.badUnit b && !coversBlock pa n b
  if hit.isEmpty then s
  else (s.onCtl fun c => { c with bad := hit.foldl setAdd c.bad }).pendCheck id region domain 1 0

/-- L2_WRITEBACK: a modified L2 line is written back whole and compressed again (R266). -/
def execL2Writeback (blk : BitVec 40) (s : State) : Out :=
  if s.ctl.dirty.contains blk.toNat then
    .next ((s.encodeBlock blk.toNat).onCtl fun c => { c with dirty := setDel c.dirty blk.toNat })
  else .next s

/-- PARTIAL_WRITE_MERGE (R279): bytes of one block that has no line in L2 reach its controller, which merges them and
encodes the block afresh. A store of the hart that misses L2 runs the same operation, `State.settleBlock`. -/
def execPartialWriteMerge (pa : BitVec 48) (data : List Byte) (s : State) : Out :=
  let a := pa.toNat
  if lpddrEnd ≤ a ∨ data.isEmpty ∨ 256 < a % 256 + data.length ∨ s.ctl.lines.contains (a / 256) then .next s
  else .next ((s.mergeCheck s.hart.csr.hartid s.hart.region s.hart.domain a data.length).controllerWrite a data)

/-- A slice of L2 takes in the line of a block (R266). -/
def State.takeLine (s : State) (b : Nat) : State :=
  if 256 * b < lpddrEnd ∧ s.badUnit b = false then s.onCtl fun c => { c with lines := setAdd c.lines b } else s

/-- A slice of L2 drops a line, which it has written back when it was modified (R266). -/
def State.dropLine (s : State) (b : Nat) : State :=
  if s.ctl.dirty.contains b then s else s.onCtl fun c => { c with lines := setDel c.lines b }

/-! ### Errors (R283, R364) -/

/-- A module event is counted at every placed hart (Table 17-3). -/
def State.countAll (s : State) (code k : Nat) : State :=
  let f (h : Hart) : Hart := if h.run = .vacant then h else { h with csr := h.csr.count code k }
  { s with hart := f s.hart, others := s.others.map f }

/-- SOFT_ERROR: corrected silently and counted, in the hart it belongs to and in the module (Table 17-3). -/
def execSoftError (inHart : Bool) (s : State) : Out :=
  let s1 : State := { s with softerr := s.softerr + 1 }
  .next ((if inHart then s1.count evSofterr 1 else s1).countAll evSofterrMod 1)

/-- A fault message of a machine check (Table 16-3). -/
def mchkMsg (domain : BitVec 16) (hartid : BitVec 12) (object addr : Word) (time : Nat) : FaultMsg :=
  { domain := domain, kind := 1, code := 0x10, source := hartid.setWidth 32, object := object, addr := addr, time := time }

/-- Every placed hart that meets a condition gets a masked machine check with its fault message (R364). -/
def State.machineCheckAll (s : State) (p : Hart → Bool) (cspec : BitVec 16) (addr : Word) : State :=
  let hit (h : Hart) : Bool := h.run != .vacant && p h
  let pend (h : Hart) : Hart := if hit h then { h with pendMchk := h.pendMchk ++ [(cspec, addr)] } else h
  let msgs := ((s.hart :: s.others).filter hit).map fun h => mchkMsg h.domain h.csr.hartid 0 addr s.time
  { s with hart := pend s.hart, others := s.others.map pend, messages := s.messages ++ msgs }

/-- A unit of memory is found in error by no hart's read (R364): it is marked, and a machine check waits at the hart
whose region owns the access, if it is placed. -/
def State.findBad (s : State) (loc : Nat) : State :=
  let s1 := s.onCtl fun c => { c with bad := setAdd c.bad (loc / 256) }
  if s.hart.run == .vacant then s1 else s1.pendCheck s.hart.csr.hartid s.hart.region s.hart.domain 1 0

/-- UNCORRECTABLE_ERROR (R283, R364): an error in memory that no hart's read has found, in the state of the hart, or
in the STE or an array. A unit of memory keeps its error until R283 ends it. -/
def execUncorrectableError (k : ErrKind) (addr : Word) (s : State) : Out :=
  let core := coreOf s.hart.csr.hartid
  let cluster := clusterOf s.hart.csr.hartid
  let a := addr.toNat
  match k with
  | .block => if lpddrEnd ≤ a then .next s else .next (s.findBad a)
  | .scratchpad => if 2 ^ 19 ≤ a then .next s else .next (s.findBad (coreLoc core a))
  | .clusterMemory => if 2 ^ 22 ≤ a then .next s else .next (s.findBad (clusterLoc cluster a))
  | .package => if 2 ^ 26 ≤ a then .next s else .next (s.findBad (packageLoc a))
  | .hartState =>
    if s.hart.run == .vacant then .next s
    else .next ((s.onHart fun h => { h with pendMchkUnmasked := true }).sendFault
      (mchkMsg s.hart.domain s.hart.csr.hartid 0 0 s.time))
  | .slot _ => .next (s.machineCheckAll (fun h => coreOf h.csr.hartid == core) 4 0)
  | .acc => .next (s.machineCheckAll (fun h => coreOf h.csr.hartid == core) 4 0)
  | .array => .next (s.machineCheckAll (fun h => clusterOf h.csr.hartid == cluster) 4 0)

end Sys2Proof.Machine
end

