-- ==== Sys2Proof/Machine/Float.lean ====
section
/-! DEFINITION. Floating-point formats and their arithmetic (R38 to R50, R68): encodings to exact dyadic values, the one
rounding of an exact result, and the operations of the scalar and vector units on encodings. -/

namespace Sys2Proof.Machine

/-! ### Formats (Table 02-2) -/

/-- A floating-point format: exponent bits, fraction bits, whether the top exponent means infinity and NaN, and whether
NaNs are quiet or signalling. -/
structure Fmt where
  ebits : Nat
  fbits : Nat
  ieee : Bool
  signals : Bool
  deriving DecidableEq, Repr

/-- FP64. -/
def fp64 : Fmt := ⟨11, 52, true, true⟩
/-- FP32. -/
def fp32 : Fmt := ⟨8, 23, true, true⟩
/-- BF16. -/
def bf16 : Fmt := ⟨8, 7, true, true⟩
/-- FP16. -/
def fp16 : Fmt := ⟨5, 10, true, true⟩
/-- E5M2. -/
def e5m2 : Fmt := ⟨5, 2, true, false⟩
/-- E4M3. -/
def e4m3 : Fmt := ⟨4, 3, false, false⟩
/-- E2M1. -/
def e2m1 : Fmt := ⟨2, 1, false, false⟩

/-- Exponent bias. -/
def Fmt.bias (f : Fmt) : Nat := 2 ^ (f.ebits - 1) - 1

/-- The exponent of the smallest normal value. -/
def Fmt.emin (f : Fmt) : Int := 1 - (f.bias : Int)

/-- Bits of an encoding. -/
def Fmt.width (f : Fmt) : Nat := 1 + f.ebits + f.fbits

/-- Sign bit weight. -/
def Fmt.signBit (f : Fmt) : Nat := 2 ^ (f.ebits + f.fbits)

/-- Magnitude bits of the largest finite value. -/
def Fmt.maxMag (f : Fmt) : Nat :=
  if f.ieee then (2 ^ f.ebits - 1) * 2 ^ f.fbits - 1 else if f.ebits = 4 then 0x7E else 7

/-- Magnitude bits of infinity (formats that have one). -/
def Fmt.infMag (f : Fmt) : Nat := (2 ^ f.ebits - 1) * 2 ^ f.fbits

/-- The canonical NaN (Table 02-4). -/
def Fmt.nan (f : Fmt) : Nat :=
  if f.ieee then
    if f.signals then f.infMag + 2 ^ (f.fbits - 1) else 0x7E
  else 0x7F

/-- A value: NaN, infinity, or the dyadic number (−1)^neg · m · 2^e; m = 0 is a zero with a sign. -/
inductive FVal where
  | nan (signalling : Bool)
  | inf (neg : Bool)
  | num (neg : Bool) (m : Nat) (e : Int)
  deriving DecidableEq, Repr

/-- The sign of an encoding. -/
def Fmt.neg (f : Fmt) (x : Nat) : Bool := x.testBit (f.ebits + f.fbits)

/-- The magnitude bits of an encoding. -/
def Fmt.mag (f : Fmt) (x : Nat) : Nat := x % f.signBit

/-- Value of a finite encoding (R39). -/
def Fmt.finite (f : Fmt) (x : Nat) : FVal :=
  let e := f.mag x / 2 ^ f.fbits
  let m := f.mag x % 2 ^ f.fbits
  if e = 0 then .num (f.neg x) m (f.emin - f.fbits)
  else .num (f.neg x) (m + 2 ^ f.fbits) ((e : Int) - f.bias - f.fbits)

/-- Value (R39, R42, R68). -/
def Fmt.value (f : Fmt) (x : Nat) : FVal :=
  let g := f.mag x
  if f.ieee then
    if f.infMag < g then .nan (f.signals && !g.testBit (f.fbits - 1))
    else if g = f.infMag then .inf (f.neg x)
    else f.finite x
  else if f.ebits = 4 ∧ g = 0x7F then .nan false
  else f.finite x

/-- A subnormal encoding. -/
def Fmt.subnormal (f : Fmt) (x : Nat) : Bool := f.mag x != 0 && decide (f.mag x < 2 ^ f.fbits)

/-- An encoding from its sign and magnitude bits. -/
def Fmt.enc (f : Fmt) (neg : Bool) (mag : Nat) : Nat := (if neg then f.signBit else 0) + mag

/-! ### Rounding (R43 to R46) -/

/-- Rounding modes (Table 02-5). -/
inductive Mode where
  | rne | rtz | rdn | rup | rmm
  deriving DecidableEq, Repr

/-- The mode of a code; FCSR.RM holds 0 to 4 (Table 01-4). -/
def modeOf (c : BitVec 3) : Mode :=
  match c.toNat with
  | 1 => .rtz
  | 2 => .rdn
  | 3 => .rup
  | 4 => .rmm
  | _ => .rne

/-- Whether a magnitude q + r / 2^k with 0 ≤ r < 2^k rounds up to q + 1. -/
def roundUp (mode : Mode) (neg : Bool) (q r k : Nat) : Bool :=
  match mode with
  | .rtz => false
  | .rdn => neg && r != 0
  | .rup => !neg && r != 0
  | .rmm => k != 0 && decide (2 ^ k ≤ 2 * r)
  | .rne => k != 0 && (decide (2 ^ k < 2 * r) || (2 * r == 2 ^ k && q % 2 == 1))

/-- m · 2^e rounded to a multiple of 2^t, in units of 2^t, and whether that changed it. -/
def roundAt (mode : Mode) (neg : Bool) (m : Nat) (e t : Int) : Nat × Bool :=
  if t ≤ e then (m * 2 ^ (e - t).toNat, false)
  else
    let k := (t - e).toNat
    let q := m / 2 ^ k
    let r := m % 2 ^ k
    (if roundUp mode neg q r k then q + 1 else q, r != 0)

/-- Exponent of the leading bit of m · 2^e, for m > 0. -/
def topExp (m : Nat) (e : Int) : Int := (Nat.log2 m : Int) + e

/-- A nonzero dyadic number is tiny (R46). -/
def Fmt.tiny (f : Fmt) (mode : Mode) (neg : Bool) (m : Nat) (e : Int) : Bool :=
  let l := topExp m e
  if f.emin ≤ l then false
  else
    let q := (roundAt mode neg m e (l - f.fbits)).1
    decide (l + (if q = 2 ^ (f.fbits + 1) then 1 else 0) < f.emin)

/-- What overflow delivers (R45). -/
def Fmt.overflow (f : Fmt) (mode : Mode) (neg : Bool) : Nat :=
  let toInf := match mode with
    | .rne | .rmm => true
    | .rtz => false
    | .rdn => neg
    | .rup => !neg
  f.enc neg (if f.ieee && toInf then f.infMag else f.maxMag)

/-- A result: its encoding and the flags it raises. -/
abbrev FRes := Nat × Nat

/-- The rounding of a nonzero dyadic number to a format, with its flags (R43 to R46); `flush` replaces a tiny result by
zero (R49). -/
def Fmt.roundNum (f : Fmt) (mode : Mode) (flush : Bool) (neg : Bool) (m : Nat) (e : Int) : FRes :=
  if m = 0 then (f.enc neg 0, 0)
  else
    let t := max (topExp m e - f.fbits) (f.emin - f.fbits)
    let (q, inexact) := roundAt mode neg m e t
    let mag := q + (t - (f.emin - f.fbits)).toNat * 2 ^ f.fbits
    let tiny := f.tiny mode neg m e
    if tiny && flush then (f.enc neg 0, fUF ||| fNX)
    else if f.maxMag < mag then (f.overflow mode neg, fOF ||| fNX)
    else (f.enc neg mag, (if inexact then fNX else 0) ||| (if tiny && inexact then fUF else 0))

/-- The rounding of a value: a NaN gives the canonical NaN and no flag (R42). -/
def Fmt.round (f : Fmt) (mode : Mode) (flush : Bool) : FVal → FRes
  | .nan _ => (f.nan, 0)
  | .inf neg => (f.enc neg f.infMag, 0)
  | .num neg m e => f.roundNum mode flush neg m e

/-- Encode(RoundNE(x, f)) without flags (R68). -/
def Fmt.ne (f : Fmt) (x : FVal) : Nat := (f.round .rne false x).1

/-! ### Exact operations -/

/-- Sign of an exact zero that cancellation gives (R48). -/
def zeroSign (mode : Mode) : Bool := mode == .rdn

/-- The integer coefficient of a number at an exponent not above its own. -/
def coeff (neg : Bool) (m : Nat) (e t : Int) : Int :=
  let x : Int := (m * 2 ^ (e - t).toNat : Nat)
  if neg then -x else x

/-- Exact sum of two numbers (R48). -/
def addNum (mode : Mode) (na : Bool) (ma : Nat) (ea : Int) (nb : Bool) (mb : Nat) (eb : Int) : FVal :=
  if ma = 0 ∧ mb = 0 then .num (if na = nb then na else zeroSign mode) 0 0
  else
    let t := min ea eb
    let x := coeff na ma ea t + coeff nb mb eb t
    if x = 0 then .num (zeroSign mode) 0 0 else .num (decide (x < 0)) x.natAbs t

/-- A value and the flags of the operation that made it. -/
abbrev VRes := FVal × Nat

/-- NV of a signalling NaN (R47). -/
def sigNV : FVal → Nat
  | .nan true => fNV
  | _ => 0

/-- The value is NaN. -/
def FVal.isNan : FVal → Bool
  | .nan _ => true
  | _ => false

/-- The value with its sign changed. -/
def FVal.negate : FVal → FVal
  | .nan q => .nan q
  | .inf n => .inf (!n)
  | .num n m e => .num (!n) m e

/-- a + b (R47, R48). -/
def fAdd (mode : Mode) (a b : FVal) : VRes :=
  match a, b with
  | .nan x, .nan y => (.nan false, sigNV (.nan x) ||| sigNV (.nan y))
  | .nan x, _ => (.nan false, sigNV (.nan x))
  | _, .nan y => (.nan false, sigNV (.nan y))
  | .inf x, .inf y => if x = y then (.inf x, 0) else (.nan false, fNV)
  | .inf x, _ => (.inf x, 0)
  | _, .inf y => (.inf y, 0)
  | .num na ma ea, .num nb mb eb => (addNum mode na ma ea nb mb eb, 0)

/-- a × b (R47, R48). -/
def fMul (a b : FVal) : VRes :=
  match a, b with
  | .nan x, .nan y => (.nan false, sigNV (.nan x) ||| sigNV (.nan y))
  | .nan x, _ => (.nan false, sigNV (.nan x))
  | _, .nan y => (.nan false, sigNV (.nan y))
  | .inf x, .inf y => (.inf (xor x y), 0)
  | .inf x, .num n m _ => if m = 0 then (.nan false, fNV) else (.inf (xor x n), 0)
  | .num n m _, .inf y => if m = 0 then (.nan false, fNV) else (.inf (xor n y), 0)
  | .num na ma ea, .num nb mb eb => (.num (xor na nb) (ma * mb) (ea + eb), 0)

/-- Extra quotient bits: enough for any format, so that the sticky bit lies below every rounding position. -/
def quoBits : Nat := 128

/-- a / b (R47); the last bit of the mantissa is a sticky bit. -/
def fDiv (a b : FVal) : VRes :=
  match a, b with
  | .nan x, .nan y => (.nan false, sigNV (.nan x) ||| sigNV (.nan y))
  | .nan x, _ => (.nan false, sigNV (.nan x))
  | _, .nan y => (.nan false, sigNV (.nan y))
  | .inf _, .inf _ => (.nan false, fNV)
  | .inf x, .num n _ _ => (.inf (xor x n), 0)
  | .num n _ _, .inf y => (.num (xor n y) 0 0, 0)
  | .num na ma ea, .num nb mb eb =>
    if mb = 0 then
      if ma = 0 then (.nan false, fNV) else (.inf (xor na nb), fDZ)
    else
      let n := ma * 2 ^ quoBits
      (.num (xor na nb) (2 * (n / mb) + (if n % mb = 0 then 0 else 1)) (ea - eb - quoBits - 1), 0)

/-- Integer square root by bits: the largest r below 2^n with r² ≤ x, given the bits found so far. -/
def isqrtFrom (x r : Nat) : Nat → Nat
  | 0 => r
  | n + 1 => if (r + 2 ^ n) * (r + 2 ^ n) ≤ x then isqrtFrom x (r + 2 ^ n) n else isqrtFrom x r n

/-- √a (R47, R126); the last bit of the mantissa is a sticky bit. -/
def fSqrt (a : FVal) : VRes :=
  match a with
  | .nan x => (.nan false, sigNV (.nan x))
  | .inf false => (.inf false, 0)
  | .inf true => (.nan false, fNV)
  | .num n m e =>
    if m = 0 then (.num n 0 0, 0)
    else if n then (.nan false, fNV)
    else
      let odd := (e % 2).toNat
      let x := m * 2 ^ (odd + quoBits)
      let r := isqrtFrom x 0 ((Nat.log2 x) / 2 + 1)
      (.num false (2 * r + (if r * r = x then 0 else 1)) ((e - odd - quoBits) / 2 - 1), 0)

/-- a × b + d, rounded once by its caller; ∞ × 0 raises NV even when d is a quiet NaN (R126). -/
def fFma (mode : Mode) (a b d : FVal) : VRes :=
  let p := fMul a b
  let r := fAdd mode p.1 d
  (r.1, p.2 ||| r.2)

/-- The order of two numbers or infinities, −0 equal to +0: a < b. -/
def ltVal (a b : FVal) : Bool :=
  match a, b with
  | .inf x, .inf y => x && !y
  | .inf x, .num _ _ _ => x
  | .num _ _ _, .inf y => !y
  | .num na ma ea, .num nb mb eb =>
    let t := min ea eb
    decide (coeff na ma ea t < coeff nb mb eb t)
  | _, _ => false

/-- Equality of two values, −0 equal to +0, NaN unequal to everything. -/
def eqVal (a b : FVal) : Bool := !a.isNan && !b.isNan && !ltVal a b && !ltVal b a

/-- The sign of a value that is not NaN. -/
def FVal.negative : FVal → Bool
  | .nan _ => false
  | .inf n => n
  | .num n _ _ => n

/-- a below b with −0 below +0. -/
def belowVal (a b : FVal) : Bool := ltVal a b || (eqVal a b && a.negative && !b.negative)

/-! ### Operations on encodings -/

/-- How a unit computes: format, rounding mode, whether it flushes subnormal inputs and tiny results (R49). -/
structure FEnv where
  fmt : Fmt
  mode : Mode
  flushIn : Bool
  flushOut : Bool
  deriving DecidableEq, Repr

/-- The value of an operand as the operation reads it (R49). -/
def FEnv.read (v : FEnv) (x : Nat) : FVal :=
  if v.flushIn && v.fmt.subnormal x then .num (v.fmt.neg x) 0 0 else v.fmt.value x

/-- Rounds an exact result (R43) and joins its flags. -/
def FEnv.put (v : FEnv) (r : VRes) : FRes :=
  let x := v.fmt.round v.mode v.flushOut r.1
  (x.1, x.2 ||| r.2)

/-- Sum. -/
def FEnv.add (v : FEnv) (a b : Nat) : FRes := v.put (fAdd v.mode (v.read a) (v.read b))
/-- Difference. -/
def FEnv.sub (v : FEnv) (a b : Nat) : FRes := v.put (fAdd v.mode (v.read a) (v.read b).negate)
/-- Product. -/
def FEnv.mul (v : FEnv) (a b : Nat) : FRes := v.put (fMul (v.read a) (v.read b))
/-- Quotient. -/
def FEnv.div (v : FEnv) (a b : Nat) : FRes := v.put (fDiv (v.read a) (v.read b))
/-- Square root. -/
def FEnv.sqrt (v : FEnv) (a : Nat) : FRes := v.put (fSqrt (v.read a))
/-- ±(a × b) ± d with one rounding. -/
def FEnv.fma (v : FEnv) (negP negD : Bool) (a b d : Nat) : FRes :=
  let x := v.read a
  let y := v.read d
  v.put (fFma v.mode (if negP then x.negate else x) (v.read b) (if negD then y.negate else y))

/-- minimumNumber or maximumNumber (R126): the chosen operand's value in the format, a NaN only when both are;
nothing is rounded, so only a result flush (R49) can raise NX. -/
def FEnv.minMax (v : FEnv) (isMax : Bool) (a b : Nat) : FRes :=
  let x := v.read a
  let y := v.read b
  let fl := sigNV x ||| sigNV y
  let r :=
    if x.isNan && y.isNan then FVal.nan false
    else if x.isNan then y
    else if y.isNan then x
    else if isMax then (if belowVal x y then y else x)
    else if belowVal y x then y
    else x
  v.put (r, fl)

/-- Comparison relations. -/
inductive Rel where
  | eq | lt | le | ne | unord | ord
  deriving DecidableEq, Repr

/-- A compare of two operands: its truth and its flags; lt and le raise NV for any NaN, the others for a signalling NaN
(R47, R126). -/
def FEnv.compare (v : FEnv) (r : Rel) (a b : Nat) : Bool × Nat :=
  let x := v.read a
  let y := v.read b
  let un := x.isNan || y.isNan
  let sig := sigNV x ||| sigNV y
  match r with
  | .eq => (eqVal x y, sig)
  | .ne => (!eqVal x y, sig)
  | .lt => (ltVal x y, if un then fNV else 0)
  | .le => (ltVal x y || eqVal x y, if un then fNV else 0)
  | .unord => (un, sig)
  | .ord => (!un, sig)

/-- The class of an encoding, as the number of its bit (Table 05-5). -/
def Fmt.classOf (f : Fmt) (x : Nat) : Nat :=
  match f.value x with
  | .nan true => 8
  | .nan false => 9
  | .inf true => 0
  | .inf false => 7
  | .num n m _ =>
    if m = 0 then (if n then 3 else 4)
    else if f.subnormal x then (if n then 2 else 5)
    else if n then 1 else 6

/-- An encoding with another sign. -/
def Fmt.withSign (f : Fmt) (x : Nat) (neg : Bool) : Nat := f.enc neg (f.mag x)

/-- An integer as a value. -/
def intVal (x : Int) : FVal := .num (decide (x < 0)) x.natAbs 0

/-- A value rounded to an integer by a mode, and whether that changed it; NaN and infinities have no integer. -/
def toInteger (mode : Mode) : FVal → Option (Int × Bool)
  | .num n m e =>
    let (q, inexact) := roundAt mode n m e 0
    some (if n then -(q : Int) else q, inexact)
  | _ => none

/-- Conversion to an integer between two limits (R127): out of range gives the nearer limit with NV and not NX, and
NaN the maximum. -/
def toInt (mode : Mode) (lo hi : Int) (x : FVal) : Int × Nat :=
  match x with
  | .nan _ => (hi, fNV)
  | .inf n => (if n then lo else hi, fNV)
  | .num _ _ _ =>
    match toInteger mode x with
    | none => (hi, fNV)
    | some (i, inexact) =>
      if i < lo then (lo, fNV) else if hi < i then (hi, fNV) else (i, if inexact then fNX else 0)

/-- The value times 2^k. -/
def FVal.scale (x : FVal) (k : Int) : FVal :=
  match x with
  | .num n m e => .num n m (e + k)
  | y => y

/-! ### Weights (R41, R68) -/

/-- The number of a weight encoding: a raw encoding above 32768 reads as 32768 (R19). -/
def weightNat (q : Nat) : Nat := min (q % 65536) 32768

/-- The value of a weight. -/
def weightVal (q : Nat) : FVal := .num false (weightNat q) (-15)

/-- WeightOf (R68). -/
def weightOf (x : FVal) : Nat :=
  match x with
  | .nan _ => 0
  | .inf n => if n then 0 else 32768
  | .num n m e =>
    if n then 0 else min (roundAt .rne false m (e + 15) 0).1 32768

end Sys2Proof.Machine
end

