-- ==== Sys2Proof/Machine/Operands.lean ====
section
/-! DEFINITION. Vector operands: elements, pair elements, weights and activity (R13, R18 to R20, R35), the writes that
mark VDIRTY and STATUS.VS (R28), the shapes in which element-wise and cross-element instructions write (R160, R162),
and the outcome of a VIQ entry. -/

namespace Sys2Proof.Machine

/-! ### Bits of registers -/

/-- Element i of width `sew` of a register (R18). -/
def getE (r : VBits) (sew i : Nat) : Nat := (r.extractLsb' (sew * i) sew).toNat

/-- A register with element i of width `sew` written (R18). -/
def setE (r : VBits) (sew i x : Nat) : VBits :=
  (r &&& ~~~(BitVec.ofNat 16384 (2 ^ sew - 1) <<< (sew * i))) ||| (BitVec.ofNat 16384 (x % 2 ^ sew) <<< (sew * i))

/-- An element as a signed number. -/
def sgn (sew x : Nat) : Int := (BitVec.ofNat sew x).toInt

/-- The encoding of a number in `sew` bits, modulo 2^sew. -/
def unsgn (sew : Nat) (x : Int) : Nat := (BitVec.ofInt sew x).toNat

/-- SEW of the hart in bits. -/
def Hart.sew (h : Hart) : Nat := sewOf h.csr.vtype


/-- VSTART as a number. -/
def Hart.vstart (h : Hart) : Nat := h.csr.vstart.toNat

/-- VLMAX of the hart (R17). -/
def Hart.vlmax (h : Hart) : Nat := vlmaxOf h.vlrBits h.csr.vtype

/-- The elements that VL names, as a number. DESIGN CHOICE (log entry 11): where VL exceeds VLMAX, elements at or above
VLMAX have no bits in a register (R17, R18), so an instruction neither performs nor writes them. -/
def Hart.vl (h : Hart) : Nat := min h.csr.vl.toNat h.vlmax

/-- VL as its register holds it, for what does not depend on VTYPE (R33): ENQ, FARM and WLOOP (R202, R245). -/
def Hart.rawVl (h : Hart) : Nat := h.csr.vl.toNat

/-- A vector register. -/
def Hart.getV (h : Hart) (n : Reg) : VBits := h.v[n.val]'n.isLt

/-- Elem(v, i) (R35). -/
def Hart.elem (h : Hart) (n : Reg) (i : Nat) : Nat := getE (h.getV n) h.sew i

/-- The second register of a pair (R18). -/
def pairHigh (n : Reg) : Reg := n + 1

/-- ElemW(d, i): element of width 2·SEW of a pair (R35). -/
def Hart.elemW (h : Hart) (n : Reg) (i : Nat) : Nat :=
  let w := 2 * h.sew
  let half := h.vlrBits / w
  if i < half then getE (h.getV n) w i else getE (h.getV (pairHigh n)) w (i - half)

/-- Raw(w, i) (R35). -/
def Hart.rawW (h : Hart) (w : Fin 8) (i : Nat) : Nat :=
  if w = 0 then 32768 else getE (h.w[w.val]'w.isLt) 16 i

/-- Weight(w, i) (R35). -/
def Hart.weight (h : Hart) (w : Fin 8) (i : Nat) : Nat := min (h.rawW w i) 32768

/-- THR as a number. -/
def Hart.thr (h : Hart) : Nat := h.csr.thr.toNat

/-- Active(i, w) (R20, R35). -/
def Hart.active (h : Hart) (w : Fin 8) (i : Nat) : Bool :=
  decide (h.vstart ≤ i) && decide (i < h.vl) && decide (h.thr < h.weight w i)

/-- The active elements, ascending. -/
def Hart.activeList (h : Hart) (w : Fin 8) : List Nat := (List.range h.vl).filter (h.active w)

/-- The elements from VSTART to VL − 1, ascending. -/
def Hart.bodyList (h : Hart) : List Nat := (List.range h.vl).filter fun i => h.vstart ≤ i

/-- The weight register that a register number names, by its low bits (R73). -/
def toW (n : Reg) : Fin 8 := Fin.ofNat 8 n.val

/-! ### Lanes (R12, R13) -/

/-- Lanes of a partition (Table 01-1). -/
def Hart.laneCount (h : Hart) : Nat := 32 / 2 ^ h.csr.status.pmode.toNat

/-- Lane(i) (R13, R35). -/
def Hart.laneOf (h : Hart) (i : Nat) : Nat := h.partition.val * h.laneCount + i % h.laneCount

/-! ### Writes (R28) -/

/-- STATUS.VS after a write of a vector or weight register (R28). -/
def Status.touch (st : Status) : Status := if st.vs = 1 then { st with vs := 2 } else st

/-- The hart with STATUS.VS marked (R28). -/
def Hart.touchVs (h : Hart) : Hart := { h with csr := { h.csr with status := h.csr.status.touch } }

/-- The hart with a vector register written in at least one element (R28). -/
def Hart.putV (h : Hart) (n : Reg) (r : VBits) : Hart :=
  { h with
    v := h.v.set n.val r n.isLt
    csr := { h.csr with vdirty := h.csr.vdirty ||| BitVec.ofNat 32 (2 ^ n.val), status := h.csr.status.touch } }

/-- The hart with a weight register written; a write of w0 is discarded (R19). -/
def Hart.putW (h : Hart) (w : Fin 8) (r : VBits) : Hart :=
  if w = 0 then h else { h with w := h.w.set w.val r w.isLt }.touchVs

/-- SetElem(v, i, x) (R35). -/
def Hart.setElem (h : Hart) (n : Reg) (i x : Nat) : Hart := h.putV n (setE (h.getV n) h.sew i x)

/-- SetElemW(d, i, x) (R35). -/
def Hart.setElemW (h : Hart) (n : Reg) (i x : Nat) : Hart :=
  let w := 2 * h.sew
  let half := h.vlrBits / w
  if i < half then h.putV n (setE (h.getV n) w i x)
  else h.putV (pairHigh n) (setE (h.getV (pairHigh n)) w (i - half) x)

/-- SetWeight(w, i, q) (R35). -/
def Hart.setWeight (h : Hart) (w : Fin 8) (i q : Nat) : Hart :=
  h.putW w (setE (h.w[w.val]'w.isLt) 16 i (min q 32768))

/-! ### Outcome of a VIQ entry -/

/-- What an entry of the VIQ does when it is issued: it completes; traps in the vector class with the state of its
partial effects and stays at the head; completes and leaves the VIQ with a trap to report (R374); has performed some of
its elements, with the entry as that leaves it (R148, R271); waits for entries of the pin table (R271); or cannot go on
yet for another reason. -/
inductive VOut where
  | done (s : State)
  | trap (t : Trap) (s : State)
  | report (t : Trap) (s : State)
  | part (s : State) (e : Held)
  | pinWait
  | wait

/-- An outcome that ends an entry, with its state changed; one that leaves it in flight or waiting is as before. -/
def VOut.mapState (f : State → State) : VOut → VOut
  | .done s => .done (f s)
  | .trap t s => .trap t (f s)
  | .report t s => .report t (f s)
  | .part s e => .part s e
  | .pinWait => .pinWait
  | .wait => .wait

/-- A vector-class trap of an instruction that reports no element (R351). -/
def vTrap (code : Nat) (tval : Word) (cspec : Nat) (s : State) : VOut :=
  .trap { code := code, cls := .vector, tval := tval, taux := mkTaux false cspec 0 0 } s

/-- Results of elements: index, value, flags. -/
abbrev ElemRes := List (Nat × Nat × Nat)

/-- The flags that the elements raised. -/
def raisedOf (r : ElemRes) : Raised := (r.filter fun x => x.2.2 != 0).map fun x => (x.1, x.2.2)

/-- A vector register after elements are written. -/
def setEs (v : VBits) (sew : Nat) (r : ElemRes) : VBits := r.foldl (fun v x => setE v sew x.1 x.2.1) v

/-- The hart with flags raised by elements (R31). -/
def Hart.raiseElems (h : Hart) (r : Raised) : Hart := { h with csr := h.csr.raiseElems h.vstart r }

/-- Elements of vd written with their flags; nothing is marked when no element is written (R28). -/
def Hart.writeElems (h : Hart) (d : Reg) (r : ElemRes) : Hart :=
  let h1 := h.raiseElems (raisedOf r)
  if r.isEmpty then h1 else h1.putV d (setEs (h.getV d) h.sew r)

/-- Weights of wd written through SetWeight, with flags (R195): a write of w0 is discarded after its flags. -/
def Hart.writeWeights (h : Hart) (d : Fin 8) (r : ElemRes) : Hart :=
  let h1 := h.raiseElems (raisedOf r)
  if r.isEmpty then h1
  else h1.putW d (setEs (h.w[d.val]'d.isLt) 16 (r.map fun x => (x.1, min x.2.1 32768, x.2.2)))

/-- An element-wise instruction (R160): each active element of vd receives `f i` with its flags. All sources are those
before the instruction, which is what reading them element by element gives. -/
def elementwise (d : Reg) (w : Fin 8) (f : Nat → Nat × Nat) (s : State) : VOut :=
  .done (s.onHart fun h => h.writeElems d ((h.activeList w).map fun i => (i, f i)))

/-- An element-wise instruction that writes weights (R175, R194). -/
def weightwise (d : Fin 8) (w : Fin 8) (f : Nat → Nat × Nat) (s : State) : VOut :=
  .done (s.onHart fun h => h.writeWeights d ((h.activeList w).map fun i => (i, f i)))

/-- An element-wise instruction that writes a pair (R168). -/
def pairwise (d : Reg) (w : Fin 8) (f : Nat → Nat × Nat) (s : State) : VOut :=
  .done (s.onHart fun h =>
    let r := (h.activeList w).map fun i => (i, f i)
    r.foldl (fun h x => h.setElemW d x.1 x.2.1) (h.raiseElems (raisedOf r)))

/-- The b operand of a vector or .vx form (R161): element i of vb, or the low SEW bits of the captured scalar. -/
def srcB (vx : Bool) (b : Reg) (e : Held) (s : State) (i : Nat) : Nat :=
  if vx then (e.ops.headD 0).toNat % 2 ^ s.hart.sew else s.hart.elem b i

/-- A captured scalar operand. -/
def Held.op (e : Held) (n : Nat) : Word := (e.ops[n]?).getD 0

/-! ### Formats of elements -/

/-- The floating-point format of an element width (R164). -/
def fmtOf (sew : Nat) : Fmt := if sew = 16 then bf16 else if sew = 64 then fp64 else fp32

/-- VTYPE.FLUSH (Table 01-4). -/
def Hart.flush (h : Hart) : Nat := bitsOf h.csr.vtype.toNat 2 2

/-- How a vector floating-point instruction computes by a mode (R49, R164). -/
def Hart.fenv (h : Hart) (mode : Mode) : FEnv :=
  { fmt := fmtOf h.sew, mode := mode, flushIn := h.flush == 1, flushOut := h.flush != 0 }

/-- By FCSR.RM as it stood when the entry was queued (log entry 12). -/
def Held.fenv (e : Held) (h : Hart) : FEnv := h.fenv (modeOf e.rm)

/-- The scale register that VTYPE.KSEL selects, scale j (R22, R53). -/
def Hart.scale (h : Hart) (k : Fin 4) (j : Nat) : Nat := ((h.k[k.val]'k.isLt).extractLsb' (8 * j) 8).toNat

end Sys2Proof.Machine
end

