-- ==== Sys2Proof/Machine/VecInfo.lean ====
section
/-! DEFINITION. What a VIQ entry reads and writes, its pipe, and the conflicts of convoys and of register overlap
(R26, R163, R340, R341). Registers are numbered v0 to v31 as 0 to 31 and w1 to w7 as 33 to 39. -/

namespace Sys2Proof.Machine

/-- Pipes (R340). -/
inductive Pipe where
  | arith | xelem | mem | tile
  deriving DecidableEq, Repr

/-- What the queue and convoy rules need to know of an instruction: source registers with their trap-if-empty bits,
destination registers, whether it reads a pair, whether it is a long-latency producer (R26), its pipe, none for one that
has no pipe, whether it is a V, VM or tile instruction and so a convoy member, and its c and s bits. -/
structure VInfo where
  reads : List (Nat × Bool)
  writes : List Nat
  pair : Bool := false
  longLat : Bool := false
  pipe : Option Pipe
  member : Bool := true
  c : Bool := false
  s : Bool := false

/-- The number of a weight register; w0 has none, because it is always full (R26). -/
def wIdx (w : Fin 8) : List Nat := if w = 0 then [] else [32 + w.val]

/-- A weight source with its trap-if-empty bit. -/
def wSrc (w : Fin 8) (t : Bool) : List (Nat × Bool) := (wIdx w).map (·, t)

/-- A V-format member: class of its destination and sources. -/
structure VShape where
  /-- destination: vector, weight, pair or none -/
  dst : List Nat
  src : List (Nat × Bool)
  pair : Bool := false

/-- vd, va, vb. -/
def sVV (o : VOp) : VShape := { dst := [o.d], src := [(o.a, o.fa), (o.b, o.fb)] }
/-- vd, va. -/
def sV (o : VOp) : VShape := { dst := [o.d], src := [(o.a, o.fa)] }
/-- vd, va, vb with vd read too. -/
def sVVD (o : VOp) : VShape := { dst := [o.d], src := [(o.a, o.fa), (o.b, o.fb), (o.d, false)] }
/-- vd, va with vd read too. -/
def sVD (o : VOp) : VShape := { dst := [o.d], src := [(o.a, o.fa), (o.d, false)] }
/-- A pair destination. -/
def dstPair (o : VOp) : List Nat := [o.d, pairHigh o.d]

/-- Sources and destinations of a V-format member, its activity weight apart. -/
def vShape (o : VOp) (op : VOpc) : VShape :=
  match op with
  | .vadd | .vsub | .vmul | .vmulh | .vmulhu | .vmin | .vmax | .vminu | .vmaxu | .vand | .vor | .vxor | .vsll
  | .vsrl | .vsra | .vdiv | .vdivu | .vrem | .vremu | .vsadd | .vssub | .vsaddu | .vssubu | .vfadd | .vfsub
  | .vfmul | .vfdiv | .vfmin | .vfmax | .vfsgn | .vredsum | .vredmax | .vredmin | .vredmaxu | .vredminu | .vredand
  | .vredor | .vredxor | .vfredsumO | .vfredsumU | .vfredmax | .vfredmin | .vsegscan | .vperm | .join
  | .wdcond => sVV o
  | .vabs | .vmv | .vfsqrt | .vfrece | .vfrsqe | .vfclass | .vfabs | .vfcvtF2i | .vfcvtF2u | .vfcvtI2f | .vfcvtU2f
  | .vfcvtF2iz | .vfcvtF2uz | .vfcvtFrnd | .vfscanO | .vfscanF | .vscan | .vcompress | .vexpand | .vconflict
  | .vmvcmpl | .vprune | .vslideup | .vslidedn | .vaddVx | .vsubVx | .vmulVx | .vmulhVx | .vmulhuVx | .vminVx
  | .vmaxVx | .vminuVx | .vmaxuVx | .vandVx | .vorVx | .vxorVx | .vsllVx | .vsrlVx | .vsraVx | .vdivVx | .vdivuVx
  | .vremVx | .vremuVx | .vsaddVx | .vssubVx | .vsadduVx | .vssubuVx | .vfaddVx | .vfsubVx | .vfmulVx | .vfdivVx
  | .vfminVx | .vfmaxVx => sV o
  | .vfma | .vfms | .vfnma | .vfnms | .jgrad => sVVD o
  | .vfmaVx | .vfmsVx => sVD o
  | .vwmul | .vwmulu => { dst := dstPair o, src := (sVV o).src }
  | .vwmac | .vwmacu | .vwmacsu => { dst := dstPair o, src := (sVV o).src ++ (dstPair o).map (·, false), pair := true }
  | .vwmulVx | .vwmuluVx => { dst := dstPair o, src := (sV o).src }
  | .vwmacVx | .vwmacuVx | .vwmacsuVx => { dst := dstPair o, src := (sV o).src ++ (dstPair o).map (·, false), pair := true }
  | .vnshr | .vnshru => { dst := [o.d], src := (sVV o).src ++ [((pairHigh o.a).val, o.fa)], pair := true }
  | .vnshrVx | .vnshruVx | .vfcvtFnar => { dst := [o.d], src := (sV o).src ++ [((pairHigh o.a).val, o.fa)], pair := true }
  | .vfcvtFwid => { dst := dstPair o, src := (sV o).src }
  | .vcmpEq | .vcmpNe | .vcmpLt | .vcmpGe | .vcmpLtu | .vcmpGeu | .vfcmpEq | .vfcmpLt | .vfcmpLe | .vfcmpNe
  | .vfcmpUnord | .vfcmpOrd => { dst := wIdx (toW o.d), src := (sVV o).src }
  | .vpopcpfx | .viota | .vbcast | .vmvvx | .vqrd => { dst := [o.d], src := [] }
  | .vmvxv => { dst := [], src := (sV o).src }
  | .wcond | .wsig | .wmv => { dst := wIdx (toW o.d), src := (sV o).src }
  | .wnot => { dst := wIdx (toW o.d), src := wSrc (toW o.a) o.fa }
  | .wmul | .wmin | .wmax => { dst := wIdx (toW o.d), src := wSrc (toW o.a) o.fa ++ wSrc (toW o.b) o.fb }
  | .wmvv | .wcnt => { dst := [o.d], src := wSrc (toW o.a) o.fa }
  | .wdsig => { dst := [o.d], src := (sV o).src ++ wSrc (toW o.b) o.fb }
  | .wscale => { dst := [o.d, o.b], src := (sV o).src }

/-- The pipe of a V-format member (R340). -/
def vPipe (op : VOpc) : Pipe :=
  match op with
  | .vredsum | .vredmax | .vredmin | .vredmaxu | .vredminu | .vredand | .vredor | .vredxor | .vfredsumO | .vfredsumU
  | .vfredmax | .vfredmin | .vfscanO | .vfscanF | .vscan | .vsegscan | .vcompress | .vexpand | .vpopcpfx | .vconflict
  | .vprune | .vperm | .vslideup | .vslidedn | .vbcast | .vmvxv | .vmvvx | .viota | .vmvcmpl => .xelem
  | .vqrd => .mem
  | _ => .arith

/-- Sources and destinations of a VM-format member, its activity weight apart. -/
def vmShape (o : VMOp) (op : VMOpc) : VShape :=
  let index := (o.b.val, false)
  match op with
  | .vldUnit | .vldStrided | .vldff => { dst := [o.d], src := [] }
  | .vldIndexed => { dst := [o.d], src := [index] }
  | .vstUnit | .vstStrided | .vstbUnit | .vstbStrided | .vsave => { dst := [], src := [(o.d, false)] }
  | .vstIndexed | .vstbIndexed | .vscaddD | .vscaddU => { dst := [], src := [(o.d, false), index] }
  | .vamoadd | .vamoand | .vamoor | .vamoxor | .vamomin | .vamomax | .vamoswap =>
    { dst := [o.d], src := [(o.d, false), index] }
  | .vldkUnit | .vldkStrided => { dst := [], src := [] }
  | .vrest => { dst := [o.d], src := [] }

/-- Long-latency producers among the VM members: loads, gathers and VAMO (R26). -/
def vmLong (op : VMOpc) : Bool :=
  match op with
  | .vldUnit | .vldStrided | .vldIndexed | .vldff | .vamoadd | .vamoand | .vamoor | .vamoxor | .vamomin | .vamomax
  | .vamoswap => true
  | _ => false

/-- The registers of an ENQ's commands: v[b] and the following ones (R245). -/
def enqRegs (o : EnqOp) : List Nat := (List.range o.grp.count).map (o.b.val + ·)

/-- What the queue and convoy rules need to know of an entry. -/
def vinfo (v : VInstr) : VInfo :=
  let tile (reads : List (Nat × Bool)) (writes : List Nat) (ll c s : Bool) : VInfo :=
    { reads := reads, writes := writes, longLat := ll, pipe := some .tile, c := c, s := s }
  let other : VInfo := { reads := [], writes := [], pipe := none, member := false }
  match v with
  | .v op o =>
    let sh := vShape o op
    { reads := sh.src ++ wSrc o.w false, writes := sh.dst, pair := sh.pair, longLat := op == .vqrd,
      pipe := some (vPipe op), c := o.c, s := o.s }
  | .vm op o =>
    let sh := vmShape o op
    { reads := sh.src ++ wSrc o.w false, writes := sh.dst, longLat := vmLong op, pipe := some .mem, c := o.c, s := o.s }
  | .mtld o => tile [] [] false o.c o.s
  | .mrow o => tile [(o.v, o.fv)] [] false o.c o.s
  | .maclr o => tile [] [] false o.c o.s
  | .mard o => tile (wSrc o.w false) [o.v] true o.c o.s
  | .mawr o => tile ((o.v.val, o.fv) :: wSrc o.w false) [] false o.c o.s
  | .mast o => tile ((if o.mode = .indexed then [(o.v.val, o.fv)] else []) ++ wSrc o.w false) [] false o.c o.s
  | .lacfg o | .lastl o | .lasts o | .latbl o | .laseed o => tile [] [] false o.c o.s
  | .laeval o => tile [(o.v, o.fv)] [o.vd] true o.c o.s
  | .lavote o => tile [(o.v, o.fv)] [o.vd] false o.c o.s
  | .latrain o => tile [(o.v, o.fv)] [] false o.c o.s
  | .lafb o => tile [(o.v, o.fv), (o.vd, false)] [] false o.c o.s
  | .enq o => { other with reads := (enqRegs o).map (·, false), writes := wIdx o.w, longLat := true, pipe := some .mem }
  | .vlsync | .lafence _ | .tlbinv _ | .efence _ | .setvli _ | .setvl _ | .restvq _ => other

/-- Two entries share no register that one of them writes. -/
def apart (p q : VInstr) : Bool :=
  let i := vinfo p
  let j := vinfo q
  let rw (k : VInfo) : List Nat := k.reads.map (·.1) ++ k.writes
  !(i.writes.any (rw j).contains) && !(j.writes.any (rw i).contains)

/-! ### Convoys (R341) -/

/-- The instruction is VLDFF. -/
def isVldff (v : VInstr) : Bool :=
  match v with
  | .vm .vldff _ => true
  | _ => false

/-- The registers that a list of members writes. -/
def memberWrites (ms : List VInstr) : List Nat := ms.flatMap fun m => (vinfo m).writes

/-- The registers that a list of members reads. -/
def memberReads (ms : List VInstr) : List Nat := ms.flatMap fun m => (vinfo m).reads.map (·.1)

/-- The conflict code of a member that joins earlier members, 0 for none (R341, codes 2 to 6). -/
def convoyConflict (ms : List VInstr) (v : VInstr) : Nat :=
  let i := vinfo v
  let w := memberWrites ms
  if 4 ≤ ms.length then 2
  else if ms.any fun m => (vinfo m).pipe == i.pipe then 3
  else if i.writes.any fun r => w.contains r || (memberReads ms).contains r then 4
  else if (i.pipe == some .xelem || i.pipe == some .tile || i.pair) && i.reads.any fun r => w.contains r.1 then 5
  else if ms.any isVldff then 6
  else 0

/-- A set of register numbers as bits. -/
def regSet (l : List Nat) : Nat := l.foldl (fun x n => x ||| 2 ^ n) 0

/-- An entry joins or starts a convoy (R339, R341): the hart's convoy afterwards, the conflict code, and the registers
of earlier members that it may read as they are produced (R26). DESIGN CHOICE (log entry 10): an instruction with c = 1
that no instruction of the hart precedes, which R341 does not name, starts a convoy of its own. -/
def joinConvoy (cv : Option (List VInstr)) (v : VInstr) : Option (List VInstr) × Nat × Nat :=
  let i := vinfo v
  if !i.member then (none, 0, 0)
  else if !i.c then (some [v], 0, 0)
  else match cv with
    | none => (some [v], 1, 0)
    | some [] => (some [v], 0, 0)
    | some ms =>
      let code := convoyConflict ms v
      (some (ms ++ [v]), code, if code = 0 then regSet (memberWrites ms) else 0)

/-! ### Register overlap (R163, R168, R169, R174, R181, R182, R187, R188, R206) -/

/-- The source register whose overlap with the destination the entry forbids, if there is one. DESIGN CHOICE (log entry
55): where va and vb both overlap it, va. -/
def overlapOf (v : VInstr) : Option Nat :=
  let first (l : List Reg) (dst : List Nat) : Option Nat := (l.map (·.val)).find? dst.contains
  match v with
  | .v op o =>
    match op with
    | .vwmul | .vwmulu | .vwmac | .vwmacu | .vwmacsu => first [o.a, o.b] (dstPair o)
    | .vwmulVx | .vwmuluVx | .vwmacVx | .vwmacuVx | .vwmacsuVx | .vfcvtFwid => first [o.a] (dstPair o)
    | .vnshr | .vnshru | .vnshrVx | .vnshruVx | .vfcvtFnar => first [o.a, pairHigh o.a] [o.d]
    | .vcompress | .vexpand | .vslideup | .vslidedn => first [o.a] [o.d]
    | .vperm => first [o.a, o.b] [o.d]
    | .wscale => first [o.b] [o.d]
    | _ => none
  | _ => none

/-! ### Conditions on VTYPE and VSTART (R33, R162, R168, R180) -/

/-- A widening or narrowing member, which is illegal at SEW = 64. -/
def needsPair (op : VOpc) : Bool :=
  match op with
  | .vwmul | .vwmulu | .vwmac | .vwmacu | .vwmacsu | .vnshr | .vnshru | .vwmulVx | .vwmuluVx | .vwmacVx | .vwmacuVx
  | .vwmacsuVx | .vnshrVx | .vnshruVx | .vfcvtFwid | .vfcvtFnar => true
  | _ => false

/-- A cross-element member, which is illegal at VSTART ≠ 0 (R162). -/
def crossElement (op : VOpc) : Bool :=
  match op with
  | .vredsum | .vredmax | .vredmin | .vredmaxu | .vredminu | .vredand | .vredor | .vredxor | .vfredsumO | .vfredsumU
  | .vfredmax | .vfredmin | .vfscanO | .vfscanF | .vscan | .vsegscan | .vcompress | .vexpand | .vpopcpfx | .vconflict
  | .vprune | .vperm | .vslideup | .vslidedn | .wcnt => true
  | _ => false

/-- The entry does not depend on VTYPE (R33). -/
def freeOfVtype (v : VInstr) : Bool :=
  match v with
  | .vlsync | .lafence _ | .tlbinv _ | .efence _ | .setvli _ | .setvl _ | .enq _ | .restvq _ => true
  | _ => false

/-- VLD and VST with fmt FP16 at SEW = 16 are illegal (R52, R150). -/
def fp16AtHalf (h : Hart) (v : VInstr) : Bool :=
  match v with
  | .vm op o =>
    match op with
    | .vldUnit | .vldStrided | .vldIndexed | .vldff | .vstUnit | .vstStrided | .vstIndexed => o.fmt == .fp16 && h.sew == 16
    | _ => false
  | _ => false

/-- ILL of a V or VM member by VTYPE or VSTART. -/
def illByVtype (h : Hart) (v : VInstr) : Bool :=
  !freeOfVtype v && (!vtypeLegal h.csr.vtype ||
    (match v with
      | .v op _ => (needsPair op && h.sew == 64) || (crossElement op && h.vstart != 0)
      | _ => fp16AtHalf h v))

/-- The unordered members, which raise DETVIOL while STATUS.DET is 1 (R154, R180). -/
def unordered (v : VInstr) : Bool :=
  match v with
  | .v .vfredsumU _ | .v .vfscanF _ | .vm .vscaddU _ => true
  | _ => false

end Sys2Proof.Machine
end

