-- ==== Sys2Proof/Machine/VecInt.lean ====
section
/-! DEFINITION. Integer vector instructions (majors 0x10 to 0x17, R165 to R170) and integer compares into weights
(R175). Each takes its captured entry and the state, and serves its vector form and, where it has one, its .vx form
(R161). -/

namespace Sys2Proof.Machine

/-- An element-wise instruction on two operands of width SEW. -/
def vBin (f : Nat → Nat → Nat → Nat × Nat) (vx : Bool) (o : VOp) (e : Held) (s : State) : VOut :=
  elementwise o.d o.w (fun i => f s.hart.sew (s.hart.elem o.a i) (srcB vx o.b e s i)) s

/-- A result without flags. -/
def plain (f : Nat → Nat → Nat → Nat) (n a b : Nat) : Nat × Nat := (f n a b % 2 ^ n, 0)

/-- A function of two signed elements. -/
def signed2 (f : Int → Int → Int) (n a b : Nat) : Nat × Nat := (unsgn n (f (sgn n a) (sgn n b)), 0)

/-- Clamp of an exact result between limits, with SAT when the clamp changes it (R166). -/
def satClamp (n : Nat) (lo hi x : Int) : Nat × Nat :=
  if x < lo then (unsgn n lo, fSAT) else if hi < x then (unsgn n hi, fSAT) else (unsgn n x, 0)

/-- Least signed number of a width. -/
def sMin (n : Nat) : Int := -(2 ^ (n - 1) : Nat)
/-- Greatest signed number of a width. -/
def sMax (n : Nat) : Int := (2 ^ (n - 1) : Nat) - 1
/-- Greatest unsigned number of a width. -/
def uMax (n : Nat) : Int := (2 ^ n : Nat) - 1

/-- VADD (R165). -/
def vaddV : Bool → VOp → Held → State → VOut := vBin (plain fun _ a b => a + b)
/-- VSUB (R165). -/
def vsubV : Bool → VOp → Held → State → VOut := vBin (plain fun n a b => a + (2 ^ n - b))
/-- VMUL (R165). -/
def vmulV : Bool → VOp → Held → State → VOut := vBin (plain fun _ a b => a * b)
/-- VMULH (R165). -/
def vmulhV : Bool → VOp → Held → State → VOut := vBin fun n a b => (unsgn n (sgn n a * sgn n b / (2 ^ n : Nat)), 0)
/-- VMULHU (R165). -/
def vmulhuV : Bool → VOp → Held → State → VOut := vBin (plain fun n a b => a * b / 2 ^ n)
/-- VMIN (R165). -/
def vminV : Bool → VOp → Held → State → VOut := vBin (signed2 fun a b => min a b)
/-- VMAX (R165). -/
def vmaxV : Bool → VOp → Held → State → VOut := vBin (signed2 fun a b => max a b)
/-- VMINU (R165). -/
def vminuV : Bool → VOp → Held → State → VOut := vBin (plain fun _ a b => min a b)
/-- VMAXU (R165). -/
def vmaxuV : Bool → VOp → Held → State → VOut := vBin (plain fun _ a b => max a b)
/-- VAND (R165). -/
def vandV : Bool → VOp → Held → State → VOut := vBin (plain fun _ a b => a &&& b)
/-- VOR (R165). -/
def vorV : Bool → VOp → Held → State → VOut := vBin (plain fun _ a b => a ||| b)
/-- VXOR (R165). -/
def vxorV : Bool → VOp → Held → State → VOut := vBin (plain fun _ a b => a ^^^ b)
/-- VSLL (R165). -/
def vsllV : Bool → VOp → Held → State → VOut := vBin (plain fun n a b => a * 2 ^ (b % n))
/-- VSRL (R165). -/
def vsrlV : Bool → VOp → Held → State → VOut := vBin (plain fun n a b => a / 2 ^ (b % n))
/-- VSRA (R165). -/
def vsraV : Bool → VOp → Held → State → VOut := vBin (fun n a b => (unsgn n (sgn n a / (2 ^ (b % n) : Nat)), 0))
/-- VABS (R165). -/
def vabsV : Bool → VOp → Held → State → VOut := vBin (fun n a _ => (unsgn n (sgn n a).natAbs, 0))
/-- VDIV (R166, R167). -/
def vdivV : Bool → VOp → Held → State → VOut :=
  vBin (fun n a b =>
    if b = 0 then (2 ^ n - 1, fIDZ)
    else if sgn n a = sMin n ∧ sgn n b = -1 then (a, fIOV)
    else (unsgn n ((sgn n a).tdiv (sgn n b)), 0))
/-- VDIVU (R166, R167). -/
def vdivuV : Bool → VOp → Held → State → VOut :=
  vBin fun n a b => if b = 0 then (2 ^ n - 1, fIDZ) else (a / b, 0)
/-- VREM (R166, R167). -/
def vremV : Bool → VOp → Held → State → VOut :=
  vBin (fun n a b =>
    if b = 0 then (a, fIDZ)
    else if sgn n a = sMin n ∧ sgn n b = -1 then (0, fIOV)
    else (unsgn n ((sgn n a).tmod (sgn n b)), 0))
/-- VREMU (R166, R167). -/
def vremuV : Bool → VOp → Held → State → VOut :=
  vBin fun _ a b => if b = 0 then (a, fIDZ) else (a % b, 0)
/-- VSADD (R166). -/
def vsaddV : Bool → VOp → Held → State → VOut := vBin (fun n a b => satClamp n (sMin n) (sMax n) (sgn n a + sgn n b))
/-- VSSUB (R166). -/
def vssubV : Bool → VOp → Held → State → VOut := vBin (fun n a b => satClamp n (sMin n) (sMax n) (sgn n a - sgn n b))
/-- VSADDU (R166). -/
def vsadduV : Bool → VOp → Held → State → VOut := vBin (fun n a b => satClamp n 0 (uMax n) (a + b : Nat))
/-- VSSUBU (R166). -/
def vssubuV : Bool → VOp → Held → State → VOut := vBin (fun n a b => satClamp n 0 (uMax n) ((a : Int) - b))

/-! ### Widening and narrowing (R168, R169) -/

/-- A widening member: `f` gives the new pair element of width 2·SEW from its old value and the two sources. -/
def vWide (f : Nat → Nat → Nat → Nat → Nat) (vx : Bool) (o : VOp) (e : Held) (s : State) : VOut :=
  let n := s.hart.sew
  pairwise o.d o.w (fun i => (f n (s.hart.elemW o.d i) (s.hart.elem o.a i) (srcB vx o.b e s i) % 2 ^ (2 * n), 0)) s

/-- The product of two signed elements as a number of width 2·SEW. -/
def wideS (n a b : Nat) : Nat := unsgn (2 * n) (sgn n a * sgn n b)

/-- The product of a signed and an unsigned element. -/
def wideSU (n a b : Nat) : Nat := unsgn (2 * n) (sgn n a * b)

/-- VWMUL (R168). -/
def vwmulV : Bool → VOp → Held → State → VOut := vWide fun n _ a b => wideS n a b
/-- VWMULU (R168). -/
def vwmuluV : Bool → VOp → Held → State → VOut := vWide fun _ _ a b => a * b
/-- VWMAC (R168). -/
def vwmacV : Bool → VOp → Held → State → VOut := vWide fun n d a b => d + wideS n a b
/-- VWMACU (R168). -/
def vwmacuV : Bool → VOp → Held → State → VOut := vWide fun _ d a b => d + a * b
/-- VWMACSU (R168). -/
def vwmacsuV : Bool → VOp → Held → State → VOut := vWide fun n d a b => d + wideSU n a b

/-- VNSHR (R169). -/
def vnshrV (vx : Bool) (o : VOp) (e : Held) (s : State) : VOut :=
  let n := s.hart.sew
  let sh (i : Nat) : Nat := (if vx then (e.op 0).toNat else s.hart.elem o.b i) % (2 * n)
  elementwise o.d o.w
    (fun i => satClamp n (sMin n) (sMax n) (sgn (2 * n) (s.hart.elemW o.a i) / (2 ^ sh i : Nat))) s

/-- VNSHRU (R169). -/
def vnshruV (vx : Bool) (o : VOp) (e : Held) (s : State) : VOut :=
  let n := s.hart.sew
  let sh (i : Nat) : Nat := (if vx then (e.op 0).toNat else s.hart.elem o.b i) % (2 * n)
  elementwise o.d o.w (fun i => satClamp n 0 (uMax n) (s.hart.elemW o.a i / 2 ^ sh i : Nat)) s

/-- VMV: raw bits (R170). -/
def vmvV (o : VOp) (s : State) : VOut := elementwise o.d o.w (fun i => (s.hart.elem o.a i, 0)) s

/-! ### Compares into weights (R175) -/

/-- An integer compare: the weight 32768 where the relation holds, else 0. -/
def vCmp (f : Nat → Nat → Nat → Bool) (o : VOp) (s : State) : VOut :=
  weightwise (toW o.d) o.w
    (fun i => (if f s.hart.sew (s.hart.elem o.a i) (s.hart.elem o.b i) then 32768 else 0, 0)) s

/-- VCMP.eq (R175). -/
def vcmpEqV : VOp → State → VOut := vCmp fun _ a b => a == b
/-- VCMP.ne (R175). -/
def vcmpNeV : VOp → State → VOut := vCmp fun _ a b => a != b
/-- VCMP.lt (R175). -/
def vcmpLtV : VOp → State → VOut := vCmp fun n a b => decide (sgn n a < sgn n b)
/-- VCMP.ge (R175). -/
def vcmpGeV : VOp → State → VOut := vCmp fun n a b => decide (sgn n b ≤ sgn n a)
/-- VCMP.ltu (R175). -/
def vcmpLtuV : VOp → State → VOut := vCmp fun _ a b => decide (a < b)
/-- VCMP.geu (R175). -/
def vcmpGeuV : VOp → State → VOut := vCmp fun _ a b => decide (b ≤ a)

end Sys2Proof.Machine
end

