-- ==== Sys2Proof/Machine/VecRed.lean ====
section
/-! DEFINITION. Reductions and scans (majors 0x1E and 0x1F, R64 to R67, R177 to R179). A partial result carries the
greatest element index that fed it, which R179 makes the index of a flag that an operation on it raises. -/

namespace Sys2Proof.Machine

/-- Element 0 of vd written, and flags raised, when VL is not 0. -/
def writeFirst (d : Reg) (x : Nat) (r : Raised) (s : State) : VOut :=
  if s.hart.vl = 0 then .done s
  else .done (s.onHart fun h => (h.raiseElems r).setElem d 0 x)

/-- An integer reduction (R177). -/
def vRed (f : Nat → Nat → Nat → Nat) (o : VOp) (s : State) : VOut :=
  let n := s.hart.sew
  writeFirst o.d
    ((s.hart.activeList o.w).foldl (fun r i => f n r (s.hart.elem o.a i) % 2 ^ n) (s.hart.elem o.b 0)) [] s

/-- The choice of a signed comparison. -/
def pickS (less : Bool) (n a b : Nat) : Nat := if decide (sgn n a < sgn n b) == less then a else b

/-- VREDSUM (R177). -/
def vredsumV : VOp → State → VOut := vRed fun _ r x => r + x
/-- VREDMAX (R177). -/
def vredmaxV : VOp → State → VOut := vRed fun n r x => pickS false n r x
/-- VREDMIN (R177). -/
def vredminV : VOp → State → VOut := vRed fun n r x => pickS true n r x
/-- VREDMAXU (R177). -/
def vredmaxuV : VOp → State → VOut := vRed fun _ r x => max r x
/-- VREDMINU (R177). -/
def vredminuV : VOp → State → VOut := vRed fun _ r x => min r x
/-- VREDAND (R177). -/
def vredandV : VOp → State → VOut := vRed fun _ r x => r &&& x
/-- VREDOR (R177). -/
def vredorV : VOp → State → VOut := vRed fun _ r x => r ||| x
/-- VREDXOR (R177). -/
def vredxorV : VOp → State → VOut := vRed fun _ r x => r ^^^ x

/-! ### Floating point -/

/-- A partial result: its encoding and the greatest element index that fed it; none is the empty value of R66. -/
abbrev Part := Option (Nat × Nat)

/-- Combine (R66) by a binary operation, with the flags that the operation raised. -/
def combineBy (f : Nat → Nat → FRes) (a b : Part) : Part × Raised :=
  match a, b with
  | none, y => (y, [])
  | x, none => (x, [])
  | some (x, i), some (y, j) =>
    let r := f x y
    let k := max i j
    (some (r.1, k), if r.2 = 0 then [] else [(k, r.2)])

/-- A left fold of Combine over elements. -/
def foldParts (f : Nat → Nat → FRes) (start : Part) (xs : List (Nat × Nat)) : Part × Raised :=
  xs.foldl (fun (p : Part × Raised) x => let r := combineBy f p.1 (some x); (r.1, p.2 ++ r.2)) (start, [])

/-- The active elements of a register with their indexes: (encoding, index). -/
def activeParts (h : Hart) (a : Reg) (w : Fin 8) : List (Nat × Nat) := (h.activeList w).map fun i => (h.elem a i, i)

/-- The start value of a reduction; it counts as element 0. -/
def startPart (h : Hart) (b : Reg) : Part := some (h.elem b 0, 0)

/-- The encoding of a partial result. -/
def partEnc (p : Part) : Nat := (p.map (·.1)).getD 0

/-- VFREDSUM.o (R65). -/
def vfredsumOV (o : VOp) (e : Held) (s : State) : VOut :=
  let r := foldParts (e.fenv s.hart).add (startPart s.hart o.b) (activeParts s.hart o.a o.w)
  writeFirst o.d (partEnc r.1) r.2 s

/-- Halving: slot i combines with slot i + half. -/
def halve (f : Nat → Nat → FRes) : Nat → List Part → List Part × Raised
  | 0, ps => (ps, [])
  | fuel + 1, ps =>
    if ps.length ≤ 1 then (ps, [])
    else
      let half := ps.length / 2
      let rs := ((ps.take half).zip (ps.drop half)).map fun x => combineBy f x.1 x.2
      let q := halve f fuel (rs.map (·.1))
      (q.1, (rs.map (·.2)).flatten ++ q.2)

/-- VFREDSUM.u: the tree of the partition's lanes (R66). -/
def vfredsumUV (o : VOp) (e : Held) (s : State) : VOut :=
  let add := (e.fenv s.hart).add
  let l := s.hart.laneCount
  let xs := activeParts s.hart o.a o.w
  let stage := (List.range l).map fun k => foldParts add none (xs.filter fun x => x.2 % l = k)
  let q := halve add 6 (stage.map (·.1))
  let r := combineBy add (startPart s.hart o.b) ((q.1.head?).getD none)
  writeFirst o.d (partEnc r.1) ((stage.map (·.2)).flatten ++ q.2 ++ r.2) s

/-- VFREDMAX and VFREDMIN (R178): over the start value alone the result is that of the choice of one number. DESIGN
CHOICE (log entry 21): under FLUSH 01 and 10 every pick counts as a result and is flushed (R49). -/
def vfRedPick (isMax : Bool) (o : VOp) (e : Held) (s : State) : VOut :=
  let v := e.fenv s.hart
  let xs := activeParts s.hart o.a o.w
  if xs.isEmpty then
    let x := v.read (s.hart.elem o.b 0)
    let r := v.put (x, sigNV x)
    writeFirst o.d r.1 (if r.2 = 0 then [] else [(0, r.2)]) s
  else
    let r := foldParts (v.minMax isMax) (startPart s.hart o.b) xs
    writeFirst o.d (partEnc r.1) r.2 s

/-- VFREDMAX (R178). -/
def vfredmaxV : VOp → Held → State → VOut := vfRedPick true
/-- VFREDMIN (R178). -/
def vfredminV : VOp → Held → State → VOut := vfRedPick false

/-! ### Scans -/

/-- A scan's results: its active elements with their partial values. -/
def writeScan (d : Reg) (xs : List (Nat × Nat)) (r : Raised) (s : State) : VOut :=
  .done (s.onHart fun h => (h.raiseElems r).writeElems d (xs.map fun x => (x.1, x.2, 0)))

/-- Running combination of (encoding, index) elements: each index with its prefix, and the flags. -/
def scanFrom (f : Nat → Nat → FRes) (acc : Part) : List (Nat × Nat) → List (Nat × Nat) × Raised
  | [] => ([], [])
  | x :: xs =>
    let r := combineBy f acc (some x)
    let q := scanFrom f r.1 xs
    ((x.2, partEnc r.1) :: q.1, r.2 ++ q.2)

/-- VFSCAN.o (R67). -/
def vfscanOV (o : VOp) (e : Held) (s : State) : VOut :=
  let r := scanFrom (e.fenv s.hart).add none (activeParts s.hart o.a o.w)
  writeScan o.d r.1 r.2 s

/-- One round of the doubling scan at distance d, from the previous values. -/
def doubleRound (f : Nat → Nat → FRes) (d : Nat) (xs : List Part) : List (Part × Raised) :=
  ((List.replicate (min d xs.length) none ++ xs.take (xs.length - d)).zip xs).map fun (x : Part × Part) =>
    combineBy f x.1 x.2

/-- The rounds of the doubling scan at distances d, 2d, 4d … (R67). -/
def doubleScan (f : Nat → Nat → FRes) : Nat → Nat → List Part → List Part × Raised
  | 0, _, xs => (xs, [])
  | fuel + 1, d, xs =>
    if xs.length ≤ d then (xs, [])
    else
      let r := doubleRound f d xs
      let q := doubleScan f fuel (2 * d) (r.map (·.1))
      (q.1, (r.map (·.2)).flatten ++ q.2)

/-- VFSCAN.f (R67). -/
def vfscanFV (o : VOp) (e : Held) (s : State) : VOut :=
  let h := s.hart
  let xs := (List.range h.vl).map fun i => if h.active o.w i then some (h.elem o.a i, i) else none
  let r := doubleScan (e.fenv h).add 11 1 xs
  writeScan o.d ((h.activeList o.w).map fun i => (i, partEnc ((r.1[i]?).getD none))) r.2 s

/-- Running integer sums of (element, index, segment start) triples. -/
def sumFrom (n acc : Nat) : List (Nat × Nat × Bool) → List (Nat × Nat)
  | [] => []
  | (x, i, start) :: xs =>
    let t := ((if start then 0 else acc) + x) % 2 ^ n
    (i, t) :: sumFrom n t xs

/-- Prefix sums of the active elements, from the latest segment start (R178). -/
def intScan (h : Hart) (a : Reg) (w : Fin 8) (start : Nat → Bool) : List (Nat × Nat) :=
  (sumFrom h.sew 0 ((List.range h.vl).map fun i => (if h.active w i then h.elem a i else 0, i, start i))).filter
    fun x => h.active w x.1

/-- VSCAN (R178). -/
def vscanV (o : VOp) (s : State) : VOut := writeScan o.d (intScan s.hart o.a o.w fun _ => false) [] s

/-- VSEGSCAN (R178). -/
def vsegscanV (o : VOp) (s : State) : VOut :=
  writeScan o.d (intScan s.hart o.a o.w fun i => s.hart.elem o.b i != 0) [] s

end Sys2Proof.Machine
end

