-- ==== Sys2Proof/Machine/Frac.lean ====
section
/-! DEFINITION. Weights, joins and gradients (majors 0x27 and 0x28, R193 to R208). Every rounding is RNE. -/

namespace Sys2Proof.Machine

/-- A weight member that reads weights a and b (R199). -/
def wBin (f : Nat → Nat → Nat) (o : VOp) (s : State) : VOut :=
  weightwise (toW o.d) o.w (fun i => (f (s.hart.weight (toW o.a) i) (s.hart.weight (toW o.b) i), 0)) s

/-- WCOND (R197). -/
def wcondV (o : VOp) (s : State) : VOut :=
  weightwise (toW o.d) o.w (fun i =>
    let x := (s.hart.fenv .rne).read (s.hart.elem o.a i)
    (weightOf x, sigNV x)) s

/-! ### The sigmoid (R198) -/

/-- Fraction bits of the exponential. -/
def expBits : Nat := 192

/-- Terms of the series of e^x from the k-th, in units of 2^−192, each from the one before; x is in the same units. -/
def expTerms (x : Nat) : Nat → Nat → Nat → Nat
  | 0, _, _ => 0
  | fuel + 1, k, t => t + expTerms x fuel (k + 1) (t * x / 2 ^ expBits / (k + 1))

/-- The integer nearest 32768 / (1 + e^x) for 0 ≤ x < 12 in units of 2^−192; the error of e^x is below 2^−160, far less
than the distance of any 53-bit input's value from a half integer. -/
def sigmoidNeg (x : Nat) : Nat :=
  let d := 2 ^ expBits + expTerms x 128 0 (2 ^ expBits)
  (2 * 32768 * 2 ^ expBits + d) / (2 * d)

/-- The encoding nearest 32768 · σ(x) (R198, Table 08-3). -/
def sigmoid : FVal → Nat
  | .nan _ => 0
  | .inf n => if n then 0 else 32768
  | .num n m e =>
    let k :=
      if m = 0 ∨ topExp m e < -15 then 16384
      else if 4 ≤ topExp m e then 0
      else if (12 * 2 ^ expBits : Nat) ≤ (roundAt .rtz false m (e + expBits) 0).1 then 0
      else sigmoidNeg (roundAt .rtz false m (e + expBits) 0).1
    if n then k else 32768 - k

/-- WSIG (R198). -/
def wsigV (o : VOp) (s : State) : VOut :=
  weightwise (toW o.d) o.w (fun i =>
    let x := (s.hart.fenv .rne).read (s.hart.elem o.a i)
    (sigmoid x, sigNV x)) s

/-- WNOT (R199). -/
def wnotV : VOp → State → VOut := wBin fun a _ => 32768 - a
/-- WMUL (R199). -/
def wmulV : VOp → State → VOut := wBin fun a b => (roundAt .rne false (a * b) (-15) 0).1
/-- WMIN (R199). -/
def wminV : VOp → State → VOut := wBin fun a b => min a b
/-- WMAX (R199). -/
def wmaxV : VOp → State → VOut := wBin fun a b => max a b

/-- WMV: raw bits into a weight register, with no saturation (R200). -/
def wmvV (o : VOp) (s : State) : VOut :=
  .done (s.onHart fun h =>
    let r := (h.activeList o.w).map fun i => (i, h.elem o.a i % 65536, 0)
    if r.isEmpty then h else h.putW (toW o.d) (setEs (h.w[(toW o.d).val]'(toW o.d).isLt) 16 r))

/-- WMVV: the raw encoding into a vector register (R200). -/
def wmvvV (o : VOp) (s : State) : VOut := elementwise o.d o.w (fun i => (s.hart.rawW (toW o.a) i, 0)) s

/-! ### Joining the arms (R196, R204 to R206) -/

/-- The class of an element by its blend weight (R196). -/
inductive Blend where
  | onlyA | onlyB | blend
  deriving DecidableEq, Repr

/-- R196. -/
def blendClass (thr q : Nat) : Blend :=
  if q ≤ thr then .onlyB else if 32768 - q ≤ thr then .onlyA else .blend

/-- q / 32768 times a value, for 0 < q. -/
def timesWeight (q : Nat) : FVal → FVal
  | .num n m e => .num n (m * q) (e - 15)
  | x => x

/-- The blend of two values with one rounding (R152, R204). -/
def FEnv.blend (v : FEnv) (q : Nat) (a b : FVal) : FRes :=
  v.put (fAdd .rne (timesWeight q a) (timesWeight (32768 - q) b))

/-- Every element from VSTART to VL − 1 written (R196). -/
def bodywise (d : Reg) (f : Nat → Nat × Nat) (s : State) : VOut :=
  .done (s.onHart fun h => h.writeElems d (h.bodyList.map fun i => (i, f i)))

/-- JOIN (R204). -/
def joinV (o : VOp) (s : State) : VOut :=
  let h := s.hart
  let v := h.fenv .rne
  bodywise o.d (fun i =>
    let q := h.weight o.w i
    match blendClass h.thr q with
    | .onlyB => (h.elem o.b i, 0)
    | .onlyA => (h.elem o.a i, 0)
    | .blend => v.blend q (v.read (h.elem o.a i)) (v.read (h.elem o.b i))) s

/-- JGRAD (R205). -/
def jgradV (o : VOp) (s : State) : VOut :=
  let h := s.hart
  let v := h.fenv .rne
  bodywise o.d (fun i =>
    match blendClass h.thr (h.weight o.w i) with
    | .blend =>
      let diff := fAdd .rne (v.read (h.elem o.a i)) (v.read (h.elem o.b i)).negate
      let p := fMul (v.read (h.elem o.d i)) diff.1
      v.put (p.1, p.2 ||| diff.2)
    | _ => (0, fPRUNEZ)) s

/-- The two gradients of WSCALE at an element, with their flags (R206). -/
def wscaleElem (h : Hart) (o : VOp) (i : Nat) : FRes × FRes :=
  let v := h.fenv .rne
  let q := h.weight o.w i
  let g := h.elem o.a i
  match blendClass h.thr q with
  | .onlyB => ((0, 0), (g, 0))
  | .onlyA => ((g, 0), (0, 0))
  | .blend =>
    let x := v.read g
    (v.put (timesWeight q x, sigNV x), v.put (timesWeight (32768 - q) x, sigNV x))

/-- WSCALE (R206): vd and ve, the register of the b field. -/
def wscaleV (o : VOp) (s : State) : VOut :=
  .done (s.onHart fun h =>
    let r := h.bodyList.map fun i => (i, wscaleElem h o i)
    let h1 := h.raiseElems ((r.map fun x => (x.1, x.2.1.2 ||| x.2.2.2)).filter fun x => x.2 != 0)
    let h2 := h1.writeElems o.d (r.map fun x => (x.1, x.2.1.1, 0))
    h2.writeElems o.b (r.map fun x => (x.1, x.2.2.1, 0)))

/-- 0 ≤ c ≤ 1, −0 counting as 0 (R207). -/
def inUnit (c : FVal) : Bool :=
  let zero := FVal.num false 0 0
  let one := FVal.num false 1 0
  !c.isNan && !ltVal c zero && !ltVal one c

/-- WDCOND (R207). -/
def wdcondV (o : VOp) (s : State) : VOut :=
  elementwise o.d o.w (fun i =>
    let c := (s.hart.fenv .rne).read (s.hart.elem o.a i)
    (if inUnit c then s.hart.elem o.b i else 0, sigNV c)) s

/-- WDSIG (R208). -/
def wdsigV (o : VOp) (s : State) : VOut :=
  let v := s.hart.fenv .rne
  elementwise o.d o.w (fun i =>
    let q := s.hart.weight (toW o.b) i
    v.put (fMul (v.read (s.hart.elem o.a i)) (.num false (q * (32768 - q)) (-30)))) s

/-- WCNT (R201). -/
def wcntV (o : VOp) (s : State) : VOut :=
  let h := s.hart
  writeFirst o.d ((h.activeList o.w).filter fun i => h.thr < h.weight (toW o.a) i).length [] s

end Sys2Proof.Machine
end

