-- ==== Sys2Proof/Machine/VecMem.lean ====
section
/-! DEFINITION. Vector memory instructions (majors 0x20 to 0x24 and 0x2A, R143 to R159, R294, R374, R415): locating
elements, chunks, element faults, demotion and restart, and the members. -/

namespace Sys2Proof.Machine

/-! ### Locating elements (R143, R144) -/

/-- Bits of a memory element of a format (R143). -/
def memBits (sew : Nat) : VmFmt → Nat
  | .native => sew
  | .fp16 => 16
  | .e4m3 | .e5m2 | .s8 | .z8 => 8
  | .e2m1 | .s4 => 4

/-- Modes of Table R143. -/
inductive MemMode where
  | unit | strided | indexed
  deriving DecidableEq, Repr

/-- m(i): the memory element number of register element i; `stride` is g[b] and `vb` the index register (R143). -/
def memElem (h : Hart) (mode : MemMode) (stride : Word) (vb : Reg) (i : Nat) : Int :=
  match mode with
  | .unit => i
  | .strided => i * stride.toInt
  | .indexed => sgn h.sew (h.elem vb i)

/-- Address of memory element m of `bits` bits from a base (R143). -/
def memAddr (base : Word) (bits : Nat) (m : Int) : Word :=
  base + BitVec.ofInt 64 (if bits = 4 then m / 2 else m * (bits / 8 : Nat))

/-- The bytes that a memory element touches. -/
def memBytes (bits : Nat) : Nat := if bits = 4 then 1 else bits / 8

/-- The agent of an entry: the hart with the privilege at which the entry was queued and its pinned translations. -/
def Held.agent (e : Held) (h : Hart) : Agent := { h.agent with sup := e.priv, pins := e.pins }

/-! ### Chunks (R146) -/

/-- The page of an address for the count of a chunk, by log2 of its size and its number; window addresses count toward
no page, and an address that does not translate stands for the 64 KiB around it. -/
def pageKey (s : State) (ag : Agent) (va : Word) : Option (Nat × Nat) :=
  if 0xFFF0000000000 ≤ va.toNat then none
  else match findLeaf s ag va.toNat with
    | .leaf x => some (x.bits, x.page)
    | _ => some (16, va.toNat / 2 ^ 16)

/-- Elements split into chunks of at most 64 distinct pages (R146). -/
def chunksFrom (key : Nat → Option (Nat × Nat)) : List Nat → List (Nat × Nat) → List Nat → List (List Nat)
  | [], _, cur => if cur.isEmpty then [] else [cur.reverse]
  | i :: is, pages, cur =>
    match key i with
    | none => chunksFrom key is pages (i :: cur)
    | some p =>
      if pages.contains p then chunksFrom key is pages (i :: cur)
      else if pages.length < 64 then chunksFrom key is (p :: pages) (i :: cur)
      else cur.reverse :: chunksFrom key is [p] [i]

/-- The hotness counter of a mode (R282): 0 unit, 1 strided, 2 indexed. -/
def MemMode.hot : MemMode → Nat
  | .unit => 0
  | .strided => 1
  | .indexed => 2

/-! ### The procedure of R147 -/

/-- Which of its elements a vector memory instruction may have performed at a stop (R148, R152, R153, R155, R294). -/
inductive Progress where
  /-- a prefix in ascending index: unit and strided modes, VLDK, VSAVE and VREST; reads that have not been written to
  the destination do not count (R293) -/
  | rising
  /-- any set: gathers and scatters -/
  | free
  /-- of elements that reach one location the lower ones first: indexed read-modify-writes -/
  | ranked
  deriving DecidableEq, Repr

/-- How one instruction accesses its elements. -/
structure ElemRun where
  /-- the weight register, w0 for an instruction without weights -/
  w : Fin 8
  /-- the elements to perform, ascending -/
  elems : List Nat
  /-- the lowest address of element i -/
  va : Nat → Word
  /-- the bytes of an element -/
  len : Nat
  kind : Kind
  /-- only targets in this module's LPDDR6 are reached (R153, R154) -/
  ddrOnly : Bool
  /-- a later fault shortens VL instead of trapping (R151) -/
  firstFault : Bool
  /-- the counter of the hotness word that the elements add to (R282) -/
  hot : Nat
  progress : Progress
  /-- elements may be read before they take effect: the elements of a load, and those of a VSTB (R152, R293) -/
  readsEarly : Bool
  /-- the effect of an element on the state, given its targets and the value that it has read early, and the flags that
  it raises -/
  perform : State → Nat → List Target → Option Nat → State × Nat

/-- The outcome of the checks of a chunk. -/
structure Scan where
  st : State
  /-- elements that perform, with their targets -/
  good : List (Nat × List Target)
  fault : Option (Nat × MemFault)
  wait : Bool
  /-- an element of this instruction has been demoted -/
  demoted : Bool

/-- Demote(i) (R147): `vs0` is the VSTART with which the instruction began, `first` its first demotion. -/
def Hart.demote (h : Hart) (w : Fin 8) (vs0 : Nat) (first : Bool) (i : Nat) : Hart :=
  let h1 := h.setWeight w i 0
  let c := h1.csr
  let fd := c.firstdem.toNat
  { h1 with csr := { (c.count evDemote 1) with
      demoted := if c.demoted = BitVec.allOnes 32 then c.demoted else c.demoted + 1
      firstdem := if first && (vs0 == 0 || fd == 0xFFF || decide (vs0 ≤ fd)) then BitVec.ofNat 12 i else c.firstdem } }

/-- The access check of one element: the state that its translations leave with its targets, a fault, or a line that an
engine owns. -/
def checkElem (r : ElemRun) (ag : Agent) (s : State) (i : Nat) : Acc (State × List Target) :=
  match access s ag (.element (s.hart.laneOf i)) r.kind (r.va i) r.len with
  | .fault f u => .fault f u
  | .wait => .wait
  | .ok (s1, ts) =>
    if r.ddrOnly && !(ts.all fun t => match t with | .mem l => decide (l < lpddrEnd) | _ => false) then
      .fault { cause := .access, addr := r.va i } s1
    else if r.kind != .store && ts.any s1.badTarget then .fault { cause := .mchk, addr := r.va i } s1
    else .ok (s1, ts)

/-- Checks the elements of a chunk in ascending order (R147); `any` says that an element below has been accepted. A
machine check is no element fault that a VLDFF ends at (R146, log entry 54). -/
def scanChunk (r : ElemRun) (ag : Agent) (vs0 : Nat) : List Nat → Scan → Bool → Scan
  | [], sc, _ => { sc with good := sc.good.reverse }
  | i :: is, sc, any =>
    match checkElem r ag sc.st i with
    | .wait => { sc with wait := true }
    | .ok (s1, ts) => scanChunk r ag vs0 is { sc with st := s1, good := (i, ts) :: sc.good } true
    | .fault f s1 =>
      if r.firstFault && any then { sc with st := s1, good := sc.good.reverse, fault := some (i, f) }
      else if s1.hart.csr.fracctl = 1 ∧ s1.hart.weight r.w i < 32768 ∧ f.cause ≠ .mchk then
        scanChunk r ag vs0 is
          { sc with st := s1.onHart fun h => h.demote r.w vs0 (!sc.demoted) i, demoted := true } any
      else { sc with st := s1, good := sc.good.reverse, fault := some (i, f) }

/-- The kind field of WATCHHIT (R373). -/
def watchKind : Kind → BitVec 2
  | .load | .fetch => 1
  | .store => 2
  | .rmw => 3

/-- An element's hit joins the record of the instruction, which keeps that of the lowest element (R374). -/
def Hart.addHit (h : Hart) (i : Nat) (va : Word) (k : BitVec 2) : Hart :=
  { h with watchHit := match h.watchHit with
      | none => some (i, va, k, false)
      | some (j, a, k0, more) =>
        if i = j then some (j, a, k0, more) else if i < j then some (i, va, k, true) else some (j, a, k0, true) }

/-- The hit of a spill frame's header, which every restart of its instruction reaches again (R158, R374). -/
def Hart.addHeadHit (h : Hart) (base : Word) (k : BitVec 2) : Hart :=
  match h.watchHit with
  | some (_, a, _, _) => if a = base then h else h.addHit h.vstart base k
  | none => h.addHit h.vstart base k

/-- The value of an element that has been read early. -/
def Held.earlyOf (e : Held) (i : Nat) : Option Nat := (e.early.find? (·.1 == i)).map (·.2)

/-- The elements of a tagged entry that have performed join its sample's mask (R377). -/
def State.markSample (s : State) (e : Held) (m : BitVec 1024) : State :=
  if e.tagged then s.onHart fun h => { h with tag := h.tag.map fun t => { t with mask := t.mask ||| m } } else s

/-- A set of elements as bits. -/
def elemSet (l : List Nat) : BitVec 1024 := l.foldl (fun m i => m ||| BitVec.ofNat 1024 (2 ^ i)) 0

/-- Performs accepted elements in ascending order. -/
def performEach (r : ElemRun) (e : Held) (user : Bool) : List (Nat × List Target) → State × Raised → State × Raised
  | [], x => x
  | (i, ts) :: rest, (s, fl) =>
    let hit := user && ts.any s.watchedTarget
    let q := r.perform s i ts (e.earlyOf i)
    let s1 := if hit then q.1.onHart fun h => h.addHit i (r.va i) (watchKind r.kind) else q.1
    performEach r e user rest (s1.countHot r.hot ts, if q.2 = 0 then fl else fl ++ [(i, q.2)])

/-- Performs accepted elements, which a sample of the entry marks. -/
def performAll (r : ElemRun) (e : Held) (user : Bool) (go : List (Nat × List Target)) (x : State × Raised) :
    State × Raised :=
  let p := performEach r e user go x
  (p.1.markSample e (elemSet (go.map (·.1))), p.2)

/-- Outcome of running every chunk: the state and flags, and the fault that ended it. -/
inductive RunRes where
  | all (s : State) (fl : Raised)
  | fault (s : State) (fl : Raised) (i : Nat) (f : MemFault)
  | wait

/-- Runs the chunks in order (R147). -/
def runChunks (r : ElemRun) (e : Held) (ag : Agent) (vs0 : Nat) : List (List Nat) → State × Raised → Bool → Bool → RunRes
  | [], (s, fl), _, _ => .all s fl
  | c :: cs, (s, fl), demoted, any =>
    let sc := scanChunk r ag vs0 c { st := s, good := [], fault := none, wait := false, demoted := demoted } any
    if sc.wait then .wait
    else
      let p := performAll r e (!ag.sup) sc.good (sc.st, fl)
      match sc.fault with
      | some (i, f) => .fault p.1 p.2 i f
      | none => runChunks r e ag vs0 cs p sc.demoted (any || !sc.good.isEmpty)

/-- TAUX of an element fault (R147). -/
def elemTaux (f : MemFault) (w : Fin 8) (i : Nat) : Word := mkTaux true f.cause.cspec w.val i

/-- The trap of an element fault, with VSTART at the element (R147). -/
def elemTrap (s : State) (w : Fin 8) (i : Nat) (f : MemFault) : VOut :=
  .trap { code := f.cause.code, cls := .vector, tval := f.addr, taux := elemTaux f w i }
    ((s.mchkMessage f).onCsr fun c => { c with vstart := BitVec.ofNat 11 i })

/-- WATCHHIT of an instruction whose elements have all performed (R374); `masked` marks an instruction whose elements
do not end at VL, so that its thawed head performs none of them. -/
def finishHits (w : Fin 8) (masked : Bool) (s : State) : VOut :=
  match s.hart.watchHit with
  | none => .done s
  | some (i, va, k, more) =>
    .trap { code := cWATCHHIT, cls := .vector, tval := va
            taux := mkTaux true (k.toNat + (if more then 256 else 0)) w.val i }
      (s.onHart fun h => { h with
        watchHit := none
        mask := if masked then BitVec.allOnes 1024 else h.mask
        maskValid := masked || h.maskValid
        csr := { h.csr with vstart := h.csr.vl } })

/-- A VLDFF that ends early sets VL, which is a vector-length-setting event (R151, R379). -/
def shortenVl (e : Held) (n : Nat) (s : State) : State :=
  (s.onCsr fun c => { c with vl := BitVec.ofNat 11 n }).stripTurn e.pc (!e.priv)

/-- The elements of a chunk's accepted ones that a turn performs, when it names a set (R148). -/
def ElemRun.chosen (r : ElemRun) (m : BitVec 1024) (good : List (Nat × List Target)) : List (Nat × List Target) :=
  let goes (x : Nat × List Target) (y : Nat × List Target) : Bool :=
    m.getLsbD y.1 && (match r.progress with
      | .free => x.1 == y.1
      | .rising => decide (x.1 ≤ y.1)
      | .ranked => x.1 == y.1 || (decide (x.1 < y.1) && x.2 == y.2))
  good.filter fun x => good.any (goes x)

/-- The elements of a chunk's accepted ones that a turn reads early: those of its set that have not been read and that
reach no location of an earlier element still to perform (R152, R293). -/
def ElemRun.toRead (r : ElemRun) (e : Held) (m : BitVec 1024) (good : List (Nat × List Target)) :
    List (Nat × List Target) :=
  good.filter fun x => m.getLsbD x.1 && (e.earlyOf x.1).isNone &&
    (r.kind == .load || good.all fun y => decide (x.1 ≤ y.1) || y.2 != x.2)

/-- Entries of a core's pin table in use (R271). -/
def State.pinsUsed (s : State) (core : Nat) : Nat :=
  (((s.hart :: s.others).filter fun h => h.run != .vacant && coreOf h.csr.hartid == core).map fun h =>
    (h.entries.map (·.pins.length)).sum).sum

/-- A hart may take entries of its core's pin table: they are free, and no hart asked earlier (R271). -/
def State.pinsFree (s : State) (e : Held) (n : Nat) : Bool :=
  let core := coreOf s.hart.csr.hartid
  let q := (s.coreSt core).pinQueue
  decide (s.pinsUsed core - e.pins.length + n ≤ 64) &&
    (match q with
      | [] => true
      | id :: _ => id == s.hart.csr.hartid)

/-- The distinct pages of some elements. -/
def chunkPages (s : State) (ag : Agent) (va : Nat → Word) (c : List Nat) : List (Nat × Nat) :=
  (c.filterMap fun i => pageKey s ag (va i)).eraseDups

/-- The translations pinned for a chunk (R271). -/
def chunkPins (s : State) (ag : Agent) (va : Nat → Word) (c : List Nat) : List Xlat :=
  (c.filterMap fun i =>
    if 0xFFF0000000000 ≤ (va i).toNat then none
    else match findLeaf s ag (va i).toNat with
      | .leaf x => some x
      | _ => none).eraseDups

/-- Chunks of an instruction's elements (R146). -/
def ElemRun.chunks (r : ElemRun) (ag : Agent) (s : State) : List (List Nat) :=
  chunksFrom (fun i => pageKey s ag (r.va i)) r.elems [] []

/-- The pages that the largest chunk of an instruction pins. -/
def ElemRun.pinNeed (r : ElemRun) (ag : Agent) (s : State) : Nat :=
  ((r.chunks ag s).map fun c => (chunkPages s ag r.va c).length).foldl max 0

/-- VSTART with which an entry's present issue began. -/
def Held.began (e : Held) (h : Hart) : Nat := if e.flying then e.first.toNat else h.vstart

/-- Flags that some elements of an entry have raised join those that its earlier elements have (R31). -/
def State.raiseFor (s : State) (e : Held) (vs0 : Nat) (fl : Raised) : State :=
  if fl.isEmpty then s else s.onHart fun h => { h with csr := h.csr.raiseElems vs0 (e.raised ++ fl) }

/-- The number at an element's targets in memory. -/
def readTargets (s : State) (ag : Agent) (ts : List Target) : Nat := leNat (ts.map (targetByte s ag))

/-- The lane group of element i (R12, R13). -/
def Hart.laneGroup (h : Hart) (i : Nat) : Nat := h.laneOf i / 4

/-- The number that an element reads, after the writes of its lane group to its location (R289 row 2). -/
def readElem (s : State) (ag : Agent) (i : Nat) (ts : List Target) : State × Nat :=
  let t := s.after (some (s.hart.laneGroup i)) ts
  (t, readTargets t ag ts)

/-- The number that an element has: the one that it has read early, or what it reads now. -/
def valueOf (s : State) (ag : Agent) (i : Nat) (ts : List Target) (early : Option Nat) : State × Nat :=
  match early with
  | some x => (s, x)
  | none => readElem s ag i ts

/-- Reads elements early, in ascending order. -/
def readEach (ag : Agent) : List (Nat × List Target) → State × List (Nat × Nat) → State × List (Nat × Nat)
  | [], x => x
  | (i, ts) :: rest, (s, l) =>
    let q := readElem s ag i ts
    readEach ag rest (q.1, l ++ [(i, q.2)])

/-- The checks of the chunk that an entry performs next, none when it has no element left. -/
def ElemRun.nextScan (r : ElemRun) (e : Held) (ag : Agent) (s : State) : Option (List Nat × Scan) :=
  match r.chunks ag s with
  | [] => none
  | c :: _ => some (c, scanChunk r ag (e.began s.hart) c
      { st := s, good := [], fault := none, wait := false, demoted := e.demoted } (e.done != 0))

/-- Some elements of the first chunk are read and perform no more than that (R293); none where the instruction may not
read early. -/
def fetchRun (r : ElemRun) (e : Held) (m : BitVec 1024) (s : State) : Option VOut :=
  let ag := e.agent s.hart
  if !r.readsEarly then none
  else (r.nextScan e ag s).map fun x =>
    if x.2.wait then .wait
    else
      let p := readEach ag (r.toRead e m x.2.good) (x.2.st, [])
      .part p.1 { e with early := e.early ++ p.2, demoted := x.2.demoted, pins := chunkPins s ag r.va x.1 }

/-- Some elements of the first chunk perform (R148): those that a set names and that R148 lets a stop find performed.
None when every element has performed or a fault stands first among them, so that the instruction runs to its end. -/
def partRun (r : ElemRun) (e : Held) (m : BitVec 1024) (s : State) : Option VOut :=
  let ag := e.agent s.hart
  match r.nextScan e ag s with
  | none => none
  | some (c, sc) =>
    if sc.wait then some .wait
    else
      let go := r.chosen m sc.good
      let p := performAll r e (!ag.sup) go (sc.st, [])
      let left := r.elems.filter fun i =>
        !(go.any (·.1 == i)) && (r.w == 0 || decide (p.1.hart.thr < p.1.hart.weight r.w i))
      match left with
      | [] => none
      | n :: _ =>
        if sc.good.isEmpty && sc.fault.isSome then none
        else some (.part (p.1.raiseFor e (e.began s.hart) p.2)
          { e with
            done := e.done ||| elemSet (go.map (·.1))
            restart := some (BitVec.ofNat 11 n)
            pins := chunkPins s ag r.va c
            raised := e.raised ++ p.2
            demoted := sc.demoted
            early := e.early.filter fun x => !go.any fun y => y.1 == x.1 })

/-- What the turn of an entry does with some of its elements, if it names a set of them. -/
def turnRun (r : ElemRun) (e : Held) (s : State) : Option VOut :=
  e.part.bind fun m => if e.reading then some ((fetchRun r e m s).getD .wait) else partRun r e m s

/-- An instruction that runs by R147, to its end or by the elements that its turn names. `finish` is what follows its
last element. -/
def elementRun (r : ElemRun) (e : Held) (masked : Bool) (finish : State → State) (s : State) : VOut :=
  let ag := e.agent s.hart
  let vs0 := e.began s.hart
  if !s.pinsFree e (r.pinNeed ag s) then .pinWait
  else match turnRun r e s with
  | some o => o
  | none =>
    match runChunks r e ag vs0 (r.chunks ag s) (s, []) e.demoted (e.done != 0) with
    | .wait => .wait
    | .all s1 fl => finishHits r.w masked (finish (s1.raiseFor e vs0 fl))
    | .fault s1 fl i f =>
      let s2 := s1.raiseFor e vs0 fl
      let started := r.elems.any fun j => decide (j < i) && (decide (s1.hart.weight r.w j ≠ 0) || r.w == 0)
      if r.firstFault && (started || e.done != 0) && f.cause != .mchk then
        finishHits r.w masked (finish (shortenVl e i s2))
      else elemTrap s2 r.w i f

/-- An entry that is in flight, or stopped part-way, has still to perform element i (R148, R149). -/
def Held.owes (e : Held) (i : Nat) : Bool :=
  !e.done.getLsbD i && (match e.restart with
    | some r => decide (r.toNat ≤ i)
    | none => true)

/-- The active elements that an entry has still to perform (R149). -/
def Hart.pendingElems (h : Hart) (e : Held) (w : Fin 8) : List Nat :=
  (h.activeList w).filter fun i => !(h.maskValid && h.mask.getLsbD i) && e.owes i

/-! ### Conversion (R52 to R55) -/

/-- The floating-point formats of memory (R86). -/
def vmFloat : VmFmt → Option Fmt
  | .fp16 => some Sys2Proof.Machine.fp16
  | .e4m3 => some Sys2Proof.Machine.e4m3
  | .e5m2 => some Sys2Proof.Machine.e5m2
  | .e2m1 => some Sys2Proof.Machine.e2m1
  | _ => none

/-- VTYPE.BLK (Table 01-4). -/
def Hart.blk (h : Hart) : Nat := bitsOf h.csr.vtype.toNat 4 3

/-- The scale that applies to element i, if one does (R53). -/
def Hart.elemScale (h : Hart) (f : VmFmt) (i : Nat) : Option Nat :=
  if h.blk = 0 then none
  else match f with
    | .e4m3 | .e5m2 | .e2m1 => some (h.scale (Fin.ofNat 4 (bitsOf h.csr.vtype.toNat 7 2)) (i / 2 ^ h.blk))
    | _ => none

/-- Limits of the integer memory formats (Table 02-1). -/
def vmIntLimits : VmFmt → Int × Int
  | .s8 => (-128, 127)
  | .z8 => (0, 255)
  | _ => (-8, 7)

/-- Widen (R52, R53): the register element of a memory element, with its flags. -/
def widen (h : Hart) (f : VmFmt) (i raw : Nat) : Nat × Nat :=
  match f with
  | .native => (raw, 0)
  | .s8 => (unsgn h.sew (sgn 8 raw), 0)
  | .s4 => (unsgn h.sew (sgn 4 raw), 0)
  | .z8 => (raw, 0)
  | .fp16 | .e4m3 | .e5m2 | .e2m1 =>
    let src := (vmFloat f).getD Sys2Proof.Machine.fp16
    let dst := fmtOf h.sew
    let x := src.value raw
    match h.elemScale f i with
    | none => ((dst.round .rne false x).1, sigNV x)
    | some k => if k = 0xFF then (dst.nan, 0) else dst.round .rne false (x.scale ((k : Int) - 127))

/-- Narrow to a floating-point memory format (R54). -/
def narrowFloat (dst : Fmt) (two : Bool) (x : FVal) : Nat × Nat :=
  match x with
  | .nan _ => if two then (0, fNV) else (dst.nan, sigNV x)
  | .inf n => if dst.ieee then (dst.enc n dst.infMag, 0) else (dst.enc n dst.maxMag, fOF ||| fNX)
  | .num n m e =>
    let r := dst.roundNum .rne false n m e
    if r.2 &&& fOF = 0 then r else (dst.enc n dst.maxMag, fOF ||| fNX)

/-- Narrow (R54, R55): the memory element of a register element, with its flags. -/
def narrow (h : Hart) (f : VmFmt) (i x : Nat) : Nat × Nat :=
  match f with
  | .native => (x, 0)
  | .s8 | .z8 | .s4 =>
    let lim := vmIntLimits f
    let v := sgn h.sew x
    let y := max lim.1 (min lim.2 v)
    (unsgn (memBits h.sew f) y, if y = v then 0 else fSAT)
  | .fp16 | .e4m3 | .e5m2 | .e2m1 =>
    let dst := (vmFloat f).getD Sys2Proof.Machine.fp16
    let v := (fmtOf h.sew).value x
    match h.elemScale f i with
    | none => narrowFloat dst (f == .e2m1) v
    | some k =>
      if k = 0xFF then
        let r := narrowFloat dst (f == .e2m1) (.nan false)
        (r.1, r.2 ||| sigNV v)
      else narrowFloat dst (f == .e2m1) (v.scale (127 - (k : Int)))

/-! ### Loads and stores (R150, R151) -/

/-- The memory element in the bytes read: the low or high nibble for 4-bit elements (R143). -/
def pickElem (bits : Nat) (m : Int) (raw : Nat) : Nat := if bits = 4 then raw / 2 ^ (4 * (m % 2).toNat) % 16 else raw

/-- The bytes after a memory element is stored. -/
def placeElem (bits : Nat) (m : Int) (old x : Nat) : Nat :=
  if bits = 4 then (if (m % 2).toNat = 0 then old / 16 * 16 + x % 16 else x % 16 * 16 + old % 16) else x

/-- The bits of its byte that a memory element leaves (R145). -/
def elemKeep (bits : Nat) (m : Int) : Byte := if bits = 4 then (if (m % 2).toNat = 0 then 0xF0 else 0x0F) else 0

/-- Bytes of an element are sent: they join their lane group's store queue where writes may wait (R289 row 3), and are
written otherwise. -/
def State.sendBytes (s : State) (ag : Agent) (va : Word) (i : Nat) (kind : PendKind) (keep : Byte) (ts : List Target)
    (queued now : List Byte) : State :=
  if s.loose then s.queueWrite ag (some (s.hart.laneGroup i)) kind keep va ts queued else storeBytes s ag ts now

/-- How the elements of a store stand to one another where they write one location (R294): the place that element j
writes. -/
def storePlace (s : State) (ag : Agent) (va : Nat → Word) (keep : Nat → Byte) (j : Nat) : Option (Target × Byte) :=
  match Machine.translate s ag (.element (s.hart.laneOf j)) .store (va j) with
  | .ok (_, t) => some (t, keep j)
  | _ => none

/-- Some element above i of a list writes the place that element i writes. -/
def outranked (place : Nat → Option (Target × Byte)) (i : Nat) (l : List Nat) : Bool :=
  (place i).isSome && l.any fun j => decide (i < j) && place j == place i

/-- A waiting write of a store to the place of a higher element of the same instruction is not performed (R294). -/
def Hart.dropHeld (h : Hart) (pc : Word) (locs : List Nat) (keep : Byte) : Hart :=
  { h with pend := h.pend.filter fun p => !(p.kind == .held pc && p.locs == locs && p.keep == keep) }

/-- A store element is sent. Its write is suppressed where a higher element of the same issue has performed, and waits
for the instruction's end where one has still to perform (R294); `above` says which. -/
def State.sendElem (s : State) (ag : Agent) (pc va : Word) (i bits : Nat) (m : Int) (suppressed above : Bool)
    (ts : List Target) (x : Nat) : State :=
  if suppressed then s
  else
    let n := memBytes bits
    let keep := elemKeep bits m
    (s.onHart (·.dropHeld pc (ts.filterMap Target.loc?) keep)).sendBytes ag va i (if above then .held pc else .plain) keep ts
      (leBytes n (if bits = 4 then x % 16 * 17 else x)) (leBytes n (placeElem bits m (readTargets s ag ts) x))

/-- A store has ended: its elements that waited for a higher one wait no more, and have performed where writes do not
wait (R294). -/
def State.endStore (pc : Word) (s : State) : State :=
  let t := s.onHart (·.releaseHeld (· == pc))
  if s.loose then t else t.flushLanes

/-- A misaligned base (R144). -/
def misaligned (base : Word) (s : State) : VOut := vTrap cACCESS base 0 s

/-- A load (R150); `mode` is its mode, and the base and stride were captured. -/
def vLoad (mode : MemMode) (firstFault : Bool) (o : VMOp) (e : Held) (s : State) : VOut :=
  let h := s.hart
  let base := e.op 0
  let bits := memBits h.sew o.fmt
  let m := memElem h mode (e.op 1) o.b
  if base.toNat % memBytes bits ≠ 0 then misaligned base s
  else
    let ag := e.agent h
    elementRun
      { w := o.w, elems := h.pendingElems e o.w, va := fun i => memAddr base bits (m i), len := memBytes bits,
        kind := .load, ddrOnly := false, firstFault := firstFault, hot := mode.hot,
        progress := if mode = .indexed then .free else .rising, readsEarly := true,
        perform := fun s i ts early =>
          let r := valueOf s ag i ts early
          let x := widen h o.fmt i (pickElem bits (m i) r.2)
          (r.1.onHart fun g => g.putV o.d (setE (g.getV o.d) h.sew i x.1), x.2) }
      e false id s

/-- A store: `src` gives the register element (R150, R226). Each element converts its value (R415), and where several
write one location the highest leaves its own (R294). -/
def vStore (mode : MemMode) (fmt : VmFmt) (w : Fin 8) (vb : Reg) (elems : List Nat) (src : Nat → Nat) (e : Held)
    (s : State) : VOut :=
  let h := s.hart
  let base := e.op 0
  let bits := memBits h.sew fmt
  let m := memElem h mode (e.op 1) vb
  let va (i : Nat) : Word := memAddr base bits (m i)
  if base.toNat % memBytes bits ≠ 0 then misaligned base s
  else
    let ag := e.agent h
    let place (t : State) : Nat → Option (Target × Byte) := storePlace t ag va fun j => elemKeep bits (m j)
    let gone := (List.range 1024).filter e.done.getLsbD
    elementRun
      { w := w, elems := elems, va := va, len := memBytes bits, kind := .store, ddrOnly := false, firstFault := false,
        hot := mode.hot, progress := if mode = .indexed then .free else .rising, readsEarly := false,
        perform := fun s i ts _ =>
          let x := narrow h fmt i (src i)
          let left := elems.filter fun j => w == 0 || decide (s.hart.thr < s.hart.weight w j)
          (s.sendElem ag e.pc (va i) i bits (m i) (outranked (place s) i gone) (outranked (place s) i left) ts x.1, x.2) }
      e false id s |>.mapState (State.endStore e.pc)

/-- VLD unit (R150). -/
def vldUnitV : VMOp → Held → State → VOut := vLoad .unit false
/-- VLD strided (R150). -/
def vldStridedV : VMOp → Held → State → VOut := vLoad .strided false
/-- VLD indexed (R150). -/
def vldIndexedV : VMOp → Held → State → VOut := vLoad .indexed false
/-- VLDFF (R151). -/
def vldffV : VMOp → Held → State → VOut := vLoad .unit true

/-- VST by a mode (R150). -/
def vstBy (mode : MemMode) (o : VMOp) (e : Held) (s : State) : VOut :=
  vStore mode o.fmt o.w o.b (s.hart.pendingElems e o.w) (s.hart.elem o.d) e s

/-- VST unit (R150). -/
def vstUnitV : VMOp → Held → State → VOut := vstBy .unit
/-- VST strided (R150). -/
def vstStridedV : VMOp → Held → State → VOut := vstBy .strided
/-- VST indexed (R150). -/
def vstIndexedV : VMOp → Held → State → VOut := vstBy .indexed

/-! ### Read-modify-writes (R152 to R154) -/

/-- The writes that a read-modify-write of an element comes after perform: those of its lane group, and the write of a
VSTB element to its location (R152, R289 rows 2 and 3). -/
def State.afterLane (s : State) (i : Nat) (ts : List Target) : State :=
  s.flush fun p => p.lane == some (s.hart.laneGroup i) || (p.kind == .blend && p.touches ts)

/-- A run whose elements read and write memory: `perform` is the effect of an element. -/
def rmwRun (h : Hart) (mode : MemMode) (w : Fin 8) (va : Nat → Word) (elems : List Nat) (ddr : Bool)
    (perform : State → Nat → List Target → Option Nat → State × Nat) : ElemRun :=
  { w := w, elems := elems, va := va, len := h.sew / 8, kind := .rmw, ddrOnly := ddr, firstFault := false,
    hot := mode.hot, progress := if mode = .indexed then .ranked else .rising, readsEarly := !ddr, perform := perform }

/-- The write of a VSTB element, whose read has performed: another access of the hart does not come between them, while
for other agents they are two accesses (R152). A write of the hart to the same location that still waits on another path
comes after both. -/
def State.sendBlend (s : State) (ag : Agent) (va : Word) (i : Nat) (ts : List Target) (bs : List Byte) : State :=
  if s.loose && !s.hart.pend.any (·.touches ts) then s.queueWrite ag (some (s.hart.laneGroup i)) .blend 0 va ts bs
  else writeTargets (s.afterLane i ts) ts bs

/-- VSTB by a mode (R152). -/
def vstbBy (mode : MemMode) (o : VMOp) (e : Held) (s : State) : VOut :=
  let h := s.hart
  let base := e.op 0
  let ag := e.agent h
  let m := memElem h mode (e.op 1) o.b
  let va (i : Nat) : Word := memAddr base h.sew (m i)
  let v : FEnv := ⟨fmtOf h.sew, .rne, false, false⟩
  let value (i old : Nat) : Nat × Nat :=
    let q := h.weight o.w i
    let x := h.elem o.d i
    if 32768 - q ≤ h.thr then (x, 0) else v.blend q (v.read x) (v.read old)
  if base.toNat % (h.sew / 8) ≠ 0 then misaligned base s
  else
    elementRun
      (rmwRun h mode o.w va (h.pendingElems e o.w) false fun s i ts early =>
        let r := valueOf s ag i ts early
        let x := value i r.2
        (r.1.sendBlend ag (va i) i ts (leBytes (h.sew / 8) x.1), x.2))
      e false id s

/-- VSTB unit (R152). -/
def vstbUnitV : VMOp → Held → State → VOut := vstbBy .unit
/-- VSTB strided (R152). -/
def vstbStridedV : VMOp → Held → State → VOut := vstbBy .strided
/-- VSTB indexed (R152). -/
def vstbIndexedV : VMOp → Held → State → VOut := vstbBy .indexed

/-- VAMO: the old value returns to vd (R153). -/
def vAmo (f : Nat → Nat → Nat → Nat) (o : VMOp) (e : Held) (s : State) : VOut :=
  let h := s.hart
  let base := e.op 0
  let ag := e.agent h
  let m := memElem h .indexed 0 o.b
  if base.toNat % (h.sew / 8) ≠ 0 then misaligned base s
  else
    elementRun
      (rmwRun h .indexed o.w (fun i => memAddr base h.sew (m i)) (h.pendingElems e o.w) true fun s i ts _ =>
        let t := s.afterLane i ts
        let old := readTargets t ag ts
        let u := writeTargets t ts (leBytes (h.sew / 8) (f h.sew old (h.elem o.d i) % 2 ^ h.sew))
        (u.onHart fun g => g.putV o.d (setE (g.getV o.d) h.sew i old), 0))
      e false id s

/-- VAMOADD (R153). -/
def vamoaddV : VMOp → Held → State → VOut := vAmo fun _ a b => a + b
/-- VAMOAND (R153). -/
def vamoandV : VMOp → Held → State → VOut := vAmo fun _ a b => a &&& b
/-- VAMOOR (R153). -/
def vamoorV : VMOp → Held → State → VOut := vAmo fun _ a b => a ||| b
/-- VAMOXOR (R153). -/
def vamoxorV : VMOp → Held → State → VOut := vAmo fun _ a b => a ^^^ b
/-- VAMOMIN (R153). -/
def vamominV : VMOp → Held → State → VOut := vAmo fun n a b => pickS true n a b
/-- VAMOMAX (R153). -/
def vamomaxV : VMOp → Held → State → VOut := vAmo fun n a b => pickS false n a b
/-- VAMOSWAP (R153). -/
def vamoswapV : VMOp → Held → State → VOut := vAmo fun _ _ b => b

/-! ### Scatter-add (R154, R155) -/

/-- One update: mem := RoundNE(mem + x) at a location, with its flags. -/
def applyUpdate (s : State) (r : Replay) : State × Nat :=
  let v : FEnv := ⟨fmtOf r.sew, .rne, false, false⟩
  let x := v.add (readNat s.mem r.loc (r.sew / 8)) r.addend
  (s.putBytes r.loc (leBytes (r.sew / 8) x.1), x.2)

/-- Updates applied in order, with the flags by element. -/
def applyUpdates : List Replay → State × Raised → State × Raised
  | [], x => x
  | r :: rs, (s, fl) =>
    let q := applyUpdate s r
    applyUpdates rs (q.1, if q.2 = 0 then fl else fl ++ [(r.elem, q.2)])

/-- The rank of an update: how many of the updates before it reach the same location (R155). -/
def rankOf (before : List Replay) (r : Replay) : Nat := (before.filter fun b => b.loc = r.loc).length

/-- Updates split into the next group, whose ranks are below 16 per location, and the rest (R155). -/
def splitGroup : List Replay → List Replay → List Replay → List Replay × List Replay
  | [], now, later => (now.reverse, later.reverse)
  | r :: rs, now, later =>
    if rankOf now r < 16 then splitGroup rs (r :: now) later else splitGroup rs now (r :: later)

/-- One group of a VSCADD.d is sent and applies, and the hart keeps the updates that remain (R155). -/
def replayGroup (x : State × Raised) : State × Raised :=
  let g := splitGroup x.1.hart.replay [] []
  let y := applyUpdates g.1 x
  (y.1.onHart fun h => { h with replay := g.2 }, y.2)

/-- Groups until none is left; at most 64 groups of 16 make 1,024 elements. -/
def replayAll : Nat → State × Raised → State × Raised
  | 0, x => x
  | fuel + 1, x => if x.1.hart.replay.isEmpty then x else replayAll fuel (replayGroup x)

/-- A key orders the updates of VSCADD.u, which apply in any order (R154): insertion by key. -/
def insertBy (key : Nat → Nat) (r : Replay) : List Replay → List Replay
  | [] => [r]
  | x :: xs => if key r.elem < key x.elem then r :: x :: xs else x :: insertBy key r xs

/-- VSCADD (R154): accepted elements become updates, which apply at the memory-side reduction unit, .d by rank and .u in
an open order. -/
def vScadd (ordered : Bool) (o : VMOp) (e : Held) (s : State) : VOut :=
  let h := s.hart
  let base := e.op 0
  let vs0 := e.began h
  let ag := e.agent h
  let m := memElem h .indexed 0 o.b
  let va (i : Nat) : Word := memAddr base h.sew (m i)
  let toUpdate (ts : List Target) (i : Nat) : Replay :=
    { loc := ((ts.head?.bind Target.loc?).getD 0), elem := i, addend := h.elem o.d i, sew := h.sew }
  let r : ElemRun :=
    { w := o.w, elems := h.pendingElems e o.w, va := va, len := h.sew / 8, kind := .rmw, ddrOnly := true,
      firstFault := false, hot := 2, progress := if ordered then .ranked else .free, readsEarly := false,
      perform := fun s i ts _ =>
        ((s.afterLane i ts).onHart fun g => { g with replay := g.replay ++ [toUpdate ts i] }, 0) }
  let settle (s : State) : State × Raised :=
    let us := s.hart.replay
    let key := Config.orderKey s.fresh
    let y :=
      if ordered then replayAll 64 (s, [])
      else applyUpdates (us.foldl (fun l x => insertBy key x l) [])
        ({ s with fresh := s.fresh + 1, hart := { s.hart with replay := [] } }, [])
    (y.1.raiseFor e vs0 y.2, y.2)
  if base.toNat % (h.sew / 8) ≠ 0 then misaligned base s
  else if !s.pinsFree e (r.pinNeed ag s) then .pinWait
  else match turnRun r e s with
  | some (.part t e1) =>
    let y := settle t
    .part y.1 { e1 with raised := e.raised ++ y.2 }
  | some x => x
  | none =>
    match runChunks r e ag vs0 (r.chunks ag s) (s, []) e.demoted (e.done != 0) with
    | .wait => .wait
    | .all s1 _ => finishHits o.w false (settle s1).1
    | .fault s1 _ i f => elemTrap (settle s1).1 o.w i f

/-- VSCADD.d (R154, R155). -/
def vscaddDV : VMOp → Held → State → VOut := vScadd true
/-- VSCADD.u (R154). -/
def vscaddUV : VMOp → Held → State → VOut := vScadd false

/-- The head has performed all of its elements before a WATCHHIT, so a thaw only completes it (R374). -/
def Hart.allDone (h : Hart) : Bool := h.maskValid && h.mask == BitVec.allOnes 1024

/-! ### Scale loads (R156) -/

/-- A scale register with scale j written (R22). -/
def setScale (r : BitVec 2048) (j x : Nat) : BitVec 2048 :=
  (r &&& ~~~(BitVec.ofNat 2048 255 <<< (8 * j))) ||| (BitVec.ofNat 2048 (x % 256) <<< (8 * j))

/-- VLDK: bytes j from VSTART to 255 (R156). -/
def vLdk (strided : Bool) (o : VMOp) (e : Held) (s : State) : VOut :=
  let h := s.hart
  let k : Fin 4 := Fin.ofNat 4 o.d.val
  let ag := e.agent h
  if h.allDone then .done s
  else elementRun
    { w := 0, elems := (List.range 256).filter fun j => decide (h.vstart ≤ j) && e.owes j,
      va := fun j => e.op 0 + (if strided then BitVec.ofNat 64 j * e.op 1 else BitVec.ofNat 64 j),
      len := 1, kind := .load, ddrOnly := false, firstFault := false, hot := if strided then 1 else 0,
      progress := .rising, readsEarly := true,
      perform := fun s j ts early =>
        let r := valueOf s ag j ts early
        (r.1.onHart fun g => { g with k := g.k.set k.val (setScale (g.k[k.val]'k.isLt) j r.2) k.isLt }, 0) }
    e true id s

/-- VLDK unit (R156). -/
def vldkUnitV : VMOp → Held → State → VOut := vLdk false
/-- VLDK strided (R156). -/
def vldkStridedV : VMOp → Held → State → VOut := vLdk true

/-! ### Register save and restore (R157 to R159) -/

/-- The spill frame's header (Table 06-2). -/
def frameHeader (h : Hart) : List Byte :=
  leBytes 2 h.vl ++ leBytes 2 h.csr.vtype.toNat ++ leBytes 1 (h.sew / 8) ++ leBytes 11 0

/-- VSAVE (R158). -/
def vsaveV (o : VMOp) (e : Held) (s : State) : VOut :=
  let h := s.hart
  let base := e.op 0
  let ag := e.agent h
  let n := h.sew / 8
  if h.allDone then .done s
  else if base.toNat % 16 ≠ 0 then misaligned base s
  else match access s ag (.element (h.laneOf h.vstart)) .store base 16 with
    | .fault f u => elemTrap u 0 h.vstart f
    | .wait => .wait
    | .ok (s1, ts) =>
      let s2 := if e.restart.isSome then s1
        else s1.sendBytes ag base h.vstart .plain 0 ts (frameHeader h) (frameHeader h)
      let s3 := if !ag.sup && ts.any s1.watchedTarget then s2.onHart fun g => g.addHeadHit base 2 else s2
      elementRun
        { w := 0, elems := h.bodyList.filter e.owes, va := fun i => base + BitVec.ofNat 64 (16 + n * i),
          len := n, kind := .store, ddrOnly := false, firstFault := false, hot := 0, progress := .rising,
          readsEarly := false,
          perform := fun s i ts _ =>
            let bs := leBytes n (h.elem o.d i)
            (s.sendBytes ag (base + BitVec.ofNat 64 (16 + n * i)) i .plain 0 ts bs bs, 0) }
        e true id s3

/-- A spill frame's header is malformed (R159). -/
def headerBad (h : Hart) (bs : List Byte) : Bool :=
  let esz := ((bs[4]?).getD 0).toNat
  let vl := leNat (bs.take 2)
  (esz != 2 && esz != 4 && esz != 8) || decide (h.vlrBits < vl * (8 * esz)) || (bs.drop 5).any (· != 0)

/-- The low bits of a register kept and the others cleared. -/
def keepLow (r : VBits) (n : Nat) : VBits := r &&& BitVec.ofNat 16384 (2 ^ n - 1)

/-- The bytes of a structure that an element access reads (R289 row 2). -/
def loadLane (s : State) (ag : Agent) (i : Nat) (va : Word) (n : Nat) : Acc Done :=
  match access s ag (.element (s.hart.laneOf i)) .load va n with
  | .fault f u => .fault f u
  | .wait => .wait
  | .ok (s1, ts) =>
    if ts.any s1.badTarget then .fault { cause := .mchk, addr := va } s1
    else
      let t := s1.after (some (s.hart.laneGroup i)) ts
      .ok { st := t, data := ts.map (targetByte t ag), hit := ts.any s1.watchedTarget, targets := ts }

/-- VREST (R159). DESIGN CHOICE (log entry 44): a fault on the header reports element VSTART, as R158 has it for
VSAVE. -/
def vrestV (o : VMOp) (e : Held) (s : State) : VOut :=
  let h := s.hart
  let base := e.op 0
  let ag := e.agent h
  if h.allDone then .done s
  else if base.toNat % 16 ≠ 0 then misaligned base s
  else match loadLane s ag h.vstart base 16 with
    | .fault f u => elemTrap u 0 h.vstart f
    | .wait => .wait
    | .ok r =>
      if headerBad h r.data then vTrap cILL (heldWord e.instr) 1 r.st
      else
        let esz := ((r.data[4]?).getD 0).toNat
        let vl := leNat (r.data.take 2)
        let s1 := if !ag.sup && r.hit then r.st.onHart fun g => g.addHeadHit base 1 else r.st
        elementRun
          { w := 0, elems := (List.range vl).filter fun i => decide (h.vstart ≤ i) && e.owes i,
            va := fun i => base + BitVec.ofNat 64 (16 + esz * i), len := esz, kind := .load, ddrOnly := false,
            firstFault := false, hot := 0, progress := .rising, readsEarly := true,
            perform := fun s i ts early =>
              let r := valueOf s ag i ts early
              (r.1.onHart fun g => g.putV o.d (setE (g.getV o.d) (8 * esz) i r.2), 0) }
          e true (fun s => s.onHart fun g => g.putV o.d (keepLow (g.getV o.d) (8 * esz * vl))) s1

end Sys2Proof.Machine
end

