-- ==== Sys2Proof/Machine/Tile.lean ====
section
/-! DEFINITION. The stationary tile engine (tmaj 0x00 to 0x02, R24, R25, R56 to R63, R211 to R227). -/

namespace Sys2Proof.Machine

/-! ### Formats and shapes (Table 02-8, Table 09-1) -/

/-- STSTAT code of a slot format (Table 01-4). -/
def tileCode : TileFmt → BitVec 4
  | .bf16 => 1
  | .e4m3 => 2
  | .e5m2 => 3
  | .e2m1 => 4
  | .s8 => 5
  | .z8 => 6
  | .s4 => 7
  | .fp32 => 8
  | .fp64 => 9

/-- The format of an STSTAT code; 0 is an empty slot. -/
def tileOfCode (c : BitVec 4) : Option TileFmt :=
  match c.toNat with
  | 1 => some .bf16
  | 2 => some .e4m3
  | 3 => some .e5m2
  | 4 => some .e2m1
  | 5 => some .s8
  | 6 => some .z8
  | 7 => some .s4
  | 8 => some .fp32
  | 9 => some .fp64
  | _ => none

/-- K and N (Table 09-1). -/
def tileShape : TileFmt → Nat × Nat
  | .e4m3 | .e5m2 | .s8 | .z8 => (256, 256)
  | .e2m1 | .s4 => (512, 256)
  | .bf16 => (256, 128)
  | .fp32 => (128, 128)
  | .fp64 => (64, 128)

/-- Bits of a tile element. -/
def tileBits : TileFmt → Nat
  | .e4m3 | .e5m2 | .s8 | .z8 => 8
  | .e2m1 | .s4 => 4
  | .bf16 => 16
  | .fp32 => 32
  | .fp64 => 64

/-- SEW of the A register (Table 02-8). -/
def tileSew : TileFmt → Nat
  | .fp32 => 32
  | .fp64 => 64
  | _ => 16

/-- Whether A is broadcast by bit-planes (Table 02-8). -/
def tilePlanes : TileFmt → Bool
  | .e4m3 | .e5m2 | .e2m1 | .bf16 => true
  | _ => false

/-- The floating-point format of a slot, or none for integers. -/
def tileFloat : TileFmt → Option Fmt
  | .bf16 => some Sys2Proof.Machine.bf16
  | .e4m3 => some Sys2Proof.Machine.e4m3
  | .e5m2 => some Sys2Proof.Machine.e5m2
  | .e2m1 => some Sys2Proof.Machine.e2m1
  | .fp32 => some Sys2Proof.Machine.fp32
  | .fp64 => some Sys2Proof.Machine.fp64
  | .s8 | .z8 | .s4 => none

/-! ### The state of the engine -/

/-- A slot of a core. -/
def CoreSt.slot (c : CoreSt) (n : Fin 2) : Slot := if n = 0 then c.slot0 else c.slot1

/-- A core with a slot replaced. -/
def CoreSt.setSlot (c : CoreSt) (n : Fin 2) (x : Slot) : CoreSt :=
  if n = 0 then { c with slot0 := x } else { c with slot1 := x }

/-- The hart's core. -/
def State.core (s : State) : Nat := coreOf s.hart.csr.hartid

/-- B(k, n) as it stands in a slot, by rows of N elements. -/
def slotElem (s : State) (core : Nat) (slot : Fin 2) (f : TileFmt) (k n : Nat) : Nat :=
  let i := k * (tileShape f).2 + n
  let b := tileBits f
  if b = 4 then
    (readByte s.slots (slotLoc core slot (i / 2))).toNat / 2 ^ (4 * (i % 2)) % 16
  else readNat s.slots (slotLoc core slot (i * (b / 8))) (b / 8)

/-- Element e of `bits` bits of an accumulator row. -/
def accElem (s : State) (core : Nat) (tile : Fin 4) (row bits e : Nat) : Nat :=
  readNat s.acc (accLoc core tile row (e * (bits / 8))) (bits / 8)

/-- The state with consecutive bytes of an accumulator tile, from a row on, replaced in one step (R222). -/
def State.setAcc (s : State) (core : Nat) (tile : Fin 4) (row : Nat) (bs : List Byte) : State :=
  { s with acc := replaceBytes s.acc (accLoc core tile row 0) bs }

/-- The state with some elements of an accumulator row written (R222, R225). -/
def State.setAccElems (s : State) (core : Nat) (tile : Fin 4) (row bits : Nat) (xs : List (Nat × Nat)) : State :=
  { s with acc := xs.foldl (fun m x => writeNat m (accLoc core tile row (x.1 * (bits / 8))) (bits / 8) x.2) s.acc }

/-! ### Matrix numerics (R57 to R61) -/

/-- The elements of a register and of the slot at k, for the elements that form products. -/
structure TileArgs where
  fmt : TileFmt
  /-- A(k) as the STE uses it -/
  a : Nat → Nat
  /-- B(k, n) in the slot -/
  b : Nat → Nat → Nat
  /-- the scale of B at k, if the slot keeps scales -/
  scale : Nat → Option Nat
  kmax : Nat

/-- A BF16 element with its low four significand bits cleared; infinities and NaNs pass unchanged (R57). -/
def fourPlanes (x : Nat) : Nat := if bitsOf x 7 8 = 255 then x else x / 16 * 16

/-- Clearing the low four significand bits loses a 1 (R57). -/
def planeLoss (x : Nat) : Bool := fourPlanes x != x

/-- B as a value, with its scale (R217). -/
def TileArgs.bVal (t : TileArgs) (f : Fmt) (k n : Nat) : FVal :=
  match t.scale k with
  | none => f.value (t.b k n)
  | some x => if x = 0xFF then .nan false else (f.value (t.b k n)).scale ((x : Int) - 127)

/-- Exponent of the largest-magnitude nonzero product. -/
def blockExp : List FVal → Option Int
  | [] => none
  | .num _ m e :: xs =>
    let rest := blockExp xs
    if m = 0 then rest
    else match rest with
      | none => some (topExp m e)
      | some y => some (max y (topExp m e))
  | _ :: xs => blockExp xs

/-- A product truncated toward zero to a multiple of 2^t, in units of 2^t (R58). -/
def truncTo (t : Int) : FVal → Int
  | .num n m e =>
    let q := (roundAt .rtz n m e t).1
    if n then -(q : Int) else q
  | _ => 0

/-- The block sum before its rounding (R58 to R60); `depth` is 48, or 112 for FP64. -/
def blockValue (depth : Nat) (ps : List FVal) : FVal :=
  let pos := ps.any fun p => p == .inf false
  let neg := ps.any fun p => p == .inf true
  if ps.any FVal.isNan || (pos && neg) then .nan false
  else if pos then .inf false
  else if neg then .inf true
  else match blockExp ps with
    | none => .num (ps.all fun p => p.negative) 0 0
    | some e =>
      let t := e - depth
      let x := ps.foldl (fun a p => a + truncTo t p) 0
      .num (decide (x < 0)) x.natAbs t

/-- BlockSum and AccAdd in a floating-point accumulator format (R58, R59). -/
def accAddFloat (acc : Fmt) (depth : Nat) (c : Nat) (ps : List FVal) : Nat :=
  let sum := acc.ne (blockValue depth ps)
  acc.ne (fAdd .rne (acc.value c) (acc.value sum)).1

/-- The k of a block that form products. -/
def blockKs (len kmax b : Nat) : List Nat := (List.range (min len (kmax - b * len))).map (b * len + ·)

/-- Element n of the row after MROW, for floating-point B (R217). -/
def TileArgs.rowFloat (t : TileArgs) (f : Fmt) (c n : Nat) : Nat :=
  let wide := t.fmt == .fp64
  let acc := if wide then fp64 else fp32
  let len := if wide then 4 else 16
  let aFmt := fmtOf (tileSew t.fmt)
  (List.range ((t.kmax + len - 1) / len)).foldl (fun c b =>
    accAddFloat acc (if wide then 112 else 48) c
      ((blockKs len t.kmax b).map fun k => (fMul (aFmt.value (t.a k)) (t.bVal f k n)).1)) c

/-- An integer B element (Table 02-1). -/
def tileInt (f : TileFmt) (x : Nat) : Int :=
  match f with
  | .z8 => x
  | .s4 => sgn 4 x
  | _ => sgn 8 x

/-- A saturating INT32 addition: the sum and whether it saturated (R61). -/
def satAdd32 (c : Int) (x : Int) : Int × Bool :=
  let y := c + x
  if y < -2 ^ 31 then (-2 ^ 31, true) else if 2 ^ 31 - 1 < y then (2 ^ 31 - 1, true) else (y, false)

/-- Element n of the row after MROW, for integer B, and whether an addition saturated (R61). -/
def TileArgs.rowInt (t : TileArgs) (c n : Nat) : Nat × Bool :=
  let r := (List.range ((t.kmax + 15) / 16)).foldl (fun (p : Int × Bool) b =>
    let sum := (blockKs 16 t.kmax b).foldl (fun x k => x + sgn 16 (t.a k) * tileInt t.fmt (t.b k n)) (0 : Int)
    let q := satAdd32 p.1 sum
    (q.1, p.2 || q.2)) (sgn 32 c, false)
  (unsgn 32 r.1, r.2)

/-! ### The tile queues (R219 to R223) -/

/-- The STE takes an instruction by way of its queues (R220). -/
def forEngine (v : VInstr) : Bool :=
  match v with
  | .mtld _ | .mrow _ | .maclr _ | .mard _ | .mawr _ | .mast _ => true
  | _ => false

/-- The queue of an instruction: an MROW names it, and the others enter the high queue (R220). -/
def highQueue (v : VInstr) : Bool :=
  match v with
  | .mrow o => o.q
  | _ => true

/-- The row that an accumulator instruction or an MROW uses (R91). -/
def Held.tileRow (e : Held) : Nat :=
  match e.instr with
  | .mrow o => o.row.val + (e.op 0).toNat
  | .mard o | .mawr o => o.row.val + (e.op 0).toNat
  | .mast o => o.row.val + (e.op 2).toNat
  | .maclr o => o.row.val
  | _ => 0

/-- The accumulator rows that an entry names: the tile, the first row and their number (R219). -/
def Held.tileRows (e : Held) : Option (Fin 4 × Nat × Nat) :=
  match e.instr with
  | .mrow o => some (o.acc, e.tileRow, 1)
  | .mard o | .mawr o | .mast o => some (o.acc, e.tileRow, 1)
  | .maclr o => some (o.acc, e.tileRow, o.n.val + 1)
  | _ => none

/-- The slot that an entry names (R219). -/
def Held.tileSlot (e : Held) : Option (Fin 2) :=
  match e.instr with
  | .mrow o => some o.slot
  | .mtld o => some o.slot
  | _ => none

/-- Two entries name a common accumulator row. -/
def sharesRow (p q : Held) : Bool :=
  match p.tileRows, q.tileRows with
  | some (t, r, n), some (u, k, m) => t == u && decide (r < k + m) && decide (k < r + n)
  | _, _ => false

/-- Two entries name the same slot. -/
def sharesSlot (p q : Held) : Bool :=
  match p.tileSlot, q.tileSlot with
  | some a, some b => a == b
  | _, _ => false

/-- The instruction is a MAST. -/
def isMast (v : VInstr) : Bool :=
  match v with
  | .mast _ => true
  | _ => false

/-- The instruction is a step of the array. -/
def isStep (v : VInstr) : Bool :=
  match v with
  | .latrain _ | .lafb _ => true
  | _ => false

/-- The later of two tile instructions of a hart waits until the earlier one has completed (R219), also where it
writes a register that the earlier one still has to read; so do the element writes of two MASTs (R298), and two steps of
the array (R240). -/
def staysBehind (p q : Held) : Bool :=
  sharesRow p q || sharesSlot p q || (isMast p.instr && isMast q.instr) || (isStep p.instr && isStep q.instr) ||
    (vinfo q.instr).writes.any fun n => (vinfo p.instr).reads.any (·.1 == n)

/-- The requests of a list whose waits under R219 are over, in program order. -/
def freeRequests : List TileReq → List TileReq → List TileReq
  | _, [] => []
  | before, q :: rest =>
    let r := freeRequests (before ++ [q]) rest
    if before.any fun p => staysBehind p.entry q.entry then r else q :: r

/-- The requests of a hart whose waits under R219 are over. -/
def Hart.readyTiles (h : Hart) : List TileReq := freeRequests [] h.tiles

/-- An entry may leave the VIQ while an earlier request of its hart waits: a tile instruction beside those of the STE,
and beside a step of the array on its way any instruction of the vector kinds that shares no register with it (R289).
-/
def passes (q e : Held) : Bool :=
  if isStep q.instr then
    apart q.instr e.instr && (match e.instr with
      | .v _ _ | .vm _ _ => true
      | v => forEngine v)
  else forEngine e.instr

/-- An entry at the head of the VIQ may not leave it yet: one that does not go to the STE waits until the tile queues
are empty, so does one that begins at a restart point, which belongs to it alone (R32, R149), and so does one behind
an ERET that leaves another VTYPE (R51). -/
def tileWaits (h : Hart) (e : Held) : Bool :=
  !h.tiles.isEmpty &&
    (h.tiles.any (fun q => !passes q.entry e || q.entry.thenVtype.isSome) || h.vstart != 0 || h.maskValid)

/-- An entry would wait behind a request of its hart (R219). -/
def Hart.behindTiles (h : Hart) (e : Held) : Bool := h.tiles.any fun p => staysBehind p.entry e

/-- An entry joins its tile queue (R220): it leaves the VIQ, so a long-latency producer leaves its destination empty
(R26). -/
def Hart.joinTiles (h : Hart) (now : Nat) (e : Held) : Hart :=
  let i := vinfo e.instr
  { h with
    tiles := h.tiles ++
      [{ high := highQueue e.instr, since := now, entry := { e with begun := true, flying := true, first := h.csr.vstart } }]
    vfull := if i.longLat then h.vfull &&& ~~~BitVec.ofNat 32 (regSet i.writes) else h.vfull }

/-! ### ILL of the tile instructions (R91, R218, R224) -/

/-- CSPEC of the ILL that a tile instruction raises by its row, its slot or SEW. -/
def tileIll (s : State) (h : Hart) (e : Held) : Option Nat :=
  let accIll (o : AccOp) : Option Nat :=
    if 64 ≤ e.tileRow then some 2
    else if h.sew ≠ (if o.ef = .fp64 then 64 else 32) then some 3
    else none
  match e.instr with
  | .mrow o =>
    if 64 ≤ e.tileRow then some 2
    else match tileOfCode ((s.coreSt (coreOf h.csr.hartid)).slot o.slot).fmt with
      | none => some 4
      | some f => if h.sew ≠ tileSew f then some 3 else none
  | .mard o | .mawr o | .mast o => accIll o
  | _ => none

/-! ### Grants (R217, R220, R222) -/

/-- The arguments of an MROW of a hart. -/
def tileArgs (s : State) (h : Hart) (f : TileFmt) (o : MrowOp) : TileArgs :=
  let core := coreOf h.csr.hartid
  let slot := (s.coreSt core).slot o.slot
  let sew := tileSew f
  { fmt := f
    a := fun k =>
      let x := getE (h.getV o.v) sew k
      if tilePlanes f && !o.p then fourPlanes x else x
    b := fun k n => slotElem s core o.slot f k n
    scale := fun k => if slot.blk = 0 then none else some ((slot.scales.extractLsb' (8 * (k / 2 ^ slot.blk.val)) 8).toNat)
    kmax := min h.vl (tileShape f).1 }

/-- The effect of an MROW: the row in one step, PLANE and SAT (R57, R61, R217, R222). -/
def performRow (s : State) (h : Hart) (o : MrowOp) (e : Held) : State :=
  let core := coreOf h.csr.hartid
  match tileOfCode ((s.coreSt core).slot o.slot).fmt with
  | none => s
  | some f =>
    let t := tileArgs s h f o
    let bits := if f == .fp64 then 64 else 32
    let row := (List.range (tileShape f).2).map fun n =>
      let c := accElem s core o.acc e.tileRow bits n
      match tileFloat f with
      | some b => (t.rowFloat b c n, false)
      | none => t.rowInt c n
    let s1 := s.setAcc core o.acc e.tileRow (row.flatMap fun x => leBytes (bits / 8) x.1)
    let plane := tilePlanes f && !o.p && (List.range t.kmax).any fun k => planeLoss (getE (h.getV o.v) 16 k)
    let flags := (if plane then fPLANE else 0) + (if row.any (·.2) then fSAT else 0)
    s1.onPlaced h.csr.hartid fun h => { h with csr := (h.csr.raise flags).count evStegrant 1 }

/-- Cycles for which an MROW occupies the STE (Table 09-1). -/
def rowCycles (f : Option TileFmt) (planes8 : Bool) : Nat :=
  match f with
  | some .e4m3 | some .e5m2 | some .e2m1 => if planes8 then 16 else 8
  | some .bf16 => if planes8 then 8 else 4
  | _ => 16

/-- The MROWs of a core that wait in one of the queues and are ready, each with its hart: the waits of R219 are over,
the slot and SEW fit (R218), and the cap leaves the hart a grant (R345). -/
def State.readyRows (s : State) (core : Nat) (high : Bool) : List (Hart × TileReq × MrowOp) :=
  (s.hart :: s.others).flatMap fun h =>
    if coreOf h.csr.hartid = core ∧ h.run ≠ .vacant ∧ !s.cappedSte h then
      h.readyTiles.filterMap fun q =>
        match q.entry.instr with
        | .mrow o => if q.high == high && (tileIll s h q.entry).isNone then some (h, q, o) else none
        | _ => none
    else []

/-- The oldest of some waiting MROWs. -/
def oldestRow : List (Hart × TileReq × MrowOp) → Option (Hart × TileReq × MrowOp)
  | [] => none
  | x :: r => match oldestRow r with
    | some y => if y.2.1.since < x.2.1.since then some y else some x
    | none => some x

/-- The next grant takes from the high queue, with the one exception of R220: whether it does, and the count of high
grants afterwards. -/
def grantHigh (anyHigh anyLow : Bool) (grants : Nat) : Bool × Nat :=
  if !anyHigh then (false, 0)
  else if !anyLow then (true, 0)
  else if grants = 7 then (false, 0)
  else (true, grants + 1)

/-- A tile instruction of a hart has completed: VSTART and the completion mask clear (R32), and its completion counts
(Table 17-3); a VTYPE that an ERET leaves behind it is in force once nothing older waits (R51). -/
def Hart.tileDone (h : Hart) (e : Held) : Hart :=
  let h1 := { h with mask := 0, maskValid := false, csr := { h.csr with vstart := 0 }.count evVcompl 1 }
  match e.thenVtype with
  | none => h1
  | some t =>
    if h.tiles.isEmpty then { h1 with csr := { h1.csr with vtype := t } }
    else if (h.tiles.getLast?.bind (·.entry.thenVtype)).isSome then h1
    else { h1 with tiles := thenTiles h.tiles t }

/-- The hart whose MROW has been granted for `n` cycles of the STE. -/
def Hart.granted1 (h : Hart) (q : TileReq) (n : Nat) : Hart :=
  { h.onStrip fun o => { o with tile := o.tile + n } with
    tiles := h.tiles.erase q
    granted := h.granted ||| 1
    usedSte := h.usedSte ||| BitVec.ofNat 1024 (2 ^ n - 1) }

/-- The record of a tagged MROW, which has no elements (R377). -/
def Hart.sampleRow (h : Hart) (q : TileReq) : Hart :=
  match q.entry.tagged, h.tag with
  | true, some t =>
    { h with tag := none, tagDone := h.tagDone ++ [{ t with
        vector := true, vl := h.csr.vl, vstart := h.csr.vstart, vtype := h.csr.vtype }] }
  | _, _ => h

/-- A free STE grants one waiting MROW (R220), which then completes. -/
def State.steGrant (s : State) (core : Nat) : State :=
  let c := s.coreSt core
  let hi := s.readyRows core true
  let lo := s.readyRows core false
  let g := grantHigh (!hi.isEmpty) (!lo.isEmpty) c.grants
  if s.time < c.steUntil then s
  else match oldestRow (if g.1 then hi else lo) with
    | none => s
    | some (h, q, o) =>
      let n := rowCycles (tileOfCode (c.slot o.slot).fmt) o.p
      let s1 := s.setCore core { c with grants := g.2, steUntil := s.time + n }
      let s2 := (performRow s1 h o q.entry).onPlaced h.csr.hartid (·.granted1 q n)
      s2.onPlaced h.csr.hartid fun x => (x.sampleRow q).tileDone q.entry

/-- The STE of a core can grant. -/
def State.steDue (s : State) (core : Nat) : Bool :=
  (s.hart :: s.others).any (fun h => !h.tiles.isEmpty && coreOf h.csr.hartid == core) &&
    decide ((s.coreSt core).steUntil ≤ s.time)

/-! ### Members -/

/-- MACLR (R225). -/
def maclrV (o : MaclrOp) (s : State) : VOut :=
  .done (s.setAcc s.core o.acc o.row.val (List.replicate (1024 * (o.n.val + 1)) 0))

/-- Elements of a row (R224). -/
def rowCount (ef : Ef) : Nat := if ef = .fp64 then 128 else 256

/-- MARD (R225). -/
def mardV (o : AccOp) (e : Held) (s : State) : VOut :=
  let row := e.tileRow
  elementwise o.v o.w
    (fun i => (if i < rowCount o.ef then accElem s s.core o.acc row s.hart.sew i else 0, 0)) s

/-- MAWR (R225). -/
def mawrV (o : AccOp) (e : Held) (s : State) : VOut :=
  let row := e.tileRow
  let is := (s.hart.activeList o.w).filter (· < rowCount o.ef)
  .done (s.setAccElems s.core o.acc row s.hart.sew (is.map fun i => (i, s.hart.elem o.v i)))

/-- The addressing mode of MAST as that of a store (R226). -/
def accMode : AccMode → MemMode
  | .unit => .unit
  | .strided => .strided
  | .indexed => .indexed

/-- MAST (R226). -/
def mastV (o : AccOp) (e : Held) (s : State) : VOut :=
  let row := e.tileRow
  vStore (accMode o.mode) .native o.w o.v ((s.hart.pendingElems e o.w).filter (· < rowCount o.ef))
    (fun i => accElem s s.core o.acc row s.hart.sew i) e s

/-! ### MTLD (R213 to R215) -/

/-- Memory rows of a tile and elements of each (R214). -/
def mtldRows (f : TileFmt) (t : Bool) : Nat × Nat := if t then ((tileShape f).2, (tileShape f).1) else tileShape f

/-- Pass 1: the targets of every memory row, ascending (R215); a fault with the state that the translations leave. -/
def mtldPass1 (ag : Agent) (base stride : Word) (len : Nat) : List Nat → State → List (Nat × List Target) →
    Except (Nat × MemFault × State) (Option (State × List (Nat × List Target)))
  | [], s, acc => .ok (some (s, acc.reverse))
  | r :: rs, s, acc =>
    match access s ag .tile .load (base + BitVec.ofNat 64 r * stride) len with
    | .fault f u => .error (r, f, u)
    | .wait => .ok none
    | .ok (s1, ts) => mtldPass1 ag base stride len rs (s1.countHot 1 ts) ((r, ts) :: acc)

/-- Elements of a row of bytes. -/
def rowElems (bits : Nat) (bs : List Byte) : List Nat :=
  if bits = 4 then bs.flatMap fun b => [b.toNat % 16, b.toNat / 16]
  else
    let n := bits / 8
    (List.range (bs.length / n)).map fun i => leNat ((bs.drop (i * n)).take n)

/-- Bytes of a row of elements. -/
def packElems (bits : Nat) : List Nat → List Byte
  | [] => []
  | x :: xs =>
    if bits = 4 then match xs with
      | [] => [BitVec.ofNat 8 x]
      | y :: ys => BitVec.ofNat 8 (x + 16 * y) :: packElems bits ys
    else leBytes (bits / 8) x ++ packElems bits xs

/-- The slot's bytes from the memory rows' bytes (R214). -/
def mtldImage (f : TileFmt) (t : Bool) (rows : List (List Byte)) : List Byte :=
  if !t then rows.flatten
  else
    let es := rows.map (rowElems (tileBits f))
    packElems (tileBits f) ((List.range (tileShape f).1).flatMap fun k => es.map fun r => (r[k]?).getD 0)

/-- MTLD (R213 to R215). -/
def mtldV (o : MtldOp) (e : Held) (s : State) : VOut :=
  let h := s.hart
  let core := s.core
  let ag := e.agent h
  let bits := tileBits o.fmt
  let eb := memBytes bits
  let base := e.op 0
  let stride := e.op 1
  let rn := mtldRows o.fmt o.t
  let rowAddr (r : Nat) : Word := base + BitVec.ofNat 64 r * stride
  if base.toNat % eb ≠ 0 ∨ stride.toNat % eb ≠ 0 then vTrap cACCESS base 0 s
  else match mtldPass1 ag base stride (rn.2 * bits / 8) (List.range rn.1) s [] with
    | .error (r, f, u) =>
      .trap { code := f.cause.code, cls := .vector, tval := f.addr, taux := mkTaux true f.cause.cspec 0 r }
        (u.mchkMessage f)
    | .ok none => .wait
    | .ok (some (s0, rows)) =>
      let s1 := s0.afterBlend (rows.flatMap (·.2))
      let c := s1.coreSt core
      match rows.find? fun x => x.2.any s1.badTarget with
      | some (r, _) =>
        let f : MemFault := { cause := .mchk, addr := rowAddr r }
        .report { code := cMCHK, cls := .vector, tval := rowAddr r, taux := mkTaux true 1 0 r }
          ((s1.setCore core (c.setSlot o.slot Slot.empty)).mchkMessage f)
      | none =>
        let bytes := mtldImage o.fmt o.t (rows.map fun x => x.2.map (targetByte s1 ag))
        let slot : Slot :=
          { fmt := tileCode o.fmt, blk := o.blk, scales := if o.blk = 0 then 0 else h.k[o.ksel.val]'o.ksel.isLt }
        let s2 := { s1 with slots := replaceBytes s1.slots (slotLoc core o.slot 0) bytes }.setCore core (c.setSlot o.slot slot)
        match if ag.sup then none else rows.find? fun x => x.2.any s1.watchedTarget with
        | none => .done s2
        | some (r, _) =>
          let more := decide (1 < (rows.filter fun x => x.2.any s1.watchedTarget).length)
          .report { code := cWATCHHIT, cls := .vector, tval := rowAddr r
                    taux := mkTaux true (1 + (if more then 256 else 0) + 512) 0 r } s2

/-- What a tile instruction does when the STE takes it; an MROW waits for a grant (R220), and a MAST for its turns while
its elements are scheduled from outside (R148, R223). -/
def runTile (e : Held) (s : State) : VOut :=
  match e.instr with
  | .mtld o => mtldV o e s
  | .maclr o => maclrV o s
  | .mard o => mardV o e s
  | .mawr o => mawrV o e s
  | .mast o => if s.loose && e.part.isNone then .wait else mastV o e s
  | _ => .wait

end Sys2Proof.Machine
end

