-- ==== Sys2Proof/Machine/Array.lean ====
section
/-! DEFINITION. The clause automaton array of a cluster (tmaj 0x08 to 0x0B, R228 to R241). -/

namespace Sys2Proof.Machine

/-! ### Configuration (Table 10-1, Table 10-2) -/

/-- C of a configuration word. -/
def cfgC (w : Word) : Nat := bitsOf w.toNat 0 10 + 1
/-- F. -/
def cfgF (w : Word) : Nat := 16 * bitsOf w.toNat 10 6
/-- L. -/
def cfgL (w : Word) : Nat := bitsOf w.toNat 16 4 + 1
/-- T. -/
def cfgT (w : Word) : Nat := bitsOf w.toNat 20 10

/-- A configuration word is legal (R230). -/
def cfgLegal (w : Word) : Bool :=
  bitsOf w.toNat 33 31 == 0 && bitsOf w.toNat 30 2 == 0 && decide (1 ≤ bitsOf w.toNat 10 6) &&
    decide (bitsOf w.toNat 10 6 ≤ 32) && cfgT w != 0 && decide (cfgL w ≤ cfgC w)

/-- The class of clause c (R229). -/
def classOf (w : Word) (c : Nat) : Nat := c * cfgL w / cfgC w

/-- The polarity of clause c (R229). -/
def polarity (c : Nat) : Int := if c % 2 = 0 then 1 else -1

/-- The used columns, ascending (R228). -/
def usedCols (w : Word) : List Nat := List.range (cfgF w) ++ (List.range (cfgF w)).map (512 + ·)

/-- Lit(l, x) (R233). -/
def litOf (x : VBits) (l : Nat) : Bool := if l < 512 then x.getLsbD l else !x.getLsbD (l - 512)

/-- Entry e of a nudge table (Table 10-2). -/
def tableEntry (t : BitVec 512) (e : Nat) : Nat := (t.extractLsb' (32 * e) 32).toNat

/-- A nudge table entry is legal (R235). -/
def entryLegal (e : Nat) : Bool := bitsOf e 19 13 == 0 && decide (bitsOf e 0 17 ≤ 65536) && bitsOf e 17 2 != 3

/-- A nudge table is legal (R235). -/
def tableLegal (t : BitVec 512) : Bool := (List.range 16).all fun e => entryLegal (tableEntry t e)

/-! ### Cells -/

/-- s(c, l) of a cluster's array. -/
def State.cell (s : State) (cl c l : Nat) : Nat := (readByte s.cells (cellLoc cl c l)).toNat

/-- Every cell of a cluster's array is zero. -/
def State.clearCells (s : State) (cl : Nat) : State := { s with cells := s.cells.filter fun p => p.1 / 2 ^ 20 != cl }

/-- The hart's cluster. -/
def State.cluster (s : State) : Nat := clusterOf s.hart.csr.hartid

/-- The columns that clause c includes, among the used ones (R228). -/
def includedCols (s : State) (cl : Nat) (w : Word) (c : Nat) : List Nat :=
  (usedCols w).filter fun l => 128 ≤ s.cell cl c l

/-- The output of clause c, `empty` for a clause that includes nothing (R233, R237). -/
def clauseOut (s : State) (cl : Nat) (w : Word) (x : VBits) (empty : Bool) (c : Nat) : Bool :=
  let inc := includedCols s cl w c
  if inc.isEmpty then empty else inc.all (litOf x)

/-- The clamped vote of class j over outputs (R234, R237). -/
def voteOf (w : Word) (o : Nat → Bool) (j : Nat) : Int :=
  let v := ((List.range (cfgC w)).filter fun c => classOf w c == j && o c).foldl (fun a c => a + polarity c) (0 : Int)
  let t : Int := cfgT w
  max (-t) (min t v)

/-! ### Draws (R236) -/

/-- Mix (R236). -/
def mix (x : BitVec 32) : BitVec 32 :=
  let a := x ^^^ (x >>> 16)
  let b := a * 0x7FEB352D
  let c := b ^^^ (b >>> 15)
  let d := c * 0x846CA68B
  d ^^^ (d >>> 16)

/-- Draw(c, l) of step n (R236). -/
def draw (seed : BitVec 32) (n : Word) (c l : Nat) : Nat :=
  (mix (seed ^^^ (n.setWidth 32 * 0x9E3779B1) ^^^ (BitVec.ofNat 32 c <<< 16) ^^^ BitVec.ofNat 32 l) >>> 16).toNat

/-! ### Steps (R237, R238) -/

/-- The state of cell (c, l) after Nudge (R237): `st` before, `ty` 0 or 1, `out` the training output, `lit` its
literal. -/
def nudge (a : ClusterSt) (c l ty : Nat) (out lit : Bool) (st : Nat) : Nat :=
  let e := tableEntry a.table
    (8 * ty + (if out then 4 else 0) + (if lit then 2 else 0) + (if 128 ≤ st then 1 else 0))
  let act := bitsOf e 17 2
  if act ≠ 0 ∧ draw a.seed a.steps c l < bitsOf e 0 17 then (if act = 1 then min (st + 1) 255 else st - 1) else st

/-- The row of clause c after Nudge on every used column. -/
def nudgedRow (s : State) (cl : Nat) (a : ClusterSt) (x : VBits) (c ty : Nat) (out : Bool) : List Byte :=
  (List.range 1024).map fun l =>
    let st := s.cell cl c l
    BitVec.ofNat 8 (if l % 512 < cfgF a.config then nudge a c l ty out (litOf x l) st else st)

/-- A step (R237, R238): `pick` gives the feedback type of a clause that is nudged. It begins when the step before it
has ended, and every row is computed from the state at its start (R240); `stay` leaves the rows to change one by one.
-/
def arrayStep (x : VBits) (pick : Nat → Option Nat) (stay : Bool) (s0 : State) : State :=
  let cl := s0.cluster
  let s := s0.landRows cl
  let a := s.clusterSt cl
  let rows := (List.range (cfgC a.config)).filterMap fun c => (pick c).map fun ty =>
    (c, nudgedRow s cl a x c ty (clauseOut s cl a.config x true c))
  let t := s.setCluster cl { a with steps := a.steps + 1, rows := rows, stepBy := s.hart.csr.hartid }
  if stay then t else t.landRows cl

/-- The n-th row that the step in progress has still to change does (R240). -/
def State.rowTurn (s : State) (cl n : Nat) : State :=
  let a := s.clusterSt cl
  match a.rows[n]? with
  | none => s
  | some r => (s.setRow cl r.1 r.2).setCluster cl { a with rows := a.rows.eraseIdx n }

/-- The feedback of LATRAIN for clause c (R237): the probability and the type. -/
def feedback (w ctl : Word) (v : Nat → Int) (c : Nat) : Option (Int × Nat) :=
  let t : Int := cfgT w
  let y := bitsOf ctl.toNat 0 4
  let yn := bitsOf ctl.toNat 4 4
  if ctl.getLsbD 8 && classOf w c == y then some ((t - v y) * 32768 / t, c % 2)
  else if ctl.getLsbD 9 && classOf w c == yn then some ((t + v yn) * 32768 / t, 1 - c % 2)
  else none

/-- A control word of LATRAIN is legal under a configuration (R237). -/
def controlLegal (w ctl : Word) : Bool :=
  let y := bitsOf ctl.toNat 0 4
  let yn := bitsOf ctl.toNat 4 4
  let ey := ctl.getLsbD 8
  let en := ctl.getLsbD 9
  bitsOf ctl.toNat 10 54 == 0 && !(ey && decide (cfgL w ≤ y)) && !(en && decide (cfgL w ≤ yn)) && !(ey && en && y == yn)

/-! ### Faults by registers (R231) -/

/-- The address that the world fault of an array instruction reports. -/
def arrayFaultAddr : Word := 0xFFF4000000000

/-- The world fault of an array instruction: the hart is non-secure while the array is secure or the word sets WORLD. -/
def worldBars (s : State) (word : Word) : Bool :=
  !s.hart.csr.status.world && ((s.clusterSt s.cluster).arrayWorld || word.getLsbD 32)

/-- The trap that an array instruction takes before it does anything, by the array, its word and its base: the world
fault first, then ILL with CSPEC 6 and 5 (R231); none for other entries. -/
def arrayBars (s : State) (e : Held) : Option Trap :=
  let a := s.clusterSt s.cluster
  let ill (n : Nat) : Option Trap :=
    some { code := cILL, cls := .vector, tval := heldWord e.instr, taux := mkTaux false n 0 0 }
  let check (word : Word) (free legal : Bool) : Option Trap :=
    if worldBars s word then
      some { code := cACCESS, cls := .vector, tval := arrayFaultAddr, taux := mkTaux false 0 0 0 }
    else if !free && !a.configured then ill 6
    else if !legal then ill 5
    else none
  match e.instr with
  | .lacfg _ => check (e.op 0) true (cfgLegal (e.op 0))
  | .latrain _ => check 0 false (controlLegal a.config (e.op 0))
  | .laeval _ | .lavote _ | .lafb _ | .lasts _ => check 0 false true
  | .lastl _ | .latbl _ | .laseed _ => check 0 true true
  | _ => none

/-! ### Members -/

/-- LACFG (R232). -/
def lacfgV (e : Held) (s0 : State) : VOut :=
  let cl := s0.cluster
  let s := s0.landRows cl
  let a := s.clusterSt cl
  let w := e.op 0
  if a.config.getLsbD 32 && !w.getLsbD 32 then
    .done ((s.clearCells cl).setCluster cl { a with config := w, configured := true, seed := 0, steps := 0, table := 0 })
  else .done (s.setCluster cl { a with config := w, configured := true })

/-- LAEVAL (R233): the .snap form waits for the step in progress; the plain form sees each row as it now stands
(R240). -/
def laevalV (o : LaVOp) (s0 : State) : VOut :=
  let cl := s0.cluster
  let s := if o.flag then s0.landRows cl else s0
  let w := (s.clusterSt cl).config
  let x := s.hart.getV o.v
  let bits := (List.range (cfgC w)).foldl (fun r c =>
    if clauseOut s cl w x false c then r ||| BitVec.ofNat 16384 (2 ^ c) else r) (0 : VBits)
  .done (s.onHart fun h => h.putV o.vd ((h.getV o.vd >>> 1024) <<< 1024 ||| bits))

/-- LAVOTE (R234). -/
def lavoteV (o : LaVOp) (s : State) : VOut :=
  let w := (s.clusterSt s.cluster).config
  let x := s.hart.getV o.v
  .done (s.onHart fun h => h.writeElems o.vd
    ((List.range (cfgL w)).map fun j => (j, unsgn h.sew (voteOf w (fun c => x.getLsbD c) j), 0)))

/-- LATRAIN (R237). -/
def latrainV (o : LatrainOp) (e : Held) (s0 : State) : VOut :=
  let cl := s0.cluster
  let s := s0.landRows cl
  let a := s.clusterSt cl
  let w := a.config
  let x := s.hart.getV o.v
  let v := voteOf w (clauseOut s cl w x true)
  .done (arrayStep x (fun c => match feedback w (e.op 0) v c with
    | some (p, ty) => if (draw a.seed a.steps c 1023 : Int) < p then some ty else none
    | none => none) e.reading s)

/-- LAFB (R238). -/
def lafbV (o : LaVOp) (e : Held) (s : State) : VOut :=
  let vm := s.hart.getV o.vd
  .done (arrayStep (s.hart.getV o.v) (fun c => if vm.getLsbD c then some (if o.flag then 1 else 0) else none) e.reading s)

/-- LASEED (R236). -/
def laseedV (e : Held) (s0 : State) : VOut :=
  let s := s0.landRows s0.cluster
  .done (s.setCluster s.cluster { s.clusterSt s.cluster with seed := (e.op 0).setWidth 32, steps := 0 })

/-- The vector-class trap of an array instruction's memory access, with TAUX.EV = 0 (R235, R239). -/
def arrayFault (f : MemFault) (s : State) : VOut := vTrap f.cause.code f.addr f.cause.cspec (s.mchkMessage f)

/-- LATBL (R235). DESIGN CHOICE (log entry 56): an illegal table raises ILL with CSPEC 5 once it has been read, as an
illegal word of an image does. -/
def latblV (e : Held) (s : State) : VOut :=
  let base := e.op 0
  if base.toNat % 64 ≠ 0 then vTrap cACCESS base 0 s
  else match loadTile s (e.agent s.hart) base 64 with
    | .fault f u => arrayFault f u
    | .wait => .wait
    | .ok d =>
      let t := BitVec.ofNat 512 (leNat d.data)
      if tableLegal t then
        let u := d.st.landRows s.cluster
        .done (u.setCluster s.cluster { u.clusterSt s.cluster with table := t })
      else vTrap cILL (heldWord e.instr) 5 d.st

/-- Bytes of an array's state image (R239). -/
def imageLen (w : Word) : Nat := 256 + 1024 * cfgC w

/-- An image access that hit is reported after the instruction has completed (R374). -/
def imageHit (kind : Nat) (base : Word) (hit : Bool) (s : State) : VOut :=
  if hit then .report { code := cWATCHHIT, cls := .vector, tval := base, taux := mkTaux true (kind + 512) 0 0 } s
  else .done s

/-- The entries of the pin table that an image transfer takes, one for each page that its first to its last byte reach
(R271), are free. -/
def imagePinned (e : Held) (base : Word) (len : Nat) (s : State) : Bool :=
  let offs := (List.range ((len + 4095) / 4096)).map (4096 * ·) ++ [len - 1]
  s.pinsFree e (chunkPages s (e.agent s.hart) (fun o => base + BitVec.ofNat 64 o) offs).length

/-- LASTS (R239): the step in progress has ended (R240). -/
def lastsV (e : Held) (s0 : State) : VOut :=
  let base := e.op 0
  let cl := s0.cluster
  let s := s0.landRows cl
  let a := s.clusterSt cl
  let ag := e.agent s.hart
  if base.toNat % 256 ≠ 0 then vTrap cACCESS base 0 s
  else if !imagePinned e base (imageLen a.config) s then .pinWait
  else
    let rows := (List.range (cfgC a.config)).flatMap fun c => readBytes s.cells (cellLoc cl c 0) 1024
    match storeTile s ag base (arrayHeader a ++ rows) with
    | .fault f u => arrayFault f u
    | .wait => .wait
    | .ok d => imageHit 2 base (!ag.sup && d.hit) d.st

/-- The header of an image is legal (R239). -/
def headerLegal (h : List Byte) : Bool :=
  let x := leNat h
  cfgLegal (BitVec.ofNat 64 x) && tableLegal (BitVec.ofNat 512 (x / 2 ^ 512)) && bitsOf x 96 32 == 0 &&
    bitsOf x 192 320 == 0 && bitsOf x 1024 1024 == 0

/-- The array after LASTL has read an image (R239). -/
def loadImage (cl : Nat) (img : List Byte) (s : State) : State :=
  let x := leNat (img.take 256)
  { s with cells := replaceBytes s.cells (cellLoc cl 0 0) (img.drop 256) }.setCluster cl
    { s.clusterSt cl with
      configured := true
      config := BitVec.ofNat 64 x
      seed := BitVec.ofNat 32 (x / 2 ^ 64)
      steps := BitVec.ofNat 64 (x / 2 ^ 128)
      table := BitVec.ofNat 512 (x / 2 ^ 512) }

/-- An uncorrectable error in an image: a machine check, and the array is unconfigured (R239). DESIGN CHOICE (log entry
57): the configuration word, SEED, n, the table and the cells stay as they were, so the array's world does too. -/
def imageError (cl : Nat) (f : MemFault) (s : State) : VOut :=
  arrayFault f (s.setCluster cl { s.clusterSt cl with configured := false })

/-- LASTL after its header has been read: the world rule, the header check and the rest of the image (R239). -/
def lastlBody (e : Held) (header : List Byte) (s : State) : VOut :=
  let base := e.op 0
  let cl := s.cluster
  let ag := e.agent s.hart
  let w := BitVec.ofNat 64 (leNat header)
  if worldBars s w then vTrap cACCESS arrayFaultAddr 0 s
  else if !headerLegal header then vTrap cILL (heldWord e.instr) 5 s
  else if !imagePinned e base (imageLen w) s then .pinWait
  else match loadTile s ag base (imageLen w) with
    | .wait => .wait
    | .fault f u => if f.cause = .mchk then imageError cl f u else arrayFault f u
    | .ok d => imageHit 1 base (!ag.sup && d.hit) (loadImage cl d.data d.st)

/-- LASTL (R239): the step in progress has ended (R240). -/
def lastlV (e : Held) (s0 : State) : VOut :=
  let base := e.op 0
  let s := s0.landRows s0.cluster
  if base.toNat % 256 ≠ 0 then vTrap cACCESS base 0 s
  else match loadTile s (e.agent s.hart) base 256 with
    | .wait => .wait
    | .fault f u => if f.cause = .mchk then imageError s.cluster f u else arrayFault f u
    | .ok d => lastlBody e d.data d.st

end Sys2Proof.Machine
end

