-- ==== Sys2Proof/Machine/Stream.lean ====
section
/-! DEFINITION. Stream registers (R23, R253, R254): what a read of a stream register finds, and VQRD. -/

namespace Sys2Proof.Machine

/-- QSn of a binding (Table 01-4). -/
def qsWord (v : Bool) (ce seq pos : Nat) : Word :=
  BitVec.ofNat 64 ((if v then 2 ^ 63 else 0) + ce % 64 * 2 ^ 56 + seq % 2 ^ 32 * 2 ^ 24 + pos % 2 ^ 24)

/-- QSn.V. -/
def qsV (q : Word) : Bool := q.getLsbD 63
/-- QSn.CE. -/
def qsCe (q : Word) : Nat := bitsOf q.toNat 56 6
/-- QSn.SEQ. -/
def qsSeq (q : Word) : Nat := bitsOf q.toNat 24 32
/-- QSn.POS. -/
def qsPos (q : Word) : Nat := bitsOf q.toNat 0 24

/-- QSn of the hart. -/
def Hart.qs (h : Hart) (n : Fin 4) : Word := h.csr.qs[n.val]'n.isLt

/-- The stream buffer of qn. -/
def Hart.stream (h : Hart) (n : Fin 4) : StreamBuf := h.sbuf[n.val]'n.isLt

/-- The hart with the stream buffer of qn replaced. -/
def Hart.setStream (h : Hart) (n : Fin 4) (b : StreamBuf) : Hart := { h with sbuf := h.sbuf.set n.val b n.isLt }

/-- The buffer holds the command that QSn names. -/
def StreamBuf.holds (b : StreamBuf) (q : Word) : Bool := b.live && b.ce.toNat == qsCe q && b.seq.toNat == qsSeq q

/-! ### The operands that ENQ's first part leaves in the SOQ (R245): first number, accepted count and M in one word; the
descriptor's address, ENGINE and LOG2SIZE in the next; RING in the third. -/

/-- The words that part 1 passes to part 2. -/
def enqWords (first k m : Nat) (chain : Word) (engine log2 : Nat) (ring : Word) : List Word :=
  [BitVec.ofNat 64 (first % 2 ^ 48 + k % 256 * 2 ^ 48 + m % 256 * 2 ^ 56),
   BitVec.ofNat 64 (bitsOf chain.toNat 6 46 * 2 ^ 6 + log2 % 16 + engine % 128 * 2 ^ 52), ring]

/-- The first sequence number. -/
def Held.enqFirst (e : Held) : Nat := bitsOf (e.op 0).toNat 0 48
/-- The accepted count. -/
def Held.enqK (e : Held) : Nat := bitsOf (e.op 0).toNat 48 8
/-- M. -/
def Held.enqM (e : Held) : Nat := bitsOf (e.op 0).toNat 56 8
/-- The descriptor's address. -/
def Held.enqChain (e : Held) : Word := e.op 1 &&& 0xFFFFFFFFFFFC0
/-- LOG2SIZE. -/
def Held.enqLog2 (e : Held) : Nat := bitsOf (e.op 1).toNat 0 4
/-- ENGINE. -/
def Held.enqEngine (e : Held) : Nat := bitsOf (e.op 1).toNat 52 7
/-- RING. -/
def Held.enqRing (e : Held) : Word := e.op 2

/-- The named command has not completed: it is reserved, written or running, wherever its ENQ now stands. -/
def State.commandPending (s : State) (ce seq : Nat) : Bool :=
  s.reserved.contains (ce, seq) || s.slotRecs.any fun r => r.engine.val == ce && r.seq % 2 ^ 32 == seq

/-- What a read of `k` bytes of a stream finds. -/
inductive StreamRead where
  | bytes (bs : List Byte) (h : Hart)
  | empty
  | wait

/-- The position in the command of POS, whose counter has 24 bits. -/
def StreamBuf.place (b : StreamBuf) (q : Word) : Nat := b.pos / 2 ^ 24 * 2 ^ 24 + qsPos q

/-- A read of `k` bytes of stream qn at POS (R254): the bytes, EMPTY, or a wait for data. -/
def streamRead (s : State) (n : Fin 4) (k : Nat) : StreamRead :=
  let h := s.hart
  let q := h.qs n
  let b := h.stream n
  if !qsV q then .empty
  else if b.holds q then
    let p := b.place q
    if p < b.pos || b.total < p + k then .empty
    else if b.pos + b.data.length < p + k then .wait
    else
      let rest := b.data.drop (p - b.pos)
      let h1 := h.setStream n { b with pos := p + k, data := rest.drop k }
      .bytes (rest.take k) (h1.setQs n (qsWord true (qsCe q) (qsSeq q) (p + k)))
  else if s.commandPending (qsCe q) (qsSeq q) then .wait
  else .empty

/-- The stream register that a register field names (R73). -/
def streamOf (n : Reg) : Fin 4 := Fin.ofNat 4 n.val

/-- VQRD (R254): the active elements consume SEW/8 bytes each, all together. -/
def vqrdV (o : VOp) (e : Held) (s : State) : VOut :=
  let n := streamOf o.a
  let w := s.hart.sew / 8
  let is := s.hart.activeList o.w
  if is.isEmpty then .done s
  else match streamRead s n (w * is.length) with
    | .empty => vTrap cEMPTY (heldWord e.instr) n.val s
    | .wait => .wait
    | .bytes bs h =>
      .done { s with hart := h.writeElems o.d (is.zipIdx.map fun p => (p.1, leNat ((bs.drop (w * p.2)).take w), 0)) }

end Sys2Proof.Machine
end

