-- ==== Sys2Proof/Machine/Engine.lean ====
section
/-! DEFINITION. Copy engines and memory service engines (R243 to R251, R280 to R284, R301, R309 to R314): starting a
command, its operation, its completion or fault, the resumption of a chain, and stream delivery (R253). -/

namespace Sys2Proof.Machine

/-! ### Commands (Table 11-2, R251) -/

/-- The hart that enqueued a command as the agent of the command's accesses (R247, R262). -/
def SlotRec.agent (r : SlotRec) : Agent :=
  { sup := r.priv, secure := r.secure, ptroot := r.ptroot, core := coreOf r.hartid, cluster := clusterOf r.hartid,
    hartid := r.hartid, region := r.region, domain := r.domain, engine := some r.engine, pins := [] }

/-- Two commands belong to one chain. -/
def SlotRec.sameChain (a b : SlotRec) : Bool := a.chain == b.chain && a.ptroot == b.ptroot

/-- Doubleword k of a command. -/
def EngCmd.word (c : EngCmd) (k : Fin 8) : Word := c.dw[k.val]'k.isLt

/-- A field of doubleword k. -/
def EngCmd.field (c : EngCmd) (k : Fin 8) (lo n : Nat) : Nat := bitsOf (c.word k).toNat lo n

/-- OP. -/
def EngCmd.op (c : EngCmd) : Nat := c.field 0 0 8
/-- DS: the destination is a stream register. -/
def EngCmd.ds (c : EngCmd) : Bool := (c.word 0).getLsbD 14
/-- LEN. -/
def EngCmd.len (c : EngCmd) : Nat := c.field 3 0 32
/-- Rows that the operation moves: none for VOID, one for COPY, ROWS for the others (Table 11-3). -/
def EngCmd.rows (c : EngCmd) : Nat := if c.op = 0 then 0 else if c.op = 1 then 1 else c.field 3 32 32
/-- The byte count of a command (R250). -/
def EngCmd.byteCount (c : EngCmd) : Nat := if c.op = 4 then 0 else c.len * c.rows
/-- SRC, DST, TRIG and ARR are 52-bit addresses. -/
def EngCmd.addr (c : EngCmd) (k : Fin 8) : Word := c.word k &&& 0xFFFFFFFFFFFFF

/-- The command that ENQ writes as 64 zero bytes with V = 1 (R245). -/
def EngCmd.isEnqVoid (c : EngCmd) : Bool :=
  (c.word 0 &&& 0xFFFFFFFFFFFF7FFF) == 0 && (List.range 7).all fun k => c.dw[k + 1]?.getD 0 == 0

/-- Fields of doublewords 0, 6 and 7 that no command may hold (R249, R251). -/
def EngCmd.badCommon (c : EngCmd) : Bool :=
  (c.word 0).getLsbD 11 || c.field 0 8 3 == 0 || decide (6 ≤ c.field 0 8 3) ||
    ((c.word 6 ||| c.word 7) &&& 0xFFF0000000000007) != 0

/-- A copy engine command is malformed (R249, R250). DESIGN CHOICE (log entry 59): so is a COPY whose ROWS is not 0,
which Table 11-3 demands without naming a consequence. -/
def EngCmd.badCopy (c : EngCmd) : Bool :=
  c.badCommon || decide (5 < c.op) || ((c.word 1 ||| c.word 2) &&& 0xFFF0000000000000) != 0 || (c.ds && c.op == 4) ||
    (c.op == 1 && c.field 3 32 32 != 0) ||
    (c.op == 3 && (c.field 1 0 8 != 0 || c.field 4 0 8 != 0 || c.field 3 0 8 != 0))

/-- Bits that doubleword 3 of a memory service command may hold (R251). -/
def serviceMask3 (op : Nat) : Word :=
  if op = 16 then 1 else if op = 18 then 0xFFFFFFFFFFFFF else if op = 20 then 0xFFFFFFFF0000 else 0

/-- A memory service command is malformed (R251). -/
def EngCmd.badService (c : EngCmd) : Bool :=
  c.badCommon || decide (c.op < 16) || decide (20 < c.op) || (c.word 1 &&& 0xFFF000000000FFFF) != 0 ||
    (if c.op = 20 then c.word 2 != 0 else c.field 2 32 32 != 0) || (c.word 3 &&& ~~~serviceMask3 c.op) != 0 ||
    c.word 4 != 0 || c.word 5 != 0

/-- A command is malformed for the engine of its chain. -/
def EngCmd.malformed (c : EngCmd) : Bool :=
  !c.isEnqVoid && (if c.slot.engine.val < 64 then c.badCopy else c.badService)

/-- CODE of a failed access (R248, Table 11-4). -/
def MemCause.engineCode : MemCause → Nat
  | .xlate => 2
  | .access => 3
  | .world => 5
  | .mchk => 4

/-- The phase of a command whose access failed. -/
def faultedBy (f : MemFault) : Phase := .faulted f.cause.engineCode f.addr

/-! ### Chains -/

/-- The doublewords of 64 bytes. -/
def words8 (bs : List Byte) : Vector Word 8 :=
  Vector.ofFn fun k : Fin 8 => BitVec.ofNat 64 (leNat ((bs.drop (8 * k.val)).take 8))

/-- A chain descriptor as an engine reads it: the last completed sequence number (R244), HALT, RING and LOG2SIZE. -/
structure ChainView where
  completed : Nat
  halt : Bool
  ring : Word
  log2 : Nat

/-- The view of a descriptor's 64 bytes (Table 11-1). -/
def chainView (bs : List Byte) : ChainView :=
  let w := words8 bs
  let seq := bitsOf w[0].toNat 0 48
  { completed := if w[0].getLsbD 63 then seq - 1 else seq, halt := w[3].getLsbD 24, ring := w[2] &&& 0xFFFFFFFFFFFC0,
    log2 := bitsOf w[3].toNat 0 4 }

/-- An engine reads a chain's descriptor. -/
def readChain (s : State) (r : SlotRec) : Acc (State × ChainView) :=
  match loadAt s r.agent .engine r.chain 64 with
  | .ok d => .ok (d.st, chainView d.data)
  | .fault f u => .fault f u
  | .wait => .wait

/-- The address of a command's slot. -/
def ChainView.slot (v : ChainView) (seq : Nat) : Word := v.ring + BitVec.ofNat 64 (64 * (seq % 2 ^ v.log2))

/-- Started commands of a chain that have not completed. -/
def State.runningOf (s : State) (r : SlotRec) : List EngCmd := s.running.filter fun c => c.slot.sameChain r

/-- Nothing of a chain has faulted (R248). -/
def State.chainGoes (s : State) (r : SlotRec) : Bool :=
  (s.runningOf r).all fun c => match c.phase with
    | .faulted _ _ => false
    | .halted => false
    | _ => true

/-- The command of a slot record is the next of its chain, which stands as `v` says: HALT is 0, nothing of the chain has
faulted, and every earlier command has started (R244, R248). -/
def State.isNext (s : State) (r : SlotRec) (v : ChainView) : Bool :=
  !v.halt && s.chainGoes r && r.seq == v.completed + 1 + (s.runningOf r).length

/-- The command of a slot record is the first of its chain that has not started. -/
def State.isFirst (s : State) (r : SlotRec) : Bool :=
  s.chainGoes r && (s.slotRecs.find? fun x => x.sameChain r && s.running.all fun c => c.slot != x) == some r

/-- An engine carries out the operation of one command at a time. -/
def State.engineBusy (s : State) (e : Fin 68) : Bool :=
  s.running.any fun c => c.slot.engine == e && (match c.phase with
    | .started => true
    | .stalled _ => true
    | _ => false)

/-! ### Destinations and ownership (R311) -/

/-- The targets of the destination rows from row `r` on, `n` of them. -/
def destRows (c : EngCmd) : Nat → Nat → State → Acc (State × List (List Target))
  | 0, _, s => .ok (s, [])
  | n + 1, r, s =>
    let va := c.addr 2 + BitVec.ofNat 64 r * c.word 5
    match locate c.slot.agent .engine .store (c.len / 4096 + 2) s va c.len with
    | .fault f u => .fault f u
    | .wait => .wait
    | .ok (s1, ts) =>
      match destRows c n (r + 1) s1 with
      | .fault f u => .fault f u
      | .wait => .wait
      | .ok (s2, rest) => .ok (s2, ts :: rest)

/-- The rows of a command's destination in memory; none for a stream, VOID and the memory service operations. -/
def EngCmd.dest (c : EngCmd) (s : State) : Acc (State × List (List Target)) :=
  if c.ds || 64 ≤ c.slot.engine.val then .ok (s, []) else destRows c c.rows 0 s

/-- Ranges of consecutive locations in a list of targets. -/
def runsOf : List Target → List (Nat × Nat)
  | [] => []
  | t :: ts =>
    match t.loc?, runsOf ts with
    | some l, (lo, n) :: r => if lo = l + 1 then (l, n + 1) :: r else (l, 1) :: (lo, n) :: r
    | some l, [] => [(l, 1)]
    | none, r => r

/-- Some target lies in a line that another engine owns. -/
def State.ownedElsewhere (s : State) (e : Fin 68) (ts : List Target) : Bool := ts.any (s.ownedTarget (some e))

/-- An engine gives up the lines that it owns. -/
def State.disown (s : State) (e : Fin 68) : State := { s with owned := s.owned.filter (·.engine != some e) }

/-- An engine takes ownership of ranges of locations (R311). Writes of harts that wait for their lines perform first. -/
def State.own (s : State) (pieces : List Owned) : State :=
  let s1 := s.flushHarts fun h => h.pend.any fun p => p.locs.any fun l => pieces.any (·.holds l)
  { s1 with owned := s1.owned ++ pieces }

/-! ### Starting a command (R244, R247, R249, R310, R311) -/

/-- The trigger of a command is met: its counter is at least TRIGVAL, or TV = 0. -/
def triggerMet (c : EngCmd) (s : State) : Acc (State × Bool) :=
  if !(c.word 0).getLsbD 12 then .ok (s, true)
  else match loadAt s c.slot.agent .engine (c.addr 6) 8 with
    | .ok d => .ok (d.st, decide (c.field 0 32 32 ≤ leNat d.data))
    | .fault f u => .fault f u
    | .wait => .wait

/-- A command enters the running ones, where the VOID of ENQ has nothing to do at a memory service engine; `none` when
it must wait for its trigger or its destination lines. -/
def takeUp (c : EngCmd) (s : State) : Option (State × EngCmd) :=
  if c.malformed then some (s, { c with phase := .faulted 1 0 })
  else if c.isEnqVoid && 64 ≤ c.slot.engine.val then some (s, { c with phase := .performed })
  else match triggerMet c s with
    | .fault f u => some (u, { c with phase := faultedBy f })
    | .wait => none
    | .ok (_, false) => none
    | .ok (s1, true) =>
      match c.dest s1 with
      | .fault f u => some (u, { c with phase := faultedBy f })
      | .wait => none
      | .ok (s2, rows) =>
        if rows.any (s2.ownedElsewhere c.slot.engine) then none
        else
          let pieces := (rows.flatMap runsOf).map fun p => { lo := p.1, len := p.2, engine := some c.slot.engine : Owned }
          some (s2.own pieces, c)

/-- The slot of a record read as a command: V and the command; a faulted command when the slot cannot be read, none
while another engine owns its line. -/
def fetchSlot (s : State) (r : SlotRec) (v : ChainView) : Option (State × Bool × EngCmd) :=
  match loadAt s r.agent .engine (v.slot r.seq) 64 with
  | .ok d =>
    let dw := words8 d.data
    some (d.st, dw[0].getLsbD 15, { slot := r, dw := dw, phase := .started })
  | .fault f u => some (u, true, { slot := r, dw := Vector.replicate 8 0, phase := faultedBy f })
  | .wait => none

/-- The engine clears V on consumption (Table 11-2); none while another engine owns the slot's line. -/
def clearV (s : State) (c : EngCmd) (v : ChainView) : Option State :=
  match storeAt s c.slot.agent .engine (v.slot c.slot.seq) (leBytes 8 (c.word 0 &&& 0xFFFFFFFFFFFF7FFF).toNat) with
  | .ok d => some d.st
  | .fault _ u => some u
  | .wait => none

/-- A command read from its slot is consumed and taken up, unless its slot could not be read. -/
def consume (v : ChainView) (s : State) (c : EngCmd) : Option (State × EngCmd) :=
  match c.phase with
  | .started => (takeUp c s).bind fun p => (clearV p.1 p.2 v).map (·, p.2)
  | _ => some (s, c)

/-- Starting the command of a record whose chain stands as `v` says. -/
def startRecord (r : SlotRec) (v : ChainView) (s : State) : Option (State × EngCmd) :=
  match fetchSlot s r v with
  | some (s1, true, c) => consume v s1 c
  | _ => none

/-- The command of a record starts, if it is the next of its chain and waits neither for its trigger nor for its
lines. A descriptor that cannot be read faults the first command that would need it (R248, R364). -/
def startNext (s : State) (r : SlotRec) : Option (State × EngCmd) :=
  match readChain s r with
  | .wait => none
  | .fault f u => if s.isFirst r then some (u, { slot := r, dw := Vector.replicate 8 0, phase := faultedBy f }) else none
  | .ok (s1, v) => if s.isNext r v then startRecord r v s1 else none

/-- ENGINE_COMMAND_START (R247, R311). DESIGN CHOICE (log entry 58): of the commands of several chains that may start,
the one whose slot was written first does; one that waits for its trigger or its lines holds its own chain alone. -/
def execEngineCommandStart (e : Fin 68) (s : State) : Out :=
  if s.engineBusy e then .next s
  else match (s.slotRecs.filter (·.engine == e)).findSome? (startNext s) with
    | none => .next s
    | some (s2, c) => .next { s2 with running := s2.running ++ [c] }

/-! ### Copy operations (R250, R312) -/

/-- The running command of an engine in the started phase with an OP. -/
def State.startedOp (s : State) (e : Nat) (op : Nat) : Option EngCmd :=
  s.running.find? fun c => c.slot.engine.val == e && c.op == op && (match c.phase with
    | .started => true
    | _ => false)

/-- A running command with its phase replaced. -/
def State.setPhase (s : State) (c : EngCmd) (p : Phase) : State :=
  { s with running := s.running.map fun d => if d.slot = c.slot then { d with phase := p } else d }

/-- The command is performed: its lines are no longer owned. -/
def State.perform (s : State) (c : EngCmd) : State := (s.disown c.slot.engine).setPhase c .performed

/-- The command has faulted: the engine gives up its lines (R311). -/
def State.failCmd (s : State) (c : EngCmd) (p : Phase) : State := (s.disown c.slot.engine).setPhase c p

/-- Outcome of an operation: the state after it, a fault, or a wait for lines that another engine owns. -/
inductive OpRes where
  | ok (s : State)
  | fault (s : State) (p : Phase)
  | wait

/-- Blocks of LPDDR6 that a range of locations covers only in part and that hold an uncorrectable error. -/
def partBad (s : State) (p : Nat × Nat) : Bool :=
  (blocksOf p.1 p.2).any fun b => s.badUnit b && !coversBlock p.1 p.2 b

/-- After an engine has written a range, its blocks take the bytes (R266, R279); a block written whole loses its
error. -/
def settleRange (s : State) (p : Nat × Nat) : State :=
  (blocksOf p.1 p.2).foldl (fun t b =>
    let u := if coversBlock p.1 p.2 b then t.healBlock b else t
    if 256 * b < lpddrEnd then u.settleBlock b else u) s

/-- One byte moved from target to target (R312). -/
def moveByte (ag : Agent) (s : State) (p : Target × Target) : State :=
  match p.2 with
  | .mem l => { s with mem := writeByte s.mem l (targetByte s ag p.1) }
  | _ => s

/-- One byte written. -/
def putByte (s : State) (p : Target × Byte) : State :=
  match p.1 with
  | .mem l => { s with mem := writeByte s.mem l p.2 }
  | _ => s

/-- The 64-byte lines of some rows, by location. -/
def linesOf (rows : List (List Target)) : List Nat := ((rows.flatten.filterMap Target.loc?).map (· / 64)).eraseDups

/-- What an operation leaves when rows have been written and others have not (R311): a line is written in one step with
all of the command's bytes in it, so a line that a row still to come would write stands as it was in `s`. -/
def keepLines (s t : State) (written left : List (List Target)) : State :=
  let open' := linesOf left
  let undo := (written.flatten.filterMap Target.loc?).filter fun l => open'.contains (l / 64)
  { t with mem := undo.foldl (fun m l => writeByte m l (readByte s.mem l)) t.mem }

/-- The rows of a command written from row r on: `put` moves one row, given its number and its targets; a row whose
merge meets an uncorrectable error faults, as one that `put` refuses does. The rows written so far come with the
outcome. -/
def putRows (c : EngCmd) (put : Nat → List Target → State → Acc State) :
    List (List Target) → Nat → List (List Target) → State → OpRes × List (List Target)
  | [], _, ds, s => (.ok s, ds)
  | dst :: rest, r, ds, s =>
    match put r dst s with
    | .fault f u => (.fault u (faultedBy f), ds)
    | .wait => (.wait, ds)
    | .ok s1 =>
      if (runsOf dst).any (partBad s1) then (.fault s (.faulted 4 (c.addr 2)), ds)
      else putRows c put rest (r + 1) (ds ++ [dst]) s1

/-- The blocks of some rows take their bytes. -/
def settleRows (s : State) (rows : List (List Target)) : State := (rows.flatMap runsOf).foldl settleRange s

/-- An operation on the rows of a destination. -/
def rowsOp (c : EngCmd) (put : Nat → List Target → State → Acc State) (rows : List (List Target)) (s : State) : OpRes :=
  match putRows c put rows 0 [] s with
  | (.ok t, ds) => .ok (settleRows t ds)
  | (.fault t p, ds) => .fault (settleRows (keepLines s t ds (rows.drop ds.length)) ds) p
  | (.wait, _) => .wait

/-- Source address of row r (Table 11-3), with the state after an index read. -/
def sourceOf (c : EngCmd) (r : Nat) (s : State) : Acc (State × Word) :=
  if c.op = 5 then
    match loadAt s c.slot.agent .engine (c.word 4 + BitVec.ofNat 64 (4 * r)) 4 with
    | .ok d => .ok (d.st, c.addr 1 + BitVec.ofNat 64 (leNat d.data * c.len))
    | .fault f u => .fault f u
    | .wait => .wait
  else if c.op = 1 then .ok (s, c.addr 1)
  else .ok (s, c.addr 1 + BitVec.ofNat 64 r * c.word 4)

/-- The source targets of a row, if it may be read. -/
def sourceRow (c : EngCmd) (r : Nat) (s : State) : Acc (State × List Target) :=
  match sourceOf c r s with
  | .fault f u => .fault f u
  | .wait => .wait
  | .ok (s1, va) =>
    match access s1 c.slot.agent .engine .load va c.len with
    | .fault f u => .fault f u
    | .wait => .wait
    | .ok (s2, ts) =>
      if ts.any s2.badTarget then .fault { cause := .mchk, addr := va } s2
      else .ok (s2, ts)

/-- A row of a copy, bytes ascending (R312). -/
def copyRow (c : EngCmd) (r : Nat) (dst : List Target) (s : State) : Acc State :=
  match sourceRow c r s with
  | .fault f u => .fault f u
  | .wait => .wait
  | .ok (s1, src) => .ok ((src.zip dst).foldl (moveByte c.slot.agent) s1)

/-- A row of a FILL: byte b of the row takes pattern byte b mod 8. -/
def fillRow (c : EngCmd) (_ : Nat) (dst : List Target) (s : State) : Acc State :=
  let bs := (List.range c.len).map fun b => BitVec.ofNat 8 (bitsOf (c.word 4).toNat (8 * (b % 8)) 8)
  .ok ((dst.zip bs).foldl putByte s)

/-- The bytes of the source rows from row r on, `n` of them, for a stream. -/
def streamRows (c : EngCmd) : Nat → Nat → State → Acc (State × List Byte)
  | 0, _, s => .ok (s, [])
  | n + 1, r, s =>
    match sourceRow c r s with
    | .fault f u => .fault f u
    | .wait => .wait
    | .ok (s1, ts) =>
      match streamRows c n (r + 1) s1 with
      | .ok (s2, bs) => .ok (s2, ts.map (targetByte s1 c.slot.agent) ++ bs)
      | .fault f u => .fault f u
      | .wait => .wait

/-! ### Stream delivery (R253) -/

/-- Bytes that a stream buffer holds. -/
def streamRoom : Nat := 4096

/-- The HARTID and the stream register that a command names when DS = 1 (Table 11-2). -/
def EngCmd.hartid (c : EngCmd) : BitVec 12 := BitVec.ofNat 12 (c.field 2 0 12)
/-- q. -/
def EngCmd.streamReg (c : EngCmd) : Fin 4 := Fin.ofNat 4 (c.field 2 12 2)

/-- The placed hart of a HARTID. -/
def State.placedHart (s : State) (id : BitVec 12) : Option Hart :=
  (s.hart :: s.others).find? fun h => h.run != .vacant && h.csr.hartid == id

/-- The hart that a command's DS names. DESIGN CHOICE (log entry 45): a hart of another region receives nothing, since a
command changes the state of its own region only (R9). -/
def State.streamHart (s : State) (c : EngCmd) : Option Hart :=
  (s.placedHart c.hartid).filter fun h => h.region == c.slot.region

/-- A buffer that holds a command's data. -/
def StreamBuf.of (b : StreamBuf) (c : EngCmd) : Bool :=
  b.live && b.ce.toNat == c.slot.engine.val && b.seq.toNat == c.slot.seq % 2 ^ 32

/-- The buffer takes the bytes of a command: its own, or it holds no unread byte of another. -/
def Hart.bufferTakes (h : Hart) (c : EngCmd) : Bool := !(h.stream c.streamReg).live || (h.stream c.streamReg).of c ||
  (h.stream c.streamReg).data.isEmpty

/-- Bytes that are the last of a command go into the buffer of its stream; what does not fit stays with the command, and
all of them while the buffer holds unread bytes of another (R253). DESIGN CHOICE (log entry 37): where the hart that the
command names is not placed, its data are dropped. -/
def deliver (c : EngCmd) (bs : List Byte) (s : State) : State :=
  match s.streamHart c with
  | none => s.perform c
  | some h =>
    let old := h.stream c.streamReg
    if !h.bufferTakes c then s.setPhase c (.stalled bs)
    else
      let b : StreamBuf :=
        if old.of c then old
        else
          { live := true, ce := BitVec.ofNat 6 c.slot.engine.val, seq := BitVec.ofNat 32 c.slot.seq,
            pos := c.byteCount - bs.length, total := c.byteCount, data := [] }
      let room := streamRoom - b.data.length
      let s1 := s.onPlaced c.hartid fun h => h.setStream c.streamReg { b with data := b.data ++ bs.take room }
      if bs.length ≤ room then s1.perform c else s1.setPhase c (.stalled (bs.drop room))

/-- A copy into a stream. -/
def streamOp (c : EngCmd) (s : State) : State :=
  if ((s.streamHart c).map (·.bufferTakes c)).getD true then
    match streamRows c c.rows 0 s with
    | .ok (s1, bs) => deliver c bs s1
    | .fault f u => u.failCmd c (faultedBy f)
    | .wait => s
  else s

/-- A command's operation on memory. -/
def memoryOp (put : Nat → List Target → State → Acc State) (c : EngCmd) (s : State) : State :=
  match c.dest s with
  | .fault f u => u.failCmd c (faultedBy f)
  | .wait => s
  | .ok (s1, rows) =>
    match rowsOp c put rows s1 with
    | .ok t => t.perform c
    | .fault t p => t.failCmd c p
    | .wait => s

/-- A copy operation of an engine (Table 11-3). -/
def copyOp (op : Nat) (e : Fin 64) (s : State) : Out :=
  match s.startedOp e.val op with
  | none => .next s
  | some c => .next (if c.ds then streamOp c s else memoryOp (copyRow c) c s)

/-- VOID: nothing. -/
def execEngVoid (e : Fin 64) (s : State) : Out :=
  match s.startedOp e.val 0 with
  | none => .next s
  | some c => .next (s.perform c)
/-- COPY (R250). -/
def execEngCopy (e : Fin 64) (s : State) : Out := copyOp 1 e s
/-- COPY2D (R250). -/
def execEngCopy2d (e : Fin 64) (s : State) : Out := copyOp 2 e s
/-- COPYD (R250, R278): the sectors hold the block's bytes, so the bytes that reach the destination are those of
COPY2D. -/
def execEngCopyd (e : Fin 64) (s : State) : Out := copyOp 3 e s
/-- FILL (R250). -/
def execEngFill (e : Fin 64) (s : State) : Out :=
  match s.startedOp e.val 4 with
  | none => .next s
  | some c => .next (memoryOp (fillRow c) c s)
/-- ROWGATHER (R250). -/
def execEngRowgather (e : Fin 64) (s : State) : Out := copyOp 5 e s

/-- STREAM_BUFFER_RESUME: a stalled delivery goes on as reads free room (R253). -/
def execStreamBufferResume (e : Fin 64) (s : State) : Out :=
  match s.running.find? fun c => c.slot.engine.val == e.val && (match c.phase with
      | .stalled _ => true
      | _ => false) with
  | none => .next s
  | some c =>
    match c.phase with
    | .stalled rest => .next (deliver c rest s)
    | _ => .next s

/-! ### Memory service operations (R280 to R284) -/

/-- FROZEN of a hotness word (Table 12-7). -/
def frozenBit : Word := 0x8000000000000
/-- Cycles of 8 ms. -/
def moveWindow : Nat := 5600000
/-- The hotness word without its counters. -/
def clearCounters (x : Word) : Word := x &&& frozenBit

/-- The moves of a frame that are less than 8 ms old. -/
def State.recentMoves (s : State) (frame : Nat) : List Nat :=
  (mapGet [] s.ctl.moves frame).filter fun t => decide (s.time < t + moveWindow)

/-- The blocks of a frame. -/
def frameBlocks (frame : Nat) : List Nat := (List.range 256).map (256 * frame + ·)

/-- The frame that holds the j-th virtual page of a command (R280), translated with kind M; a frame of which a die holds
blocks secure is refused to a non-secure command (R396). -/
def serviceFrame (c : EngCmd) (j : Nat) (s : State) : Acc (State × Nat) :=
  let va := c.addr 1 + BitVec.ofNat 64 (65536 * j)
  match Machine.translate s c.slot.agent .engine .rmw va with
  | .fault f u => .fault f u
  | .wait => .wait
  | .ok (s1, .mem l) =>
    if lpddrEnd ≤ l then .fault { cause := .access, addr := va } s1
    else if s1.frameRefused c.slot.secure (l / 65536) then .fault { cause := .world, addr := va } s1
    else .ok (s1, l / 65536)
  | .ok (s1, _) => .fault { cause := .access, addr := va } s1

/-- An engine owns a line of a frame. -/
def State.frameOwned (s : State) (frame : Nat) : Bool := s.owned.any fun o => overlaps o.lo o.len (65536 * frame) 65536

/-- An operation on each frame in turn. -/
def eachFrame (c : EngCmd) (f : Nat → Nat → State → OpRes) : Nat → Nat → State → OpRes
  | 0, _, s => .ok s
  | n + 1, j, s =>
    match serviceFrame c j s with
    | .fault f u => .fault u (faultedBy f)
    | .wait => .wait
    | .ok (s1, frame) =>
      if s1.frameOwned frame then .wait
      else match f j frame s1 with
        | .ok s2 => eachFrame c f n (j + 1) s2
        | x => x

/-- Some block of a frame holds an uncorrectable error. -/
def State.frameBad (s : State) (frame : Nat) : Bool := (frameBlocks frame).any s.badUnit

/-- PGMODE of a frame: the attribute, and every block encoded afresh; a block with an uncorrectable error is replaced
and faults the command (R274, R283). -/
def pgmodeFrame (c : EngCmd) (frame : Nat) (s : State) : OpRes :=
  let want := (c.word 3).getLsbD 0
  if mapGet false s.ctl.compressed frame = want then .ok s
  else
    let bad := s.frameBad frame
    let s1 := s.onCtl fun k => { k with
      compressed := mapSet false k.compressed frame want
      bad := k.bad.filter fun b => b / 256 != frame }
    let s2 := (frameBlocks frame).foldl (fun t b => t.encodeBlock b) s1
    if bad then .fault s2 (.faulted 4 (c.addr 1)) else .ok s2

/-- PGZERO of a frame (Table 12-6). -/
def pgzeroFrame (frame : Nat) (s : State) : State :=
  { s with
    mem := s.mem.filter fun p => p.1 / 65536 != frame
    ctl := { s.ctl with
      blockMeta := s.ctl.blockMeta.filter fun p => p.1 / 256 != frame
      hotness := mapSet 0 s.ctl.hotness frame (clearCounters (mapGet 0 s.ctl.hotness frame))
      moves := mapSet [] s.ctl.moves frame []
      watch := s.ctl.watch.filter fun g => g / 2048 != frame
      bad := s.ctl.bad.filter fun b => b / 256 != frame
      sectors := s.ctl.sectors.filter fun p => p.1 / 256 != frame
      lines := s.ctl.lines.filter fun b => b / 256 != frame
      dirty := s.ctl.dirty.filter fun b => b / 256 != frame } }

/-- The hotness word that HOTREAD writes (Table 12-7). -/
def State.hotWord (s : State) (frame : Nat) : Word :=
  mapGet 0 s.ctl.hotness frame ||| BitVec.ofNat 64 (2 ^ 48 * (s.recentMoves frame).length)

/-- HOTREAD of the j-th frame; a block in error cannot take the word (R279, R364). -/
def hotreadFrame (c : EngCmd) (j frame : Nat) (s : State) : OpRes :=
  let va := c.word 3 + BitVec.ofNat 64 (8 * j)
  match access s c.slot.agent .engine .store va 8 with
  | .fault f u => .fault u (faultedBy f)
  | .wait => .wait
  | .ok (s1, ts) =>
    if ts.any s1.badTarget then .fault s1 (.faulted 4 va) else .ok (writeTargets s1 ts (leBytes 8 (s.hotWord frame).toNat))

/-- HOTCLEAR of a frame. -/
def hotclearFrame (frame : Nat) (s : State) : State :=
  s.onCtl fun k => { k with hotness := mapSet 0 k.hotness frame (clearCounters (mapGet 0 k.hotness frame)) }

/-- A MIGFREEZE event: every placed hart's counters and the module's (R284, Table 17-3). -/
def State.countFreeze (s : State) : State :=
  let f (h : Hart) : Hart := { h with csr := h.csr.count 0x12 1 }
  { s with hart := f s.hart, others := s.others.map f, migfreeze := s.migfreeze + 1 }

/-- Entries of a sorted map with keys from `lo`, `n` of them, moved to `dst` in place of what stood there. -/
def moveKeys {α : Type} (m : SMap α) (lo dst n : Nat) : SMap α :=
  let part := (m.filter fun p => decide (lo ≤ p.1) && decide (p.1 < lo + n)).map fun p => (p.1 - lo + dst, p.2)
  m.takeWhile (fun p => decide (p.1 < dst)) ++ part ++ m.dropWhile fun p => decide (p.1 < dst + n)

/-- Likewise for a rising list of numbers. -/
def moveSet (l : List Nat) (lo dst n : Nat) : List Nat :=
  let part := (l.filter fun x => decide (lo ≤ x) && decide (x < lo + n)).map fun x => x - lo + dst
  l.takeWhile (fun x => decide (x < dst)) ++ part ++ l.dropWhile fun x => decide (x < dst + n)

/-- The copy of a frame to a target frame, both by location, with its watch bits, counters and move record (R284). -/
def moveFrame (src dst : Nat) (s : State) : State :=
  let hot := mapGet 0 s.ctl.hotness src &&& ~~~frozenBit
  let record := ((mapGet [] s.ctl.moves src).drop ((mapGet [] s.ctl.moves src).length - 3)) ++ [s.time]
  let s1 : State := { s with
    mem := moveKeys s.mem (65536 * src) (65536 * dst) 65536
    ctl := { s.ctl with
      watch := moveSet s.ctl.watch (2048 * src) (2048 * dst) 2048
      bad := s.ctl.bad.filter fun b => b / 256 != dst
      lines := s.ctl.lines.filter fun b => b / 256 != dst
      dirty := s.ctl.dirty.filter fun b => b / 256 != dst
      hotness := mapSet 0 (mapSet 0 s.ctl.hotness src hot) dst hot
      moves := mapSet [] (mapSet [] s.ctl.moves src []) dst record } }
  if 65536 * dst < lpddrEnd then (frameBlocks dst).foldl (fun t b => t.encodeBlock b) s1 else s1

/-- MIGRATE refuses a page that has moved four times within 8 ms: FROZEN, and a message to the target device (R284). -/
def freezeFrame (src target : Nat) (s : State) : State :=
  (s.onCtl fun k => { k with
    hotness := mapSet 0 k.hotness src (mapGet 0 k.hotness src ||| frozenBit)
    freezeOut := if lpddrEnd ≤ target then k.freezeOut + 1 else k.freezeOut }).countFreeze

/-- MIGRATE of a command (R284): the target must exist (R264), and neither world may refuse it (R396). -/
def migrateFrame (c : EngCmd) (src : Nat) (s : State) : OpRes :=
  let target := (c.word 3 &&& 0xFFFFFFFF0000).toNat
  let dst := s.physLoc target / 65536
  match physCheck s c.slot.secure target with
  | some k => .fault s (.faulted k.engineCode (BitVec.ofNat 64 target))
  | none =>
    if decide (target < lpddrEnd) && s.frameRefused c.slot.secure dst then .fault s (.faulted 5 (BitVec.ofNat 64 target))
    else if 4 ≤ (s.recentMoves src).length then .ok (freezeFrame src target s)
    else if s.frameBad src then .fault s (.faulted 4 (c.addr 1))
    else if s.frameOwned dst then .wait
    else .ok (moveFrame src dst s)

/-- A memory service operation of an engine: `n` frames. -/
def serviceOp (op : Nat) (d : Fin 4) (n : EngCmd → Nat) (f : EngCmd → Nat → Nat → State → OpRes) (s : State) : Out :=
  match s.startedOp (64 + d.val) op with
  | none => .next s
  | some c =>
    match eachFrame c (f c) (n c) 0 s with
    | .ok t => .next (t.perform c)
    | .fault t p => .next (t.failCmd c p)
    | .wait => .next s

/-- The page count of a command. -/
def EngCmd.pages (c : EngCmd) : Nat := c.field 2 0 32

/-- PGMODE (R280). -/
def execPgmode (d : Fin 4) (s : State) : Out := serviceOp 16 d EngCmd.pages (fun c _ fr t => pgmodeFrame c fr t) s
/-- PGZERO (R280). -/
def execPgzero (d : Fin 4) (s : State) : Out := serviceOp 17 d EngCmd.pages (fun _ _ fr t => .ok (pgzeroFrame fr t)) s
/-- HOTREAD (R280, R282). -/
def execHotread (d : Fin 4) (s : State) : Out := serviceOp 18 d EngCmd.pages (fun c j fr t => hotreadFrame c j fr t) s
/-- HOTCLEAR (R280). -/
def execHotclear (d : Fin 4) (s : State) : Out := serviceOp 19 d EngCmd.pages (fun _ _ fr t => .ok (hotclearFrame fr t)) s
/-- MIGRATE (R284). -/
def execMigrate (d : Fin 4) (s : State) : Out := serviceOp 20 d (fun _ => 1) (fun c _ fr t => migrateFrame c fr t) s

/-- MIGFREEZE_MESSAGE: a peer has refused to move a page here, and this module counts it too (R284). -/
def execMigfreezeMessage (s : State) : Out := .next s.countFreeze

/-! ### Completion, fault and resumption (R247, R248, R314) -/

/-- The command is the oldest running one of its chain: completion follows sequence order (R244). -/
def State.isOldest (s : State) (c : EngCmd) : Bool := (s.runningOf c.slot).head?.map (·.slot) == some c.slot

/-- The chain's DONE word written with release (R247, R248); none while another engine owns its line. -/
def writeDone (c : EngCmd) (x : Nat) (s : State) : Option State :=
  match storeAt s c.slot.agent .engine c.slot.chain (leBytes 8 x) with
  | .ok d => some (d.st.releaseTargets d.targets)
  | .fault _ u => some u
  | .wait => none

/-- The arrival add of a command with AV = 1. -/
def arrivalAdd (c : EngCmd) (s : State) : Acc State :=
  if !(c.word 0).getLsbD 13 then .ok s
  else match rmwAt s c.slot.agent .engine (c.addr 7) 8 fun x => some ((x + c.field 0 16 16) % 2 ^ 64) with
    | .ok d => .ok (d.st.releaseTargets d.targets)
    | .fault f u => .fault f u
    | .wait => .wait

/-- A command leaves the engine. -/
def State.dropCmd (s : State) (c : EngCmd) : State :=
  { s with
    running := s.running.filter fun d => d.slot != c.slot
    slotRecs := s.slotRecs.filter fun r => r != c.slot }

/-- The performed command of an engine that may complete. -/
def State.performedCmd (s : State) (e : Fin 68) : Option EngCmd :=
  s.running.find? fun c => c.slot.engine == e && s.isOldest c && (match c.phase with
    | .performed => true
    | _ => false)

/-- ENGINE_COMMAND_COMPLETE (R247). -/
def execEngineCommandComplete (e : Fin 68) (s : State) : Out :=
  match s.performedCmd e with
  | none => .next s
  | some c =>
    match arrivalAdd c s with
    | .fault f u => .next (u.setPhase c (faultedBy f))
    | .wait => .next s
    | .ok s1 => .next (((writeDone c (c.slot.seq % 2 ^ 48) s1).map (·.dropCmd c)).getD s)

/-- HALT of a chain set to 1 (R248); none while another engine owns its line. -/
def setHalt (c : EngCmd) (s : State) : Option State :=
  match rmwAt s c.slot.agent .engine (c.slot.chain + 0x18) 8 fun x => if x.testBit 24 then none else some (x + 2 ^ 24) with
  | .ok d => some d.st
  | .fault _ u => some u
  | .wait => none

/-- A command's uncorrectable error raises a machine check at the hart that enqueued it, when that hart is placed, and
its message (R364). -/
def engineCheck (c : EngCmd) (code : Nat) (addr : Word) (s : State) : State :=
  if code ≠ 4 then s
  else
    let hit (h : Hart) : Bool := h.csr.hartid == c.slot.hartid && h.region == c.slot.region
    (s.onPlaced c.slot.hartid fun h => if hit h then { h with pendMchk := h.pendMchk ++ [(1, addr)] } else h).sendFault
      (mchkMsg c.slot.domain c.slot.hartid c.slot.chain addr s.time)

/-- The faulted command of an engine that may report. -/
def State.faultedCmd (s : State) (e : Fin 68) : Option EngCmd :=
  s.running.find? fun c => c.slot.engine == e && s.isOldest c && (match c.phase with
    | .faulted _ _ => true
    | _ => false)

/-- ENGINE_COMMAND_FAULT (R248). -/
def execEngineCommandFault (e : Fin 68) (s : State) : Out :=
  match s.faultedCmd e with
  | none => .next s
  | some c =>
    match c.phase with
    | .faulted code addr =>
      match (writeDone c (2 ^ 63 + code * 2 ^ 48 + c.slot.seq % 2 ^ 48) s).bind (setHalt c) with
      | none => .next s
      | some s1 =>
        let s2 := (s1.failCmd c .halted).sendFault
          { domain := c.slot.domain, kind := 3, code := BitVec.ofNat 8 code, source := BitVec.ofNat 32 (2 ^ 31 + e.val),
            object := c.slot.chain, addr := addr, time := s.time }
        .next (engineCheck c code addr s2)
    | _ => .next s

/-- A halted command whose chain's HALT has been written 0 is read from its slot again and taken up (R248, R314); it
stays halted while its descriptor cannot be read. -/
def resumeCmd (c : EngCmd) (s : State) : Option State :=
  match readChain s c.slot with
  | .ok (s1, v) =>
    if v.halt then none
    else
      (fetchSlot s1 c.slot v).bind fun f =>
        (consume v f.1 f.2.2).map fun p =>
          { p.1 with running := p.1.running.map fun x => if x.slot = c.slot then p.2 else x }
  | _ => none

/-- CHAIN_RESUME: the engine runs again the first of its halted commands that may go on (R248, R314). -/
def execChainResume (e : Fin 68) (s : State) : Out :=
  if s.engineBusy e then .next s
  else .next (((s.running.filter fun c => c.slot.engine == e && c.phase == .halted).findSome? (resumeCmd · s)).getD s)

end Sys2Proof.Machine
end

