-- ==== Sys2Proof/Machine/Helm.lean ====
section
/-! DEFINITION. The Helm (R319 to R333): the region tree with its effective values, launch records, Fit, the Gimbal's
reservations, placement, retirement, pre-emption and resumption, and the walk. -/

namespace Sys2Proof.Machine

/-! ### Region control blocks (Table 15-1, R319, R320) -/

/-- An element put before the first that it may precede. -/
def insertRank {α : Type} (le : α → α → Bool) (x : α) : List α → List α
  | [] => [x]
  | y :: ys => if le x y then x :: y :: ys else y :: insertRank le x ys

/-- A list in order; elements of equal rank keep theirs. -/
def sortRank {α : Type} (le : α → α → Bool) : List α → List α
  | [] => []
  | x :: xs => insertRank le x (sortRank le xs)

/-- The effective values of a region. -/
structure Eff where
  prio : Nat
  world : Bool
  det : Bool
  pinned : Bool
  cd : Bool
  pmode : BitVec 2
  vlr8 : Bool
  share : BitVec 8
  domain : BitVec 16
  slots : Nat
  watts : Nat
  gangs : Nat
  ptroot : Option (BitVec 48)
  tvec : Word
  chtab : Option Word

/-- Defaults at the root (Table 15-2). -/
def Eff.default : Eff :=
  { prio := 0, world := false, det := false, pinned := false, cd := false, pmode := 0, vlr8 := false, share := 1,
    domain := 0, slots := 4096, watts := 2600, gangs := 4096, ptroot := none, tvec := 0, chtab := none }

/-- The effective values of a region from its doublewords and its parent's (R320). -/
def Eff.of (p : Eff) (w : Nat → Nat) : Eff :=
  let own (f : Nat) : Bool := (w 4).testBit f
  { prio := if own 0 then bitsOf (w 5) 0 4 else p.prio
    world := if own 1 then (w 5).testBit 4 else p.world
    det := if own 2 then (w 5).testBit 5 else p.det
    pinned := if own 3 then (w 5).testBit 6 else p.pinned
    cd := if own 4 then (w 5).testBit 12 else p.cd
    pmode := if own 5 then BitVec.ofNat 2 (bitsOf (w 5) 8 2) else p.pmode
    vlr8 := if own 6 then (w 5).testBit 11 else p.vlr8
    share := if own 7 then BitVec.ofNat 8 (bitsOf (w 5) 16 8) else p.share
    domain := if own 8 then BitVec.ofNat 16 (bitsOf (w 5) 32 16) else p.domain
    slots := if own 9 then bitsOf (w 6) 0 16 else p.slots
    watts := if own 10 then bitsOf (w 6) 16 16 else p.watts
    gangs := if own 11 then bitsOf (w 6) 32 16 else p.gangs
    ptroot := if own 12 then some (BitVec.ofNat 48 (w 7)) else p.ptroot
    tvec := if own 13 then BitVec.ofNat 64 (w 8) else p.tvec
    chtab := if own 14 then some (BitVec.ofNat 64 (w 9)) else p.chtab }

/-- Bits that doubleword j of an RCB may hold; USE is the Helm's. -/
def rcbMask (j : Nat) : Nat :=
  match j with
  | 0 => 0xFFFFFFFFFF00
  | 1 => 0xFFFFFFFFFF00
  | 2 => 0xFFFFFFFFFF00
  | 3 => 0xFFFFFFFFFF80
  | 4 => 0x7FFF
  | 5 => 0xFFFF00FF1B7F
  | 6 => 0xFFFFFFFFFFFF
  | 7 => 0xFFFFFFFF0000
  | 8 => 0xFFFFFFFFFFFC3
  | 9 => 0xFFFFFFFFFFFC0
  | 10 => 0xFFFFFFFFFFFFF
  | _ => 0

/-- A number holds a bit outside a mask. -/
def outside (x mask : Nat) : Bool := x &&& mask != x

/-- An RCB is bad (R322), seen with its parent's effective values. -/
def rcbBad (parent : Option Eff) (e : Eff) (w : Nat → Nat) : Bool :=
  (List.range 32).any (fun j => outside (w j) (rcbMask j)) || e.share == 0 ||
    (match parent with
    | some p => e.world && !p.world
    | none => false) ||
    (List.range 4).any fun j => decide (lpddrEnd ≤ w j)

/-- An RCB on the way to a region, with its SLOTS, GANGS and WATTS, and whether the link that led to it lies in a secure
frame. -/
structure Anc where
  rcb : Nat
  slots : Nat
  gangs : Nat
  watts : Nat
  secure : Bool

/-- A leaf region that the walk has found: its RCB, its parent, its ancestors with itself first, its effective values,
the first record of its chain, and whether the link that led to the record in hand lies in a secure frame. -/
structure Leaf where
  rcb : Nat
  parent : Nat
  anc : List Anc
  eff : Eff
  chain : Nat
  recSecure : Bool

/-- An RCB that the walk has still to visit: its address, whether the link that names it lies in a secure frame, its
parent's effective values, and its ancestors, nearest first. -/
structure Visit where
  rcb : Nat
  secure : Bool
  parent : Option Eff
  anc : List Anc

/-- What a walk of the tree gathers: the leaves in depth-first order; the RCBs to skip, each with its parent's DOMAIN
and whether it may be read; those with an uncorrectable error; and whether an engine owns a line of one (R311). -/
structure TreeScan where
  seen : List Nat
  leaves : List Leaf
  bad : List (Nat × BitVec 16 × Bool)
  unread : List (Nat × BitVec 16)
  waits : Bool

/-- An engine owns a line of some bytes of LPDDR6 (R311). -/
def State.ownedBytes (s : State) (a n : Nat) : Bool := (List.range (n / 64)).any fun k => s.ownedLoc none (a + 64 * k)

/-- Depth-first over the RCBs that wait, CHILD before SIBLING (R322, R326). An RCB that its link may not reach is one to
skip (log entry 53). `fuel` bounds the visits. -/
def scanTree (s : State) : Nat → List Visit → TreeScan → TreeScan
  | 0, _, t => t
  | _, [], t => t
  | fuel + 1, v :: vs, t =>
    let dom := (v.parent.map (·.domain)).getD 0
    let skip (readable : Bool) : TreeScan := { t with bad := t.bad ++ [(v.rcb, dom, readable)] }
    if v.rcb = 0 then scanTree s fuel vs t
    else if t.seen.contains v.rcb then scanTree s fuel vs (skip true)
    else if !helmReaches s v.secure v.rcb then scanTree s fuel vs (skip false)
    else if s.ownedBytes v.rcb 256 then { t with waits := true }
    else if s.badUnit (v.rcb / 256) then scanTree s fuel vs { t with unread := t.unread ++ [(v.rcb, dom)] }
    else
      let w (j : Nat) : Nat := s.phys64 (v.rcb + 8 * j)
      let e := Eff.of (v.parent.getD Eff.default) w
      let sec := s.frameSecure v.rcb
      let t1 := { t with seen := v.rcb :: t.seen }
      let sib : Visit := { v with rcb := if lpddrEnd ≤ w 2 then 0 else w 2 / 256 * 256, secure := sec }
      if decide (8 ≤ v.anc.length) || rcbBad v.parent e w then
        scanTree s fuel (sib :: vs) { skip true with seen := t1.seen }
      else
        let me : Anc := { rcb := v.rcb, slots := e.slots, gangs := e.gangs, watts := e.watts, secure := v.secure }
        let anc := me :: v.anc
        if w 1 = 0 then
          let leaf : Leaf :=
            { rcb := v.rcb, parent := (v.anc.head?.map (·.rcb)).getD 0, anc := anc, eff := e, chain := w 3,
              recSecure := sec }
          scanTree s fuel (sib :: vs) { t1 with leaves := t1.leaves ++ [leaf] }
        else scanTree s fuel ({ rcb := w 1, secure := sec, parent := some e, anc := anc } :: sib :: vs) t1

/-- The 256 bytes of an RCB. -/
def rcbBytes (s : State) (a : Nat) : List Byte := readBytes s.mem a 256

/-- A skipped RCB sends one message until its contents change (R322). -/
def skipRcb (s : State) (p : Nat × BitVec 16 × Bool) : State :=
  let bs := if p.2.2 then rcbBytes s p.1 else []
  if s.helm.skipped.contains (p.1, bs) then s
  else
    let kept := s.helm.skipped.filter fun q => q.1 != p.1
    let s1 := { s with helm := { s.helm with skipped := kept ++ [(p.1, bs)] } }
    s1.sendFault { domain := p.2.1, kind := 4, code := 0, source := 0xFFFFFFFF, object := BitVec.ofNat 64 p.1, addr := 0,
                   time := s.time }

/-- The walk's view of the tree from HELMROOT. -/
def State.tree (s : State) : TreeScan :=
  scanTree s (2 ^ 48) [{ rcb := (s.helm.root &&& 0xFFFFFFFFFF00).toNat, secure := true, parent := none, anc := [] }]
    { seen := [], leaves := [], bad := [], unread := [], waits := false }

/-! ### Launch records (Table 15-3, R323 to R325) -/

/-- Doubleword j of a record. -/
def recWord (s : State) (a j : Nat) : Nat := s.phys64 (a + 8 * j)

/-- Bits that doubleword j of a record may hold. -/
def recMask (j : Nat) : Nat :=
  match j with
  | 0 => 0xFFFFFFFFFF80
  | 1 => 0xFFFFFFFFFFFFE
  | 2 => 0xFFFFFFFFFFFFFFFF
  | 3 => 0xFFFF07007FFFFF
  | 4 => 0xFF00FFFFFFFFFFFF
  | 5 => 0xFF00FFFFFFFFFFFF
  | 6 => 0xFF00FFFFFFFFFFFF
  | 7 => 0xFF00FFFFFFFFFFFF
  | 8 => 0xFFFFFFFFFFFC0
  | 9 => 0xE000FFFFFFFFFFFF
  | _ => 0

/-- Harts per gang. -/
def recH (s : State) (a : Nat) : Nat := bitsOf (recWord s a 3) 16 7
/-- Gangs. -/
def recG (s : State) (a : Nat) : Nat := bitsOf (recWord s a 3) 0 16
/-- The declared step of a gang in eighths of a watt; 0 stands for 4 · H. -/
def recStep (s : State) (a : Nat) : Nat :=
  if bitsOf (recWord s a 3) 40 16 = 0 then 4 * recH s a else bitsOf (recWord s a 3) 40 16
/-- Gangs placed at least once. -/
def recPlaced (s : State) (a : Nat) : Nat := bitsOf (recWord s a 9) 0 16

/-- What the Helm finds at a chain: no record to run, the current record with whether the link that led to it lies in a
secure frame, a line that an engine owns (R311), or a record with an uncorrectable error. -/
inductive RecFind where
  | none
  | found (a : Nat) (secure : Bool)
  | wait
  | bad (a : Nat)

/-- The first record of a chain whose DONE is 0 (R324); a record that its link may not reach is none (log entry 53). -/
def currentRecord (s : State) : Nat → Bool → Nat → RecFind
  | 0, _, _ => .none
  | fuel + 1, secure, a =>
    if a = 0 || !helmReaches s secure a then .none
    else if s.ownedBytes a 128 then .wait
    else if s.badUnit (a / 256) then .bad a
    else if (recWord s a 9).testBit 63 then
      currentRecord s fuel (s.frameSecure a) (recWord s a 0 / 128 * 128 % 2 ^ 48)
    else .found a secure

/-- The current record of a leaf. -/
def Leaf.current (leaf : Leaf) (s : State) : RecFind := currentRecord s (2 ^ 41) leaf.recSecure leaf.chain

/-- STATE of a leaf's record changed by the Helm, with release (R323). -/
def State.setRecState (s : State) (leaf : Leaf) (a : Nat) (c : HelmChange) : State :=
  s.helmWrites [{ base := a, secure := leaf.recSecure, domain := leaf.eff.domain, change := c }]

/-- The Helm's accesses for a region (R324, R325); it stands on no core, and so has no TLB. -/
def Eff.agent (e : Eff) (sup : Bool) : Agent :=
  { sup := sup, secure := e.world, ptroot := e.ptroot, core := 512, cluster := 64, hartid := 0, region := 0,
    domain := e.domain, engine := none, pins := [] }

/-- The doubleword that the Helm reads at a virtual address, which is no window. -/
def helmRead (e : Eff) (s : State) (va : Word) : Acc (State × Nat) :=
  if 0xFFF0000000000 ≤ va.toNat then .fault { cause := .access, addr := va } s
  else match access s (e.agent true) .scalar .load va 8 with
    | .ok (s1, ts) =>
      if ts.any s1.badTarget then .fault { cause := .mchk, addr := va } s1
      else .ok (s1, leNat (ts.map (targetByte s1 (e.agent true))))
    | .fault f u => .fault f u
    | .wait => .wait

/-- The DONE word of the chain that dependence n names, when the dependence is valid. -/
def depDone (e : Eff) (a n : Nat) (s : State) : Acc (State × Option (Nat × Nat)) :=
  let d := recWord s a (4 + n)
  if !d.testBit 63 then .ok (s, none)
  else match e.chtab with
    | none => .fault { cause := .xlate, addr := 0 } s
    | some t =>
      match helmRead e s (t + BitVec.ofNat 64 (8 * bitsOf d 56 7)) with
      | .fault f u => .fault f u
      | .wait => .wait
      | .ok (s1, chain) =>
        match helmRead e s1 (BitVec.ofNat 64 chain) with
        | .fault f u => .fault f u
        | .wait => .wait
        | .ok (s2, done) => .ok (s2, some (done, bitsOf d 0 48))

/-- Every dependence can be read, with whether all are met (R324). -/
def depsMet (e : Eff) (a : Nat) : List Nat → State → Acc (State × Bool)
  | [], s => .ok (s, true)
  | n :: ns, s =>
    match depDone e a n s with
    | .fault f u => .fault f u
    | .wait => .wait
    | .ok (s1, d) =>
      match depsMet e a ns s1 with
      | .fault f u => .fault f u
      | .wait => .wait
      | .ok (s2, b) => .ok (s2, b && match d with
        | none => true
        | some (done, seq) => !done.testBit 63 && decide (seq ≤ bitsOf done 0 48))

/-- ENTRY translates as a fetch in U, and SAVE, when it is not 0, as a read-modify-write in S (R325). -/
def recAddresses (e : Eff) (a : Nat) (s : State) : Acc State :=
  match Machine.translate s (e.agent false) .scalar .fetch (BitVec.ofNat 64 (recWord s a 1)) with
  | .fault f u => .fault f u
  | .wait => .wait
  | .ok (s1, _) =>
    if recWord s a 8 = 0 then .ok s1
    else match Machine.translate s1 (e.agent true) .scalar .rmw (BitVec.ofNat 64 (recWord s a 8)) with
      | .fault f u => .fault f u
      | .wait => .wait
      | .ok (s2, _) => .ok s2

/-- A record checked (R325). -/
inductive RecCheck where
  | malformed (s : State)
  /-- the state after the Helm's reads with whether the dependences are met, which they are not while an engine owns a
  line that the Helm reads (R311) or one holds an uncorrectable error -/
  | sound (s : State) (met : Bool)

/-- A fault of the Helm's reads for a record: an uncorrectable error raises its machine check (R364), and any other
makes the record malformed. -/
def recFault (e : Eff) (f : MemFault) (s : State) : RecCheck :=
  if f.cause = .mchk then .sound (s.helmCheck e.domain f.addr.toNat) false else .malformed s

/-- The check of a record (R325). -/
def checkRecord (e : Eff) (a : Nat) (s : State) : RecCheck :=
  let h := recH s a
  let d3 := recWord s a 3
  if (List.range 16).any (fun j => outside (recWord s a j) (recMask j)) || recG s a = 0 || h = 0 || decide (64 < h) ||
      (decide (32 < h) && !e.vlr8) || d3.testBit 23 then .malformed s
  else match recAddresses e a s with
    | .fault f u => recFault e f u
    | .wait => .sound s false
    | .ok s1 =>
      match depsMet e a [0, 1, 2, 3] s1 with
      | .fault f u => recFault e f u
      | .wait => .sound s false
      | .ok p => .sound p.1 p.2

/-! ### Fit (R321, R327, R333) -/

/-- What Fit needs of a gang: the harts to place, the mode of its cores, its region and its world. -/
structure Need where
  harts : Nat
  pmode : BitVec 2
  vlr8 : Bool
  cd : Bool
  region : Nat
  secure : Bool
  prio : Nat

/-- Front-ends that gangs hold on a core. -/
def State.heldPlaces (s : State) (core : Nat) : List (Nat × Fin 8) :=
  (s.helm.gangs.flatMap (·.places)).filter fun p => p.1 / 8 == core

/-- Harts that a core can hold (R17). -/
def Need.limit (n : Need) : Nat := if n.vlr8 then 8 else 4

/-- The address of a command's destination in memory, none for a stream and for the operations that have none (R262). -/
def SlotRec.aim (r : SlotRec) : Option Nat :=
  let op := r.cmd0.toNat % 256
  if op = 0 ∨ (r.engine.val < 64 ∧ r.cmd0.getLsbD 14) ∨ (64 ≤ r.engine.val ∧ op ≠ 18) then none
  else some ((if r.engine.val < 64 then r.cmd2 else r.cmd3) &&& 0xFFFFFFFFFFFFF).toNat

/-- A command's destination lies in the window of a core, or names a stream register of one of its harts (R333). -/
def SlotRec.aimsAtCore (r : SlotRec) (core : Nat) : Bool :=
  match r.aim with
  | some a => decide (0xFFF1000000000 ≤ a) && decide (a < 0xFFF2000000000) && coreOf r.hartid == core
  | none =>
    r.cmd0.toNat % 256 != 0 && decide (r.engine.val < 64) && r.cmd0.getLsbD 14 && r.cmd2.toNat % 4096 / 8 == core

/-- A command's destination lies in the window of a cluster (R333). -/
def SlotRec.aimsAtCluster (r : SlotRec) (cl : Nat) : Bool :=
  match r.aim with
  | some a => decide (0xFFF2000000000 ≤ a) && decide (a < 0xFFF3000000000) && clusterOf r.hartid == cl
  | none => false

/-- A region has a gang on front-ends that meet a condition: it has not departed from them. -/
def State.stays (s : State) (region : Nat) (here : Nat → Bool) : Bool :=
  s.helm.gangs.any fun g => g.region == region && g.places.any fun p => here p.1

/-- No command of a region that has left the core, or its cluster, is still aimed at it (R333). -/
def State.coreQuiet (s : State) (core region : Nat) : Bool :=
  s.slotRecs.all fun r =>
    r.region == region ||
      ((!r.aimsAtCore core || s.stays r.region fun p => p / 8 == core) &&
        (!r.aimsAtCluster (core / 8) || s.stays r.region fun p => p / 64 == core / 8))

/-- Front-ends of a core that the Helm holds for other regions, which a gang may not take: those of claims of the same
or a higher priority (R331). -/
def State.claimedFronts (s : State) (n : Need) (core : Nat) : List Nat :=
  ((s.helm.claims.filter fun c => c.region != n.region && decide (n.prio ≤ c.prio)).flatMap (·.fronts)).filter fun f =>
    f / 8 == core && (s.heldPlaces core).all fun p => p.1 != f

/-- Front-ends of a core that a gang may take by R327 and R331. -/
def State.coreSpace (s : State) (n : Need) (core : Nat) : Nat :=
  let c := s.coreSt core
  let held := (s.heldPlaces core).length
  let same := held == 0 || (c.pmode == n.pmode && c.vlr8 == n.vlr8 && c.cd == n.cd)
  if c.secure == n.secure && same then n.limit - (held + (s.claimedFronts n core).length) else 0

/-- Front-ends of a core that a gang may take now: no command of a departed region is still aimed at it (R333). -/
def State.coreRoom (s : State) (n : Need) (core : Nat) : Nat :=
  if s.coreQuiet core n.region then s.coreSpace n core else 0

/-- The core already holds harts of the same mode. -/
def State.coreMatches (s : State) (n : Need) (core : Nat) : Bool :=
  let c := s.coreSt core
  !(s.heldPlaces core).isEmpty && c.pmode == n.pmode && c.vlr8 == n.vlr8 && c.cd == n.cd

/-- Cores of a cluster. -/
def coresIn (cl : Nat) : List Nat := (List.range 8).map (8 * cl + ·)

/-- Free front-ends of a cluster for a gang. -/
def State.clusterRoom (s : State) (n : Need) (cl : Nat) : Nat := ((coresIn cl).map (s.coreRoom n)).sum

/-- The cluster is in service (R398). -/
def State.clusterOpen (s : State) (cl : Nat) : Bool := !(s.clusterSt cl).offline && !(s.clusterSt cl).draining

/-- The cluster that Fit takes for a gang: one that holds harts of the same mode first, then the fewest free
front-ends, then the lowest number (R327). -/
def State.fit (s : State) (n : Need) : Option Nat :=
  let able := (List.range 64).filter fun cl => s.clusterOpen cl && decide (n.harts ≤ s.clusterRoom n cl)
  let better (a b : Nat) : Bool :=
    let ka := ((coresIn a).any (s.coreMatches n), s.clusterRoom n a)
    let kb := ((coresIn b).any (s.coreMatches n), s.clusterRoom n b)
    (kb.1 && !ka.1) || (kb.1 == ka.1 && decide (kb.2 < ka.2))
  able.foldl (fun best cl => match best with
    | none => some cl
    | some a => if better a cl then some cl else some a) none

/-- The budgets of R321 admit one more gang at the leaf and every ancestor. -/
def State.budgetOk (s : State) (anc : List Anc) (h step : Nat) : Bool :=
  anc.all fun a =>
    let u := s.phys64 (a.rcb + 0x50)
    decide (bitsOf u 0 16 + h ≤ a.slots) && decide (bitsOf u 16 16 + 1 ≤ a.gangs) &&
      decide (bitsOf u 32 20 + step ≤ 8 * a.watts)

/-! ### Binding front-ends (R12, R24, R327, R328, R332) -/

/-- Partitions of a lane-partition mode (Table 01-1). -/
def partitionsOf (pmode : BitVec 2) : Nat := 2 ^ pmode.toNat

/-- The partition that holds the fewest harts, the lowest on a tie. -/
def leastPartition (held : List (Nat × Fin 8)) (n : Nat) : Fin 8 :=
  let count (p : Nat) : Nat := (held.filter fun h => h.2.val == p).length
  Fin.ofNat 8 ((List.range n).foldl (fun best p => if count p < count best then p else best) 0)

/-- The lowest free slot of a core. -/
def freeSlot (held : List Nat) : Nat := ((List.range 8).find? fun k => held.all fun h => h % 8 != k).getD 0

/-- Front-ends for `k` harts on the cores of a cluster, in ascending core and slot; `held` are the places taken so
far. -/
def takePlaces (s : State) (n : Need) : List Nat → Nat → List (Nat × Fin 8) → List (Nat × Fin 8)
  | [], _, _ => []
  | c :: cs, k, acc =>
    let room := min k (s.coreRoom n c)
    let pick := (List.range room).foldl (fun (got : List (Nat × Fin 8)) _ =>
      let held := s.heldPlaces c ++ got
      got ++ [(8 * c + freeSlot (held.map (·.1) ++ s.claimedFronts n c), leastPartition held (partitionsOf n.pmode))]) []
    takePlaces s n cs (k - room) (acc ++ pick) |> (pick ++ ·)

/-- A core that a gang enters empty takes its mode, with empty slots and zero accumulators (R12, R24). -/
def State.openCore (s : State) (n : Need) (core : Nat) : State :=
  if !(s.heldPlaces core).isEmpty then s
  else
    let c := s.coreSt core
    let s1 := s.setCore core { c with pmode := n.pmode, vlr8 := n.vlr8, cd := n.cd, slot0 := Slot.empty, slot1 := Slot.empty }
    { s1 with
      acc := s1.acc.filter fun p => p.1 / 2 ^ 18 != core
      slots := s1.slots.filter fun p => p.1 / 2 ^ 17 != core }

/-- What one hart of a gang begins with (R34, R328). -/
def launchHart (e : Eff) (n : Need) (g : Gang) (rank : Nat) (place : Nat × Fin 8) (pc arg : Word) (deferred : Nat) : Hart :=
  { Hart.reset with
    pc := pc
    g := Hart.reset.g.set 3 arg
    run := .starting g.slot
    partition := place.2
    ptroot := e.ptroot
    domain := e.domain
    share := e.share
    prio := BitVec.ofNat 4 e.prio
    region := g.region
    gang := g.id
    csr := { Csr.reset.count evRampdefer deferred with
      vlr := if n.vlr8 then 8192 else 16384
      hartid := BitVec.ofNat 12 place.1
      rank := BitVec.ofNat 6 rank
      gangsz := BitVec.ofNat 7 g.h
      tvec := tvecOf e.tvec
      status := { Status.reset with cd := n.cd, det := e.det, pin := e.pinned, world := e.world, pmode := n.pmode } } }

/-- What a hart of a resumed gang begins with (R332). -/
def resumeHart (e : Eff) (n : Need) (g : Gang) (rank : Nat) (place : Nat × Fin 8) : Hart :=
  let h := launchHart e n g rank place (handlerOf (tvecOf e.tvec) cRESUME) g.save 0
  { h with
    handlerEntry := true
    csr := { h.csr with
      cause := BitVec.ofNat 64 cRESUME
      status := { h.csr.status with vs := 0, pie := false, ie := false, priv := true } } }

/-- A hart joins the placed ones; an unoccupied turn goes to it. -/
def State.addHart (s : State) (h : Hart) : State :=
  if s.hart.run = .vacant then { s with hart := h } else { s with others := s.others ++ [h] }

/-- Ballast on a partition ends when a hart is placed on it (R346). -/
def State.endPartitionBallast (s : State) (core : Nat) (p : Fin 8) : State :=
  s.dropBallast core (·.partition == p)

/-- A gang bound to the front-ends of a cluster (R327, R328): its budget is taken and its harts are placed. The region's
claim ends, and so does a claim of lower priority whose front-ends it takes (R331). -/
def bindGang (leaf : Leaf) (n : Need) (g : Gang) (ranks : List Nat) (mk : Gang → Nat → Nat × Fin 8 → Hart) (cl : Nat)
    (s : State) : State :=
  let places := takePlaces s n (coresIn cl) ranks.length []
  let s1 := (places.map (·.1 / 8)).eraseDups.foldl (fun t c => t.openCore n c) s
  let s2 := places.foldl (fun t p => t.endPartitionBallast (p.1 / 8) p.2) s1
  let g1 := { g with
    cluster := cl, places := places, counted := ranks.length, anc := leaf.anc.map fun a => (a.rcb, a.secure) }
  let s3 := s2.helmWrites (g1.useWrites (.take g.step ranks.length))
  let s4 := { s3 with helm := { s3.helm with
    gangs := s3.helm.gangs.filter (·.id != g.id) ++ [g1]
    claims := s3.helm.claims.filter fun c =>
      c.region != leaf.rcb && c.fronts.all fun f => places.all fun p => p.1 != f } }
  (ranks.zip places).foldl (fun t p => t.addHart (mk g1 p.1 p.2)) s4

/-! ### Reservations (R344) -/

/-- The least slot j above k, at most k + 256, with room for `x` in each of `n` slots; `left` slots remain to try. -/
def findSlot (s : State) (x n : Nat) : Nat → Nat → Option Nat
  | 0, _ => none
  | left + 1, j =>
    if (List.range n).all fun i => decide (mapGet 0 s.helm.rise (j + i) + x ≤ s.capEighths) then some j
    else findSlot s x n left (j + 1)

/-- Rise added to `n` slots from j. -/
def State.addRise (s : State) (j n x : Nat) : State :=
  { s with helm := { s.helm with
      rise := (List.range n).foldl (fun m i => mapSet 0 m (j + i) (mapGet 0 m (j + i) + x)) s.helm.rise } }

/-- Elastic reservation for one gang: its slot and the slots its step is spread over. The shares of a step are counted
in whole eighths, rounded up. -/
def reserveElastic (step : Nat) (s : State) : Option (State × Nat × Nat) :=
  let n := max 1 (ceilDiv step (max 1 s.capEighths))
  let x := ceilDiv step n
  match findSlot s x n 256 (s.slotNow + 1) with
  | none => none
  | some j =>
    let s1 := s.addRise j n x
    let s2 := if s.slotNow + 1 < j then { s1 with helm := { s1.helm with rampdefer := s1.helm.rampdefer + 1 } } else s1
    some (s2, j, n)

/-- Reservation for `count` gangs of one step (R344): the slots of those that keep one; none for a pinned set that
does not fit, whose record gets RV and whose domain gets RAMPV. -/
def reserve (leaf : Leaf) (record step count : Nat) (s : State) : State × List (Nat × Nat) :=
  if leaf.eff.pinned then
    let k := s.slotNow + 1
    if mapGet 0 s.helm.rise k + step * count ≤ s.capEighths then
      (s.addRise k 1 (step * count), List.replicate count (k, 1))
    else
      let s1 := (s.setRecState leaf record .rampv).sendFault
        { domain := leaf.eff.domain, kind := 2, code := 0, source := 0xFFFFFFFF, object := BitVec.ofNat 64 record, addr := 0,
          time := s.time }
      ({ s1 with helm := { s1.helm with rampvcnt := s1.helm.rampvcnt + 1 } }, [])
  else
    (List.range count).foldl (fun (p : State × List (Nat × Nat)) _ =>
      match reserveElastic step p.1 with
      | some (t, j, n) => (t, p.2 ++ [(j, n)])
      | none => p) (s, [])

/-! ### Placement (R326, R332) -/

/-- A new gang of a record. -/
def newGang (leaf : Leaf) (a : Nat) (s : State) (slot nslots : Nat) : Gang :=
  let d3 := recWord s a 3
  { id := s.helm.nextGang, region := leaf.rcb, anc := [], record := a, recSecure := leaf.recSecure,
    cluster := 0, h := recH s a, step := recStep s a,
    prio := leaf.eff.prio, domain := leaf.eff.domain, save := BitVec.ofNat 64 (recWord s a 8),
    pmode := if d3.testBit 34 then BitVec.ofNat 2 (bitsOf d3 32 2) else leaf.eff.pmode, vlr8 := leaf.eff.vlr8,
    cd := leaf.eff.cd, order := s.helm.nextGang, places := [], counted := 0, yielded := [], preempted := false,
    preemptAt := none, cap := 8, slot := slot, nslots := nslots }

/-- What Fit needs for a gang with `k` harts to place. -/
def needOf (leaf : Leaf) (g : Gang) (k : Nat) : Need :=
  { harts := k, pmode := g.pmode, vlr8 := g.vlr8, cd := g.cd, region := leaf.rcb, secure := leaf.eff.world,
    prio := leaf.eff.prio }

/-- Binds one new gang of a record at a slot. -/
def placeNew (leaf : Leaf) (a : Nat) (s : State) (p : Nat × Nat) : State :=
  let g := newGang leaf a s p.1 p.2
  let n := needOf leaf g g.h
  match s.fit n with
  | none => s
  | some cl =>
    let mk (g1 : Gang) (rank : Nat) (place : Nat × Fin 8) : Hart :=
      launchHart leaf.eff n g1 rank place (BitVec.ofNat 64 (recWord s a 1)) (BitVec.ofNat 64 (recWord s a 2))
        (p.1 - (s.slotNow + 1))
    let s1 := bindGang leaf n g (List.range g.h) mk cl s
    let s2 := s1.setRecState leaf a .placed
    { s2 with helm := { s2.helm with nextGang := s2.helm.nextGang + 1 } }

/-- How many of at most `k` unplaced gangs the budgets and Fit admit together (R326), found by binding them in a trial
state. -/
def admitted (leaf : Leaf) (a : Nat) : Nat → State → Nat
  | 0, _ => 0
  | k + 1, s =>
    let g := newGang leaf a s 0 1
    if s.budgetOk leaf.anc g.h g.step && (s.fit (needOf leaf g g.h)).isSome then 1 + admitted leaf a k (placeNew leaf a s (0, 1))
    else 0

/-- Place of a placement group of new gangs. -/
def placeGroup (leaf : Leaf) (a count : Nat) (s : State) : State :=
  let r := reserve leaf a (recStep s a) count s
  r.2.foldl (placeNew leaf a) r.1

/-- Place of a pre-empted gang (R332): the harts that yielded are placed again. The flag says whether it was placed. -/
def placeAgain (leaf : Leaf) (g : Gang) (s : State) : State × Bool :=
  let n := needOf leaf g g.yielded.length
  match s.fit n with
  | none => (s, false)
  | some cl =>
    if !s.budgetOk leaf.anc g.yielded.length g.step then (s, false)
    else
      let r := reserve { leaf with recSecure := g.recSecure } g.record g.step 1 s
      match r.2 with
      | (j, k) :: _ =>
        let g1 := { g with yielded := [], preempted := false, preemptAt := none, order := r.1.helm.nextGang, slot := j, nslots := k }
        let mk (g2 : Gang) (rank : Nat) (place : Nat × Fin 8) : Hart := resumeHart leaf.eff n g2 rank place
        let s1 := bindGang leaf n g1 (sortRank (fun a b => decide (a ≤ b)) g.yielded) mk cl r.1
        let s2 := s1.helmWrites [g1.stateWrite .resumed]
        ({ s2 with helm := { s2.helm with nextGang := s2.helm.nextGang + 1 } }, true)
      | [] => (r.1, false)

/-! ### Pre-emption (R331) -/

/-- Gangs that stand on a cluster, in the order in which they become victims: ascending priority, the latest placed
first. -/
def State.victimOrder (s : State) (cl : Nat) : List Gang :=
  sortRank (fun a b => decide (a.prio < b.prio) || (a.prio == b.prio && decide (b.order ≤ a.order)))
    (s.helm.gangs.filter fun g => g.cluster == cl && !g.places.isEmpty)

/-- The state as if gangs had left their front-ends. -/
def State.without (s : State) (gs : List Gang) : State :=
  { s with helm := { s.helm with gangs := s.helm.gangs.filter fun g => gs.all fun v => v.id != g.id } }

/-- A gang would fit in a cluster by R327 on its free front-ends. -/
def State.wouldFit (s : State) (n : Need) (cl : Nat) : Bool :=
  s.clusterOpen cl && decide (n.harts ≤ ((coresIn cl).map (s.coreSpace n)).sum)

/-- The victim set of a cluster: gangs added one at a time until the gang would fit there. -/
def victimSet (s : State) (n : Need) (cl : Nat) : List Gang → List Gang → Option (List Gang)
  | [], _ => none
  | g :: gs, taken =>
    let now := taken ++ [g]
    if (s.without now).wouldFit n cl then some now else victimSet s n cl gs now

/-- The victim cluster: the lowest highest victim priority, then the fewest victims, then the lowest number. -/
def victimCluster (s : State) (n : Need) : Option (Nat × List Gang) :=
  let cands := (List.range 64).filterMap fun cl =>
    match victimSet s n cl (s.victimOrder cl) [] with
    | some vs => if vs.all fun g => decide (g.prio < n.prio) then some (cl, vs) else none
    | none => none
  let key (vs : List Gang) : Nat := (vs.map (·.prio)).foldl max 0
  cands.foldl (fun best c => match best with
    | none => some c
    | some b => if key c.2 < key b.2 ∨ (key c.2 = key b.2 ∧ c.2.length < b.2.length) then some c else some b) none

/-- PREEMPT is raised at every hart of a gang, and its 1 ms begins (R332), unless it has been asked already. -/
def preemptGang (s : State) (g : Gang) : State :=
  let f (h : Hart) : Hart := if h.gang = g.id ∧ h.run ≠ .vacant then { h with pendPreempt := true } else h
  if g.preemptAt.isSome then s
  else { s with
    hart := f s.hart
    others := s.others.map f
    helm := { s.helm with gangs := s.helm.gangs.map fun x => if x.id = g.id then { x with preemptAt := some s.time } else x } }

/-- Preempt(r, L) (R331), which nothing calls for where the gang fits by R327 and only the counts of R333 hold it: the
freed front-ends, with those of the claims that lose to this one, are held for r. While
the victims of an earlier claim have not left, nothing more is pre-empted for it. -/
def preempt (leaf : Leaf) (a : Nat) (s : State) : State :=
  let g := newGang leaf a s 0 1
  let n := needOf leaf g g.h
  let waiting := s.helm.claims.any fun c => c.region == leaf.rcb && c.record == a &&
    s.helm.gangs.any fun x => x.cluster == c.cluster && x.preemptAt.isSome
  if waiting || (List.range 64).any (s.wouldFit n) then s
  else match victimCluster s n with
    | none => s
    | some (cl, vs) =>
      let s1 := vs.foldl preemptGang s
      let lost (c : Claim) : Bool := c.region == leaf.rcb || (c.cluster == cl && decide (c.prio < n.prio))
      let taken := (s1.helm.claims.filter fun c => lost c && c.cluster == cl).flatMap (·.fronts)
      let kept := s1.helm.claims.filter fun c => !lost c
      let mine : Claim :=
        { region := leaf.rcb, record := a, cluster := cl, prio := n.prio
          fronts := (vs.flatMap (·.places.map (·.1)) ++ taken).eraseDups }
      { s1 with helm := { s1.helm with claims := kept ++ [mine] } }

/-! ### The walk (R326) -/

/-- A region whose current record is not the one of its claim loses it (R331). -/
def dropClaims (leaf : Leaf) (cur : Option Nat) (s : State) : State :=
  { s with helm := { s.helm with claims := s.helm.claims.filter fun c => c.region != leaf.rcb || some c.record == cur } }

/-- A leaf's turn when it holds no pre-empted gang and is not blocked. -/
def walkRecord (r : Leaf) (s : State) : State :=
  match r.current s with
  | .none => dropClaims r none s
  | .wait => s
  | .bad a => s.helmCheck r.eff.domain a
  | .found a secure =>
    let leaf := { r with recSecure := secure }
    let s0 := dropClaims leaf (some a) s
    let st := recWord s0 a 9
    if st.testBit 61 then s0
    else match checkRecord leaf.eff a s0 with
      | .malformed u =>
        (u.setRecState leaf a .malformed).sendFault
          { domain := leaf.eff.domain, kind := 5, code := 0, source := 0xFFFFFFFF, object := BitVec.ofNat 64 a, addr := 0,
            time := s.time }
      | .sound s1 met =>
        let left := recG s1 a - recPlaced s1 a
        if !met || st.testBit 62 || left = 0 then s1
        else match admitted leaf a left s1 with
          | 0 => preempt leaf a s1
          | k + 1 => placeGroup leaf a (k + 1) s1

/-- Leaves of lower priority under a region's parent are blocked for the walk. -/
def blockedBy (leaf x : Leaf) : Bool :=
  decide (x.eff.prio < leaf.eff.prio) && (leaf.parent == 0 || x.anc.any fun a => a.rcb == leaf.parent)

/-- Places of a leaf's pre-empted gangs, one after another (R326): the state, and whether one was not placed. -/
def placeAll (r : Leaf) : List Gang → State → State × Bool
  | [], s => (s, false)
  | g :: gs, s =>
    let p := placeAgain r g s
    let q := placeAll r gs p.1
    (q.1, !p.2 || q.2)

/-- The leaves one after another; `blocked` are the RCBs of the blocked ones. -/
def walkLeaves (all : List Leaf) : List Leaf → List Nat → State → State
  | [], _, s => s
  | r :: rs, blocked, s =>
    match s.helm.gangs.filter fun g => g.region == r.rcb && g.preempted with
    | [] => if blocked.contains r.rcb then walkLeaves all rs blocked s else walkLeaves all rs blocked (walkRecord r s)
    | gs =>
      let p := placeAll r gs s
      walkLeaves all rs (if p.2 then blocked ++ (all.filter (blockedBy r)).map (·.rcb) else blocked) p.1

/-- The priority and the domain of each gang and each placed hart, and the weight of the hart, follow their region
(R320, R336). -/
def refreshGangs (ls : List Leaf) (s : State) : State :=
  let leaf (region : Nat) : Option Leaf := ls.find? fun l => l.rcb == region
  let gang (g : Gang) : Gang :=
    match leaf g.region with
    | some l => { g with prio := l.eff.prio, domain := l.eff.domain }
    | none => g
  let hart (h : Hart) : Hart :=
    match if h.run = .vacant then none else leaf h.region with
    | some l => { h with share := l.eff.share, prio := BitVec.ofNat 4 l.eff.prio, domain := l.eff.domain }
    | none => h
  { s with hart := hart s.hart, others := s.others.map hart, helm := { s.helm with gangs := s.helm.gangs.map gang } }

/-- The Helm may walk: EN is 1, boot has finished, and the dies have power (R343, R391, R400). -/
def State.helmOn (s : State) : Bool := s.helm.root.getLsbD 0 && s.host.bootState == 3 && !s.cutOff

/-- The DONE words of a record's dependences, as the walk reads them. -/
def depWords (e : Eff) (a : Nat) (s : State) : List Nat :=
  (List.range 4).filterMap fun n => match depDone e a n s with
    | .ok (_, d) => d.map (·.1)
    | _ => none

/-- What the Helm walks for when it changes: the RCBs of the tree, the current records of its leaves and their
dependences (R326). -/
def State.walkImage (s : State) : List Nat :=
  if !s.helmOn then []
  else
    let t := s.tree
    t.seen.flatMap (fun a => (List.range 32).map fun j => s.phys64 (a + 8 * j)) ++
      t.leaves.flatMap fun r => match r.current s with
        | .found a _ => a :: (List.range 16).map (recWord s a) ++ depWords r.eff a s
        | .bad a => [a]
        | _ => [0]

/-- An engine owns a line of the tree or of a record that the walk reads (R311). -/
def TreeScan.held (t : TreeScan) (s : State) : Bool :=
  t.waits || t.leaves.any fun r => match r.current s with
    | .wait => true
    | _ => false

/-- The RCBs remembered as skipped: until the Helm reads them changed (R322). -/
def stillSkipped (t : TreeScan) (s : State) (p : Nat × List Byte) : Bool :=
  if p.2.isEmpty then t.bad.any (·.1 == p.1) else !t.seen.contains p.1 || rcbBytes s p.1 == p.2

/-- A walk of the tree (R326), which waits for the lines that an engine owns and for the Helm's earlier changes (R311).
-/
def State.walk (s0 : State) : State :=
  let s := s0.helmWrites []
  let t := s.tree
  if !s.helmOn || !s.helm.todo.isEmpty || t.held s then s
  else
    let s1 := t.unread.foldl (fun u p => u.helmCheck p.2 p.1) (t.bad.foldl skipRcb s)
    let s2 := { s1 with helm := { s1.helm with skipped := s1.helm.skipped.filter (stillSkipped t s) } }
    let ls := sortRank (fun a b => decide (b.eff.prio ≤ a.eff.prio)) t.leaves
    let s3 := walkLeaves ls ls [] (refreshGangs ls s2)
    { s3 with helm := { s3.helm with seen := s3.walkImage } }

/-- HELM_WALK (R326). -/
def execHelmWalk (s : State) : Out := .next s.walk

/-- A hart whose slot has begun executes its first instruction (R326). -/
def Hart.startAt (h : Hart) (slot : Nat) : Hart :=
  match h.run with
  | .starting j => if j ≤ slot then { h with run := .running } else h
  | _ => h

/-! ### Leaving (R329, R330, R332) -/

/-- Every earlier instruction of a parked hart has completed; frozen entries count as settled (R329, R354). Its
records have been written (R377, R379). -/
def Hart.settled (h : Hart) : Bool :=
  h.run == .parked && !h.viqReady && (h.frozen || h.replay.isEmpty) && h.tagDone.isEmpty && h.stripOut.isEmpty &&
    h.late.isEmpty

/-- The hart whose turn it is leaves its front-end, once a step of its cluster's array that it has in progress has
ended. -/
def State.leave (s : State) : State :=
  let t := s.landOwn.vacate [s.hart.csr.hartid]
  match t.others with
  | [] => { t with hart := Hart.vacated }
  | h :: hs => { t with hart := h, others := hs }

/-- A gang has no live hart placed. -/
def State.gangGone (s : State) (id : Nat) : Bool := (s.hart :: s.others).all fun h => h.run == .vacant || h.gang != id

/-- What follows when a hart of a gang has left (R330, R332): the gang retires when nobody is left and nobody has
yielded, and is pre-empted when every live hart has yielded. -/
def State.gangLeft (s : State) (g : Gang) : State :=
  if !s.gangGone g.id then s
  else
    let given := g.useWrites (.give g.step g.counted)
    if g.yielded.isEmpty then
      { s with helm := { s.helm with gangs := s.helm.gangs.filter (·.id != g.id) } }.helmWrites
        (given ++ [g.stateWrite .retired])
    else
      let gone (x : Gang) : Gang := if x.id = g.id then { x with preempted := true, preemptAt := none, places := [] } else x
      { s with helm := { s.helm with gangs := s.helm.gangs.map gone } }.helmWrites (given ++ [g.stateWrite .preempted])

/-- HART_RETIRE (R329, R330): the writes of a parked hart perform, and the hart with no pre-emption pending retires; the
Helm walks when its gang does. -/
def execHartRetire (s : State) : Out :=
  if !s.hart.settled then .next s
  else match s.gang? s.hart.gang with
    | none => .next s.flushAll.leave
    | some g =>
      if g.preemptAt.isSome then .next s
      else
        let s1 := s.flushAll.leave.gangLeft g
        if s1.gangGone g.id then .next s1.walk else .next s1

/-- HART_YIELD (R332): a parked hart whose gang is being pre-empted yields. -/
def execHartYield (s : State) : Out :=
  if !s.hart.settled then .next s
  else match s.gang? s.hart.gang with
    | none => .next s
    | some g =>
      if g.preemptAt.isNone then .next s
      else
        let g1 := { g with yielded := g.yielded ++ [s.hart.csr.rank.toNat] }
        let s1 := { s with helm := { s.helm with gangs := s.helm.gangs.map fun (x : Gang) => if x.id = g.id then g1 else x } }
        let s2 := s1.flushAll.leave.gangLeft g1
        .next s2.walk

/-- A gang's pre-emption has lasted 1 ms and a live hart has not yielded (R332). -/
def State.overdue (s : State) (g : Gang) : Bool :=
  match g.preemptAt with
  | some t => decide (t + 700000 ≤ s.time)
  | none => false

/-- PREEMPT_TIMEOUT (R332): the first gang whose time has passed is ended. -/
def execPreemptTimeout (s : State) : Out :=
  match s.helm.gangs.find? s.overdue with
  | none => .next s
  | some g => .next (s.endGang g.id)

end Sys2Proof.Machine
end

