-- ==== Sys2Proof/Machine/Frame.lean ====
section
/-! DEFINITION. The scalar operands of VIQ entries (R11) and the decoupled state frame (Table 11-7, R258, R259, R362):
its bytes, its check, and the state that it restores. -/

namespace Sys2Proof.Machine

/-! ### Operands of the SOQ (R11) -/

/-- The general registers that a V-format member reads. -/
def vScalars (op : VOpc) (o : VOp) : List Reg :=
  match op with
  | .vaddVx | .vsubVx | .vmulVx | .vmulhVx | .vmulhuVx | .vminVx | .vmaxVx | .vminuVx | .vmaxuVx | .vandVx | .vorVx
  | .vxorVx | .vsllVx | .vsrlVx | .vsraVx | .vdivVx | .vdivuVx | .vremVx | .vremuVx | .vsaddVx | .vssubVx | .vsadduVx
  | .vssubuVx | .vwmulVx | .vwmuluVx | .vwmacVx | .vwmacuVx | .vwmacsuVx | .vnshrVx | .vnshruVx | .vfaddVx | .vfsubVx
  | .vfmulVx | .vfdivVx | .vfminVx | .vfmaxVx | .vfmaVx | .vfmsVx | .vslideup | .vslidedn | .vbcast => [o.b]
  | .vmvvx => [o.a, o.b]
  | _ => []

/-- The general registers that a VM-format member reads: the base, and a stride in strided mode (R143, R156). -/
def vmScalars (op : VMOpc) (o : VMOp) : List Reg :=
  match op with
  | .vldStrided | .vstStrided | .vstbStrided | .vldkStrided => [o.a, o.b]
  | _ => [o.a]

/-- The general registers whose values the front-end puts into the SOQ for an entry, in order; ENQ and the
length-setting instructions pass values that the front-end computes. -/
def soqRegs (v : VInstr) : List Reg :=
  match v with
  | .v op o => vScalars op o
  | .vm op o => vmScalars op o
  | .mtld o => [o.a, o.b]
  | .mrow o => [o.rr]
  | .mard o | .mawr o => [o.rr]
  | .mast o => [o.a, if o.mode = .strided then o.b else 0, o.rr]
  | .lacfg o | .lastl o | .lasts o | .latbl o | .laseed o => [o.a]
  | .latrain o => [o.a]
  | .tlbinv o => [o.a, o.b]
  | .restvq a => [a]
  | .maclr _ | .laeval _ | .lavote _ | .lafb _ | .vlsync | .lafence _ | .efence _ | .setvli _ | .setvl _ | .enq _ => []

/-- An entry of a length-setting instruction carries its VL and VTYPE in the VIQ. -/
def isSetvl (v : VInstr) : Bool :=
  match v with
  | .setvli _ | .setvl _ => true
  | _ => false

/-- Places that an entry takes in the SOQ. -/
def soqCount (v : VInstr) : Nat :=
  match v with
  | .enq _ => 3
  | _ => (soqRegs v).length

/-- Operands that the entries of a queue carry. -/
def soqTotal (q : List Held) : Nat := (q.map fun e => soqCount e.instr).sum

/-- Operands that stand in the SOQ: an entry that has issued has taken its own out (R11). -/
def soqHeld (q : List Held) : Nat := soqTotal (q.filter fun e => !e.begun)

/-! ### CRC-32 (Table 11-7) -/

/-- One bit of the IEEE 802.3 CRC, reflected. -/
def crcBit (c : BitVec 32) : BitVec 32 := if c.getLsbD 0 then (c >>> 1) ^^^ 0xEDB88320 else c >>> 1

/-- One byte of the CRC. -/
def crcByte (c : BitVec 32) (b : Byte) : BitVec 32 :=
  (List.range 8).foldl (fun x _ => crcBit x) (c ^^^ b.setWidth 32)

/-- CRC-32 of bytes. -/
def crc32 (bs : List Byte) : BitVec 32 := ~~~(bs.foldl crcByte (BitVec.allOnes 32))

/-! ### The body (R362), whose layout is the model's own -/

/-- A frame's number in `n` bytes at an offset. -/
def field (bs : List Byte) (off n : Nat) : Nat := leNat ((bs.drop off).take n)

/-- Operands that the entries of a frame carry: NSOQ, and those of the entries that had issued. -/
def frameOps (bs : List Byte) : Nat := min 16 (field bs 5 1 + field bs 0x7FB 1)

/-- A VTYPE that an ERET left behind an entry, in ten bits. -/
def thenBits (e : Held) : Nat :=
  match e.thenVtype with
  | some t => 512 + t.toNat
  | none => 0

/-- The encoding of a held entry, of which at most the low 49 bits are ever used, with what it carries in the bits
that its encoding leaves: from bit 32 on VL and VTYPE of a length-setting entry, and the restart point of a vector
memory instruction that stopped part-way; from bit 54 on a VTYPE that an ERET left behind it. A RESTVQ has the tail VL
and VTYPE, NVIQ and the operands of its frame from bit 32 on, and in bit 63 whether an ERET left that VTYPE. -/
def heldCode (e : Held) : Nat :=
  pack e.instr.fields +
    (match e.instr, e.ops with
      | .restvq _, _ =>
        2 ^ 32 * (e.frame16 0x14 % 2048 + 2048 * ((e.thenVtype.getD (BitVec.ofNat 9 (e.frame16 0x16))).toNat) +
          2 ^ 20 * (field e.data 4 1 % 64) + 2 ^ 26 * (frameOps e.data % 32) + (if e.thenVtype.isSome then 2 ^ 31 else 0))
      | .setvli _, [vl, vt] | .setvl _, [vl, vt] =>
        2 ^ 32 * (vl.toNat % 2048 + 2048 * (vt.toNat % 512)) + 2 ^ 54 * thenBits e
      | .vm _ _, _ =>
        (match e.restart with
          | some r => 2 ^ 32 * (2048 + r.toNat)
          | none => 0) + 2 ^ 54 * thenBits e
      | _, _ => 2 ^ 54 * thenBits e)

/-- Sixteen bytes for a held entry: encoding, address with the CONVOY code above it, marks. -/
def heldBytes (e : Held) : List Byte :=
  leBytes 8 (heldCode e) ++ leBytes 7 (e.pc.toNat % 2 ^ 52 + 2 ^ 52 * (e.conv % 8)) ++
    leBytes 1 (e.rm.toNat + (if e.priv then 8 else 0) + (if e.tagged then 16 else 0) + (if e.begun then 32 else 0))

/-- The operands of an entry that stand in the SOQ. -/
def soqOps (e : Held) : List Word := if isSetvl e.instr then [] else e.ops

/-- A watch hit that a stopped instruction carries (R359): ten bytes. -/
def hitBytes : Option (Nat × Word × BitVec 2 × Bool) → List Byte
  | none => leBytes 10 0
  | some (i, va, k, more) =>
    leBytes 8 va.toNat ++ leBytes 2 (i % 1024 + 1024 * k.toNat + (if more then 4096 else 0) + 8192)

/-- A list of bytes padded with zeros to a length. -/
def padTo (n : Nat) (bs : List Byte) : List Byte := bs ++ List.replicate (n - bs.length) 0

/-- The members of the oldest entry's convoy that have left before it (R339). -/
def Hart.leftMembers (h : Hart) : List VInstr :=
  match h.viq with
  | e :: _ => if (vinfo e.instr).c then h.gone.take 4 else []
  | [] => []

/-- The place and the elements performed of a younger entry of which any set of elements may have performed when it
stopped (R148): 130 bytes. At most one entry of a queue is such (log entry 36). -/
def youngerBytes (q : List Held) : List Byte :=
  match q.zipIdx.find? fun p => decide (0 < p.2) && p.1.done != 0 with
  | some (e, n) => leBytes 2 (n + 2 ^ 15) ++ leBytes 128 e.done.toNat
  | none => leBytes 130 0

/-- The encoding of a convoy member: four bytes, or seven for a tile instruction, of which the highest byte is zero. -/
def memberBytes (v : VInstr) : List Byte :=
  let x := pack v.fields
  leBytes (if x % 4 = 3 then 7 else 4) x

/-- A list of convoy members in 20 bytes, their number first; members without conflict number at most four, of which one
is a tile instruction (R339, R340). -/
def membersBytes (ms : List VInstr) : List Byte :=
  let kept := ms.foldl (fun l v => if l.length < 4 && ((l ++ [v]).flatMap memberBytes).length ≤ 19 then l ++ [v] else l) []
  padTo 20 (leBytes 1 kept.length ++ kept.flatMap memberBytes)

/-- The convoy that the next instruction would join: likewise, with the number 8 for none (R341). -/
def convoyBytes (cv : Option (List VInstr)) : List Byte :=
  match cv with
  | none => padTo 20 (leBytes 1 8)
  | some ms => membersBytes ms

/-- The 1,852 bytes of the body: k0 to k3, the held entries, their operands, the watch hit, the place and the completion
mask of a younger instruction, the convoy members that have left, the convoy behind the newest entry, and the number of
operands that have left the SOQ. -/
def frameBody (h : Hart) : List Byte :=
  padTo 1851 (h.k.toList.flatMap (fun k => leBytes 256 k.toNat) ++ padTo 512 (h.viq.flatMap heldBytes) ++
    padTo 128 (h.viq.flatMap fun e => (soqOps e).flatMap fun x => leBytes 8 x.toNat) ++ hitBytes h.watchHit ++
    youngerBytes h.viq ++ membersBytes h.leftMembers ++ convoyBytes h.convoy) ++
    leBytes 1 (soqTotal h.viq - soqHeld h.viq)

/-- FEMAP: v0 to v31, then w1 to w7. -/
def femap (h : Hart) : Nat := h.vfull.toNat + 2 ^ 32 * (h.wfull.toNat / 2)

/-- HEADPC, 0 when nothing is held. -/
def headPc (h : Hart) : Word :=
  match h.viq with
  | [] => 0
  | e :: _ => e.pc

/-- The bytes of the frame before CHECK (Table 11-7). -/
def frameHead (h : Hart) : List Byte :=
  leBytes 2 1 ++ leBytes 2 2048 ++ leBytes 1 h.viq.length ++ leBytes 1 (soqHeld h.viq) ++
    leBytes 2 ((if h.maskValid then 1 else 0) + (if h.headTrapped then 2 else 0)) ++
    leBytes 8 (headPc h).toNat ++ leBytes 2 h.csr.vl.toNat ++ leBytes 2 h.csr.vtype.toNat ++
    leBytes 2 (tailVl h).toNat ++ leBytes 2 (tailVtype h).toNat ++ leBytes 8 (femap h) ++ leBytes 2 h.vlrBits ++
    leBytes 30 0 ++ leBytes 128 (if h.maskValid then h.mask.toNat else 0)

/-- The decoupled state frame of a hart (R258). -/
def frameBytes (h : Hart) : List Byte :=
  let body := frameHead h ++ frameBody h
  body ++ leBytes 4 (crc32 body).toNat

/-! ### Reading a frame (R259) -/

/-- A frame is malformed for a hart (R259). -/
def frameBad (h : Hart) (bs : List Byte) : Bool :=
  field bs 0 2 != 1 || field bs 2 2 != 2048 || field bs 0x7FC 4 != (crc32 (bs.take 0x7FC)).toNat ||
    field bs 0x20 2 != h.vlrBits || decide (32 < field bs 4 1) || decide (16 < field bs 5 1) || field bs 6 2 / 4 != 0 ||
    field bs 0x18 8 / 2 ^ 39 != 0 || field bs 0x22 30 != 0

/-- TAILVTYPE. -/
def frameTail (bs : List Byte) : BitVec 9 := BitVec.ofNat 9 (field bs 0x16 2)

/-- The VL that a frame's value stands for, beside a VTYPE: a legal one (R7, Table 01-4). DESIGN CHOICE (log entry 18):
beside a VTYPE without an element width, up to the VL of the smallest elements. -/
def legalVl (vlr x : Nat) (t : BitVec 9) : BitVec 11 :=
  BitVec.ofNat 11 (min x (if sewOf t = 0 then vlr / 16 else vlmaxOf vlr t))

/-- The operands of a held entry: those of a length-setting entry from what it carries, the others from the list. -/
def heldOps (vlr : Nat) (v : VInstr) (up : Nat) (ops : List Word) : List Word :=
  if isSetvl v then
    let t := BitVec.ofNat 9 (up / 2048)
    [(legalVl vlr (up % 2048) t).setWidth 64, t.setWidth 64]
  else ops.take (soqCount v)

/-- What a held RESTVQ knows of its frame, which it reads again at the head: NVIQ, the operands, TAILVL and
TAILVTYPE. -/
def heldData (v : VInstr) (up : Nat) : List Byte :=
  match v with
  | .restvq _ =>
    leBytes 4 0 ++ leBytes 1 (up / 2 ^ 20 % 64) ++ leBytes 1 (up / 2 ^ 26 % 32) ++ leBytes 14 0 ++ leBytes 2 (up % 2048) ++
      leBytes 2 (up / 2048 % 512)
  | _ => []

/-- The VTYPE that an ERET left behind a held entry. -/
def heldThen (v : VInstr) (code : Nat) : Option (BitVec 9) :=
  match v with
  | .restvq _ => if code.testBit 63 then some (BitVec.ofNat 9 (code / 2 ^ 43)) else none
  | _ => if code.testBit 63 then some (BitVec.ofNat 9 (code / 2 ^ 54)) else none

/-- The restart point of a held vector memory instruction that stopped part-way (R148). -/
def heldRestart (v : VInstr) (code : Nat) : Option (BitVec 11) :=
  match v with
  | .vm _ _ => if code.testBit 43 then some (BitVec.ofNat 11 (min 1024 (code / 2 ^ 32 % 2048))) else none
  | _ => none

/-- The instruction of a held code: a tile instruction takes 64 bits, of which the high ones are reserved. -/
def heldInstr (code : Nat) : Option VInstr := decodeHeld (if code % 4 = 3 then code % 2 ^ 54 else code % 2 ^ 32)

/-- The entries of a frame's body from place `i` on, `n` of them, taking operands from the list; `before` are the
members of the convoy that stand before, from which a member may read registers as they are produced (R26). -/
def frameEntries (vlr : Nat) (body : List Byte) : Nat → Nat → List VInstr → List Word → List Held
  | _, 0, _, _ => []
  | i, n + 1, before, ops =>
    let b := body.drop (1024 + 16 * i)
    let code := field b 0 8
    let marks := field b 15 1
    match heldInstr code with
    | none => frameEntries vlr body (i + 1) n before ops
    | some v =>
      let up := code / 2 ^ 32
      let conv := field b 8 7 / 2 ^ 52
      let joins := (vinfo v).member && (vinfo v).c
      { instr := v, pc := BitVec.ofNat 64 (field b 8 7 % 2 ^ 52), ops := heldOps vlr v up ops, priv := marks.testBit 3,
        rm := BitVec.ofNat 3 marks, data := heldData v up, conv := conv % 8,
        skip := if joins && conv % 8 == 0 then regSet (memberWrites before) else 0,
        tagged := marks.testBit 4, done := 0, restart := heldRestart v code, begun := marks.testBit 5, flying := false,
        first := 0, raised := [], demoted := false, early := [], thenVtype := heldThen v code, pins := [], part := none,
        reading := false } ::
        frameEntries vlr body (i + 1) n (if !(vinfo v).member then [] else if joins then before ++ [v] else [v])
          (if isSetvl v then ops else ops.drop (soqCount v))

/-- The watch hit of a frame's body. -/
def frameHit (body : List Byte) : Option (Nat × Word × BitVec 2 × Bool) :=
  let x := field body 1672 2
  if x.testBit 13 then some (x % 1024, BitVec.ofNat 64 (field body 1664 8), BitVec.ofNat 2 (x / 1024), x.testBit 12)
  else none

/-- Convoy members from some bytes, `n` of them. -/
def membersFrom : Nat → List Byte → List VInstr
  | 0, _ => []
  | n + 1, bs =>
    let k := if field bs 0 1 % 4 = 3 then 7 else 4
    (decodeHeld (field bs 0 k)).toList ++ membersFrom n (bs.drop k)

/-- The members of the head's convoy that had left before the frame was written. -/
def frameLeft (bs : List Byte) : List VInstr :=
  let body := bs.drop 0xC0
  membersFrom (field body 1804 1 % 8) ((body.drop 1805).take 19)

/-- The younger entry that stopped part-way restarts under its own completion mask (R356). -/
def restartYounger (body : List Byte) (q : List Held) : List Held :=
  let x := field body 1674 2
  if x.testBit 15 then q.modify (x % 32) fun e => { e with done := BitVec.ofNat 1024 (field body 1676 128) } else q

/-- The held entries of a frame; VTYPE is TAILVTYPE once the newest has left. -/
def frameHeld (bs : List Byte) : List Held :=
  let body := bs.drop 0xC0
  let ops := (List.range 16).map fun i => BitVec.ofNat 64 (field body (1536 + 8 * i) 8)
  let q := restartYounger body (frameEntries (field bs 0x20 2) body 0 (field bs 4 1) (frameLeft bs) ops)
  thenTail q (BitVec.ofNat 9 (field bs 0x12 2)) (frameTail bs)

/-- The convoy that a c = 1 instruction after a frame's entries would join (R339): as the hart had it when it wrote the
frame. -/
def frameConvoy (bs : List Byte) : Option (List VInstr) :=
  let body := bs.drop 0xC0
  let n := field body 1824 1
  if n = 8 then none else some (membersFrom (n % 8) ((body.drop 1825).take 19))

/-- The scale registers of a frame (R362). -/
def frameScales (bs : List Byte) : Vector (BitVec 2048) 4 :=
  Vector.ofFn fun k : Fin 4 => BitVec.ofNat 2048 (field bs (0xC0 + 256 * k.val) 256)

/-- RESTVQ at the head of the VIQ (R259): VL, VTYPE, FEMAP, k0 to k3, the held entries ahead of `rest`, and the
completion mask under which the head restarts. -/
def Hart.restore (h : Hart) (bs : List Byte) (rest : List Held) : Hart :=
  { h with
    k := frameScales bs
    vfull := BitVec.ofNat 32 (field bs 0x18 4)
    wfull := BitVec.ofNat 8 (2 * field bs 0x1C 1 + 1)
    filling := []
    viq := frameHeld bs ++ rest
    gone := frameLeft bs
    mask := BitVec.ofNat 1024 (field bs 0x40 128)
    maskValid := (field bs 6 2).testBit 0
    watchHit := frameHit (bs.drop 0xC0)
    headTrapped := false
    csr := { h.csr with
      vl := legalVl h.vlrBits (field bs 0x10 2) (BitVec.ofNat 9 (field bs 0x12 2))
      vtype := BitVec.ofNat 9 (field bs 0x12 2) } }

end Sys2Proof.Machine
end

