-- ==== Sys2Proof/Machine/Sparse.lean ====
section
/-! DEFINITION. Sparse primitives, permutes, and moves between scalar and vector registers (majors 0x25 and 0x26, R181
to R192; VQRD stands with the streams). -/

namespace Sys2Proof.Machine

/-- Elements written without flags. -/
def writePlain (d : Reg) (xs : List (Nat × Nat)) (s : State) : VOut :=
  .done (s.onHart fun h => h.writeElems d (xs.map fun x => (x.1, x.2, 0)))

/-- VCOMPRESS (R181). -/
def vcompressV (o : VOp) (s : State) : VOut :=
  let h := s.hart
  writePlain o.d ((h.activeList o.w).zipIdx.map fun x => (x.2, h.elem o.a x.1)) s

/-- VEXPAND (R182). -/
def vexpandV (o : VOp) (s : State) : VOut :=
  let h := s.hart
  writePlain o.d ((h.activeList o.w).zipIdx.map fun x => (x.1, h.elem o.a x.2)) s

/-- VPOPCPFX: the count of active elements at or below each element (R183). -/
def vpopcpfxV (o : VOp) (s : State) : VOut :=
  let h := s.hart
  writePlain o.d ((List.range h.vl).map fun i => (i, ((h.activeList o.w).filter (· ≤ i)).length)) s

/-- VCONFLICT (R184). -/
def vconflictV (o : VOp) (s : State) : VOut :=
  let h := s.hart
  let act := h.activeList o.w
  writePlain o.d (act.map fun i =>
    (i, (act.filter fun j => j < i && h.elem o.a j == h.elem o.a i).length)) s

/-- Element i ranks above element j in VPRUNE (R186). -/
def prunesAbove (f : Fmt) (x : Nat × Nat) (y : Nat × Nat) : Bool :=
  let a := f.value x.2
  let b := f.value y.2
  let earlier := decide (x.1 < y.1)
  if a.isNan then !b.isNan || earlier
  else if b.isNan then false
  else decide (f.mag y.2 < f.mag x.2) || (f.mag x.2 == f.mag y.2 && earlier)

/-- Group size of VPRUNE: b[4:3] (R185). -/
def pruneM (b : Reg) : Nat := 4 * 2 ^ (b.val / 8)

/-- Elements kept in each group: b[2:0] + 1 (R185). -/
def pruneN (b : Reg) : Nat := b.val % 8 + 1

/-- VPRUNE (R185, R186). -/
def vpruneV (o : VOp) (s : State) : VOut :=
  let h := s.hart
  let f := fmtOf h.sew
  let xs := (h.activeList o.w).map fun i => (i, h.elem o.a i)
  writePlain o.d (xs.map fun x =>
    let above := xs.filter fun y => y.1 / pruneM o.b == x.1 / pruneM o.b && y.1 != x.1 && prunesAbove f y x
    (x.1, if above.length < pruneN o.b then x.2 else 0)) s

/-- VPERM (R187). -/
def vpermV (o : VOp) (s : State) : VOut :=
  let h := s.hart
  elementwise o.d o.w (fun i => (if h.elem o.b i < h.vl then h.elem o.a (h.elem o.b i) else 0, 0)) s

/-- VSLIDEUP (R188). -/
def vslideupV (o : VOp) (e : Held) (s : State) : VOut :=
  let h := s.hart
  let k := (e.op 0).toNat
  writePlain o.d (((h.activeList o.w).filter (k ≤ ·)).map fun i => (i, h.elem o.a (i - k))) s

/-- VSLIDEDN (R188). -/
def vslidednV (o : VOp) (e : Held) (s : State) : VOut :=
  let h := s.hart
  let k := (e.op 0).toNat
  elementwise o.d o.w (fun i => (if i + k < h.vl then h.elem o.a (i + k) else 0, 0)) s

/-- VBCAST (R189). -/
def vbcastV (o : VOp) (e : Held) (s : State) : VOut :=
  elementwise o.d o.w (fun i => (srcB true o.b e s i, 0)) s

/-- VMVVX (R191): one element, whatever VL, VSTART and the weights hold. -/
def vmvvxV (o : VOp) (e : Held) (s : State) : VOut :=
  let i := (e.op 0).toNat
  if i < s.hart.vlmax then .done (s.onHart fun h => h.setElem o.d i (e.op 1).toNat) else .done s

/-- VIOTA (R192). -/
def viotaV (o : VOp) (s : State) : VOut := elementwise o.d o.w (fun i => (i, 0)) s

/-- VMVCMPL (R192). -/
def vmvcmplV (o : VOp) (s : State) : VOut :=
  elementwise o.d o.w (fun i => (2 ^ s.hart.sew - 1 - s.hart.elem o.a i, 0)) s

end Sys2Proof.Machine
end

