-- ==== Sys2Proof/Machine/VecFp.lean ====
section
/-! DEFINITION. Floating-point vector instructions (majors 0x18 to 0x1B and 0x1D, R164, R171 to R174, R176). -/

namespace Sys2Proof.Machine

/-- An element-wise instruction on two operands in the format of SEW (R164). -/
def vfBin (f : FEnv → Nat → Nat → FRes) (vx : Bool) (o : VOp) (e : Held) (s : State) : VOut :=
  elementwise o.d o.w (fun i => f (e.fenv s.hart) (s.hart.elem o.a i) (srcB vx o.b e s i)) s

/-- A fused member: the addend is element i of vd, and the product or the addend may be negated (R171, R172). -/
def vfFused (negP negD : Bool) (vx : Bool) (o : VOp) (e : Held) (s : State) : VOut :=
  elementwise o.d o.w
    (fun i => (e.fenv s.hart).fma negP negD (s.hart.elem o.a i) (srcB vx o.b e s i) (s.hart.elem o.d i)) s

/-- An element-wise instruction on one operand. -/
def vfUn (f : FEnv → Nat → FRes) (o : VOp) (e : Held) (s : State) : VOut :=
  elementwise o.d o.w (fun i => f (e.fenv s.hart) (s.hart.elem o.a i)) s

/-- VFADD (R171). -/
def vfaddV : Bool → VOp → Held → State → VOut := vfBin FEnv.add
/-- VFSUB (R171). -/
def vfsubV : Bool → VOp → Held → State → VOut := vfBin FEnv.sub
/-- VFMUL (R171). -/
def vfmulV : Bool → VOp → Held → State → VOut := vfBin FEnv.mul
/-- VFDIV (R171). -/
def vfdivV : Bool → VOp → Held → State → VOut := vfBin FEnv.div
/-- VFMIN (R171, R126). -/
def vfminV : Bool → VOp → Held → State → VOut := vfBin fun v a b => v.minMax false a b
/-- VFMAX (R171, R126). -/
def vfmaxV : Bool → VOp → Held → State → VOut := vfBin fun v a b => v.minMax true a b
/-- VFMA: a × b + c (R171). -/
def vfmaV : Bool → VOp → Held → State → VOut := vfFused false false
/-- VFMS: a × b − c (R171). -/
def vfmsV : Bool → VOp → Held → State → VOut := vfFused false true
/-- VFNMA: −(a × b) − c (R172). -/
def vfnmaV : VOp → Held → State → VOut := vfFused true true false
/-- VFNMS: −(a × b) + c (R172). -/
def vfnmsV : VOp → Held → State → VOut := vfFused true false false
/-- VFSQRT (R172). -/
def vfsqrtV : VOp → Held → State → VOut := vfUn FEnv.sqrt

/-! ### Estimates (R173) -/

/-- The target set T as a format: the same exponents with 7 fraction bits. -/
def estFmt (f : Fmt) : Fmt := { f with fbits := 7 }

/-- RoundNE of a nonzero number to T, as an encoding of the SEW format; NX is never set. -/
def FEnv.toT (v : FEnv) (neg : Bool) (m : Nat) (x : Int) : FRes :=
  let r := (estFmt v.fmt).roundNum .rne false neg m x
  let tiny := v.fmt.tiny .rne neg m x
  if tiny && v.flushOut then (v.fmt.enc neg 0, fUF ||| fNX)
  else (r.1 * 2 ^ (v.fmt.fbits - 7), (r.2 &&& fOF) ||| (if tiny && r.2 &&& fNX != 0 then fUF else 0))

/-- Reciprocal estimate (R173). -/
def FEnv.recip (v : FEnv) (a : Nat) : FRes :=
  match v.read a with
  | .nan q => (v.fmt.nan, if q then fNV else 0)
  | .inf n => (v.fmt.enc n 0, 0)
  | .num n m x =>
    if m = 0 then (v.fmt.enc n v.fmt.infMag, fDZ)
    else match (fDiv (.num false 1 0) (.num n m x)).1 with
      | .num n' m' x' => v.toT n' m' x'
      | _ => (v.fmt.nan, 0)

/-- Reciprocal square-root estimate (R173); the exact root is kept to 128 bits and a sticky bit. -/
def FEnv.rsqrt (v : FEnv) (a : Nat) : FRes :=
  match v.read a with
  | .nan q => (v.fmt.nan, if q then fNV else 0)
  | .inf true => (v.fmt.nan, fNV)
  | .inf false => (v.fmt.enc false 0, 0)
  | .num n m x =>
    if m = 0 then (v.fmt.enc n v.fmt.infMag, fDZ)
    else if n then (v.fmt.nan, fNV)
    else
      let odd := (x % 2).toNat
      let mm := m * 2 ^ odd
      let r := isqrtFrom (2 ^ 256 / mm) 0 129
      v.toT false (2 * r + (if r * r * mm = 2 ^ 256 then 0 else 1)) (-(x - odd) / 2 - 129)

/-- VFRECE (R173). -/
def vfreceV : VOp → Held → State → VOut := vfUn FEnv.recip
/-- VFRSQE (R173). -/
def vfrsqeV : VOp → Held → State → VOut := vfUn FEnv.rsqrt

/-! ### Bit operations (R164, R172) -/

/-- VFSGN: a with the sign of b. -/
def vfsgnV (o : VOp) (e : Held) (s : State) : VOut :=
  vfBin (fun v a b => (v.fmt.withSign a (v.fmt.neg b), 0)) false o e s
/-- VFCLASS: the class bit as an integer. -/
def vfclassV : VOp → Held → State → VOut := vfUn fun v a => (2 ^ v.fmt.classOf a, 0)
/-- VFABS: the sign bit cleared. -/
def vfabsV : VOp → Held → State → VOut := vfUn fun v a => (v.fmt.mag a, 0)

/-! ### Conversions (R174) -/

/-- Float to integer between limits of width SEW. -/
def cvtF2I (signed : Bool) (mode : Held → Mode) (o : VOp) (e : Held) (s : State) : VOut :=
  let n := s.hart.sew
  let lo : Int := if signed then -(2 ^ (n - 1) : Nat) else 0
  let hi : Int := if signed then (2 ^ (n - 1) : Nat) - 1 else (2 ^ n : Nat) - 1
  elementwise o.d o.w (fun i =>
    let r := toInt (mode e) lo hi ((e.fenv s.hart).read (s.hart.elem o.a i))
    ((BitVec.ofInt n r.1).toNat, r.2)) s

/-- Integer to float. -/
def cvtI2F (signed : Bool) (o : VOp) (e : Held) (s : State) : VOut :=
  let n := s.hart.sew
  elementwise o.d o.w (fun i =>
    let x := s.hart.elem o.a i
    (e.fenv s.hart).put (intVal (if signed then sgn n x else x), 0)) s

/-- The mode that the entry captured. -/
def Held.mode (e : Held) : Mode := modeOf e.rm

/-- VFCVT.f2i. -/
def vfcvtF2iV : VOp → Held → State → VOut := cvtF2I true Held.mode
/-- VFCVT.f2u. -/
def vfcvtF2uV : VOp → Held → State → VOut := cvtF2I false Held.mode
/-- VFCVT.i2f. -/
def vfcvtI2fV : VOp → Held → State → VOut := cvtI2F true
/-- VFCVT.u2f. -/
def vfcvtU2fV : VOp → Held → State → VOut := cvtI2F false
/-- VFCVT.f2iz. -/
def vfcvtF2izV : VOp → Held → State → VOut := cvtF2I true fun _ => .rtz
/-- VFCVT.f2uz. -/
def vfcvtF2uzV : VOp → Held → State → VOut := cvtF2I false fun _ => .rtz

/-- VFCVT.fwid: exact widening to the pair (R174). -/
def vfcvtFwidV (o : VOp) (e : Held) (s : State) : VOut :=
  let v := e.fenv s.hart
  let wide : FEnv := { v with fmt := fmtOf (2 * s.hart.sew) }
  pairwise o.d o.w (fun i =>
    let x := v.read (s.hart.elem o.a i)
    wide.put (x, sigNV x)) s

/-- VFCVT.fnar: narrowing from the pair (R174). -/
def vfcvtFnarV (o : VOp) (e : Held) (s : State) : VOut :=
  let v := e.fenv s.hart
  let wide : FEnv := { v with fmt := fmtOf (2 * s.hart.sew) }
  elementwise o.d o.w (fun i =>
    let x := wide.read (s.hart.elemW o.a i)
    v.put (x, sigNV x)) s

/-- The value rounded to an integral value with its sign, and NX when it changed. -/
def FEnv.integral (v : FEnv) (a : Nat) : FRes :=
  let x := v.read a
  match x with
  | .num n m e =>
    let r := roundAt v.mode n m e 0
    let y := v.put (.num n r.1 0, 0)
    (y.1, y.2 ||| (if r.2 then fNX else 0))
  | _ => v.put (x, sigNV x)

/-- VFCVT.frnd. -/
def vfcvtFrndV : VOp → Held → State → VOut := vfUn FEnv.integral

/-! ### Compares into weights (R176) -/

/-- A floating-point compare: the weight 32768 where the condition holds, else 0. -/
def vfCmp (r : Rel) (o : VOp) (e : Held) (s : State) : VOut :=
  weightwise (toW o.d) o.w (fun i =>
    let x := (e.fenv s.hart).compare r (s.hart.elem o.a i) (s.hart.elem o.b i)
    (if x.1 then 32768 else 0, x.2)) s

/-- VFCMP.eq. -/
def vfcmpEqV : VOp → Held → State → VOut := vfCmp .eq
/-- VFCMP.lt. -/
def vfcmpLtV : VOp → Held → State → VOut := vfCmp .lt
/-- VFCMP.le. -/
def vfcmpLeV : VOp → Held → State → VOut := vfCmp .le
/-- VFCMP.ne. -/
def vfcmpNeV : VOp → Held → State → VOut := vfCmp .ne
/-- VFCMP.unord. -/
def vfcmpUnordV : VOp → Held → State → VOut := vfCmp .unord
/-- VFCMP.ord. -/
def vfcmpOrdV : VOp → Held → State → VOut := vfCmp .ord

end Sys2Proof.Machine
end

