-- ==== Sys2Proof/Machine/Held.lean ====
section
/-! DEFINITION. What an entry of the VIQ does when it runs: the members by opcode, the fences that execute in VIQ order
(Table 11-6, R257, R318), the length-setting instructions (R142) and the slot writes of ENQ (R245). -/

namespace Sys2Proof.Machine

/-- A V-format member. VMVXV never enters the VIQ (R190). -/
def runVop (op : VOpc) (o : VOp) (e : Held) (s : State) : VOut :=
  match op with
  | .vadd => vaddV false o e s
  | .vsub => vsubV false o e s
  | .vmul => vmulV false o e s
  | .vmulh => vmulhV false o e s
  | .vmulhu => vmulhuV false o e s
  | .vmin => vminV false o e s
  | .vmax => vmaxV false o e s
  | .vminu => vminuV false o e s
  | .vmaxu => vmaxuV false o e s
  | .vand => vandV false o e s
  | .vor => vorV false o e s
  | .vxor => vxorV false o e s
  | .vsll => vsllV false o e s
  | .vsrl => vsrlV false o e s
  | .vsra => vsraV false o e s
  | .vabs => vabsV false o e s
  | .vdiv => vdivV false o e s
  | .vdivu => vdivuV false o e s
  | .vrem => vremV false o e s
  | .vremu => vremuV false o e s
  | .vsadd => vsaddV false o e s
  | .vssub => vssubV false o e s
  | .vsaddu => vsadduV false o e s
  | .vssubu => vssubuV false o e s
  | .vwmul => vwmulV false o e s
  | .vwmulu => vwmuluV false o e s
  | .vwmac => vwmacV false o e s
  | .vwmacu => vwmacuV false o e s
  | .vwmacsu => vwmacsuV false o e s
  | .vnshr => vnshrV false o e s
  | .vnshru => vnshruV false o e s
  | .vmv => vmvV o s
  | .vaddVx => vaddV true o e s
  | .vsubVx => vsubV true o e s
  | .vmulVx => vmulV true o e s
  | .vmulhVx => vmulhV true o e s
  | .vmulhuVx => vmulhuV true o e s
  | .vminVx => vminV true o e s
  | .vmaxVx => vmaxV true o e s
  | .vminuVx => vminuV true o e s
  | .vmaxuVx => vmaxuV true o e s
  | .vandVx => vandV true o e s
  | .vorVx => vorV true o e s
  | .vxorVx => vxorV true o e s
  | .vsllVx => vsllV true o e s
  | .vsrlVx => vsrlV true o e s
  | .vsraVx => vsraV true o e s
  | .vdivVx => vdivV true o e s
  | .vdivuVx => vdivuV true o e s
  | .vremVx => vremV true o e s
  | .vremuVx => vremuV true o e s
  | .vsaddVx => vsaddV true o e s
  | .vssubVx => vssubV true o e s
  | .vsadduVx => vsadduV true o e s
  | .vssubuVx => vssubuV true o e s
  | .vwmulVx => vwmulV true o e s
  | .vwmuluVx => vwmuluV true o e s
  | .vwmacVx => vwmacV true o e s
  | .vwmacuVx => vwmacuV true o e s
  | .vwmacsuVx => vwmacsuV true o e s
  | .vnshrVx => vnshrV true o e s
  | .vnshruVx => vnshruV true o e s
  | .vfadd => vfaddV false o e s
  | .vfsub => vfsubV false o e s
  | .vfmul => vfmulV false o e s
  | .vfdiv => vfdivV false o e s
  | .vfmin => vfminV false o e s
  | .vfmax => vfmaxV false o e s
  | .vfma => vfmaV false o e s
  | .vfms => vfmsV false o e s
  | .vfnma => vfnmaV o e s
  | .vfnms => vfnmsV o e s
  | .vfsqrt => vfsqrtV o e s
  | .vfrece => vfreceV o e s
  | .vfrsqe => vfrsqeV o e s
  | .vfsgn => vfsgnV o e s
  | .vfclass => vfclassV o e s
  | .vfabs => vfabsV o e s
  | .vfcvtF2i => vfcvtF2iV o e s
  | .vfcvtF2u => vfcvtF2uV o e s
  | .vfcvtI2f => vfcvtI2fV o e s
  | .vfcvtU2f => vfcvtU2fV o e s
  | .vfcvtF2iz => vfcvtF2izV o e s
  | .vfcvtF2uz => vfcvtF2uzV o e s
  | .vfcvtFwid => vfcvtFwidV o e s
  | .vfcvtFnar => vfcvtFnarV o e s
  | .vfcvtFrnd => vfcvtFrndV o e s
  | .vfaddVx => vfaddV true o e s
  | .vfsubVx => vfsubV true o e s
  | .vfmulVx => vfmulV true o e s
  | .vfdivVx => vfdivV true o e s
  | .vfminVx => vfminV true o e s
  | .vfmaxVx => vfmaxV true o e s
  | .vfmaVx => vfmaV true o e s
  | .vfmsVx => vfmsV true o e s
  | .vcmpEq => vcmpEqV o s
  | .vcmpNe => vcmpNeV o s
  | .vcmpLt => vcmpLtV o s
  | .vcmpGe => vcmpGeV o s
  | .vcmpLtu => vcmpLtuV o s
  | .vcmpGeu => vcmpGeuV o s
  | .vfcmpEq => vfcmpEqV o e s
  | .vfcmpLt => vfcmpLtV o e s
  | .vfcmpLe => vfcmpLeV o e s
  | .vfcmpNe => vfcmpNeV o e s
  | .vfcmpUnord => vfcmpUnordV o e s
  | .vfcmpOrd => vfcmpOrdV o e s
  | .vredsum => vredsumV o s
  | .vredmax => vredmaxV o s
  | .vredmin => vredminV o s
  | .vredmaxu => vredmaxuV o s
  | .vredminu => vredminuV o s
  | .vredand => vredandV o s
  | .vredor => vredorV o s
  | .vredxor => vredxorV o s
  | .vfredsumO => vfredsumOV o e s
  | .vfredsumU => vfredsumUV o e s
  | .vfredmax => vfredmaxV o e s
  | .vfredmin => vfredminV o e s
  | .vfscanO => vfscanOV o e s
  | .vfscanF => vfscanFV o e s
  | .vscan => vscanV o s
  | .vsegscan => vsegscanV o s
  | .vcompress => vcompressV o s
  | .vexpand => vexpandV o s
  | .vpopcpfx => vpopcpfxV o s
  | .vconflict => vconflictV o s
  | .vprune => vpruneV o s
  | .vperm => vpermV o s
  | .vslideup => vslideupV o e s
  | .vslidedn => vslidednV o e s
  | .vbcast => vbcastV o e s
  | .vmvvx => vmvvxV o e s
  | .viota => viotaV o s
  | .vqrd => vqrdV o e s
  | .vmvcmpl => vmvcmplV o s
  | .wcond => wcondV o s
  | .wsig => wsigV o s
  | .wnot => wnotV o s
  | .wmul => wmulV o s
  | .wmin => wminV o s
  | .wmax => wmaxV o s
  | .wmv => wmvV o s
  | .wmvv => wmvvV o s
  | .join => joinV o s
  | .jgrad => jgradV o s
  | .wdcond => wdcondV o s
  | .wdsig => wdsigV o s
  | .wscale => wscaleV o s
  | .wcnt => wcntV o s
  | .vmvxv => .done s

/-- A VM-format member. -/
def runVMop (op : VMOpc) (o : VMOp) (e : Held) (s : State) : VOut :=
  match op with
  | .vldUnit => vldUnitV o e s
  | .vldStrided => vldStridedV o e s
  | .vldIndexed => vldIndexedV o e s
  | .vldff => vldffV o e s
  | .vstUnit => vstUnitV o e s
  | .vstStrided => vstStridedV o e s
  | .vstIndexed => vstIndexedV o e s
  | .vstbUnit => vstbUnitV o e s
  | .vstbStrided => vstbStridedV o e s
  | .vstbIndexed => vstbIndexedV o e s
  | .vamoadd => vamoaddV o e s
  | .vamoand => vamoandV o e s
  | .vamoor => vamoorV o e s
  | .vamoxor => vamoxorV o e s
  | .vamomin => vamominV o e s
  | .vamomax => vamomaxV o e s
  | .vamoswap => vamoswapV o e s
  | .vscaddD => vscaddDV o e s
  | .vscaddU => vscaddUV o e s
  | .vldkUnit => vldkUnitV o e s
  | .vldkStrided => vldkStridedV o e s
  | .vsave => vsaveV o e s
  | .vrest => vrestV o e s

/-! ### TLBINV (R257, R308) -/

/-- The G bit of a leaf PTE (R267). -/
def Xlat.isGlobal (x : Xlat) : Bool := x.pte.testBit 5

/-- A kept translation is one that TLBINV selects: one of the page that holds an address, or a non-global one of a world
(R257). -/
def Xlat.selected (x : Xlat) (sel va : Word) (secure : Bool) : Bool :=
  if sel = 0 then x.page == va.toNat / 2 ^ x.bits else !x.isGlobal && x.secure == secure

/-- Every TLB of the module drops the translations that meet a condition. -/
def State.dropXlats (s : State) (p : Xlat → Bool) : State :=
  (s.cores.map (·.1)).foldl (fun t n => t.setCore n { t.coreSt n with tlb := (t.coreSt n).tlb.filter fun x => !p x }) s

/-- An instruction of some hart holds a pinned translation that meets a condition. -/
def State.pinHeld (s : State) (p : Xlat → Bool) : Bool :=
  (s.hart :: s.others).any fun h => h.entries.any fun e => e.pins.any p

/-- TLBINV (R257): the selector, then the privilege. It waits for the instructions that hold a pinned translation that
it selects and for the loads that harts have passed, and the writes that wait in the harts' queues perform before it
completes (R308, log entry 46). -/
def tlbinvV (e : Held) (s : State) : VOut :=
  let p (x : Xlat) : Bool := x.selected (e.op 1) (e.op 0) s.hart.csr.status.world
  if 1 < (e.op 1).toNat then vTrap cILL (heldWord e.instr) 8 s
  else if !e.priv then vTrap cACCESS (e.op 0) 9 s
  else if s.pinHeld p || (s.hart :: s.others).any fun h => !h.late.isEmpty then .wait
  else .done ((s.flushHarts fun _ => true).dropXlats p)

/-- A length-setting instruction at the vector unit (R140, R142, R379). -/
def setvlV (e : Held) (s : State) : VOut :=
  match e.ops with
  | [vl, vt] =>
    .done ((s.onCsr fun c => { c with vl := BitVec.ofNat 11 vl.toNat, vtype := BitVec.ofNat 9 vt.toNat }).stripTurn e.pc
      (!e.priv))
  | _ => .done s

/-! ### The second part of ENQ (R245) -/

/-- Command j of the concatenation of v[b] and the registers that follow it. -/
def enqCommand (h : Hart) (b : Reg) (j : Nat) : Nat :=
  let n := h.vlrBits / 512
  ((h.getV (b + Fin.ofNat 32 (j / n))).extractLsb' (512 * (j % n)) 512).toNat

/-- A command with V set. -/
def setValid (x : Nat) : Nat := if x.testBit 15 then x else x + 2 ^ 15

/-- Command j is active: VTYPE has no part in it (R20, R33, R245). -/
def enqActive (h : Hart) (w : Fin 8) (j : Nat) : Bool :=
  decide (h.vstart ≤ j) && decide (j < h.rawVl) && decide (h.thr < h.weight w j)

/-- What slot j receives: the command with V set, or VOID. -/
def enqSlotWord (h : Hart) (o : EnqOp) (j : Nat) : Nat :=
  if enqActive h o.w j then setValid (enqCommand h o.b j) else 2 ^ 15

/-- What a slot write records with the command (R247). -/
def slotRecord (e : Held) (h : Hart) (j x : Nat) : SlotRec :=
  { chain := e.enqChain, seq := e.enqFirst + j, engine := Fin.ofNat 68 e.enqEngine, priv := e.priv,
    secure := h.csr.status.world, ptroot := h.ptroot, domain := h.domain, hartid := h.csr.hartid, region := h.region,
    cmd0 := BitVec.ofNat 64 x, cmd2 := BitVec.ofNat 64 (x / 2 ^ 128), cmd3 := BitVec.ofNat 64 (x / 2 ^ 192) }

/-- The hart with the result weight of command j, when it is active. -/
def enqWeight (o : EnqOp) (j q : Nat) (h : Hart) : Hart := if enqActive h o.w j then h.setWeight o.w j q else h

/-- The write of one slot, which is ordered with no earlier scalar or vector store unless an EFENCE stands between them
(R256). -/
def slotWrite (s : State) (ag : Agent) (slot : Word) (x : Nat) : Acc State :=
  match access s ag .scalar .store slot 64 with
  | .fault f u => .fault f u
  | .wait => .wait
  | .ok (s1, ts) => .ok (storeBytes s1 ag ts (leBytes 64 x))

/-- A reserved command stands in its slot: its number is reserved no more (R245). -/
def State.noteSlot (s : State) (r : SlotRec) : State :=
  { s with slotRecs := s.slotRecs ++ [r], reserved := s.reserved.erase (r.engine.val, r.seq % 2 ^ 32) }

/-- Slot writes of commands `j`, `j + 1`, …, `n` of them (R245). -/
def enqSlots (o : EnqOp) (e : Held) : Nat → Nat → State → VOut
  | _, 0, s => .done s
  | j, n + 1, s =>
    let slot := e.enqRing + BitVec.ofNat 64 (64 * ((e.enqFirst + j) % 2 ^ e.enqLog2))
    let x := enqSlotWord s.hart o j
    match slotWrite s (e.agent s.hart) slot x with
    | .fault f u => elemTrap u o.w j f
    | .wait => .wait
    | .ok t => enqSlots o e (j + 1) n ((t.noteSlot (slotRecord e s.hart j x)).onHart (enqWeight o j 32768))

/-- The entry at the head notes that its slot writes have begun, so that a restart writes none of them again (R149). -/
def beginEnq (h : Hart) : Hart :=
  match h.viq with
  | e :: r => { h with viq := { e with begun := true } :: r }
  | [] => h

/-- The second part of ENQ (R245): the slots, VOID below VSTART, then the weights of the rejected commands. A restart
begins at VSTART (R149). -/
def enqV (o : EnqOp) (e : Held) (s : State) : VOut :=
  let v := s.hart.vstart
  let lo := if e.begun then v else 0
  match enqSlots o e lo (e.enqK - lo) (s.onHart beginEnq) with
  | .done t =>
    .done (t.onHart fun h =>
      ((List.range e.enqM).filter fun j => decide (e.enqK ≤ j) && decide (v ≤ j)).foldl (fun h j => enqWeight o j 0 h) h)
  | r => r

/-- What an entry does. RESTVQ restores its frame when it reaches the head, which the issue does. -/
def runEntry (e : Held) (s : State) : VOut :=
  match e.instr with
  | .v op o => runVop op o e s
  | .vm op o => runVMop op o e s
  | .mtld _ | .mrow _ | .maclr _ | .mard _ | .mawr _ | .mast _ => runTile e s
  | .lacfg _ => lacfgV e s
  | .laeval o => laevalV o s
  | .lavote o => lavoteV o s
  | .latrain o => latrainV o e s
  | .lafb o => lafbV o e s
  | .lastl _ => lastlV e s
  | .lasts _ => lastsV e s
  | .latbl _ => latblV e s
  | .laseed _ => laseedV e s
  | .vlsync => .done s.flushLanes
  | .lafence _ => .done s.landOwn.flushLanes
  | .tlbinv _ => tlbinvV e s
  | .efence _ => .done s.flushAll
  | .setvli _ => setvlV e s
  | .setvl _ => setvlV e s
  | .enq o => enqV o e s
  | .restvq _ => .done s

end Sys2Proof.Machine
end

