-- ==== Sys2Proof/Machine/Issue.lean ====
section
/-! DEFINITION. The queues between the front-end and the vector unit (R11, R26, R28): queueing an instruction, the
causes that an entry at the head raises in their order (R358), running it, and what follows its completion or its
trap. -/

namespace Sys2Proof.Machine

/-! ### Full and empty (R26) -/

/-- Register n of VecInfo's numbering is empty. -/
def Hart.isEmpty (h : Hart) (n : Nat) : Bool := if n < 32 then !h.vfull.getLsbD n else !h.wfull.getLsbD (n - 32)

/-- A register is marked full. -/
def Hart.markFull (h : Hart) (n : Nat) : Hart :=
  if n < 32 then { h with vfull := h.vfull ||| BitVec.ofNat 32 (2 ^ n) }
  else { h with wfull := h.wfull ||| BitVec.ofNat 8 (2 ^ (n - 32)) }

/-- A register is marked empty. -/
def Hart.markEmpty (h : Hart) (n : Nat) : Hart :=
  if n < 32 then { h with vfull := h.vfull &&& ~~~BitVec.ofNat 32 (2 ^ n) }
  else { h with wfull := h.wfull &&& ~~~BitVec.ofNat 8 (2 ^ (n - 32)) }

/-- A producer that has left the VIQ leaves a register empty until a cycle (R26). -/
def Hart.startFilling (h : Hart) (due n : Nat) : Hart := { h.markEmpty n with filling := h.filling ++ [(n, due)] }

/-- One register's last element is written. -/
def Hart.fill (h : Hart) (n : Nat) : Hart := { h.markFull n with filling := h.filling.filter fun p => p.1 != n }

/-- Every producer that has left the VIQ has written its last element. -/
def Hart.fillAll (h : Hart) : Hart := { h.filling.foldl (fun h p => h.markFull p.1) h with filling := [] }

/-- The producers whose cycle has come have written their last element. -/
def Hart.fillDue (h : Hart) (now : Nat) : Hart :=
  { (h.filling.filter fun p => p.2 ≤ now).foldl (fun h p => h.markFull p.1) h with
    filling := h.filling.filter fun p => !decide (p.2 ≤ now) }

/-- CSPEC of EMPTY for a register (Table 16-2). -/
def emptySpec (n : Nat) : Nat := if n < 32 then 0x100 + n else 0x200 + (n - 32)

/-- What an entry's full/empty checks find. -/
inductive Ready where
  | go
  | wait
  | trap (cspec : Nat)
  deriving DecidableEq, Repr

/-- The checks of R26 on an entry: sources in field order, then destinations. A destination that the entry itself has
left empty, having begun to write it, is its own to read and to write (R149). -/
def readiness (h : Hart) (e : Held) : Ready :=
  let i := vinfo e.instr
  let cd := h.csr.status.cd
  let own (r : Nat) : Bool := e.begun && i.writes.contains r
  let src := i.reads.filter fun r => h.isEmpty r.1 && !e.skip.testBit r.1 && !own r.1
  let dst := i.writes.filter fun r => h.isEmpty r && !own r
  match src.find? fun r => r.2 || cd with
  | some r => .trap (emptySpec r.1)
  | none =>
    match if cd then dst.head? else none with
    | some r => .trap (emptySpec r + 0x800)
    | none => if src.isEmpty && dst.isEmpty then .go else .wait

/-! ### Causes of an entry, in order (R358) -/

/-- Plain LAEVAL, which DETVIOL bars (R233). -/
def plainEval (v : VInstr) : Bool :=
  match v with
  | .laeval o => !o.flag
  | _ => false

/-- A vector-class trap with the entry's encoding. -/
def entryTrap (e : Held) (code cspec : Nat) : Trap :=
  { code := code, cls := .vector, tval := heldWord e.instr, taux := mkTaux false cspec 0 0 }

/-- The causes that an entry raises before it reads memory, in order: the world fault of an array, ILL, DETVIOL,
OVERLAP, CONVOY, EMPTY; or it waits, or it may run. -/
inductive Gate where
  | open
  | wait
  | bar (t : Trap)

/-- R358. An entry that will wait behind others of its hart (R219) has its row, its slot and SEW checked when its turn
comes (R218). -/
def gate (s : State) (e : Held) (behind : Bool) : Gate :=
  let h := s.hart
  let bars := arrayBars s e
  let det := h.csr.status.det
  match bars.filter (·.code == cACCESS) with
  | some t => .bar t
  | none =>
    if illByVtype h e.instr then .bar (entryTrap e cILL 0)
    else match bars, if behind then none else tileIll s h e, overlapOf e.instr with
      | some t, _, _ => .bar t
      | none, some n, _ => .bar (entryTrap e cILL n)
      | none, none, lap =>
        if det && (unordered e.instr || plainEval e.instr) then .bar (entryTrap e cDETVIOL 0)
        else match lap with
          | some r => .bar (entryTrap e cOVERLAP r)
          | none =>
            if e.conv ≠ 0 then .bar (entryTrap e cCONVOY e.conv)
            else match readiness h e with
              | .go => .open
              | .wait => .wait
              | .trap n => .bar (entryTrap e cEMPTY n)

/-- While STATUS.DET is 1, an entry that starts a convoy waits until every element of the hart's earlier ones has
completed (R342). -/
def detWaits (h : Hart) (e : Held) : Bool :=
  h.csr.status.det && !(vinfo e.instr).c && (!h.filling.isEmpty || !h.tiles.isEmpty)

/-! ### What an entry's issue counts (R335, Table 17-2, Table 17-3) -/

/-- The entry counts commands or elements, so that its completion sets VSTART := 0 (R32). -/
def resetsVstart (v : VInstr) : Bool :=
  match v with
  | .enq _ => true
  | _ => (vinfo v).pipe.isSome

/-- Elements of a group (R335): EG. -/
def Hart.groupSize (h : Hart) : Nat := if h.sew = 0 then 1 else h.laneCount * 64 / h.sew

/-- Element groups that an entry needs (R335). -/
def groupsOf (h : Hart) (v : VInstr) : Nat :=
  match v with
  | .v _ _ | .vm _ _ => max 1 ((h.vl - h.vstart + h.groupSize - 1) / h.groupSize)
  | _ => 1

/-- A trap reports an element, command or row (TAUX.EV). -/
def Trap.ev (t : Trap) : Bool := t.taux.getLsbD 63

/-- The element that a trap reports. -/
def Trap.elem (t : Trap) : Nat := t.taux.toNat % 2 ^ 16

/-- Element groups that an entry had issued when it trapped: none when it trapped before its first element, all
when every element had performed (R374), those up to the element otherwise. -/
def groupsUntil (h : Hart) (v : VInstr) (t : Trap) : Nat :=
  if t.code = cWATCHHIT then groupsOf h v
  else if !t.ev then 0
  else match v with
    | .v _ _ | .vm _ _ => min (groupsOf h v) ((t.elem - h.vstart) / h.groupSize + 1)
    | _ => 1

/-- Groups that issue count in EGISSUE, and in the open strip by the pipe they issue to, where the ARITH and the XELEM
pipe count once for the slots in which both issue (Table 17-2, Table 17-3). -/
def Hart.countGroups (h : Hart) (v : VInstr) (n : Nat) : Hart :=
  let h1 := { h with csr := h.csr.count evEgissue n }
  let inArith (p : Option Pipe) : Bool := p == some .arith || p == some .xelem
  match (vinfo v).pipe with
  | some .arith | some .xelem =>
    let shared := (vinfo v).c && h.gone.any fun m => inArith (vinfo m).pipe
    h1.onStrip fun o => { o with arith := o.arith + (if shared then n - (h.groups + 1) else n) }
  | some .mem => h1.onStrip fun o => { o with mem := o.mem + n }
  | some .tile => h1
  | none => h

/-- The weight register of an instruction that has elements. -/
def elementWeight (v : VInstr) : Option (Fin 8) :=
  match v with
  | .v _ o => some o.w
  | .vm _ o => some o.w
  | .mard o | .mawr o | .mast o => some o.w
  | _ => none

/-- The instruction is a vector memory instruction. -/
def isVm (v : VInstr) : Bool :=
  match v with
  | .vm _ _ => true
  | _ => false

/-- The elements that a sample record marks as performed or computed (Table 17-1): of an instruction that accesses
memory by elements those that have performed, which `performed` holds; of another all active ones when it has
completed, and when it has trapped those below the element it reports. -/
def sampleMask (h : Hart) (e : Held) (performed : BitVec 1024) (t : Option Trap) : BitVec 1024 :=
  let some_ (w : Fin 8) (n : Nat) : BitVec 1024 := elemSet ((h.activeList w).filter fun i => decide (i < n))
  match e.instr with
  | .vm _ _ | .mast _ => performed
  | .mard o | .mawr o => if t.isNone then some_ o.w (rowCount o.ef) else 0
  | .v _ o => match t with
    | none => some_ o.w 1024
    | some t => if t.ev then some_ o.w t.elem else 0
  | _ => 0

/-- The record of a tagged entry when it completes or traps (R377); `h` is the hart as the entry was issued. -/
def sampleEntry (h : Hart) (e : Held) (t : Option Trap) (s : State) : State :=
  match e.tagged, s.hart.tag with
  | true, some g =>
    s.recordSample { g with
      vector := true, trapped := t.isSome, code := BitVec.ofNat 8 ((t.map (·.code)).getD 0), vl := h.csr.vl,
      vstart := BitVec.ofNat 11 (e.began h), vtype := h.csr.vtype, mask := sampleMask h e g.mask t,
      masked := (elementWeight e.instr).isSome }
  | _, _ => s

/-! ### After an entry -/

/-- The registers that a completed long-latency producer leaves empty until an open cycle (R26). -/
def leaveEmpty (e : Held) (s : State) : State :=
  let i := vinfo e.instr
  if i.longLat then
    let due := s.time + (Config.freeWord s.fresh).toNat % 4096
    { s with fresh := s.fresh + 1, hart := i.writes.foldl (fun h n => h.startFilling due n) s.hart }
  else s

/-- The convoy members that have left when an entry leaves (R339). -/
def Hart.goneAfter (h : Hart) (v : VInstr) : List VInstr :=
  let i := vinfo v
  if i.member then (if i.c then h.gone else []) ++ [v] else []

/-- An entry's groups issue: they count, and use the slot of its first and those that follow (R335). -/
def Hart.issueGroups (h : Hart) (h0 : Hart) (v : VInstr) : Hart :=
  { h.countGroups v (groupsOf h0 v) with groups := max h.groups (groupsOf h0 v - 1) }

/-- The entry at the head leaves the VIQ; the groups of one that has been in flight have issued before. -/
def Hart.leaveVs (h : Hart) (h0 : Hart) (e : Held) : Hart :=
  { (if e.flying then h else h.issueGroups h0 e.instr) with
    viq := h.viq.tail
    gone := h.goneAfter e.instr
    headTrapped := false }

/-- The registers that an entry's completion changes: VSTART and the completion mask clear (R32), and a VTYPE that an
ERET left behind it is in force (R51, R356). -/
def Hart.settle (h : Hart) (e : Held) : Hart :=
  { h with
    mask := 0
    maskValid := false
    watchHit := none
    csr := { h.csr with
      vstart := if resetsVstart e.instr then 0 else h.csr.vstart
      vtype := e.thenVtype.getD h.csr.vtype } }

/-- The entry at the head has completed; `h0` is the hart as it was issued. -/
def completeEntry (e : Held) (h0 : Hart) (s : State) : State :=
  let s2 := leaveEmpty e (s.onHart fun h => (h.leaveVs h0 e).settle e)
  sampleEntry h0 e none (if (vinfo e.instr).pipe.isSome then s2.count evVcompl 1 else s2)

/-- A tile instruction leaves the VIQ for its tile queue (R220). -/
def joinEntry (e : Held) (s : State) : State := s.onHart fun h => (h.leaveVs h e).joinTiles s.time e

/-- A producer that has stopped at an element leaves its destination empty for its restart (R26, R371). -/
def Hart.stopProducer (h : Hart) (e : Held) (t : Trap) : Hart :=
  let i := vinfo e.instr
  if i.longLat && t.ev && t.code != cWATCHHIT then i.writes.foldl (fun h n => h.markEmpty n) h else h

/-- An entry as it stays when it has trapped: it is no longer tagged, and after an element fault its restart point is
VSTART. -/
def Held.afterTrap (e : Held) (t : Trap) : Held :=
  let stopped := t.ev && t.code != cWATCHHIT
  { e with
    tagged := false
    begun := e.begun || ((vinfo e.instr).longLat && stopped)
    done := if t.ev then 0 else e.done
    restart := if t.ev then none else e.restart
    pins := [] }

/-- The hart whose entry `e` has trapped as the oldest: the requests of the tile queues go back before the VIQ (R223),
and elements above VSTART that had performed stay in the completion mask (R148). -/
def Hart.trapHead (h : Hart) (e : Held) (t : Trap) : Hart :=
  let m := if t.ev then e.stop.done &&& ~~~(BitVec.ofNat 1024 (2 ^ h.vstart - 1)) else 0
  { h.stopProducer e t with
    viq := e.afterTrap t :: (h.tiles.map TileReq.withdrawn ++ h.viq).tail
    tiles := []
    vfull := refill h.tiles (h.stopProducer e t).vfull
    mask := h.mask ||| m
    maskValid := h.maskValid || m != 0
    headTrapped := true }

/-- The entry traps and stays at the head, frozen (R354). A trap other than EMPTY lets earlier producers finish
(R363). -/
def trapEntryAt (e : Held) (h0 : Hart) (t : Trap) (s : State) : State :=
  let s1 := if t.code = cEMPTY then s else s.onHart Hart.fillAll
  let s2 := s1.onHart fun h => (if e.flying then h else h.countGroups e.instr (groupsUntil h0 e.instr t)).trapHead e t
  let s3 := sampleEntry h0 e (some t) s2
  s3.takeTrap t s3.hart.pc

/-- The entry leaves the VIQ and is reported (R215, R374). -/
def reportEntry (e : Held) (h0 : Hart) (t : Trap) (s : State) : State :=
  let s1 := (completeEntry { e with tagged := false } h0 s).onHart Hart.fillAll
  let s2 := sampleEntry h0 e (some t) s1
  s2.takeTrap t s2.hart.pc

/-- A trap of an entry waits while requests of the hart wait in the tile queues, so that it is the oldest when it
traps. -/
def State.whenOldest (s : State) (t : State) : Option State := if s.hart.tiles.isEmpty then some t else none

/-- The k-th entry of the VIQ is in flight, as `e` says, and a producer has left its destination empty (R26, R148). -/
def Hart.inFlight (h : Hart) (k : Nat) (e : Held) : Hart :=
  let i := vinfo e.instr
  let h1 := { h with viq := h.viq.set k { e with begun := true, flying := true, part := none, reading := false } }
  if i.longLat then i.writes.foldl (fun h n => h.markEmpty n) h1 else h1

/-- An entry issues and stays in flight: its elements perform by turns (R148, R293). -/
def Hart.fly (h : Hart) (k : Nat) (e : Held) : Hart :=
  { (h.issueGroups h e.instr).inFlight k { e with first := h.csr.vstart } with headTrapped := false }

/-! ### Issuing an entry -/

/-- The frame that a RESTVQ at the head restores (R259): the one that stage 1 read, or, when the RESTVQ itself came
from a frame, the frame as it stands now (log entry 18). -/
def restvqFrame (e : Held) (s : State) : Acc (State × List Byte) :=
  if e.data.length = 2048 then .ok (s, e.data)
  else match loadAt s (e.agent s.hart) .scalar (e.op 0) 2048 with
    | .fault f u => .fault f u
    | .wait => .wait
    | .ok r => .ok (r.st, r.data)

/-- The hart with a frame restored, and the VTYPE that an ERET left behind the RESTVQ behind its entries (R51, R356). -/
def Hart.restoreThen (h : Hart) (bs : List Byte) (rest : List Held) (vt : Option (BitVec 9)) : Hart :=
  match vt with
  | none => h.restore bs rest
  | some t =>
    if (frameHeld bs).isEmpty then
      let h1 := h.restore bs rest
      { h1 with csr := { h1.csr with vtype := t } }
    else
      let h1 := h.restore bs []
      { h1 with viq := thenTail h1.viq h1.csr.vtype t ++ rest }

/-- RESTVQ at the head (R259). -/
def issueRestvq (e : Held) (rest : List Held) (s : State) : Option State :=
  match restvqFrame e s with
  | .wait => none
  | .fault f u =>
    let t : Trap := { code := f.cause.code, cls := .vector, tval := f.addr, taux := mkTaux false f.cause.cspec 0 0 }
    some (trapEntryAt e s.hart t (u.mchkMessage f))
  | .ok (s1, bs) =>
    if frameBad s.hart bs || decide (field e.data 4 1 < field bs 4 1) || decide (frameOps e.data < frameOps bs) then
      some (trapEntryAt e s.hart (entryTrap e cILL 1) s)
    else some (s1.onHart fun h => h.restoreThen bs rest e.thenVtype)

/-- The requests of a hart that do not wait for a grant and whose waits under R219 are over; an MROW that is illegal
is one of them (R218). -/
def dueTilesOf (s : State) (h : Hart) : List TileReq :=
  h.readyTiles.filter fun q =>
    (tileIll s h q.entry).isSome || (match q.entry.instr with
      | .mrow _ => false
      | .mast _ | .latrain _ | .lafb _ => !s.loose
      | _ => true)

/-- The placed harts of a core. -/
def State.coreHarts (s : State) (core : Nat) : List Hart :=
  (s.hart :: s.others).filter fun h => h.run != .vacant && coreOf h.csr.hartid == core

/-- A request of the core goes before a tile instruction that issues now: the STE takes ready ones oldest first
(R220). -/
def State.steAhead (s : State) (core : Nat) : Bool := (s.coreHarts core).any fun h => !(dueTilesOf s h).isEmpty

/-- A tile instruction that would wait behind another of its hart, that is not the oldest that the STE can take, or that
waits for a grant or for its turns, joins its tile queue; any other runs at once (R219, R220). -/
def issueTile (e : Held) (s : State) : Option State :=
  let h := s.hart
  let behind := h.behindTiles e
  match gate s e behind with
  | .wait => none
  | .bar t => s.whenOldest (trapEntryAt e h t s)
  | .open =>
    if behind || s.steAhead s.core then some (joinEntry e s)
    else match runTile e s with
      | .done t => some (completeEntry e h t)
      | .trap t u => s.whenOldest (trapEntryAt e h t u)
      | .report t u => s.whenOldest (reportEntry e h t u)
      | .part _ _ | .pinWait => none
      | .wait => some ((joinEntry e s).steGrant s.core)

/-- An entry that does not go to the STE is issued: a vector memory instruction stays in flight while its elements are
scheduled from outside (R293), a step of the array goes on its way there (R240), and any other runs. A trap waits
until the entry is the hart's oldest. -/
def issueOther (e : Held) (s : State) : Option State :=
  let h := s.hart
  match gate s e false with
  | .wait => none
  | .bar t => s.whenOldest (trapEntryAt e h t s)
  | .open =>
    if s.loose && isVm e.instr then some (s.onHart (·.fly 0 e))
    else if s.loose && isStep e.instr then some (joinEntry e s)
    else match runEntry e s with
      | .done t => some (completeEntry e h t)
      | .trap t u => s.whenOldest (trapEntryAt e h t u)
      | .report t u => s.whenOldest (reportEntry e h t u)
      | .part _ _ | .pinWait | .wait => none

/-- An entry is issued as the head of the VIQ: the state after it, or none when it waits or has issued. -/
def issueEntry (e : Held) (rest : List Held) (s : State) : Option State :=
  if s.hart.frozen || e.flying || tileWaits s.hart e || detWaits s.hart e then none
  else match e.instr with
    | .restvq _ => issueRestvq e rest s
    | _ => if forEngine e.instr then issueTile e s else issueOther e s

/-! ### Convoys that overlap (R148, R342) -/

/-- The kinds of access of a vector memory instruction that may be in flight beside another: whether it writes memory,
and whether its elements are applied by a memory-side reduction unit; none for one that stays alone in flight. -/
def overlapKind (v : VInstr) : Option (Bool × Bool) :=
  match v with
  | .vm op _ =>
    match op with
    | .vldUnit | .vldStrided | .vldIndexed => some (false, false)
    | .vstUnit | .vstStrided | .vstIndexed | .vstbUnit | .vstbStrided | .vstbIndexed => some (true, false)
    | .vamoadd | .vamoand | .vamoor | .vamoxor | .vamomin | .vamomax | .vamoswap | .vscaddD | .vscaddU => some (true, true)
    | .vldff | .vldkUnit | .vldkStrided | .vsave | .vrest => none
  | _ => none

/-- The mode and the bits of the memory elements of such an instruction. -/
def overlapMode (h : Hart) (v : VInstr) : Option (MemMode × Nat × VMOp) :=
  match v with
  | .vm op o =>
    match op with
    | .vldUnit | .vstUnit => some (.unit, memBits h.sew o.fmt, o)
    | .vldStrided | .vstStrided => some (.strided, memBits h.sew o.fmt, o)
    | .vldIndexed | .vstIndexed => some (.indexed, memBits h.sew o.fmt, o)
    | .vstbUnit => some (.unit, h.sew, o)
    | .vstbStrided => some (.strided, h.sew, o)
    | .vldff | .vldkUnit | .vldkStrided | .vsave | .vrest => none
    | _ => some (.indexed, h.sew, o)
  | _ => none

/-- The targets of element i of an entry, none when they are not known. -/
def elementTargets (s : State) (e : Held) (i : Nat) : List Target :=
  let h := s.hart
  match overlapMode h e.instr with
  | none => []
  | some (mode, bits, o) =>
    match access s (e.agent h) (.element (h.laneOf i)) .load (memAddr (e.op 0) bits (memElem h mode (e.op 1) o.b i))
      (memBytes bits) with
    | .ok (_, ts) => ts
    | _ => []

/-- Elements of two entries share a location, or their locations are not known. -/
def mayShare (ts us : List Target) : Bool := ts.isEmpty || us.isEmpty || ts.any us.contains

/-- Element j of a later entry follows element i of an earlier one: in local order, when they lie in one lane group and
both write or share a location (R289 rows 2 and 3); or at the reduction units, when they share one (R315). -/
def elementAfter (s : State) (e f : Held) (i j : Nat) : Bool :=
  match overlapKind e.instr, overlapKind f.instr with
  | some (ew, em), some (fw, fm) =>
    let share := mayShare (elementTargets s e i) (elementTargets s f j)
    (s.hart.laneGroup i == s.hart.laneGroup j && ((ew && fw) || share)) || (em && fm && share)
  | _, _ => true

/-- A later entry may be in flight beside an earlier one: they share no register that one of them writes, nor a weight
register in which the earlier may demote, and each can be told by its address where its stores wait (R26, R147, R294).
-/
def mayOverlap (h : Hart) (e f : Held) : Bool :=
  let w := (elementWeight e.instr).getD 0
  e.flying && e.thenVtype.isNone && (overlapKind e.instr).isSome && apart e.instr f.instr && e.pc != f.pc &&
    (w == 0 || h.csr.fracctl == 0 || elementWeight f.instr != some w)

/-- An entry issues behind entries that are all in flight (R342): it, and every one behind the first, performs in
ascending index, but for at most one of them. -/
def issueBeside (before : List Held) (f : Held) (s : State) : Option State :=
  let h := s.hart
  let young := before.tail ++ [f]
  if !s.loose || h.frozen || h.csr.status.det || !h.tiles.isEmpty || (overlapKind f.instr).isNone ||
      !before.all (mayOverlap h · f) || decide (1 < (young.filter fun x => !stopsInOrder x.instr).length) then none
  else
    let own : Hart := { h with mask := 0, maskValid := false, csr := { h.csr with vstart := 0 } }
    match gate { s with hart := own } f false with
    | .open => some (s.onHart fun x =>
        let y := own.fly before.length f
        { y with mask := x.mask, maskValid := x.maskValid, csr := { y.csr with vstart := x.csr.vstart } })
    | _ => none

/-- The head of the VIQ is issued, or the first entry behind those in flight: the state after it, or none when it waits
or there is none to issue. -/
def issueHead (s : State) : Option State :=
  match s.hart.viq with
  | [] => none
  | e :: rest =>
    if !e.flying then issueEntry e rest s
    else match s.hart.viq.dropWhile (·.flying) with
      | f :: _ => issueBeside (s.hart.viq.takeWhile (·.flying)) f s
      | [] => none

/-- The entry that the hart would issue next is a later member of the convoy whose element groups are issuing, and
takes its groups in the same slots (R335, R339). -/
def Hart.headJoined (h : Hart) : Bool :=
  match h.viq with
  | e :: _ => (vinfo e.instr).c && !h.frozen && !e.flying
  | [] => false

/-- The later members of a convoy issue in the slot of the first (R335, R339): all of them, or none of the convoy when
one waits for a register or a line. A member that waits for the STE, or for the elements of one in flight, follows when
it can. -/
def issueMembers : Nat → State → Option State
  | 0, s => some s
  | n + 1, s =>
    match s.hart.viq with
    | [] => some s
    | e :: rest =>
      if !s.hart.headJoined || decide (0 < s.hart.vgap) then some s
      else match issueEntry e rest s with
        | some t => issueMembers n t
        | none => if tileWaits s.hart e then some s else none

/-- The oldest convoy of the VIQ is issued. -/
def issueConvoy (s : State) : Option State := (issueHead s).bind (issueMembers 3)

/-- The hart uses an issue slot of its partition: an element group of what has been issued, with members that have
joined since, or the oldest convoy. -/
def issueNext (s : State) : Option State :=
  let s1 := s.onHart fun h => { h with used := h.used ||| 1 }
  if s.hart.groups = 0 then issueConvoy s1
  else
    let group := s1.onHart fun h => { h with groups := h.groups - 1 }
    if s.hart.headJoined && s.hart.vgap == 0 then some ((issueConvoy group).getD group) else some group

/-! ### Elements that perform by turns (R148, R293) -/

/-- The elements of the k-th entry that may perform beside the entries before it: none that follows an element of one
of them which is still to perform. -/
def besideOthers (s : State) (before : List Held) (f : Held) (m : BitVec 1024) : BitVec 1024 :=
  let left (e : Held) : List Nat := s.hart.pendingElems e ((elementWeight e.instr).getD 0)
  elemSet ((List.range 1024).filter fun j => m.getLsbD j && !before.any fun e => (left e).any fun i => elementAfter s e f i j)

/-- What two states of the hart show of flags and demotions. -/
def Csr.marks (c : Csr) : BitVec 7 × BitVec 3 × BitVec 60 × BitVec 48 × BitVec 32 × BitVec 12 :=
  (c.fflags, c.iflags, c.firstx, c.firstxi, c.demoted, c.firstdem)

/-- A younger entry performs some of its elements while others before it are in flight (R148, R342). It neither
completes nor reports a fault, a watch hit, a flag or a demotion before they have completed: elements that would wait.
-/
def youngerTurn (k : Nat) (before : List Held) (f : Held) (reading : Bool) (m : BitVec 1024) (s : State) : State :=
  let h := s.hart
  let own : Hart := { h with mask := 0, maskValid := false, watchHit := none, csr := { h.csr with vstart := 0 } }
  let t := { s with hart := own }
  match runEntry { f with part := some (besideOthers t before f m), reading := reading } t with
  | .part u e =>
    if u.hart.watchHit.isSome || u.hart.csr.marks != h.csr.marks then s
    else u.onHart fun x =>
      { x with mask := h.mask, maskValid := h.maskValid, watchHit := h.watchHit,
               csr := { x.csr with vstart := h.csr.vstart } }.inFlight k e
  | _ => s

/-- The members of a convoy that follow one which has been in flight complete with it, in the slots that its groups
have had. -/
def State.withMembers (s : State) : State :=
  ((issueMembers 3 s).getD s).onHart fun h => { h with groups := s.hart.groups }

/-- The oldest entry, in flight, goes on: by the elements that `e` names, or to its end. -/
def flyHead (e : Held) (s : State) : Option State :=
  let h := s.hart
  let e0 : Held := { e with part := none, reading := false }
  match runEntry e s with
  | .done t => some (completeEntry e0 h t).withMembers
  | .trap t u => s.whenOldest (trapEntryAt e0 h t u)
  | .report t u => s.whenOldest (reportEntry e0 h t u)
  | .part u x => some (u.onHart (·.inFlight 0 x))
  | .pinWait | .wait => none

/-- A MAST at the head of the tile queues performs some of its elements (R148, R223). -/
def mastTurn (q : TileReq) (m : BitVec 1024) (complete : Held → Hart → State → State) (s : State) : Option State :=
  let h := s.hart
  let e := q.entry
  match runTile { e with part := some m } s with
  | .done t => some (complete e h t)
  | .trap t u => some (trapEntryAt e h t u)
  | .report t u => some (reportEntry e h t u)
  | .part u x => some (u.onHart fun y =>
      { y with tiles := { q with entry := { x with part := none, reading := false } } :: y.tiles.tail })
  | .pinWait | .wait => none

/-! ### The tile queues of a hart (R219, R223) -/

/-- A request of the hart has completed. -/
def completeTile (q : TileReq) (h0 : Hart) (s : State) : State :=
  let e := q.entry
  let s1 := leaveEmpty e (s.onHart fun h =>
    ({ h with watchHit := if isMast e.instr then none else h.watchHit, tiles := h.tiles.erase q }.tileDone e))
  sampleEntry h0 e none s1

/-- What a request does: a step of the array (R237, R238), whose rows may stay to change one by one, or a tile
instruction. -/
def runReq (e : Held) (s : State) : VOut := if isStep e.instr then runEntry e s else runTile e s

/-- The trap that a request meets when its turn has come. -/
def requestBars (s : State) (e : Held) : Option Trap :=
  match tileIll s s.hart e with
  | some n => some (entryTrap e cILL n)
  | none => arrayBars s e

/-- A request whose turn has come runs. A trap waits until it is the hart's oldest. -/
def runRequest (rows : Bool) (q : TileReq) (s : State) : Option State :=
  let e := q.entry
  let h := s.hart
  let oldest (t : State) : Option State := if h.tiles.head? == some q then some t else none
  match requestBars s e with
  | some t => oldest (trapEntryAt e h t s)
  | none =>
    match runReq { e with reading := rows } s with
    | .done t => some (completeTile q h t)
    | .trap t u => oldest (trapEntryAt e h t u)
    | .report t u =>
      let v := sampleEntry h e (some t) ((completeTile { q with entry := { e with tagged := false } } h
        (u.onHart fun x => { x with tiles := { q with entry := { e with tagged := false } } :: x.tiles.tail })).onHart
          Hart.fillAll)
      oldest (v.takeTrap t v.hart.pc)
    | .part _ _ | .pinWait | .wait => none

/-- The request of a list that has waited longest, with its hart's HARTID (R220). -/
def oldestDue : List (BitVec 12 × TileReq) → Option (BitVec 12 × TileReq)
  | [] => none
  | x :: r => match oldestDue r with
    | some y => if y.2.since < x.2.since then some y else some x
    | none => some x

/-- The k-th entry of the hart's VIQ performs, or only reads, the elements of a set, and completes when none is left
(R148, R293); with k = 0 a MAST that is the hart's oldest does. -/
def State.elementsTurn (s : State) (k : Nat) (reading : Bool) (m : BitVec 1024) : State :=
  let h := s.hart
  match k, h.tiles with
  | 0, q :: _ =>
    if isMast q.entry.instr && !reading then
      (mastTurn q m (fun e h0 t => completeTile { q with entry := { e with part := none } } h0 t) s).getD s
    else s
  | _, _ =>
    match h.viq[k]? with
    | none => s
    | some f =>
      if h.frozen || !(h.viq.take (k + 1)).all (·.flying) then s
      else if k = 0 then (flyHead { f with part := some m, reading := reading } s).getD s
      else youngerTurn k (h.viq.take k) f reading m s

/-- Entries that are in flight when nothing outside schedules their elements any more run to their end. -/
def State.landHead : Nat → State → State
  | 0, s => s
  | n + 1, s =>
    match s.hart.viq with
    | e :: _ =>
      if e.flying && !s.loose && !s.hart.frozen then match flyHead e s with
        | some t => State.landHead n t
        | none => s
      else s
    | [] => s

/-- The oldest step that the hart has on its way reaches the array; its rows stay to change one by one (R240). -/
def State.stepRowsTurn (s : State) : State :=
  match s.hart.readyTiles.find? fun q => isStep q.entry.instr with
  | some q => (runRequest true q s).getD s
  | none => s

/-! ### Queueing (R11, R28) -/

/-- While STATUS.VS is OFF an instruction of the vector kinds traps VFIRST (R28). The four fences that enter the VIQ,
and RESTVQ, which restores what an OFF unit holds, do not. -/
def trapsVfirst (v : VInstr) : Bool :=
  match v with
  | .vlsync | .lafence _ | .tlbinv _ | .efence _ | .restvq _ => false
  | _ => true

/-- STATUS.VS is OFF. -/
def Hart.vsOff (h : Hart) : Bool := h.csr.status.vs == 0

/-- Places of the VIQ that an entry takes: one, and for a RESTVQ those of the entries that its frame holds (R259). -/
def Held.places (e : Held) : Nat :=
  match e.instr with
  | .restvq _ => max 1 (field e.data 4 1)
  | _ => 1

/-- Places of the SOQ that an entry takes, likewise. -/
def Held.soqPlaces (e : Held) : Nat :=
  match e.instr with
  | .restvq _ => max 1 (frameOps e.data)
  | v => soqCount v

/-- Places taken in the VIQ. A tile instruction that waits in its tile queue keeps its place, to which a stop returns it
(R223, log entry 14). -/
def Hart.viqUsed (h : Hart) : Nat := (h.entries.map Held.places).sum

/-- Places taken in the SOQ: those of every entry that the vector unit still holds. DESIGN CHOICE (log entry 14): an
entry that has issued keeps its places until it has completed, so that a stop finds room for its operands. -/
def Hart.soqUsed (h : Hart) : Nat := (h.entries.map Held.soqPlaces).sum

/-- The VIQ or the SOQ has no room for an entry (R11). -/
def Hart.queueFull (h : Hart) (v : VInstr) : Bool :=
  decide (32 ≤ h.viqUsed) || decide (16 < h.soqUsed + soqCount v)

/-- The front-end stops on a full queue (R11). -/
def State.stallFull (s : State) : State := s.stallOn evQfull

/-- The entry that the front-end makes of an instruction. -/
def makeEntry (h : Hart) (v : VInstr) (ops : List Word) (data : List Byte) : Held :=
  let j := joinConvoy h.convoy v
  { instr := v, pc := h.pc, ops := ops, priv := h.csr.status.priv, rm := h.csr.fcsr, data := data, conv := j.2.1,
    skip := j.2.2, tagged := (h.tag.map fun t => !t.vector).getD false, done := 0, restart := none, begun := false, flying := false,
    first := 0, raised := [], demoted := false, early := [], thenVtype := none, pins := [], part := none, reading := false }

/-- The hart after an entry has joined its queue. The instruction before one that follows a RESTVQ is the newest that
the frame holds (R339). -/
def Hart.enqueue (h : Hart) (e : Held) : Hart :=
  { h with
    viq := h.viq ++ [e]
    convoy := match e.instr with
      | .restvq _ => frameConvoy e.data
      | v => (joinConvoy h.convoy v).1
    tag := h.tag.map fun t => { t with vector := true } }

/-- VFIRST for an instruction (R28, R358). -/
def State.trapVfirst (s : State) (enc : Word) : State := s.trapP cVFIRST enc 0

end Sys2Proof.Machine
end

