-- ==== Sys2Proof/Machine/Sequencer.lean ====
section
/-! DEFINITION. The partition sequencers (R335 to R338): whose turn an issue slot is, what the slot does, and the
queueing of an instruction, which the vector unit may take up in the same cycle. -/

namespace Sys2Proof.Machine

/-! ### Visiting a hart -/

/-- What names the hart whose turn it is: its HARTID, none for an unoccupied front-end. -/
def State.focus (s : State) : Option (BitVec 12) := if s.hart.run = .vacant then none else some s.hart.csr.hartid

/-- A hart has a name. -/
def Hart.named (h : Hart) (k : Option (BitVec 12)) : Bool := (if h.run = .vacant then none else some h.csr.hartid) == k

/-- The turn goes to the hart of a name, wherever it stands. -/
def State.refocus (s : State) (k : Option (BitVec 12)) : State :=
  if s.hart.named k then s
  else match s.others.findIdx? fun h => h.named k with
    | some i => s.switchTo i
    | none => s

/-- What a placed hart does, with the turn back where it was. -/
def State.visit (s : State) (id : BitVec 12) (f : State → State) : State := (f (s.refocus (some id))).refocus s.focus

/-! ### Choosing a hart (R336) -/

/-- A hart is bound to the partition of the hart whose turn it is. -/
def State.isBound (s : State) (h : Hart) : Bool :=
  h.run != .vacant && coreOf h.csr.hartid == coreOf s.hart.csr.hartid && h.partition == s.hart.partition

/-- Harts bound to the partition of the hart whose turn it is. -/
def State.boundHarts (s : State) : List Hart := (s.hart :: s.others).filter s.isBound

/-- The partition has used no issue slot in this cycle, nor left one idle for a C.VGAP (R93, R335). -/
def State.slotFree (s : State) : Bool := s.boundHarts.all fun h => !h.used.getLsbD 0 && decide (h.idleTo ≤ s.time)

/-- An issue slot of a hart: the state after it with the turn back where it was, or none. -/
def issueOf (s : State) (h : Hart) : Option State :=
  (issueNext (s.refocus (some h.csr.hartid))).map fun u => u.refocus s.focus

/-- A hart that is ready, with the state after its slot. -/
abbrev Slots := List (Hart × State)

/-- The harts of some whose oldest convoy can issue (R336). -/
def slotsOf (s : State) (l : List Hart) : Slots :=
  l.filterMap fun h => if h.viqReady then (issueOf s h).map fun t => (h, t) else none

/-- The entries of the oldest convoy of a queue after its first. -/
def convoyRest (q : List Held) : List Held := q.takeWhile fun e => (vinfo e.instr).c

/-- Element groups that a hart's oldest convoy still needs. -/
def groupsLeft (h : Hart) : Nat :=
  if 0 < h.groups then h.groups
  else match h.viq with
    | e :: r => ((e :: convoyRest r).map fun x => groupsOf h x.instr).foldl max 0
    | [] => 0

/-- The slot of least key, the lower hart slot on a tie; the list is in slot order. -/
def pickBy (key : Hart → Int) (l : Slots) : Option (Hart × State) :=
  l.foldl (fun best x => match best with
    | none => some x
    | some b => if key x.1 < key b.1 then some x else some b) none

/-- Harts in slot order. -/
def bySlot (l : List Hart) : List Hart := sortRank (fun a b => decide (a.csr.hartid.toNat ≤ b.csr.hartid.toNat)) l

/-- A credit within its bounds. -/
def satCredit (x : Int) : Int := max (-(2 ^ 20)) (min x (2 ^ 20 - 1))

/-- The credit of a ready hart once its weight is added. -/
def credited (h : Hart) : Int := satCredit (h.credit + (h.share.toNat : Int))

/-- The hart that the sequencer chooses among the ready ones (R336). -/
def chooseHart (ready : Slots) : Option (Hart × State) :=
  if ready.any fun x => decide (256 ≤ x.1.waits) then pickBy (fun h => -(h.waits : Int)) ready
  else
    let e := ready.filter fun x => decide (0 ≤ credited x.1)
    if e.isEmpty then pickBy (fun h => -credited h) ready else pickBy (fun h => (groupsLeft h : Int)) e

/-- Credits and waits of the harts of a partition after a cycle (R336): `x` has issued, and a hart that is not ready
keeps neither. -/
def settleCredits (ready : List Hart) (x : Option (BitVec 12)) (core : Nat) (p : Fin 8) (s : State) : State :=
  let total : Int := ((ready.map fun h => h.share.toNat).sum : Nat)
  let f (h : Hart) : Hart :=
    if h.run = .vacant ∨ coreOf h.csr.hartid ≠ core ∨ h.partition ≠ p then h
    else if some h.csr.hartid = x then { h with credit := satCredit (credited h - total), waits := 0 }
    else if ready.any fun r => r.csr.hartid == h.csr.hartid then { h with credit := credited h, waits := h.waits + 1 }
    else { h with credit := 0, waits := 0 }
  { s with hart := f s.hart, others := s.others.map f }

/-! ### Compiler-directed issue (R338) -/

/-- The next bound hart in slot order after a slot that holds an entry, wrapping (R338). -/
def nextBound (l : List Hart) (slot : Nat) : Option Hart :=
  let hs := (bySlot l).filter fun h => !h.viq.isEmpty
  match hs.find? fun h => decide (slot < slotOf h.csr.hartid) with
  | some h => some h
  | none => hs.head?

/-- The slot of the hart with which the compiler-directed partition of the hart whose turn it is stays, 8 for none. -/
def State.cdSlot (s : State) : Nat := mapGet 8 (s.coreSt (coreOf s.hart.csr.hartid)).cdSlot s.hart.partition.val

/-- The hart with which the compiler-directed partition stays (R338). -/
def directedHart (s : State) : Option Hart := s.boundHarts.find? fun h => slotOf h.csr.hartid == s.cdSlot

/-- A convoy with a member with s = 1 has ended: its element groups have issued, and no further member stands at the
head of the VIQ (R338). -/
def Hart.convoyEnded (h : Hart) : Bool := h.sSeen && decide (h.groups = 0) && !h.headJoined

/-- The compiler-directed partition stays with another hart from now on. -/
def State.directTo (s : State) (slot : Nat) : State :=
  let core := coreOf s.hart.csr.hartid
  let c := s.coreSt core
  let begin_ (h : Hart) : Hart := if s.isBound h then { h with sSeen := false } else h
  { s.setCore core { c with cdSlot := mapSet 8 c.cdSlot s.hart.partition.val slot } with
    hart := begin_ s.hart, others := s.others.map begin_ }

/-- The partition moves on to the next bound hart after a slot that holds an entry, if any does. -/
def State.directNext (s : State) (slot : Nat) : State :=
  match nextBound s.boundHarts slot with
  | some x => s.directTo (slotOf x.csr.hartid)
  | none => s

/-- The compiler-directed sequencer moves on to the next bound hart that holds an entry when a convoy with s = 1 has
ended, and stays where no hart holds one (R338). DESIGN CHOICE (log entry 47): a partition that stays with no hart
begins with the lowest slot that holds an entry, and the slot with which it stays survives when the core is emptied
and opened again; a convoy has ended when no member of it waits in the VIQ at the next slot. -/
def directedMove (s : State) : State :=
  match directedHart s with
  | none => s.directNext 8
  | some h => if h.convoyEnded then s.directNext (slotOf h.csr.hartid) else s

/-- Instructions of a hart have issued on a compiler-directed partition: whether the convoy they belong to has a member
with s = 1 (R338). -/
def directedTurn (h : Hart) (issued : List VInstr) (s : State) : State :=
  let goesOn := (issued.head?.map fun v => (vinfo v).c).getD true
  s.onPlaced h.csr.hartid fun x => { x with sSeen := (h.sSeen && goesOn) || issued.any fun v => (vinfo v).s }

/-- The hart of a HARTID as it stands in a state. -/
def State.placed? (s : State) (id : BitVec 12) : Option Hart :=
  (s.hart :: s.others).find? fun h => h.run != .vacant && h.csr.hartid == id

/-- A slot of the hart's partition stays idle for its C.VGAP (R93). -/
def Hart.idleSlot (h : Hart) (now : Nat) : Hart := { h with vgap := h.vgap - 1, idleTo := now + 1 }

/-- What the slot that gave `t` has issued of the hart `h` (R338): the entries that have left the VIQ, and those that
are in flight since. -/
def directedAfter (h : Hart) (t : State) : State :=
  match t.placed? h.csr.hartid with
  | none => t
  | some k =>
    let n := h.viq.length - k.viq.length
    let flying (q : List Held) : List Held := q.takeWhile (·.flying)
    let issued := h.viq.take n ++ (flying k.viq).drop (flying (h.viq.drop n)).length
    if issued.isEmpty then t else directedTurn h (issued.map (·.instr)) t

/-- A slot of a compiler-directed partition, in which its hart issues a convoy, an element group, or leaves the slot
idle for a C.VGAP. DESIGN CHOICE (log entry 47): the slots that C.VGAP asks for are counted while an entry waits at
the head of the VIQ, and an idle one is no used slot. -/
def directedSlot (s : State) (h : Hart) : Option State :=
  if 0 < h.vgap && h.groups = 0 && !h.viq.isEmpty && !h.frozen then some (s.onPlaced h.csr.hartid (·.idleSlot s.time))
  else (issueOf s h).map (directedAfter h)

/-! ### One cycle of a partition -/

/-- What the sequencer of the partition of the hart whose turn it is does in one cycle: the state after an issue slot,
or after a cycle in which it issues nothing. An instruction takes effect with its first element group, and then uses
the slots of the others. -/
def sequence (s : State) : State :=
  let core := coreOf s.hart.csr.hartid
  let p := s.hart.partition
  if s.hart.csr.status.cd then
    let s1 := directedMove s
    match directedHart s1 with
    | none => s1
    | some h => if s1.capped h then s1 else (directedSlot s1 h).getD s1
  else
    let ready := slotsOf s (bySlot (s.boundHarts.filter fun h => !s.capped h))
    match chooseHart ready with
    | none => settleCredits [] none core p s
    | some x => settleCredits (ready.map (·.1)) (some x.1.csr.hartid) core p x.2

/-- Harts of the partition that their caps alone hold. -/
def State.heldByCap (s : State) : List Hart :=
  (slotsOf s (s.boundHarts.filter fun h => s.capped h)).map (·.1)

/-- Cycles in which a hart is ready but held by its cap count as THROTTLE (Table 17-3). -/
def countThrottle (held : List Hart) (s : State) : State :=
  held.foldl (fun t h => t.onPlaced h.csr.hartid fun x => { x with csr := x.csr.count evThrottle 1 }) s

/-- One cycle of the sequencer of the partition of the hart whose turn it is. -/
def State.issueCycle (s : State) : State := sequence (countThrottle s.heldByCap s)

/-- ELEMENT_GROUP_ISSUE (R335, R336): the partition's slot of this cycle, unless it has been used. -/
def execElementGroupIssue (s : State) : Out := if s.slotFree then .next s.issueCycle else .next s

/-- The partition's slot of this cycle, when the head of the hart's VIQ is of a kind and waits for one. -/
def issueIf (p : VInstr → Bool) (s : State) : Out :=
  match s.hart.viq with
  | e :: _ => if p e.instr then execElementGroupIssue s else .next s
  | [] => .next s

/-! ### The pin table (R271) -/

/-- The hart's oldest instruction waits for entries of the pin table. -/
def State.waitsPins (s : State) : Bool :=
  let waits (o : VOut) : Bool :=
    match o with
    | .pinWait => true
    | _ => false
  match s.hart.tiles, s.hart.viq with
  | q :: _, _ => isMast q.entry.instr && waits (runTile q.entry s)
  | [], e :: _ => !s.hart.frozen && (!s.loose || e.flying || !isVm e.instr) && waits (runEntry e s)
  | [], [] => false

/-- Harts that wait for entries of a core's pin table stand in the order in which they asked (R271), and their cycles
count as PINWAIT (Table 17-3). -/
def State.pinTurn (s : State) : State :=
  let core := s.core
  let c := s.coreSt core
  let id := s.hart.csr.hartid
  if s.waitsPins then
    (s.setCore core { c with pinQueue := if c.pinQueue.contains id then c.pinQueue else c.pinQueue ++ [id] }).count
      evPinwait 1
  else s.setCore core { c with pinQueue := c.pinQueue.filter (· != id) }

/-- The pin table of a core is in use. -/
def State.pinsBusy (s : State) (core : Nat) : Bool :=
  decide (0 < s.pinsUsed core) || !(s.coreSt core).pinQueue.isEmpty

/-! ### Queueing (R11, R28) -/

/-- The front-end queues an entry and goes on; the partition's sequencer may take it up in the same cycle, when it has
used no slot. -/
def State.enterQueue (s : State) (len : Nat) (e : Held) : State :=
  let s1 := (s.onHart (·.enqueue e)).advance len
  if s1.slotFree then sequence s1 else s1

/-- An instruction that enters the VIQ with the given operands (R11, R28). -/
def queueOps (len : Nat) (v : VInstr) (ops : List Word) (s : State) : Out :=
  if s.hart.queueFull v then .next s.stallFull
  else .next (s.enterQueue len (makeEntry s.hart v ops []))

/-- An instruction that enters the VIQ, with its scalar operands from the general registers (R11). -/
def queueV (len : Nat) (v : VInstr) (s : State) : Out :=
  if trapsVfirst v && s.hart.vsOff then .next (s.trapVfirst (heldWord v))
  else queueOps len v ((soqRegs v).map s.getG) s

end Sys2Proof.Machine
end

