-- ==== Sys2Proof/Machine/Control.lean ====
section
/-! DEFINITION. System instructions (R134 to R139), the control registers with their access rules (R29, R30, Table
01-4), the fences that the front-end executes (R256), and the register-write events. -/

namespace Sys2Proof.Machine

/-! ### Drain points (R11, R21) -/

/-- A drain point: the front-end waits while the vector unit has entries that it may issue; frozen entries count as
settled (R354). Every producer that has left the VIQ has then completed, and so has a step of the hart in the array
(R241). The cycles of the wait count as DRAINWAIT (Table 17-3). -/
def drained (s : State) (k : State → Out) : Out :=
  if s.hart.viqReady then .next (s.stallOn evDrainwait) else k (s.landOwn.onHart Hart.fillAll)

/-! ### Traps and returns -/

/-- TRAP (R134). -/
def execTrap (code : BitVec 12) (s : State) : Out := .next (s.trapP cSWTRAP (code.setWidth 64) (mkTaux false 4 0 0))

/-- ERET (R135, R356). It is no drain point (R11): a VTYPE that it leaves takes its place behind what the vector unit
still holds. -/
def execEret (s : State) : Out :=
  if !s.hart.csr.status.priv then .next (s.trapIll (encWord .eret)) else .next (s.onHart fun h => h.fillAll.leaveTrap)

/-- TRAP_ENTRY: the hart takes the asynchronous cause of its boundary, if there is one (R353, R357). -/
def execTrapEntry (s : State) : Out :=
  match asyncCause s.hart with
  | none => .next s
  | some t => .next (((s.onHart (·.clearPending t)).onHart Hart.fillAll).takeTrap t (asyncEpc s.hart))

/-! ### Waiting (R137, R138) -/

/-- WFE suspends the hart; it completes with the event that ends it, so PC stands past it (R137, R355). -/
def execWfe (s : State) : Out := .next ((s.advance 4).onHart fun h => { h with run := .wfe, since := s.time })

/-- PAUSE (R138). -/
def execPause (s : State) : Out := .next ((s.advance 4).onHart fun h => { h with run := .pause, since := s.time })

/-- WFE_WAKE: a release to the monitored line or a pending interrupt ends WFE (R137). DESIGN CHOICE (log entry 48): a
release that came between the LDA and the WFE, and an interrupt that is pending already, end it at once, and nothing but
these and the timeout ends it. -/
def execWfeWake (s : State) : Out :=
  if s.hart.run == .wfe && (s.hart.monitorHit || interruptPending s.hart) then
    .next (s.onHart fun h => { h with run := .running, monitorHit := false })
  else .next s

/-- WFE_TIMEOUT: 4,096 cycles have passed (R137). -/
def execWfeTimeout (s : State) : Out :=
  if s.hart.run == .wfe && decide (s.hart.since + 4096 ≤ s.time) then .next (s.setRun .running) else .next s

/-- PAUSE_END: 32 cycles have passed, or an interrupt is pending (R138). -/
def execPauseEnd (s : State) : Out :=
  if s.hart.run == .pause && (decide (s.hart.since + 32 ≤ s.time) || interruptPending s.hart) then
    .next (s.setRun .running)
  else .next s

/-! ### Fences of the front-end (R256) -/

/-- FENCE: a drain point. Before a full or .rel fence performs, every earlier write has performed, at whatever scope
(R289 rows 6 and 7, R307); a .acq fence waits for reads only. -/
def execFence (_scope : Scope) (kind : FenceKind) (s : State) : Out :=
  drained s fun t => .next ((if kind = .acq then t else t.flushAll).advance 4)

/-- SVFENCE: a drain point, after every earlier access (R289 row 5). -/
def execSvfence (s : State) : Out := drained s fun t => .next (t.flushAll.advance 4)

/-- IFENCE: earlier scalar stores have performed, and the model prefetches nothing. -/
def execIfence (s : State) : Out := .next (s.flushScalar.advance 4)

/-! ### Control register values (Table 01-3, Table 01-4) -/

/-- A vector-side control register (R21). -/
def isVectorSide (n : Nat) : Bool :=
  decide (n ≤ 2) || (decide (4 ≤ n) && decide (n ≤ 8)) || (decide (0x11 ≤ n) && decide (n ≤ 0x14))

/-- STATUS as a word. -/
def Status.word (st : Status) : Word :=
  let b (x : Bool) (n : Nat) : Nat := if x then 2 ^ n else 0
  BitVec.ofNat 64 (b st.cd 39 + b st.det 38 + b st.pin 37 + b st.world 36 + st.pmode.toNat * 2 ^ 8 + st.vs.toNat * 2 ^ 6 +
    b st.ppriv 4 + b st.pie 3 + b st.ie 1 + b st.priv 0)

/-- STSTAT (R25). -/
def CoreSt.ststat (c : CoreSt) : Word :=
  let one (x : Slot) : Nat := x.fmt.toNat + (if x.fmt = 0 then 0 else 16)
  BitVec.ofNat 64 (one c.slot0 + 256 * one c.slot1)

/-- A control register's value; none for a number that Table 01-4 does not assign. -/
def crRead (s : State) (n : Nat) : Option Word :=
  let h := s.hart
  let c := h.csr
  let z {w : Nat} (x : BitVec w) : Option Word := some (x.setWidth 64)
  match n with
  | 0x000 => z c.vl
  | 0x001 => z c.vtype
  | 0x002 => z c.vstart
  | 0x003 => z c.vlr
  | 0x004 => z c.thr
  | 0x005 => z c.fracctl
  | 0x006 => z c.demoted
  | 0x007 => z c.firstdem
  | 0x008 => z c.vdirty
  | 0x010 => z c.fcsr
  | 0x011 => z c.fflags
  | 0x012 => z c.iflags
  | 0x013 => z c.firstx
  | 0x014 => z c.firstxi
  | 0x020 => some c.rasp
  | 0x021 => some c.rasl
  | 0x022 => some (BitVec.ofNat 64 (c.spill.toNat * 2 ^ 16 + h.rstack.length % 32))
  | 0x030 => z c.hartid
  | 0x031 => z c.rank
  | 0x032 => z c.gangsz
  | 0x040 => some (s.coreSt s.core).ststat
  | 0x0C0 => some (s.coreSt s.core).ballastcyc
  | 0x0C8 => z c.evsel[0]
  | 0x0C9 => z c.evsel[1]
  | 0x0CA => z c.evsel[2]
  | 0x0CB => z c.evsel[3]
  | 0x0CC => some c.evcnt[0]
  | 0x0CD => some c.evcnt[1]
  | 0x0CE => some c.evcnt[2]
  | 0x0CF => some c.evcnt[3]
  | 0x100 => some c.status.word
  | 0x101 => some c.tvec
  | 0x102 => some c.epc
  | 0x103 => some c.cause
  | 0x104 => some c.tval
  | 0x105 => some c.taux
  | 0x108 => some c.qs[0]
  | 0x109 => some c.qs[1]
  | 0x10A => some c.qs[2]
  | 0x10B => some c.qs[3]
  | 0x110 => some c.striplog
  | 0x111 => some c.sampctl
  | _ => none

/-- The VL that a write of VL stores (Table 01-4). -/
def vlWritten (h : Hart) (x : Word) : BitVec 11 :=
  if vtypeLegal h.csr.vtype then BitVec.ofNat 11 (min x.toNat h.vlmax) else 0

/-- STATUS after a write: VS, PPRIV, PIE and IE. -/
def Status.written (st : Status) (x : Word) : Status :=
  { st with
    vs := if bitsOf x.toNat 6 2 = 3 then 2 else BitVec.ofNat 2 (bitsOf x.toNat 6 2)
    ppriv := x.getLsbD 4
    pie := x.getLsbD 3
    ie := x.getLsbD 1 }

/-- STRIPLOG after a write: a SIZE above 8 stores 8. -/
def striplogWritten (x : Word) : Word :=
  if bitsOf x.toNat 4 4 ≤ 8 then x &&& 0xFFFFFFFFFFFFF0F1 else (x &&& 0xFFFFFFFFFFFFF001) ||| 0x80

/-- EVSELn after a write: an unassigned code reads back 0 (Table 17-3). -/
def evselWritten (x : Word) : BitVec 16 := if bitsOf x.toNat 0 16 ≤ 0x16 then x.setWidth 16 else 0

/-- A write of VL (Table 01-4), which the front-end has granted (R245): the strip closes, and a new one opens in U
(R379). -/
def State.writeVl (s : State) (x : Word) : State :=
  (s.onHart fun h => { h with grantedVl := vlWritten h x, csr := { h.csr with vl := vlWritten h x } }).stripTurn s.hart.pc
    (!s.hart.csr.status.priv)

/-- A write of VTYPE; in S it also writes the trap copy (R51). -/
def State.writeVtype (s : State) (x : Word) : State :=
  let t := x.setWidth 9
  s.onHart fun h => { h with
    trapVtype := if h.csr.status.priv then t else h.trapVtype
    csr := { h.csr with vtype := t } }

/-- A write of SAMPCTL; enabling draws the first gap (R376). -/
def State.writeSampctl (s : State) (x : Word) : State :=
  let s1 := s.onCsr fun c => { c with sampctl := x &&& 0xFFFFFFFFFF0F1 }
  if x.getLsbD 0 && !s.hart.csr.sampEn then
    let (gap, s2) := s1.drawGap
    s2.onHart fun h => { h with tagGap := gap }
  else s1

/-- A write of QSn (R23). -/
def State.writeQs (s : State) (n : Fin 4) (x : Word) : State := s.onHart (·.setQs n (x &&& 0xBFFFFFFFFFFFFFFF))

/-- A write of a control register other than RASD under its access codes; read-only registers ignore it (R29, Table
01-4). -/
def crWrite (s : State) (n : Nat) (x : Word) : State :=
  match n with
  | 0x000 => s.writeVl x
  | 0x001 => s.writeVtype x
  | 0x002 => s.onCsr fun c => { c with vstart := BitVec.ofNat 11 (min x.toNat 1024) }
  | 0x004 => s.onCsr fun c => { c with thr := BitVec.ofNat 16 (min x.toNat 32767) }
  | 0x005 => s.onCsr fun c => { c with fracctl := x.setWidth 1 }
  | 0x006 => s.onCsr fun c => { c with demoted := x.setWidth 32 }
  | 0x007 => s.onCsr fun c => { c with firstdem := x.setWidth 12 }
  | 0x008 => s.onCsr fun c => { c with vdirty := x.setWidth 32 }
  | 0x010 => s.onCsr fun c => if x.toNat % 8 ≤ 4 then { c with fcsr := x.setWidth 3 } else c
  | 0x011 => s.onCsr fun c => { c with fflags := x.setWidth 7 }
  | 0x012 => s.onCsr fun c => { c with iflags := x.setWidth 3 }
  | 0x013 => s.onCsr fun c => { c with firstx := x.setWidth 60 }
  | 0x014 => s.onCsr fun c => { c with firstxi := x.setWidth 48 }
  | 0x020 => s.onCsr fun c => { c with rasp := x &&& 0xFFFFFFFFFFFF8 }
  | 0x021 => s.onCsr fun c => { c with rasl := x &&& 0xFFFFFFFFFFFF8 }
  | 0x0C8 => s.onCsr fun c => { c with evsel := c.evsel.set 0 (evselWritten x) }
  | 0x0C9 => s.onCsr fun c => { c with evsel := c.evsel.set 1 (evselWritten x) }
  | 0x0CA => s.onCsr fun c => { c with evsel := c.evsel.set 2 (evselWritten x) }
  | 0x0CB => s.onCsr fun c => { c with evsel := c.evsel.set 3 (evselWritten x) }
  | 0x0CC => s.onCsr fun c => { c with evcnt := c.evcnt.set 0 x }
  | 0x0CD => s.onCsr fun c => { c with evcnt := c.evcnt.set 1 x }
  | 0x0CE => s.onCsr fun c => { c with evcnt := c.evcnt.set 2 x }
  | 0x0CF => s.onCsr fun c => { c with evcnt := c.evcnt.set 3 x }
  | 0x100 => s.onStatus (·.written x)
  | 0x101 => s.onCsr fun c => { c with tvec := tvecOf x }
  | 0x102 => s.onCsr fun c => { c with epc := x &&& 0xFFFFFFFFFFFFE }
  | 0x103 => s.onCsr fun c => { c with cause := x &&& 0x80000000000001FF }
  | 0x104 => s.onCsr fun c => { c with tval := x }
  | 0x105 => s.onCsr fun c => { c with taux := x &&& 0x8000FFFF0007FFFF }
  | 0x108 => s.writeQs 0 x
  | 0x109 => s.writeQs 1 x
  | 0x10A => s.writeQs 2 x
  | 0x10B => s.writeQs 3 x
  | 0x110 => s.onCsr fun c => { c with striplog := striplogWritten x }
  | 0x111 => s.writeSampctl x
  | _ => s

/-- A write of RASD (R16): SPILL first, and with FLUSH = 1 every hardware entry is spilled. -/
def writeRasd (s : State) (x : Word) (flush : Bool) : Flush :=
  let s1 := s.onCsr fun c => { c with spill := BitVec.ofNat 32 (bitsOf x.toNat 16 32) }
  if flush && x.getLsbD 8 then flushStack 17 s1 else .done s1

/-! ### CRD, CWR, CRS, CRC (R136) -/

/-- A flush whose spills meet a memory fault leaves none of them done, and the A and D bits of the pages that it has
reached set (R16, R113, R269, log entry 40). -/
def State.flushTouched (s : State) : State :=
  match access s s.hart.agent .scalar .store s.hart.csr.rasp (8 * s.hart.rstack.length) with
  | .fault _ u => u
  | _ => s

/-- The register write of a control register instruction, then `k`; a flush may trap with the spills it has made, a
fault leaves nothing done (R16, R113). -/
def crUpdate (s : State) (n : Nat) (x : Word) (flush : Bool) (k : State → Out) : Out :=
  if n = 0x022 then
    match writeRasd s x flush with
    | .done t => k t
    | .limit t => .next (t.trapP cSTACKLIM t.hart.csr.rasp 0)
    | .fault _ f => .next (s.flushTouched.trapMem f)
    | .wait _ => .next s.stall
  else k (crWrite s n x)

/-- The checks that a control register instruction makes first (R29, R28, R21), then `k` with the old value. -/
def crAccess (enc : Word) (cr : BitVec 12) (s : State) (k : State → Word → Out) : Out :=
  let n := cr.toNat
  match crRead s n with
  | none => .next (s.trapIll enc)
  | some old =>
    if 0x100 ≤ n && !s.hart.csr.status.priv then .next (s.trapIll enc)
    else if isVectorSide n then
      if s.hart.vsOff then .next (s.trapVfirst enc)
      else drained s fun t => k t ((crRead t n).getD old)
    else k s old

/-- A control register instruction that writes `f old`; `flush` says that RASD.FLUSH acts. -/
def crModify (enc : Word) (o : CrOp) (f : Word → Word → Word) (flush : Bool) (s : State) : Out :=
  crAccess enc o.cr s fun t old =>
    crUpdate t o.cr.toNat (f old (t.getG o.a)) flush fun u => writeNext 4 o.d old u

/-- CRD (R136). -/
def execCrd (o : CrdOp) (s : State) : Out := crAccess (encWord (.crd o)) o.cr s fun t old => writeNext 4 o.d old t
/-- CWR (R136). -/
def execCwr (o : CrOp) (s : State) : Out := crModify (encWord (.cwr o)) o (fun _ x => x) true s
/-- CRS (R136). -/
def execCrs (o : CrOp) (s : State) : Out := crModify (encWord (.crs o)) o (fun old x => old ||| x) true s
/-- CRC (R136). -/
def execCrc (o : CrOp) (s : State) : Out := crModify (encWord (.crc o)) o (fun old x => old &&& ~~~x) false s

/-! ### Register-write events (R7, R16, R23, R51, R343, R379) -/

/-- RASD_FLUSH: a write of RASD with FLUSH = 1 (R16). -/
def execRasdFlush (x : Word) (s : State) : Out := crUpdate s 0x022 (x ||| 0x100) true .next

/-- QS_REBIND (R23). -/
def execQsRebind (n : Fin 4) (x : Word) (s : State) : Out := .next (s.writeQs n x)

/-- VL_WRITE (R379). -/
def execVlWrite (x : Word) (s : State) : Out := drained s fun t => .next (t.writeVl x)

/-- VTYPE_WRITE (R51). -/
def execVtypeWrite (x : Word) (s : State) : Out := drained s fun t => .next (t.writeVtype x)

/-- GMBLIM_WRITE (R343). -/
def execGmblimWrite (x : Word) (s : State) : Out := .next (s.writeGmblim x)

end Sys2Proof.Machine
end

