-- ==== Sys2Proof/Machine/Late.lean ====
section
/-! DEFINITION. Plain scalar loads that the front-end passes before they perform (R289, R295), and the instructions that
it may execute while they are on their way: those that no row of Table 13-2 orders after them. -/

namespace Sys2Proof.Machine

/-- A plain scalar load: its destination, its address, its bytes, whether it extends the sign, and its length (R119). -/
structure PlainLoad where
  d : Reg
  va : Word
  bytes : Nat
  signed : Bool
  len : Nat

/-- The plain scalar load that an instruction is. -/
def plainLoad (s : State) (i : Instr) : Option PlainLoad :=
  let at_ (o : MOp) (n : Nat) (signed : Bool) : Option PlainLoad :=
    some { d := o.d, va := s.ea o.a o.off, bytes := n, signed := signed, len := 4 }
  match i with
  | .lb o => at_ o 1 true
  | .lh o => at_ o 2 true
  | .lw o => at_ o 4 true
  | .ld o => at_ o 8 false
  | .lbu o => at_ o 1 false
  | .lhu o => at_ o 2 false
  | .lwu o => at_ o 4 false
  | .cLd o => some { d := o.d, va := s.getG 1 + scaledOff o, bytes := 8, signed := false, len := 2 }
  | _ => none

/-- The scalar store or atomic without release order that an instruction is: its address and its bytes. -/
def plainAccess (s : State) (i : Instr) : Option (Word × Nat) :=
  let at_ (o : MOp) (n : Nat) : Option (Word × Nat) := some (s.ea o.a o.off, n)
  let amo_ (o : AmoOp) : Option (Word × Nat) := if isRelease o.ord then none else some (s.getG o.a, amoBytes o)
  match i with
  | .sb o => at_ o 1
  | .sh o => at_ o 2
  | .sw o => at_ o 4
  | .sd o => at_ o 8
  | .amoadd o | .amoand o | .amoor o | .amoxor o | .amomin o | .amomax o | .amominu o | .amomaxu o | .amoswap o
  | .amocas o | .lda o | .str o => amo_ o
  | _ => (plainLoad s i).map fun p => (p.va, p.bytes)

/-- The general registers that a scalar instruction's word names (Table 03-1); none for an instruction that waits for
every earlier load: one of another major opcode than the arithmetic ones, the accesses and the compare branches. -/
def scalarRegs (w : Nat) : Option (List Nat) :=
  let f (lo : Nat) : Nat := bitsOf w lo 5
  match bitsOf w 1 6 with
  | 1 | 10 | 11 => some [f 7, f 12, f 17, f 27]
  | 2 | 5 | 6 => some [f 7, f 12]
  | 3 | 4 => some [f 7]
  | 7 => if bitsOf w 17 3 = 6 then none else some [f 7, f 12]
  | _ => none

/-- The general registers that an instruction of the VIQ names; none for one that waits for every earlier load. -/
def queuedRegs (v : VInstr) : Option (List Nat) :=
  match v with
  | .efence _ | .enq _ | .tlbinv _ | .restvq _ | .v .vmvxv _ => none
  | .setvli o => some [o.d.val, o.a.val]
  | .setvl o => some [o.d.val, o.a.val, o.b.val]
  | v => some ((soqRegs v).map Fin.val)

/-- An access reaches memory alone, and shares no location with some. -/
def apartFrom (s : State) (va : Word) (n : Nat) (locs : List Nat) : Bool :=
  match access s s.hart.agent (if n = 8 then .plain8 else .scalar) .load va n with
  | .ok (_, ts) => ts.all fun t => t.loc?.any fun l => !locs.contains l
  | _ => false

/-- An instruction may execute before a load that the hart has passed performs: it is no fence, release, drain point or
wait, it does not name the load's destination, and it accesses none of its locations (R289 rows 1, 5, 6, 10, 11 and
12). -/
def passesLate (s : State) (i : Instr) (l : LateLoad) : Bool :=
  let free (rs : List Nat) : Bool := l.d == 0 || !rs.contains l.d.val
  match i.toV with
  | some v => (queuedRegs v).any free
  | none =>
    match (encode i).bind scalarRegs with
    | none => false
    | some rs => free rs && (match plainAccess s i with
        | some (va, n) => apartFrom s va n l.locs
        | none => bitsOf ((encode i).getD 0) 1 6 < 5 || bitsOf ((encode i).getD 0) 1 6 == 7 || bitsOf ((encode i).getD 0) 1 6 == 10)

/-- A load that the hart has passed reads what it has still to read, a misaligned one its next byte (R118), after the
hart's waiting stores of the same locations (R289 row 1); with the last byte its destination is written. It waits for an
engine that owns its line (R311). DESIGN CHOICE (log entry 5): one that meets an uncorrectable error raises its machine
check at the hart's next boundary. -/
def State.arriveTurn (s : State) (k : Nat) : State :=
  match s.hart.late[k]? with
  | none => s
  | some l =>
    let bytewise := !l.got.isEmpty || (l.locs.head?.getD 0) % max 1 l.len != 0
    let now := if bytewise then l.locs.take 1 else l.locs
    if now.any (s.ownedLoc none) then s
    else
      let s1 := s.after none (now.map .mem)
      let s2 := if now.any s1.badLoc then s1.pendCheck s.hart.csr.hartid s.hart.region s.hart.domain 1 0 else s1
      let m := { l with locs := l.locs.drop now.length, got := l.got ++ now.map (readByte s1.mem) }
      if m.locs.isEmpty then
        let x := leNat m.got
        (s2.onHart fun h => { h with late := h.late.eraseIdx k }).setG l.d
          (if l.signed then signExt64 (8 * l.len) x else BitVec.ofNat 64 x)
      else s2.onHart fun h => { h with late := h.late.set k m }

/-- Every load that the hart has passed performs, but for those that wait for an engine and those behind them. -/
def State.landLates (s : State) : State :=
  (List.range (8 * s.hart.late.length)).foldl (fun t _ => t.arriveTurn 0) s

/-- The state in which the front-end executes an instruction: the loads that it may not pass have performed; none while
one waits for an engine. -/
def State.lateGate (s : State) (i : Instr) : Option State :=
  if s.hart.late.all (passesLate s i) then some s
  else
    let t := s.landLates
    if t.hart.late.isEmpty then some t else none

/-- The front-end passes a plain scalar load, which has translated and meets no fault, no watch bit and no link,
before it performs (R295). -/
def passLoad (s : State) (i : Instr) : Option State :=
  match if s.loose then plainLoad s i else none with
  | none => none
  | some p =>
    match access s s.hart.agent (if p.bytes = 8 then .plain8 else .scalar) .load p.va p.bytes with
    | .ok (t, ts) =>
      let locs := ts.filterMap Target.loc?
      if decide (locs.length = ts.length) && locs.all (· < 2 ^ 60) && !ts.any t.badTarget &&
          !watchCounts s (ts.any t.watchedTarget) then
        some ((t.onHart fun h => { h with late := h.late ++
          [{ d := p.d, len := p.bytes, signed := p.signed, locs := locs, got := [] }] }).advance p.len)
      else none
    | _ => none

/-- A meaning that the front-end executes: `exec` of the instruction, after the loads that it may not pass, or, in a
turn that says so, a load that it passes. -/
def frontExec (late : Bool) (i : Instr) (run : State → Out) (s : State) : Out :=
  match s.lateGate i with
  | none => .next s.stall
  | some t => match if late then passLoad t i else none with
    | some u => .next u
    | none => run t

end Sys2Proof.Machine
end

