-- ==== Sys2Proof/Machine/Bus.lean ====
section
/-! DEFINITION. What reaches the module from outside: the host registers and BARs (R384 to R387), peers and their
links (R264, R306, R390), and the register writes that have no row of their own (R7). -/

namespace Sys2Proof.Machine

/-! ### The semaphore (R386) -/

/-- SEM as a word. -/
def HostSt.semWord (h : HostSt) : Word :=
  BitVec.ofNat 64 ((if h.semHeld then 2 ^ 63 else 0) + (if h.semHeld && h.semOwner then 1 else 0))

/-- What a port receives. -/
def State.respond (s : State) (r : BusResp) : State := s.onHost fun h => { h with hostResp := r }

/-- A read of SEM claims a free semaphore and returns it (R386). After the cutoff the ports are down (R400). -/
def semRead (p : Fin 2) (s : State) : Out :=
  let s1 := if s.host.semHeld then s else s.onHost fun h => { h with semHeld := true, semOwner := p == 1 }
  if s.cutOff then .next s else .next (s1.respond (.data (leBytes 8 s1.host.semWord.toNat)))

/-- The owner's release. -/
def State.releaseSem (s : State) (p : Fin 2) : State :=
  if s.host.holds p then s.onHost fun h => { h with semHeld := false, semOwner := false } else s

/-- PORT_LINK_DOWN (R386). -/
def execPortLinkDown (p : Fin 2) (s : State) : Out := .next (s.releaseSem p)

/-- A link by its number. -/
def State.link (s : State) (l : Fin 24) : Link := s.links[l.val]'l.isLt

/-- A link changed. -/
def State.onLink (s : State) (l : Fin 24) (f : Link → Link) : State := { s with links := s.links.set l.val (f (s.link l)) l.isLt }

/-! ### Links that go down (R307, R390) -/

/-- A write on its way over a link is lost with it. -/
def Pend.lostWith (l : Fin 24) (p : Pend) : Bool := p.link == some l.val

/-- The writes of a hart that were on their way over a link are lost whole (R307). -/
def Hart.loseWrites (l : Fin 24) (h : Hart) : Hart := { h with pend := h.pend.filter fun p => !p.lostWith l }

/-- A hart's read-modify-write is on its way over a link. -/
def Hart.tripOver (h : Hart) (l : Fin 24) : Bool :=
  match h.run with
  | .peer k _ _ => k == l.val
  | _ => false

/-- Every write of the harts that a link carried is lost, and each raises a machine check at the hart of its region
(R307). -/
def State.loseWrites (s : State) (l : Fin 24) : State :=
  let lost := (s.hart :: s.others).flatMap fun h => (h.pend.filter (·.lostWith l)).map fun _ => h
  let s1 := { s with hart := s.hart.loseWrites l, others := s.others.map (·.loseWrites l) }
  lost.foldl (fun t h => t.pendCheck h.csr.hartid h.region h.domain 3 0) s1

/-- The hart whose turn it is takes the machine check of its read-modify-write whose outcome a link has lost (R307). -/
def State.loseTrip (s : State) : State :=
  (s.mchkMessage { cause := .mchk, addr := 0 }).trapP cMCHK 0 (mkTaux false 3 0 0)

/-- What a link that goes down takes with it (R307): writes on their way, and the outcomes of read-modify-writes. -/
def State.cutLink (s : State) (l : Fin 24) : State :=
  let trips := ((s.hart :: s.others).filter (·.tripOver l)).map (·.csr.hartid)
  trips.foldl (fun t id => t.visit id State.loseTrip) (s.loseWrites l)

/-- A link goes down (R390): UP, SECURE and PEERID fall, and RETRY is kept. -/
def State.linkFails (s : State) (l : Fin 24) : State :=
  (s.cutLink l).onLink l fun k => { k with up := false, secure := false, fails := 0 }

/-! ### Register writes (R7, R384 to R386) -/

/-- A requester can reach MBREQ: after the cutoff the ports are down (R400). -/
def State.reachable (s : State) : Requester → Bool
  | .port _ => !s.cutOff
  | _ => true

/-- A request arrives at MBREQ (R388). -/
def submitFrom (src : Requester) (addr : Word) (s : State) : Out :=
  if s.reachable src then .next (s.submit src addr) else .next s

/-- A write of a host control register from a port (Table 18-2); SEM is released by its owner (R386). -/
def hostWrite (p : Fin 2) (off : Nat) (x : Word) (s : State) : Out :=
  if s.cutOff then .next s
  else match off with
  | 0x000 => if x.getLsbD 63 then .next s else .next (s.releaseSem p)
  | 0x010 => if s.host.holds p then .next (s.onHost fun h => { h with pushlen := x.setWidth 25 }) else .next s
  | 0x018 => pushgo p x s
  | 0x040 => submitFrom (.port p) x s
  | _ => .next s

/-- The port that made an outside access, when a port made it. -/
def Recall.port : Recall → Option (Fin 2)
  | .host p _ => some p
  | .peer _ _ => none

/-- The link that an outside access came over. -/
def Recall.over : Recall → Option (Fin 24)
  | .host _ _ => none
  | .peer l _ => some l

/-- Two outside accesses came from one source. -/
def Recall.sameSource (a b : Recall) : Bool := a.port == b.port && a.over == b.over

/-- An outside access waits for the engine that owns its line. -/
def State.recall (s : State) (r : Recall) : State := { s with recalled := s.recalled ++ [r] }

/-- An access of BAR0 stands behind those of its port that wait (R387), and is done at once when there is none. After
the cutoff both ports are down (R400). -/
def behindPort (p : Fin 2) (acc : BusAccess) (k : State → Out) (s : State) : Out :=
  if s.cutOff then .next s
  else if s.recalled.any (Recall.host p acc).sameSource then .next (s.recall (.host p acc)) else k s

/-- An 8-byte write of BAR0 (R385); bit 47 of the address selects BAR0. -/
def bar0Store (off : Nat) (x : Word) : BusAccess := .write (BitVec.ofNat 48 (2 ^ 47 + off)) (leBytes 8 x.toNat) false

/-- SEM_READ (R386). -/
def execSemRead (p : Fin 2) (s : State) : Out := behindPort p (.read (BitVec.ofNat 48 (2 ^ 47)) 8) (semRead p) s

/-- SEM_RELEASE (R386): the owner writes SEM with HELD = 0. -/
def execSemRelease (p : Fin 2) (s : State) : Out := behindPort p (bar0Store 0 0) (hostWrite p 0 0) s

/-- PUSHGO (R393). -/
def execPushgo (p : Fin 2) (x : Word) (s : State) : Out := behindPort p (bar0Store 0x18 x) (pushgo p x) s

/-- What a hart's write of MBREQ releases has performed: its earlier scalar accesses (R289 row 10, R388). -/
def State.releaseScalar (s : State) : State := s.landLates.flushScalar

/-- MBREQ (R388). A hart's write is a release of its earlier accesses. -/
def execMbreq (src : Requester) (addr : Word) (s : State) : Out :=
  match src with
  | .port p => behindPort p (bar0Store 0x40 addr) (submitFrom src addr) s
  | .management => submitFrom src addr s
  | .hart id _ => submitFrom src addr (if (s.placed? id).isSome then s.visit id State.releaseScalar else s)

/-- A write of LINK l by the management cluster (Table 18-2, R390): SECURE and PEERID stand only with UP, and a write
that takes UP away takes with it what the link carried (R307). -/
def State.writeLink (s : State) (l : Fin 24) (x : Word) : State :=
  let up := x.getLsbD 63
  let s1 := if (s.link l).up && !up then s.cutLink l else s
  s1.onLink l fun k => { k with
    up := up
    secure := up && x.getLsbD 62
    retry := BitVec.ofNat 16 (bitsOf x.toNat 16 16)
    peerid := x.setWidth 16
    fails := if k.up == up then k.fails else 0 }

/-- A write of GMBPWR by the management cluster: PWR, and RSV, the rise reserved in the present slot (Table 15-5). -/
def State.writeGmbpwr (s : State) (x : Word) : State :=
  { s with helm := { s.helm with
      power := x.setWidth 16
      rise := mapSet 0 s.helm.rise s.slotNow (8 * bitsOf x.toNat 16 16) } }

/-- The management cluster's own path to the registers of the control window, every one of which it writes (R384, R395,
R396). DESIGN CHOICE (log entry 3): MBSTAT.PEND, which counts the pending requests, is not written. -/
def managementWrite (off : Nat) (x : Word) (s : State) : State :=
  if off = 0x10 then s.writeGmbpwr x
  else if off = 0x18 then { s with helm := { s.helm with rampdefer := x } }
  else if off = 0x20 then { s with helm := { s.helm with rampvcnt := x } }
  else if off = 0x40 then s.submit .management x
  else if off = 0x48 then s.onHost fun h => { h with drop := BitVec.ofNat 16 (bitsOf x.toNat 16 16) }
  else if off = 0x80 then s.onHost fun h => { h with domtab := x &&& 0xFFFFFFFFF000 }
  else if 0x1000 ≤ off ∧ off < 0x2000 ∧ off % 8 = 0 then
    let i := (off - 0x1000) / 16
    let r := mapGet (0, 0) s.wrg i
    let new := if off % 16 = 0 then (x &&& 0xFFFFFFFF0003, r.2) else (r.1, x &&& 0xFFFFFFFF0000)
    { s with wrg := mapSet (0, 0) s.wrg i new }
  else if h : 0x2000 ≤ off ∧ off < 0x2000 + 8 * 24 ∧ off % 8 = 0 then s.writeLink ⟨(off - 0x2000) / 8, by omega⟩ x
  else controlWrite s off x

/-- REGISTER_WRITE (R7): a write to a register stores the value under its access code. A write of RASD with FLUSH = 1
flushes (R16); a register of the engine and control window takes the write of a hart in S alone (R384). -/
def execRegisterWrite (r : RegName) (x : Word) (s : State) : Out :=
  match r with
  | .cr n => crUpdate s n.toNat x true .next
  | .window off =>
    if !isControlReg off.toNat || s.hart.run == .vacant || !s.hart.csr.status.priv then .next s
    else if off = 0x40 then execMbreq (.hart s.hart.csr.hartid s.hart.csr.status.world) x s
    else .next (controlWrite s off.toNat x)
  | .host p off => behindPort p (bar0Store off.toNat x) (hostWrite p off.toNat x) s
  | .management off => .next (managementWrite off.toNat x s)

/-! ### Accesses of the host and of peers (R385, R387, R306, R396) -/

/-- The 8-byte registers of BAR0 as a read finds them; SEM is claimed by SEM_READ. -/
def bar0Word (s : State) (off : Nat) : Word :=
  match off with
  | 0x000 => s.host.semWord
  | 0x008 => BitVec.ofNat 64 (s.host.bootState.toNat + 256 * s.host.bootReason.toNat)
  | 0x010 => s.host.pushlen.setWidth 64
  | 0x048 => controlRead s 0x48
  | _ => 0

/-- Byte of BAR0 outside the staging buffer. -/
def bar0Byte (s : State) (off : Nat) : Byte :=
  if off < 0x50 then ((leBytes 8 (bar0Word s (off / 8 * 8)).toNat)[off % 8]?).getD 0 else 0

/-- The offsets of the staging buffer in BAR0 (R385). -/
def inStaging (off : Nat) : Bool := decide (0x1000000 ≤ off) && decide (off < 0x2000000)

/-- A package slice that a staging access reaches is secure, so that the access is refused. -/
def stagingSecure (s : State) (off n : Nat) : Bool :=
  (List.range n).any fun i => inStaging (off + i) && s.pkgSecure.getLsbD ((off + i - 0x1000000) / 4096 % 4)

/-- The part of the staging buffer that an access from an offset reaches, by location (R385). -/
def stagingTargets (off n : Nat) : List Target :=
  ((List.range n).filter fun i => inStaging (off + i)).map fun i => .mem (packageLoc (off + i - 0x1000000))

/-- The state after an outside access and what the requester receives, or none while the access waits for a line that an
engine owns (R311). -/
abbrev BusOut := Option (State × BusResp)

/-- A host access of BAR0; its offset is the address without bit 47. -/
def bar0Access (p : Fin 2) (acc : BusAccess) (s : State) : Option Out :=
  match acc with
  | .read addr n =>
    let off := addr.toNat % 2 ^ 26
    if stagingSecure s off n then some (.next (s.respond .abort))
    else if (stagingTargets off n).any (s.ownedTarget none) then none
    else if (stagingTargets off n).any s.badTarget then some (.next (s.respond .abort))
    else if off = 0 then some (semRead p s)
    else
      let byte (o : Nat) : Byte := if inStaging o then readByte s.mem (packageLoc (o - 0x1000000)) else bar0Byte s o
      some (.next (s.respond (.data ((List.range n).map fun i => byte (off + i)))))
  | .write addr bs _ =>
    let off := addr.toNat % 2 ^ 26
    if stagingSecure s off bs.length then some (.next (s.respond .abort))
    else if (stagingTargets off bs.length).any (s.ownedTarget none) then none
    else if inStaging off && decide (off + bs.length ≤ 0x2000000) then
      some (.next ({ s with mem := writeBytes s.mem (packageLoc (off - 0x1000000)) bs }.respond .done))
    else if bs.length = 8 then some (hostWrite p off (BitVec.ofNat 64 (leNat bs)) (s.respond .done))
    else some (.next (s.respond .done))
  | .rmw _ _ _ _ _ _ => some (.next (s.respond .abort))

/-- An outside access of LPDDR6 is refused: a frame of the secure world for a non-secure agent (R396), or a withheld
address (R399). -/
def outsideRefused (s : State) (secure : Bool) (pa n : Nat) : Bool :=
  (List.range n).any fun i => (physCheck s secure (pa + i)).isSome

/-- Locations of a range as targets. -/
def targetsOf (pa n : Nat) : List Target := (List.range n).map fun i => .mem (pa + i)

/-- The new value of a peer's read-modify-write of `w` bits (R128, R129), none when nothing is written. -/
def busNew (op : BusRmw) (w old x cmp : Nat) : Option Nat :=
  let a := BitVec.ofNat w old
  let b := BitVec.ofNat w x
  match op with
  | .add => some (a + b).toNat
  | .and => some (a &&& b).toNat
  | .or => some (a ||| b).toNat
  | .xor => some (a ^^^ b).toNat
  | .min => some (if a.slt b then a else b).toNat
  | .max => some (if a.slt b then b else a).toNat
  | .minu => some (if a.ult b then a else b).toNat
  | .maxu => some (if a.ult b then b else a).toNat
  | .swap => some b.toNat
  | .cas => if a = BitVec.ofNat w cmp then some b.toNat else none

/-- A peer's or a host's write at its home, which wakes the monitors of its line when it is a release (R137, R306). -/
def State.homeWrite (s : State) (pa : Nat) (bs : List Byte) (rel : Bool) : State :=
  let t := s.controllerWrite pa bs
  if rel then t.releaseAt pa else t

/-- What an outside access of LPDDR6 does: the response with the state after it, or none while an engine owns one of
its lines (R311). A read-modify-write performs at this home as one step (R306). -/
def outsideAccess (s : State) (secure : Bool) (acc : BusAccess) : BusOut :=
  match acc with
  | .read addr n =>
    let pa := addr.toNat
    let ts := targetsOf pa n
    if outsideRefused s secure pa n then some (s, .abort)
    else if ts.any (s.ownedTarget none) then none
    else if ts.any s.badTarget then some (s, .abort)
    else some (s, .data (readBytes s.mem pa n))
  | .write addr bs rel =>
    let pa := addr.toNat
    if outsideRefused s secure pa bs.length then some (s, .abort)
    else if (targetsOf pa bs.length).any (s.ownedTarget none) then none
    else some (s.homeWrite pa bs rel, .done)
  | .rmw op w32 rel addr x cmp =>
    let pa := addr.toNat
    let n := if w32 then 4 else 8
    let ts := targetsOf pa n
    if pa % n ≠ 0 || outsideRefused s secure pa n then some (s, .abort)
    else if ts.any (s.ownedTarget none) then none
    else if ts.any s.badTarget then some (s, .abort)
    else
      let old := readBytes s.mem pa n
      match busNew op (8 * n) (leNat old) x.toNat cmp.toNat with
      | some y => some (s.homeWrite pa (leBytes n y) rel, .data old)
      | none => some (s, .data old)

/-- A host access of BAR2 (R385, R387): all ones until boot has finished and above the module's LPDDR6. -/
def bar2Access (acc : BusAccess) (s : State) : Option Out :=
  let answer (r : BusOut) : Option Out := r.map fun x => .next (x.1.respond x.2)
  match acc with
  | .rmw _ _ _ _ _ _ => some (.next (s.respond .abort))
  | .read addr n =>
    if s.host.bootState ≠ 3 ∨ lpddrEnd ≤ addr.toNat then some (.next (s.respond (.data (List.replicate n 0xFF))))
    else answer (outsideAccess s false acc)
  | .write addr _ _ =>
    if s.host.bootState ≠ 3 ∨ lpddrEnd ≤ addr.toNat then some (.next (s.respond .done))
    else answer (outsideAccess s false acc)

/-- The address of an outside access. -/
def busAddr : BusAccess → BitVec 48
  | .read a _ => a
  | .write a _ _ => a
  | .rmw _ _ _ a _ _ => a

/-- What a host access does: bit 47 of the address selects BAR0, whose offset follows; otherwise it is a BAR2 offset.
None while it waits. -/
def hostAccess (p : Fin 2) (acc : BusAccess) (s : State) : Option Out :=
  if (busAddr acc).getLsbD 47 then bar0Access p acc s else bar2Access acc s

/-- What a peer's access does at this module's home, in the world of its link (R306, R396). -/
def peerAccess (l : Fin 24) (acc : BusAccess) (s : State) : Option Out :=
  let answer (t : State) (r : BusResp) : Out := .next (t.onHost fun h => { h with peerResp := r })
  if lpddrEnd ≤ (busAddr acc).toNat then some (answer s .abort)
  else (outsideAccess s (s.link l).secure acc).map fun x => answer x.1 x.2

/-- An outside access, none while it waits. -/
def Recall.perform (r : Recall) (s : State) : Option Out :=
  match r with
  | .host p acc => hostAccess p acc s
  | .peer l acc => peerAccess l acc s

/-- An outside access arrives: it waits behind an earlier one of its source that waits for an engine-owned line, or for
such a line itself (R311, R387). -/
def State.arrives (s : State) (r : Recall) : Out :=
  if s.recalled.any r.sameSource then .next (s.recall r)
  else match r.perform s with
    | some o => o
    | none => .next (s.recall r)

/-- HOST_ACCESS (R385, R387). After the cutoff both ports are down (R400). -/
def execHostAccess (p : Fin 2) (acc : BusAccess) (s : State) : Out :=
  if s.cutOff then .next s else s.arrives (.host p acc)

/-- PEER_ACCESS (R306, R396): a peer's access performs at this module's home in the world of its link. -/
def execPeerAccess (l : Fin 24) (acc : BusAccess) (s : State) : Out :=
  if !(s.link l).up then .next s else s.arrives (.peer l acc)

/-- A peer's own agent writes a byte of that peer's memory (R306). A write to a line that an engine owns waits: it
performs in a later turn (R311). -/
def State.peerWrite (s : State) (peer : BitVec 16) (off : Nat) (b : Byte) : State :=
  let loc := peerLoc peer.toNat off
  if off < lpddrEnd ∧ s.ownedLoc none loc = false then { s with mem := writeByte s.mem loc b } else s

/-- An engine of a peer takes ownership of locations of this module's LPDDR6 (R311), none of which another engine
owns. -/
def State.peerOwn (s : State) (lo len : Nat) : State :=
  if 0 < len ∧ lo + len ≤ lpddrEnd ∧ (List.range ((len + lo % 64 + 63) / 64)).all fun i => !s.ownedLoc none (lo / 64 * 64 + 64 * i) then
    { s with owned := s.owned ++ [{ lo := lo, len := len, engine := none }] }
  else s

/-- An owned range without its first line; none when that was the last. -/
def Owned.rest (o : Owned) : Option Owned :=
  let lo := (o.lo / 64 + 1) * 64
  if o.lo + o.len ≤ lo then none else some { o with lo := lo, len := o.lo + o.len - lo }

/-- A peer's engine writes its bytes of the first line of the range that it owns at a location, in one step, and gives
the line up (R311). -/
def State.peerLine (s : State) (lo : Nat) (bs : List Byte) : State :=
  match s.owned.find? fun o => o.engine.isNone && o.lo == lo with
  | none => s
  | some o =>
    let n := min o.len (64 - lo % 64)
    { s.controllerWrite lo (bs.take n) with
      owned := s.owned.flatMap fun p => if p = o then o.rest.toList else [p] }

/-- The commands of peers' engines have ended: what they still owned is given up unwritten (R311). -/
def State.peerYield (s : State) : State := { s with owned := s.owned.filter (·.engine.isSome) }

/-! ### Links (R390) -/

/-- FLIT_RETRY (R390): the send of a flit has failed; RETRY rises, saturating. -/
def execFlitRetry (l : Fin 24) (s : State) : Out :=
  if !(s.link l).up then .next s
  else .next (s.onLink l fun k => { k with retry := if k.retry = 0xFFFF then k.retry else k.retry + 1, fails := k.fails + 1 })

/-- A flit has passed its check, so that the failed sends of the next one count from zero (R390); a link with 16 of them
is about to go down. -/
def State.flitSent (s : State) (l : Fin 24) : State := s.onLink l fun k => if 16 ≤ k.fails then k else { k with fails := 0 }

/-- LINK_DOWN (R307, R390): after 16 consecutive failed sends of one flit. -/
def execLinkDown (l : Fin 24) (s : State) : Out :=
  if (s.link l).up ∧ 16 ≤ (s.link l).fails then .next (s.linkFails l) else .next s

/-- The links whose current flit has failed 16 times go down (R390). -/
def State.dropLinks (s : State) : State :=
  ((List.finRange 24).filter fun l => (s.link l).up && decide (16 ≤ (s.link l).fails)).foldl (fun t l => t.linkFails l) s

/-- LINK_UP (R390). -/
def execLinkUp (l : Fin 24) (peer : BitVec 16) (s : State) : Out :=
  if (s.link l).up then .next s
  else .next (s.onLink l fun _ => { up := true, secure := false, retry := 0, peerid := peer, fails := 0 })

/-! ### Recall (R311) -/

/-- The first of some waiting outside accesses that no earlier one of its source precedes and that can perform does;
those before and behind it keep their places. -/
def recallOne (s : State) : List Recall → List Recall → Option Out
  | _, [] => none
  | before, r :: rest =>
    match if before.any r.sameSource then none else r.perform { s with recalled := before ++ rest } with
    | some o => some o
    | none => recallOne s (before ++ [r]) rest

/-- LINE_RECALL (R311): an access that waited goes on, once no engine owns its line: the hart's instruction, or the
outside access that has waited longest among those that can. -/
def execLineRecall (s : State) : Out :=
  if s.hart.run = .stalled then .next (s.setRun .running)
  else (recallOne s [] s.recalled).getD (.next s)

end Sys2Proof.Machine
end

