-- ==== Sys2Proof/Machine/MemExec.lean ====
section
/-! DEFINITION. Execution of majors 0x20 to 0x24 and 0x2A: vector memory instructions. The front-end queues each with
its scalar operands (R11); what the entry does at the head of the VIQ is `runEntry`. -/

namespace Sys2Proof.Machine

/-- VLD_UNIT (R150). -/
def execVldUnit (o : VMOp) (s : State) : Out := queueV 4 (.vm .vldUnit o) s
/-- VLD_STRIDED (R150). -/
def execVldStrided (o : VMOp) (s : State) : Out := queueV 4 (.vm .vldStrided o) s
/-- VLD_INDEXED (R150). -/
def execVldIndexed (o : VMOp) (s : State) : Out := queueV 4 (.vm .vldIndexed o) s
/-- VLDFF (R151). -/
def execVldff (o : VMOp) (s : State) : Out := queueV 4 (.vm .vldff o) s
/-- VST_UNIT (R150). -/
def execVstUnit (o : VMOp) (s : State) : Out := queueV 4 (.vm .vstUnit o) s
/-- VST_STRIDED (R150). -/
def execVstStrided (o : VMOp) (s : State) : Out := queueV 4 (.vm .vstStrided o) s
/-- VST_INDEXED (R150). -/
def execVstIndexed (o : VMOp) (s : State) : Out := queueV 4 (.vm .vstIndexed o) s
/-- VSTB_UNIT (R152). -/
def execVstbUnit (o : VMOp) (s : State) : Out := queueV 4 (.vm .vstbUnit o) s
/-- VSTB_STRIDED (R152). -/
def execVstbStrided (o : VMOp) (s : State) : Out := queueV 4 (.vm .vstbStrided o) s
/-- VSTB_INDEXED (R152). -/
def execVstbIndexed (o : VMOp) (s : State) : Out := queueV 4 (.vm .vstbIndexed o) s
/-- VAMOADD (R153). -/
def execVamoadd (o : VMOp) (s : State) : Out := queueV 4 (.vm .vamoadd o) s
/-- VAMOAND (R153). -/
def execVamoand (o : VMOp) (s : State) : Out := queueV 4 (.vm .vamoand o) s
/-- VAMOOR (R153). -/
def execVamoor (o : VMOp) (s : State) : Out := queueV 4 (.vm .vamoor o) s
/-- VAMOXOR (R153). -/
def execVamoxor (o : VMOp) (s : State) : Out := queueV 4 (.vm .vamoxor o) s
/-- VAMOMIN (R153). -/
def execVamomin (o : VMOp) (s : State) : Out := queueV 4 (.vm .vamomin o) s
/-- VAMOMAX (R153). -/
def execVamomax (o : VMOp) (s : State) : Out := queueV 4 (.vm .vamomax o) s
/-- VAMOSWAP (R153). -/
def execVamoswap (o : VMOp) (s : State) : Out := queueV 4 (.vm .vamoswap o) s
/-- VSCADD_D (R154). -/
def execVscaddD (o : VMOp) (s : State) : Out := queueV 4 (.vm .vscaddD o) s
/-- VSCADD_U (R154). -/
def execVscaddU (o : VMOp) (s : State) : Out := queueV 4 (.vm .vscaddU o) s
/-- VLDK_UNIT (R156). -/
def execVldkUnit (o : VMOp) (s : State) : Out := queueV 4 (.vm .vldkUnit o) s
/-- VLDK_STRIDED (R156). -/
def execVldkStrided (o : VMOp) (s : State) : Out := queueV 4 (.vm .vldkStrided o) s
/-- VSAVE (R158). -/
def execVsave (o : VMOp) (s : State) : Out := queueV 4 (.vm .vsave o) s
/-- VREST (R159). -/
def execVrest (o : VMOp) (s : State) : Out := queueV 4 (.vm .vrest o) s

end Sys2Proof.Machine
end

