-- ==== Sys2Proof/Machine/ScalarFp.lean ====
section
/-! DEFINITION. Scalar floating-point instructions of major 0x0A (R126, R127). They keep subnormals (R50), round by
their RM field (R44), set FFLAGS and write no field of FIRSTX. -/

namespace Sys2Proof.Machine

/-- The format of an FT field (R78). -/
def ftFmt : FpType → Fmt
  | .fp64 => Sys2Proof.Machine.fp64
  | .fp32 => Sys2Proof.Machine.fp32
  | .bf16 => Sys2Proof.Machine.bf16

/-- The rounding mode of an RM field (R44). -/
def rmMode (s : State) : Rm → Mode
  | .rne => .rne
  | .rtz => .rtz
  | .rdn => .rdn
  | .rup => .rup
  | .rmm => .rmm
  | .dyn => modeOf s.hart.csr.fcsr

/-- How an instruction of major 0x0A computes. -/
def fpEnv (s : State) (rm : Rm) (ft : FpType) : FEnv := ⟨ftFmt ft, rmMode s rm, false, false⟩

/-- The operand of a format in a general register: its low bits (R14). -/
def fpArg (f : Fmt) (x : Word) : Nat := x.toNat % 2 ^ f.width

/-- A result with its flags: zero-extended into g[d], flags set in FFLAGS (R14, R126). -/
def fpWrite (d : Reg) (r : FRes) (s : State) : Out :=
  .next (((s.raise r.2).setG d (BitVec.ofNat 64 r.1)).advance 4)

/-- A member that computes from a and b. -/
def fp2 (f : FEnv → Nat → Nat → FRes) (o : FpOp) (s : State) : Out :=
  let v := fpEnv s o.rm o.ft
  fpWrite o.d (f v (fpArg v.fmt (s.getG o.a)) (fpArg v.fmt (s.getG o.b))) s

/-- A comparison: 1 or 0 as a 64-bit integer (R126). -/
def fpCompare (r : Rel) (o : FpOp) (s : State) : Out :=
  fp2 (fun v a b => let x := v.compare r a b; (if x.1 then 1 else 0, x.2)) o s

/-- FADD (R126). -/
def execFadd (o : FpOp) (s : State) : Out := fp2 FEnv.add o s
/-- FSUB (R126). -/
def execFsub (o : FpOp) (s : State) : Out := fp2 FEnv.sub o s
/-- FMUL (R126). -/
def execFmul (o : FpOp) (s : State) : Out := fp2 FEnv.mul o s
/-- FDIV (R126). -/
def execFdiv (o : FpOp) (s : State) : Out := fp2 FEnv.div o s
/-- FSQRT (R126). -/
def execFsqrt (o : FpOp) (s : State) : Out := fp2 (fun v a _ => v.sqrt a) o s
/-- FMA: a × b + d, one rounding (R126). -/
def execFma (o : FpOp) (s : State) : Out :=
  fp2 (fun v a b => v.fma false false a b (fpArg v.fmt (s.getG o.d))) o s
/-- FMIN (R126). -/
def execFmin (o : FpOp) (s : State) : Out := fp2 (fun v a b => v.minMax false a b) o s
/-- FMAX (R126). -/
def execFmax (o : FpOp) (s : State) : Out := fp2 (fun v a b => v.minMax true a b) o s
/-- FCMPEQ (R126). -/
def execFcmpeq (o : FpOp) (s : State) : Out := fpCompare .eq o s
/-- FCMPLT (R126). -/
def execFcmplt (o : FpOp) (s : State) : Out := fpCompare .lt o s
/-- FCMPLE (R126). -/
def execFcmple (o : FpOp) (s : State) : Out := fpCompare .le o s
/-- FCLASS (R126). -/
def execFclass (o : FpOp) (s : State) : Out := fp2 (fun v a _ => (2 ^ v.fmt.classOf a, 0)) o s
/-- FSGNJ (R126). -/
def execFsgnj (o : FpOp) (s : State) : Out := fp2 (fun v a b => (v.fmt.withSign a (v.fmt.neg b), 0)) o s
/-- FSGNJN (R126). -/
def execFsgnjn (o : FpOp) (s : State) : Out := fp2 (fun v a b => (v.fmt.withSign a (!v.fmt.neg b), 0)) o s
/-- FSGNJX (R126). -/
def execFsgnjx (o : FpOp) (s : State) : Out :=
  fp2 (fun v a b => (v.fmt.withSign a (xor (v.fmt.neg a) (v.fmt.neg b)), 0)) o s

/-- Least and greatest value of an integer type. -/
def intLimits : IntType → Int × Int
  | .i64 => (-2 ^ 63, 2 ^ 63 - 1)
  | .u64 => (0, 2 ^ 64 - 1)
  | .i32 => (-2 ^ 31, 2 ^ 31 - 1)
  | .u32 => (0, 2 ^ 32 - 1)

/-- A word read as an integer type (R127). -/
def intRead (it : IntType) (x : Word) : Int :=
  match it with
  | .i64 => x.toInt
  | .u64 => x.toNat
  | .i32 => (x.setWidth 32).toInt
  | .u32 => (x.setWidth 32).toNat

/-- FCVTFI (R127). -/
def execFcvtfi (o : FcvtIOp) (s : State) : Out :=
  let v := fpEnv s o.rm o.ft
  let r := toInt v.mode (intLimits o.it).1 (intLimits o.it).2 (v.fmt.value (fpArg v.fmt (s.getG o.a)))
  fpWrite o.d ((BitVec.ofInt 64 r.1).toNat, r.2) s

/-- FCVTIF (R127). -/
def execFcvtif (o : FcvtIOp) (s : State) : Out :=
  let v := fpEnv s o.rm o.ft
  fpWrite o.d (v.fmt.round v.mode false (intVal (intRead o.it (s.getG o.a)))) s

/-- FCVTFF (R127). -/
def execFcvtff (o : FcvtFOp) (s : State) : Out :=
  let v := fpEnv s o.rm o.ft
  let x := (ftFmt o.sf).value (fpArg (ftFmt o.sf) (s.getG o.a))
  let r := v.fmt.round v.mode false x
  fpWrite o.d (r.1, r.2 ||| sigNV x) s

end Sys2Proof.Machine
end

