-- ==== Sys2Proof/Machine/Service.lean ====
section
/-! DEFINITION. The management kernel: requests (R388, R389, R394, R398, R399), fault messages (R365, R397), the
worlds of blocks (R395) and the thermal cutoff (R400). -/

namespace Sys2Proof.Machine

/-! ### Requests (Table 18-3) -/

/-- Doubleword j of a request. -/
def reqWord (s : State) (r : Request) (j : Nat) : Nat := s.phys64 (r.addr.toNat + 8 * j)

/-- OP. -/
def reqOp (s : State) (r : Request) : Nat := bitsOf (reqWord s r 0) 0 8
/-- UNIT. -/
def reqUnit (s : State) (r : Request) : Nat := bitsOf (reqWord s r 0) 16 16
/-- ARG0. -/
def reqArg0 (s : State) (r : Request) : Nat := reqWord s r 1
/-- ARG1. -/
def reqArg1 (s : State) (r : Request) : Nat := reqWord s r 2
/-- DST. -/
def reqDst (s : State) (r : Request) : Nat := bitsOf (reqWord s r 3) 0 48
/-- COMPL; its low three bits are zero in a well-formed request. -/
def reqCompl (s : State) (r : Request) : Nat := bitsOf (reqWord s r 4) 0 48
/-- NSID. -/
def reqNsid (s : State) (r : Request) : Nat := bitsOf (reqWord s r 5) 0 32

/-- Bytes that a request writes at DST. -/
def reqLen (s : State) (r : Request) : Nat :=
  if reqOp s r = 1 then 4096 * reqArg1 s r else if reqOp s r = 2 then 1024 else 0

/-- The requester is secure; a port never is, and the management cluster always is. -/
def srcSecure : Requester → Bool
  | .port _ => false
  | .management => true
  | .hart _ w => w

/-- A request is malformed (R388, R389). One at an address that does not exist, or is withheld, cannot be read (R264,
R399). -/
def reqMalformed (s : State) (r : Request) : Bool :=
  decide (lpddrEnd ≤ r.addr.toNat) || (physCheck s true r.addr.toNat).isSome || reqCompl s r % 8 != 0 || reqWord s r 6 != 0 || reqWord s r 7 != 0 ||
    (match reqOp s r with
    | 1 => decide (3 < reqUnit s r) || reqArg1 s r == 0 || decide (2 ^ 20 < reqArg1 s r) || reqDst s r % 4096 != 0 ||
        decide (lpddrEnd < reqDst s r + reqLen s r) || !Config.nvme4k (reqUnit s r) (reqNsid s r)
    | 2 => reqDst s r % 1024 != 0 || decide (lpddrEnd < reqDst s r + 1024)
    | 3 => decide (63 < reqUnit s r)
    | 4 => decide (63 < reqUnit s r)
    | 5 => decide (191 < reqUnit s r)
    | _ => true)

/-- The destination of a request reaches a secure frame. -/
def destSecure (s : State) (r : Request) : Bool :=
  (List.range ((reqLen s r + 255) / 256)).any fun k => s.frameSecure (reqDst s r + 256 * k)

/-- A request is denied (R388, R399). -/
def reqDenied (s : State) (r : Request) : Bool :=
  (!srcSecure r.src && destSecure s r) ||
    (match r.src with
    | .hart _ false => decide (3 ≤ reqOp s r)
    | _ => false) ||
    (reqOp s r == 5 && (!s.ctl.sparing || s.ctl.retired.isSome))

/-- Two requests' destinations overlap. -/
def reqOverlap (s : State) (a b : Request) : Bool :=
  reqLen s a != 0 && reqLen s b != 0 && overlaps (reqDst s a) (reqLen s a) (reqDst s b) (reqLen s b)

/-- The result that a request has before any work: malformed or denied. -/
def reqRefused (s : State) (r : Request) : Option (Fin 5) :=
  if reqMalformed s r then some 2 else if reqDenied s r then some 3 else none

/-- The requests whose turn to perform has come, by index (R388): those behind one whose turn has come wait, unless it
is a DRAIN that has started; one that waits for an earlier pending request of an overlapping destination has started,
and one that is malformed or denied has nothing to perform. -/
def dueRequests (s : State) : List Request → List Request → List Nat
  | _, [] => []
  | before, r :: rest =>
    let later := dueRequests s (before ++ [r]) rest
    if r.result.isSome || (reqRefused s r).isSome || before.any (reqOverlap s · r) then later
    else if reqOp s r == 3 && (s.clusterSt (reqUnit s r)).draining then before.length :: later
    else [before.length]

/-- The index of the request that an operation may perform next. -/
def nextRequest (s : State) (op : Nat) : Option Nat :=
  (dueRequests s [] s.host.requests).find? fun i => (s.host.requests[i]?.map (reqOp s)) == some op

/-- The kernel runs. -/
def State.kernelOn (s : State) : Bool := s.host.kernelUp && s.host.bootState == 3

/-- A request's result recorded. -/
def State.finishRequest (s : State) (i : Nat) (result : Fin 5) : State :=
  s.onHost fun h => { h with requests := h.requests.modify i fun r => { r with result := some result } }

/-- A write of the kernel for a requester's world (R389, R396): one outside LPDDR6 or into a secure frame that the
world may not reach writes nothing. -/
def kernelWrite (secure : Bool) (pa : Nat) (bs : List Byte) (s : State) : State :=
  if outsideRefused s secure pa bs.length || decide (lpddrEnd < pa + bs.length) then s else s.controllerWrite pa bs

/-- A range has a line that an engine owns, for which an access of the kernel waits (R311). -/
def State.ownedRange (s : State) (pa n : Nat) : Bool :=
  s.owned.any fun o => overlaps (o.lo / 64 * 64) ((o.lo + o.len + 63) / 64 * 64 - o.lo / 64 * 64) pa n

/-- An engine owns the line of a request that waits: the kernel reads it when the line has been written (R311). -/
def State.requestsOwned (s : State) : Bool := s.host.requests.any fun r => s.ownedRange r.addr.toNat 64

/-- An operation on the next request of its OP, once no engine owns a line of a request or of its destination. -/
def onRequest (op : Nat) (s : State) (f : Nat → Request → State) : Out :=
  if !s.kernelOn || s.requestsOwned then .next s
  else match nextRequest s op with
    | none => .next s
    | some i => match s.host.requests[i]? with
      | none => .next s
      | some r => if s.ownedRange (reqDst s r) (reqLen s r) then .next s else .next (f i r)

/-! ### LOAD (R389) -/

/-- The bytes of the k-th block of a LOAD. -/
def driveBlock (s : State) (r : Request) (k : Nat) : List Byte :=
  (List.range 4096).map fun o => Config.nvmeByte (reqUnit s r) (reqNsid s r) ((reqArg0 s r + k) % 2 ^ 64) o s.fresh

/-- The k-th block of a LOAD is written; `keep` leaves its old contents. -/
def loadBlock (r : Request) (src : State) (keep : Nat → Bool) (s : State) (k : Nat) : State :=
  if keep k then s else kernelWrite (srcSecure r.src) (reqDst src r + 4096 * k) (driveBlock src r k) s

/-- LOAD (R389): a drive error leaves each 4 KiB block old or new, which is open. -/
def execReqLoad (s : State) : Out :=
  onRequest 1 s fun i r =>
    let n := reqArg1 s r
    if Config.nvmeError s.fresh then
      let keep (k : Nat) : Bool := (Config.freeWord (s.fresh + 1 + k)).getLsbD 0
      { (List.range n).foldl (loadBlock r s keep) s with fresh := s.fresh + 1 + n }.finishRequest i 4
    else { (List.range n).foldl (loadBlock r s fun _ => false) s with fresh := s.fresh + 1 }.finishRequest i 1

/-! ### ATTEST (R394) -/

/-- The worlds of the module's blocks. -/
def State.worldBits (s : State) : List Bool :=
  (List.range 512).map (fun n => (s.coreSt n).secure) ++ (List.range 64).map (fun n => (s.clusterSt n).memSecure) ++
    (List.range 64).map (fun n => (s.clusterSt n).arraySecure) ++ (List.range 4).map s.pkgSecure.getLsbD ++
    (List.range 64).map s.engSecure.getLsbD ++ (List.range 192).map s.mruSecure.getLsbD

/-- The bytes of the 256 world region registers in offset order. -/
def State.wrgBytes (s : State) : List Byte :=
  (List.range 256).flatMap fun i =>
    let r := mapGet (0, 0) s.wrg i
    leBytes 8 r.1.toNat ++ leBytes 8 r.2.toNat

/-- Bytes 0 to 0x27F of a report (Table 18-5). -/
def reportBody (s : State) (nonce : List Byte) : List Byte :=
  leBytes 8 Config.serial.toNat ++ leBytes 4 Config.minSvn.toNat ++ leBytes 4 s.host.fwSvn.toNat ++ nonce ++
    beBytes 32 s.host.fwHash.toNat ++ beBytes 32 s.host.kernHash.toNat ++
    sha256 (s.wrgBytes ++ Config.worldMap s.worldBits) ++ leBytes 8 s.time ++ List.replicate 104 0 ++
    beBytes 384 Config.identityModulus.toNat

/-- The report with its signature, that of the identity key over the bytes before it (R394). -/
def reportBytes (s : State) (nonce : List Byte) : List Byte :=
  let body := reportBody s nonce
  body ++ rsaSign Config.identityModulus.toNat Config.identityExponent (sha256 body)

/-- ATTEST (R394): a nonce that cannot be read gives STATUS 4; one in a line that an engine owns is read later (R311).
-/
def execReqAttest (s : State) : Out :=
  onRequest 2 s fun i r =>
    let a := reqArg0 s r
    let unreadable := decide (lpddrEnd < a + 32) || outsideRefused s (srcSecure r.src) a 32 || (targetsOf a 32).any s.badTarget
    if s.ownedRange a 32 then s
    else if unreadable then s.finishRequest i 4
    else (kernelWrite (srcSecure r.src) (reqDst s r) (reportBytes s (readBytes s.mem a 32)) s).finishRequest i 1

/-! ### DRAIN, RETURN and RETIRE (R398, R399) -/

/-- No hart remains on a cluster, and no command is aimed at it (R398). -/
def State.clusterIdle (s : State) (cl : Nat) : Bool :=
  (s.helm.gangs.all fun g => g.places.all fun p => p.1 / 64 != cl) &&
    ((s.hart :: s.others).all fun h => h.run == .vacant || clusterOf h.csr.hartid != cl) &&
    s.slotRecs.all fun r => !r.aimsAtCluster cl && (coresIn cl).all fun c => !r.aimsAtCore c

/-- Core registers take their reset values when a core leaves or enters service (R30). -/
def resetCore (s : State) (n : Nat) : State :=
  s.setCore n { CoreSt.reset with secure := (s.coreSt n).secure }

/-- DRAIN (R398): placement stops; the request is done once the cluster is offline. -/
def execReqDrain (s : State) : Out :=
  onRequest 3 s fun i r =>
    let cl := reqUnit s r
    let s1 := s.setCluster cl { s.clusterSt cl with draining := true }
    if s1.clusterIdle cl then
      ((coresIn cl).foldl resetCore (s1.setCluster cl { s1.clusterSt cl with draining := false, offline := true })).finishRequest i 1
    else s1

/-- Bytes that belong to a cluster: its memory, and its cores' scratchpads and lane-private memories. -/
def inCluster (cl loc : Nat) : Bool :=
  (decide (2 ^ 52 ≤ loc) && decide (loc < 2 ^ 53) && (loc - 2 ^ 52) / 2 ^ 19 / 8 == cl) ||
    (decide (2 ^ 53 ≤ loc) && decide (loc < 2 ^ 54) && (loc - 2 ^ 53) / 2 ^ 22 == cl) ||
    (decide (2 ^ 55 ≤ loc) && decide (loc < 2 ^ 56) && (loc - 2 ^ 55) / 4096 / 32 / 8 == cl)

/-- The on-chip memories at the locations that meet a condition are zero, with the watch bits that lie in their ECC
words and without errors (R283, R372). -/
def State.zeroLocs (s : State) (p : Nat → Bool) : State :=
  { s with mem := s.mem.filter fun c => !p c.1 }.onCtl fun c => { c with
    watch := c.watch.filter fun g => !p (32 * g)
    bad := c.bad.filter fun b => !p (256 * b) }

/-- RETURN's effect: every core, the cluster memory and the array are zero, the array unconfigured, the cluster in
service. -/
def returned (cl : Nat) (s : State) : State :=
  let s1 : State := { s.zeroLocs (inCluster cl) with
    acc := s.acc.filter fun p => p.1 / 2 ^ 21 != cl
    slots := s.slots.filter fun p => p.1 / 2 ^ 20 != cl
    cells := s.cells.filter fun p => p.1 / 2 ^ 20 != cl }
  let c := s1.clusterSt cl
  (coresIn cl).foldl resetCore
    (s1.setCluster cl { ClusterSt.reset with memSecure := c.memSecure, arraySecure := c.arraySecure })

/-- RETURN (R398): a failed test gives STATUS 4, and the cluster stays offline; a cluster that is not offline is
denied. -/
def execReturnCluster (s : State) : Out :=
  onRequest 4 s fun i r =>
    let cl := reqUnit s r
    if !(s.clusterSt cl).offline then s.finishRequest i 3
    else if Config.testFails s.fresh then { s with fresh := s.fresh + 1 }.finishRequest i 4
    else { returned cl s with fresh := s.fresh + 1 }.finishRequest i 1

/-- RETIRE (R399): the channel's blocks are copied and redirected, so that programs see no change. -/
def execReqRetire (s : State) : Out :=
  onRequest 5 s fun i r => (s.onCtl fun c => { c with retired := some (reqUnit s r) }).finishRequest i 1

/-! ### Completion (R388) -/

/-- The request that completes next: the oldest that has a result, or is refused, and whose destination no earlier
pending one overlaps (R388). -/
def completable (s : State) : List Request → List Request → Option (Request × Fin 5)
  | _, [] => none
  | before, r :: rest =>
    let result := match r.result with
      | some x => some x
      | none => reqRefused s r
    match if before.any fun q => reqOverlap s q r then none else result with
    | some x => some (r, x)
    | none => completable s (before ++ [r]) rest

/-- REQUEST_COMPLETE (R388): STATUS, then the counter add with release, then MSI-X vector 1 for a port. -/
def execRequestComplete (s : State) : Out :=
  if !s.kernelOn || s.requestsOwned then .next s
  else match completable s [] s.host.requests with
    | none => .next s
    | some (r, x) =>
      let c := reqCompl s r
      if s.ownedRange (r.addr.toNat + 1) 1 || s.ownedRange c 8 then .next s else
      let s1 := kernelWrite (srcSecure r.src) (r.addr.toNat + 1) [BitVec.ofNat 8 x.val] s
      let s2 :=
        if c % 8 != 0 then s1
        else (kernelWrite (srcSecure r.src) c (leBytes 8 ((s1.phys64 c + 1) % 2 ^ 64)) s1).releaseAt c
      .next (s2.onHost fun h => { h with
        requests := h.requests.erase r
        msix1 := match r.src with
          | .port p => h.msix1 ++ [p]
          | _ => h.msix1 })

/-! ### Fault messages (Table 16-3, R397) -/

/-- The 32 bytes of a message. -/
def FaultMsg.bytes (m : FaultMsg) : List Byte :=
  leBytes 2 m.domain.toNat ++ [m.kind, m.code] ++ leBytes 4 m.source.toNat ++ leBytes 8 m.object.toNat ++
    leBytes 8 m.addr.toNat ++ leBytes 8 m.time

/-- MSI-X vector 0 at both ports. -/
def State.toHost (s : State) : State := s.onHost fun h => { h with msix0 := h.msix0 + 1 }

/-- NOTIFY at the hart of a routing entry, when it is placed for a region of the domain; else the message goes to the
host. -/
def notify (id : BitVec 12) (domain : BitVec 16) (pa : Nat) (s : State) : State :=
  match s.placedHart id with
  | some h =>
    if h.domain = domain then s.onPlaced id fun h => { h with pendNotify := h.pendNotify ++ [BitVec.ofNat 64 pa] } else s.toHost
  | none => s.toHost

/-- An address of LPDDR6 that the kernel may reach: it exists and is not withheld (R264, R399). -/
def kernelReaches (s : State) (pa : Nat) : Bool := decide (pa < lpddrEnd) && (physCheck s true pa).isNone

/-- The place of the next message of a domain in the ring of its entry. -/
def ringPlace (e n : Nat) : Nat := bitsOf e 12 40 * 4096 + 32 * (n % 128)

/-- FAULT_MESSAGE (R397): the kernel routes the oldest message, once no engine owns a line that this reads or writes
(R311). One whose entry or ring it cannot reach goes to the host. -/
def execFaultMessage (s : State) : Out :=
  match s.host.kernelUp, s.messages with
  | true, m :: rest =>
    let s0 := { s with messages := rest }
    let slot := s.host.domtab.toNat + 8 * m.domain.toNat
    let e := if kernelReaches s slot then s.phys64 slot else 0
    let n := mapGet 0 s.ringCount m.domain.toNat
    let pa := ringPlace e n
    if s.ownedRange slot 8 then .next s
    else if !e.testBit 63 || !kernelReaches s pa then .next s0.toHost
    else if s.ownedRange pa 32 then .next s
    else
      let s1 := ({ s0 with ringCount := mapSet 0 s.ringCount m.domain.toNat (n + 1) }.controllerWrite pa m.bytes).releaseAt pa
      if e.testBit 62 then .next s1.toHost else .next (notify (BitVec.ofNat 12 e) m.domain pa s1)
  | _, _ => .next s

/-! ### Worlds (R395) -/

/-- A block is idle: a core without harts, a cluster that is offline, an engine without outstanding commands. -/
def blockIdle (s : State) (b : Block) : Bool :=
  match b with
  | .core n => (s.heldPlaces n.val).isEmpty
  | .clusterMem n => (s.clusterSt n.val).offline
  | .array n => (s.clusterSt n.val).offline
  | .package _ => true
  | .engine n => (s.slotRecs.all fun r => r.engine.val != n.val) && s.running.all fun c => c.slot.engine.val != n.val
  | .mru _ => true

/-- A block is secure. -/
def blockSecure (s : State) (b : Block) : Bool :=
  match b with
  | .core n => (s.coreSt n.val).secure
  | .clusterMem n => (s.clusterSt n.val).memSecure
  | .array n => (s.clusterSt n.val).arraySecure
  | .package d => s.pkgSecure.getLsbD d.val
  | .engine n => s.engSecure.getLsbD n.val
  | .mru d => s.mruSecure.getLsbD d.val

/-- A bit of a bit vector set to a value. -/
def setBit {w : Nat} (x : BitVec w) (n : Nat) (v : Bool) : BitVec w :=
  if v then x ||| BitVec.ofNat w (2 ^ n) else x &&& ~~~BitVec.ofNat w (2 ^ n)

/-- A core's scratchpad and lane-private memories. -/
def inCore (n loc : Nat) : Bool :=
  (decide (2 ^ 52 ≤ loc) && decide (loc < 2 ^ 53) && (loc - 2 ^ 52) / 2 ^ 19 == n) ||
    (decide (2 ^ 55 ≤ loc) && decide (loc < 2 ^ 56) && (loc - 2 ^ 55) / 4096 / 32 == n)

/-- The memory of a cluster. -/
def inClusterMem (n loc : Nat) : Bool :=
  decide (2 ^ 53 ≤ loc) && decide (loc < 2 ^ 54) && (loc - 2 ^ 53) / 2 ^ 22 == n

/-- The package scratchpad slice of a die. -/
def inSlice (die loc : Nat) : Bool := decide (2 ^ 54 ≤ loc) && decide (loc < 2 ^ 55) && (loc - 2 ^ 54) / 4096 % 4 == die

/-- All state of a block is zero (R395). -/
def zeroBlock (b : Block) (s : State) : State :=
  match b with
  | .core n =>
    resetCore { s.zeroLocs (inCore n.val) with
      acc := s.acc.filter fun p => p.1 / 2 ^ 18 != n.val
      slots := s.slots.filter fun p => p.1 / 2 ^ 17 != n.val } n.val
  | .clusterMem n => s.zeroLocs (inClusterMem n.val)
  | .array n =>
    let c := s.clusterSt n.val
    { s with cells := s.cells.filter fun p => p.1 / 2 ^ 20 != n.val }.setCluster n.val
      { c with configured := false, config := 0, seed := 0, steps := 0, table := 0, rows := [], stepBy := 0 }
  | .package d => s.zeroLocs (inSlice d.val)
  | .engine _ => s
  | .mru _ => s

/-- The world bit of a block. -/
def setWorld (b : Block) (w : Bool) (s : State) : State :=
  match b with
  | .core n => s.setCore n.val { s.coreSt n.val with secure := w }
  | .clusterMem n => s.setCluster n.val { s.clusterSt n.val with memSecure := w }
  | .array n => s.setCluster n.val { s.clusterSt n.val with arraySecure := w }
  | .package d => { s with pkgSecure := setBit s.pkgSecure d.val w }
  | .engine n => { s with engSecure := setBit s.engSecure n.val w }
  | .mru d => { s with mruSecure := setBit s.mruSecure d.val w }

/-- WORLD_SET (R395): an idle block's world; a block that leaves the secure world is zeroed first. -/
def execWorldSet (b : Block) (secure : Bool) (s : State) : Out :=
  if !blockIdle s b then .next s
  else .next (setWorld b secure (if blockSecure s b && !secure then zeroBlock b s else s))

/-! ### Cutoff (R400) -/

/-- THERMAL_CUTOFF (R400): the compute dies lose power, so their harts, engines and on-chip state are gone; both ports
go down, which releases the semaphore (R386). -/
def execThermalCutoff (s : State) : Out :=
  .next { s.zeroLocs (fun l => decide (2 ^ 52 ≤ l) && decide (l < 2 ^ 60)) with
    hart := Hart.vacated
    others := []
    loose := false
    acc := []
    slots := []
    cells := []
    cores := []
    clusters := []
    slotRecs := []
    running := []
    owned := []
    recalled := []
    reserved := []
    helm := { s.helm with gangs := [], claims := [], rise := [], fall := [], todo := [] }
    host := { s.host with semHeld := false, semOwner := false }
    cutOff := true }

end Sys2Proof.Machine
end

