-- ==== Sys2Proof/Machine/Sync.lean ====
section
/-! DEFINITION. Instructions between the hart and what lies outside its registers: length setting (R142), ENQ (R245,
R246), waits (R252), stream registers (R253, R254), the gang barrier (R255), the fences of the VIQ (R256, R257), the
decoupled state frame (R258, R259), WATCH (R260), and the drain-point branches and moves (R190, R202). -/

namespace Sys2Proof.Machine

/-! ### Length setting (R142) -/

/-- The granted length. -/
def grant (h : Hart) (t : BitVec 9) (avl : Word) : Nat := if vtypeLegal t then min avl.toNat (vlmaxOf h.vlrBits t) else 0

/-- A length-setting instruction: the front-end grants the length for g[d], and the VIQ carries it to the vector unit.
-/
def setLength (v : VInstr) (d : Reg) (t : BitVec 9) (avl : Word) (s : State) : Out :=
  let vl := BitVec.ofNat 64 (grant s.hart t avl)
  if s.hart.vsOff then .next (s.trapVfirst (heldWord v))
  else if s.hart.queueFull v then .next s.stallFull
  else
    let s1 := (s.setG d vl).onHart fun h => { h with grantedVl := vl.setWidth 11 }
    .next (s1.enterQueue 4 (makeEntry s.hart v [vl, t.setWidth 64] []))

/-- SETVLI (R142). -/
def execSetvli (o : SetvliOp) (s : State) : Out := setLength (.setvli o) o.d o.vtype (s.getG o.a) s

/-- SETVL (R142). -/
def execSetvl (o : R3) (s : State) : Out :=
  let x := s.getG o.b
  setLength (.setvl o) o.d (if x.toNat < 512 then x.setWidth 9 else 0) (s.getG o.a) s

/-! ### ENQ (R245, R246) -/

/-- A descriptor is illegal for a hart (R243, R245): reserved bits, ENGINE, LOG2SIZE or WORLD. `x` is its 64 bytes. -/
def descriptorBad (h : Hart) (x : Nat) : Bool :=
  let f (off lo w : Nat) : Nat := bitsOf x (8 * off + lo) w
  f 0 56 7 != 0 || f 8 48 16 != 0 || f 0x10 0 6 != 0 || f 0x10 52 12 != 0 || f 0x18 25 39 != 0 || f 0x18 17 7 != 0 ||
    f 0x18 15 1 != 0 || f 0x18 4 4 != 0 || f 0x20 32 32 != 0 || f 0x28 0 192 != 0 || decide (67 < f 0x18 8 7) ||
    decide (f 0x18 0 4 < 4) || (f 0x18 16 1 == 1) != h.csr.status.world

/-- Free space of a chain (R244). -/
def freeSpace (x : Nat) : Nat :=
  let c := if x.testBit 63 then bitsOf x 0 48 - 1 else bitsOf x 0 48
  2 ^ bitsOf x (8 * 0x18) 4 - (bitsOf x 64 48 - 1 - c)

/-- TICKET after a turn (R246). -/
def nextTurn (h ticket : Nat) : Nat := if ticket + 1 = h * (2 ^ 32 / h) then 0 else ticket + 1

/-- What part 1 of ENQ finds at a descriptor. -/
inductive EnqPlan where
  | bad
  | wait
  | reserve (first k m desc : Nat)

/-- A number of 64 bytes with a bit range replaced. -/
def putBits (x lo w y : Nat) : Nat := x - bitsOf x lo w * 2 ^ lo + y % 2 ^ w * 2 ^ lo

/-- Part 1 of ENQ on a descriptor's 64 bytes (R245, R246); M follows the VL that the front-end last granted. -/
def enqPlan (h : Hart) (o : EnqOp) (x : Nat) : EnqPlan :=
  if descriptorBad h x then .bad
  else
    let m := min h.grantedVl.toNat (o.grp.count * h.vlrBits / 512)
    let free := freeSpace x
    let first := bitsOf x 64 48
    let gs := h.csr.gangsz.toNat
    let ticket := bitsOf x 256 32
    if h.csr.status.det then
      if ticket % gs ≠ h.csr.rank.toNat ∨ free < m then .wait
      else .reserve first m m (putBits (putBits x 64 48 (first + m)) 256 32 (nextTurn gs ticket))
    else .reserve first (min m free) m (putBits x 64 48 (first + min m free))

/-- The new descriptor of a plan, or none when nothing is reserved. -/
def EnqPlan.desc? : EnqPlan → Option Nat
  | .reserve _ _ _ d => some d
  | _ => none

/-- A descriptor fault of ENQ (R245). -/
def State.trapDescriptor (s : State) (f : MemFault) : State :=
  (s.mchkMessage f).trapP f.cause.code f.addr (mkTaux false (if f.cause = .mchk then 1 else 10) 0 0)

/-- The commands that part 1 of ENQ has reserved (R245, R254). -/
def reservedNumbers (engine first k : Nat) : List (Nat × Nat) :=
  (List.range k).map fun j => (engine, (first + j) % 2 ^ 32)

/-- What follows part 1 of ENQ, which has found the descriptor `x`: g[d] receives the reservation, and part 2 enters the
VIQ (R245). -/
def enqueueCommands (o : EnqOp) (va : Word) (x first k m : Nat) (s : State) : State :=
  let engine := bitsOf x (8 * 0x18 + 8) 7
  let ops := enqWords first k m va engine (bitsOf x (8 * 0x18) 4) (BitVec.ofNat 64 (bitsOf x 128 64))
  let t := { s with reserved := s.reserved ++ reservedNumbers engine first k }
  (t.setG o.d (BitVec.ofNat 64 (k * 2 ^ 48 + first))).enterQueue 4 (makeEntry s.hart (.enq o) ops [])

/-- ENQ: part 1 reserves by an atomic step on the descriptor, whose outcome may be on its way over a link (R307), and
part 2 enters the VIQ (R245). -/
def execEnq (o : EnqOp) (s : State) : Out :=
  let h := s.hart
  let va := s.getG o.a
  let finish (t : State) (x : Nat) : Out :=
    match enqPlan h o x with
    | .bad => .next (t.trapDescriptor { cause := .access, addr := va })
    | .wait => .next t.stall
    | .reserve first k m _ => .next (enqueueCommands o va x first k m t.home)
  if h.vsOff then .next (s.trapVfirst (heldWord (.enq o)))
  else if h.queueFull (.enq o) then .next s.stallFull
  else if !aligned va 64 then .next (s.trapDescriptor { cause := .access, addr := va })
  else match tripOf s va with
    | .receive x _ => finish s x
    | .send l => .next (s.onTrip l none false)
    | trip =>
      match rmwAt s h.agent .atomic va 64 (fun x => (enqPlan h o x).desc?) with
      | .fault f u => .next (u.trapDescriptor f)
      | .wait => .next s.stall
      | .ok r =>
        match trip with
        | .perform l => .next (r.st.onTrip l (some (leNat r.data)) false)
        | _ => finish r.st (leNat r.data)

/-- ENQ_SLOT_WRITE: part 2 of an ENQ at the head of the VIQ (R245). -/
def execEnqSlotWrite (s : State) : Out :=
  issueIf (fun v => match v with
    | .enq _ => true
    | _ => false) s

/-! ### Waits (R252) -/

/-- An 8-byte wait or read: g[d] receives the word when it satisfies `p`, else the hart waits as `run` says. -/
def waitWord (d : Reg) (va : Word) (p : Word → Bool) (run : Run) (s : State) : Out :=
  if !aligned va 8 then .next (s.trapMem { cause := .access, addr := va })
  else match loadAt s s.hart.agent .scalar va 8 with
    | .fault f u => .next (u.trapMem f)
    | .wait => .next s.stall
    | .ok r =>
      let x := BitVec.ofNat 64 (leNat r.data)
      if p x then finishAccess s (((r.st.setRun .running).setG d x).advance 4) r.hit va 1 4
      else .next (r.st.setRun run)

/-- The condition of SEQWAIT on a DONE word (Table 11-5). -/
def seqReached (x target : Word) : Bool := x.getLsbD 63 || decide (bitsOf target.toNat 0 48 ≤ bitsOf x.toNat 0 48)

/-- SEQWAIT (R252). -/
def execSeqwait (o : R3) (s : State) : Out :=
  waitWord o.d (s.getG o.a) (fun x => seqReached x (s.getG o.b)) (.seqwait o) s

/-- SEQRD (R252). -/
def execSeqrd (o : R2) (s : State) : Out := waitWord o.d (s.getG o.a) (fun _ => true) .running s

/-- ARRWAIT (R252). -/
def execArrwait (o : R3) (s : State) : Out :=
  waitWord o.d (s.getG o.a) (fun x => (s.getG o.b).ule x) (.arrwait o) s

/-- WAIT_SATISFIED: a waiting SEQWAIT or ARRWAIT reads its word again, and completes if its condition holds (R252). -/
def execWaitSatisfied (s : State) : Out :=
  match s.hart.run with
  | .seqwait o => execSeqwait o s
  | .arrwait o => execArrwait o s
  | _ => .next s

/-! ### Stream registers (R253, R254) -/

/-- QBIND (R253). DESIGN CHOICE (log entry 60): the 64 bytes are read where g[a] points, at any alignment; the rule
names no check. -/
def execQbind (o : QbindOp) (s : State) : Out :=
  if s.hart.vsOff then .next (s.trapVfirst (encWord (.qbind o)))
  else match loadAt s s.hart.agent .scalar (s.getG o.a) 64 with
    | .fault f u => .next (u.trapMem f)
    | .wait => .next s.stall
    | .ok r =>
      let x := leNat r.data
      let engine := bitsOf x (8 * 0x18 + 8) 7
      let seq := bitsOf (s.getG o.b).toNat 0 48
      if 64 ≤ engine ∨ bitsOf x 64 48 ≤ seq then .next (r.st.trapP cILL (encWord (.qbind o)) (mkTaux false 7 0 0))
      else .next ((r.st.onHart (·.setQs o.n (qsWord true engine seq 0))).advance 4)

/-- QRD (R254). -/
def execQrd (o : QrdOp) (s : State) : Out :=
  if s.hart.vsOff then .next (s.trapVfirst (encWord (.qrd o)))
  else match streamRead s o.n 8 with
    | .empty => .next (s.trapP cEMPTY (encWord (.qrd o)) (mkTaux false o.n.val 0 0))
    | .wait => .next s.stall
    | .bytes bs h => writeNext 4 o.d (BitVec.ofNat 64 (leNat bs)) { s with hart := h }

/-! ### The gang barrier (R255, R347) -/

/-- Every hart of the hart's gang has arrived: none that is placed is missing, and none has yielded. -/
def State.allArrived (s : State) : Bool :=
  (s.hart :: s.others).all (fun h => h.gang != s.hart.gang || h.run == .vacant || h.arrived) &&
    ((s.gang? s.hart.gang).map (·.yielded.isEmpty)).getD true

/-- A hart of the gang after the episode has completed: one that waits goes on, its issue cap at its ballast duty; one
that a handler has taken away finds the episode done, and has not arrived in the next one. -/
def Hart.passBarrier (h : Hart) (duty : Option Nat) (now : Nat) : Hart :=
  let h1 := { h with relCap := duty.getD 8, relAt := now, arrived := false }
  if h.run == .gbar then { h1 with pc := h.pc + 4, run := .running, episodeDone := false }
  else if h.arrived then { h1 with episodeDone := true }
  else h

/-- The ballast of every hart of the gang ends (R346). -/
def State.endGangBallast (s : State) : State :=
  (s.hart :: s.others).foldl (fun t h =>
    if h.gang = s.hart.gang ∧ h.run ≠ .vacant then t.endBallast (coreOf h.csr.hartid) (slotOf h.csr.hartid) else t) s

/-- The arrivals of an episode complete together, at the ballast duties of that moment (R347). -/
def State.passGang (s0 : State) : State :=
  let s := s0.taperAll
  let f (h : Hart) : Hart :=
    if h.gang = s.hart.gang ∧ h.run ≠ .vacant then
      h.passBarrier (s.ballastDuty (coreOf h.csr.hartid) (slotOf h.csr.hartid)) s.time
    else h
  let t := s.endGangBallast
  { t with hart := f t.hart, others := t.others.map f }

/-- The hart has arrived and waits. GBAR is a release: the hart's earlier scalar stores have performed (R289 row 10). -/
def State.arrive (s : State) : State :=
  s.flushScalar.onHart fun h => { h with arrived := true, run := .gbar, since := if h.arrived then h.since else s.time }

/-- GBAR (R255). -/
def execGbar (s : State) : Out :=
  if s.hart.episodeDone then .next ((s.onHart fun h => { h with episodeDone := false }).advance 4)
  else
    let s1 := s.arrive
    if s1.allArrived then .next s1.passGang else (if s.hart.arrived then .next s1 else .next s1.startBallast)

/-- GBAR_RELEASE: the episode of the hart's gang completes once every live hart has arrived (R255). -/
def execGbarRelease (s : State) : Out :=
  if s.hart.run == .gbar && s.allArrived then .next s.passGang else .next s

/-! ### Fences and invalidation in the VIQ (R256, R257, R318) -/

/-- VLSYNC (R256). -/
def execVlsync (s : State) : Out := queueV 4 .vlsync s
/-- LAFENCE (R256, R318). -/
def execLafence (scope : Scope) (s : State) : Out := queueV 4 (.lafence scope) s
/-- TLBINV (R257). -/
def execTlbinv (o : AbOp) (s : State) : Out := queueV 4 (.tlbinv o) s
/-- EFENCE (R256). -/
def execEfence (scope : Scope) (s : State) : Out := queueV 4 (.efence scope) s

/-! ### The decoupled state frame (R258, R259) -/

/-- The hart after SAVEVQ: empty queues, every register full (R27). DESIGN CHOICE (log entry 10): the instruction that
went before the next vector instruction in the VIQ is still the newest that the frame has taken, so that a c = 1
instruction joins its convoy (R339, R341). -/
def Hart.clearQueues (h : Hart) : Hart :=
  { h with
    viq := []
    gone := []
    frozen := false
    headTrapped := false
    mask := 0
    maskValid := false
    watchHit := none
    filling := []
    vfull := BitVec.allOnes 32
    wfull := BitVec.allOnes 8 }

/-- SAVEVQ (R258). -/
def execSavevq (a : Reg) (s : State) : Out :=
  drained s fun t =>
    let va := t.getG a
    if !aligned va 64 then .next (t.trapMem { cause := .access, addr := va })
    else match storeAt t t.hart.agent .scalar va (frameBytes t.hart) with
      | .fault f u => .next (u.trapMem f)
      | .wait => .next t.stall
      | .ok r => .next ((r.st.onHart Hart.clearQueues).advance 4)

/-- RESTVQ, stage 1: the frame is read and checked, TAILVTYPE enters the trap copy, and the entry joins the VIQ
(R259); the VL granted for later instructions is TAILVL. DESIGN CHOICE (log entry 61): the frame is read where g[a]
points, at any alignment; only that of SAVEVQ is stated. -/
def execRestvq (a : Reg) (s : State) : Out :=
  if s.hart.queueFull (.restvq a) then .next s.stallFull
  else match loadAt s s.hart.agent .scalar (s.getG a) 2048 with
    | .fault f u => .next (u.trapMem f)
    | .wait => .next s.stall
    | .ok r =>
      if frameBad s.hart r.data then .next (r.st.trapP cILL (encWord (.restvq a)) (mkTaux false 1 0 0))
      else if 32 < s.hart.viqUsed + field r.data 4 1 ∨ 16 < s.hart.soqUsed + frameOps r.data then .next s.stallFull
      else
        let t := r.st.onHart fun h =>
          { h with trapVtype := frameTail r.data
                   grantedVl := legalVl h.vlrBits (field r.data 0x14 2) (frameTail r.data) }
        .next (t.enterQueue 4 (makeEntry t.hart (.restvq a) [s.getG a] r.data))

/-- RESTVQ_HEAD: stage 2 at the head of the VIQ (R259). -/
def execRestvqHead (s : State) : Out :=
  issueIf (fun v => match v with
    | .restvq _ => true
    | _ => false) s

/-! ### WATCH (R260) -/

/-- The watch bit of a granule. -/
def State.setWatch (s : State) (set : Bool) (g : Nat) : State :=
  { s with ctl := { s.ctl with watch := if set then setAdd s.ctl.watch g else setDel s.ctl.watch g } }

/-- How a WATCH ends. -/
inductive WatchEnd where
  | all
  | fault (f : MemFault)
  | wait

/-- Granules in ascending address from `a`, `n` bytes left: the state, where it stopped, what is left, and how it ended.
`fuel` bounds the granules. -/
def watchRange (set : Bool) : Nat → State → Word → Nat → State × Word × Nat × WatchEnd
  | 0, s, a, n => (s, a, n, .all)
  | fuel + 1, s, a, n =>
    if n = 0 then (s, a, n, .all)
    else match translate s s.hart.agent .scalar .load a with
      | .ok (s1, .mem l) =>
        let room := 32 - a.toNat % 32
        watchRange set fuel (s1.setWatch set (l / 32)) (a + BitVec.ofNat 64 room) (n - room)
      | .ok _ => (s, a, n, .fault { cause := .access, addr := a })
      | .fault f u => (u, a, n, .fault f)
      | .wait => (s, a, n, .wait)

/-- WATCH (R260). -/
def watchOp (set : Bool) (o : AbOp) (s : State) : Out :=
  let n := (s.getG o.b).toNat
  let r := watchRange set (n / 32 + 2) s (s.getG o.a) n
  match r.2.2.2 with
  | .all => .next (r.1.advance 4)
  | .fault f => .next (((r.1.setG o.a r.2.1).setG o.b (BitVec.ofNat 64 r.2.2.1)).trapMem f)
  | .wait => .next s.stall

/-- WATCH.set (R260). -/
def execWatchSet (o : AbOp) (s : State) : Out := watchOp true o s
/-- WATCH.clr (R260). -/
def execWatchClr (o : AbOp) (s : State) : Out := watchOp false o s

/-! ### Scalar-side reads of vector state (R190, R202) -/

/-- A front-end read of register n of VecInfo's numbering (R26): a trap, a wait, or `k`. -/
def readFull (n : Nat) (trapIf : Bool) (enc : Word) (s : State) (k : State → Out) : Out :=
  if s.hart.isEmpty n then
    if trapIf || s.hart.csr.status.cd then .next (s.trapP cEMPTY enc (mkTaux false (emptySpec n) 0 0)) else .next s.stall
  else k s

/-- Some element below VL has a weight above THR, whatever VTYPE holds (R202). DEDUCED (log entry 11): that FARM always
branches while VTYPE is illegal holds because a length-setting instruction has then granted VL = 0. -/
def anyAbove (h : Hart) (w : Fin 8) : Bool := (List.range h.rawVl).any fun i => decide (h.thr < h.weight w i)

/-- The encoding of FARM and WLOOP as TVAL reports it: major 0x29, cc 0 or 1 (R87). -/
def armWord (want : Bool) (o : ArmOp) : Word :=
  BitVec.ofNat 64 (pack (fieldsI 41 (if want then 1 else 0) o.off.toNat 0 o.a.val))

/-- FARM and WLOOP: the branch is taken when `any` equals `want` (R202). -/
def armBranch (want : Bool) (o : ArmOp) (s : State) : Out :=
  if s.hart.vsOff then .next (s.trapVfirst (armWord want o))
  else drained s fun t =>
    if o.a = 0 then branch 4 o.off (anyAbove t.hart o.a == want) t
    else readFull (32 + o.a.val) false (armWord want o) t fun u => branch 4 o.off (anyAbove u.hart o.a == want) u

/-- FARM (R202). -/
def execFarm (o : ArmOp) (s : State) : Out := armBranch false o s
/-- WLOOP (R202). -/
def execWloop (o : ArmOp) (s : State) : Out := armBranch true o s

/-- Element i of va sign-extended, or 0 at and above VLMAX (R190). -/
def elementOrZero (h : Hart) (a : Reg) (i : Nat) : Word :=
  if i < h.vlmax then BitVec.ofInt 64 (sgn h.sew (h.elem a i)) else 0

/-- VMVXV has completed: VSTART := 0 (R32), it is the instruction that a later c = 1 would join, and its s bit moves a
compiler-directed partition on that stays with its hart (R338 to R341). -/
def State.vmvxvDone (s : State) (o : VOp) : State :=
  let v : VInstr := .v .vmvxv o
  let s1 := (s.onHart fun h =>
    { h with convoy := (joinConvoy h.convoy v).1, gone := h.goneAfter v, csr := { h.csr with vstart := 0 } }).count evVcompl 1
  if s.hart.csr.status.cd && s.cdSlot == slotOf s.hart.csr.hartid then directedTurn s1.hart [v] s1 else s1

/-- The front-end waits for a slot of its partition to stay idle for C.VGAP (R93). -/
def State.waitGap (s : State) : State := (if s.slotFree then s.onHart (·.idleSlot s.time) else s).stall

/-- VMVXV (R190). It is a member of the convoy it joins, whose conflicts it reports at its own address (R340, R341), and
the vector issue that a C.VGAP before it holds back (R93). -/
def execVmvxv (o : VOp) (s : State) : Out :=
  let enc := heldWord (.v .vmvxv o)
  if s.hart.vsOff then .next (s.trapVfirst enc)
  else drained s fun t =>
    if t.hart.csr.status.cd && decide (0 < t.hart.vgap) then .next t.waitGap
    else if !vtypeLegal t.hart.csr.vtype then .next (t.trapP cILL enc 0)
    else
      let code := (joinConvoy t.hart.convoy (.v .vmvxv o)).2.1
      if code ≠ 0 then .next (t.trapV cCONVOY enc (mkTaux false code 0 0))
      else readFull o.a.val o.fa enc t fun u =>
        writeNext 4 o.d (elementOrZero u.hart o.a (u.getG o.b).toNat) (u.vmvxvDone o)

/-! ### Events of the vector unit -/

/-- VSCADD_REPLAY_GROUP: a running VSCADD.d sends its next group of ranks (R155). -/
def execVscaddReplayGroup (s : State) : Out :=
  let r := replayGroup (s, [])
  .next (r.1.onHart fun h => { h with csr := h.csr.raiseElems h.vstart r.2 })

/-- STE_GRANT: the STE of the hart's core grants a waiting MROW (R220). -/
def execSteGrant (s : State) : Out := .next (s.steGrant s.core)

/-- REGISTER_FULL: a producer writes its last element (R26). -/
def execRegisterFull (isW : Bool) (n : Fin 32) (s : State) : Out :=
  let r := if isW then 32 + n.val % 8 else n.val
  if s.hart.filling.any (·.1 == r) then .next (s.onHart (·.fill r)) else .next s

end Sys2Proof.Machine
end

