-- ==== Sys2Proof/Machine/TileExec.lean ====
section
/-! DEFINITION. Execution of the tile majors: stationary tile engine and automaton array. The front-end queues each
with its scalar operands (R11); what the entry does at the head of the VIQ is `runEntry`. -/

namespace Sys2Proof.Machine

/-- MTLD (R214). -/
def execMtld (o : MtldOp) (s : State) : Out := queueV 8 (.mtld o) s
/-- MROW (R217). -/
def execMrow (o : MrowOp) (s : State) : Out := queueV 8 (.mrow o) s
/-- MACLR (R225). -/
def execMaclr (o : MaclrOp) (s : State) : Out := queueV 8 (.maclr o) s
/-- MARD (R225). -/
def execMard (o : AccOp) (s : State) : Out := queueV 8 (.mard o) s
/-- MAWR (R225). -/
def execMawr (o : AccOp) (s : State) : Out := queueV 8 (.mawr o) s
/-- MAST (R226). -/
def execMast (o : AccOp) (s : State) : Out := queueV 8 (.mast o) s
/-- LACFG (R232). -/
def execLacfg (o : LaAOp) (s : State) : Out := queueV 8 (.lacfg o) s
/-- LAEVAL (R233). -/
def execLaeval (o : LaVOp) (s : State) : Out := queueV 8 (.laeval o) s
/-- LAVOTE (R234). -/
def execLavote (o : LaVOp) (s : State) : Out := queueV 8 (.lavote o) s
/-- LATRAIN (R237). -/
def execLatrain (o : LatrainOp) (s : State) : Out := queueV 8 (.latrain o) s
/-- LAFB (R238). -/
def execLafb (o : LaVOp) (s : State) : Out := queueV 8 (.lafb o) s
/-- LASTL (R239). -/
def execLastl (o : LaAOp) (s : State) : Out := queueV 8 (.lastl o) s
/-- LASTS (R239). -/
def execLasts (o : LaAOp) (s : State) : Out := queueV 8 (.lasts o) s
/-- LATBL (R235). -/
def execLatbl (o : LaAOp) (s : State) : Out := queueV 8 (.latbl o) s
/-- LASEED (R236). -/
def execLaseed (o : LaAOp) (s : State) : Out := queueV 8 (.laseed o) s

end Sys2Proof.Machine
end

