-- ==== Sys2Proof/Machine/Turn.lean ====
section
/-! DEFINITION. What a cycle brings: time, the ramp slots and the caps (R344 to R347), the vector units of the module
(R220, R335), the records that wait to be written (R376 to R379), what agents and waiting harts do by themselves, and
the turns that an agenda may name. -/

namespace Sys2Proof.Machine

/-! ### Time -/

/-- Event codes whose counts depend on what the manual leaves to the implementation: the traffic of the caches (Table
17-3). -/
def openEvent (x : BitVec 16) : Bool := decide (0xB ≤ x.toNat) && decide (x.toNat ≤ 0xD)

/-- The counters of a hart after some cycles: CYCLES counts, and a counter of an open event adds an open number. -/
def Csr.pass (c : Csr) (n fresh : Nat) : Csr :=
  let c1 := c.count evCycles n
  if c1.evsel.toList.any openEvent then
    { c1 with evcnt := Vector.ofFn fun i : Fin 4 =>
        if openEvent (c1.evsel[i.val]'i.isLt) then
          c1.evcnt[i.val]'i.isLt + Config.freeWord (fresh + 4 * c.hartid.toNat + i.val)
        else c1.evcnt[i.val]'i.isLt }
  else c1

/-- A group of an entry in flight has issued in the cycle that ends: its groups come first among those of its convoy. -/
def Hart.memIssued (h : Hart) (x : Held) : Bool :=
  let own := groupsOf { h with csr := { h.csr with vstart := x.first } } x.instr
  let all := ((if (vinfo x.instr).c then h.gone else []).map (groupsOf h ·)).foldl max own
  h.used.getLsbD 0 && decide (all ≤ h.groups + own)

/-- A vector memory instruction of the hart is in flight and has issued no element group in the cycle that ends. -/
def Hart.waitsMemory (h : Hart) : Bool :=
  match (h.viq.takeWhile (·.flying)).getLast? with
  | some x => !h.frozen && !h.memIssued x
  | none => false

/-- The vector memory instruction that a hart would issue next waits for a line that an engine owns (R311). -/
def State.waitsLine (s : State) (h : Hart) : Bool :=
  match h.viq with
  | e :: _ =>
    isVm e.instr && !e.flying && !h.frozen && decide (h.groups = 0) &&
      (let t := s.refocus (some h.csr.hartid)
       match gate t e false, runEntry e t with
       | .open, .wait => true
       | _, _ => false)
  | [] => false

/-- The events that a hart's waits count in a cycle (Table 17-3): those of a stall, and GBARWAIT from its arrival to the
release. -/
def Hart.waitEvents (h : Hart) (n : Nat) (c : Csr) : Csr :=
  let c1 := if h.run = .stalled then (if h.waitEv = 0 then c else c.count h.waitEv n) else c
  if h.arrived then c1.count evGbarwait n else c1

/-- A placed hart after some cycles: its counters, the producers that have finished, the open strip's waits on memory
(Table 17-2), and its usage records. -/
def Hart.pass (h : Hart) (mem : Bool) (now n fresh : Nat) : Hart :=
  if h.run = .vacant then h
  else
    let h1 := if mem then h.onStrip fun o => { o with mem := o.mem + n } else h
    { h1.fillDue now with
      csr := h.waitEvents n (h.csr.pass n fresh), used := h.used <<< n, usedSte := h.usedSte <<< n,
      granted := h.granted <<< n }

/-- Arithmetic clock cycles pass. -/
def State.pass (s : State) (n : Nat) : State :=
  let now := s.time + n
  let opens := (s.hart :: s.others).any fun h => h.csr.evsel.toList.any openEvent
  let one (h : Hart) : Hart := h.pass (h.openStrip.isSome && (h.waitsMemory || s.waitsLine h)) now n s.fresh
  { s with
    time := now
    hart := one s.hart
    others := s.others.map one
    fresh := if opens then s.fresh + 16384 else s.fresh }.countAllBallast

/-- One arithmetic clock cycle passes. -/
def State.tick (s : State) : State := s.pass 1

/-- The ramp slot of the present cycle begins (R344, R346): tapers begin where fall allows, gangs of the slot start,
and the Helm walks. -/
def State.beginSlot (s : State) : State :=
  let k := s.slotNow
  let s1 : State := { s with
    helm := { s.helm with
      slot := k
      rise := s.helm.rise.filter fun p => decide (k ≤ p.1)
      fall := s.helm.fall.filter fun p => decide (k ≤ p.1) } }
  let s2 := s1.knownCores.foldl State.beginTapers s1
  let s3 : State := { s2 with hart := s2.hart.startAt k, others := s2.others.map (·.startAt k) }
  s3.walk

/-- RAMP_SLOT_START (R344, R346): the next slot begins. While a vector unit has something to issue the cycles up to it
pass one by one, since none of them goes by without its sequencer (R336, R337). -/
def execRampSlotStart (s : State) : Out :=
  if s.slotNow ≠ s.helm.slot then .next s.beginSlot
  else if (s.hart :: s.others).any Hart.viqReady then .next s
  else .next (s.pass ((s.slotNow + 1) * slotCycles - s.time)).beginSlot

/-- The first gang whose pre-emption has lasted too long ends (R332). -/
def State.endOverdue (s : State) : State :=
  match s.helm.gangs.find? s.overdue with
  | none => s
  | some g => s.endGang g.id

/-- What a cycle brings by the clock alone: links that go down, changes of the Helm that waited for an engine, the start
of a ramp slot, due taper steps, rises of release caps, and the end of an overdue gang (R311, R332, R344, R346, R347,
R390). -/
def State.timedCycle (s00 : State) : State :=
  let s0 := s00.dropLinks
  let s := if s0.helm.todo.isEmpty then s0 else s0.helmWrites []
  let s1 := if s.slotNow = s.helm.slot then s else s.beginSlot
  let s2 := if s1.taperDue then s1.taperAll else s1
  ((s2.hart :: s2.others).filter fun h => decide (h.relCap < 8)).foldl State.releaseCap s2.endOverdue

/-! ### The vector units -/

/-- The first of each run of equal keys kept, others dropped. -/
def firstOfEach {α : Type} (same : α → α → Bool) : List α → List α
  | [] => []
  | x :: r => x :: (firstOfEach same r).filter fun y => !same x y

/-- The placed harts that meet a condition, by HARTID. -/
def State.placedIds (s : State) (p : Hart → Bool) : List (BitVec 12) :=
  ((s.hart :: s.others).filter fun h => h.run != .vacant && p h).map (·.csr.hartid)

/-- One hart of each partition that has something to issue or to settle. -/
def State.issuers (s : State) : List (BitVec 12) :=
  (firstOfEach (fun h k => coreOf h.csr.hartid == coreOf k.csr.hartid && h.partition == k.partition)
    ((s.hart :: s.others).filter fun h =>
      h.run != .vacant && (h.viqReady || h.credit != 0 || h.waits != 0))).map (·.csr.hartid)

/-- The cores whose STE can grant. -/
def State.granters (s : State) : List Nat :=
  (firstOfEach (· == ·) ((s.hart :: s.others).map fun h => coreOf h.csr.hartid)).filter s.steDue

/-- What some harts do one after another. -/
def State.visitAll (s : State) (ids : List (BitVec 12)) (f : State → State) : State := ids.foldl (fun t id => t.visit id f) s

/-- One slot of the sequencer of a partition, unless it has used or left idle that of this cycle (R335). -/
def State.slotCycle (s : State) : State := if s.slotFree then s.issueCycle else s

/-- The tile instructions of a core that are due, each with its hart. -/
def State.dueOnCore (s : State) (core : Nat) : List (BitVec 12 × TileReq) :=
  (s.coreHarts core).flatMap fun h => (dueTilesOf s h).map fun q => (h.csr.hartid, q)

/-- The oldest of some requests that can run does (R220); `fuel` bounds those that wait. -/
def State.runOldest : Nat → List (BitVec 12 × TileReq) → State → State
  | 0, _, s => s
  | n + 1, l, s =>
    match oldestDue l with
    | none => s
    | some x =>
      match runRequest false x.2 (s.refocus (some x.1)) with
      | some t => t.refocus s.focus
      | none => State.runOldest n (l.erase x) s

/-- The STE of a core takes the oldest tile instruction that is due (R219, R220). -/
def State.tilesCycle (s : State) (core : Nat) : State :=
  let l := s.dueOnCore core
  State.runOldest l.length l s

/-- The cores of harts whose requests wait in the tile queues. -/
def State.tileCores (s : State) : List Nat :=
  firstOfEach (· == ·) (((s.hart :: s.others).filter fun h => !h.tiles.isEmpty).map fun h => coreOf h.csr.hartid)

/-- The vector units of the module in one cycle: what is in flight runs to its end when nothing outside schedules it,
every free STE grants a waiting MROW or takes another tile instruction (R219, R220), every partition has its issue
slot (R335), and harts that wait for the pin table ask for it (R271). -/
def State.unitsCycle (s : State) : State :=
  let s0 := if s.loose then s else s.visitAll (s.placedIds fun h => h.viq.any (·.flying)) (State.landHead 33)
  let s1 := s0.granters.foldl State.steGrant s0
  let s2 := s1.tileCores.foldl State.tilesCycle s1
  let s3 := s2.visitAll s2.issuers State.slotCycle
  s3.visitAll (s3.placedIds fun h => s3.pinsBusy (coreOf h.csr.hartid)) State.pinTurn

/-! ### Sampling (R376, R377) -/

/-- SAMPLE_TAG: the drawn gap has expired, so the next fetched instruction is tagged, or the tag is dropped (R376). -/
def execSampleTag (s : State) : Out :=
  if s.hart.csr.sampEn then .next (s.onHart fun h => { h with tagNext := true }) else .next s

/-- The record of the oldest tagged instruction that has ended is written, unless an engine owns a line that it reaches
(R311, R377). -/
def State.sampleTurn (s : State) : State :=
  match s.hart.tagDone with
  | [] => s
  | t :: rest => ((s.onHart fun h => { h with tagDone := rest }).writeSample t).getD s

/-- SAMPLE_RECORD (R377). -/
def execSampleRecord (s : State) : Out := .next s.sampleTurn

/-- The records of the hart that wait to be written, of samples and of strips (R377, R379). -/
def State.recordsTurn (s : State) : State := s.sampleTurn.writeStrip

/-! ### What the module does by itself -/

/-- A meaning that changes the state; none when it answers anything else. -/
def progress (s : State) (o : Out) : Option State :=
  match o with
  | .next t => if t = s then none else some t
  | _ => none

/-- The first meaning of a list that changes the state. -/
def firstProgress (s : State) : List (State → Out) → Option State
  | [] => none
  | f :: fs => match progress s (f s) with
    | some t => some t
    | none => firstProgress s fs

/-- The operations that an engine may carry out. -/
def engineOps (e : Fin 64) : List (State → Out) :=
  [execEngVoid e, execEngCopy e, execEngCopy2d e, execEngCopyd e, execEngFill e, execEngRowgather e, execStreamBufferResume e]

/-- The operations of a memory service engine. -/
def serviceOps (d : Fin 4) : List (State → Out) :=
  [execPgmode d, execPgzero d, execHotread d, execHotclear d, execMigrate d]

/-- What an engine may do next. -/
def engineTurns (e : Fin 68) : List (State → Out) :=
  [execEngineCommandComplete e, execEngineCommandFault e] ++
    (if h : e.val < 64 then engineOps ⟨e.val, h⟩ else serviceOps (Fin.ofNat 4 (e.val - 64))) ++
    [execEngineCommandStart e, execChainResume e]

/-- Engines that have a command. -/
def State.busyEngines (s : State) : List (Fin 68) :=
  (List.finRange 68).filter fun e => s.slotRecs.any (·.engine == e) || s.running.any (·.slot.engine == e)

/-- Engines, the kernel and boot. -/
def agentTurns (s : State) : List (State → Out) :=
  (if s.hart.run = .vacant ∧ s.host.bootState = 0 then [execModuleReset] else []) ++
    (if s.host.bootState = 2 then [execKernelStart, execBootReady] else []) ++
    (if s.owned.any (·.engine.isNone) then [fun t => .next t.peerYield] else []) ++
      [execFaultMessage] ++ s.busyEngines.flatMap engineTurns ++
    [execRequestComplete, execReqLoad, execReqAttest, execReqDrain, execReturnCluster, execReqRetire, execNorProgram] ++
    (if s.recalled.isEmpty then [] else [execLineRecall])

/-- The end of a wait of the hart whose turn it is. -/
def waitTurns (s : State) : List (State → Out) :=
  match s.hart.run with
  | .seqwait _ => [execWaitSatisfied]
  | .arrwait _ => [execWaitSatisfied]
  | .gbar => [execGbarRelease]
  | .parked => [execHartRetire, execHartYield]
  | .wfe => [execWfeWake, execWfeTimeout]
  | .pause => [execPauseEnd]
  | _ => []

/-- The Helm walks when what it walks for has changed (R326). -/
def helmTurns (s : State) : List (State → Out) :=
  if s.helmOn && s.walkImage != s.helm.seen then [execHelmWalk] else []

/-- The turn passes to the next of the other harts. -/
def State.rotate (s : State) : State :=
  match s.others with
  | [] => s
  | h :: hs => { s with hart := h, others := if s.hart.run = .vacant then hs else hs ++ [s.hart] }

/-- The next cycle, this one included, at which something that depends on time is due. -/
def State.nextDue (s : State) : Nat :=
  let ofHart (h : Hart) : List Nat :=
    (match h.run with
      | .pause => [h.since + 32]
      | .wfe => [h.since + 4096]
      | _ => []) ++ (if h.relCap < 8 then [h.relAt + 175] else []) ++ h.filling.map (·.2) ++
      (if h.viqReady then [s.time] else []) ++
      (if h.tiles.isEmpty then [] else [(s.coreSt (coreOf h.csr.hartid)).steUntil])
  let tapers := s.cores.flatMap fun p => (p.2.ballast.filter fun b => b.tapering && decide (0 < b.duty)).map fun b =>
    b.stepAt + taperCycles b
  let preempts := (s.helm.gangs.filterMap (·.preemptAt)).map (· + 700000)
  let all := (s.hart :: s.others).flatMap ofHart ++ tapers ++ preempts
  (all.filter fun t => decide (s.time ≤ t)).foldl min ((s.slotNow + 1) * slotCycles)

/-- A hart has something to do. -/
def Hart.busy (h : Hart) : Bool :=
  h.viqReady || !h.tagDone.isEmpty || !h.stripOut.isEmpty || (match h.run with
    | .vacant => false
    | .starting _ => false
    | _ => true)

/-- What happens beside the instructions of the hart whose turn it is, if anything does: the Helm and the agents, then
the end of its wait, then the turn of another hart. -/
def background (s : State) : Option State :=
  match firstProgress s (helmTurns s ++ agentTurns s ++ waitTurns s) with
  | some t => some t
  | none => if s.others.any Hart.busy then some s.rotate else none

/-- When nothing else happens, the module moves on to the next cycle at which something is due. -/
def idle (s : State) : Out :=
  match background s with
  | some t => .next t
  | none => .next (s.pass (s.nextDue - s.time))

/-- Every sixteenth cycle belongs to the agents and the other harts. -/
def State.sliceDue (s : State) : Bool := s.time % 16 == 0

/-- What a cycle brings before the front-end's part: what is due by the clock, the vector units, and records. -/
def State.cycleStart (s : State) : State := s.timedCycle.unitsCycle.recordsTurn

/-! ### Turns that an agenda names -/

/-- The k-th write that waits in the hart's queues performs, unless an earlier one precedes it or it waits for a higher
element (R289, R294, R295); of a misaligned store its next byte (R118). -/
def State.performTurn (s : State) (k : Nat) : State :=
  match s.hart.pend[k]? with
  | none => s
  | some p =>
    if p.isHeld || (s.hart.pend.take k).any (·.precedes p) then s
    else if p.kind = .bytewise ∧ 1 < p.locs.length then
      (s.onHart fun h => { h with
        pend := h.pend.set k { p with locs := p.locs.drop 1, bytes := p.bytes.drop 1 } }).performPend s.hart.agent
        { p with locs := p.locs.take 1, bytes := p.bytes.take 1 }
    else (s.onHart fun h => { h with pend := h.pend.eraseIdx k }).performPend s.hart.agent p

/-- The instruction is a VSTB, whose elements read what they then blend with (R152). -/
def isBlend (v : VInstr) : Bool :=
  match v with
  | .vm .vstbUnit _ | .vm .vstbStrided _ | .vm .vstbIndexed _ => true
  | _ => false

/-- An access of a hart parts what VSTB elements have read from what they would write: they read again (R152). The k-th
entry, if one is named, goes on. -/
def Hart.partBlends (h : Hart) (k : Option Nat) : Hart :=
  { h with viq := h.viq.zipIdx.map fun x => if isBlend x.1.instr && k != some x.2 then { x.1 with early := [] } else x.1 }

/-- Likewise for every hart. -/
def State.partAllBlends (s : State) : State :=
  { s with hart := s.hart.partBlends none, others := s.others.map (·.partBlends none) }

/-- An event of the agenda, whose meaning is `run`; an instruction of the hart is one of its accesses, and comes after
the loads that it may not pass. -/
def eventTurn (i : Instr) (run : State → Out) (s : State) : Out :=
  if (encode i).isSome then frontExec false i run (s.onHart (·.partBlends none)) else run s

/-! ### Accesses on their way over a link that goes down (R307, log entry 41) -/

/-- The engine whose command an event performs. -/
def eventEngine (i : Instr) : Option (Fin 68) :=
  match i with
  | .engVoid e | .engCopy e | .engCopy2d e | .engCopyd e | .engFill e | .engRowgather e | .streamBufferResume e =>
    some (e.castLE (by omega))
  | .engineCommandComplete e | .engineCommandFault e => some e
  | _ => none

/-- Memory in which the bytes of a range stand as they stood, but for some 64-byte lines. -/
def keepOld (old new : Memory) (lo len : Nat) (kept : List Nat) : Memory :=
  let part (m : Memory) (p : Nat → Bool) : Memory := m.filter fun c => p c.1
  let inside (a : Nat) : Bool := decide (lo ≤ a) && decide (a < lo + len)
  let mid := kept.foldl (fun m l =>
    if inside (64 * l) then replaceBytes m (64 * l) (readBytes new (64 * l) 64) else m) (part old inside)
  part new (fun a => decide (a < lo)) ++ mid ++ part new fun a => decide (lo + len ≤ a)

/-- Those that own what an event of the module performs: the hart whose command an engine carries out, or the harts
whose vector units have gone on. -/
def eventOwners (i : Instr) (s t : State) : List (BitVec 12 × Nat × BitVec 16) :=
  match eventEngine i with
  | some e => (s.running.filter fun c => c.slot.engine == e).map fun c => (c.slot.hartid, c.slot.region, c.slot.domain)
  | none => ((s.hart :: s.others).filter fun h => h.run != .vacant && (t.placed? h.csr.hartid).map (·.viq) != some h.viq).map
      fun h => (h.csr.hartid, h.region, h.domain)

/-- A link goes down while the accesses that an event of the module, whose meaning is `run`, makes are on their way
over it: its writes at the peer have performed in some lines, and are lost in the others; each owner has its machine
check (R307). -/
def State.cutTurn (s : State) (l : Fin 24) (i : Instr) (run : State → Out) (kept : List Nat) : State :=
  if (encode i).isSome || !(s.link l).up then s
  else match run s with
    | .next t =>
      let m := keepOld s.mem t.mem (peerLoc (s.link l).peerid.toNat 0) (2 ^ 41) kept
      ((eventOwners i s t).foldl (fun (u : State) o => u.pendCheck o.1 o.2.1 o.2.2 3 0) { t with mem := m }).linkFails l
    | _ => s

/-- The core's TLB takes in the translation that the page tables now give an address of the hart (R270). -/
def State.takeXlat (s : State) (va : Word) : State :=
  match s.hart.ptroot with
  | none => s
  | some root =>
    match Machine.walk s s.hart.agent root va.toNat 3 0 root.toNat with
    | .leaf x =>
      let c := s.coreSt s.core
      s.setCore s.core { c with tlb := x :: c.tlb.filter (· != x) }
    | _ => s

/-- The TLB of a core drops its n-th translation (R270). -/
def State.dropXlat (s : State) (core n : Nat) : State :=
  let c := s.coreSt core
  s.setCore core { c with tlb := c.tlb.eraseIdx n }

/-- When nothing outside schedules the harts' waiting accesses any more, they perform (R289): loads, rows of the arrays,
and writes. -/
def State.tighten (s : State) : State :=
  let s1 := s.visitAll (s.placedIds fun h => !h.late.isEmpty) State.landLates
  let s2 := (s1.clusters.map (·.1)).foldl State.landRows s1
  { (s2.flushHarts fun _ => true).partAllBlends with loose := false }

end Sys2Proof.Machine
end

