-- ==== Sys2Proof/Machine/VecExec.lean ====
section
/-! DEFINITION. Execution of major 0x10 to 0x1F and 0x25 to 0x28: element-wise, cross-element and fractional
instructions. The front-end queues each with its scalar operands (R11); what the entry does at the head of the VIQ is
`runEntry`. -/

namespace Sys2Proof.Machine

/-- VADD (R165). -/
def execVadd (o : VOp) (s : State) : Out := queueV 4 (.v .vadd o) s
/-- VSUB (R165). -/
def execVsub (o : VOp) (s : State) : Out := queueV 4 (.v .vsub o) s
/-- VMUL (R165). -/
def execVmul (o : VOp) (s : State) : Out := queueV 4 (.v .vmul o) s
/-- VMULH (R165). -/
def execVmulh (o : VOp) (s : State) : Out := queueV 4 (.v .vmulh o) s
/-- VMULHU (R165). -/
def execVmulhu (o : VOp) (s : State) : Out := queueV 4 (.v .vmulhu o) s
/-- VMIN (R165). -/
def execVmin (o : VOp) (s : State) : Out := queueV 4 (.v .vmin o) s
/-- VMAX (R165). -/
def execVmax (o : VOp) (s : State) : Out := queueV 4 (.v .vmax o) s
/-- VMINU (R165). -/
def execVminu (o : VOp) (s : State) : Out := queueV 4 (.v .vminu o) s
/-- VMAXU (R165). -/
def execVmaxu (o : VOp) (s : State) : Out := queueV 4 (.v .vmaxu o) s
/-- VAND (R165). -/
def execVand (o : VOp) (s : State) : Out := queueV 4 (.v .vand o) s
/-- VOR (R165). -/
def execVor (o : VOp) (s : State) : Out := queueV 4 (.v .vor o) s
/-- VXOR (R165). -/
def execVxor (o : VOp) (s : State) : Out := queueV 4 (.v .vxor o) s
/-- VSLL (R165). -/
def execVsll (o : VOp) (s : State) : Out := queueV 4 (.v .vsll o) s
/-- VSRL (R165). -/
def execVsrl (o : VOp) (s : State) : Out := queueV 4 (.v .vsrl o) s
/-- VSRA (R165). -/
def execVsra (o : VOp) (s : State) : Out := queueV 4 (.v .vsra o) s
/-- VABS (R165). -/
def execVabs (o : VOp) (s : State) : Out := queueV 4 (.v .vabs o) s
/-- VDIV (R167). -/
def execVdiv (o : VOp) (s : State) : Out := queueV 4 (.v .vdiv o) s
/-- VDIVU (R167). -/
def execVdivu (o : VOp) (s : State) : Out := queueV 4 (.v .vdivu o) s
/-- VREM (R167). -/
def execVrem (o : VOp) (s : State) : Out := queueV 4 (.v .vrem o) s
/-- VREMU (R167). -/
def execVremu (o : VOp) (s : State) : Out := queueV 4 (.v .vremu o) s
/-- VSADD (R166). -/
def execVsadd (o : VOp) (s : State) : Out := queueV 4 (.v .vsadd o) s
/-- VSSUB (R166). -/
def execVssub (o : VOp) (s : State) : Out := queueV 4 (.v .vssub o) s
/-- VSADDU (R166). -/
def execVsaddu (o : VOp) (s : State) : Out := queueV 4 (.v .vsaddu o) s
/-- VSSUBU (R166). -/
def execVssubu (o : VOp) (s : State) : Out := queueV 4 (.v .vssubu o) s
/-- VWMUL (R168). -/
def execVwmul (o : VOp) (s : State) : Out := queueV 4 (.v .vwmul o) s
/-- VWMULU (R168). -/
def execVwmulu (o : VOp) (s : State) : Out := queueV 4 (.v .vwmulu o) s
/-- VWMAC (R168). -/
def execVwmac (o : VOp) (s : State) : Out := queueV 4 (.v .vwmac o) s
/-- VWMACU (R168). -/
def execVwmacu (o : VOp) (s : State) : Out := queueV 4 (.v .vwmacu o) s
/-- VWMACSU (R168). -/
def execVwmacsu (o : VOp) (s : State) : Out := queueV 4 (.v .vwmacsu o) s
/-- VNSHR (R169). -/
def execVnshr (o : VOp) (s : State) : Out := queueV 4 (.v .vnshr o) s
/-- VNSHRU (R169). -/
def execVnshru (o : VOp) (s : State) : Out := queueV 4 (.v .vnshru o) s
/-- VMV (R170). -/
def execVmv (o : VOp) (s : State) : Out := queueV 4 (.v .vmv o) s
/-- VADD_VX (R161). -/
def execVaddVx (o : VOp) (s : State) : Out := queueV 4 (.v .vaddVx o) s
/-- VSUB_VX (R161). -/
def execVsubVx (o : VOp) (s : State) : Out := queueV 4 (.v .vsubVx o) s
/-- VMUL_VX (R161). -/
def execVmulVx (o : VOp) (s : State) : Out := queueV 4 (.v .vmulVx o) s
/-- VMULH_VX (R161). -/
def execVmulhVx (o : VOp) (s : State) : Out := queueV 4 (.v .vmulhVx o) s
/-- VMULHU_VX (R161). -/
def execVmulhuVx (o : VOp) (s : State) : Out := queueV 4 (.v .vmulhuVx o) s
/-- VMIN_VX (R161). -/
def execVminVx (o : VOp) (s : State) : Out := queueV 4 (.v .vminVx o) s
/-- VMAX_VX (R161). -/
def execVmaxVx (o : VOp) (s : State) : Out := queueV 4 (.v .vmaxVx o) s
/-- VMINU_VX (R161). -/
def execVminuVx (o : VOp) (s : State) : Out := queueV 4 (.v .vminuVx o) s
/-- VMAXU_VX (R161). -/
def execVmaxuVx (o : VOp) (s : State) : Out := queueV 4 (.v .vmaxuVx o) s
/-- VAND_VX (R161). -/
def execVandVx (o : VOp) (s : State) : Out := queueV 4 (.v .vandVx o) s
/-- VOR_VX (R161). -/
def execVorVx (o : VOp) (s : State) : Out := queueV 4 (.v .vorVx o) s
/-- VXOR_VX (R161). -/
def execVxorVx (o : VOp) (s : State) : Out := queueV 4 (.v .vxorVx o) s
/-- VSLL_VX (R161). -/
def execVsllVx (o : VOp) (s : State) : Out := queueV 4 (.v .vsllVx o) s
/-- VSRL_VX (R161). -/
def execVsrlVx (o : VOp) (s : State) : Out := queueV 4 (.v .vsrlVx o) s
/-- VSRA_VX (R161). -/
def execVsraVx (o : VOp) (s : State) : Out := queueV 4 (.v .vsraVx o) s
/-- VDIV_VX (R161). -/
def execVdivVx (o : VOp) (s : State) : Out := queueV 4 (.v .vdivVx o) s
/-- VDIVU_VX (R161). -/
def execVdivuVx (o : VOp) (s : State) : Out := queueV 4 (.v .vdivuVx o) s
/-- VREM_VX (R161). -/
def execVremVx (o : VOp) (s : State) : Out := queueV 4 (.v .vremVx o) s
/-- VREMU_VX (R161). -/
def execVremuVx (o : VOp) (s : State) : Out := queueV 4 (.v .vremuVx o) s
/-- VSADD_VX (R161). -/
def execVsaddVx (o : VOp) (s : State) : Out := queueV 4 (.v .vsaddVx o) s
/-- VSSUB_VX (R161). -/
def execVssubVx (o : VOp) (s : State) : Out := queueV 4 (.v .vssubVx o) s
/-- VSADDU_VX (R161). -/
def execVsadduVx (o : VOp) (s : State) : Out := queueV 4 (.v .vsadduVx o) s
/-- VSSUBU_VX (R161). -/
def execVssubuVx (o : VOp) (s : State) : Out := queueV 4 (.v .vssubuVx o) s
/-- VWMUL_VX (R161). -/
def execVwmulVx (o : VOp) (s : State) : Out := queueV 4 (.v .vwmulVx o) s
/-- VWMULU_VX (R161). -/
def execVwmuluVx (o : VOp) (s : State) : Out := queueV 4 (.v .vwmuluVx o) s
/-- VWMAC_VX (R161). -/
def execVwmacVx (o : VOp) (s : State) : Out := queueV 4 (.v .vwmacVx o) s
/-- VWMACU_VX (R161). -/
def execVwmacuVx (o : VOp) (s : State) : Out := queueV 4 (.v .vwmacuVx o) s
/-- VWMACSU_VX (R161). -/
def execVwmacsuVx (o : VOp) (s : State) : Out := queueV 4 (.v .vwmacsuVx o) s
/-- VNSHR_VX (R161). -/
def execVnshrVx (o : VOp) (s : State) : Out := queueV 4 (.v .vnshrVx o) s
/-- VNSHRU_VX (R161). -/
def execVnshruVx (o : VOp) (s : State) : Out := queueV 4 (.v .vnshruVx o) s
/-- VFADD (R171). -/
def execVfadd (o : VOp) (s : State) : Out := queueV 4 (.v .vfadd o) s
/-- VFSUB (R171). -/
def execVfsub (o : VOp) (s : State) : Out := queueV 4 (.v .vfsub o) s
/-- VFMUL (R171). -/
def execVfmul (o : VOp) (s : State) : Out := queueV 4 (.v .vfmul o) s
/-- VFDIV (R171). -/
def execVfdiv (o : VOp) (s : State) : Out := queueV 4 (.v .vfdiv o) s
/-- VFMIN (R171). -/
def execVfmin (o : VOp) (s : State) : Out := queueV 4 (.v .vfmin o) s
/-- VFMAX (R171). -/
def execVfmax (o : VOp) (s : State) : Out := queueV 4 (.v .vfmax o) s
/-- VFMA (R171). -/
def execVfma (o : VOp) (s : State) : Out := queueV 4 (.v .vfma o) s
/-- VFMS (R171). -/
def execVfms (o : VOp) (s : State) : Out := queueV 4 (.v .vfms o) s
/-- VFNMA (R172). -/
def execVfnma (o : VOp) (s : State) : Out := queueV 4 (.v .vfnma o) s
/-- VFNMS (R172). -/
def execVfnms (o : VOp) (s : State) : Out := queueV 4 (.v .vfnms o) s
/-- VFSQRT (R172). -/
def execVfsqrt (o : VOp) (s : State) : Out := queueV 4 (.v .vfsqrt o) s
/-- VFRECE (R173). -/
def execVfrece (o : VOp) (s : State) : Out := queueV 4 (.v .vfrece o) s
/-- VFRSQE (R173). -/
def execVfrsqe (o : VOp) (s : State) : Out := queueV 4 (.v .vfrsqe o) s
/-- VFSGN (R172). -/
def execVfsgn (o : VOp) (s : State) : Out := queueV 4 (.v .vfsgn o) s
/-- VFCLASS (R172). -/
def execVfclass (o : VOp) (s : State) : Out := queueV 4 (.v .vfclass o) s
/-- VFABS (R172). -/
def execVfabs (o : VOp) (s : State) : Out := queueV 4 (.v .vfabs o) s
/-- VFCVT_F2I (R174). -/
def execVfcvtF2i (o : VOp) (s : State) : Out := queueV 4 (.v .vfcvtF2i o) s
/-- VFCVT_F2U (R174). -/
def execVfcvtF2u (o : VOp) (s : State) : Out := queueV 4 (.v .vfcvtF2u o) s
/-- VFCVT_I2F (R174). -/
def execVfcvtI2f (o : VOp) (s : State) : Out := queueV 4 (.v .vfcvtI2f o) s
/-- VFCVT_U2F (R174). -/
def execVfcvtU2f (o : VOp) (s : State) : Out := queueV 4 (.v .vfcvtU2f o) s
/-- VFCVT_F2IZ (R174). -/
def execVfcvtF2iz (o : VOp) (s : State) : Out := queueV 4 (.v .vfcvtF2iz o) s
/-- VFCVT_F2UZ (R174). -/
def execVfcvtF2uz (o : VOp) (s : State) : Out := queueV 4 (.v .vfcvtF2uz o) s
/-- VFCVT_FWID (R174). -/
def execVfcvtFwid (o : VOp) (s : State) : Out := queueV 4 (.v .vfcvtFwid o) s
/-- VFCVT_FNAR (R174). -/
def execVfcvtFnar (o : VOp) (s : State) : Out := queueV 4 (.v .vfcvtFnar o) s
/-- VFCVT_FRND (R174). -/
def execVfcvtFrnd (o : VOp) (s : State) : Out := queueV 4 (.v .vfcvtFrnd o) s
/-- VFADD_VX (R161). -/
def execVfaddVx (o : VOp) (s : State) : Out := queueV 4 (.v .vfaddVx o) s
/-- VFSUB_VX (R161). -/
def execVfsubVx (o : VOp) (s : State) : Out := queueV 4 (.v .vfsubVx o) s
/-- VFMUL_VX (R161). -/
def execVfmulVx (o : VOp) (s : State) : Out := queueV 4 (.v .vfmulVx o) s
/-- VFDIV_VX (R161). -/
def execVfdivVx (o : VOp) (s : State) : Out := queueV 4 (.v .vfdivVx o) s
/-- VFMIN_VX (R161). -/
def execVfminVx (o : VOp) (s : State) : Out := queueV 4 (.v .vfminVx o) s
/-- VFMAX_VX (R161). -/
def execVfmaxVx (o : VOp) (s : State) : Out := queueV 4 (.v .vfmaxVx o) s
/-- VFMA_VX (R161). -/
def execVfmaVx (o : VOp) (s : State) : Out := queueV 4 (.v .vfmaVx o) s
/-- VFMS_VX (R161). -/
def execVfmsVx (o : VOp) (s : State) : Out := queueV 4 (.v .vfmsVx o) s
/-- VCMP_EQ (R175). -/
def execVcmpEq (o : VOp) (s : State) : Out := queueV 4 (.v .vcmpEq o) s
/-- VCMP_NE (R175). -/
def execVcmpNe (o : VOp) (s : State) : Out := queueV 4 (.v .vcmpNe o) s
/-- VCMP_LT (R175). -/
def execVcmpLt (o : VOp) (s : State) : Out := queueV 4 (.v .vcmpLt o) s
/-- VCMP_GE (R175). -/
def execVcmpGe (o : VOp) (s : State) : Out := queueV 4 (.v .vcmpGe o) s
/-- VCMP_LTU (R175). -/
def execVcmpLtu (o : VOp) (s : State) : Out := queueV 4 (.v .vcmpLtu o) s
/-- VCMP_GEU (R175). -/
def execVcmpGeu (o : VOp) (s : State) : Out := queueV 4 (.v .vcmpGeu o) s
/-- VFCMP_EQ (R176). -/
def execVfcmpEq (o : VOp) (s : State) : Out := queueV 4 (.v .vfcmpEq o) s
/-- VFCMP_LT (R176). -/
def execVfcmpLt (o : VOp) (s : State) : Out := queueV 4 (.v .vfcmpLt o) s
/-- VFCMP_LE (R176). -/
def execVfcmpLe (o : VOp) (s : State) : Out := queueV 4 (.v .vfcmpLe o) s
/-- VFCMP_NE (R176). -/
def execVfcmpNe (o : VOp) (s : State) : Out := queueV 4 (.v .vfcmpNe o) s
/-- VFCMP_UNORD (R176). -/
def execVfcmpUnord (o : VOp) (s : State) : Out := queueV 4 (.v .vfcmpUnord o) s
/-- VFCMP_ORD (R176). -/
def execVfcmpOrd (o : VOp) (s : State) : Out := queueV 4 (.v .vfcmpOrd o) s
/-- VREDSUM (R177). -/
def execVredsum (o : VOp) (s : State) : Out := queueV 4 (.v .vredsum o) s
/-- VREDMAX (R177). -/
def execVredmax (o : VOp) (s : State) : Out := queueV 4 (.v .vredmax o) s
/-- VREDMIN (R177). -/
def execVredmin (o : VOp) (s : State) : Out := queueV 4 (.v .vredmin o) s
/-- VREDMAXU (R177). -/
def execVredmaxu (o : VOp) (s : State) : Out := queueV 4 (.v .vredmaxu o) s
/-- VREDMINU (R177). -/
def execVredminu (o : VOp) (s : State) : Out := queueV 4 (.v .vredminu o) s
/-- VREDAND (R177). -/
def execVredand (o : VOp) (s : State) : Out := queueV 4 (.v .vredand o) s
/-- VREDOR (R177). -/
def execVredor (o : VOp) (s : State) : Out := queueV 4 (.v .vredor o) s
/-- VREDXOR (R177). -/
def execVredxor (o : VOp) (s : State) : Out := queueV 4 (.v .vredxor o) s
/-- VFREDSUM_O (R65). -/
def execVfredsumO (o : VOp) (s : State) : Out := queueV 4 (.v .vfredsumO o) s
/-- VFREDSUM_U (R66). -/
def execVfredsumU (o : VOp) (s : State) : Out := queueV 4 (.v .vfredsumU o) s
/-- VFREDMAX (R178). -/
def execVfredmax (o : VOp) (s : State) : Out := queueV 4 (.v .vfredmax o) s
/-- VFREDMIN (R178). -/
def execVfredmin (o : VOp) (s : State) : Out := queueV 4 (.v .vfredmin o) s
/-- VFSCAN_O (R67). -/
def execVfscanO (o : VOp) (s : State) : Out := queueV 4 (.v .vfscanO o) s
/-- VFSCAN_F (R67). -/
def execVfscanF (o : VOp) (s : State) : Out := queueV 4 (.v .vfscanF o) s
/-- VSCAN (R178). -/
def execVscan (o : VOp) (s : State) : Out := queueV 4 (.v .vscan o) s
/-- VSEGSCAN (R178). -/
def execVsegscan (o : VOp) (s : State) : Out := queueV 4 (.v .vsegscan o) s
/-- VCOMPRESS (R181). -/
def execVcompress (o : VOp) (s : State) : Out := queueV 4 (.v .vcompress o) s
/-- VEXPAND (R182). -/
def execVexpand (o : VOp) (s : State) : Out := queueV 4 (.v .vexpand o) s
/-- VPOPCPFX (R183). -/
def execVpopcpfx (o : VOp) (s : State) : Out := queueV 4 (.v .vpopcpfx o) s
/-- VCONFLICT (R184). -/
def execVconflict (o : VOp) (s : State) : Out := queueV 4 (.v .vconflict o) s
/-- VPRUNE (R185). -/
def execVprune (o : VOp) (s : State) : Out := queueV 4 (.v .vprune o) s
/-- VPERM (R187). -/
def execVperm (o : VOp) (s : State) : Out := queueV 4 (.v .vperm o) s
/-- VSLIDEUP (R188). -/
def execVslideup (o : VOp) (s : State) : Out := queueV 4 (.v .vslideup o) s
/-- VSLIDEDN (R188). -/
def execVslidedn (o : VOp) (s : State) : Out := queueV 4 (.v .vslidedn o) s
/-- VBCAST (R189). -/
def execVbcast (o : VOp) (s : State) : Out := queueV 4 (.v .vbcast o) s
/-- VMVVX (R191). -/
def execVmvvx (o : VOp) (s : State) : Out := queueV 4 (.v .vmvvx o) s
/-- VIOTA (R192). -/
def execViota (o : VOp) (s : State) : Out := queueV 4 (.v .viota o) s
/-- VQRD (R254). -/
def execVqrd (o : VOp) (s : State) : Out := queueV 4 (.v .vqrd o) s
/-- VMVCMPL (R192). -/
def execVmvcmpl (o : VOp) (s : State) : Out := queueV 4 (.v .vmvcmpl o) s
/-- WCOND (R197). -/
def execWcond (o : VOp) (s : State) : Out := queueV 4 (.v .wcond o) s
/-- WSIG (R198). -/
def execWsig (o : VOp) (s : State) : Out := queueV 4 (.v .wsig o) s
/-- WNOT (R199). -/
def execWnot (o : VOp) (s : State) : Out := queueV 4 (.v .wnot o) s
/-- WMUL (R199). -/
def execWmul (o : VOp) (s : State) : Out := queueV 4 (.v .wmul o) s
/-- WMIN (R199). -/
def execWmin (o : VOp) (s : State) : Out := queueV 4 (.v .wmin o) s
/-- WMAX (R199). -/
def execWmax (o : VOp) (s : State) : Out := queueV 4 (.v .wmax o) s
/-- WMV (R200). -/
def execWmv (o : VOp) (s : State) : Out := queueV 4 (.v .wmv o) s
/-- WMVV (R200). -/
def execWmvv (o : VOp) (s : State) : Out := queueV 4 (.v .wmvv o) s
/-- JOIN (R204). -/
def execJoin (o : VOp) (s : State) : Out := queueV 4 (.v .join o) s
/-- JGRAD (R205). -/
def execJgrad (o : VOp) (s : State) : Out := queueV 4 (.v .jgrad o) s
/-- WDCOND (R207). -/
def execWdcond (o : VOp) (s : State) : Out := queueV 4 (.v .wdcond o) s
/-- WDSIG (R208). -/
def execWdsig (o : VOp) (s : State) : Out := queueV 4 (.v .wdsig o) s
/-- WSCALE (R206). -/
def execWscale (o : VOp) (s : State) : Out := queueV 4 (.v .wscale o) s
/-- WCNT (R201). -/
def execWcnt (o : VOp) (s : State) : Out := queueV 4 (.v .wcnt o) s

end Sys2Proof.Machine
end

