-- ==== Sys2Proof/Machine/Dispatch.lean ====
section
/-! DEFINITION. The meaning of each constructor of Instr: one call for each row of the table of operations and events.
-/

namespace Sys2Proof.Machine

def exec (i : Instr) (s : State) : Host.Outcome State Fault Refusal :=
  match i with
  | .add o => Sys2Proof.Machine.execAdd o s
  | .sub o => Sys2Proof.Machine.execSub o s
  | .and o => Sys2Proof.Machine.execAnd o s
  | .or o => Sys2Proof.Machine.execOr o s
  | .xor o => Sys2Proof.Machine.execXor o s
  | .andn o => Sys2Proof.Machine.execAndn o s
  | .sll o => Sys2Proof.Machine.execSll o s
  | .srl o => Sys2Proof.Machine.execSrl o s
  | .sra o => Sys2Proof.Machine.execSra o s
  | .rol o => Sys2Proof.Machine.execRol o s
  | .slt o => Sys2Proof.Machine.execSlt o s
  | .sltu o => Sys2Proof.Machine.execSltu o s
  | .min o => Sys2Proof.Machine.execMin o s
  | .max o => Sys2Proof.Machine.execMax o s
  | .minu o => Sys2Proof.Machine.execMinu o s
  | .maxu o => Sys2Proof.Machine.execMaxu o s
  | .mul o => Sys2Proof.Machine.execMul o s
  | .mulh o => Sys2Proof.Machine.execMulh o s
  | .mulhu o => Sys2Proof.Machine.execMulhu o s
  | .div o => Sys2Proof.Machine.execDiv o s
  | .divu o => Sys2Proof.Machine.execDivu o s
  | .rem o => Sys2Proof.Machine.execRem o s
  | .remu o => Sys2Proof.Machine.execRemu o s
  | .clz o => Sys2Proof.Machine.execClz o s
  | .ctz o => Sys2Proof.Machine.execCtz o s
  | .popc o => Sys2Proof.Machine.execPopc o s
  | .bswap o => Sys2Proof.Machine.execBswap o s
  | .sext o => Sys2Proof.Machine.execSext o s
  | .zext o => Sys2Proof.Machine.execZext o s
  | .sel o => Sys2Proof.Machine.execSel o s
  | .addi o => Sys2Proof.Machine.execAddi o s
  | .andi o => Sys2Proof.Machine.execAndi o s
  | .ori o => Sys2Proof.Machine.execOri o s
  | .xori o => Sys2Proof.Machine.execXori o s
  | .slli o => Sys2Proof.Machine.execSlli o s
  | .srli o => Sys2Proof.Machine.execSrli o s
  | .srai o => Sys2Proof.Machine.execSrai o s
  | .slti o => Sys2Proof.Machine.execSlti o s
  | .lih o => Sys2Proof.Machine.execLih o s
  | .addpc o => Sys2Proof.Machine.execAddpc o s
  | .lb o => Sys2Proof.Machine.execLb o s
  | .lh o => Sys2Proof.Machine.execLh o s
  | .lw o => Sys2Proof.Machine.execLw o s
  | .ld o => Sys2Proof.Machine.execLd o s
  | .lbu o => Sys2Proof.Machine.execLbu o s
  | .lhu o => Sys2Proof.Machine.execLhu o s
  | .lwu o => Sys2Proof.Machine.execLwu o s
  | .sb o => Sys2Proof.Machine.execSb o s
  | .sh o => Sys2Proof.Machine.execSh o s
  | .sw o => Sys2Proof.Machine.execSw o s
  | .sd o => Sys2Proof.Machine.execSd o s
  | .beq o => Sys2Proof.Machine.execBeq o s
  | .bne o => Sys2Proof.Machine.execBne o s
  | .blt o => Sys2Proof.Machine.execBlt o s
  | .bge o => Sys2Proof.Machine.execBge o s
  | .bltu o => Sys2Proof.Machine.execBltu o s
  | .bgeu o => Sys2Proof.Machine.execBgeu o s
  | .bstrip o => Sys2Proof.Machine.execBstrip o s
  | .j off => Sys2Proof.Machine.execJ off s
  | .call off => Sys2Proof.Machine.execCall off s
  | .ji o => Sys2Proof.Machine.execJi o s
  | .calli o => Sys2Proof.Machine.execCalli o s
  | .ret => Sys2Proof.Machine.execRet s
  | .fadd o => Sys2Proof.Machine.execFadd o s
  | .fsub o => Sys2Proof.Machine.execFsub o s
  | .fmul o => Sys2Proof.Machine.execFmul o s
  | .fdiv o => Sys2Proof.Machine.execFdiv o s
  | .fsqrt o => Sys2Proof.Machine.execFsqrt o s
  | .fma o => Sys2Proof.Machine.execFma o s
  | .fmin o => Sys2Proof.Machine.execFmin o s
  | .fmax o => Sys2Proof.Machine.execFmax o s
  | .fcmpeq o => Sys2Proof.Machine.execFcmpeq o s
  | .fcmplt o => Sys2Proof.Machine.execFcmplt o s
  | .fcmple o => Sys2Proof.Machine.execFcmple o s
  | .fclass o => Sys2Proof.Machine.execFclass o s
  | .fsgnj o => Sys2Proof.Machine.execFsgnj o s
  | .fsgnjn o => Sys2Proof.Machine.execFsgnjn o s
  | .fsgnjx o => Sys2Proof.Machine.execFsgnjx o s
  | .fcvtfi o => Sys2Proof.Machine.execFcvtfi o s
  | .fcvtif o => Sys2Proof.Machine.execFcvtif o s
  | .fcvtff o => Sys2Proof.Machine.execFcvtff o s
  | .amoadd o => Sys2Proof.Machine.execAmoadd o s
  | .amoand o => Sys2Proof.Machine.execAmoand o s
  | .amoor o => Sys2Proof.Machine.execAmoor o s
  | .amoxor o => Sys2Proof.Machine.execAmoxor o s
  | .amomin o => Sys2Proof.Machine.execAmomin o s
  | .amomax o => Sys2Proof.Machine.execAmomax o s
  | .amominu o => Sys2Proof.Machine.execAmominu o s
  | .amomaxu o => Sys2Proof.Machine.execAmomaxu o s
  | .amoswap o => Sys2Proof.Machine.execAmoswap o s
  | .amocas o => Sys2Proof.Machine.execAmocas o s
  | .lda o => Sys2Proof.Machine.execLda o s
  | .str o => Sys2Proof.Machine.execStr o s
  | .take o => Sys2Proof.Machine.execTake o s
  | .steal o => Sys2Proof.Machine.execSteal o s
  | .ticket o => Sys2Proof.Machine.execTicket o s
  | .trap code => Sys2Proof.Machine.execTrap code s
  | .eret => Sys2Proof.Machine.execEret s
  | .crd o => Sys2Proof.Machine.execCrd o s
  | .cwr o => Sys2Proof.Machine.execCwr o s
  | .crs o => Sys2Proof.Machine.execCrs o s
  | .crc o => Sys2Proof.Machine.execCrc o s
  | .wfe => Sys2Proof.Machine.execWfe s
  | .pause => Sys2Proof.Machine.execPause s
  | .fence scope kind => Sys2Proof.Machine.execFence scope kind s
  | .svfence => Sys2Proof.Machine.execSvfence s
  | .ifence => Sys2Proof.Machine.execIfence s
  | .vlsync => Sys2Proof.Machine.execVlsync s
  | .lafence scope => Sys2Proof.Machine.execLafence scope s
  | .tlbinv o => Sys2Proof.Machine.execTlbinv o s
  | .efence scope => Sys2Proof.Machine.execEfence scope s
  | .setvli o => Sys2Proof.Machine.execSetvli o s
  | .setvl o => Sys2Proof.Machine.execSetvl o s
  | .enq o => Sys2Proof.Machine.execEnq o s
  | .enqSlotWrite => Sys2Proof.Machine.execEnqSlotWrite s
  | .seqwait o => Sys2Proof.Machine.execSeqwait o s
  | .seqrd o => Sys2Proof.Machine.execSeqrd o s
  | .qbind o => Sys2Proof.Machine.execQbind o s
  | .qrd o => Sys2Proof.Machine.execQrd o s
  | .arrwait o => Sys2Proof.Machine.execArrwait o s
  | .waitSatisfied => Sys2Proof.Machine.execWaitSatisfied s
  | .gbar => Sys2Proof.Machine.execGbar s
  | .gbarRelease => Sys2Proof.Machine.execGbarRelease s
  | .watchSet o => Sys2Proof.Machine.execWatchSet o s
  | .watchClr o => Sys2Proof.Machine.execWatchClr o s
  | .savevq a => Sys2Proof.Machine.execSavevq a s
  | .restvq a => Sys2Proof.Machine.execRestvq a s
  | .restvqHead => Sys2Proof.Machine.execRestvqHead s
  | .vadd o => Sys2Proof.Machine.execVadd o s
  | .vsub o => Sys2Proof.Machine.execVsub o s
  | .vmul o => Sys2Proof.Machine.execVmul o s
  | .vmulh o => Sys2Proof.Machine.execVmulh o s
  | .vmulhu o => Sys2Proof.Machine.execVmulhu o s
  | .vmin o => Sys2Proof.Machine.execVmin o s
  | .vmax o => Sys2Proof.Machine.execVmax o s
  | .vminu o => Sys2Proof.Machine.execVminu o s
  | .vmaxu o => Sys2Proof.Machine.execVmaxu o s
  | .vand o => Sys2Proof.Machine.execVand o s
  | .vor o => Sys2Proof.Machine.execVor o s
  | .vxor o => Sys2Proof.Machine.execVxor o s
  | .vsll o => Sys2Proof.Machine.execVsll o s
  | .vsrl o => Sys2Proof.Machine.execVsrl o s
  | .vsra o => Sys2Proof.Machine.execVsra o s
  | .vabs o => Sys2Proof.Machine.execVabs o s
  | .vdiv o => Sys2Proof.Machine.execVdiv o s
  | .vdivu o => Sys2Proof.Machine.execVdivu o s
  | .vrem o => Sys2Proof.Machine.execVrem o s
  | .vremu o => Sys2Proof.Machine.execVremu o s
  | .vsadd o => Sys2Proof.Machine.execVsadd o s
  | .vssub o => Sys2Proof.Machine.execVssub o s
  | .vsaddu o => Sys2Proof.Machine.execVsaddu o s
  | .vssubu o => Sys2Proof.Machine.execVssubu o s
  | .vwmul o => Sys2Proof.Machine.execVwmul o s
  | .vwmulu o => Sys2Proof.Machine.execVwmulu o s
  | .vwmac o => Sys2Proof.Machine.execVwmac o s
  | .vwmacu o => Sys2Proof.Machine.execVwmacu o s
  | .vwmacsu o => Sys2Proof.Machine.execVwmacsu o s
  | .vnshr o => Sys2Proof.Machine.execVnshr o s
  | .vnshru o => Sys2Proof.Machine.execVnshru o s
  | .vmv o => Sys2Proof.Machine.execVmv o s
  | .vaddVx o => Sys2Proof.Machine.execVaddVx o s
  | .vsubVx o => Sys2Proof.Machine.execVsubVx o s
  | .vmulVx o => Sys2Proof.Machine.execVmulVx o s
  | .vmulhVx o => Sys2Proof.Machine.execVmulhVx o s
  | .vmulhuVx o => Sys2Proof.Machine.execVmulhuVx o s
  | .vminVx o => Sys2Proof.Machine.execVminVx o s
  | .vmaxVx o => Sys2Proof.Machine.execVmaxVx o s
  | .vminuVx o => Sys2Proof.Machine.execVminuVx o s
  | .vmaxuVx o => Sys2Proof.Machine.execVmaxuVx o s
  | .vandVx o => Sys2Proof.Machine.execVandVx o s
  | .vorVx o => Sys2Proof.Machine.execVorVx o s
  | .vxorVx o => Sys2Proof.Machine.execVxorVx o s
  | .vsllVx o => Sys2Proof.Machine.execVsllVx o s
  | .vsrlVx o => Sys2Proof.Machine.execVsrlVx o s
  | .vsraVx o => Sys2Proof.Machine.execVsraVx o s
  | .vdivVx o => Sys2Proof.Machine.execVdivVx o s
  | .vdivuVx o => Sys2Proof.Machine.execVdivuVx o s
  | .vremVx o => Sys2Proof.Machine.execVremVx o s
  | .vremuVx o => Sys2Proof.Machine.execVremuVx o s
  | .vsaddVx o => Sys2Proof.Machine.execVsaddVx o s
  | .vssubVx o => Sys2Proof.Machine.execVssubVx o s
  | .vsadduVx o => Sys2Proof.Machine.execVsadduVx o s
  | .vssubuVx o => Sys2Proof.Machine.execVssubuVx o s
  | .vwmulVx o => Sys2Proof.Machine.execVwmulVx o s
  | .vwmuluVx o => Sys2Proof.Machine.execVwmuluVx o s
  | .vwmacVx o => Sys2Proof.Machine.execVwmacVx o s
  | .vwmacuVx o => Sys2Proof.Machine.execVwmacuVx o s
  | .vwmacsuVx o => Sys2Proof.Machine.execVwmacsuVx o s
  | .vnshrVx o => Sys2Proof.Machine.execVnshrVx o s
  | .vnshruVx o => Sys2Proof.Machine.execVnshruVx o s
  | .vfadd o => Sys2Proof.Machine.execVfadd o s
  | .vfsub o => Sys2Proof.Machine.execVfsub o s
  | .vfmul o => Sys2Proof.Machine.execVfmul o s
  | .vfdiv o => Sys2Proof.Machine.execVfdiv o s
  | .vfmin o => Sys2Proof.Machine.execVfmin o s
  | .vfmax o => Sys2Proof.Machine.execVfmax o s
  | .vfma o => Sys2Proof.Machine.execVfma o s
  | .vfms o => Sys2Proof.Machine.execVfms o s
  | .vfnma o => Sys2Proof.Machine.execVfnma o s
  | .vfnms o => Sys2Proof.Machine.execVfnms o s
  | .vfsqrt o => Sys2Proof.Machine.execVfsqrt o s
  | .vfrece o => Sys2Proof.Machine.execVfrece o s
  | .vfrsqe o => Sys2Proof.Machine.execVfrsqe o s
  | .vfsgn o => Sys2Proof.Machine.execVfsgn o s
  | .vfclass o => Sys2Proof.Machine.execVfclass o s
  | .vfabs o => Sys2Proof.Machine.execVfabs o s
  | .vfcvtF2i o => Sys2Proof.Machine.execVfcvtF2i o s
  | .vfcvtF2u o => Sys2Proof.Machine.execVfcvtF2u o s
  | .vfcvtI2f o => Sys2Proof.Machine.execVfcvtI2f o s
  | .vfcvtU2f o => Sys2Proof.Machine.execVfcvtU2f o s
  | .vfcvtF2iz o => Sys2Proof.Machine.execVfcvtF2iz o s
  | .vfcvtF2uz o => Sys2Proof.Machine.execVfcvtF2uz o s
  | .vfcvtFwid o => Sys2Proof.Machine.execVfcvtFwid o s
  | .vfcvtFnar o => Sys2Proof.Machine.execVfcvtFnar o s
  | .vfcvtFrnd o => Sys2Proof.Machine.execVfcvtFrnd o s
  | .vfaddVx o => Sys2Proof.Machine.execVfaddVx o s
  | .vfsubVx o => Sys2Proof.Machine.execVfsubVx o s
  | .vfmulVx o => Sys2Proof.Machine.execVfmulVx o s
  | .vfdivVx o => Sys2Proof.Machine.execVfdivVx o s
  | .vfminVx o => Sys2Proof.Machine.execVfminVx o s
  | .vfmaxVx o => Sys2Proof.Machine.execVfmaxVx o s
  | .vfmaVx o => Sys2Proof.Machine.execVfmaVx o s
  | .vfmsVx o => Sys2Proof.Machine.execVfmsVx o s
  | .vcmpEq o => Sys2Proof.Machine.execVcmpEq o s
  | .vcmpNe o => Sys2Proof.Machine.execVcmpNe o s
  | .vcmpLt o => Sys2Proof.Machine.execVcmpLt o s
  | .vcmpGe o => Sys2Proof.Machine.execVcmpGe o s
  | .vcmpLtu o => Sys2Proof.Machine.execVcmpLtu o s
  | .vcmpGeu o => Sys2Proof.Machine.execVcmpGeu o s
  | .vfcmpEq o => Sys2Proof.Machine.execVfcmpEq o s
  | .vfcmpLt o => Sys2Proof.Machine.execVfcmpLt o s
  | .vfcmpLe o => Sys2Proof.Machine.execVfcmpLe o s
  | .vfcmpNe o => Sys2Proof.Machine.execVfcmpNe o s
  | .vfcmpUnord o => Sys2Proof.Machine.execVfcmpUnord o s
  | .vfcmpOrd o => Sys2Proof.Machine.execVfcmpOrd o s
  | .vredsum o => Sys2Proof.Machine.execVredsum o s
  | .vredmax o => Sys2Proof.Machine.execVredmax o s
  | .vredmin o => Sys2Proof.Machine.execVredmin o s
  | .vredmaxu o => Sys2Proof.Machine.execVredmaxu o s
  | .vredminu o => Sys2Proof.Machine.execVredminu o s
  | .vredand o => Sys2Proof.Machine.execVredand o s
  | .vredor o => Sys2Proof.Machine.execVredor o s
  | .vredxor o => Sys2Proof.Machine.execVredxor o s
  | .vfredsumO o => Sys2Proof.Machine.execVfredsumO o s
  | .vfredsumU o => Sys2Proof.Machine.execVfredsumU o s
  | .vfredmax o => Sys2Proof.Machine.execVfredmax o s
  | .vfredmin o => Sys2Proof.Machine.execVfredmin o s
  | .vfscanO o => Sys2Proof.Machine.execVfscanO o s
  | .vfscanF o => Sys2Proof.Machine.execVfscanF o s
  | .vscan o => Sys2Proof.Machine.execVscan o s
  | .vsegscan o => Sys2Proof.Machine.execVsegscan o s
  | .vldUnit o => Sys2Proof.Machine.execVldUnit o s
  | .vldStrided o => Sys2Proof.Machine.execVldStrided o s
  | .vldIndexed o => Sys2Proof.Machine.execVldIndexed o s
  | .vldff o => Sys2Proof.Machine.execVldff o s
  | .vstUnit o => Sys2Proof.Machine.execVstUnit o s
  | .vstStrided o => Sys2Proof.Machine.execVstStrided o s
  | .vstIndexed o => Sys2Proof.Machine.execVstIndexed o s
  | .vstbUnit o => Sys2Proof.Machine.execVstbUnit o s
  | .vstbStrided o => Sys2Proof.Machine.execVstbStrided o s
  | .vstbIndexed o => Sys2Proof.Machine.execVstbIndexed o s
  | .vamoadd o => Sys2Proof.Machine.execVamoadd o s
  | .vamoand o => Sys2Proof.Machine.execVamoand o s
  | .vamoor o => Sys2Proof.Machine.execVamoor o s
  | .vamoxor o => Sys2Proof.Machine.execVamoxor o s
  | .vamomin o => Sys2Proof.Machine.execVamomin o s
  | .vamomax o => Sys2Proof.Machine.execVamomax o s
  | .vamoswap o => Sys2Proof.Machine.execVamoswap o s
  | .vscaddD o => Sys2Proof.Machine.execVscaddD o s
  | .vscaddU o => Sys2Proof.Machine.execVscaddU o s
  | .vscaddReplayGroup => Sys2Proof.Machine.execVscaddReplayGroup s
  | .vldkUnit o => Sys2Proof.Machine.execVldkUnit o s
  | .vldkStrided o => Sys2Proof.Machine.execVldkStrided o s
  | .vcompress o => Sys2Proof.Machine.execVcompress o s
  | .vexpand o => Sys2Proof.Machine.execVexpand o s
  | .vpopcpfx o => Sys2Proof.Machine.execVpopcpfx o s
  | .vconflict o => Sys2Proof.Machine.execVconflict o s
  | .vprune o => Sys2Proof.Machine.execVprune o s
  | .vperm o => Sys2Proof.Machine.execVperm o s
  | .vslideup o => Sys2Proof.Machine.execVslideup o s
  | .vslidedn o => Sys2Proof.Machine.execVslidedn o s
  | .vbcast o => Sys2Proof.Machine.execVbcast o s
  | .vmvxv o => Sys2Proof.Machine.execVmvxv o s
  | .vmvvx o => Sys2Proof.Machine.execVmvvx o s
  | .viota o => Sys2Proof.Machine.execViota o s
  | .vqrd o => Sys2Proof.Machine.execVqrd o s
  | .vmvcmpl o => Sys2Proof.Machine.execVmvcmpl o s
  | .wcond o => Sys2Proof.Machine.execWcond o s
  | .wsig o => Sys2Proof.Machine.execWsig o s
  | .wnot o => Sys2Proof.Machine.execWnot o s
  | .wmul o => Sys2Proof.Machine.execWmul o s
  | .wmin o => Sys2Proof.Machine.execWmin o s
  | .wmax o => Sys2Proof.Machine.execWmax o s
  | .wmv o => Sys2Proof.Machine.execWmv o s
  | .wmvv o => Sys2Proof.Machine.execWmvv o s
  | .join o => Sys2Proof.Machine.execJoin o s
  | .jgrad o => Sys2Proof.Machine.execJgrad o s
  | .wdcond o => Sys2Proof.Machine.execWdcond o s
  | .wdsig o => Sys2Proof.Machine.execWdsig o s
  | .wscale o => Sys2Proof.Machine.execWscale o s
  | .wcnt o => Sys2Proof.Machine.execWcnt o s
  | .farm o => Sys2Proof.Machine.execFarm o s
  | .wloop o => Sys2Proof.Machine.execWloop o s
  | .vsave o => Sys2Proof.Machine.execVsave o s
  | .vrest o => Sys2Proof.Machine.execVrest o s
  | .cAddi o => Sys2Proof.Machine.execCAddi o s
  | .cLi o => Sys2Proof.Machine.execCLi o s
  | .cMv o => Sys2Proof.Machine.execCMv o s
  | .cAdd o => Sys2Proof.Machine.execCAdd o s
  | .cSub o => Sys2Proof.Machine.execCSub o s
  | .cLd o => Sys2Proof.Machine.execCLd o s
  | .cSd o => Sys2Proof.Machine.execCSd o s
  | .cJ off => Sys2Proof.Machine.execCJ off s
  | .cBeqz o => Sys2Proof.Machine.execCBeqz o s
  | .cBnez o => Sys2Proof.Machine.execCBnez o s
  | .cRet => Sys2Proof.Machine.execCRet s
  | .cNop => Sys2Proof.Machine.execCNop s
  | .cVgap n => Sys2Proof.Machine.execCVgap n s
  | .cTrap0 => Sys2Proof.Machine.execCTrap0 s
  | .mtld o => Sys2Proof.Machine.execMtld o s
  | .mrow o => Sys2Proof.Machine.execMrow o s
  | .maclr o => Sys2Proof.Machine.execMaclr o s
  | .mard o => Sys2Proof.Machine.execMard o s
  | .mawr o => Sys2Proof.Machine.execMawr o s
  | .mast o => Sys2Proof.Machine.execMast o s
  | .steGrant => Sys2Proof.Machine.execSteGrant s
  | .lacfg o => Sys2Proof.Machine.execLacfg o s
  | .laeval o => Sys2Proof.Machine.execLaeval o s
  | .lavote o => Sys2Proof.Machine.execLavote o s
  | .latrain o => Sys2Proof.Machine.execLatrain o s
  | .lafb o => Sys2Proof.Machine.execLafb o s
  | .lastl o => Sys2Proof.Machine.execLastl o s
  | .lasts o => Sys2Proof.Machine.execLasts o s
  | .latbl o => Sys2Proof.Machine.execLatbl o s
  | .laseed o => Sys2Proof.Machine.execLaseed o s
  | .rasdFlush x => Sys2Proof.Machine.execRasdFlush x s
  | .qsRebind n x => Sys2Proof.Machine.execQsRebind n x s
  | .vlWrite x => Sys2Proof.Machine.execVlWrite x s
  | .vtypeWrite x => Sys2Proof.Machine.execVtypeWrite x s
  | .registerWrite r x => Sys2Proof.Machine.execRegisterWrite r x s
  | .gmblimWrite x => Sys2Proof.Machine.execGmblimWrite x s
  | .semRead p => Sys2Proof.Machine.execSemRead p s
  | .semRelease p => Sys2Proof.Machine.execSemRelease p s
  | .pushgo p x => Sys2Proof.Machine.execPushgo p x s
  | .norProgram => Sys2Proof.Machine.execNorProgram s
  | .mbreq src addr => Sys2Proof.Machine.execMbreq src addr s
  | .reqLoad => Sys2Proof.Machine.execReqLoad s
  | .reqAttest => Sys2Proof.Machine.execReqAttest s
  | .reqDrain => Sys2Proof.Machine.execReqDrain s
  | .returnCluster => Sys2Proof.Machine.execReturnCluster s
  | .reqRetire => Sys2Proof.Machine.execReqRetire s
  | .requestComplete => Sys2Proof.Machine.execRequestComplete s
  | .engineCommandStart e => Sys2Proof.Machine.execEngineCommandStart e s
  | .engVoid e => Sys2Proof.Machine.execEngVoid e s
  | .engCopy e => Sys2Proof.Machine.execEngCopy e s
  | .engCopy2d e => Sys2Proof.Machine.execEngCopy2d e s
  | .engCopyd e => Sys2Proof.Machine.execEngCopyd e s
  | .engFill e => Sys2Proof.Machine.execEngFill e s
  | .engRowgather e => Sys2Proof.Machine.execEngRowgather e s
  | .pgmode d => Sys2Proof.Machine.execPgmode d s
  | .pgzero d => Sys2Proof.Machine.execPgzero d s
  | .hotread d => Sys2Proof.Machine.execHotread d s
  | .hotclear d => Sys2Proof.Machine.execHotclear d s
  | .migrate d => Sys2Proof.Machine.execMigrate d s
  | .migfreezeMessage => Sys2Proof.Machine.execMigfreezeMessage s
  | .engineCommandComplete e => Sys2Proof.Machine.execEngineCommandComplete e s
  | .engineCommandFault e => Sys2Proof.Machine.execEngineCommandFault e s
  | .chainResume e => Sys2Proof.Machine.execChainResume e s
  | .streamBufferResume e => Sys2Proof.Machine.execStreamBufferResume e s
  | .lineRecall => Sys2Proof.Machine.execLineRecall s
  | .partialWriteMerge pa data => Sys2Proof.Machine.execPartialWriteMerge pa data s
  | .l2Writeback blk => Sys2Proof.Machine.execL2Writeback blk s
  | .helmWalk => Sys2Proof.Machine.execHelmWalk s
  | .rampSlotStart => Sys2Proof.Machine.execRampSlotStart s
  | .gimbalCapStep pwr => Sys2Proof.Machine.execGimbalCapStep pwr s
  | .ballastTaperStep => Sys2Proof.Machine.execBallastTaperStep s
  | .releaseCapStep => Sys2Proof.Machine.execReleaseCapStep s
  | .elementGroupIssue => Sys2Proof.Machine.execElementGroupIssue s
  | .registerFull isW n => Sys2Proof.Machine.execRegisterFull isW n s
  | .hartRetire => Sys2Proof.Machine.execHartRetire s
  | .hartYield => Sys2Proof.Machine.execHartYield s
  | .preemptTimeout => Sys2Proof.Machine.execPreemptTimeout s
  | .trapEntry => Sys2Proof.Machine.execTrapEntry s
  | .wfeWake => Sys2Proof.Machine.execWfeWake s
  | .wfeTimeout => Sys2Proof.Machine.execWfeTimeout s
  | .pauseEnd => Sys2Proof.Machine.execPauseEnd s
  | .sampleTag => Sys2Proof.Machine.execSampleTag s
  | .sampleRecord => Sys2Proof.Machine.execSampleRecord s
  | .uncorrectableError k addr => Sys2Proof.Machine.execUncorrectableError k addr s
  | .softError inHart => Sys2Proof.Machine.execSoftError inHart s
  | .faultMessage => Sys2Proof.Machine.execFaultMessage s
  | .flitRetry l => Sys2Proof.Machine.execFlitRetry l s
  | .linkDown l => Sys2Proof.Machine.execLinkDown l s
  | .linkUp l peer => Sys2Proof.Machine.execLinkUp l peer s
  | .portLinkDown p => Sys2Proof.Machine.execPortLinkDown p s
  | .hostAccess p acc => Sys2Proof.Machine.execHostAccess p acc s
  | .moduleReset => Sys2Proof.Machine.execModuleReset s
  | .kernelStart => Sys2Proof.Machine.execKernelStart s
  | .bootReady => Sys2Proof.Machine.execBootReady s
  | .worldSet b secure => Sys2Proof.Machine.execWorldSet b secure s
  | .thermalThrottle => Sys2Proof.Machine.execThermalThrottle s
  | .thermalCutoff => Sys2Proof.Machine.execThermalCutoff s
  | .peerAccess l acc => Sys2Proof.Machine.execPeerAccess l acc s
  | .powerLoss => Sys2Proof.Machine.execPowerLoss s

end Sys2Proof.Machine
end

