-- ==== Sys2Proof/Machine/Place.lean ====
section
/-! DEFINITION. The state that stands for a launch by the Helm (R326 to R328) of one hart whose first instruction is
given: page tables, the code page and the hart's launch-set fields. -/

namespace Sys2Proof.Machine

/-- Physical addresses of the tables and the code page that stand for the loader's. -/
def rootTable : Nat := 0x10000
/-- Level-1 table. -/
def midTable : Nat := 0x20000
/-- Level-2 table. -/
def leafTable : Nat := 0x30000
/-- Code frame. -/
def codeFrame : Nat := 0x40000

/-- A leaf PTE of a frame: valid, R, W, X, U, with A and D set (Table 12-3). -/
def leafPte (frame : Nat) : Nat := frame + 0x19F

/-- Three levels of table that map virtual page 0x10000 to the code frame. -/
def loaderTables (m : Memory) : Memory :=
  writeNat (writeNat (writeNat m rootTable 8 (midTable + 1)) midTable 8 (leafTable + 1)) (leafTable + 8) 8
    (leafPte codeFrame)

/-- The launch of one hart that fetches the given bytes next: U, its entry at 0x10000, its page mapped and no other
translation kept, a handler base, and the register values of R34 as the state holds them. -/
def State.placeForFetch (s : State) (bytes : List Byte) : State :=
  let core := coreOf s.hart.csr.hartid
  { s.setCore core { s.coreSt core with tlb := [] } with
    agenda := []
    loose := false
    mem := writeBytes (loaderTables s.mem) codeFrame bytes
    hart := { s.hart with
      pc := 0x10000
      run := .running
      ptroot := some (BitVec.ofNat 48 rootTable)
      csr := { s.hart.csr with tvec := 0x10040 } } }

end Sys2Proof.Machine
end

