-- ==== Sys2Proof/Machine/Step.lean ====
section
/-! DEFINITION. One step of the module: a turn of the agenda; or one arithmetic cycle, in which what the clock brings
and the vector units go first, then a pending asynchronous cause, the agents and the other harts in their slice, or
the front-end of the hart whose turn it is, which executes one instruction. -/

namespace Sys2Proof.Machine

/-- The outcome of an instruction at an address with what follows every instruction. -/
def afterInstr (pc : Word) : Out → Out
  | .next s => .next (s.retired pc)
  | .fault r => .fault r
  | .refused r => .refused r

/-- Fetch, decode and execute (R69, R70, R95); `late` says that a plain load may be passed before it performs. While the
fetch waits, the rest of the module goes on. -/
noncomputable def stepInstr (late : Bool) (s : State) : Out :=
  match fetch s with
  | .fault f u => .next (u.fetchFault f)
  | .wait => if s.hart.run == .stalled then .next s else idle s
  | .ok (s1, w) =>
    match decodeWord w with
    | some i => afterInstr s.hart.pc (frontExec late i (exec i) (s1.ready w))
    | none => afterInstr s.hart.pc (.next ((s1.ready w).trapIll (BitVec.ofNat 64 w)))

/-- An instruction that has waited is tried again; while it still waits, the rest of the module goes on. -/
def afterRetry : Out → Out
  | .next t => if t.hart.run == .stalled then idle t else .next t
  | .fault r => .fault r
  | .refused r => .refused r

/-- The front-end's part of a step. -/
noncomputable def stepFront (late : Bool) (s : State) : Out :=
  match s.hart.run with
  | .running => stepInstr late s
  | .stalled => afterRetry (stepInstr late s)
  | .peer _ _ _ => afterRetry (stepInstr late s)
  | _ => idle s

/-- One cycle, after the clock has gone on. At the boundary the vector unit's cause comes first (R357). -/
noncomputable def stepOwn (late : Bool) (s : State) : Out :=
  let u := s.cycleStart
  if (asyncCause u.hart).isSome then execTrapEntry u
  else match if u.sliceDue then background u else none with
    | some t => .next t
    | none => stepFront late u

/-- Input power returns with a module reset. -/
def powersUp : Turn → Bool
  | .event .moduleReset => true
  | _ => false

/-- A turn of the agenda. -/
noncomputable def takeTurn (t : Turn) (s : State) : Out :=
  match t with
  | .event i => eventTurn i (exec i) s
  | .hart n => .next (s.switchTo n)
  | .cycle => stepOwn false s.partAllBlends.tick
  | .late => stepOwn true s.partAllBlends.tick
  | .loosen => .next { s with loose := true }
  | .elements k m => .next ((s.onHart (·.partBlends (some k))).elementsTurn k false m)
  | .fetch k m => .next ((s.onHart (·.partBlends (some k))).elementsTurn k true m)
  | .arrive k => .next ((s.onHart (·.partBlends none)).arriveTurn k)
  | .stepRows => .next s.stepRowsTurn
  | .row cluster n => .next (s.rowTurn cluster n)
  | .cut l i kept => .next (s.cutTurn l i (exec i) kept)
  | .perform k => .next ((s.onHart (·.partBlends none)).performTurn k)
  | .takeXlat va => .next (s.takeXlat va)
  | .dropXlat core n => .next (s.dropXlat core n)
  | .takeLine b => .next (s.takeLine b)
  | .dropLine b => .next (s.dropLine b)
  | .peerWrite peer off b => .next (s.peerWrite peer off b)
  | .peerOwn lo len => .next (s.peerOwn lo len)
  | .peerLine lo bs => .next (s.peerLine lo bs)
  | .peerYield => .next s.peerYield
  | .flitSent l => .next (s.flitSent l)
  | .heat hot => .next { s with hotDies := hot }

/-- One step. -/
noncomputable def step (s : State) : Host.Outcome State Fault Refusal :=
  match s.agenda with
  | [] =>
    if !s.powered then .fault .poweredOff
    else if s.loose then .next s.tighten
    else stepOwn false s.tick
  | t :: rest =>
    if !s.powered && !powersUp t then .fault .poweredOff
    else takeTurn t { s with agenda := rest }

/-- The state with an instruction stored where the hart fetches next, the hart placed and its page mapped (log entry
2). -/
def State.withFetchWord (s : State) (nbits w : Nat) : State := s.placeForFetch (leBytes 8 (w % 2 ^ nbits))

end Sys2Proof.Machine
end

