-- ==== Sys2Proof/Safety.lean ====
section
/-! DEFINITION. What counts as a safe run, and the terms in which the claims speak: the forms that every state keeps,
what an instruction leaves unchanged, and when an instruction completes. -/

namespace Sys2Proof.Machine

/-- An outcome is a next state. -/
def goesOn : Out → Bool
  | .next _ => true
  | .fault _ => false
  | .refused _ => false

/-- Every sparse memory of the state is in its canonical form. -/
def State.memoriesWf (s : State) : Bool :=
  memWf s.mem && memWf s.acc && memWf s.slots && memWf s.cells && memWf s.nor

/-- Numbers that are at least `lo` and strictly rise. -/
def risingFrom : Nat → List Nat → Bool
  | _, [] => true
  | lo, a :: r => decide (lo ≤ a) && risingFrom (a + 1) r

/-- Every sparse map of the state, memories and records alike, and every set of numbers is in its canonical form. -/
def State.mapsWf (s : State) : Bool :=
  s.memoriesWf && risingFrom 0 s.ctl.watch && risingFrom 0 s.ctl.bad && risingFrom 0 s.ctl.lines &&
    risingFrom 0 s.ctl.dirty && mapWf CoreSt.reset s.cores && mapWf ClusterSt.reset s.clusters && mapWf (0, 0) s.wrg &&
    mapWf 0 s.ctl.blockMeta && mapWf [] s.ctl.sectors && mapWf false s.ctl.compressed && mapWf 0 s.ctl.hotness && mapWf [] s.ctl.moves &&
    mapWf 0 s.helm.rise && mapWf 0 s.helm.fall && mapWf 0 s.ringCount

end Sys2Proof.Machine

namespace Sys2Proof.Spec

open Sys2Proof.Machine

/-! ### Frames -/

/-- Every byte of memory reads in `t` as in `s`. -/
def SameBytes (s t : State) : Prop := ∀ loc : Nat, readByte t.mem loc = readByte s.mem loc

/-- Every byte of memory outside `n` bytes from `lo` up reads in `t` as in `s`. -/
def SameOutside (lo n : Nat) (s t : State) : Prop :=
  ∀ loc : Nat, loc < lo ∨ lo + n ≤ loc → readByte t.mem loc = readByte s.mem loc

/-- `t` is `s` but for bytes of memory and what the controllers keep of the blocks that hold them: a block's metadata
entry and sectors, or that its line in L2 is modified (R266, R274). -/
def OnlyBytes (s t : State) : Prop :=
  t = { s with
    mem := t.mem
    ctl := { s.ctl with blockMeta := t.ctl.blockMeta, sectors := t.ctl.sectors, dirty := t.ctl.dirty } }

/-- `t` is `s` but for the general registers and PC: every flag, control register, vector register, queue and memory,
and every other hart, core, engine and register of the module, is as before. -/
def OnlyGPc (s t : State) : Prop := t = { s with hart := { s.hart with g := t.hart.g, pc := t.hart.pc } }

/-- The effect of an instruction that writes one general register (g0 discards the write, R14) and falls through:
everything else is as before. -/
structure Writes (len : Nat) (d : Reg) (x : Word) (s t : State) : Prop where
  value : d ≠ 0 → t.getG d = x
  others : ∀ r : Reg, r ≠ d → t.getG r = s.getG r
  pc : t.hart.pc = s.hart.pc + BitVec.ofNat 64 len
  frame : OnlyGPc s t
  bytes : SameBytes s t

/-- Likewise for an instruction that also sets flags and writes no other register: FFLAGS and IFLAGS gain the given bits
and no element index is written (R31). -/
structure WritesFlags (len : Nat) (d : Reg) (x : Word) (fflags : BitVec 7) (iflags : BitVec 3) (s t : State) : Prop where
  value : d ≠ 0 → t.getG d = x
  others : ∀ r : Reg, r ≠ d → t.getG r = s.getG r
  pc : t.hart.pc = s.hart.pc + BitVec.ofNat 64 len
  fflags : t.hart.csr.fflags = s.hart.csr.fflags ||| fflags
  iflags : t.hart.csr.iflags = s.hart.csr.iflags ||| iflags
  frame : t = { s with hart := { s.hart with
    g := t.hart.g, pc := t.hart.pc, csr := { s.hart.csr with fflags := t.hart.csr.fflags, iflags := t.hart.csr.iflags } } }
  bytes : SameBytes s t

/-- The effect of an instruction that only moves PC. -/
structure Jumps (pc : Word) (s t : State) : Prop where
  pc : t.hart.pc = pc
  frame : t = { s with hart := { s.hart with pc := t.hart.pc } }
  bytes : SameBytes s t

/-- No write waits in a lane group's store queue of the hart. -/
def LanesEmpty (s : State) : Prop := ∀ p ∈ s.hart.pend, p.lane = none

/-- A trap that the hart takes at `epc`, in the class and with the values given (R353): what the registers become, what
stays, and that no byte of memory and no other hart changes when no log is open and no element write waits. -/
structure Traps (k : Trap) (epc : Word) (s t : State) : Prop where
  pc : t.hart.pc = handlerOf s.hart.csr.tvec k.code
  epc : t.hart.csr.epc = epc &&& 0xFFFFFFFFFFFFE
  cause : t.hart.csr.cause = causeWord k.code k.cls
  tval : t.hart.csr.tval = k.tval
  taux : t.hart.csr.taux = k.taux
  ppriv : t.hart.csr.status.ppriv = s.hart.csr.status.priv
  pie : t.hart.csr.status.pie = s.hart.csr.status.ie
  priv : t.hart.csr.status.priv = true
  ie : t.hart.csr.status.ie = false
  strip : t.hart.strip.valid = false
  vtype : t.hart.trapVtype = if s.hart.csr.status.priv then s.hart.trapVtype else tailVtype s.hart
  frozen : t.hart.frozen = (!s.hart.tiles.isEmpty || !s.hart.viq.isEmpty)
  regs : t.hart.g = s.hart.g ∧ t.hart.v = s.hart.v ∧ t.hart.w = s.hart.w ∧ t.hart.k = s.hart.k
  quiet : s.hart.csr.stripEn = false → LanesEmpty s → t.others = s.others ∧ SameBytes s t

/-- Traps can be taken: TVEC.BASE is not 0 (R350). -/
def HasHandler (s : State) : Prop := s.hart.csr.tvec &&& 0xFFFFFFFFFFFC0 ≠ 0

/-! ### Accesses -/

/-- The `n` bytes at `va` are reached: they translate to the targets `ts`, which leaves the state `s1` (A and D bits),
and no other engine owns a line of them (R269, R311). -/
def Reaches (s : State) (ag : Agent) (via : Via) (k : Kind) (va : Word) (n : Nat) (s1 : State) (ts : List Target) : Prop :=
  locate ag via k (n / 4096 + 2) s va n = .ok (s1, ts) ∧ ts.any (s1.ownedTarget ag.engine) = false

/-- No watch bit is hit, or the hart runs in S (R372). -/
def Unwatched (s s1 : State) (ts : List Target) : Prop := s.hart.csr.status.priv = true ∨ ts.any s1.watchedTarget = false

/-- No block among the targets has an uncorrectable error. -/
def Sound (s1 : State) (ts : List Target) : Prop := ts.any s1.badTarget = false

/-- The bytes at targets as a number (R5). -/
def numberAt (s1 : State) (ag : Agent) (ts : List Target) : Nat := leNat (ts.map (targetByte s1 ag))

/-- The bytes at targets as a number as the scalar path of the hart reads them: its own waiting scalar stores to them
have performed (R289 row 1). -/
def numberSeen (s1 : State) (ag : Agent) (ts : List Target) : Nat := numberAt (s1.afterOwn ag ts) ag ts

/-- How a scalar load or store of `n` bytes reaches memory. -/
def viaOf (n : Nat) : Via := if n = 8 then .plain8 else .scalar

/-! ### Vector instructions -/

/-- The VIQ entry that the front-end makes of an instruction (R11). -/
def entryOf (s : State) (v : VInstr) : Held := makeEntry s.hart v ((soqRegs v).map s.getG) []

/-- The state in which the front-end has queued the entry, and stands past the instruction. -/
noncomputable def queued (s : State) (v : VInstr) : State :=
  (s.onHart (·.enqueue (entryOf s v))).advance (instrLen v.toInstr)

/-- A compiler-directed partition moves on to the hart whose turn comes before it uses a slot (R338). -/
noncomputable def moved (s : State) : State := if s.hart.csr.status.cd then directedMove s else s

/-- The state in which the vector unit takes the entry up: PC past it, the entry queued, an issue slot used. -/
noncomputable def issuing (s : State) (v : VInstr) : State :=
  (moved (queued s v)).onHart fun h => { h with used := h.used ||| 1 }

/-- Another hart is bound to the partition of the hart whose turn it is. -/
def SharesPartition (s : State) (h : Hart) : Prop :=
  h.run ≠ .vacant ∧ coreOf h.csr.hartid = coreOf s.hart.csr.hartid ∧ h.partition = s.hart.partition

/-- The vector unit is free to take up the next instruction of the hart in the cycle in which the front-end queues it:
the hart is placed, nothing of it is queued, issuing, frozen or, in a deterministic region, filling; the other harts
of its partition have nothing to issue, and the partition has used no slot and gives the hart the next one (R335,
R336, R338). -/
structure VIdle (s : State) : Prop where
  placed : s.hart.run ≠ .vacant
  unique : ∀ h ∈ s.others, h.run ≠ .vacant → h.csr.hartid ≠ s.hart.csr.hartid
  queue : s.hart.viq = []
  groups : s.hart.groups = 0
  tiles : s.hart.tiles = []
  thawed : s.hart.frozen = false
  filled : s.hart.csr.status.det = true → s.hart.filling = []
  turns : s.loose = false
  gap : s.hart.csr.status.cd = true → s.hart.vgap = 0
  stays : s.hart.csr.status.cd = true →
    mapGet 8 (s.coreSt s.core).cdSlot s.hart.partition.val ∈ [8, slotOf s.hart.csr.hartid]
  slot : s.hart.used.getLsbD 0 = false
  idle : s.hart.idleTo ≤ s.time
  cap : s.capped s.hart = false
  others : ∀ h ∈ s.others, SharesPartition s h →
    h.viq = [] ∧ h.groups = 0 ∧ h.tiles = [] ∧ h.credit = 0 ∧ h.waits = 0 ∧ h.used.getLsbD 0 = false ∧ h.idleTo ≤ s.time ∧
      h.sSeen = false

/-- The vector unit is free and STATUS.VS is not OFF (R28). -/
def VReady (s : State) : Prop := VIdle s ∧ s.hart.csr.status.vs ≠ 0

/-- No cause of R358 bars the entry: the world and configuration of an array, VTYPE, the tile checks, DETVIOL, OVERLAP,
CONVOY and EMPTY all let it run. -/
noncomputable def Admitted (s : State) (v : VInstr) : Prop := gate (issuing s v) (entryOf s v) false = .open

/-- The partition's bookkeeping in a core: nothing but the hart with which a compiler-directed one stays (R338). -/
def SameCores (s t : State) : Prop := ∀ n : Nat, t.coreSt n = { s.coreSt n with cdSlot := (t.coreSt n).cdSlot }

/-- What a completed vector instruction that touches no memory may change, and what it leaves: the registers it writes
are those of the lists, its flags, VDIRTY and STATUS.VS, the counters, and the bookkeeping of its queue entry and of
its issue slot. Every byte of memory, of the accumulators, of the slots and of the array is as before, and so are the
general registers, the scale registers, and every other control register. VSTART is 0 (R32). -/
structure VFrame (v : VInstr) (vregs : List Reg) (wregs : List (Fin 8)) (s t : State) : Prop where
  pc : t.hart.pc = s.hart.pc + BitVec.ofNat 64 (instrLen v.toInstr)
  vstart : t.hart.csr.vstart = 0
  queue : t.hart.viq = []
  vkeep : ∀ r : Reg, r ∉ vregs → t.hart.getV r = s.hart.getV r
  wkeep : ∀ (w : Fin 8), w ∉ wregs → ∀ i : Nat, t.hart.rawW w i = s.hart.rawW w i
  cores : SameCores s t
  frame : t = { s with cores := t.cores, hart := { s.hart with
    pc := t.hart.pc, v := t.hart.v, w := t.hart.w, groups := t.hart.groups, convoy := t.hart.convoy, gone := t.hart.gone
    used := t.hart.used, credit := t.hart.credit, waits := t.hart.waits, sSeen := t.hart.sSeen
    openStrip := t.hart.openStrip
    headTrapped := false, mask := 0, maskValid := false, watchHit := none, tag := t.hart.tag, tagDone := t.hart.tagDone
    csr := { s.hart.csr with
      vstart := 0, vdirty := t.hart.csr.vdirty, fflags := t.hart.csr.fflags, iflags := t.hart.csr.iflags
      firstx := t.hart.csr.firstx, firstxi := t.hart.csr.firstxi, evcnt := t.hart.csr.evcnt
      status := { s.hart.csr.status with vs := t.hart.csr.status.vs } } } }
  bytes : SameBytes s t

end Sys2Proof.Spec
end

