-- ==== Sys2Proof/Certificates/Slice0/Obligations.lean ====
section
/-! DEFINITION. The statements for the provers, with the tables of the manual's members that they range over. -/

namespace Sys2Proof.Spec

open Sys2Proof.Machine

/-! ### Scalar integer instructions (R113 to R117, R92) -/

/-- Table 05-1: the three-register members without flags, with their function of g[a] and g[b]. -/
def aluTable : List ((R3 → Instr) × (Word → Word → Word)) :=
  [(.add, fun a b => a + b), (.sub, fun a b => a - b), (.and, fun a b => a &&& b), (.or, fun a b => a ||| b),
    (.xor, fun a b => a ^^^ b), (.andn, fun a b => a &&& ~~~b), (.sll, fun a b => a <<< (b.toNat % 64)),
    (.srl, fun a b => a >>> (b.toNat % 64)), (.sra, fun a b => a.sshiftRight (b.toNat % 64)),
    (.rol, fun a b => a <<< (b.toNat % 64) ||| a >>> (64 - b.toNat % 64)),
    (.slt, fun a b => if a.toInt < b.toInt then 1 else 0), (.sltu, fun a b => if a.toNat < b.toNat then 1 else 0),
    (.min, fun a b => if a.toInt < b.toInt then a else b), (.max, fun a b => if a.toInt < b.toInt then b else a),
    (.minu, fun a b => if a.toNat < b.toNat then a else b), (.maxu, fun a b => if a.toNat < b.toNat then b else a),
    (.mul, fun a b => BitVec.ofNat 64 (a.toNat * b.toNat)), (.mulh, fun a b => BitVec.ofInt 64 (a.toInt * b.toInt / 2 ^ 64)),
    (.mulhu, fun a b => BitVec.ofNat 64 (a.toNat * b.toNat / 2 ^ 64))]

/-- Table 05-1: the two-register members. -/
def unaryTable : List ((R2 → Instr) × (Word → Word)) :=
  [(.clz, fun a => BitVec.ofNat 64 (if a = 0 then 64 else 63 - a.toNat.log2)),
    (.ctz, fun a => BitVec.ofNat 64 (((List.range 64).find? fun i => a.getLsbD i).getD 64)),
    (.popc, fun a => BitVec.ofNat 64 ((List.range 64).filter fun i => a.getLsbD i).length),
    (.bswap, fun a => BitVec.ofNat 64 (leNat (leBytes 8 a.toNat).reverse))]

/-- Source width of SEXT and ZEXT in bits (R77). -/
def extBits : ExtSize → Nat
  | .b8 => 8
  | .b16 => 16
  | .b32 => 32

/-- Table 05-1: the divisions, with the result for a divisor that is not 0 and no overflow, the result for a divisor of
0 and, for the signed members, the result of −2^63 by −1 (R115). -/
def divTable : List ((R3 → Instr) × (Word → Word → Word) × (Word → Word) × Option Word) :=
  [(.div, fun a b => BitVec.ofInt 64 (a.toInt.tdiv b.toInt), fun _ => BitVec.allOnes 64, some (BitVec.ofInt 64 (-2 ^ 63))),
    (.divu, fun a b => BitVec.ofNat 64 (a.toNat / b.toNat), fun _ => BitVec.allOnes 64, none),
    (.rem, fun a b => BitVec.ofInt 64 (a.toInt.tmod b.toInt), fun a => a, some 0),
    (.remu, fun a b => BitVec.ofNat 64 (a.toNat % b.toNat), fun a => a, none)]

/-- A division's operands overflow: −2^63 by −1. -/
def divOverflows (a b : Word) : Prop := a.toInt = -2 ^ 63 ∧ b.toInt = -1

/-- Table 05-2: the members with a signed 12-bit immediate. -/
def immTable : List ((IOp → Instr) × (Word → Word → Word)) :=
  [(.addi, fun a b => a + b), (.andi, fun a b => a &&& b), (.ori, fun a b => a ||| b), (.xori, fun a b => a ^^^ b),
    (.slti, fun a b => if a.toInt < b.toInt then 1 else 0)]

/-- Table 05-2: the shifts by an immediate amount. -/
def shiftTable : List ((ShOp → Instr) × (Word → Nat → Word)) :=
  [(.slli, fun a n => a <<< n), (.srli, fun a n => a >>> n), (.srai, fun a n => a.sshiftRight n)]

/-! ### Scalar memory instructions (R118, R119) -/

/-- Table 05-3: the loads, with their bytes and extension. -/
def loadTable : List ((MOp → Instr) × Nat × (Nat → Word)) :=
  [(.lb, 1, fun x => (BitVec.ofNat 8 x).signExtend 64), (.lh, 2, fun x => (BitVec.ofNat 16 x).signExtend 64),
    (.lw, 4, fun x => (BitVec.ofNat 32 x).signExtend 64), (.ld, 8, fun x => BitVec.ofNat 64 x),
    (.lbu, 1, fun x => (BitVec.ofNat 8 x).setWidth 64), (.lhu, 2, fun x => (BitVec.ofNat 16 x).setWidth 64),
    (.lwu, 4, fun x => (BitVec.ofNat 32 x).setWidth 64)]

/-- Table 05-3: the stores, with their bytes. -/
def storeTable : List ((MOp → Instr) × Nat) := [(.sb, 1), (.sh, 2), (.sw, 4), (.sd, 8)]

/-- Every scalar load with its operands: the instruction, its length, bytes, extension, destination and address in a
state. C.LD reads at g1 (R92). -/
inductive IsLoad (s : State) : Instr → Nat → Nat → (Nat → Word) → Reg → Word → Prop
  | plain (mk : MOp → Instr) (n : Nat) (ext : Nat → Word) (o : MOp) :
      (mk, n, ext) ∈ loadTable → IsLoad s (mk o) 4 n ext o.d (s.getG o.a + o.off.signExtend 64)
  | compressed (o : CiOp) :
      IsLoad s (.cLd o) 2 8 (fun x => BitVec.ofNat 64 x) o.d (s.getG 1 + BitVec.ofNat 64 (8 * o.imm.toNat))

/-- Every scalar store with its operands: the instruction, its length, bytes, source value and address in a state. -/
inductive IsStore (s : State) : Instr → Nat → Nat → Word → Word → Prop
  | plain (mk : MOp → Instr) (n : Nat) (o : MOp) :
      (mk, n) ∈ storeTable → IsStore s (mk o) 4 n (s.getG o.d) (s.getG o.a + o.off.signExtend 64)
  | compressed (o : CiOp) : IsStore s (.cSd o) 2 8 (s.getG o.d) (s.getG 1 + BitVec.ofNat 64 (8 * o.imm.toNat))

/-- The first `k` targets of an access in memory hold the `k` low bytes of a number (R5). -/
def Stored (t : State) (ts : List Target) (x : Nat) : Prop :=
  ∀ (i loc : Nat), ts[i]? = some (.mem loc) → (∀ j, i < j → ts[j]? ≠ some (.mem loc)) →
    readByte t.mem loc = BitVec.ofNat 8 (x / 256 ^ i)

/-- Every byte of memory that is no target reads in `t` as in `s`. -/
def SameOffTargets (ts : List Target) (s t : State) : Prop :=
  ∀ loc : Nat, Target.mem loc ∉ ts → readByte t.mem loc = readByte s.mem loc

/-- An access writes registers of the engine and control window only in whole doublewords; these targets are memory. -/
def AllMemory (ts : List Target) : Prop := ∀ x ∈ ts, ∃ loc, x = Target.mem loc

/-! ### Branches (R120) -/

/-- Table 05-4. -/
def branchTable : List ((BOp → Instr) × (Word → Word → Bool)) :=
  [(.beq, fun a b => decide (a = b)), (.bne, fun a b => decide (a ≠ b)), (.blt, fun a b => decide (a.toInt < b.toInt)),
    (.bge, fun a b => decide (b.toInt ≤ a.toInt)), (.bltu, fun a b => decide (a.toNat < b.toNat)),
    (.bgeu, fun a b => decide (b.toNat ≤ a.toNat))]

/-- A target of signed halfwords from PC (R71). -/
def relative (s : State) (halfwords : Int) : Word := s.hart.pc + BitVec.ofInt 64 (2 * halfwords)
/-! ### Scalar floating point (R126, R127) -/

/-- How an instruction of major 0x0A computes: the format FT, the rounding mode that RM names, subnormals kept (R50). -/
def fpOf (s : State) (rm : Rm) (ft : FpType) : FEnv := ⟨ftFmt ft, rmMode s rm, false, false⟩

/-- The value of an operand's format in a general register: the low bits (R14). -/
def fpLow (s : State) (ft : FpType) (r : Reg) : Nat := (s.getG r).toNat % 2 ^ (ftFmt ft).width

/-- A comparison's result: 1 or 0, and its flags. -/
def fpTruth (x : Bool × Nat) : FRes := (if x.1 then 1 else 0, x.2)

/-- Table 05-5: the members with two operands; `d` is the format's value in g[d] for FMA. Each gives the encoding of the
result and the flags raised. -/
def fpTable : List ((FpOp → Instr) × (FEnv → Nat → Nat → Nat → FRes)) :=
  [(.fadd, fun v a b _ => v.add a b), (.fsub, fun v a b _ => v.sub a b), (.fmul, fun v a b _ => v.mul a b),
    (.fdiv, fun v a b _ => v.div a b), (.fsqrt, fun v a _ _ => v.sqrt a), (.fma, fun v a b d => v.fma false false a b d),
    (.fmin, fun v a b _ => v.minMax false a b), (.fmax, fun v a b _ => v.minMax true a b),
    (.fcmpeq, fun v a b _ => fpTruth (v.compare .eq a b)), (.fcmplt, fun v a b _ => fpTruth (v.compare .lt a b)),
    (.fcmple, fun v a b _ => fpTruth (v.compare .le a b)), (.fclass, fun v a _ _ => (2 ^ v.fmt.classOf a, 0)),
    (.fsgnj, fun v a b _ => (v.fmt.withSign a (v.fmt.neg b), 0)),
    (.fsgnjn, fun v a b _ => (v.fmt.withSign a (!v.fmt.neg b), 0)),
    (.fsgnjx, fun v a b _ => (v.fmt.withSign a (v.fmt.neg a != v.fmt.neg b), 0))]

/-- Least and greatest value of an integer type (R127). -/
def intRange : IntType → Int × Int
  | .i64 => (-2 ^ 63, 2 ^ 63 - 1)
  | .u64 => (0, 2 ^ 64 - 1)
  | .i32 => (-2 ^ 31, 2 ^ 31 - 1)
  | .u32 => (0, 2 ^ 32 - 1)

/-- A general register as an integer type, from its low 32 bits for i32 and u32 (R127). -/
def intOf (it : IntType) (x : Word) : Int :=
  match it with
  | .i64 => x.toInt
  | .u64 => x.toNat
  | .i32 => (x.setWidth 32).toInt
  | .u32 => (x.setWidth 32).toNat

/-- An instruction of major 0x0A wrote its result and raised its flags. -/
def FpDone (d : Reg) (r : FRes) (s t : State) : Prop :=
  WritesFlags 4 d (BitVec.ofNat 64 r.1) (BitVec.ofNat 7 r.2) (BitVec.ofNat 3 (r.2 / 128)) s t

/-! ### Atomics (R128 to R133) -/

/-- Table 05-6 without AMOCAS: the new memory value of the old one and the low bits of g[b], at the width. -/
def amoTable : List ((AmoOp → Instr) × ((w : Nat) → BitVec w → BitVec w → BitVec w)) :=
  [(.amoadd, fun _ a b => a + b), (.amoand, fun _ a b => a &&& b), (.amoor, fun _ a b => a ||| b),
    (.amoxor, fun _ a b => a ^^^ b), (.amomin, fun _ a b => if a.toInt < b.toInt then a else b),
    (.amomax, fun _ a b => if a.toInt < b.toInt then b else a), (.amominu, fun _ a b => if a.toNat < b.toNat then a else b),
    (.amomaxu, fun _ a b => if a.toNat < b.toNat then b else a), (.amoswap, fun _ _ b => b)]

/-- Bytes of an atomic (R80). -/
def atomicBytes (o : AmoOp) : Nat := if o.w32 then 4 else 8

/-- The old value as g[d] receives it: sign-extended from the width (R128). -/
def oldResult (o : AmoOp) (x : Nat) : Word := (BitVec.ofNat (8 * atomicBytes o) x).signExtend 64

/-- A scalar store of `len` bytes has performed its write of a number at the targets: beside its bytes and PC, only
what the controllers keep of the blocks changes, and, over a bad block, the machine check that waits at its hart
(R118, R266, R279, R364). -/
structure StoreDone (len x : Nat) (ts : List Target) (s1 t : State) : Prop where
  pc : t.hart.pc = s1.hart.pc + BitVec.ofNat 64 len
  stored : Stored t ts x
  bytes : SameOffTargets ts s1 t
  frame : t = { s1 with
    mem := t.mem, others := t.others, messages := t.messages
    ctl := { s1.ctl with
      blockMeta := t.ctl.blockMeta, sectors := t.ctl.sectors, dirty := t.ctl.dirty, bad := t.ctl.bad }
    hart := { s1.hart with pc := t.hart.pc, pendMchk := t.hart.pendMchk } }
  sound : Sound s1 ts → t.messages = s1.messages ∧ t.hart.pendMchk = s1.hart.pendMchk ∧ t.others = s1.others ∧
    t.ctl.bad = s1.ctl.bad

/-- A write that waits in the hart's scalar path (R295): a release, a misaligned store, whose bytes are accesses of
their own (R118), or a plain one. -/
def waitingStore (s : State) (release : Bool) (va : Word) (ts : List Target) (bs : List Byte) : Pend :=
  { lane := none, link := linkOver s s.hart.agent va, locs := ts.filterMap Target.loc?, bytes := bs, keep := 0
    kind := if release then .release else if va.toNat % bs.length = 0 then .plain else .bytewise }

/-- The hart waits at its instruction; a cycle of the wait counts as the event (R11, Table 17-3), 0 for none. -/
def waitsAt (event : Nat) (s : State) : State := { s with hart := { s.hart with run := .stalled, waitEv := event } }

/-- Every read-modify-write of one location with the value it writes for an old value, if it writes one. AMOCAS writes
only when the old value equals the low bits of g[d] (R129); TICKET raises NEXT and keeps SERVING (R133). -/
inductive IsAtomic (s : State) : Instr → AmoOp → (Nat → Option Nat) → Prop
  | table (mk : AmoOp → Instr) (f : (w : Nat) → BitVec w → BitVec w → BitVec w) (o : AmoOp) :
      (mk, f) ∈ amoTable → IsAtomic s (mk o) o fun old =>
        some (f (8 * atomicBytes o) (BitVec.ofNat _ old) (BitVec.ofNat _ (s.getG o.b).toNat)).toNat
  | cas (o : AmoOp) : IsAtomic s (.amocas o) o fun old =>
      if old = (s.getG o.d).toNat % 2 ^ (8 * atomicBytes o) then some ((s.getG o.b).toNat % 2 ^ (8 * atomicBytes o)) else none
  | ticket (o : AmoOp) : IsAtomic s (.ticket o) o fun old => some (old / 2 ^ 32 * 2 ^ 32 + (old + 1) % 2 ^ 32)

/-- A release write of the line wakes a hart whose monitor is on it (R137). -/
def wakeAt (line : Option Nat) (h : Hart) : Hart :=
  { h with monitorHit := h.monitorHit || (line.isSome && h.monitor == line) }

/-- The 64-byte line of the first target when the order has a release part (R80). -/
def releasedLine (o : AmoOp) (ts : List Target) : Option Nat :=
  match o.ord with
  | .rel | .ar => ts.head?.map Target.line
  | .rlx | .acq => none

/-- A read-modify-write of the address performs in its own turn: none is on its way to a peer, and while writes may
wait the address is no peer's (R307). -/
def AtHome (s : State) (va : Word) : Prop :=
  (∀ (l : Nat) (old : Option Nat) (hit : Bool), s.hart.run ≠ .peer l old hit) ∧
    (s.loose = true → linkOver s s.hart.agent va = none)

/-- What a member of major 0x0B leaves beside the memory it writes: everything but its destination, PC, what the
controllers keep of the blocks written, and the wake-ups that a release of a line gives to monitors. -/
structure AtomicFrame (d : Reg) (x : Word) (line : Option Nat) (s1 t : State) : Prop where
  value : d ≠ 0 → t.getG d = x
  others : ∀ r : Reg, r ≠ d → t.getG r = s1.getG r
  pc : t.hart.pc = s1.hart.pc + 4
  frame : t = { s1 with
    mem := t.mem, others := s1.others.map (wakeAt line)
    ctl := { s1.ctl with blockMeta := t.ctl.blockMeta, sectors := t.ctl.sectors, dirty := t.ctl.dirty }
    hart := { s1.hart with g := t.hart.g, pc := t.hart.pc, monitorHit := (wakeAt line s1.hart).monitorHit } }

/-! ### Control registers (Table 01-3, Table 01-4) -/

/-- What a write of `x` leaves in a control register other than RASD; a read-only register keeps its value. -/
def crStored (s : State) (n : Nat) (old x : Word) : Word :=
  let low (k : Nat) : Word := BitVec.ofNat 64 (x.toNat % 2 ^ k)
  match n with
  | 0x000 => if vtypeLegal s.hart.csr.vtype then BitVec.ofNat 64 (min x.toNat s.hart.vlmax % 2048) else 0
  | 0x001 => low 9
  | 0x002 => BitVec.ofNat 64 (min x.toNat 1024)
  | 0x004 => BitVec.ofNat 64 (min x.toNat 32767)
  | 0x005 => low 1
  | 0x006 => low 32
  | 0x007 => low 12
  | 0x008 => low 32
  | 0x010 => if x.toNat % 8 ≤ 4 then low 3 else old
  | 0x011 => low 7
  | 0x012 => low 3
  | 0x013 => low 60
  | 0x014 => low 48
  | 0x020 | 0x021 => x &&& 0xFFFFFFFFFFFF8
  | 0x0C8 | 0x0C9 | 0x0CA | 0x0CB => if x.toNat % 65536 ≤ 0x16 then low 16 else 0
  | 0x0CC | 0x0CD | 0x0CE | 0x0CF => x
  | 0x100 =>
    (old &&& 0xFFFFFFFFFFFFFF25) ||| (x &&& 0x1A) ||| BitVec.ofNat 64 ((if bitsOf x.toNat 6 2 = 3 then 2 else bitsOf x.toNat 6 2) * 64)
  | 0x101 => (x &&& 0xFFFFFFFFFFFC0) ||| (if x.toNat % 4 = 1 then 1 else 0)
  | 0x102 => x &&& 0xFFFFFFFFFFFFE
  | 0x103 => x &&& 0x80000000000001FF
  | 0x104 => x
  | 0x105 => x &&& 0x8000FFFF0007FFFF
  | 0x108 | 0x109 | 0x10A | 0x10B => x &&& 0xBFFFFFFFFFFFFFFF
  | 0x110 => if bitsOf x.toNat 4 4 ≤ 8 then x &&& 0xFFFFFFFFFFFFF0F1 else (x &&& 0xFFFFFFFFFFFFF001) ||| 0x80
  | 0x111 => x &&& 0xFFFFFFFFFF0F1
  | _ => old

/-- The writing members, with the word they write from the old one and g[a] (R136). -/
def crTable : List ((CrOp → Instr) × (Word → Word → Word)) :=
  [(.cwr, fun _ x => x), (.crs, fun old x => old ||| x), (.crc, fun old x => old &&& ~~~x)]

/-- A control register access is admitted: a privileged register only in S (R29), a vector-side register only while
STATUS.VS is not OFF (R28), and then once the vector unit has drained (R21). -/
structure CrAdmitted (s : State) (n : Nat) : Prop where
  priv : 0x100 ≤ n → s.hart.csr.status.priv = true
  on : isVectorSide n = true → s.hart.csr.status.vs ≠ 0
  drained : isVectorSide n = true → s.hart.viqReady = false

/-- The state in which an admitted access of a control register finds the module: an access of a vector-side register
is a drain point, at which a step of the hart in the array has ended (R21, R241). -/
def crBase (s : State) (n : Nat) : State := if isVectorSide n then s.landOwn else s

/-- What a control register access leaves beside the named register and g[d]: the other general and vector registers,
memory, and every other hart. -/
structure CrFrame (d : Reg) (old : Word) (s t : State) : Prop where
  value : d ≠ 0 → t.getG d = old
  others : ∀ r : Reg, r ≠ d → t.getG r = s.getG r
  pc : t.hart.pc = s.hart.pc + 4
  regs : t.hart.v = s.hart.v ∧ t.hart.w = s.hart.w ∧ t.hart.k = s.hart.k
  harts : t.others = s.others
  bytes : SameBytes s t

/-- Writes of RASD with the value that they write and whether FLUSH acts (R16, R136). -/
inductive WritesRasd (s : State) : Instr → Word → Bool → Prop
  | cwr (o : CrOp) : o.cr = 0x022 → WritesRasd s (.cwr o) (s.getG o.a) ((s.getG o.a).getLsbD 8)
  | crs (o : CrOp) (old : Word) : o.cr = 0x022 → crRead s 0x022 = some old →
      WritesRasd s (.crs o) (old ||| s.getG o.a) ((old ||| s.getG o.a).getLsbD 8)
  | crc (o : CrOp) (old : Word) : o.cr = 0x022 → crRead s 0x022 = some old →
      WritesRasd s (.crc o) (old &&& ~~~s.getG o.a) false
  | flush (x : Word) : WritesRasd s (.rasdFlush x) (x ||| 0x100) true
  | named (x : Word) : WritesRasd s (.registerWrite (.cr 0x022) x) x (x.getLsbD 8)

/-- The hart waits at a drain point, each cycle of which counts as DRAINWAIT (R11, Table 17-3). -/
def drainWait (s : State) : State := waitsAt 9 s

/-- CALL and CALLI with their target in a state (R122). -/
inductive IsCall (s : State) : Instr → Word → Prop
  | call (off : BitVec 20) : IsCall s (.call off) (relative s off.toInt)
  | calli (o : JiOp) : IsCall s (.calli o) ((s.getG o.a + o.imm.signExtend 64) &&& ~~~1#64)

/-! ### Asynchronous causes (R357) -/

/-- An interrupt is pending for the hart, whatever STATUS.IE holds (R137). -/
def Interrupted (h : Hart) : Bool :=
  h.pendMchkUnmasked || decide (h.pendMchk ≠ []) || h.pendPreempt || decide (h.pendNotify ≠ [])

/-- The hart is at a boundary at which asynchronous causes are taken: it is placed and started, has not
parked, and has no read-modify-write whose outcome is on its way (R307). -/
def AtBoundary (h : Hart) : Prop :=
  h.run ≠ .vacant ∧ h.run ≠ .parked ∧ (∀ k : Nat, h.run ≠ .starting k) ∧
    ∀ (l old : Nat) (hit : Bool), h.run ≠ .peer l (some old) hit

/-- The first asynchronous cause that applies at a boundary, in the order of R357. -/
inductive PendingCause (h : Hart) : Trap → Prop
  | unmasked : AtBoundary h → h.pendMchkUnmasked = true →
      PendingCause h { code := 0x10, cls := .async, tval := 0, taux := 0x200000000 }
  | mchk (c : BitVec 16) (a : Word) (r : List (BitVec 16 × Word)) : AtBoundary h → h.pendMchkUnmasked = false →
      h.csr.status.ie = true → h.pendMchk = (c, a) :: r →
      PendingCause h { code := 0x10, cls := .async, tval := a, taux := BitVec.ofNat 64 (c.toNat * 2 ^ 32) }
  | preempt : AtBoundary h → h.pendMchkUnmasked = false → h.csr.status.ie = true → h.pendMchk = [] →
      h.pendPreempt = true → PendingCause h { code := 0x11, cls := .async, tval := 0, taux := 0 }
  | notify (m : Word) (r : List Word) : AtBoundary h → h.pendMchkUnmasked = false → h.csr.status.ie = true →
      h.pendMchk = [] → h.pendPreempt = false → h.pendNotify = m :: r →
      PendingCause h { code := 0x12, cls := .async, tval := m, taux := 0 }

/-! ### Waits and streams (R252 to R254) -/

/-- The instructions of Table 11-5 with their destination, address register, condition and wait; WAIT_SATISFIED stands
for the instruction that waits. -/
inductive IsWait (s : State) : Instr → Reg → Reg → (Word → Prop) → Run → Prop
  | seqwait (o : R3) : IsWait s (.seqwait o) o.d o.a
      (fun x => x.getLsbD 63 = true ∨ (s.getG o.b).toNat % 2 ^ 48 ≤ x.toNat % 2 ^ 48) (.seqwait o)
  | seqrd (o : R2) : IsWait s (.seqrd o) o.d o.a (fun _ => True) .running
  | arrwait (o : R3) : IsWait s (.arrwait o) o.d o.a (fun x => (s.getG o.b).toNat ≤ x.toNat) (.arrwait o)
  | again (i : Instr) (d a : Reg) (p : Word → Prop) : IsWait s i d a p s.hart.run → s.hart.run ≠ .running →
      IsWait s .waitSatisfied d a p s.hart.run

/-- Element i of width `sew` lies within a register. -/
def InReg (sew i : Nat) : Prop := sew * (i + 1) ≤ 16384

/-- The buffer of a stream register holds data of the command to which QSn is bound (R23, R253). -/
def StreamHeld (s : State) (q : Fin 4) : Prop :=
  (s.hart.stream q).live = true ∧ (s.hart.stream q).ce.toNat = qsCe (s.hart.qs q) ∧
    (s.hart.stream q).seq.toNat = qsSeq (s.hart.qs q)

/-- The place of POS in the data of the command. -/
def streamPlace (s : State) (q : Fin 4) : Nat := (s.hart.stream q).place (s.hart.qs q)

/-- The command to which QSn is bound has been reserved and its data has not come: it waits in an ENQ, in a slot or in
its engine (R254). -/
def StreamAwaited (s : State) (q : Fin 4) : Prop :=
  (qsCe (s.hart.qs q), qsSeq (s.hart.qs q)) ∈ s.reserved ∨
    ∃ r ∈ s.slotRecs, r.engine.val = qsCe (s.hart.qs q) ∧ r.seq % 2 ^ 32 = qsSeq (s.hart.qs q)

/-- A stream register is unbound, or its command has no `n` bytes left at POS, or none at all (R254). -/
def StreamEmpty (s : State) (q : Fin 4) (n : Nat) : Prop :=
  qsV (s.hart.qs q) = false ∨
    (StreamHeld s q ∧ (streamPlace s q < (s.hart.stream q).pos ∨ (s.hart.stream q).total < streamPlace s q + n)) ∨
    (¬ StreamHeld s q ∧ ¬ StreamAwaited s q)

/-- The command of a stream register has `n` bytes at POS, which have not all arrived (R254). -/
def StreamShort (s : State) (q : Fin 4) (n : Nat) : Prop :=
  ¬ StreamEmpty s q n ∧
    (StreamHeld s q → (s.hart.stream q).pos + (s.hart.stream q).data.length < streamPlace s q + n)

/-- The next `n` bytes of a stream at POS. -/
def streamBytes (s : State) (q : Fin 4) (n : Nat) : List Byte :=
  ((s.hart.stream q).data.drop (streamPlace s q - (s.hart.stream q).pos)).take n

/-- A read of `n` bytes of a stream has taken its next bytes out of the buffer and moved POS on; no other stream
register has changed. -/
def StreamMoved (q : Fin 4) (n : Nat) (s t : State) : Prop :=
  qsPos (t.hart.qs q) = (streamPlace s q + n) % 2 ^ 24 ∧ qsV (t.hart.qs q) = true ∧
    t.hart.stream q = { s.hart.stream q with
      pos := streamPlace s q + n, data := (s.hart.stream q).data.drop (streamPlace s q - (s.hart.stream q).pos + n) } ∧
    ∀ m : Fin 4, m ≠ q → t.hart.qs m = s.hart.qs m ∧ t.hart.stream m = s.hart.stream m

/-- An instruction of the vector side that the vector unit took up at once has trapped in the vector class with a
cause and values (R354, R355): it stays at the head of the frozen VIQ, and no register that it names has changed. -/
structure HeadTraps (v : VInstr) (k : Trap) (s t : State) : Prop where
  pc : t.hart.pc = handlerOf s.hart.csr.tvec k.code
  epc : t.hart.csr.epc = (s.hart.pc + BitVec.ofNat 64 (instrLen v.toInstr)) &&& 0xFFFFFFFFFFFFE
  cause : t.hart.csr.cause = causeWord k.code .vector
  tval : t.hart.csr.tval = k.tval
  taux : t.hart.csr.taux = k.taux
  priv : t.hart.csr.status.priv = true
  held : t.hart.frozen = true ∧ t.hart.headTrapped = true ∧ headPc t.hart = s.hart.pc ∧ t.hart.viq.map (·.instr) = [v]
  regs : t.hart.g = s.hart.g ∧ t.hart.v = s.hart.v ∧ t.hart.w = s.hart.w ∧ t.hart.k = s.hart.k ∧ t.hart.sbuf = s.hart.sbuf ∧
    t.hart.csr.qs = s.hart.csr.qs ∧ t.hart.csr.vstart = s.hart.csr.vstart


/-! ### The barrier, watches, frames and the queue (R11, R255, R258 to R260) -/

/-- Every placed hart of the gang but the one whose turn it is has arrived, and none has yielded (R255). -/
def OthersArrived (s : State) : Prop :=
  (∀ h ∈ s.others, h.gang = s.hart.gang → h.run ≠ .vacant → h.arrived = true) ∧
    ∀ g : Gang, s.gang? s.hart.gang = some g → g.yielded = []

/-- The registers and the memory that the barrier leaves alone. -/
def SameRegisters (h h' : Hart) : Prop :=
  h'.g = h.g ∧ h'.v = h.v ∧ h'.w = h.w ∧ h'.k = h.k ∧ h'.csr.status = h.csr.status ∧ h'.csr.vtype = h.csr.vtype

/-- An episode of the barrier has completed: each waiting hart of the gang goes on past its GBAR; one that a handler
has taken away finds the episode done and has not arrived in the next one; and every hart but the waiting ones stands
where it stood. -/
def Released (s t : State) : Prop :=
  t.hart.pc = s.hart.pc + 4 ∧ t.hart.run = .running ∧ t.hart.arrived = false ∧ SameRegisters s.hart t.hart ∧
    t.mem = s.mem ∧ t.others.length = s.others.length ∧
    ∀ (k : Nat) (h h' : Hart), s.others[k]? = some h → t.others[k]? = some h' → SameRegisters h h' ∧
      if h.gang = s.hart.gang ∧ h.run = .gbar then h'.pc = h.pc + 4 ∧ h'.run = .running ∧ h'.arrived = false
      else h'.pc = h.pc ∧ h'.run = h.run ∧
        if h.gang = s.hart.gang ∧ h.run ≠ .vacant then h'.arrived = false ∧ h'.episodeDone = true
        else h'.arrived = h.arrived ∧ h'.episodeDone = h.episodeDone

/-- The state with other watch bits. -/
def withWatch (s : State) (w : List Nat) : State := { s with ctl := { s.ctl with watch := w } }

/-- An instruction that joins the VIQ and touches no vector state is complete: PC, the bookkeeping of its queue entry
and issue slot, and the control registers given have changed, and nothing else (R11). -/
structure Passes (len : Nat) (csr : Csr) (s t : State) : Prop where
  queue : t.hart.viq = []
  cores : SameCores s t
  frame : t = { s with cores := t.cores, hart := { s.hart with
    pc := s.hart.pc + BitVec.ofNat 64 len, groups := t.hart.groups, convoy := none, gone := [], used := t.hart.used
    credit := t.hart.credit, waits := t.hart.waits, sSeen := t.hart.sSeen
    headTrapped := false, mask := 0, maskValid := false, watchHit := none, tag := t.hart.tag, tagDone := t.hart.tagDone
    csr := csr } }

/-- The hart has parked (R329): it fetches nothing further, and beside that only the ballast of its core changes, with
the fall that its taper reserves (R346). -/
structure Parked (s t : State) : Prop where
  run : t.hart.run = .parked
  frame : t = { s with
    cores := t.cores, helm := { s.helm with fall := t.helm.fall }, hart := { s.hart with run := .parked } }

/-- The VL that a saved value stands for beside a VTYPE: no more than the elements of a register, and beside a VTYPE
without an element width than those of 16 bits (log entry 18). -/
def savedVl (vlr x : Nat) (t : BitVec 9) : BitVec 11 := BitVec.ofNat 11 (min x (vlr / (if sewOf t = 0 then 16 else sewOf t)))

/-- No other hart shares the partition or the HARTID of the hart whose turn it is. -/
def SoleInPartition (s : State) : Prop :=
  s.hart.run ≠ .vacant ∧ ∀ h ∈ s.others, h.csr.hartid ≠ s.hart.csr.hartid ∧
    ¬ (coreOf h.csr.hartid = coreOf s.hart.csr.hartid ∧ h.partition = s.hart.partition)

/-- The next entry of the hart's VIQ takes the partition's issue slot of this cycle: the partition is the hart's alone
and has used no slot, no group of it is still to issue, nothing is frozen, no tile request or, in a deterministic
region, no producer holds it back, no C.VGAP is left and its cap has room (R93, R335, R336, R342, R345). -/
structure TakesSlot (s : State) : Prop where
  sole : SoleInPartition s
  slot : s.hart.used.getLsbD 0 = false
  idle : s.hart.idleTo ≤ s.time
  groups : s.hart.groups = 0
  thawed : s.hart.frozen = false
  tiles : s.hart.tiles = []
  filled : s.hart.csr.status.det = true → s.hart.filling = []
  gap : s.hart.csr.status.cd = true → s.hart.vgap = 0
  cap : s.capped s.hart = false

/-- The members of the vector side that the front-end only queues, with their operands from the general registers. -/
inductive IsQueued : VInstr → Prop
  | v (op : VOpc) (o : VOp) : op ≠ .vmvxv → IsQueued (.v op o)
  | vm (op : VMOpc) (o : VMOp) : IsQueued (.vm op o)
  | mtld (o : MtldOp) : IsQueued (.mtld o)
  | mrow (o : MrowOp) : IsQueued (.mrow o)
  | maclr (o : MaclrOp) : IsQueued (.maclr o)
  | mard (o : AccOp) : IsQueued (.mard o)
  | mawr (o : AccOp) : IsQueued (.mawr o)
  | mast (o : AccOp) : IsQueued (.mast o)
  | lacfg (o : LaAOp) : IsQueued (.lacfg o)
  | laeval (o : LaVOp) : IsQueued (.laeval o)
  | lavote (o : LaVOp) : IsQueued (.lavote o)
  | latrain (o : LatrainOp) : IsQueued (.latrain o)
  | lafb (o : LaVOp) : IsQueued (.lafb o)
  | lastl (o : LaAOp) : IsQueued (.lastl o)
  | lasts (o : LaAOp) : IsQueued (.lasts o)
  | latbl (o : LaAOp) : IsQueued (.latbl o)
  | laseed (o : LaAOp) : IsQueued (.laseed o)

/-- The fences of major 0x0D that enter the VIQ (R256, R257). -/
inductive IsQueuedFence : VInstr → Prop
  | vlsync : IsQueuedFence .vlsync
  | lafence (sc : Scope) : IsQueuedFence (.lafence sc)
  | tlbinv (o : AbOp) : IsQueuedFence (.tlbinv o)
  | efence (sc : Scope) : IsQueuedFence (.efence sc)

/-- The granules that meet a range: the first byte of each in the range, with the bytes of the range that are left
(R260). -/
def granulesLeft : Nat → Word → Nat → List (Word × Nat)
  | 0, _, _ => []
  | fuel + 1, a, n =>
    if n = 0 then []
    else (a, n) :: granulesLeft fuel (a + BitVec.ofNat 64 (32 - a.toNat % 32)) (n - (32 - a.toNat % 32))

/-- The granule at `x` is reached at the location that `loc` gives it, whatever bits are set. -/
def GranuleAt (s : State) (loc : Word → Nat) (x : Word) : Prop :=
  ∀ w : List Nat, locate s.hart.agent .scalar .load 1 (withWatch s w) x 1 = .ok (withWatch s w, [.mem (loc x)])

/-- Watch bits are set or cleared for some granules and for no other. -/
def Marked (set : Bool) (w : List Nat) (gs : List Nat) (w' : List Nat) : Prop :=
  ∀ g : Nat, g ∈ w' ↔ if set then g ∈ w ∨ g ∈ gs else g ∈ w ∧ g ∉ gs

/-- The fault that WATCH meets at a granule while the watch bits are `w`, with the state that it leaves: that of its
translation, with the A and D bits set on its way (R269), or ACCESS where it lies in no memory. -/
def GranuleFaults (s : State) (x : Word) (f : MemFault) (u : List Nat → State) : Prop :=
  (∀ w : List Nat, locate s.hart.agent .scalar .load 1 (withWatch s w) x 1 = .fault f (u w)) ∨
    (f = { cause := .access, addr := x } ∧ u = withWatch s ∧ ∃ tg : Target, (∀ loc, tg ≠ .mem loc) ∧
      ∀ w : List Nat, locate s.hart.agent .scalar .load 1 (withWatch s w) x 1 = .ok (withWatch s w, [tg]))

/-- An array instruction. -/
def isArray : VInstr → Bool
  | .lacfg _ | .laeval _ | .lavote _ | .latrain _ | .lafb _ | .lastl _ | .lasts _ | .latbl _ | .laseed _ => true
  | _ => false

/-- An array instruction that needs the array configured (R231). -/
def needsConfigured : VInstr → Bool
  | .laeval _ | .lavote _ | .latrain _ | .lafb _ | .lasts _ => true
  | _ => false

/-- The hart is non-secure while the array is secure, or while LACFG's word sets WORLD (R231). -/
def worldFaults (s : State) (e : Held) : Bool :=
  isArray e.instr && !s.hart.csr.status.world &&
    ((s.clusterSt s.cluster).arrayWorld || (match e.instr with
      | .lacfg _ => (e.op 0).getLsbD 32
      | _ => false))

/-- The configuration word of LACFG or the control word of LATRAIN is illegal (R230, R237). -/
def wordIllegal (s : State) (e : Held) : Bool :=
  match e.instr with
  | .lacfg _ => !cfgLegal (e.op 0)
  | .latrain _ => !controlLegal (s.clusterSt s.cluster).config (e.op 0)
  | _ => false

/-- LAEVAL without F. -/
def laevalNoF : VInstr → Bool
  | .laeval o => !o.flag
  | _ => false

/-- CSPEC of the ILL of a tile instruction, the first that holds: 2 for a row of 64 or above, 4 for an empty slot, 3
for a SEW that does not fit (R218, R224). -/
def tileCspec (s : State) (e : Held) : Option Nat :=
  let sewIs (n : Nat) : Option Nat := if sewOf s.hart.csr.vtype ≠ n then some 3 else none
  let acc (o : AccOp) : Option Nat :=
    if 64 ≤ e.tileRow then some 2 else sewIs (match o.ef with
      | .fp64 => 64
      | .fp32 | .int32 => 32)
  match e.instr with
  | .mrow o =>
    if 64 ≤ e.tileRow then some 2
    else match tileOfCode ((s.coreSt s.core).slot o.slot).fmt with
      | none => some 4
      | some f => sewIs (tileSew f)
  | .mard o | .mawr o | .mast o => acc o
  | _ => none

/-- What a fence of the VIQ leaves of the hart's waiting writes: VLSYNC and LAFENCE perform those of the lane groups,
LAFENCE once the hart's step of the array has ended, EFENCE all of them, and TLBINV those of every hart (R256, R308,
R318). -/
def fenced : VInstr → State → State
  | .lafence _, s => s.landOwn.flushLanes
  | .efence _, s => s.flushAll
  | .tlbinv _, s => s.flushHarts fun _ => true
  | _, s => s.flushLanes

/-- Every TLB has lost the translations that TLBINV selects, and no other; nothing else of a core has changed but the
bookkeeping of its partitions (R257). -/
def Invalidated (sel va : Word) (secure : Bool) (s t : State) : Prop :=
  ∀ n : Nat, t.coreSt n = { s.coreSt n with
    tlb := (s.coreSt n).tlb.filter fun x => !x.selected sel va secure, cdSlot := (t.coreSt n).cdSlot }

/-- The length granted for a request (R142). -/
def granted (s : State) (t : BitVec 9) (avl : Word) : Nat :=
  if vtypeLegal t then min avl.toNat (s.hart.vlrBits / sewOf t) else 0

/-- SETVLI and SETVL with their destination, request and VTYPE (R142). -/
inductive IsSetLength (s : State) : Instr → Reg → Word → BitVec 9 → Prop
  | setvli (o : SetvliOp) : IsSetLength s (.setvli o) o.d (s.getG o.a) o.vtype
  | setvl (o : R3) : IsSetLength s (.setvl o) o.d (s.getG o.a)
      (if (s.getG o.b).toNat < 512 then BitVec.ofNat 9 (s.getG o.b).toNat else 0)

/-- The hart with the producers that have left the VIQ complete (R21, R26). -/
def settled (s : State) : Hart := s.hart.fillAll

/-- The state at a drain point that goes on: the producers have completed, and so has a step of the hart in the array
(R21, R241). -/
def atDrain (s : State) : State := { s.landOwn with hart := settled s }

/-! ### Flags by element (R31) -/

/-- Elements with the flags that each raised: bits 0 to 6 those of FFLAGS, bits 7 to 9 those of IFLAGS. -/
abbrev ElemFlags := List (Nat × Nat)

/-- The least index of an element that raised a flag. -/
def leastRaised (r : ElemFlags) (bit : Nat) : Option Nat := ((r.filter fun x => x.2.testBit bit).map (·.1)).min?

/-- A field of FIRSTX or FIRSTXI after an instruction that began at element `vs` (R31). -/
def recordedIndex (old vs : Nat) : Option Nat → Nat
  | none => old
  | some i => if vs = 0 ∨ old = 0xFFF ∨ vs ≤ old then i else old

/-- The flags that elements raised are in the control registers `c'` after `c`: FFLAGS and IFLAGS gain them, and the
fields NX, UF, OF, DZ, NV of FIRSTX and DZ, OV, SAT, PRUNEZ of FIRSTXI take the least index of their flag (R31). -/
def Raises (r : ElemFlags) (c c' : Csr) : Prop :=
  (∀ k : Nat, k < 7 → c'.fflags.getLsbD k = (c.fflags.getLsbD k || r.any fun x => x.2.testBit k)) ∧
  (∀ k : Nat, k < 3 → c'.iflags.getLsbD k = (c.iflags.getLsbD k || r.any fun x => x.2.testBit (7 + k))) ∧
  (∀ (k : Nat) (bit : Nat), [(0 : Nat), 1, 2, 3, 4][k]? = some bit →
    bitsOf c'.firstx.toNat (12 * k) 12 =
      recordedIndex (bitsOf c.firstx.toNat (12 * k) 12) c.vstart.toNat (leastRaised r bit)) ∧
  ∀ (k : Nat) (bit : Nat), [(7 : Nat), 8, 9, 6][k]? = some bit →
    bitsOf c'.firstxi.toNat (12 * k) 12 =
      recordedIndex (bitsOf c.firstxi.toNat (12 * k) 12) c.vstart.toNat (leastRaised r bit)

/-- STATUS.VS after a write of a vector or weight register (R28). -/
def markedVs (c : Csr) : BitVec 2 := if c.status.vs = 1 then 2 else c.status.vs

/-! ### What register-only members write -/

/-- The instruction wrote elements `is` of vd with `f` and raised `fl`, and kept the other elements (R28, R160). -/
structure VWrites (v : VInstr) (d : Reg) (is : List Nat) (f : Nat → Nat) (fl : ElemFlags) (s t : State) : Prop where
  frame : VFrame v [d] [] s t
  value : ∀ i ∈ is, InReg s.hart.sew i → t.hart.elem d i = f i % 2 ^ s.hart.sew
  keep : ∀ i : Nat, i ∉ is → InReg s.hart.sew i → t.hart.elem d i = s.hart.elem d i
  flags : Raises fl s.hart.csr t.hart.csr
  vdirty : t.hart.csr.vdirty = if is = [] then s.hart.csr.vdirty else s.hart.csr.vdirty ||| BitVec.ofNat 32 (2 ^ d.val)
  vs : t.hart.csr.status.vs = if is = [] then s.hart.csr.status.vs else markedVs s.hart.csr

/-- The instruction wrote weights `is` of wd with `f` and raised `fl`, and kept the others; a write of w0 is discarded
(R19, R28). -/
structure WWrites (v : VInstr) (d : Fin 8) (is : List Nat) (f : Nat → Nat) (fl : ElemFlags) (s t : State) : Prop where
  frame : VFrame v [] [d] s t
  value : ∀ i ∈ is, i < 1024 → d ≠ 0 → t.hart.rawW d i = f i
  keep : ∀ i : Nat, i ∉ is → i < 1024 → t.hart.rawW d i = s.hart.rawW d i
  flags : Raises fl s.hart.csr t.hart.csr
  vdirty : t.hart.csr.vdirty = s.hart.csr.vdirty
  vs : t.hart.csr.status.vs = if is = [] ∨ d = 0 then s.hart.csr.status.vs else markedVs s.hart.csr

/-- Element i of width 2·SEW lies within a pair (R18). -/
def InPair (h : Hart) (i : Nat) : Prop :=
  let half := h.vlrBits / (2 * h.sew)
  if i < half then InReg (2 * h.sew) i else InReg (2 * h.sew) (i - half)

/-- The instruction wrote elements `is` of the pair vd, vd+1 with `f` and raised `fl`, and kept the others (R18,
R168). -/
structure PWrites (v : VInstr) (d : Reg) (is : List Nat) (f : Nat → Nat) (fl : ElemFlags) (s t : State) : Prop where
  frame : VFrame v [d, d + 1] [] s t
  value : ∀ i ∈ is, InPair s.hart i → t.hart.elemW d i = f i % 2 ^ (2 * s.hart.sew)
  keep : ∀ i : Nat, i ∉ is → InPair s.hart i → t.hart.elemW d i = s.hart.elemW d i
  flags : Raises fl s.hart.csr t.hart.csr

/-- The elements that an instruction covers: VL, and where VL exceeds VLMAX those that the registers have (the model's
choice, log entry 11). -/
def vlNow (s : State) : Nat := min s.hart.csr.vl.toNat s.hart.vlmax

/-- The active elements, ascending (R20). -/
def actives (s : State) (w : Fin 8) : List Nat :=
  (List.range (vlNow s)).filter fun i =>
    decide (s.hart.csr.vstart.toNat ≤ i) && decide (s.hart.csr.thr.toNat < min (s.hart.rawW w i) 32768)

/-- The elements from VSTART to VL − 1 (R196). -/
def bodies (s : State) : List Nat := (List.range (vlNow s)).filter fun i => s.hart.csr.vstart.toNat ≤ i

/-- Elements with their flags. -/
def flagsOf (is : List Nat) (f : Nat → Nat) : ElemFlags := is.map fun i => (i, f i)

/-- Element i of a register as a bit vector of SEW bits. -/
def el (s : State) (r : Reg) (i : Nat) : BitVec s.hart.sew := BitVec.ofNat _ (s.hart.elem r i)

/-- Element i of a pair as a bit vector of 2·SEW bits. -/
def elw (s : State) (r : Reg) (i : Nat) : BitVec (2 * s.hart.sew) := BitVec.ofNat _ (s.hart.elemW r i)

/-- The b operand: element i of vb, or the low SEW bits of g[b] for a .vx form (R161). -/
def opB (s : State) (vx : Bool) (b : Reg) (i : Nat) : BitVec s.hart.sew :=
  if vx then BitVec.ofNat _ (s.getG b).toNat else el s b i

/-- An opcode is a row's vector form, or its .vx form. -/
def FormOf (row : VOpc × Option VOpc) (op : VOpc) (vx : Bool) : Prop := (op = row.1 ∧ vx = false) ∨ (row.2 = some op ∧ vx = true)

/-- Flags of IFLAGS in a set of raised flags. -/
def iDZ : Nat := 128
/-- Most negative integer by −1. -/
def iOV : Nat := 256
/-- Integer saturation. -/
def iSAT : Nat := 512

/-- A number clamped to a range, with SAT when it lay outside (R166, R169). -/
def clampTo (n : Nat) (lo hi x : Int) : BitVec n × Nat :=
  (BitVec.ofInt n (max lo (min hi x)), if lo ≤ x ∧ x ≤ hi then 0 else iSAT)

/-- Least signed value of n bits. -/
def minS (n : Nat) : Int := -2 ^ (n - 1)

/-- Greatest signed value of n bits. -/
def maxS (n : Nat) : Int := 2 ^ (n - 1) - 1

/-- An integer function of two elements. -/
abbrev IntFun := (n : Nat) → BitVec n → BitVec n → BitVec n × Nat

/-- Majors 0x10 to 0x17 without pairs: the vector form, the .vx form and the function (R161, R165 to R167, R170). -/
def intTable : List ((VOpc × Option VOpc) × IntFun) :=
  [((.vadd, some .vaddVx), fun _ a b => (a + b, 0)), ((.vsub, some .vsubVx), fun _ a b => (a - b, 0)),
    ((.vmul, some .vmulVx), fun _ a b => (a * b, 0)),
    ((.vmulh, some .vmulhVx), fun n a b => (BitVec.ofInt n (a.toInt * b.toInt / 2 ^ n), 0)),
    ((.vmulhu, some .vmulhuVx), fun n a b => (BitVec.ofNat n (a.toNat * b.toNat / 2 ^ n), 0)),
    ((.vmin, some .vminVx), fun _ a b => (if a.toInt < b.toInt then a else b, 0)),
    ((.vmax, some .vmaxVx), fun _ a b => (if a.toInt < b.toInt then b else a, 0)),
    ((.vminu, some .vminuVx), fun _ a b => (if a.toNat < b.toNat then a else b, 0)),
    ((.vmaxu, some .vmaxuVx), fun _ a b => (if a.toNat < b.toNat then b else a, 0)),
    ((.vand, some .vandVx), fun _ a b => (a &&& b, 0)), ((.vor, some .vorVx), fun _ a b => (a ||| b, 0)),
    ((.vxor, some .vxorVx), fun _ a b => (a ^^^ b, 0)),
    ((.vsll, some .vsllVx), fun n a b => (a <<< (b.toNat % n), 0)),
    ((.vsrl, some .vsrlVx), fun n a b => (a >>> (b.toNat % n), 0)),
    ((.vsra, some .vsraVx), fun n a b => (a.sshiftRight (b.toNat % n), 0)),
    ((.vabs, none), fun n a _ => (BitVec.ofInt n a.toInt.natAbs, 0)),
    ((.vdiv, some .vdivVx), fun n a b =>
      if b.toNat = 0 then (BitVec.allOnes n, iDZ)
      else if a.toInt = minS n ∧ b.toInt = -1 then (a, iOV)
      else (BitVec.ofInt n (a.toInt.tdiv b.toInt), 0)),
    ((.vdivu, some .vdivuVx), fun n a b =>
      if b.toNat = 0 then (BitVec.allOnes n, iDZ) else (BitVec.ofNat n (a.toNat / b.toNat), 0)),
    ((.vrem, some .vremVx), fun n a b =>
      if b.toNat = 0 then (a, iDZ)
      else if a.toInt = minS n ∧ b.toInt = -1 then (0, iOV)
      else (BitVec.ofInt n (a.toInt.tmod b.toInt), 0)),
    ((.vremu, some .vremuVx), fun n a b =>
      if b.toNat = 0 then (a, iDZ) else (BitVec.ofNat n (a.toNat % b.toNat), 0)),
    ((.vsadd, some .vsaddVx), fun n a b => clampTo n (minS n) (maxS n) (a.toInt + b.toInt)),
    ((.vssub, some .vssubVx), fun n a b => clampTo n (minS n) (maxS n) (a.toInt - b.toInt)),
    ((.vsaddu, some .vsadduVx), fun n a b => clampTo n 0 (2 ^ n - 1) ((a.toNat : Int) + b.toNat)),
    ((.vssubu, some .vssubuVx), fun n a b => clampTo n 0 (2 ^ n - 1) ((a.toNat : Int) - b.toNat)),
    ((.vmv, none), fun _ a _ => (a, 0))]

/-- The widening members: the function of the pair's old element and the two operands (R168). -/
def widenTable : List ((VOpc × Option VOpc) × ((n : Nat) → BitVec (2 * n) → BitVec n → BitVec n → BitVec (2 * n))) :=
  [((.vwmul, some .vwmulVx), fun n _ a b => a.signExtend (2 * n) * b.signExtend (2 * n)),
    ((.vwmulu, some .vwmuluVx), fun n _ a b => a.setWidth (2 * n) * b.setWidth (2 * n)),
    ((.vwmac, some .vwmacVx), fun n d a b => d + a.signExtend (2 * n) * b.signExtend (2 * n)),
    ((.vwmacu, some .vwmacuVx), fun n d a b => d + a.setWidth (2 * n) * b.setWidth (2 * n)),
    ((.vwmacsu, some .vwmacsuVx), fun n d a b => d + a.signExtend (2 * n) * b.setWidth (2 * n))]

/-- The shift amount of VNSHR and VNSHRU: element i of vb or g[b], modulo 2·SEW (R169). -/
def narrowShift (s : State) (vx : Bool) (b : Reg) (i : Nat) : Nat :=
  (if vx then (s.getG b).toNat else s.hart.elem b i) % (2 * s.hart.sew)

/-- VNSHR and VNSHRU: a double-width element shifted right and clamped to SEW bits (R169). -/
def narrowTable : List ((VOpc × Option VOpc) × ((n : Nat) → BitVec (2 * n) → Nat → BitVec n × Nat)) :=
  [((.vnshr, some .vnshrVx), fun n x k => clampTo n (minS n) (maxS n) (x.toInt / 2 ^ k)),
    ((.vnshru, some .vnshruVx), fun n x k => clampTo n 0 (2 ^ n - 1) ((x.toNat : Int) / 2 ^ k))]

/-- Integer compares (R175). -/
def compareTable : List (VOpc × ((n : Nat) → BitVec n → BitVec n → Bool)) :=
  [(.vcmpEq, fun _ a b => decide (a = b)), (.vcmpNe, fun _ a b => decide (a ≠ b)),
    (.vcmpLt, fun _ a b => decide (a.toInt < b.toInt)), (.vcmpGe, fun _ a b => decide (b.toInt ≤ a.toInt)),
    (.vcmpLtu, fun _ a b => decide (a.toNat < b.toNat)), (.vcmpGeu, fun _ a b => decide (b.toNat ≤ a.toNat))]

/-- How a vector floating-point instruction computes: the format of SEW, a rounding mode and VTYPE.FLUSH (R49, R164). -/
def vEnv (s : State) (m : Mode) : FEnv :=
  { fmt := fmtOf s.hart.sew, mode := m, flushIn := decide (s.hart.csr.vtype.toNat / 4 % 4 = 1)
    flushOut := decide (s.hart.csr.vtype.toNat / 4 % 4 ≠ 0) }

/-- By FCSR.RM. -/
def vEnvRm (s : State) : FEnv := vEnv s (modeOf s.hart.csr.fcsr)

/-- Floating-point members that write vd from a, b and the old vd (R161, R164, R171 to R173). -/
def vfTable : List ((VOpc × Option VOpc) × (FEnv → Nat → Nat → Nat → FRes)) :=
  [((.vfadd, some .vfaddVx), fun v a b _ => v.add a b), ((.vfsub, some .vfsubVx), fun v a b _ => v.sub a b),
    ((.vfmul, some .vfmulVx), fun v a b _ => v.mul a b), ((.vfdiv, some .vfdivVx), fun v a b _ => v.div a b),
    ((.vfmin, some .vfminVx), fun v a b _ => v.minMax false a b), ((.vfmax, some .vfmaxVx), fun v a b _ => v.minMax true a b),
    ((.vfma, some .vfmaVx), fun v a b d => v.fma false false a b d),
    ((.vfms, some .vfmsVx), fun v a b d => v.fma false true a b d),
    ((.vfnma, none), fun v a b d => v.fma true true a b d), ((.vfnms, none), fun v a b d => v.fma true false a b d),
    ((.vfsqrt, none), fun v a _ _ => v.sqrt a), ((.vfrece, none), fun v a _ _ => v.recip a),
    ((.vfrsqe, none), fun v a _ _ => v.rsqrt a),
    ((.vfsgn, none), fun v a b _ => (v.fmt.withSign a (v.fmt.neg b), 0)),
    ((.vfclass, none), fun v a _ _ => (2 ^ v.fmt.classOf a, 0)), ((.vfabs, none), fun v a _ _ => (v.fmt.mag a, 0)),
    ((.vfcvtFrnd, none), fun v a _ _ => v.integral a)]

/-- Conversions to integers: signed or not, and the rounding mode where it is not FCSR.RM (R174). -/
def toIntTable : List (VOpc × Bool × Option Mode) :=
  [(.vfcvtF2i, true, none), (.vfcvtF2u, false, none), (.vfcvtF2iz, true, some .rtz), (.vfcvtF2uz, false, some .rtz)]

/-- Least and greatest value of an n-bit integer. -/
def rangeOf (signed : Bool) (n : Nat) : Int × Int := if signed then (minS n, maxS n) else (0, 2 ^ n - 1)

/-- Floating-point compares (R176). -/
def vfCompareTable : List (VOpc × Rel) :=
  [(.vfcmpEq, .eq), (.vfcmpLt, .lt), (.vfcmpLe, .le), (.vfcmpNe, .ne), (.vfcmpUnord, .unord), (.vfcmpOrd, .ord)]

/-- Integer reductions: the function that folds the active elements into element 0 of vb (R177). -/
def reduceTable : List (VOpc × ((n : Nat) → BitVec n → BitVec n → BitVec n)) :=
  [(.vredsum, fun _ r x => r + x), (.vredmax, fun _ r x => if r.toInt < x.toInt then x else r),
    (.vredmin, fun _ r x => if r.toInt < x.toInt then r else x), (.vredmaxu, fun _ r x => if r.toNat < x.toNat then x else r),
    (.vredminu, fun _ r x => if r.toNat < x.toNat then r else x), (.vredand, fun _ r x => r &&& x),
    (.vredor, fun _ r x => r ||| x), (.vredxor, fun _ r x => r ^^^ x)]

/-- Sequential partial results from a start, by element, with the flags that each operation raised (R65, R178, R179). -/
def running (f : Nat → Nat → FRes) : Nat → List (Nat × Nat) → List (Nat × Nat × Nat)
  | _, [] => []
  | acc, (i, x) :: xs => (i, (f acc x).1, (f acc x).2) :: running f (f acc x).1 xs

/-- The last of the partial results, or the start. -/
def lastOf (start : Nat) (l : List (Nat × Nat × Nat)) : Nat := ((l.getLast?).map (·.2.1)).getD start

/-- The flags of partial results. -/
def runningFlags (l : List (Nat × Nat × Nat)) : ElemFlags := l.map fun x => (x.1, x.2.2)

/-- The active elements of a register with their indexes. -/
def activeElems (s : State) (a : Reg) (w : Fin 8) : List (Nat × Nat) := (actives s w).map fun i => (i, s.hart.elem a i)

/-- The element that a reduction writes: none when VL is 0 (R64). -/
def firstElem (s : State) : List Nat := if vlNow s = 0 then [] else [0]

/-- How many of the active elements satisfy a condition. -/
def countActive (s : State) (w : Fin 8) (p : Nat → Bool) : Nat := ((actives s w).filter p).length

/-! ### Element accesses (R143 to R159) -/

/-- A state whose maps, rights, owned lines, errors and watch bits are those of `s`, and whose memory differs from it at
most at the targets given: accesses find their way in it as in `s`. -/
structure Alike (touched : Target → Prop) (s u : State) : Prop where
  wf : memWf u.mem = true
  sparing : u.ctl.sparing = s.ctl.sparing
  bad : ∀ b : Nat, u.badUnit b = s.badUnit b
  watch : u.ctl.watch = s.ctl.watch
  owned : u.owned = s.owned
  world : u.wrg = s.wrg ∧ u.pkgSecure = s.pkgSecure ∧ SameCores s u ∧ u.clusters = s.clusters
  links : u.links = s.links
  cells : u.cells = s.cells
  bytes : ∀ loc : Nat, ¬ touched (.mem loc) → readByte u.mem loc = readByte s.mem loc

/-- Every access of a set reaches its targets, whatever the others have written: the page tables map it, admit it and
have their A and D bits set, no engine owns a line of it, and its blocks are sound. -/
structure AllFound {ι : Type} (s : State) (via : ι → Via) (k : Kind) (va : ι → Word) (len : Nat) (is : List ι)
    (extra : List Target) (ts : ι → List Target) : Prop where
  reach : ∀ i ∈ is, ∀ u : State, Alike (fun x => x ∈ extra ∨ ∃ j ∈ is, x ∈ ts j) s u →
    access u s.hart.agent (via i) k (va i) len = .ok (u, ts i)
  sound : ∀ i ∈ is, (ts i).any s.badTarget = false

/-- Likewise, and no watch bit counts. -/
structure AllReach {ι : Type} (s : State) (via : ι → Via) (k : Kind) (va : ι → Word) (len : Nat) (is : List ι)
    (extra : List Target) (ts : ι → List Target) : Prop extends AllFound s via k va len is extra ts where
  unwatched : s.hart.csr.status.priv = true ∨ ∀ i ∈ is, (ts i).any s.watchedTarget = false

/-- Bits of a memory element of a VM instruction: its fmt, or SEW where fmt has no meaning. -/
def bitsFor (s : State) (o : VMOp) (byFmt : Bool) : Nat := if byFmt then memBits s.hart.sew o.fmt else s.hart.sew

/-- The memory element number of element i: i, i · g[b] or the index in vb (R143). -/
def memberOf (s : State) (o : VMOp) (mode : MemMode) (i : Nat) : Int := memElem s.hart mode (s.getG o.b) o.b i

/-- The address of element i (R143). -/
def elemAddr (s : State) (o : VMOp) (mode : MemMode) (byFmt : Bool) (i : Nat) : Word :=
  memAddr (s.getG o.a) (bitsFor s o byFmt) (memberOf s o mode i)

/-- Element i accesses memory from its lane (R13). -/
def laneVia (s : State) (i : Nat) : Via := .element (s.hart.laneOf i)

/-- The elements that a VM instruction performs (R20, R149). -/
def pending (s : State) (w : Fin 8) : List Nat := (actives s w).filter fun i => !(s.hart.maskValid && s.hart.mask.getLsbD i)

/-- What an instruction that accesses memory asks of the state beside a free vector unit: no hit or replay is carried,
no write of the hart waits, memory is in its canonical form, and the pin table of the core is free (R155, R271, R289,
R374). -/
structure MemReady (s : State) : Prop where
  ready : VReady s
  hit : s.hart.watchHit = none
  replay : s.hart.replay = []
  pend : s.hart.pend = []
  wf : s.memoriesWf = true
  queue : (s.coreSt s.core).pinQueue = []
  pins : ∀ h ∈ s.others, ∀ e ∈ h.entries, e.pins = []

/-- Likewise for a VM instruction, whose base is a multiple of the element (R144). -/
structure MReady (s : State) (o : VMOp) (bytes : Nat) : Prop extends MemReady s where
  base : (s.getG o.a).toNat % bytes = 0

/-- What a completed VM instruction leaves, beside the registers `vregs` and what it stores: every other register,
every other hart and the rest of the module; hotness counts, what the controllers keep of blocks and the bookkeeping
of the queue may change. -/
structure MFrame (v : VInstr) (vregs : List Reg) (s t : State) : Prop where
  pc : t.hart.pc = s.hart.pc + BitVec.ofNat 64 (instrLen v.toInstr)
  vstart : t.hart.csr.vstart = 0
  queue : t.hart.viq = []
  vkeep : ∀ r : Reg, r ∉ vregs → t.hart.getV r = s.hart.getV r
  cores : SameCores s t
  frame : t = { s with
    mem := t.mem, fresh := t.fresh, cores := t.cores
    ctl := { s.ctl with
      hotness := t.ctl.hotness, blockMeta := t.ctl.blockMeta, sectors := t.ctl.sectors, dirty := t.ctl.dirty }
    hart := { s.hart with
      pc := t.hart.pc, v := t.hart.v, k := t.hart.k, vfull := t.hart.vfull, filling := t.hart.filling
      groups := t.hart.groups, convoy := t.hart.convoy, gone := t.hart.gone, used := t.hart.used
      credit := t.hart.credit, waits := t.hart.waits, sSeen := t.hart.sSeen, openStrip := t.hart.openStrip
      headTrapped := false, mask := 0
      maskValid := false, watchHit := none, tag := t.hart.tag, tagDone := t.hart.tagDone
      csr := { s.hart.csr with
        vstart := 0, vdirty := t.hart.csr.vdirty, fflags := t.hart.csr.fflags, iflags := t.hart.csr.iflags
        firstx := t.hart.csr.firstx, firstxi := t.hart.csr.firstxi, evcnt := t.hart.csr.evcnt
        status := { s.hart.csr.status with vs := t.hart.csr.status.vs } } } }

/-- Every byte that no access of the set reaches reads as before. -/
def SameOffAll {ι : Type} (is : List ι) (extra : List Target) (ts : ι → List Target) (s t : State) : Prop :=
  ∀ loc : Nat, Target.mem loc ∉ extra → (∀ i ∈ is, Target.mem loc ∉ ts i) → readByte t.mem loc = readByte s.mem loc

/-- No other access of the set reaches a byte of access i. -/
def Alone {ι : Type} (is : List ι) (ts : ι → List Target) (i : ι) : Prop := ∀ j ∈ is, j ≠ i → ∀ x ∈ ts i, x ∉ ts j

/-- The number that an access reads in a state. -/
def numAt (s : State) (ts : List Target) : Nat := numberAt s s.hart.agent ts

/-- The memory element in the bytes read: a nibble for a 4-bit format, by the parity of its number (R143). -/
def elemBits (bits : Nat) (m : Int) (raw : Nat) : Nat := if bits = 4 then raw / 16 ^ (m % 2).toNat % 16 else raw

/-- The loads with their modes (R150, R151). -/
def vLoadTable : List (VMOpc × MemMode) :=
  [(.vldUnit, .unit), (.vldStrided, .strided), (.vldIndexed, .indexed), (.vldff, .unit)]

/-- The stores with their modes (R150). -/
def vStoreTable : List (VMOpc × MemMode) := [(.vstUnit, .unit), (.vstStrided, .strided), (.vstIndexed, .indexed)]

/-- The blending stores with their modes (R152). -/
def vBlendTable : List (VMOpc × MemMode) := [(.vstbUnit, .unit), (.vstbStrided, .strided), (.vstbIndexed, .indexed)]

/-- The vector atomics with their functions of memory and the element of vd (R153). -/
def vAmoTable : List (VMOpc × ((n : Nat) → BitVec n → BitVec n → BitVec n)) :=
  [(.vamoadd, fun _ a b => a + b), (.vamoand, fun _ a b => a &&& b), (.vamoor, fun _ a b => a ||| b),
    (.vamoxor, fun _ a b => a ^^^ b), (.vamomin, fun _ a b => if a.toInt < b.toInt then a else b),
    (.vamomax, fun _ a b => if a.toInt < b.toInt then b else a), (.vamoswap, fun _ _ b => b)]

/-- How the VM members that run by R147 access memory: mode, kind, and whether fmt sets the element size. -/
def accessTable : List (VMOpc × MemMode × Kind × Bool) :=
  [(.vldUnit, .unit, .load, true), (.vldStrided, .strided, .load, true), (.vldIndexed, .indexed, .load, true),
    (.vldff, .unit, .load, true), (.vstUnit, .unit, .store, true), (.vstStrided, .strided, .store, true),
    (.vstIndexed, .indexed, .store, true), (.vstbUnit, .unit, .rmw, false), (.vstbStrided, .strided, .rmw, false),
    (.vstbIndexed, .indexed, .rmw, false), (.vamoadd, .indexed, .rmw, false), (.vamoand, .indexed, .rmw, false),
    (.vamoor, .indexed, .rmw, false), (.vamoxor, .indexed, .rmw, false), (.vamomin, .indexed, .rmw, false),
    (.vamomax, .indexed, .rmw, false), (.vamoswap, .indexed, .rmw, false), (.vscaddD, .indexed, .rmw, false),
    (.vscaddU, .indexed, .rmw, false)]

/-- The members that reach this module's LPDDR6 alone (R153, R154). -/
def ddrMembers : List VMOpc :=
  [.vamoadd, .vamoand, .vamoor, .vamoxor, .vamomin, .vamomax, .vamoswap, .vscaddD, .vscaddU]

/-- Targets in this module's LPDDR6 (R153, R154). -/
def InDdr (ts : List Target) : Prop := ∀ x ∈ ts, ∃ loc : Nat, x = .mem loc ∧ loc < lpddrEnd

/-- The rounding of VSTB and VSCADD: RNE, subnormals kept (R152, R154). -/
def memEnv (s : State) : FEnv := { fmt := fmtOf s.hart.sew, mode := .rne, flushIn := false, flushOut := false }

/-! ### Tile and array instructions (R211 to R241) -/

/-- What a completed tile or array instruction may change: accumulators, slots, the core's and the cluster's records,
cells, vector registers, flags, memory and the bookkeeping of the queue. Each statement says which of them it changes.
-/
structure TFrame (v : VInstr) (s t : State) : Prop where
  pc : t.hart.pc = s.hart.pc + 8
  vstart : t.hart.csr.vstart = 0
  queue : t.hart.viq = []
  frame : t = { s with
    mem := t.mem, acc := t.acc, slots := t.slots, cells := t.cells, cores := t.cores, clusters := t.clusters, fresh := t.fresh
    ctl := { s.ctl with
      hotness := t.ctl.hotness, blockMeta := t.ctl.blockMeta, sectors := t.ctl.sectors, dirty := t.ctl.dirty }
    hart := { s.hart with
      pc := t.hart.pc, v := t.hart.v, vfull := t.hart.vfull, filling := t.hart.filling
      groups := t.hart.groups, convoy := t.hart.convoy, gone := t.hart.gone, used := t.hart.used
      usedSte := t.hart.usedSte, granted := t.hart.granted, credit := t.hart.credit, waits := t.hart.waits
      sSeen := t.hart.sSeen, openStrip := t.hart.openStrip
      headTrapped := false, mask := 0, maskValid := false, watchHit := none, tag := t.hart.tag, tagDone := t.hart.tagDone
      csr := { s.hart.csr with
        vstart := 0, vdirty := t.hart.csr.vdirty, fflags := t.hart.csr.fflags, iflags := t.hart.csr.iflags
        firstx := t.hart.csr.firstx, firstxi := t.hart.csr.firstxi, evcnt := t.hart.csr.evcnt
        status := { s.hart.csr.status with vs := t.hart.csr.status.vs } } } }

/-- An MROW has joined its tile queue and waits (R220): it has left the VIQ, and beside PC, the bookkeeping of its
issue and its request nothing has changed. -/
structure TileWaits (v : VInstr) (q : TileReq) (s t : State) : Prop where
  queue : t.hart.viq = []
  tiles : t.hart.tiles = [q]
  cores : SameCores s t
  frame : t = { s with cores := t.cores, hart := { s.hart with
    pc := s.hart.pc + BitVec.ofNat 64 (instrLen v.toInstr), tiles := t.hart.tiles, groups := t.hart.groups
    convoy := t.hart.convoy, gone := t.hart.gone, used := t.hart.used, credit := t.hart.credit, waits := t.hart.waits
    sSeen := t.hart.sSeen, headTrapped := false, tag := t.hart.tag
    csr := { s.hart.csr with evcnt := t.hart.csr.evcnt } } }

/-- The parts of a state that tile and array instructions share, each the same in `t` as in `s`. -/
structure Kept (s t : State) : Prop where
  mem : t.mem = s.mem
  acc : t.acc = s.acc
  slots : t.slots = s.slots
  cells : t.cells = s.cells
  cores : SameCores s t
  clusters : t.clusters = s.clusters
  v : t.hart.v = s.hart.v

/-- Bytes of an element of an accumulator row (R224). -/
def efBytes (ef : Ef) : Nat := if ef = .fp64 then 8 else 4

/-- The accumulator row of an instruction: its row field plus g[rr] (R216, R225). -/
def rowAt (s : State) (row : Fin 64) (rr : Reg) : Nat := row.val + (s.getG rr).toNat

/-- Byte b of a row of an accumulator tile of the hart's core. -/
def accByte (s : State) (tile : Fin 4) (row b : Nat) : Byte := readByte s.acc (accLoc s.core tile row b)

/-- Element e of a row, of `n` bytes. -/
def accAt (s : State) (tile : Fin 4) (row n e : Nat) : Nat := leNat ((List.range n).map fun b => accByte s tile row (n * e + b))

/-- Every accumulator byte outside a row of a tile of the hart's core is as before. -/
def SameOffRow (tile : Fin 4) (row : Nat) (s t : State) : Prop :=
  ∀ loc : Nat, (∀ b : Nat, b < 1024 → loc ≠ accLoc s.core tile row b) → readByte t.acc loc = readByte s.acc loc

/-- Element e of a row of memory bytes, of `bits` bits. -/
def elemIn (bits : Nat) (bs : List Byte) (e : Nat) : Nat :=
  if bits = 4 then ((bs[e / 2]?).getD 0).toNat / 16 ^ (e % 2) % 16
  else leNat ((List.range (bits / 8)).map fun b => (bs[e * (bits / 8) + b]?).getD 0)

/-- No other hart of the core waits at its STE, and the STE is free (R220). -/
def SteFree (s : State) : Prop :=
  (s.coreSt s.core).steUntil ≤ s.time ∧
    ∀ h ∈ s.others, coreOf h.csr.hartid = s.core → h.run ≠ .vacant → h.tiles = []

/-- The request that an MROW makes (R220). -/
def rowRequest (s : State) (o : MrowOp) : TileReq :=
  { high := o.q, since := s.time
    entry := { entryOf s (.mrow o) with begun := true, flying := true, first := s.hart.csr.vstart } }

/-- No request of another hart of the core goes before a tile instruction that issues now (R220). -/
def SteTakes (s : State) : Prop :=
  ∀ h ∈ s.others, coreOf h.csr.hartid = s.core → h.run ≠ .vacant → dueTilesOf s h = []

/-- Clearing the low four significand bits of an A element loses a 1: it is neither infinite nor NaN, and one of them
is set (R57). -/
def losesPlane (x : Nat) : Prop := x / 2 ^ 7 % 256 ≠ 255 ∧ x % 16 ≠ 0

/-- A legal image takes at most the 64 entries of the pin table, one for each page that its bytes reach (R271). -/
def ImagePins (s : State) (base : Word) (len : Nat) : Prop :=
  (chunkPages s s.hart.agent (fun n => base + BitVec.ofNat 64 n)
    ((List.range ((len + 4095) / 4096)).map (4096 * ·) ++ [len - 1])).length ≤ 64

/-- The state in which the step that is in progress in the array of the hart's cluster has ended (R240). -/
def landed (s : State) : State := s.landRows s.cluster

/-- A clause's output over a literal vector: every included literal is true; a clause that includes nothing gives
`empty` (R228, R233, R237). -/
def ClauseHolds (s : State) (x : VBits) (empty : Bool) (c : Nat) : Prop :=
  let w := (s.clusterSt s.cluster).config
  let inc (l : Nat) : Prop := l ∈ usedCols w ∧ 128 ≤ s.cell s.cluster c l
  (∃ l, inc l) ∧ (∀ l, inc l → litOf x l = true) ∨ (¬ ∃ l, inc l) ∧ empty = true

/-- The vote of class j over the clauses of a set, clamped to ±T (R234). -/
def VoteIs (w : Word) (on : Nat → Bool) (j : Nat) (v : Int) : Prop :=
  let sum := (((List.range (cfgC w)).filter fun c => c * cfgL w / cfgC w == j && on c).map
    fun c => if c % 2 = 0 then (1 : Int) else -1).sum
  v = max (-(cfgT w : Int)) (min (cfgT w) sum)

/-- A step of the array: each clause that `pick` chooses has the used cells of its row nudged by the type that it
gives, from the states at the start of the step; every other cell stays, STEPS rises by 1, and no row has still to
change (R237, R238, R240). -/
def ArrayStepped (x : VBits) (pick : Nat → Option Nat) (s t : State) : Prop :=
  let cl := s.cluster
  let a := s.clusterSt cl
  (∀ c l : Nat, c < 1024 → l < 1024 → t.cell cl c l =
    match if c < cfgC a.config ∧ l % 512 < cfgF a.config then pick c else none with
    | some ty => nudge a c l ty (clauseOut s cl a.config x true c) (litOf x l) (s.cell cl c l)
    | none => s.cell cl c l) ∧
  (∀ loc : Nat, loc / 2 ^ 20 ≠ cl → readByte t.cells loc = readByte s.cells loc) ∧
  t.clusterSt cl = { a with steps := a.steps + 1, rows := [], stepBy := s.hart.csr.hartid } ∧
  ∀ n : Nat, n ≠ cl → t.clusterSt n = s.clusterSt n


/-! ### Events beside the instructions -/

/-- The four event counters gained `k` events of a code where they select it, and nothing else of the hart changed
(R380). -/
def Counted (code k : Nat) (h h' : Hart) : Prop :=
  h' = { h with csr := { h.csr with evcnt := h'.csr.evcnt } } ∧ ∀ (i : Nat) (hi : i < 4), h'.csr.evcnt[i] =
    if (h.csr.evsel[i]).toNat = code then h.csr.evcnt[i] + BitVec.ofNat 64 k else h.csr.evcnt[i]

/-- Answers to an outside access. -/
def toPort (r : BusResp) (s : State) : State := { s with host := { s.host with hostResp := r } }
/-- Likewise for a peer. -/
def toPeer (r : BusResp) (s : State) : State := { s with host := { s.host with peerResp := r } }

/-- An agent outside the module that reaches LPDDR6: a port's BAR2 once boot has finished, or a peer over an up link;
with its event, its world, where its answer goes, and how it waits (R385, R387, R396). -/
inductive Outside (s : State) : (BusAccess → Instr) → Bool → (BusResp → State → State) → (BusAccess → Recall) → Prop
  | host (p : Fin 2) : s.host.bootState = 3 → s.cutOff = false → Outside s (.hostAccess p) false toPort (.host p)
  | peer (l : Fin 24) : (s.link l).up = true → Outside s (.peerAccess l) (s.link l).secure toPeer (.peer l)

/-- Every block of a set has taken the bytes written to it: its line in L2 is modified, or it has none and the
controller has encoded it afresh, entry and sectors. Every other block stands as it was (R266, R274, R275, R279). -/
def BlocksTaken (hit : Nat → Prop) (s t : State) : Prop :=
  ∀ b : Nat,
    (hit b ∧ b ∉ s.ctl.lines →
      mapGet 0 t.ctl.blockMeta b = encodeEntry (s.blockCompressed b) (readBytes t.mem (256 * b) 256) ∧
      mapGet [] t.ctl.sectors b = encodeSectors (s.blockCompressed b) (readBytes t.mem (256 * b) 256)) ∧
    (¬ (hit b ∧ b ∉ s.ctl.lines) → mapGet 0 t.ctl.blockMeta b = mapGet 0 s.ctl.blockMeta b ∧
      mapGet [] t.ctl.sectors b = mapGet [] s.ctl.sectors b) ∧
    (b ∈ t.ctl.dirty ↔ b ∈ s.ctl.dirty ∨ hit b ∧ b ∈ s.ctl.lines)

/-- A block of LPDDR6 holds one of `n` bytes from `pa` up. -/
def MeetsBlock (pa n b : Nat) : Prop := 256 * b < lpddrEnd ∧ pa < 256 * b + 256 ∧ 256 * b < pa + n

/-- Bytes written at the home of LPDDR6 by a controller: they stand at `pa`, no other byte has changed, the blocks
have taken them, and a block written whole has lost its error (R266, R279, R283). -/
structure HomeWritten (pa : Nat) (bs : List Byte) (s t : State) : Prop where
  stored : ∀ (i : Nat) (b : Byte), bs[i]? = some b → readByte t.mem (pa + i) = b
  bytes : SameOutside pa bs.length s t
  blocks : BlocksTaken (MeetsBlock pa bs.length) s t
  bad : ∀ b : Nat, b ∈ t.ctl.bad ↔
    b ∈ s.ctl.bad ∧ ¬ (256 * b < lpddrEnd ∧ pa ≤ 256 * b ∧ 256 * b + 256 ≤ pa + bs.length)
  ctl : t.ctl = { s.ctl with
    blockMeta := t.ctl.blockMeta, sectors := t.ctl.sectors, dirty := t.ctl.dirty, bad := t.ctl.bad }

/-- Table 05-6 as a peer's read-modify-write performs it at its home (R306): the new value of the old one and the
operand. -/
def busTable : List (BusRmw × ((w : Nat) → BitVec w → BitVec w → BitVec w)) :=
  [(.add, fun _ a b => a + b), (.and, fun _ a b => a &&& b), (.or, fun _ a b => a ||| b), (.xor, fun _ a b => a ^^^ b),
    (.min, fun _ a b => if a.toInt < b.toInt then a else b), (.max, fun _ a b => if a.toInt < b.toInt then b else a),
    (.minu, fun _ a b => if a.toNat < b.toNat then a else b), (.maxu, fun _ a b => if a.toNat < b.toNat then b else a),
    (.swap, fun _ _ b => b)]

/-- The event that a waiting outside access repeats (R311). -/
noncomputable def recallEvent : Recall → Instr
  | .host p acc => .hostAccess p acc
  | .peer l acc => .peerAccess l acc

/-- An outside access can still perform: its port has power, or its link is up. -/
def CanArrive (s : State) : Recall → Prop
  | .host _ _ => s.cutOff = false
  | .peer l _ => (s.link l).up = true

/-- With nothing before it, an outside access waits for a line that an engine owns (R311). -/
def WaitsForLine (s : State) (r : Recall) : Prop :=
  CanArrive s r ∧ exec (recallEvent r) { s with recalled := [] } = .next { s with recalled := [r] }

/-- The waiting accesses that cannot perform: each waits for its line, or an earlier one of its source waits before it
(R311, R387). -/
def AllWait (s : State) (rs : List Recall) : Prop :=
  ∀ (i : Nat) (q : Recall), rs[i]? = some q → (rs.take i).any q.sameSource = true ∨ WaitsForLine s q

/-- No access of a port waits for a line that an engine owns, so that its next one is taken at once (R311, R387). -/
def PortFree (s : State) (p : Fin 2) : Prop := ∀ r ∈ s.recalled, r.port ≠ some p

/-- The write of a doubleword register of BAR0 (R385). -/
def barWrite (off : Nat) (x : Word) : BusAccess := .write (BitVec.ofNat 48 (2 ^ 47 + off)) (leBytes 8 x.toNat) false

/-- An access of a port has joined those that wait (R387). -/
def waiting (s : State) (r : Recall) : State := { s with recalled := s.recalled ++ [r] }

/-- No engine owns the line of a request that the kernel has still to read (R311). -/
def RequestsFree (s : State) : Prop := ∀ q ∈ s.host.requests, s.ownedRange q.addr.toNat 64 = false

/-- An image for SPI NOR is a kernel image, by its KIND (Table 18-4). -/
abbrev kernelImage (image : List Byte) : Prop := leNat ((image.drop 0xC).take 4) = 2

/-- The kernel runs, no engine owns a request's line, and request `i` is the next of an OP to be performed (R388). -/
structure NextRequest (s : State) (op i : Nat) (r : Request) : Prop where
  free : RequestsFree s
  up : s.host.kernelUp = true
  ready : s.host.bootState = 3
  here : s.host.requests[i]? = some r
  next : nextRequest s op = some i

/-- The host's record with the result of request `i`. -/
def resulted (s : State) (i : Nat) (r : Request) (x : Fin 5) : HostSt :=
  { s.host with requests := s.host.requests.set i { r with result := some x } }

/-- The operations of the management kernel with their OP (Table 18-3). -/
def requestTable : List (Nat × Instr) := [(1, .reqLoad), (2, .reqAttest), (3, .reqDrain), (4, .returnCluster), (5, .reqRetire)]

/-- A location belongs to a block whose world bit is set (R395). -/
def OfBlock : Block → Nat → Prop
  | .core n, loc => (∃ o : Nat, o < 2 ^ 19 ∧ loc = coreLoc n.val o) ∨ ∃ k o : Nat, k < 32 ∧ o < 4096 ∧ loc = laneLoc n.val k o
  | .clusterMem n, loc => ∃ o : Nat, o < 2 ^ 22 ∧ loc = clusterLoc n.val o
  | .package d, loc => ∃ o : Nat, o < 2 ^ 54 ∧ loc = packageLoc o ∧ o / 4096 % 4 = d.val
  | _, _ => False

/-- A location belongs to a cluster: its memory, and the scratchpads and lane-private memories of its cores (R398). -/
def OfCluster (cl loc : Nat) : Prop :=
  (∃ o : Nat, o < 2 ^ 22 ∧ loc = clusterLoc cl o) ∨
    ∃ n : Nat, n / 8 = cl ∧ ((∃ o : Nat, o < 2 ^ 19 ∧ loc = coreLoc n o) ∨ ∃ k o : Nat, k < 32 ∧ o < 4096 ∧ loc = laneLoc n k o)

/-! ### Engines (R243 to R251, R280 to R284) -/

/-- A state whose maps, rights, links and lines owned by another than an agent are those of `s`, with no error that
`s` has not, and whose memory differs from it at most at the targets given: the agent's translations find their way in
it as in `s`. -/
structure Mapped (eng : Option (Fin 68)) (touched : Target → Prop) (s u : State) : Prop where
  wf : memWf u.mem = true
  sparing : u.ctl.sparing = s.ctl.sparing
  bad : ∀ b : Nat, u.badUnit b = true → s.badUnit b = true
  owned : ∀ loc : Nat, u.ownedLoc eng loc = s.ownedLoc eng loc
  world : u.wrg = s.wrg ∧ u.pkgSecure = s.pkgSecure ∧ u.cores = s.cores ∧ u.clusters = s.clusters
  links : u.links = s.links
  cells : u.cells = s.cells
  bytes : ∀ loc : Nat, ¬ touched (.mem loc) → readByte u.mem loc = readByte s.mem loc

/-- An engine's access of `n` bytes for the hart of a command reaches the targets `ts`, also after writes of the targets
given: the page tables map it, admit it and have their A and D bits set, and no other engine owns a line on the way. -/
def EngineReaches (touched : Target → Prop) (s : State) (c : EngCmd) (k : Kind) (va : Word) (n : Nat) (ts : List Target) : Prop :=
  ∀ u : State, Mapped (some c.slot.engine) touched s u → locate c.slot.agent .engine k (n / 4096 + 2) u va n = .ok (u, ts)

/-- The command that an engine reads from the slot of a record whose chain stands as `v` says. -/
def ReadsCommand (s : State) (r : SlotRec) (v : ChainView) (c : EngCmd) : Prop :=
  ∃ d : Done, loadAt s r.agent .engine (v.slot r.seq) 64 = .ok d ∧ d.st = s ∧ c = { slot := r, dw := words8 d.data, phase := .started }

/-- The trigger of a command is met, or not (R247). -/
def Triggered (s : State) (c : EngCmd) (met : Prop) : Prop :=
  ((c.word 0).getLsbD 12 = false ∧ met) ∨
    ((c.word 0).getLsbD 12 = true ∧ ∃ q : Done, loadAt s c.slot.agent .engine (c.addr 6) 8 = .ok q ∧ q.st = s ∧
      (met ↔ (c.word 0).toNat / 2 ^ 32 ≤ leNat q.data))

/-- The command of a record does not start now: its chain's descriptor lies in a line that another engine owns, or
cannot be read and is another command's to report; it is not the next of its chain, or its slot holds no V; its
trigger is not met; or another engine owns a line of its destination (R244, R247, R248, R311). -/
inductive StaysBack (s : State) (r : SlotRec) : Prop
  | locked : readChain s r = .wait → StaysBack s r
  | unread (f : MemFault) (u : State) : readChain s r = .fault f u → s.isFirst r = false → StaysBack s r
  | turn (v : ChainView) : readChain s r = .ok (s, v) → s.isNext r v = false → StaysBack s r
  | empty (v : ChainView) (c : EngCmd) : readChain s r = .ok (s, v) → ReadsCommand s r v c → (c.word 0).getLsbD 15 = false →
      StaysBack s r
  | trigger (v : ChainView) (c : EngCmd) : readChain s r = .ok (s, v) → ReadsCommand s r v c → c.malformed = false →
      ¬ (c.isEnqVoid = true ∧ 64 ≤ r.engine.val) → (c.word 0).getLsbD 12 = true → Triggered s c False → StaysBack s r
  | lines (v : ChainView) (c : EngCmd) (rows : List (List Target)) : readChain s r = .ok (s, v) → ReadsCommand s r v c →
      c.malformed = false → ¬ (c.isEnqVoid = true ∧ 64 ≤ r.engine.val) → Triggered s c True → c.dest s = .ok (s, rows) →
      rows.any (s.ownedElsewhere r.engine) = true → StaysBack s r

/-- The slot's first doubleword is reached for the engine to clear V in it, no other engine owns its line, and no
hart's write waits (R247, R311). -/
structure SlotReached (s : State) (c : EngCmd) (v : ChainView) (ts : List Target) : Prop where
  wf : s.memoriesWf = true
  memory : AllMemory ts
  reach : EngineReaches (fun x => x ∈ ts) s c .store (v.slot c.slot.seq) 8 ts
  free : s.ownedElsewhere c.slot.engine ts = false
  idle : ∀ h ∈ s.hart :: s.others, h.pend = []

/-- V is cleared in the slot of a command, and no other byte has changed (Table 11-2). -/
def VCleared (s t : State) (c : EngCmd) (ts : List Target) : Prop :=
  Stored t ts (c.word 0 &&& 0xFFFFFFFFFFFF7FFF).toNat ∧ SameOffTargets ts s t

/-- The locations of some rows are owned by an engine. -/
def OwnsRows (t : State) (e : Fin 68) (rows : List (List Target)) : Prop :=
  ∀ row ∈ rows, ∀ loc : Nat, .mem loc ∈ row → ∃ o ∈ t.owned, o.engine = some e ∧ o.lo ≤ loc ∧ loc < o.lo + o.len

/-- The address of source row r (Table 11-3); `idx` is the index that ROWGATHER reads. -/
def sourceAddr (c : EngCmd) (idx r : Nat) : Word :=
  if c.op = 5 then c.addr 1 + BitVec.ofNat 64 (idx * c.len)
  else if c.op = 1 then c.addr 1
  else c.addr 1 + BitVec.ofNat 64 r * c.word 4

/-- The address of destination row r (Table 11-3). -/
def destAddr (c : EngCmd) (r : Nat) : Word := c.addr 2 + BitVec.ofNat 64 r * c.word 5

/-- The targets that a command writes. -/
def written (c : EngCmd) (dst : Nat → List Target) (x : Target) : Prop := ∃ r : Nat, r < c.rows ∧ x ∈ dst r

/-- The destination of a command is reached and sound, and each of its bytes is written once. -/
structure DestReached (s : State) (c : EngCmd) (dst : Nat → List Target) : Prop where
  wf : s.memoriesWf = true
  reach : ∀ r : Nat, r < c.rows → EngineReaches (written c dst) s c .store (destAddr c r) c.len (dst r)
  sound : ∀ r : Nat, r < c.rows → Sound s (dst r)
  once : ∀ r r' i i' : Nat, ∀ x : Target, r < c.rows → r' < c.rows → (dst r)[i]? = some x → (dst r')[i']? = some x →
    r = r' ∧ i = i'

/-- The source of a copy, and the indexes of a ROWGATHER, are reached, sound and owned by no other engine, and none of
their bytes is written by the command. -/
structure SourceReached (s : State) (c : EngCmd) (dst src idx : Nat → List Target) : Prop where
  index : c.op = 5 → ∀ r : Nat, r < c.rows →
    EngineReaches (written c dst) s c .load (c.word 4 + BitVec.ofNat 64 (4 * r)) 4 (idx r) ∧ Sound s (idx r) ∧
      s.ownedElsewhere c.slot.engine (idx r) = false ∧ ∀ x ∈ idx r, ¬ written c dst x
  reach : ∀ r : Nat, r < c.rows →
    EngineReaches (written c dst) s c .load (sourceAddr c (numberAt s c.slot.agent (idx r)) r) c.len (src r)
  sound : ∀ r : Nat, r < c.rows → Sound s (src r)
  free : ∀ r : Nat, r < c.rows → s.ownedElsewhere c.slot.engine (src r) = false
  apart : ∀ r : Nat, r < c.rows → ∀ x ∈ src r, ¬ written c dst x

/-- A command of an engine has been performed: the command's phase says so, the engine owns no line, the blocks that
hold a byte it has written have taken them, encoded afresh where they have no line in L2, and of the rest only memory
has changed (R266, R274, R279). -/
structure Performed (s : State) (c : EngCmd) (dst : Nat → List Target) (t : State) : Prop where
  blocks : s.mapsWf = true →
    BlocksTaken (fun b => ∃ loc : Nat, written c dst (.mem loc) ∧ loc < lpddrEnd ∧ loc / 256 = b) s t
  frame : t = { s with
    mem := t.mem
    ctl := { s.ctl with blockMeta := t.ctl.blockMeta, sectors := t.ctl.sectors, dirty := t.ctl.dirty, bad := t.ctl.bad }
    running := s.running.map fun d => if d.slot = c.slot then { d with phase := .performed } else d
    owned := s.owned.filter fun o => o.engine != some c.slot.engine }

/-- The copy operations with their OP (Table 11-3); COPYD gives the bytes of COPY2D (R278). -/
noncomputable def copyTable : List ((Fin 64 → Instr) × Nat) := [(.engCopy, 1), (.engCopy2d, 2), (.engCopyd, 3), (.engRowgather, 5)]

/-- The memory service operations with their OP (Table 12-6). -/
noncomputable def serviceTable : List ((Fin 4 → Instr) × Nat) :=
  [(.pgmode, 16), (.pgzero, 17), (.hotread, 18), (.hotclear, 19), (.migrate, 20)]

/-- The `n` pages of a memory service command are frames of this module's LPDDR6 that no engine owns, also after
writes of the targets given (R280, R311). -/
structure PagesReached (touched : Target → Prop) (s : State) (c : EngCmd) (n : Nat) (fr : Nat → Nat) : Prop where
  wf : s.mapsWf = true
  reach : ∀ j : Nat, j < n → ∀ u : State, Mapped (some c.slot.engine) touched s u → serviceFrame c j u = .ok (u, fr j)
  free : ∀ j : Nat, j < n → s.frameOwned (fr j) = false

/-- A frame is one of the pages. -/
def IsPage (n : Nat) (fr : Nat → Nat) (f : Nat) : Prop := ∃ j : Nat, j < n ∧ fr j = f

/-- The command has been performed by a memory service engine; beside its phase and ownership only memory and the
controllers' record may have changed. -/
structure Served (s : State) (c : EngCmd) (t : State) : Prop where
  frame : t = { s with
    mem := t.mem, ctl := t.ctl
    running := s.running.map fun d => if d.slot = c.slot then { d with phase := .performed } else d
    owned := s.owned.filter fun o => o.engine != some c.slot.engine }

/-! ### The Helm and the Gimbal -/

/-- The tree holds one region, a leaf whose current record asks for one more gang; its dependences are met, its
budgets and cluster `cl` admit it, its region is not pinned, and the next ramp slot has room for its step (R324 to
R327, R344). -/
structure Launchable (s : State) (leaf : Leaf) (a cl : Nat) : Prop where
  on : s.helmOn = true
  done : s.helm.todo = []
  tree : s.tree = { seen := [leaf.rcb], leaves := [leaf], bad := [], unread := [], waits := false }
  alone : s.helm.gangs = [] ∧ s.helm.claims = [] ∧ s.helm.skipped = []
  vacant : s.hart.run = .vacant
  current : ∃ secure : Bool, leaf.current s = .found a secure
  clear : (recWord s a 9).testBit 61 = false ∧ (recWord s a 9).testBit 62 = false
  check : checkRecord leaf.eff a s = .sound s true
  one : recG s a = recPlaced s a + 1
  budget : s.budgetOk leaf.anc (recH s a) (recStep s a) = true
  fit : s.fit (needOf leaf (newGang leaf a s 0 1) (recH s a)) = some cl
  elastic : leaf.eff.pinned = false
  room : mapGet 0 s.helm.rise (s.slotNow + 1) + recStep s a ≤ s.capEighths

/-- A hart that the Helm has just placed (R34, R326, R328): rank `k` of a gang of a record, in U with IE set and VS
INITIAL, at the record's ENTRY with its ARG in g3, starting in a ramp slot. -/
structure JustPlaced (s : State) (leaf : Leaf) (a cl k : Nat) (h : Hart) : Prop where
  pc : h.pc = BitVec.ofNat 64 (recWord s a 1)
  arg : h.getG 3 = BitVec.ofNat 64 (recWord s a 2)
  zero : ∀ r : Reg, r ≠ 3 → h.getG r = 0
  rank : h.csr.rank = BitVec.ofNat 6 k
  size : h.csr.gangsz = BitVec.ofNat 7 (recH s a)
  cluster : clusterOf h.csr.hartid = cl
  run : h.run = .starting (s.slotNow + 1)
  status : h.csr.status.priv = false ∧ h.csr.status.ie = true ∧ h.csr.status.vs = 1 ∧ h.csr.status.world = leaf.eff.world ∧
    h.csr.status.det = leaf.eff.det
  tvec : h.csr.tvec = (leaf.eff.tvec &&& 0xFFFFFFFFFFFC0) ||| (if leaf.eff.tvec.toNat % 4 = 1 then 1 else 0)
  tables : h.ptroot = leaf.eff.ptroot
  region : h.region = leaf.rcb

/-- What a ramp slot's start makes of a hart that waits for its slot (R326). -/
def startedBy (k : Nat) : Run → Run
  | .starting j => if j ≤ k then .running else .starting j
  | r => r

/-- A gang takes part in a throttle step (R345): one of its harts is placed and its cap can move. -/
def Throttles (s : State) (low : Bool) (g : Gang) : Prop :=
  (∃ h ∈ s.hart :: s.others, h.gang = g.id ∧ h.run ≠ .vacant) ∧ if low then 1 < g.cap else g.cap < 8

/-- The caps have taken one step (R345): down for the gangs of the lowest PRIO above 1/8, or up for those of the highest
PRIO below 8/8. -/
def CapStep (low : Bool) (s : State) (g g' : Gang) : Prop :=
  let first : Prop := Throttles s low g ∧ ∀ x ∈ s.helm.gangs, Throttles s low x → if low then g.prio ≤ x.prio else x.prio ≤ g.prio
  (first → g' = { g with cap := if low then g.cap - 1 else g.cap + 1 }) ∧ (¬ first → g' = g)

/-- Every gang's cap has taken one step, and nothing else has changed but what `h` gives of the Helm. -/
def CapsStepped (low : Bool) (h : HelmSt) (s t : State) : Prop :=
  t = { s with helm := { h with gangs := t.helm.gangs } } ∧ t.helm.gangs.length = s.helm.gangs.length ∧
    ∀ (k : Nat) (g g' : Gang), s.helm.gangs[k]? = some g → t.helm.gangs[k]? = some g' → CapStep low s g g'

/-- A reading or a die's temperature changes the caps only 175 cycles after their last change (R345): before that only
the record `h` of the Helm is new. -/
def CapsOnTime (low : Bool) (h : HelmSt) (s t : State) : Prop :=
  if s.time < s.helm.capAt + 175 then t = { s with helm := h } else CapsStepped low { h with capAt := s.time } s t

/-- A taper step of a ballast is due (R346). -/
def TaperDue (s : State) (b : Ballast) : Prop := b.tapering = true ∧ 0 < b.duty ∧ b.stepAt + 1400 / max 1 b.duty0 ≤ s.time

/-- The slots that a ballast has issued in the interval that its next duty began, up to now (R346). -/
def nextSlots (s : State) (b : Ballast) : Nat :=
  let interval := 1400 / max 1 b.duty0
  min (s.time - (b.stepAt + interval)) interval * (b.duty - 1) / 8

/-- The slots that a taper step of a ballast counts: those of the interval that has passed, at its duty, which are not
yet counted, and those of the next up to now (R346). -/
noncomputable def taperCount (s : State) (b : Ballast) : Nat :=
  open Classical in if TaperDue s b then 1400 / max 1 b.duty0 * b.duty / 8 - b.counted + nextSlots s b else 0

/-- Records of the strip log: 16 · 2^SIZE (Table 01-4). -/
def stripRecords (h : Hart) : Nat := 16 * 2 ^ (h.csr.striplog.toNat / 2 ^ 4 % 2 ^ 4)

/-- STRIPLOG.HEAD (Table 01-4). -/
def stripHead (h : Hart) : Nat := h.csr.striplog.toNat / 2 ^ 52

/-- The address of doubleword `j` of the next record of the strip log (R379). -/
def recordAddr (h : Hart) (j : Nat) : Word :=
  (h.csr.striplog &&& 0xFFFFFFFFFF000) + BitVec.ofNat 64 (32 * (stripHead h % stripRecords h) + 8 * j)

/-- A credit within its bounds (R336). -/
def bounded (x : Int) : Int := max (-(2 ^ 20)) (min x (2 ^ 20 - 1))

/-- The value that updates give an `n`-bit location, in their order (R154). -/
def summed (v : FEnv) (n : Nat) : Nat → List Replay → Nat
  | x, [] => x
  | x, r :: rs => summed v n ((v.add x r.addend).1 % 2 ^ n) rs

end Sys2Proof.Spec

open Sys2Proof Sys2Proof.Machine Sys2Proof.Spec

/-! ## Statements: general registers and scalar instructions -/

/-- g0 reads zero in every state and a write of it changes nothing; any other register reads back what was written, and
no other register changes (R14). -/
def Sys2Proof.Spec.GeneralRegistersReadBack : Prop :=
  ∀ (s : State) (n : Reg) (x : Word), s.getG 0 = 0 ∧ s.setG 0 x = s ∧ (n ≠ 0 → (s.setG n x).getG n = x) ∧
    ∀ m : Reg, m ≠ n → (s.setG n x).getG m = s.getG m

/-- w0 reads 32768 at every index and a write of it changes nothing; a weight written through SetWeight saturates to
32768; no other weight of the register and no other weight register changes (R19). -/
def Sys2Proof.Spec.WeightRegistersSaturate : Prop :=
  ∀ (h : Hart) (w : Fin 8) (i q : Nat), i < 1024 →
    h.rawW 0 i = 32768 ∧ h.setWeight 0 i q = h ∧
    (w ≠ 0 → (h.setWeight w i q).rawW w i = min q 32768) ∧
    (∀ j : Nat, j < 1024 → j ≠ i → (h.setWeight w i q).rawW w j = h.rawW w j) ∧
    ∀ v : Fin 8, v ≠ w → ∀ j : Nat, (h.setWeight w i q).rawW v j = h.rawW v j

/-- The statement that joins `GeneralRegistersReadBack` and `WeightRegistersSaturate`. -/
def Obligations.RegisterFiles : Prop :=
  Spec.GeneralRegistersReadBack ∧ Spec.WeightRegistersSaturate

/-- The members of Table 05-1 that raise no flag write their function of the operands to g[d] and change nothing else;
with d = g0 the result is discarded (R114). -/
def Sys2Proof.Spec.ScalarAluWritesOneRegister : Prop :=
  (∀ row ∈ aluTable, ∀ (o : R3) (s : State), ∃ t, exec (row.1 o) s = .next t ∧
    Writes 4 o.d (row.2 (s.getG o.a) (s.getG o.b)) s t) ∧
  (∀ row ∈ unaryTable, ∀ (o : R2) (s : State), ∃ t, exec (row.1 o) s = .next t ∧ Writes 4 o.d (row.2 (s.getG o.a)) s t) ∧
  (∀ (o : ExtOp) (s : State), ∃ t, exec (.sext o) s = .next t ∧
    Writes 4 o.d ((BitVec.ofNat (extBits o.sz) (s.getG o.a).toNat).signExtend 64) s t) ∧
  (∀ (o : ExtOp) (s : State), ∃ t, exec (.zext o) s = .next t ∧
    Writes 4 o.d (BitVec.ofNat 64 ((s.getG o.a).toNat % 2 ^ extBits o.sz)) s t) ∧
  ∀ (o : SelOp) (s : State), ∃ t, exec (.sel o) s = .next t ∧
    Writes 4 o.d (if s.getG o.x = 0 then s.getG o.b else s.getG o.a) s t

/-- The immediate forms act as the register forms with the sign-extended immediate, or with the 6-bit amount (R116). -/
def Sys2Proof.Spec.ImmediateForms : Prop :=
  (∀ row ∈ immTable, ∀ (o : IOp) (s : State), ∃ t, exec (row.1 o) s = .next t ∧
    Writes 4 o.d (row.2 (s.getG o.a) (o.imm.signExtend 64)) s t) ∧
  ∀ row ∈ shiftTable, ∀ (o : ShOp) (s : State), ∃ t, exec (row.1 o) s = .next t ∧
    Writes 4 o.d (row.2 (s.getG o.a) o.sh.toNat) s t

/-- LIH writes imm20 · 2^12 sign-extended from 32 bits, and ADDPC adds the same value to PC (R117). -/
def Sys2Proof.Spec.UpperImmediates : Prop :=
  ∀ (o : UOp) (s : State),
    (∃ t, exec (.lih o) s = .next t ∧ Writes 4 o.d ((BitVec.ofNat 32 (o.imm.toNat * 2 ^ 12)).signExtend 64) s t) ∧
    ∃ t, exec (.addpc o) s = .next t ∧
      Writes 4 o.d (s.hart.pc + (BitVec.ofNat 32 (o.imm.toNat * 2 ^ 12)).signExtend 64) s t

/-- The compressed forms do what their 32-bit forms do and take two bytes; C.NOP changes nothing but PC, and C.VGAP
adds its count to the gap of a compiler-directed hart only (R92, R93, R114). That two C.VGAPs before one issue add is
the model's choice (log entry 47). -/
def Sys2Proof.Spec.CompressedForms : Prop :=
  (∀ (o : CiOp) (s : State),
    (∃ t, exec (.cAddi o) s = .next t ∧ Writes 2 o.d (s.getG o.d + o.imm.signExtend 64) s t) ∧
    ∃ t, exec (.cLi o) s = .next t ∧ Writes 2 o.d (o.imm.signExtend 64) s t) ∧
  (∀ (o : R2) (s : State),
    (∃ t, exec (.cMv o) s = .next t ∧ Writes 2 o.d (s.getG o.a) s t) ∧
    (∃ t, exec (.cAdd o) s = .next t ∧ Writes 2 o.d (s.getG o.d + s.getG o.a) s t) ∧
    ∃ t, exec (.cSub o) s = .next t ∧ Writes 2 o.d (s.getG o.d - s.getG o.a) s t) ∧
  (∀ s : State, ∃ t, exec .cNop s = .next t ∧ Jumps (s.hart.pc + 2) s t) ∧
  ∀ (n : BitVec 4) (s : State), ∃ t, exec (.cVgap n) s = .next t ∧ t.hart.pc = s.hart.pc + 2 ∧
    t.hart.vgap = (if s.hart.csr.status.cd then s.hart.vgap + n.toNat else s.hart.vgap) ∧
    t = { s with hart := { s.hart with pc := t.hart.pc, vgap := t.hart.vgap } }

/-- The statement that joins `ScalarAluWritesOneRegister`, `ImmediateForms`, `UpperImmediates` and `CompressedForms`.
It rests on a choice or reading of the model: log entry 47. -/
def Obligations.ScalarArithmetic : Prop :=
  Spec.ScalarAluWritesOneRegister ∧ Spec.ImmediateForms ∧ Spec.UpperImmediates ∧ Spec.CompressedForms

/-- The divisions: a zero divisor gives all ones or the dividend and sets IFLAGS.DZ, −2^63 by −1 gives −2^63 or 0 and
sets IFLAGS.OV, and every other division sets no flag; none traps, and no field of FIRSTXI is written (R115). -/
def Obligations.DivisionCorners : Prop :=
  ∀ row ∈ divTable, ∀ (o : R3) (s : State), ∃ t, exec (row.1 o) s = .next t ∧
    (s.getG o.b = 0 → WritesFlags 4 o.d (row.2.2.1 (s.getG o.a)) 0 1 s t) ∧
    (∀ r : Word, row.2.2.2 = some r → divOverflows (s.getG o.a) (s.getG o.b) → WritesFlags 4 o.d r 0 2 s t) ∧
    (s.getG o.b ≠ 0 → (row.2.2.2 = none ∨ ¬ divOverflows (s.getG o.a) (s.getG o.b)) →
      Writes 4 o.d (row.2.1 (s.getG o.a) (s.getG o.b)) s t)

/-- A scalar load whose bytes are reached, sound and unwatched puts them, extended, into g[d], once the hart's own
waiting writes to them have performed; beside g[d] and PC only the A bits that its translations set change, and with d
= g0 the access still happens (R14, R118, R119, R289). -/
def Sys2Proof.Spec.ScalarLoadResults : Prop :=
  ∀ (s : State) (i : Instr) (len n : Nat) (ext : Nat → Word) (d : Reg) (va : Word), IsLoad s i len n ext d va →
    ∀ (s1 : State) (ts : List Target), Reaches s s.hart.agent (viaOf n) .load va n s1 ts → Sound s1 ts →
      let u := s1.afterOwn s.hart.agent ts
      Unwatched s u ts → ∃ t, exec i s = .next t ∧ Writes len d (ext (numberAt u s.hart.agent ts)) u t

/-- A scalar load from a block with an uncorrectable error takes the machine check, and one that hits a watch bit in U
performs its whole effect and then takes WATCHHIT with its lowest address, the read kind and its length (R283, R364,
R373). -/
def Sys2Proof.Spec.ScalarLoadMachineCheckAndWatch : Prop :=
  ∀ (s : State) (i : Instr) (len n : Nat) (ext : Nat → Word) (d : Reg) (va : Word), IsLoad s i len n ext d va →
    HasHandler s → ∀ (s1 : State) (ts : List Target), Reaches s s.hart.agent (viaOf n) .load va n s1 ts →
      (¬ Sound s1 ts → ∃ t, exec i s = .next t ∧
        Traps { code := 0x10, cls := .scalar, tval := va, taux := 0x100000000 } s.hart.pc s1 t) ∧
      let v := s1.afterOwn s.hart.agent ts
      (Sound s1 ts → ¬ Unwatched s v ts → ∃ u t, exec i s = .next t ∧
        Writes len d (ext (numberAt v s.hart.agent ts)) v u ∧
        Traps { code := 0x0D, cls := .scalar, tval := va, taux := BitVec.ofNat 64 ((1 + 16 * len) * 2 ^ 32) } s.hart.pc u t)

/-- The statement that joins `ScalarLoadResults` and `ScalarLoadMachineCheckAndWatch`. -/
def Obligations.ScalarLoads : Prop :=
  Spec.ScalarLoadResults ∧ Spec.ScalarLoadMachineCheckAndWatch

/-- A scalar store whose bytes are reached in memory writes the low bytes of its register there, and no other byte,
once the hart's own waiting scalar writes to them have performed; beside PC, only what the controllers keep of the
blocks and, over a bad block, the machine check that waits change. When it hits a watch bit in U it then takes
WATCHHIT with its lowest address, the write kind and its length (R118, R119, R266, R279, R289, R373). -/
def Sys2Proof.Spec.ScalarStoreResults : Prop :=
  ∀ (s : State) (i : Instr) (len n : Nat) (x va : Word), IsStore s i len n x va → s.memoriesWf = true → s.loose = false →
    ∀ (s1 : State) (ts : List Target), Reaches s s.hart.agent (viaOf n) .store va n s1 ts → AllMemory ts →
      let v := s1.afterOwn s.hart.agent ts
      (Unwatched s s1 ts → ∃ t, exec i s = .next t ∧ StoreDone len x.toNat ts v t) ∧
      (¬ Unwatched s s1 ts → HasHandler s → ∃ u t, exec i s = .next t ∧ StoreDone len x.toNat ts v u ∧
        Traps { code := 0x0D, cls := .scalar, tval := va, taux := BitVec.ofNat 64 ((2 + 16 * len) * 2 ^ 32) } s.hart.pc u t)

/-- While writes may wait, a scalar store joins its hart's scalar path and memory keeps its bytes; in its turn it
performs its bytes and no others, a misaligned store its next byte, unless an earlier write must go first or it is
held, and then waits no more (R118, R289, R295). That a store waits until a turn of its own is the model's choice (log
entry 5). -/
def Sys2Proof.Spec.WaitingStores : Prop :=
  (∀ (s : State) (i : Instr) (len n : Nat) (x va : Word), IsStore s i len n x va → s.loose = true →
    ∀ (s1 : State) (ts : List Target), Reaches s s.hart.agent (viaOf n) .store va n s1 ts → AllMemory ts →
      Unwatched s s1 ts → exec i s = .next { s1 with hart := { s1.hart with
        pc := s.hart.pc + BitVec.ofNat 64 len
        pend := s1.hart.pend ++ [waitingStore s1 false va ts (leBytes n x.toNat)] } }) ∧
  ∀ (s : State) (k : Nat) (p : Pend) (rest : List Turn), s.agenda = .perform k :: rest → s.powered = true →
    s.hart.pend[k]? = some p → s.memoriesWf = true → (∀ e ∈ s.hart.viq, e.early = []) →
    let first : Prop := (∃ pc : Word, p.kind = .held pc) ∨ ∃ q ∈ s.hart.pend.take k, q.precedes p = true
    let byte : Prop := p.kind = .bytewise ∧ 1 < p.locs.length
    (first → step s = .next { s with agenda := rest }) ∧
    (¬ first → p.locs.Nodup → p.bytes.length = p.locs.length → ∃ t, step s = .next t ∧
      (byte → t.hart.pend = s.hart.pend.set k { p with locs := p.locs.drop 1, bytes := p.bytes.drop 1 }) ∧
      (¬ byte → t.hart.pend = s.hart.pend.eraseIdx k) ∧
      (∀ (j loc : Nat) (b : Byte), (byte → j = 0) → p.locs[j]? = some loc → p.bytes[j]? = some b →
        readByte t.mem loc = (readByte s.mem loc &&& p.keep) ||| (b &&& ~~~p.keep)) ∧
      (∀ loc : Nat, (∀ j : Nat, (byte → j = 0) → p.locs[j]? ≠ some loc) → readByte t.mem loc = readByte s.mem loc) ∧
      t.hart.g = s.hart.g ∧ t.hart.v = s.hart.v ∧ t.hart.pc = s.hart.pc)

/-- A scalar load or store that cannot be translated or is refused traps precisely with the cause, the lowest failing
byte address in TVAL, and no register written nor any byte of memory but the A and D bits of page tables; while an
engine owns a line of its bytes, or of the page table that maps them, it waits with nothing changed but that it waits
(R113, R118, R311, R351). -/
def Sys2Proof.Spec.ScalarAccessFaults : Prop :=
  ∀ (s : State) (i : Instr) (n : Nat) (k : Kind) (va : Word),
    (∃ (len : Nat) (ext : Nat → Word) (d : Reg), IsLoad s i len n ext d va ∧ k = .load) ∨
    (∃ (len : Nat) (x : Word), IsStore s i len n x va ∧ k = .store) →
    (∀ (f : MemFault) (u : State), locate s.hart.agent (viaOf n) k (n / 4096 + 2) s va n = .fault f u → HasHandler s →
      OnlyBytes s u ∧ ∃ t, exec i s = .next t ∧
        Traps { code := f.cause.code, cls := .scalar, tval := f.addr, taux := BitVec.ofNat 64 (f.cause.cspec * 2 ^ 32) }
          s.hart.pc u t) ∧
    (locate s.hart.agent (viaOf n) k (n / 4096 + 2) s va n = .wait → exec i s = .next (waitsAt 0 s)) ∧
    ∀ (s1 : State) (ts : List Target), locate s.hart.agent (viaOf n) k (n / 4096 + 2) s va n = .ok (s1, ts) →
      ts.any (s1.ownedTarget none) = true → exec i s = .next (waitsAt 0 s)

/-- The statement that joins `ScalarStoreResults`, `WaitingStores` and `ScalarAccessFaults`. It rests on choices or
readings of the model: log entries 5 and 40. -/
def Obligations.ScalarStores : Prop :=
  Spec.ScalarStoreResults ∧ Spec.WaitingStores ∧ Spec.ScalarAccessFaults

/-- A compare branch goes to PC + 2 · SignExt(off, 12) when its condition of Table 05-4 holds and to the next
instruction otherwise, and changes nothing but PC; C.BEQZ and C.BNEZ likewise with the signed 5-bit
halfword offset of their imm field (R120, R92, Table 03-7). -/
def Obligations.CompareBranches : Prop :=
  (∀ row ∈ branchTable, ∀ (o : BOp) (s : State), ∃ t, exec (row.1 o) s = .next t ∧
    Jumps (if row.2 (s.getG o.a) (s.getG o.b) then relative s o.off.toInt else s.hart.pc + 4) s t) ∧
  ∀ (o : CiOp) (s : State),
    (∃ t, exec (.cBeqz o) s = .next t ∧
      Jumps (if s.getG o.d = 0 then relative s o.imm.toInt else s.hart.pc + 2) s t) ∧
    ∃ t, exec (.cBnez o) s = .next t ∧
      Jumps (if s.getG o.d = 0 then s.hart.pc + 2 else relative s o.imm.toInt) s t

/-- BSTRIP: a zero count clears the strip record and falls through; a count that has not fallen since the record was
set at the same PC traps NOPROG with VL in CSPEC once the vector unit has drained; otherwise the record is set and the
branch is taken (R121). -/
def Obligations.StripLoops : Prop :=
  ∀ (o : BsOp) (s : State),
    let stuck : Prop := s.hart.strip.valid = true ∧ s.hart.strip.pc = s.hart.pc ∧
      s.hart.strip.value.toNat ≤ (s.getG o.a).toNat
    (s.getG o.a = 0 → exec (.bstrip o) s = .next { s with hart := { s.hart with
      pc := s.hart.pc + 4, strip := { s.hart.strip with valid := false } } }) ∧
    (s.getG o.a ≠ 0 → ¬ stuck → exec (.bstrip o) s = .next { s with hart := { s.hart with
      pc := relative s o.off.toInt, strip := { valid := true, pc := s.hart.pc, value := s.getG o.a } } }) ∧
    (s.getG o.a ≠ 0 → stuck →
      (s.hart.viqReady = true → exec (.bstrip o) s = .next (waitsAt 0 s)) ∧
      (s.hart.viqReady = false → HasHandler s → ∃ t, exec (.bstrip o) s = .next t ∧
        Traps { code := 0x07, cls := .scalar, tval := s.hart.pc
                taux := BitVec.ofNat 64 (s.hart.csr.vl.toNat * 2 ^ 32) } s.hart.pc s t))

/-- J and C.J go to their target; to their own address they park the hart, which fetches nothing further, at the same
PC, and with every register, every byte of memory and everything else but the core's ballast as before; JI goes to
g[a] + SignExt(imm, 12) with bit 0 cleared (R71, R122, R329). -/
def Sys2Proof.Spec.JumpsAndParking : Prop :=
  (∀ (off : BitVec 20) (s : State),
    (off ≠ 0 → ∃ t, exec (.j off) s = .next t ∧ Jumps (relative s off.toInt) s t) ∧
    (off = 0 → ∃ t, exec (.j off) s = .next t ∧ Parked s t)) ∧
  (∀ (off : BitVec 10) (s : State),
    (off ≠ 0 → ∃ t, exec (.cJ off) s = .next t ∧ Jumps (relative s off.toInt) s t) ∧
    (off = 0 → ∃ t, exec (.cJ off) s = .next t ∧ Parked s t)) ∧
  ∀ (o : JiOp) (s : State), ∃ t, exec (.ji o) s = .next t ∧
    Jumps ((s.getG o.a + o.imm.signExtend 64) &&& ~~~1#64) s t

/-- CALL and CALLI push PC + 4 and jump. With 16 entries held, the oldest is first spilled to memory at RASP, RASP
rises by 8 and SPILL by 1; when RASP + 8 is beyond RASL, STACKLIM traps with RASP in TVAL, and when the spill's access
fails, its fault traps; then nothing is pushed (R15, R122, R124). RASP + 8 is compared with RASL as a number, without
a wrap at 2^52, which is the model's choice (log entry 38); while writes may wait the spill waits as a store does (log
entry 5). -/
def Sys2Proof.Spec.CallsPush : Prop :=
  ∀ (i : Instr) (s : State) (target : Word), IsCall s i target →
    (s.hart.rstack.length < 16 → exec i s = .next { s with hart := { s.hart with
      pc := target, rstack := s.hart.rstack ++ [s.hart.pc + 4] } }) ∧
    (s.hart.rstack.length = 16 →
      (s.hart.csr.rasl.toNat < s.hart.csr.rasp.toNat + 8 → HasHandler s → ∃ t, exec i s = .next t ∧
        t.hart.rstack = s.hart.rstack ∧
        Traps { code := 0x05, cls := .scalar, tval := s.hart.csr.rasp, taux := 0 } s.hart.pc s t) ∧
      (∀ (f : MemFault) (u : State), s.hart.csr.rasp.toNat + 8 ≤ s.hart.csr.rasl.toNat → HasHandler s →
        locate s.hart.agent .scalar .store 2 s s.hart.csr.rasp 8 = .fault f u → OnlyBytes s u ∧ ∃ t, exec i s = .next t ∧
          t.hart.rstack = s.hart.rstack ∧ t.hart.csr.rasp = s.hart.csr.rasp ∧ t.hart.csr.spill = s.hart.csr.spill ∧
          Traps { code := f.cause.code, cls := .scalar, tval := f.addr, taux := BitVec.ofNat 64 (f.cause.cspec * 2 ^ 32) }
            s.hart.pc u t) ∧
      ∀ (s1 : State) (ts : List Target), s.hart.csr.rasp.toNat + 8 ≤ s.hart.csr.rasl.toNat → s.memoriesWf = true →
        AllMemory ts → Reaches s s.hart.agent .scalar .store s.hart.csr.rasp 8 s1 ts →
        let rasp := (s.hart.csr.rasp + 8) &&& 0xFFFFFFFFFFFF8
        let left := s.hart.rstack.tail ++ [s.hart.pc + 4]
        (s.loose = true → exec i s = .next { s1 with hart := { s1.hart with
          pc := target, rstack := left, csr := { s1.hart.csr with rasp := rasp, spill := s.hart.csr.spill + 1 }
          pend := s1.hart.pend ++ [waitingStore s1 false s.hart.csr.rasp ts (leBytes 8 (s.hart.rstack.headD 0).toNat)] } }) ∧
        let u := s1.afterOwn s.hart.agent ts
        (s.loose = false → Sound u ts → ∃ t, exec i s = .next t ∧ t.hart.pc = target ∧ t.hart.rstack = left ∧
          t.hart.csr.rasp = rasp ∧ t.hart.csr.spill = s.hart.csr.spill + 1 ∧
          Stored t ts (s.hart.rstack.headD 0).toNat ∧ SameOffTargets ts u t ∧
          t = { u with
            mem := t.mem
            ctl := { u.ctl with blockMeta := t.ctl.blockMeta, sectors := t.ctl.sectors, dirty := t.ctl.dirty }
            hart := { u.hart with
              pc := t.hart.pc, rstack := t.hart.rstack
              csr := { u.hart.csr with rasp := t.hart.csr.rasp, spill := t.hart.csr.spill } } }))

/-- RET and C.RET pop the newest entry into PC with bit 0 cleared; with none held, the newest spilled one is read from
memory below RASP, and RASP and SPILL fall, unless the read fails, whose fault traps; with none at all RETEMPTY traps
with PC in TVAL (R15, R71, R92, R125). -/
def Sys2Proof.Spec.ReturnsPop : Prop :=
  ∀ (i : Instr) (s : State), i = .ret ∨ i = .cRet →
    (∀ (rest : List Word) (x : Word), s.hart.rstack = rest ++ [x] → exec i s = .next { s with hart := { s.hart with
      pc := x &&& ~~~1#64, rstack := rest } }) ∧
    (s.hart.rstack = [] → s.hart.csr.spill = 0 → HasHandler s → ∃ t, exec i s = .next t ∧
      Traps { code := 0x06, cls := .scalar, tval := s.hart.pc, taux := 0 } s.hart.pc s t) ∧
    (∀ (f : MemFault) (u : State), s.hart.rstack = [] → s.hart.csr.spill ≠ 0 → HasHandler s →
      locate s.hart.agent .scalar .load 2 s ((s.hart.csr.rasp - 8) &&& 0xFFFFFFFFFFFF8) 8 = .fault f u →
      OnlyBytes s u ∧ ∃ t, exec i s = .next t ∧ t.hart.csr.rasp = s.hart.csr.rasp ∧ t.hart.csr.spill = s.hart.csr.spill ∧
        Traps { code := f.cause.code, cls := .scalar, tval := f.addr, taux := BitVec.ofNat 64 (f.cause.cspec * 2 ^ 32) }
          s.hart.pc u t) ∧
    (s.hart.rstack = [] → s.hart.csr.spill ≠ 0 → ∀ (s1 : State) (ts : List Target),
      Reaches s s.hart.agent .scalar .load ((s.hart.csr.rasp - 8) &&& 0xFFFFFFFFFFFF8) 8 s1 ts → Sound s1 ts →
      let u := s1.afterOwn s.hart.agent ts
      exec i s = .next { u with hart := { u.hart with
        pc := BitVec.ofNat 64 (numberAt u s.hart.agent ts) &&& ~~~1#64
        csr := { u.hart.csr with
          rasp := (s.hart.csr.rasp - 8) &&& 0xFFFFFFFFFFFF8, spill := u.hart.csr.spill - 1 } } })

/-- The statement that joins `JumpsAndParking`, `CallsPush` and `ReturnsPop`. It rests on choices or readings of the
model: log entries 5 and 38. -/
def Obligations.JumpsAndReturnStack : Prop :=
  Spec.JumpsAndParking ∧ Spec.CallsPush ∧ Spec.ReturnsPop

/-- Every member of Table 05-5 computes in its format and rounding mode, reads its operands from the low bits, writes
the zero-extended result to g[d], gathers its flags in FFLAGS, and changes nothing else (R14, R44, R50, R126). -/
def Sys2Proof.Spec.ScalarFloatResults : Prop :=
  ∀ row ∈ fpTable, ∀ (o : FpOp) (s : State), ∃ t, exec (row.1 o) s = .next t ∧
    FpDone o.d (row.2 (fpOf s o.rm o.ft) (fpLow s o.ft o.a) (fpLow s o.ft o.b) (fpLow s o.ft o.d)) s t

/-- FCVTFI rounds to an integer type, clamped with NV when out of range; FCVTIF rounds an integer type to the format;
FCVTFF rounds one format to another and a signaling NaN sets NV (R127). -/
def Sys2Proof.Spec.ScalarConversions : Prop :=
  (∀ (o : FcvtIOp) (s : State),
    (∃ t, exec (.fcvtfi o) s = .next t ∧
      let r := toInt (rmMode s o.rm) (intRange o.it).1 (intRange o.it).2 ((ftFmt o.ft).value (fpLow s o.ft o.a))
      FpDone o.d ((BitVec.ofInt 64 r.1).toNat, r.2) s t) ∧
    ∃ t, exec (.fcvtif o) s = .next t ∧
      FpDone o.d ((ftFmt o.ft).round (rmMode s o.rm) false (intVal (intOf o.it (s.getG o.a)))) s t) ∧
  ∀ (o : FcvtFOp) (s : State), ∃ t, exec (.fcvtff o) s = .next t ∧
    let x := (ftFmt o.sf).value (fpLow s o.sf o.a)
    let r := (ftFmt o.ft).round (rmMode s o.rm) false x
    FpDone o.d (r.1, r.2 ||| sigNV x) s t

/-- The statement that joins `ScalarFloatResults` and `ScalarConversions`. -/
def Obligations.ScalarFloatingPoint : Prop :=
  Spec.ScalarFloatResults ∧ Spec.ScalarConversions

/-- A read-modify-write at an aligned address that is reached and sound, after the hart's waiting scalar stores have
performed, returns the old value sign-extended in g[d], writes its function of the old value, if it writes, to every
byte of the location and to no other byte, and a release that writes wakes the monitors of the line; AMOCAS and TICKET
among them. When it hits a watch bit in U it then takes WATCHHIT with its address, the kind of a read and write, and
its length (R80, R128, R129, R133, R137, R289, R373). -/
def Sys2Proof.Spec.AtomicResults : Prop :=
  ∀ (s : State) (i : Instr) (o : AmoOp) (f : Nat → Option Nat), IsAtomic s i o f → s.memoriesWf = true →
    (s.getG o.a).toNat % atomicBytes o = 0 → AtHome s (s.getG o.a) →
    ∀ (s1 : State) (ts : List Target), Reaches s s.hart.agent .atomic .rmw (s.getG o.a) (atomicBytes o) s1 ts →
      Sound s1 ts →
      let v := s1.settled s.hart.agent ts
      let old := numberAt v s.hart.agent ts
      ∃ u, SameOffTargets ts v u ∧
        (match f old with
          | some x => Stored u ts x ∧ AtomicFrame o.d (oldResult o old) (releasedLine o ts) v u
          | none => u.mem = v.mem ∧ AtomicFrame o.d (oldResult o old) none v u) ∧
        (Unwatched s v ts → exec i s = .next u) ∧
        (¬ Unwatched s v ts → HasHandler s → ∃ t, exec i s = .next t ∧
          Traps { code := 0x0D, cls := .scalar, tval := s.getG o.a, taux := 0x4300000000 } s.hart.pc u t)

/-- While writes may wait, a read-modify-write of a peer's memory is sent over its link, performs there in a later
turn of its hart, with no register written, and completes with its outcome in another (R306, R307); TAKE and STEAL
among them. The three turns are the model's choice (log entries 5 and 41). -/
def Sys2Proof.Spec.AtomicsAtPeers : Prop :=
  ∀ (s : State) (i : Instr) (o : AmoOp),
    (∀ l : Nat, s.loose = true → linkOver s s.hart.agent (s.getG o.a) = some l →
      (∀ (m : Nat) (x : Option Nat) (hit : Bool), s.hart.run ≠ .peer m x hit) →
      ((∃ f, IsAtomic s i o f) ∧ (s.getG o.a).toNat % atomicBytes o = 0) ∨
        ((i = .take o ∨ i = .steal o) ∧ (s.getG o.a).toNat % 8192 = 0) →
      exec i s = .next { s with hart := { s.hart with run := .peer l none false } }) ∧
    (∀ f : Nat → Option Nat, IsAtomic s i o f → (s.getG o.a).toNat % atomicBytes o = 0 → ∀ (l : Nat) (hit : Bool),
      (∀ (s1 : State) (ts : List Target), s.loose = true → s.memoriesWf = true → s.hart.run = .peer l none hit →
        Reaches s s.hart.agent .atomic .rmw (s.getG o.a) (atomicBytes o) s1 ts → Sound s1 ts →
        let v := s1.settled s.hart.agent ts
        let old := numberAt v s.hart.agent ts
        ∃ t, exec i s = .next t ∧ t.hart.run = .peer l (some old) (ts.any v.watchedTarget) ∧
          t.hart.pc = s.hart.pc ∧ t.hart.g = s.hart.g ∧ SameOffTargets ts v t ∧
          match f old with
          | some x => Stored t ts x
          | none => t.mem = v.mem) ∧
      ∀ old : Nat, s.hart.run = .peer l (some old) hit → s.hart.csr.status.priv = true ∨ hit = false →
        ∃ t, exec i s = .next t ∧ Writes 4 o.d (oldResult o old) { s with hart := { s.hart with run := .running } } t) ∧
    ((i = .take o ∨ i = .steal o) → (s.getG o.a).toNat % 8192 = 0 → ∀ (l x : Nat) (hit : Bool),
      s.hart.run = .peer l (some x) hit → s.hart.csr.status.priv = true ∨ hit = false →
      ∃ t, exec i s = .next t ∧ Writes 4 o.d (BitVec.ofNat 64 x) { s with hart := { s.hart with run := .running } } t)

/-- An address of major 0x0B that is not a multiple of the access (8 KiB for TAKE and STEAL) raises the access fault on
it, with nothing written (R128, R132). -/
def Sys2Proof.Spec.AtomicAlignment : Prop :=
  ∀ (s : State) (i : Instr) (o : AmoOp), HasHandler s →
    (((∃ f, IsAtomic s i o f) ∨ i = .lda o ∨ i = .str o) ∧ (s.getG o.a).toNat % atomicBytes o ≠ 0) ∨
      ((i = .take o ∨ i = .steal o) ∧ (s.getG o.a).toNat % 8192 ≠ 0) →
    ∃ t, exec i s = .next t ∧ Traps { code := 0x03, cls := .scalar, tval := s.getG o.a, taux := 0 } s.hart.pc s t

/-- The statement that joins `AtomicResults`, `AtomicsAtPeers` and `AtomicAlignment`. It rests on choices or readings
of the model: log entries 5 and 41. -/
def Obligations.AtomicUpdates : Prop :=
  Spec.AtomicResults ∧ Spec.AtomicsAtPeers ∧ Spec.AtomicAlignment

/-- LDA reads as a load and sets the monitored line, that of its first byte, in a window too; STR writes as a store,
with release order after the hart's waiting scalar stores, and then wakes the monitors of the line. When one hits a
watch bit in U it then takes WATCHHIT with its address, its kind and its length (R130, R137, R289, R373, R384). While
writes may wait STR waits as a store does, one with release order as a release (log entry 5). It rests on a choice or
reading of the model: log entry 5. -/
def Obligations.OrderedLoadsAndStores : Prop :=
  ∀ (o : AmoOp) (s : State) (s1 : State) (ts : List Target), (s.getG o.a).toNat % atomicBytes o = 0 →
    let hit (kind : Nat) : Trap := { code := 0x0D, cls := .scalar, tval := s.getG o.a
                                     taux := BitVec.ofNat 64 ((kind + 16 * 4) * 2 ^ 32) }
    (Reaches s s.hart.agent (viaOf (atomicBytes o)) .load (s.getG o.a) (atomicBytes o) s1 ts → Sound s1 ts →
      let v := s1.afterOwn s.hart.agent ts
      ∃ u, u.hart.monitor = ts.head?.map Target.line ∧ u.hart.monitorHit = false ∧
        (o.d ≠ 0 → u.getG o.d = oldResult o (numberAt v s.hart.agent ts)) ∧
        (∀ r : Reg, r ≠ o.d → u.getG r = v.getG r) ∧
        u = { v with hart := { v.hart with
          g := u.hart.g, pc := s.hart.pc + 4, monitor := u.hart.monitor, monitorHit := false } } ∧
        (Unwatched s v ts → exec (.lda o) s = .next u) ∧
        (¬ Unwatched s v ts → HasHandler s → ∃ t, exec (.lda o) s = .next t ∧ Traps (hit 1) s.hart.pc u t)) ∧
    (Reaches s s.hart.agent (viaOf (atomicBytes o)) .store (s.getG o.a) (atomicBytes o) s1 ts → AllMemory ts →
      let release := (releasedLine o [.mem 0]).isSome
      (s.loose = true → Unwatched s s1 ts → exec (.str o) s = .next { s1 with hart := { s1.hart with
        pc := s.hart.pc + 4
        pend := s1.hart.pend ++ [waitingStore s1 release (s.getG o.a) ts (leBytes (atomicBytes o) (s.getG o.b).toNat)] } }) ∧
      let u := if release then s1.settled s.hart.agent ts else s1.afterOwn s.hart.agent ts
      (s.loose = false → s.memoriesWf = true → Sound u ts →
        ∃ v, Stored v ts (s.getG o.b).toNat ∧ SameOffTargets ts u v ∧ AtomicFrame 0 0 (releasedLine o ts) u v ∧
          (Unwatched s s1 ts → exec (.str o) s = .next v) ∧
          (¬ Unwatched s s1 ts → HasHandler s → ∃ t, exec (.str o) s = .next t ∧ Traps (hit 2) s.hart.pc v t)))

/-- TAKE and STEAL on a queue object: with TOP below BOTTOM the item at the owner's end or the thieves' end comes back
and BOTTOM falls or TOP rises by 1; otherwise the empty code comes back and nothing is written. When an access hits a
watch bit in U WATCHHIT is then taken with the object's address, the kind of a read and write, and the length (R131,
R132, R289, R372, R373). It rests on a choice or reading of the model: log entry 41. -/
def Obligations.WorkQueues : Prop :=
  ∀ (i : Instr) (o : AmoOp) (take : Bool) (s : State), i = (if take then .take o else .steal o) →
    s.memoriesWf = true → (s.getG o.a).toNat % 8192 = 0 → AtHome s (s.getG o.a) →
    let completes (watched : Prop) (w : State) : Prop := (¬ watched → exec i s = .next w) ∧
      (watched → HasHandler s → ∃ t, exec i s = .next t ∧
        Traps { code := 0x0D, cls := .scalar, tval := s.getG o.a, taux := 0x4300000000 } s.hart.pc w t)
    ∀ (s1 : State) (ts : List Target), Reaches s s.hart.agent .atomic .rmw (s.getG o.a) 16 s1 ts → Sound s1 ts →
      let u := s1.settled s.hart.agent ts
      let top := numberAt u s.hart.agent ts % 2 ^ 64
      let bottom := numberAt u s.hart.agent ts / 2 ^ 64
      (bottom ≤ top → ∃ w, w.mem = u.mem ∧ AtomicFrame o.d 0xFFFFFFFFFFFFFFFF none u w ∧ completes (¬ Unwatched s u ts) w) ∧
      (top < bottom →
        let n := if take then bottom - 1 else top
        ∀ (s2 : State) (us : List Target),
          Reaches u s.hart.agent .atomic .rmw (s.getG o.a + BitVec.ofNat 64 (0x1000 + 8 * (n % 512))) 8 s2 us →
          let v := s2.settled s.hart.agent us
          Sound s2 us → Sound v ts → ∃ w,
            Stored w ts (if take then top + (bottom - 1) * 2 ^ 64 else top + 1 + bottom * 2 ^ 64) ∧
            SameOffTargets ts v w ∧
            AtomicFrame o.d (BitVec.ofNat 64 (numberAt v s.hart.agent us)) (releasedLine o ts) v w ∧
            completes (¬ Unwatched s u ts ∨ ¬ Unwatched s v us) w)

/-! ## Statements: control, traps, waiting and synchronisation -/

/-- CRD puts an admitted control register into g[d] and changes no control register, no other register and no byte of
memory; a vector-side register counts as a drain point, at which producers that have left the VIQ have completed, and
so has a step of the hart in the array (R21, R29, R136, R241). -/
def Sys2Proof.Spec.ControlRegisterReads : Prop :=
  ∀ (o : CrdOp) (s : State) (x : Word), crRead s o.cr.toNat = some x → CrAdmitted s o.cr.toNat →
    let u := crBase s o.cr.toNat
    ∃ t, exec (.crd o) s = .next t ∧ CrFrame o.d x s t ∧ t.hart.csr = s.hart.csr ∧
      t = { u with hart := { s.hart with
        g := t.hart.g, pc := t.hart.pc, vfull := t.hart.vfull, wfull := t.hart.wfull, filling := t.hart.filling } } ∧
      (isVectorSide o.cr.toNat = false → t.hart.vfull = s.hart.vfull ∧ t.hart.wfull = s.hart.wfull ∧
        t.hart.filling = s.hart.filling)

/-- CWR, CRS and CRC return the old value, store what the field rules of the register allow of the new one, and leave
every other control register as it was; read-only registers keep their value. A write of VTYPE in S also writes the
trap copy, and no other write does (R7, R29, R30, R51, R136). -/
def Sys2Proof.Spec.ControlRegisterWrites : Prop :=
  ∀ row ∈ crTable, ∀ (o : CrOp) (s : State) (old : Word), let n := o.cr.toNat
    n ≠ 0x022 → crRead s n = some old → CrAdmitted s n → (n = 0 → s.hart.csr.stripEn = false) →
    ∃ t, exec (row.1 o) s = .next t ∧ CrFrame o.d old s t ∧ crRead t n = some (crStored s n old (row.2 old (s.getG o.a))) ∧
      (∀ m : Nat, m ≠ n → crRead t m = crRead s m) ∧ t = { crBase s n with hart := t.hart, fresh := t.fresh } ∧
      t.hart.trapVtype = (if n = 1 ∧ s.hart.csr.status.priv then t.hart.csr.vtype else s.hart.trapVtype)

/-- A privileged control register or ERET in U, and an unassigned number in any mode, raise ILL with the encoding in
TVAL; a vector-side register while STATUS.VS is OFF raises VFIRST; while the vector unit has work, its access waits,
and the cycle counts as DRAINWAIT (R11, R28, R29, R139, R380). -/
def Sys2Proof.Spec.PrivilegeAndAccessTraps : Prop :=
  (∀ s : State, s.hart.csr.status.priv = false → HasHandler s → ∃ t, exec .eret s = .next t ∧
    Traps { code := 0x01, cls := .scalar, tval := encWord .eret, taux := 0 } s.hart.pc s t) ∧
  ∀ (i : Instr) (n : Nat) (s : State),
    (∃ o : CrdOp, i = .crd o ∧ n = o.cr.toNat) ∨ (∃ row ∈ crTable, ∃ o : CrOp, i = row.1 o ∧ n = o.cr.toNat) →
    ((crRead s n = none ∨ (0x100 ≤ n ∧ s.hart.csr.status.priv = false)) → HasHandler s → ∃ t, exec i s = .next t ∧
      Traps { code := 0x01, cls := .scalar, tval := encWord i, taux := 0 } s.hart.pc s t) ∧
    (isVectorSide n = true → s.hart.csr.status.vs = 0 → HasHandler s → ∃ t, exec i s = .next t ∧
      Traps { code := 0x0C, cls := .scalar, tval := encWord i, taux := 0 } s.hart.pc s t) ∧
    (isVectorSide n = true → s.hart.csr.status.vs ≠ 0 → s.hart.viqReady = true → exec i s = .next (drainWait s))

/-- The statement that joins `ControlRegisterReads`, `ControlRegisterWrites` and `PrivilegeAndAccessTraps`. It rests
on a choice or reading of the model: log entry 11. -/
def Obligations.ControlRegisters : Prop :=
  Spec.ControlRegisterReads ∧ Spec.ControlRegisterWrites ∧ Spec.PrivilegeAndAccessTraps

/-- A write of RASD stores SPILL: CWR and the flush write it, CRS and CRC with bits set or cleared. Without FLUSH, and
with CRC, the held entries stay. A flush whose spills are reached and fit completes: the entries stand at the old RASP
onward, oldest first, DEPTH is 0, RASP has risen by 8 and SPILL by 1 for each. One that would take RASP past RASL
stops with STACKLIM after the entries that fitted, which stay spilled; one whose access fails takes its fault with
nothing done but the A and D bits of the pages that it has reached; one that meets a line that an engine owns waits
(R16, R113, R136, R269, R311). It rests on choices or readings of the model: log entries 38 and 40. -/
def Obligations.ReturnStackFlush : Prop :=
  ∀ (s : State) (i : Instr) (x : Word) (flush : Bool), WritesRasd s i x flush →
    let spill : BitVec 32 := BitVec.ofNat 32 (x.toNat / 2 ^ 16)
    let stored : State := s.onCsr fun c => { c with spill := spill }
    let n := s.hart.rstack.length
    let spilled (t : State) : Prop := t.hart.rstack = [] ∧ t.hart.csr.spill = spill + BitVec.ofNat 32 n ∧
      t.hart.csr.rasp = (if n = 0 then s.hart.csr.rasp else (s.hart.csr.rasp + BitVec.ofNat 64 (8 * n)) &&& 0xFFFFFFFFFFFF8)
    (flush = false → ∃ t, exec i s = .next t ∧ t.hart.rstack = s.hart.rstack ∧ t.hart.csr.spill = spill ∧
      t.hart.csr.rasp = s.hart.csr.rasp ∧ t.mem = s.mem) ∧
    (flush = true →
      (∀ ts : Nat → List Target, n ≤ 16 → s.loose = false → s.hart.pend = [] → s.memoriesWf = true →
        s.hart.csr.rasp.toNat % 8 = 0 → s.hart.csr.rasp.toNat + 8 * n ≤ s.hart.csr.rasl.toNat → s.hart.csr.rasl.toNat < 2 ^ 52 →
        AllFound s (fun _ : Nat => Via.scalar) .store (fun k => s.hart.csr.rasp + BitVec.ofNat 64 (8 * k)) 8 (List.range n) [] ts →
        (∀ k : Nat, k < n → AllMemory (ts k)) → ∃ t, exec i s = .next t ∧ spilled t ∧ SameOffAll (List.range n) [] ts s t ∧
          ∀ (k : Nat) (r : Word), s.hart.rstack[k]? = some r → Alone (List.range n) ts k → Stored t (ts k) r.toNat) ∧
      (∀ u : State, flushStack 17 stored = .done u → n ≤ 16 → ∃ t, exec i s = .next t ∧ spilled t ∧ t.mem = u.mem ∧
        t.hart.pend = u.hart.pend) ∧
      (∀ u : State, flushStack 17 stored = .limit u → HasHandler s → ∃ (t : State) (k : Nat), exec i s = .next t ∧
        k < n ∧ t.hart.rstack = s.hart.rstack.drop k ∧ t.hart.csr.spill = spill + BitVec.ofNat 32 k ∧
        t.hart.csr.rasl.toNat < t.hart.csr.rasp.toNat + 8 ∧
        Traps { code := 0x05, cls := .scalar, tval := u.hart.csr.rasp, taux := 0 } s.hart.pc u t) ∧
      (∀ u : State, flushStack 17 stored = .wait u → exec i s = .next (waitsAt 0 s)) ∧
      ∀ (u : State) (f : MemFault), flushStack 17 stored = .fault u f → HasHandler s → OnlyBytes s s.flushTouched ∧
        ∃ t, exec i s = .next t ∧ t.hart.rstack = s.hart.rstack ∧ t.hart.csr.spill = s.hart.csr.spill ∧
          t.hart.csr.rasp = s.hart.csr.rasp ∧
          Traps { code := f.cause.code, cls := .scalar, tval := f.addr, taux := BitVec.ofNat 64 (f.cause.cspec * 2 ^ 32) }
            s.hart.pc s.flushTouched t)

/-- TRAP raises the software trap with its immediate in TVAL and its length in CSPEC: 4, or 2 for C.TRAP0, whose
immediate is 0. With TVEC.BASE = 0 the gang ends instead: the hart leaves, no hart of the gang stays placed, the harts
of other gangs do, and a message of kind 6 is sent (R134, R350, R353). -/
def Obligations.SoftwareTraps : Prop :=
  (∀ (code : BitVec 12) (s : State), HasHandler s → ∃ t, exec (.trap code) s = .next t ∧
    Traps { code := 0x04, cls := .scalar, tval := BitVec.ofNat 64 code.toNat, taux := 0x400000000 } s.hart.pc s t) ∧
  (∀ s : State, HasHandler s → ∃ t, exec .cTrap0 s = .next t ∧
    Traps { code := 0x04, cls := .scalar, tval := 0, taux := 0x200000000 } s.hart.pc s t) ∧
  ∀ (code : BitVec 12) (s : State), ¬ HasHandler s → ∃ t, exec (.trap code) s = .next t ∧
    t.hart = Hart.reset ∧ (∀ h ∈ t.others, h.gang ≠ s.hart.gang) ∧
    t.others.length = (s.others.filter fun h => h.gang != s.hart.gang).length ∧
    ∃ m : FaultMsg, t.messages.getLast? = some m ∧ m.kind = 6

/-- ERET in U raises ILL with its encoding in TVAL. In S: PC from EPC, STATUS from PPRIV and PIE, VTYPE from the trap
copy when the new privilege is U, behind what the vector unit still holds, the strip record invalid, and the frozen
entries thawed; no general, vector, weight or scale register, no byte of memory and no other hart changes (R51, R121,
R135, R356). It waits for nothing (R11). It rests on a choice or reading of the model: log entry 51. -/
def Obligations.ExceptionReturn : Prop :=
  (∀ s : State, s.hart.csr.status.priv = false → HasHandler s → ∃ t, exec .eret s = .next t ∧
    Traps { code := 0x01, cls := .scalar, tval := encWord .eret, taux := 0 } s.hart.pc s t) ∧
  ∀ s : State, s.hart.csr.status.priv = true → ∃ t, exec .eret s = .next t ∧
    t.hart.pc = s.hart.csr.epc ∧ t.hart.frozen = false ∧ t.hart.strip.valid = false ∧
    t.hart.csr.status = { s.hart.csr.status with
      priv := s.hart.csr.status.ppriv, ie := s.hart.csr.status.pie, ppriv := false, pie := true } ∧
    tailVtype t.hart = (if s.hart.csr.status.ppriv then tailVtype s.hart else s.hart.trapVtype) ∧
    t.hart.csr.vtype = (if s.hart.csr.status.ppriv ∨ s.hart.entries ≠ [] then s.hart.csr.vtype else s.hart.trapVtype) ∧
    (t.hart.entries.map fun e => { e with thenVtype := none }) = (s.hart.entries.map fun e => { e with thenVtype := none }) ∧
    t = { s with hart := { s.hart with
      pc := t.hart.pc, frozen := false, strip := { s.hart.strip with valid := false }, viq := t.hart.viq, tiles := t.hart.tiles
      vfull := t.hart.vfull, wfull := t.hart.wfull, filling := []
      csr := { s.hart.csr with status := t.hart.csr.status, vtype := t.hart.csr.vtype } } }

/-- TRAP_ENTRY takes the first pending asynchronous cause of a boundary: an unmasked machine check whatever STATUS.IE
holds, else with IE = 1 a machine check, PREEMPT or NOTIFY; EPC is the next instruction. With none to take it changes
nothing (R353, R355, R357). It rests on a choice or reading of the model: log entry 39. -/
def Obligations.AsynchronousTraps : Prop :=
  ∀ s : State,
    (∀ k : Trap, PendingCause s.hart k → HasHandler s → ∃ t, exec .trapEntry s = .next t ∧
      Traps k (if s.hart.run = .gbar ∧ s.hart.episodeDone = true then s.hart.pc + 4 else s.hart.pc) s t) ∧
    ((∀ k : Trap, ¬ PendingCause s.hart k) → exec .trapEntry s = .next s)

/-- WFE and PAUSE move PC past themselves and suspend the hart; a release to the monitored line, a pending interrupt or
4,096 cycles end WFE, and 32 cycles or a pending interrupt end PAUSE; nothing else does (R137, R138). -/
def Sys2Proof.Spec.SuspendedHarts : Prop :=
  ∀ s : State,
    exec .wfe s = .next { s with hart := { s.hart with pc := s.hart.pc + 4, run := .wfe, since := s.time } } ∧
    exec .pause s = .next { s with hart := { s.hart with pc := s.hart.pc + 4, run := .pause, since := s.time } } ∧
    exec .wfeWake s = .next (if s.hart.run = .wfe ∧ (s.hart.monitorHit = true ∨ Interrupted s.hart = true) then
      { s with hart := { s.hart with run := .running, monitorHit := false } } else s) ∧
    exec .wfeTimeout s = .next (if s.hart.run = .wfe ∧ s.hart.since + 4096 ≤ s.time then
      { s with hart := { s.hart with run := .running } } else s) ∧
    exec .pauseEnd s = .next (if s.hart.run = .pause ∧ (s.hart.since + 32 ≤ s.time ∨ Interrupted s.hart = true) then
      { s with hart := { s.hart with run := .running } } else s)

/-- FENCE and SVFENCE are drain points and IFENCE is none: FENCE and SVFENCE wait while the vector unit has work.
Before one completes, the writes that it orders have performed: every waiting write of the hart for SVFENCE and a
fence with a release part, but for elements that a higher one of their instruction still holds back, the scalar ones
for IFENCE, none for FENCE.acq. With none waiting, each only moves PC (R11, R256, R289, R294, R380). -/
def Sys2Proof.Spec.FrontEndFences : Prop :=
  (∀ s : State, ∃ t, exec .ifence s = .next t ∧ Jumps (s.hart.pc + 4) s.flushScalar t ∧
    (∀ p ∈ t.hart.pend, p.lane = none → p.isHeld = true) ∧ (s.hart.pend = [] → Jumps (s.hart.pc + 4) s t)) ∧
  ∀ (i : Instr) (all : Bool) (s : State), (i = .svfence ∧ all = true) ∨
      (∃ sc k, i = .fence sc k ∧ all = decide (k ≠ .acq)) →
    (s.hart.viqReady = true → exec i s = .next (drainWait s)) ∧
    (s.hart.viqReady = false → ∃ t, exec i s = .next t ∧ (all = true → ∀ p ∈ t.hart.pend, p.isHeld = true) ∧
      let u := atDrain s
      Jumps (s.hart.pc + 4) (if all then u.flushAll else u) t ∧ (s.hart.pend = [] → SameBytes s t))

/-- The statement that joins `SuspendedHarts` and `FrontEndFences`. It rests on choices or readings of the model: log
entries 5 and 48. -/
def Obligations.SuspensionAndFences : Prop :=
  Spec.SuspendedHarts ∧ Spec.FrontEndFences

/-- SEQWAIT, SEQRD and ARRWAIT read an aligned doubleword: when its condition holds (SEQRD has none) g[d] receives the
word and the hart goes on; otherwise the hart waits at the instruction with no register changed, and WAIT_SATISFIED
tries again (R252, Table 11-5). -/
def Sys2Proof.Spec.WordWaits : Prop :=
  ∀ (s : State) (i : Instr) (d a : Reg) (p : Word → Prop) (wait : Run), IsWait s i d a p wait →
    (s.getG a).toNat % 8 = 0 → ∀ (s1 : State) (ts : List Target),
      Reaches s s.hart.agent .scalar .load (s.getG a) 8 s1 ts → Sound s1 ts →
      let u := s1.afterOwn s.hart.agent ts
      Unwatched s u ts →
      let x := BitVec.ofNat 64 (numberAt u s.hart.agent ts)
      ∃ t, exec i s = .next t ∧
        (p x → Writes 4 d x { u with hart := { u.hart with run := .running } } t) ∧
        (¬ p x → t = { u with hart := { u.hart with run := wait } })

/-- QBIND binds a stream register to a command of a copy engine that its descriptor has handed out, at position 0; an
ENGINE of 64 or above, or a number not yet handed out, raises ILL with CSPEC 7 (R23, R253). -/
def Sys2Proof.Spec.StreamBinding : Prop :=
  ∀ (o : QbindOp) (s : State), s.hart.csr.status.vs ≠ 0 → ∀ (s1 : State) (ts : List Target),
    Reaches s s.hart.agent .scalar .load (s.getG o.a) 64 s1 ts → Sound s1 ts →
    let u := s1.afterOwn s.hart.agent ts
    let x := numberAt u s.hart.agent ts
    let engine := x / 2 ^ 200 % 128
    let next := x / 2 ^ 64 % 2 ^ 48
    let seq := (s.getG o.b).toNat % 2 ^ 48
    (engine < 64 → seq < next → ∃ t, exec (.qbind o) s = .next t ∧
      t.hart.csr.qs[o.n.val]'o.n.isLt = BitVec.ofNat 64 (2 ^ 63 + engine * 2 ^ 56 + seq % 2 ^ 32 * 2 ^ 24) ∧
      (∀ m : Fin 4, m ≠ o.n → t.hart.csr.qs[m.val]'m.isLt = u.hart.csr.qs[m.val]'m.isLt) ∧
      t = { u with hart := { u.hart with pc := u.hart.pc + 4, csr := { u.hart.csr with qs := t.hart.csr.qs } } }) ∧
    ((64 ≤ engine ∨ next ≤ seq) → HasHandler s → ∃ t, exec (.qbind o) s = .next t ∧
      Traps { code := 0x01, cls := .scalar, tval := encWord (.qbind o), taux := 0x700000000 } s.hart.pc u t)

/-- QRD returns the next 8 bytes of its stream and moves POS on by 8; an unbound or exhausted stream raises EMPTY with
the register in CSPEC, and the hart waits for data that has not arrived. VQRD gives each active element its SEW / 8
bytes in element order, leaves the other elements, and moves POS on by their number; EMPTY traps in the vector class,
and with data that has not arrived it waits in the VIQ (R23, R26, R254). -/
def Sys2Proof.Spec.StreamReads : Prop :=
  (∀ (o : QrdOp) (s : State), s.hart.csr.status.vs ≠ 0 →
    (¬ StreamEmpty s o.n 8 → ¬ StreamShort s o.n 8 → ∃ t, exec (.qrd o) s = .next t ∧
      (o.d ≠ 0 → t.getG o.d = BitVec.ofNat 64 (leNat (streamBytes s o.n 8))) ∧ (∀ r : Reg, r ≠ o.d → t.getG r = s.getG r) ∧
      StreamMoved o.n 8 s t ∧ t = { s with hart := { s.hart with
        g := t.hart.g, pc := s.hart.pc + 4, sbuf := t.hart.sbuf, csr := { s.hart.csr with qs := t.hart.csr.qs } } }) ∧
    (StreamEmpty s o.n 8 → HasHandler s → ∃ t, exec (.qrd o) s = .next t ∧
      Traps { code := 0x08, cls := .scalar, tval := encWord (.qrd o), taux := BitVec.ofNat 64 (o.n.val * 2 ^ 32) }
        s.hart.pc s t) ∧
    (StreamShort s o.n 8 → exec (.qrd o) s = .next (waitsAt 0 s))) ∧
  ∀ (o : VOp) (s : State), VReady s → Admitted s (.v .vqrd o) → s.hart.activeList o.w ≠ [] →
    let q := streamOf o.a
    let n := s.hart.sew / 8 * (s.hart.activeList o.w).length
    (¬ StreamEmpty s q n → ¬ StreamShort s q n → ∃ t, exec (.vqrd o) s = .next t ∧ t.hart.csr.vstart = 0 ∧
      t.hart.pc = s.hart.pc + 4 ∧ SameBytes s t ∧ StreamMoved q n s t ∧
      (∀ (k i : Nat), (s.hart.activeList o.w)[k]? = some i → InReg s.hart.sew i →
        t.hart.elem o.d i = leNat (((streamBytes s q n).drop (s.hart.sew / 8 * k)).take (s.hart.sew / 8))) ∧
      (∀ i : Nat, i ∉ s.hart.activeList o.w → InReg s.hart.sew i → t.hart.elem o.d i = s.hart.elem o.d i) ∧
      ∀ r : Reg, r ≠ o.d → t.hart.getV r = s.hart.getV r) ∧
    (StreamEmpty s q n → HasHandler s → ∃ t, exec (.vqrd o) s = .next t ∧
      HeadTraps (.v .vqrd o)
        { code := 0x08, cls := .vector, tval := heldWord (.v .vqrd o), taux := BitVec.ofNat 64 (q.val * 2 ^ 32) } s t) ∧
    (StreamShort s q n → ∃ t, exec (.vqrd o) s = .next t ∧ t.hart.viq = [entryOf s (.v .vqrd o)] ∧
      t.hart.pc = s.hart.pc + 4 ∧ t.hart.v = s.hart.v ∧ t.hart.sbuf = s.hart.sbuf ∧ t.hart.csr = s.hart.csr ∧ SameBytes s t)

/-- The statement that joins `WordWaits`, `StreamBinding` and `StreamReads`. It rests on choices or readings of the
model: log entries 19, 37 and 60. -/
def Obligations.WaitsAndStreams : Prop :=
  Spec.WordWaits ∧ Spec.StreamBinding ∧ Spec.StreamReads

/-- GBAR: the last hart of the gang to arrive releases every hart that waits; an earlier one waits at the instruction,
with its registers and memory as they were; one that comes back after its episode has completed goes on. GBAR_RELEASE
releases the harts of a waiting hart's gang once all have arrived, and changes nothing before (R255). The scalar
stores that wait in the hart perform before it arrives (R289). It rests on choices or readings of the model: log
entries 22 and 23. -/
def Obligations.GangBarrier : Prop :=
  ∀ s : State, s.hart.run ≠ .vacant →
    (s.hart.episodeDone = true → exec .gbar s = .next { s with hart := { s.hart with
      pc := s.hart.pc + 4, episodeDone := false } }) ∧
    (s.hart.episodeDone = false → OthersArrived s → ∃ t, exec .gbar s = .next t ∧ Released s.flushScalar t) ∧
    (s.hart.episodeDone = false → ¬ OthersArrived s → ∃ t, exec .gbar s = .next t ∧
      t.hart.run = .gbar ∧ t.hart.arrived = true ∧ t.hart.pc = s.hart.pc ∧ SameRegisters s.hart t.hart ∧
      t.mem = s.flushScalar.mem) ∧
    (s.hart.run = .gbar → s.hart.arrived = true → OthersArrived s → ∃ t, exec .gbarRelease s = .next t ∧ Released s t) ∧
    (s.hart.run ≠ .gbar ∨ ¬ OthersArrived s → exec .gbarRelease s = .next s)

/-- WATCH sets or clears the watch bit of every granule that meets its range, of no other granule, and changes nothing
else; an empty range changes nothing. A fault at a granule traps with the earlier ones marked, g[a] and g[b] at what
is left of the range, and the watch bits as they were when it is the first (R260). It rests on a choice or reading of
the model: log entry 4. -/
def Obligations.WatchBits : Prop :=
  ∀ (set : Bool) (o : AbOp) (s : State), let i : Instr := if set then .watchSet o else .watchClr o
    let n := (s.getG o.b).toNat
    let l := granulesLeft (n / 32 + 2) (s.getG o.a) n
    ∀ loc : Word → Nat,
      ((∀ p ∈ l, GranuleAt s loc p.1) → ∃ t, exec i s = .next t ∧
        Marked set s.ctl.watch (l.map fun p => loc p.1 / 32) t.ctl.watch ∧
        t = { withWatch s t.ctl.watch with hart := { s.hart with pc := s.hart.pc + 4 } }) ∧
      ∀ (k : Nat) (x : Word) (left : Nat) (f : MemFault) (u : List Nat → State), l[k]? = some (x, left) →
        (∀ p ∈ l.take k, GranuleAt s loc p.1) → GranuleFaults s x f u → HasHandler s → ∃ t, exec i s = .next t ∧
          Marked set s.ctl.watch ((l.take k).map fun p => loc p.1 / 32) t.ctl.watch ∧
          (k = 0 → t.ctl.watch = s.ctl.watch) ∧ OnlyBytes (withWatch s t.ctl.watch) (u t.ctl.watch) ∧
          Traps { code := f.cause.code, cls := .scalar, tval := f.addr, taux := BitVec.ofNat 64 (f.cause.cspec * 2 ^ 32) }
            s.hart.pc (((u t.ctl.watch).setG o.a x).setG o.b (BitVec.ofNat 64 left)) t

/-- SAVEVQ writes a frame of 2,048 bytes with the layout of Table 11-7, whose CHECK is the CRC-32 of the rest, empties
the queues and marks every register full; the held entries must fit the frame. NSOQ counts the operands of the entries
that have not begun (R27, R258). -/
def Sys2Proof.Spec.FrameSave : Prop :=
  ∀ (a : Reg) (s : State), s.hart.viqReady = false → (s.getG a).toNat % 64 = 0 → s.memoriesWf = true →
    s.hart.viq.length ≤ 32 → ((s.hart.viq.map soqOps).flatten).length ≤ 16 →
    ∀ (s1 : State) (ts : List Target), Reaches (atDrain s) s.hart.agent .scalar .store (s.getG a) 2048 s1 ts → AllMemory ts →
      let u := s1.settled s.hart.agent ts
      Sound u ts →
      ∃ (t : State) (bs : List Byte), exec (.savevq a) s = .next t ∧ bs.length = 2048 ∧ Stored t ts (leNat bs) ∧
        SameOffTargets ts u t ∧
        field bs 0 2 = 1 ∧ field bs 2 2 = 2048 ∧ field bs 4 1 = s.hart.viq.length ∧
        field bs 5 1 = (((s.hart.viq.filter fun e => !e.begun).map fun e => soqCount e.instr).sum) % 256 ∧
        field bs 6 2 = (if s.hart.maskValid then 1 else 0) + (if s.hart.headTrapped then 2 else 0) ∧
        (∀ (e : Held) (r : List Held), s.hart.viq = e :: r → field bs 8 8 = e.pc.toNat) ∧
        field bs 0x10 2 = s.hart.csr.vl.toNat ∧ field bs 0x12 2 = s.hart.csr.vtype.toNat ∧
        field bs 0x14 2 = (tailVl s.hart).toNat ∧ field bs 0x16 2 = (tailVtype s.hart).toNat ∧
        field bs 0x18 8 = (settled s).vfull.toNat + 2 ^ 32 * ((settled s).wfull.toNat / 2) ∧
        field bs 0x20 2 = s.hart.csr.vlr.toNat ∧
        field bs 0x40 128 = (if s.hart.maskValid then s.hart.mask.toNat else 0) ∧
        field bs 0x7FC 4 = (crc32 (bs.take 0x7FC)).toNat ∧
        t.hart.viq = [] ∧ t.hart.vfull = BitVec.allOnes 32 ∧ t.hart.wfull = BitVec.allOnes 8 ∧
        t.hart.pc = s.hart.pc + 4 ∧ SameRegisters s.hart t.hart ∧ t.others = u.others

/-- RESTVQ checks its frame first: a malformed one raises ILL with CSPEC 1; one whose entries find no room stops the
front-end, which QFULL counts; a good one puts TAILVTYPE into the trap copy and joins the VIQ. RESTVQ_HEAD, in its
hart's issue slot, then gives VL, VTYPE, FEMAP, k0 to k3 and the mask their values of the frame and puts the held
entries, with their addresses, marks and operands, ahead of what follows; with another entry at the head it issues
nothing, and neither does ENQ_SLOT_WRITE (R11, R27, R51, R149, R259, R362). That VL takes the greatest legal value up
to the frame's is the model's choice (log entry 18). -/
def Sys2Proof.Spec.FrameRestore : Prop :=
  (∀ (a : Reg) (s : State), s.hart.queueFull (.restvq a) = false → ∀ (s1 : State) (ts : List Target),
    Reaches s s.hart.agent .scalar .load (s.getG a) 2048 s1 ts → Sound s1 ts →
    let u := s1.afterOwn s.hart.agent ts
    let bs := ts.map (targetByte u s.hart.agent)
    let good : Prop := field bs 0 2 = 1 ∧ field bs 2 2 = 2048 ∧ field bs 0x7FC 4 = (crc32 (bs.take 0x7FC)).toNat ∧
      field bs 0x20 2 = s.hart.vlrBits ∧ field bs 4 1 ≤ 32 ∧ field bs 5 1 ≤ 16 ∧ field bs 6 2 < 4 ∧
      field bs 0x18 8 < 2 ^ 39 ∧ field bs 0x22 30 = 0
    let room : Prop := s.hart.viqUsed + field bs 4 1 ≤ 32 ∧ s.hart.soqUsed + min 16 (field bs 5 1 + field bs 0x7FB 1) ≤ 16
    (¬ good → HasHandler s → ∃ t, exec (.restvq a) s = .next t ∧
      Traps { code := 0x01, cls := .scalar, tval := encWord (.restvq a), taux := 0x100000000 } s.hart.pc u t) ∧
    (good → ¬ room → exec (.restvq a) s = .next (waitsAt 8 s)) ∧
    (good → room → s.hart.run ≠ .vacant → s.hart.used.getLsbD 0 = true →
      ∃ (t : State) (e : Held), exec (.restvq a) s = .next t ∧ t.hart.viq = s.hart.viq ++ [e] ∧ e.instr = .restvq a ∧
        e.data = bs ∧ t.hart.trapVtype = BitVec.ofNat 9 (field bs 0x16 2) ∧
        t = { u with hart := { u.hart with
          pc := s.hart.pc + 4, viq := t.hart.viq, trapVtype := t.hart.trapVtype, convoy := frameConvoy bs
          grantedVl := savedVl s.hart.vlrBits (field bs 0x14 2) (BitVec.ofNat 9 (field bs 0x16 2)), tag := t.hart.tag } })) ∧
  ∀ s : State,
    (∀ (e : Held) (a : Reg) (rest : List Held), s.hart.viq = e :: rest → e.instr = .restvq a → TakesSlot s →
      e.flying = false → e.data.length = 2048 → frameBad s.hart e.data = false → e.thenVtype = none →
      (∀ x ∈ (frameHeld e.data ++ rest).head?, (vinfo x.instr).c = false) →
      ∃ (t : State) (held : List Held), exec .restvqHead s = .next t ∧ t.hart.viq = held ++ rest ∧
        (held.map fun x => (x.instr, x.pc, x.priv, x.rm)) = ((List.range (field e.data 4 1)).filterMap fun i =>
          let at_ := 0xC0 + 1024 + 16 * i
          (heldInstr (field e.data at_ 8)).map fun v =>
            (v, BitVec.ofNat 64 (field e.data (at_ + 8) 7 % 2 ^ 52), (field e.data (at_ + 15) 1).testBit 3,
              BitVec.ofNat 3 (field e.data (at_ + 15) 1))) ∧
        held.flatMap soqOps = ((List.range 16).map fun i =>
          BitVec.ofNat 64 (field e.data (0xC0 + 1536 + 8 * i) 8)).take (soqTotal held) ∧
        t.hart.wfull = BitVec.ofNat 8 (2 * field e.data 0x1C 1 + 1) ∧
        (∀ k : Fin 4, t.hart.k[k] = BitVec.ofNat 2048 (field e.data (0xC0 + 256 * k.val) 256)) ∧
        t.hart.csr.vl = savedVl s.hart.vlrBits (field e.data 0x10 2) (BitVec.ofNat 9 (field e.data 0x12 2)) ∧
        t.hart.csr.vtype = BitVec.ofNat 9 (field e.data 0x12 2) ∧ t.hart.vfull = BitVec.ofNat 32 (field e.data 0x18 4) ∧
        t.hart.mask = BitVec.ofNat 1024 (field e.data 0x40 128) ∧ t.hart.maskValid = (field e.data 6 2).testBit 0 ∧
        t.hart.pc = s.hart.pc ∧ t.hart.g = s.hart.g ∧ t.hart.v = s.hart.v ∧ t.hart.w = s.hart.w ∧ t.mem = s.mem) ∧
    ((∀ e ∈ s.hart.viq.head?, ∀ a : Reg, e.instr ≠ .restvq a) → exec .restvqHead s = .next s) ∧
    ((∀ e ∈ s.hart.viq.head?, ∀ o : EnqOp, e.instr ≠ .enq o) → exec .enqSlotWrite s = .next s)

/-- The statement that joins `FrameSave` and `FrameRestore`. It rests on choices or readings of the model: log entries
10, 14, 16, 17, 18 and 61. -/
def Obligations.StateFrames : Prop :=
  Spec.FrameSave ∧ Spec.FrameRestore

/-! ## Statements: the vector unit -/

/-- An instruction of the vector kinds traps VFIRST while STATUS.VS is OFF, QBIND, QRD and ENQ among them; a queued
one stops the front-end on a full queue, which QFULL counts; and, in a cycle whose issue slot is used, joins the VIQ
with its operands and leaves everything but PC and the queue as it was (R11, R28). -/
def Sys2Proof.Spec.VectorInstructionsQueue : Prop :=
  (∀ (i : Instr) (s : State), ((∃ o, i = .qbind o) ∨ (∃ o, i = .qrd o) ∨ ∃ o, i = .enq o) → s.hart.csr.status.vs = 0 →
    HasHandler s → ∃ t, exec i s = .next t ∧
      Traps { code := 0x0C, cls := .scalar, tval := encWord i, taux := 0 } s.hart.pc s t) ∧
  ∀ (v : VInstr) (s : State), IsQueued v →
    (s.hart.csr.status.vs = 0 → HasHandler s → ∃ t, exec v.toInstr s = .next t ∧
      Traps { code := 0x0C, cls := .scalar, tval := heldWord v, taux := 0 } s.hart.pc s t) ∧
    (s.hart.csr.status.vs ≠ 0 → s.hart.queueFull v = true → exec v.toInstr s = .next (waitsAt 8 s)) ∧
    (s.hart.csr.status.vs ≠ 0 → s.hart.queueFull v = false → s.hart.run ≠ .vacant → s.hart.used.getLsbD 0 = true →
      ∃ t, exec v.toInstr s = .next t ∧ t.hart.viq = s.hart.viq ++ [entryOf s v] ∧
        (entryOf s v).instr = v ∧ (entryOf s v).pc = s.hart.pc ∧ (entryOf s v).ops = (soqRegs v).map s.getG ∧
        t = { s with hart := { s.hart with
          pc := s.hart.pc + BitVec.ofNat 64 (instrLen v.toInstr), viq := t.hart.viq, convoy := t.hart.convoy
          tag := t.hart.tag } })

/-- A cause of R358 that bars an instruction traps in the vector class with the address of the next instruction in EPC
and HEADPC at the barred one, which stays at the head of the frozen VIQ; no vector, weight or scale register is written
(R354, R355, R358). -/
def Sys2Proof.Spec.VectorInstructionsBarred : Prop :=
  ∀ (v : VInstr) (s : State) (k : Trap), IsQueued v → VReady s → gate (issuing s v) (entryOf s v) false = .bar k → HasHandler s →
    ∃ t, exec v.toInstr s = .next t ∧ k.cls = .vector ∧
      t.hart.csr.epc = (s.hart.pc + BitVec.ofNat 64 (instrLen v.toInstr)) &&& 0xFFFFFFFFFFFFE ∧
      t.hart.csr.cause = BitVec.ofNat 64 (256 + k.code % 256) ∧ t.hart.csr.tval = k.tval ∧ t.hart.csr.taux = k.taux ∧
      t.hart.csr.status.priv = true ∧ t.hart.frozen = true ∧ t.hart.headTrapped = true ∧ t.hart.viq = [{ entryOf s v with tagged := false }] ∧
      headPc t.hart = s.hart.pc ∧ t.hart.csr.vstart = s.hart.csr.vstart ∧ t.hart.g = s.hart.g ∧ t.hart.v = s.hart.v ∧
      t.hart.w = s.hart.w ∧ t.hart.k = s.hart.k ∧ (s.hart.csr.stripEn = false → LanesEmpty s → SameBytes s t)

/-- What bars an instruction, in this order: the world of an array; ILL by VTYPE or VSTART; ILL with CSPEC 6 on an
array that is not configured, then with CSPEC 5 on an illegal configuration or control word; ILL of a tile instruction
by its row, its slot and SEW, once it does not stand behind others of its hart; DETVIOL; OVERLAP; CONVOY; EMPTY (R33,
R162, R163, R168, R180, R218, R224, R231, R233, R341, R358). -/
def Sys2Proof.Spec.VectorCauseOrder : Prop :=
  ∀ (s : State) (e : Held) (behind : Bool),
    let raise (code cspec : Nat) : Trap :=
      { code := code, cls := .vector, tval := heldWord e.instr, taux := BitVec.ofNat 64 (cspec % 65536 * 2 ^ 32) }
    gate s e behind =
      (if worldFaults s e = true then .bar { code := 0x03, cls := .vector, tval := 0xFFF4000000000, taux := 0 }
      else if illByVtype s.hart e.instr = true then .bar (raise 0x01 0)
      else if needsConfigured e.instr = true ∧ (s.clusterSt s.cluster).configured = false then .bar (raise 0x01 6)
      else if wordIllegal s e = true then .bar (raise 0x01 5)
      else if behind = false ∧ (tileCspec s e).isSome = true then .bar (raise 0x01 ((tileCspec s e).getD 0))
      else if s.hart.csr.status.det = true ∧
        (unordered e.instr || laevalNoF e.instr) = true then .bar (raise 0x0B 0)
      else match overlapOf e.instr with
        | some r => .bar (raise 0x09 r)
        | none =>
          if e.conv ≠ 0 then .bar (raise 0x0A e.conv)
          else match readiness s.hart e with
            | .go => .open
            | .wait => .wait
            | .trap n => .bar (raise 0x08 n))

/-- The statement that joins `VectorInstructionsQueue`, `VectorInstructionsBarred` and `VectorCauseOrder`. It rests on
choices or readings of the model: log entries 10, 14, 16, 20, 47 and 55. -/
def Obligations.VectorQueue : Prop :=
  Spec.VectorInstructionsQueue ∧ Spec.VectorInstructionsBarred ∧ Spec.VectorCauseOrder

/-- SETVLI and SETVL grant min(avl, VLR / SEW) under a legal VTYPE and 0 under an illegal one, write it to g[d] and VL
and the value to VTYPE, and leave the trap copy and every vector register alone; they trap VFIRST while STATUS.VS is
OFF (R28, R51, R141, R142). -/
def Sys2Proof.Spec.LengthSetting : Prop :=
  ∀ (s : State) (i : Instr) (d : Reg) (avl : Word) (vt : BitVec 9), IsSetLength s i d avl vt →
    (VReady s → s.hart.csr.stripEn = false → ∃ t, exec i s = .next t ∧
      Passes 4 { s.hart.csr with vl := BitVec.ofNat 11 (granted s vt avl), vtype := vt }
        ((s.setG d (BitVec.ofNat 64 (granted s vt avl))).onHart fun h =>
          { h with grantedVl := BitVec.ofNat 11 (granted s vt avl) }) t) ∧
    (s.hart.csr.status.vs = 0 → HasHandler s → ∃ t, exec i s = .next t ∧
      Traps { code := 0x0C, cls := .scalar, tval := encWord i, taux := 0 } s.hart.pc s t)

/-- VLSYNC, LAFENCE, EFENCE and TLBINV pass through a free vector unit; the writes that each orders perform, and
TLBINV takes the translations that it selects out of every TLB, unless an instruction holds one pinned or a hart has
passed a load that has still to perform; they change nothing else beside PC and the queue's bookkeeping, whatever
STATUS.VS and VTYPE hold. TLBINV in U raises ACCESS with CSPEC 9 and g[a] in TVAL, and a selector above 1 raises ILL
with CSPEC 8 (R28, R33, R256, R257). -/
def Sys2Proof.Spec.QueuedFences : Prop :=
  (∀ (v : VInstr) (s : State), IsQueuedFence v → VIdle s → (∀ o : AbOp, v ≠ .tlbinv o) →
    ∃ t, exec v.toInstr s = .next t ∧ Passes 4 s.hart.csr (fenced v s) t) ∧
  (∀ (o : AbOp) (s : State), VIdle s → s.hart.csr.status.priv = true → (s.getG o.b).toNat ≤ 1 →
    (∀ h ∈ s.others, ∀ e ∈ h.entries, ∀ x ∈ e.pins, x.selected (s.getG o.b) (s.getG o.a) s.hart.csr.status.world = false) →
    (∀ h ∈ s.hart :: s.others, h.late = []) →
    ∃ t, exec (.tlbinv o) s = .next t ∧
      Invalidated (s.getG o.b) (s.getG o.a) s.hart.csr.status.world s t ∧
      Passes 4 s.hart.csr { fenced (.tlbinv o) s with cores := t.cores } t) ∧
  ∀ (o : AbOp) (s : State), VIdle s → HasHandler s →
    ((s.getG o.b).toNat ≤ 1 → s.hart.csr.status.priv = false → ∃ t, exec (.tlbinv o) s = .next t ∧
      t.hart.csr.cause = 0x103 ∧ t.hart.csr.tval = s.getG o.a ∧ t.hart.csr.taux = 0x900000000) ∧
    (1 < (s.getG o.b).toNat → ∃ t, exec (.tlbinv o) s = .next t ∧
      t.hart.csr.cause = 0x101 ∧ t.hart.csr.tval = heldWord (.tlbinv o) ∧ t.hart.csr.taux = 0x800000000)

/-- The statement that joins `LengthSetting` and `QueuedFences`. It rests on choices or readings of the model: log
entries 12, 13 and 46. -/
def Obligations.LengthAndQueuedFences : Prop :=
  Spec.LengthSetting ∧ Spec.QueuedFences

/-- FARM branches when no weight of wa below VL exceeds THR, and WLOOP when one does, whatever VTYPE holds; both wait
for the vector unit, read wa only when it is full, or trap EMPTY with STATUS.CD = 1, trap VFIRST while STATUS.VS is
OFF, and change nothing but PC beside what every drain point settles (R21, R26, R28, R202). -/
def Sys2Proof.Spec.WeightBranches : Prop :=
  ∀ (want : Bool) (o : ArmOp) (s : State), let i : Instr := if want then .wloop o else .farm o
    let any : Prop := ∃ k : Nat, k < s.hart.csr.vl.toNat ∧ s.hart.csr.thr.toNat < min (s.hart.rawW o.a k) 32768
    (s.hart.csr.status.vs = 0 → HasHandler s → ∃ t, exec i s = .next t ∧
      Traps { code := 0x0C, cls := .scalar, tval := encWord i, taux := 0 } s.hart.pc s t) ∧
    (s.hart.csr.status.vs ≠ 0 → s.hart.viqReady = true → exec i s = .next (drainWait s)) ∧
    (s.hart.csr.status.vs ≠ 0 → s.hart.viqReady = false → o.a ≠ 0 → (settled s).wfull.getLsbD o.a.val = false →
      (s.hart.csr.status.cd = true → HasHandler s → ∃ t, exec i s = .next t ∧
        Traps { code := 0x08, cls := .scalar, tval := encWord i, taux := BitVec.ofNat 64 ((0x200 + o.a.val) * 2 ^ 32) }
          s.hart.pc (atDrain s) t) ∧
      (s.hart.csr.status.cd = false → exec i s = .next (waitsAt 0 (atDrain s)))) ∧
    (s.hart.csr.status.vs ≠ 0 → s.hart.viqReady = false → o.a = 0 ∨ (settled s).wfull.getLsbD o.a.val = true →
      ((any ↔ want = true) → ∃ t, exec i s = .next t ∧ Jumps (relative s o.off.toInt) (atDrain s) t) ∧
      (¬ (any ↔ want = true) → ∃ t, exec i s = .next t ∧ Jumps (s.hart.pc + 4) (atDrain s) t))

/-- VMVXV writes element g[b] of va, sign-extended from SEW, to g[d], and 0 at and above VLMAX, whatever VL, VSTART
and THR hold; it waits for the vector unit, and with STATUS.CD = 1 while a C.VGAP before it is left, one slot of which
passes in each cycle in which the partition's slot is free. An illegal VTYPE raises ILL as a precise scalar trap, a
conflict with the convoy that it joins raises CONVOY in the vector class, and an empty register makes it wait or trap
EMPTY (R26, R32, R33, R93, R190, R340, R341). That the gap's slots pass at VMVXV as at a vector instruction is the
model's reading (log entry 47). -/
def Sys2Proof.Spec.VectorToScalarMove : Prop :=
  ∀ (o : VOp) (s : State), let u := atDrain s
    let code := (joinConvoy s.hart.convoy (.v .vmvxv o)).2.1
    let held : Prop := s.hart.csr.status.cd = true ∧ 0 < s.hart.vgap
    let free : Prop := s.hart.csr.status.vs ≠ 0 ∧ s.hart.viqReady = false ∧ ¬ held
    (s.hart.csr.status.vs = 0 → HasHandler s → ∃ t, exec (.vmvxv o) s = .next t ∧
      Traps { code := 0x0C, cls := .scalar, tval := encWord (.vmvxv o), taux := 0 } s.hart.pc s t) ∧
    (s.hart.csr.status.vs ≠ 0 → s.hart.viqReady = true → exec (.vmvxv o) s = .next (drainWait s)) ∧
    (s.hart.csr.status.vs ≠ 0 → s.hart.viqReady = false → held → exec (.vmvxv o) s = .next (waitsAt 0
      (if s.slotFree then { u with hart := { u.hart with vgap := s.hart.vgap - 1, idleTo := s.time + 1 } } else u))) ∧
    (free → vtypeLegal s.hart.csr.vtype = false → HasHandler s → ∃ t, exec (.vmvxv o) s = .next t ∧
      Traps { code := 0x01, cls := .scalar, tval := encWord (.vmvxv o), taux := 0 } s.hart.pc u t) ∧
    (free → vtypeLegal s.hart.csr.vtype = true → code ≠ 0 → HasHandler s → ∃ t, exec (.vmvxv o) s = .next t ∧
      Traps { code := 0x0A, cls := .vector, tval := encWord (.vmvxv o), taux := BitVec.ofNat 64 (code % 65536 * 2 ^ 32) }
        s.hart.pc u t) ∧
    (free → vtypeLegal s.hart.csr.vtype = true → code = 0 → (settled s).vfull.getLsbD o.a.val = false →
      (o.fa = true ∨ s.hart.csr.status.cd = true → HasHandler s → ∃ t, exec (.vmvxv o) s = .next t ∧
        Traps { code := 0x08, cls := .scalar, tval := encWord (.vmvxv o), taux := BitVec.ofNat 64 ((0x100 + o.a.val) * 2 ^ 32) }
          s.hart.pc u t) ∧
      (o.fa = false → s.hart.csr.status.cd = false → exec (.vmvxv o) s = .next (waitsAt 0 u))) ∧
    (free → vtypeLegal s.hart.csr.vtype = true → code = 0 → (settled s).vfull.getLsbD o.a.val = true →
      (∀ h ∈ s.others, h.run ≠ .vacant → h.csr.hartid ≠ s.hart.csr.hartid) → ∃ t, exec (.vmvxv o) s = .next t ∧
        let n := sewOf s.hart.csr.vtype
        let k := (s.getG o.b).toNat
        (o.d ≠ 0 → t.getG o.d = if k < s.hart.vlrBits / n then
          (((s.hart.getV o.a).extractLsb' (n * k) n).signExtend 64) else 0) ∧
        (∀ r : Reg, r ≠ o.d → t.getG r = s.getG r) ∧
        t = { u with hart := { u.hart with
          g := t.hart.g, pc := s.hart.pc + 4, convoy := (joinConvoy s.hart.convoy (.v .vmvxv o)).1, gone := t.hart.gone
          sSeen := t.hart.sSeen, csr := { s.hart.csr with vstart := 0, evcnt := t.hart.csr.evcnt } } })

/-- The statement that joins `WeightBranches` and `VectorToScalarMove`. It rests on choices or readings of the model:
log entries 10, 11, 20 and 47. -/
def Obligations.ScalarSideOfVectors : Prop :=
  Spec.WeightBranches ∧ Spec.VectorToScalarMove

/-- The first part of ENQ, in a cycle whose issue slot is used: at a good, aligned descriptor with DET 0 it accepts
the lesser of its commands and the free space, RSV rises by that number, g[d] receives the number and the first
sequence number, no other byte of memory changes, the numbers wait as reserved, and the second part joins the VIQ. A
bad descriptor raises ACCESS with CSPEC 10 (R243 to R245). While writes may wait, the descriptor is none of a peer's.
-/
def Sys2Proof.Spec.CommandReservation : Prop :=
  ∀ (o : EnqOp) (s : State), s.hart.csr.status.vs ≠ 0 → s.hart.queueFull (.enq o) = false → s.hart.run ≠ .vacant →
    s.hart.used.getLsbD 0 = true →
    ((s.getG o.a).toNat % 64 ≠ 0 → HasHandler s → ∃ t, exec (.enq o) s = .next t ∧
      Traps { code := 0x03, cls := .scalar, tval := s.getG o.a, taux := 0xA00000000 } s.hart.pc s t) ∧
    ∀ (s1 : State) (ts : List Target), (s.getG o.a).toNat % 64 = 0 → s.memoriesWf = true → AtHome s (s.getG o.a) →
      Reaches s s.hart.agent .atomic .rmw (s.getG o.a) 64 s1 ts → Sound s1 ts →
      let u := s1.settled s.hart.agent ts
      let x := numberAt u s.hart.agent ts
      (descriptorBad s.hart x = true → HasHandler s → ∃ t, exec (.enq o) s = .next t ∧
        Traps { code := 0x03, cls := .scalar, tval := s.getG o.a, taux := 0xA00000000 } s.hart.pc u t) ∧
      (descriptorBad s.hart x = false → s.hart.csr.status.det = false →
        let rsv := x / 2 ^ 64 % 2 ^ 48
        let k := min (min s.hart.grantedVl.toNat (o.grp.count * s.hart.vlrBits / 512)) (freeSpace x)
        ∃ (t : State) (e : Held), exec (.enq o) s = .next t ∧ e.instr = .enq o ∧ t.hart.viq = s.hart.viq ++ [e] ∧
          (o.d ≠ 0 → t.getG o.d = BitVec.ofNat 64 (k * 2 ^ 48 + rsv)) ∧
          (∀ r : Reg, r ≠ o.d → t.getG r = u.getG r) ∧
          Stored t ts (x - rsv * 2 ^ 64 + (rsv + k) % 2 ^ 48 * 2 ^ 64) ∧ SameOffTargets ts u t ∧
          t.reserved = u.reserved ++ ((List.range k).map fun j => (x / 2 ^ 200 % 128, (rsv + j) % 2 ^ 32)) ∧
          t = { u with mem := t.mem, reserved := t.reserved, ctl := { u.ctl with
            blockMeta := t.ctl.blockMeta, sectors := t.ctl.sectors, dirty := t.ctl.dirty }, hart := { u.hart with
            g := t.hart.g, pc := s.hart.pc + 4, viq := t.hart.viq, convoy := none, tag := t.hart.tag } })

/-- The second part of ENQ at the head of the VIQ writes each accepted command to its slot, with V set where the
element is active and VOID where it is not, records it for the engine of its chain, gives active accepted commands the
weight 1 and active rejected ones 0, whatever VTYPE says, and leaves every other byte of memory (R20, R33, R245,
R247). -/
def Sys2Proof.Spec.CommandSlots : Prop :=
  ∀ (s : State) (o : EnqOp) (e : Held) (rest : List Held) (ts : Nat → List Target),
    s.hart.viq = e :: rest → e.instr = .enq o → TakesSlot s → e.flying = false → (∀ x ∈ rest.head?, (vinfo x.instr).c = false) →
    gate s e false = .open → s.memoriesWf = true →
    (e.op 1).getLsbD 4 = false → e.priv = s.hart.csr.status.priv → e.begun = false →
    let k := e.enqK
    let active (j : Nat) : Prop := s.hart.vstart ≤ j ∧ j < s.hart.csr.vl.toNat ∧ s.hart.thr < s.hart.weight o.w j
    let slot (j : Nat) : Word := e.enqRing + BitVec.ofNat 64 (64 * ((e.enqFirst + j) % 2 ^ e.enqLog2))
    AllReach s (fun _ : Nat => Via.scalar) .store slot 64 (List.range k) [] ts →
    (∀ j : Nat, j < k → AllMemory (ts j) ∧ Alone (List.range k) ts j) →
    ∃ t, exec .enqSlotWrite s = .next t ∧ t.hart.viq = rest ∧ t.hart.csr.vstart = 0 ∧
      (∀ j : Nat, j < k → ∃ x : Nat, Stored t (ts j) x ∧ x.testBit 15 = true ∧
        (active j → x = (let y := enqCommand s.hart o.b j; if y.testBit 15 then y else y + 2 ^ 15)) ∧
        (¬ active j → x = 2 ^ 15)) ∧
      t.hart.pc = s.hart.pc ∧ t.hart.g = s.hart.g ∧ t.hart.v = s.hart.v ∧
      t.reserved = (List.range k).foldl (fun l j => l.erase (e.enqEngine % 68, (e.enqFirst + j) % 2 ^ 32)) s.reserved ∧
      SameOffAll (List.range k) [] ts s t ∧
      t.slotRecs.length = s.slotRecs.length + k ∧ s.slotRecs <+: t.slotRecs ∧
      (∀ (j : Nat) (r : SlotRec), j < k → t.slotRecs[s.slotRecs.length + j]? = some r → r.chain = e.enqChain ∧
        r.seq = e.enqFirst + j ∧ r.engine = Fin.ofNat 68 e.enqEngine ∧ r.priv = e.priv ∧ r.ptroot = s.hart.ptroot ∧
        r.hartid = s.hart.csr.hartid ∧ r.domain = s.hart.domain) ∧
      (o.w ≠ 0 → ∀ j : Nat, j < 1024 → (active j → j < k → t.hart.rawW o.w j = 32768) ∧
        (active j → k ≤ j → j < e.enqM → t.hart.rawW o.w j = 0) ∧
        (¬ active j ∨ max k e.enqM ≤ j → t.hart.rawW o.w j = s.hart.rawW o.w j))

/-- The statement that joins `CommandReservation` and `CommandSlots`. It rests on choices or readings of the model:
log entries 14, 20 and 41. -/
def Obligations.CommandQueues : Prop :=
  Spec.CommandReservation ∧ Spec.CommandSlots

/-- Every integer member writes its function of the active elements, element by element, with the flags of each
element; the inactive elements, every other register and all of memory stay, and VSTART becomes 0. In a .vx form the
second operand is the low SEW bits of g[b] (R20, R28, R31, R32, R160, R161, R165, R166, R167, R170). -/
def Sys2Proof.Spec.VectorIntegerArithmetic : Prop :=
  ∀ row ∈ intTable, ∀ (op : VOpc) (vx : Bool), FormOf row.1 op vx → ∀ (o : VOp) (s : State), VReady s →
    Admitted s (.v op o) → ∃ t, exec (VInstr.v op o).toInstr s = .next t ∧
      let r (i : Nat) := row.2 s.hart.sew (el s o.a i) (opB s vx o.b i)
      VWrites (.v op o) o.d (actives s o.w) (fun i => (r i).1.toNat) (flagsOf (actives s o.w) fun i => (r i).2) s t

/-- Widening multiplies and multiply-accumulates write double-width elements of the pair vd, vd+1, and narrowing shifts
clamp a double-width element of the pair va, va+1 to SEW bits (R18, R168, R169). -/
def Sys2Proof.Spec.VectorWideningAndNarrowing : Prop :=
  (∀ row ∈ widenTable, ∀ (op : VOpc) (vx : Bool), FormOf row.1 op vx → ∀ (o : VOp) (s : State), VReady s →
    Admitted s (.v op o) → ∃ t, exec (VInstr.v op o).toInstr s = .next t ∧
      PWrites (.v op o) o.d (actives s o.w)
        (fun i => (row.2 s.hart.sew (elw s o.d i) (el s o.a i) (opB s vx o.b i)).toNat) [] s t) ∧
  ∀ row ∈ narrowTable, ∀ (op : VOpc) (vx : Bool), FormOf row.1 op vx → ∀ (o : VOp) (s : State), VReady s →
    Admitted s (.v op o) → ∃ t, exec (VInstr.v op o).toInstr s = .next t ∧
      let r (i : Nat) := row.2 s.hart.sew (elw s o.a i) (narrowShift s vx o.b i)
      VWrites (.v op o) o.d (actives s o.w) (fun i => (r i).1.toNat) (flagsOf (actives s o.w) fun i => (r i).2) s t

/-- The statement that joins `VectorIntegerArithmetic` and `VectorWideningAndNarrowing`. It rests on choices or
readings of the model: log entries 11 and 36. -/
def Obligations.VectorIntegers : Prop :=
  Spec.VectorIntegerArithmetic ∧ Spec.VectorWideningAndNarrowing

/-- Integer compares write the weight 1 or 0 of each active element to wd and no vector register (R175). -/
def Sys2Proof.Spec.VectorIntegerCompares : Prop :=
  ∀ row ∈ compareTable, ∀ (o : VOp) (s : State), VReady s → Admitted s (.v row.1 o) →
    ∃ t, exec (VInstr.v row.1 o).toInstr s = .next t ∧
      WWrites (.v row.1 o) (toW o.d) (actives s o.w)
        (fun i => if row.2 s.hart.sew (el s o.a i) (el s o.b i) then 32768 else 0) [] s t

/-- Floating-point compares write the weight 1 or 0 of each active element to wd, with the flags of the comparison
(R48, R176). -/
def Sys2Proof.Spec.VectorFloatingPointCompares : Prop :=
  ∀ row ∈ vfCompareTable, ∀ (o : VOp) (s : State), VReady s → Admitted s (.v row.1 o) →
    ∃ t, exec (VInstr.v row.1 o).toInstr s = .next t ∧
      let r (i : Nat) := (vEnvRm s).compare row.2 (s.hart.elem o.a i) (s.hart.elem o.b i)
      WWrites (.v row.1 o) (toW o.d) (actives s o.w) (fun i => if (r i).1 then 32768 else 0)
        (flagsOf (actives s o.w) fun i => (r i).2) s t

/-- The statement that joins `VectorIntegerCompares` and `VectorFloatingPointCompares`. It rests on choices or
readings of the model: log entries 11 and 36. -/
def Obligations.VectorCompares : Prop :=
  Spec.VectorIntegerCompares ∧ Spec.VectorFloatingPointCompares

/-- Floating-point members compute in the format of SEW under FCSR.RM and VTYPE.FLUSH, element by element, with the
flags of each element (R49, R161, R164, R171, R172, R173). -/
def Sys2Proof.Spec.VectorFloatResults : Prop :=
  ∀ row ∈ vfTable, ∀ (op : VOpc) (vx : Bool), FormOf row.1 op vx → ∀ (o : VOp) (s : State), VReady s →
    Admitted s (.v op o) → ∃ t, exec (VInstr.v op o).toInstr s = .next t ∧
      let r (i : Nat) := row.2 (vEnvRm s) (s.hart.elem o.a i) (opB s vx o.b i).toNat (s.hart.elem o.d i)
      VWrites (.v op o) o.d (actives s o.w) (fun i => (r i).1) (flagsOf (actives s o.w) fun i => (r i).2) s t

/-- Conversions to integers clamp with NV, conversions from integers round, and a conversion to twice or half the width
goes through the exact value, a signaling NaN setting NV (R174). -/
def Sys2Proof.Spec.VectorConversions : Prop :=
  (∀ row ∈ toIntTable, ∀ (o : VOp) (s : State), VReady s → Admitted s (.v row.1 o) →
    ∃ t, exec (VInstr.v row.1 o).toInstr s = .next t ∧
      let lim := rangeOf row.2.1 s.hart.sew
      let r (i : Nat) := toInt (row.2.2.getD (modeOf s.hart.csr.fcsr)) lim.1 lim.2 ((vEnvRm s).read (s.hart.elem o.a i))
      VWrites (.v row.1 o) o.d (actives s o.w) (fun i => (BitVec.ofInt s.hart.sew (r i).1).toNat)
        (flagsOf (actives s o.w) fun i => (r i).2) s t) ∧
  (∀ (signed : Bool) (o : VOp) (s : State), let op : VOpc := if signed then .vfcvtI2f else .vfcvtU2f
    VReady s → Admitted s (.v op o) → ∃ t, exec (VInstr.v op o).toInstr s = .next t ∧
      let r (i : Nat) := (vEnvRm s).put (intVal (if signed then (el s o.a i).toInt else (el s o.a i).toNat), 0)
      VWrites (.v op o) o.d (actives s o.w) (fun i => (r i).1) (flagsOf (actives s o.w) fun i => (r i).2) s t) ∧
  ∀ (o : VOp) (s : State), VReady s →
    let wide : FEnv := { vEnvRm s with fmt := fmtOf (2 * s.hart.sew) }
    (Admitted s (.v .vfcvtFwid o) → ∃ t, exec (.vfcvtFwid o) s = .next t ∧
      let r (i : Nat) := wide.put ((vEnvRm s).read (s.hart.elem o.a i), sigNV ((vEnvRm s).read (s.hart.elem o.a i)))
      PWrites (.v .vfcvtFwid o) o.d (actives s o.w) (fun i => (r i).1) (flagsOf (actives s o.w) fun i => (r i).2) s t) ∧
    (Admitted s (.v .vfcvtFnar o) → ∃ t, exec (.vfcvtFnar o) s = .next t ∧
      let r (i : Nat) := (vEnvRm s).put (wide.read (s.hart.elemW o.a i), sigNV (wide.read (s.hart.elemW o.a i)))
      VWrites (.v .vfcvtFnar o) o.d (actives s o.w) (fun i => (r i).1) (flagsOf (actives s o.w) fun i => (r i).2) s t)

/-- The statement that joins `VectorFloatResults` and `VectorConversions`. It rests on choices or readings of the
model: log entries 11, 12, 21 and 36. -/
def Obligations.VectorFloatingPoint : Prop :=
  Spec.VectorFloatResults ∧ Spec.VectorConversions

/-- A reduction folds the active elements, in element order, into element 0 of vb and writes element 0 of vd, and
nothing when VL is 0; an integer sum wraps, the ordered floating-point sum rounds at each addition, and VFREDMAX and
VFREDMIN keep the greater or the lesser (R64, R65, R177, R178, R179). -/
def Sys2Proof.Spec.VectorReductions : Prop :=
  (∀ row ∈ reduceTable, ∀ (o : VOp) (s : State), VReady s → Admitted s (.v row.1 o) →
    ∃ t, exec (VInstr.v row.1 o).toInstr s = .next t ∧
      VWrites (.v row.1 o) o.d (firstElem s)
        (fun _ => ((actives s o.w).foldl (fun r i => row.2 s.hart.sew r (el s o.a i)) (el s o.b 0)).toNat) [] s t) ∧
  (∀ (o : VOp) (s : State), VReady s → Admitted s (.v .vfredsumO o) → ∃ t, exec (.vfredsumO o) s = .next t ∧
    let l := running (vEnvRm s).add (s.hart.elem o.b 0) (activeElems s o.a o.w)
    VWrites (.v .vfredsumO o) o.d (firstElem s) (fun _ => lastOf (s.hart.elem o.b 0) l)
      (if vlNow s = 0 then [] else runningFlags l) s t) ∧
  ∀ (isMax : Bool) (o : VOp) (s : State), let op : VOpc := if isMax then .vfredmax else .vfredmin
    VReady s → Admitted s (.v op o) → ∃ t, exec (VInstr.v op o).toInstr s = .next t ∧
      let l := running ((vEnvRm s).minMax isMax) (s.hart.elem o.b 0) (activeElems s o.a o.w)
      (actives s o.w ≠ [] → VWrites (.v op o) o.d (firstElem s) (fun _ => lastOf (s.hart.elem o.b 0) l) (runningFlags l) s t) ∧
      (actives s o.w = [] → VFrame (.v op o) [o.d] [] s t)

/-- The unordered sum and the fast scan complete with the flags and the values of some order of additions of the same
elements: the sum by lanes and halves, the scan by doubling distances (R66, R67, R179). -/
def Sys2Proof.Spec.VectorUnorderedSums : Prop :=
  (∀ (o : VOp) (s : State), VReady s → Admitted s (.v .vfredsumU o) → ∃ t, exec (.vfredsumU o) s = .next t ∧
    let add := (vEnvRm s).add
    let l := s.hart.laneCount
    let xs := (actives s o.w).map fun i => (s.hart.elem o.a i, i)
    let lanes := (List.range l).map fun k => foldParts add none (xs.filter fun x => x.2 % l = k)
    let tree := halve add 6 (lanes.map (·.1))
    let sum := combineBy add (some (s.hart.elem o.b 0, 0)) ((tree.1.head?).getD none)
    VWrites (.v .vfredsumU o) o.d (firstElem s) (fun _ => (sum.1.map (·.1)).getD 0)
      (if vlNow s = 0 then [] else (lanes.map (·.2)).flatten ++ tree.2 ++ sum.2) s t) ∧
  ∀ (o : VOp) (s : State), VReady s → Admitted s (.v .vfscanF o) → ∃ t, exec (.vfscanF o) s = .next t ∧
    let xs := (List.range (vlNow s)).map fun i => if i ∈ actives s o.w then some (s.hart.elem o.a i, i) else none
    let r := doubleScan (vEnvRm s).add 11 1 xs
    VWrites (.v .vfscanF o) o.d (actives s o.w) (fun i => (((r.1[i]?).getD none).map (·.1)).getD 0) r.2 s t

/-- Scans: each active element receives the sum of the active elements up to it; an integer scan wraps, a segmented
one starts again at each element whose flag in vb is not 0, active or not, and the ordered floating-point scan rounds
at each addition (R67, R178, R179). -/
def Sys2Proof.Spec.VectorScans : Prop :=
  (∀ (o : VOp) (s : State), VReady s → Admitted s (.v .vscan o) → ∃ t, exec (.vscan o) s = .next t ∧
    VWrites (.v .vscan o) o.d (actives s o.w)
      (fun i => (((actives s o.w).filter (· ≤ i)).map fun j => s.hart.elem o.a j).sum) [] s t) ∧
  (∀ (o : VOp) (s : State), VReady s → Admitted s (.v .vsegscan o) → ∃ t, exec (.vsegscan o) s = .next t ∧
    let start (i : Nat) : Nat := (((List.range (i + 1)).filter fun j => s.hart.elem o.b j ≠ 0).getLast?).getD 0
    VWrites (.v .vsegscan o) o.d (actives s o.w)
      (fun i => (((actives s o.w).filter fun j => start i ≤ j ∧ j ≤ i).map fun j => s.hart.elem o.a j).sum) [] s t) ∧
  ∀ (o : VOp) (s : State), VReady s → Admitted s (.v .vfscanO o) → ∃ t, exec (.vfscanO o) s = .next t ∧
    let xs := activeElems s o.a o.w
    let l := match xs with
      | [] => []
      | (i, x) :: r => (i, x, 0) :: running (vEnvRm s).add x r
    VWrites (.v .vfscanO o) o.d (actives s o.w) (fun i => ((l.find? fun p => p.1 == i).map (·.2.1)).getD 0)
      (runningFlags l) s t

/-- The statement that joins `VectorReductions`, `VectorUnorderedSums` and `VectorScans`. It rests on choices or
readings of the model: log entries 11, 21 and 36. -/
def Obligations.ReductionsAndScans : Prop :=
  Spec.VectorReductions ∧ Spec.VectorUnorderedSums ∧ Spec.VectorScans

/-- The sparse primitives: compress packs the active elements from element 0, expand spreads elements over the active
ones, VPOPCPFX counts the active elements up to each element below VL, VCONFLICT counts the equal active elements below
each, and VPRUNE zeroes an active element that N others of its group outrank (R181 to R186). -/
def Sys2Proof.Spec.VectorSparsePrimitives : Prop :=
  ∀ (o : VOp) (s : State), VReady s → let act := actives s o.w
    (Admitted s (.v .vcompress o) → ∃ t, exec (.vcompress o) s = .next t ∧
      VWrites (.v .vcompress o) o.d (List.range act.length) (fun k => s.hart.elem o.a ((act[k]?).getD 0)) [] s t) ∧
    (Admitted s (.v .vexpand o) → ∃ t, exec (.vexpand o) s = .next t ∧
      VWrites (.v .vexpand o) o.d act (fun i => s.hart.elem o.a (act.filter (· < i)).length) [] s t) ∧
    (Admitted s (.v .vpopcpfx o) → ∃ t, exec (.vpopcpfx o) s = .next t ∧
      VWrites (.v .vpopcpfx o) o.d (List.range (vlNow s)) (fun i => countActive s o.w (· ≤ i)) [] s t) ∧
    (Admitted s (.v .vconflict o) → ∃ t, exec (.vconflict o) s = .next t ∧
      VWrites (.v .vconflict o) o.d act
        (fun i => countActive s o.w fun j => j < i && s.hart.elem o.a j == s.hart.elem o.a i) [] s t) ∧
    (Admitted s (.v .vprune o) → ∃ t, exec (.vprune o) s = .next t ∧
      let m := 4 * 2 ^ (o.b.val / 8)
      let n := o.b.val % 8 + 1
      VWrites (.v .vprune o) o.d act
        (fun i => if countActive s o.w (fun j => j / m == i / m && j != i &&
            prunesAbove (fmtOf s.hart.sew) (j, s.hart.elem o.a j) (i, s.hart.elem o.a i)) < n
          then s.hart.elem o.a i else 0) [] s t)

/-- Permutes and moves: VPERM takes the element that vb names and 0 beyond VL, slides move by g[b] elements with 0
coming in from above VL, VBCAST repeats g[b], VIOTA numbers the elements, VMVCMPL complements, and VMVVX writes the
one element that g[a] names, whatever is active (R187, R188, R189, R191, R192). -/
def Sys2Proof.Spec.VectorPermutesAndMoves : Prop :=
  ∀ (o : VOp) (s : State), VReady s → let act := actives s o.w; let vl := vlNow s
    (Admitted s (.v .vperm o) → ∃ t, exec (.vperm o) s = .next t ∧
      VWrites (.v .vperm o) o.d act
        (fun i => if s.hart.elem o.b i < vl then s.hart.elem o.a (s.hart.elem o.b i) else 0) [] s t) ∧
    (Admitted s (.v .vslideup o) → ∃ t, exec (.vslideup o) s = .next t ∧
      VWrites (.v .vslideup o) o.d (act.filter fun i => (s.getG o.b).toNat ≤ i)
        (fun i => s.hart.elem o.a (i - (s.getG o.b).toNat)) [] s t) ∧
    (Admitted s (.v .vslidedn o) → ∃ t, exec (.vslidedn o) s = .next t ∧
      VWrites (.v .vslidedn o) o.d act
        (fun i => if i + (s.getG o.b).toNat < vl then s.hart.elem o.a (i + (s.getG o.b).toNat) else 0) [] s t) ∧
    (Admitted s (.v .vbcast o) → ∃ t, exec (.vbcast o) s = .next t ∧
      VWrites (.v .vbcast o) o.d act (fun _ => (opB s true o.b 0).toNat) [] s t) ∧
    (Admitted s (.v .viota o) → ∃ t, exec (.viota o) s = .next t ∧ VWrites (.v .viota o) o.d act (fun i => i) [] s t) ∧
    (Admitted s (.v .vmvcmpl o) → ∃ t, exec (.vmvcmpl o) s = .next t ∧
      VWrites (.v .vmvcmpl o) o.d act (fun i => (~~~el s o.a i).toNat) [] s t) ∧
    (Admitted s (.v .vmvvx o) → ∃ t, exec (.vmvvx o) s = .next t ∧
      VWrites (.v .vmvvx o) o.d
        (if (s.getG o.a).toNat < s.hart.vlrBits / s.hart.sew then [(s.getG o.a).toNat] else [])
        (fun _ => (s.getG o.b).toNat) [] s t)

/-- The statement that joins `VectorSparsePrimitives` and `VectorPermutesAndMoves`. It rests on choices or readings of
the model: log entries 11 and 36. -/
def Obligations.SparseAndPermutes : Prop :=
  Spec.VectorSparsePrimitives ∧ Spec.VectorPermutesAndMoves

/-- Weights: conditions and sigmoids of va, the complement, product, lesser and greater of weights, and raw moves
between weight and vector registers; each writes its active elements alone (R195, R197, R198, R199, R200, R201). -/
def Sys2Proof.Spec.WeightOperations : Prop :=
  ∀ (o : VOp) (s : State), VReady s → let act := actives s o.w
    let x (i : Nat) : FVal := (vEnv s .rne).read (s.hart.elem o.a i)
    let wa (i : Nat) : Nat := min (s.hart.rawW (toW o.a) i) 32768
    let wb (i : Nat) : Nat := min (s.hart.rawW (toW o.b) i) 32768
    (∀ row ∈ [((.wcond : VOpc), weightOf), (.wsig, sigmoid)], Admitted s (.v row.1 o) →
      ∃ t, exec (VInstr.v row.1 o).toInstr s = .next t ∧
        WWrites (.v row.1 o) (toW o.d) act (fun i => min (row.2 (x i)) 32768) (flagsOf act fun i => sigNV (x i)) s t) ∧
    (∀ row ∈ [((.wnot : VOpc), fun a _ => 32768 - a), (.wmul, fun a b => (roundAt .rne false (a * b) (-15) 0).1),
        (.wmin, fun a b => min a b), (.wmax, fun a b => max a b)], Admitted s (.v row.1 o) →
      ∃ t, exec (VInstr.v row.1 o).toInstr s = .next t ∧
        WWrites (.v row.1 o) (toW o.d) act (fun i => min (row.2 (wa i) (wb i)) 32768) [] s t) ∧
    (Admitted s (.v .wmv o) → ∃ t, exec (.wmv o) s = .next t ∧
      WWrites (.v .wmv o) (toW o.d) act (fun i => s.hart.elem o.a i % 65536) [] s t) ∧
    (Admitted s (.v .wmvv o) → ∃ t, exec (.wmvv o) s = .next t ∧
      VWrites (.v .wmvv o) o.d act (fun i => s.hart.rawW (toW o.a) i) [] s t) ∧
    (Admitted s (.v .wcnt o) → ∃ t, exec (.wcnt o) s = .next t ∧
      VWrites (.v .wcnt o) o.d (firstElem s) (fun _ => countActive s o.w fun i => s.hart.csr.thr.toNat < wa i) [] s t)

/-- Joins and gradients from VSTART to VL − 1: where the weight of w is at most THR only arm B counts, where its
complement is only arm A, and between them JOIN blends with one rounding; JGRAD is 0 with PRUNEZ outside the blend,
and WSCALE gives each arm its share (R152, R196, R204, R205, R206). -/
def Sys2Proof.Spec.JoinsAndGradients : Prop :=
  ∀ (o : VOp) (s : State), VReady s → let v := vEnv s .rne
    let q (i : Nat) : Nat := min (s.hart.rawW o.w i) 32768
    let cls (i : Nat) : Blend := blendClass s.hart.csr.thr.toNat (q i)
    let a (i : Nat) : Nat := s.hart.elem o.a i
    let b (i : Nat) : Nat := s.hart.elem o.b i
    (Admitted s (.v .join o) → ∃ t, exec (.join o) s = .next t ∧
      let r (i : Nat) : FRes := match cls i with
        | .onlyB => (b i, 0)
        | .onlyA => (a i, 0)
        | .blend => v.blend (q i) (v.read (a i)) (v.read (b i))
      VWrites (.v .join o) o.d (bodies s) (fun i => (r i).1) (flagsOf (bodies s) fun i => (r i).2) s t) ∧
    (Admitted s (.v .jgrad o) → ∃ t, exec (.jgrad o) s = .next t ∧
      let r (i : Nat) : FRes := match cls i with
        | .blend =>
          let diff := fAdd .rne (v.read (a i)) (v.read (b i)).negate
          let p := fMul (v.read (s.hart.elem o.d i)) diff.1
          v.put (p.1, p.2 ||| diff.2)
        | _ => (0, 64)
      VWrites (.v .jgrad o) o.d (bodies s) (fun i => (r i).1) (flagsOf (bodies s) fun i => (r i).2) s t) ∧
    (Admitted s (.v .wscale o) → ∃ t, exec (.wscale o) s = .next t ∧ VFrame (.v .wscale o) [o.d, o.b] [] s t ∧
      let g (i : Nat) : FVal := v.read (a i)
      let r (i : Nat) : FRes × FRes := match cls i with
        | .onlyB => ((0, 0), (a i, 0))
        | .onlyA => ((a i, 0), (0, 0))
        | .blend => (v.put (timesWeight (q i) (g i), sigNV (g i)), v.put (timesWeight (32768 - q i) (g i), sigNV (g i)))
      (∀ i ∈ bodies s, InReg s.hart.sew i →
        t.hart.elem o.b i = (r i).2.1 % 2 ^ s.hart.sew ∧
        (o.d ≠ o.b → t.hart.elem o.d i = (r i).1.1 % 2 ^ s.hart.sew)) ∧
      (∀ i : Nat, i ∉ bodies s → InReg s.hart.sew i →
        t.hart.elem o.d i = s.hart.elem o.d i ∧ t.hart.elem o.b i = s.hart.elem o.b i) ∧
      Raises (flagsOf (bodies s) fun i => (r i).1.2 ||| (r i).2.2) s.hart.csr t.hart.csr)

/-- Derivatives of weights: WDCOND passes b where 0 ≤ a ≤ 1 and gives 0 elsewhere, WDSIG multiplies a by q · (1 − q)
of the weight of wb (R207, R208). -/
def Sys2Proof.Spec.WeightDerivatives : Prop :=
  ∀ (o : VOp) (s : State), VReady s → let v := vEnv s .rne; let act := actives s o.w
    let x (i : Nat) : FVal := v.read (s.hart.elem o.a i)
    (Admitted s (.v .wdcond o) → ∃ t, exec (.wdcond o) s = .next t ∧
      VWrites (.v .wdcond o) o.d act (fun i => if inUnit (x i) then s.hart.elem o.b i else 0)
        (flagsOf act fun i => sigNV (x i)) s t) ∧
    (Admitted s (.v .wdsig o) → ∃ t, exec (.wdsig o) s = .next t ∧
      let r (i : Nat) : FRes :=
        let q := min (s.hart.rawW (toW o.b) i) 32768
        v.put (fMul (x i) (.num false (q * (32768 - q)) (-30)))
      VWrites (.v .wdsig o) o.d act (fun i => (r i).1) (flagsOf act fun i => (r i).2) s t)

/-- The statement that joins `WeightOperations`, `JoinsAndGradients` and `WeightDerivatives`. It rests on choices or
readings of the model: log entries 11 and 36. -/
def Obligations.WeightsAndArms : Prop :=
  Spec.WeightOperations ∧ Spec.JoinsAndGradients ∧ Spec.WeightDerivatives

/-- Vector loads put each pending element, picked from its bytes and widened by its format, into vd, with the flags of
the conversions; the other elements of vd, every other register and every byte of memory stay (R52, R53, R143, R144,
R147, R150, R151). -/
def Sys2Proof.Spec.VectorLoadResults : Prop :=
  ∀ row ∈ vLoadTable, ∀ (o : VMOp) (s : State) (ts : Nat → List Target), let is := pending s o.w
    let bits := bitsFor s o true
    MReady s o (memBytes bits) → Admitted s (.vm row.1 o) →
    AllReach s (laneVia s) .load (elemAddr s o row.2 true) (memBytes bits) is [] ts →
    ∃ t, exec (VInstr.vm row.1 o).toInstr s = .next t ∧ MFrame (.vm row.1 o) [o.d] s t ∧ t.mem = s.mem ∧
      t.hart.k = s.hart.k ∧
      let r (i : Nat) := widen s.hart o.fmt i (elemBits bits (memberOf s o row.2 i) (numAt s (ts i)))
      (∀ i ∈ is, InReg s.hart.sew i → t.hart.elem o.d i = (r i).1 % 2 ^ s.hart.sew) ∧
      (∀ i : Nat, i ∉ is → InReg s.hart.sew i → t.hart.elem o.d i = s.hart.elem o.d i) ∧
      Raises (flagsOf is fun i => (r i).2) s.hart.csr t.hart.csr

/-- VLDK loads the bytes of scales VSTART to 255 of its scale register, from consecutive or strided addresses, and
changes no other scale and no byte of memory (R22, R156). -/
def Sys2Proof.Spec.ScaleLoads : Prop :=
  ∀ (strided : Bool) (o : VMOp) (s : State) (ts : Nat → List Target), let op : VMOpc := if strided then .vldkStrided else .vldkUnit
    let is := (List.range 256).filter fun j => s.hart.csr.vstart.toNat ≤ j
    let va (j : Nat) : Word := s.getG o.a + BitVec.ofNat 64 j * (if strided then s.getG o.b else 1)
    MReady s o 1 → s.hart.allDone = false → Admitted s (.vm op o) → AllReach s (laneVia s) .load va 1 is [] ts →
    ∃ t, exec (VInstr.vm op o).toInstr s = .next t ∧ MFrame (.vm op o) [] s t ∧ t.mem = s.mem ∧
      (∀ j : Nat, j < 256 → t.hart.scale (Fin.ofNat 4 o.d.val) j =
        if j ∈ is then numAt s (ts j) % 256 else s.hart.scale (Fin.ofNat 4 o.d.val) j) ∧
      ∀ (k : Fin 4) (j : Nat), k ≠ Fin.ofNat 4 o.d.val → t.hart.scale k j = s.hart.scale k j

/-- The statement that joins `VectorLoadResults` and `ScaleLoads`. It rests on choices or readings of the model: log
entries 11 and 36. -/
def Obligations.VectorLoads : Prop :=
  Spec.VectorLoadResults ∧ Spec.ScaleLoads

/-- Vector stores narrow each pending element by its format and write it to its bytes, and to no others; where several
elements write one location the highest leaves its value; an element of a 4-bit format writes its nibble and keeps the
other; no vector register changes (R54, R55, R143, R144, R147, R150, R294). It rests on choices or readings of the
model: log entries 11 and 36. -/
def Obligations.VectorStores : Prop :=
  ∀ row ∈ vStoreTable, ∀ (o : VMOp) (s : State) (ts : Nat → List Target), let is := pending s o.w
    let bits := bitsFor s o true
    MReady s o (memBytes bits) → Admitted s (.vm row.1 o) →
    AllReach s (laneVia s) .store (elemAddr s o row.2 true) (memBytes bits) is [] ts →
    ∃ t, exec (VInstr.vm row.1 o).toInstr s = .next t ∧ MFrame (.vm row.1 o) [] s t ∧ SameOffAll is [] ts s t ∧
      t.hart.k = s.hart.k ∧
      let r (i : Nat) := narrow s.hart o.fmt i (s.hart.elem o.d i)
      (bits ≠ 4 → ∀ i ∈ is, (∀ j ∈ is, i < j → ∀ x ∈ ts i, x ∉ ts j) → Stored t (ts i) (r i).1) ∧
      (bits = 4 → ∀ (i loc : Nat) (odd : Nat), i ∈ is → ts i = [.mem loc] → odd < 2 →
        ((memberOf s o row.2 i % 2).toNat = odd →
          (∀ j ∈ is, i < j → ts j = [.mem loc] → (memberOf s o row.2 j % 2).toNat ≠ odd) →
          (readByte t.mem loc).toNat / 16 ^ odd % 16 = (r i).1 % 16) ∧
        ((∀ j ∈ is, ts j = [.mem loc] → (memberOf s o row.2 j % 2).toNat ≠ odd) →
          (readByte t.mem loc).toNat / 16 ^ odd % 16 = (readByte s.mem loc).toNat / 16 ^ odd % 16)) ∧
      Raises (flagsOf is fun i => (r i).2) s.hart.csr t.hart.csr

/-- VSTB blends each pending element into memory by its weight with one rounding, and writes the element itself where
the complement of its weight is at most THR; VAMO writes its function of memory and the element and returns the old
value to vd, in this module's LPDDR6 alone. Stated for each element whose bytes no other element reaches (R147, R152,
R153). -/
def Sys2Proof.Spec.VectorReadModifyWrites : Prop :=
  (∀ row ∈ vBlendTable, ∀ (o : VMOp) (s : State) (ts : Nat → List Target), let is := pending s o.w
    MReady s o (s.hart.sew / 8) → Admitted s (.vm row.1 o) →
    AllReach s (laneVia s) .rmw (elemAddr s o row.2 false) (s.hart.sew / 8) is [] ts →
    ∃ t, exec (VInstr.vm row.1 o).toInstr s = .next t ∧ MFrame (.vm row.1 o) [] s t ∧ SameOffAll is [] ts s t ∧
      ∀ i ∈ is, Alone is ts i → Stored t (ts i)
        (let q := min (s.hart.rawW o.w i) 32768
        let x := s.hart.elem o.d i
        if 32768 - q ≤ s.hart.csr.thr.toNat then x
        else ((memEnv s).blend q ((memEnv s).read x) ((memEnv s).read (numAt s (ts i)))).1)) ∧
  ∀ row ∈ vAmoTable, ∀ (o : VMOp) (s : State) (ts : Nat → List Target), let is := pending s o.w
    MReady s o (s.hart.sew / 8) → Admitted s (.vm row.1 o) → (∀ i ∈ is, InDdr (ts i)) →
    AllReach s (laneVia s) .rmw (elemAddr s o .indexed false) (s.hart.sew / 8) is [] ts →
    ∃ t, exec (VInstr.vm row.1 o).toInstr s = .next t ∧ MFrame (.vm row.1 o) [o.d] s t ∧ SameOffAll is [] ts s t ∧
      (∀ i ∈ is, Alone is ts i → Stored t (ts i)
        (row.2 s.hart.sew (BitVec.ofNat _ (numAt s (ts i))) (el s o.d i)).toNat ∧
        (InReg s.hart.sew i → t.hart.elem o.d i = numAt s (ts i))) ∧
      ∀ i : Nat, i ∉ is → InReg s.hart.sew i → t.hart.elem o.d i = s.hart.elem o.d i

/-- VSCADD adds each pending element to its location with one rounding for each addition; VSCADD.d applies the
additions in element order, and VSCADD.u in some order of the elements; no register is written (R147, R154, R155). -/
def Sys2Proof.Spec.VectorScatterAdds : Prop :=
  ∀ (ordered : Bool) (o : VMOp) (s : State) (ts : Nat → List Target), let is := pending s o.w
    let op : VMOpc := if ordered then .vscaddD else .vscaddU
    MReady s o (s.hart.sew / 8) → Admitted s (.vm op o) → vlNow s ≤ 1024 → (∀ i ∈ is, InDdr (ts i)) →
    (∀ i ∈ is, ∀ j ∈ is, ts i = ts j ∨ ∀ x ∈ ts i, x ∉ ts j) →
    AllReach s (laneVia s) .rmw (elemAddr s o .indexed false) (s.hart.sew / 8) is [] ts →
    ∃ t, exec (VInstr.vm op o).toInstr s = .next t ∧ MFrame (.vm op o) [] s t ∧ SameOffAll is [] ts s t ∧
      t.hart.v = s.hart.v ∧ t.hart.k = s.hart.k ∧
      ∃ l : List Nat, l.Perm is ∧ (ordered = true → l = is) ∧ ∀ i ∈ is, Stored t (ts i)
        ((l.filter fun j => ts j = ts i).foldl (fun x j => ((memEnv s).add x (s.hart.elem o.d j)).1) (numAt s (ts i)))

/-- A group of a VSCADD.d applies, at each location, the first 16 of the updates that still wait for it, in their
order and rounded to nearest even, and keeps the others; no other byte of memory changes (R154, R155). -/
def Sys2Proof.Spec.ReplayGroups : Prop :=
  ∀ (s : State) (n : Nat), s.memoriesWf = true → n = 16 ∨ n = 32 ∨ n = 64 →
    (∀ r ∈ s.hart.replay, r.sew = n ∧ r.loc % (n / 8) = 0) → let v : FEnv := ⟨fmtOf n, .rne, false, false⟩
    let own (loc : Nat) (l : List Replay) : List Replay := l.filter fun r => r.loc = loc
    ∃ t, exec .vscaddReplayGroup s = .next t ∧
      (∀ loc : Nat, own loc t.hart.replay = (own loc s.hart.replay).drop 16 ∧
        ((∃ r ∈ s.hart.replay, r.loc = loc) → readNat t.mem loc (n / 8) =
          summed v n (readNat s.mem loc (n / 8)) ((own loc s.hart.replay).take 16))) ∧
      (∀ b : Nat, (∀ r ∈ s.hart.replay, b < r.loc ∨ r.loc + n / 8 ≤ b) → readByte t.mem b = readByte s.mem b) ∧
      t = { s with
        mem := t.mem
        ctl := { s.ctl with blockMeta := t.ctl.blockMeta, sectors := t.ctl.sectors, dirty := t.ctl.dirty }
        hart := { s.hart with replay := t.hart.replay, csr := { s.hart.csr with
          fflags := t.hart.csr.fflags, iflags := t.hart.csr.iflags, firstx := t.hart.csr.firstx
          firstxi := t.hart.csr.firstxi } } }

/-- The statement that joins `VectorReadModifyWrites`, `VectorScatterAdds` and `ReplayGroups`. It rests on choices or
readings of the model: log entries 9, 11 and 36. -/
def Obligations.VectorUpdates : Prop :=
  Spec.VectorReadModifyWrites ∧ Spec.VectorScatterAdds ∧ Spec.ReplayGroups

/-- VSAVE writes a header of VL, VTYPE and the element size and then the elements from VSTART to VL − 1; VREST reads
such a frame, writes the elements from VSTART up to the header's VL and clears the register above them; a malformed
header raises ILL with CSPEC 1 (R157, R158, R159). It rests on a choice or reading of the model: log entry 36. -/
def Obligations.RegisterSaveAndRestore : Prop :=
  (∀ (o : VMOp) (s : State) (hts : List Target) (ts : Nat → List Target), let is := bodies s
    let n := s.hart.sew / 8
    MReady s o 16 → s.hart.allDone = false → Admitted s (.vm .vsave o) →
    AllReach s (fun _ : Unit => laneVia s s.hart.csr.vstart.toNat) .store (fun _ => s.getG o.a) 16 [()] [] (fun _ => hts) →
    AllReach s (laneVia s) .store (fun i => s.getG o.a + BitVec.ofNat 64 (16 + n * i)) n is hts ts →
    (∀ i ∈ is, ∀ x ∈ ts i, x ∉ hts) → (∀ i ∈ is, Alone is ts i) →
    ∃ t, exec (.vsave o) s = .next t ∧ MFrame (.vm .vsave o) [] s t ∧ SameOffAll is hts ts s t ∧
      Stored t hts (vlNow s + s.hart.csr.vtype.toNat * 2 ^ 16 + n * 2 ^ 32) ∧
      ∀ i ∈ is, Stored t (ts i) (s.hart.elem o.d i)) ∧
  ∀ (o : VMOp) (s : State) (hts : List Target) (ts : Nat → List Target),
    MReady s o 16 → s.hart.allDone = false → Admitted s (.vm .vrest o) →
    AllReach s (fun _ : Unit => laneVia s s.hart.csr.vstart.toNat) .load (fun _ => s.getG o.a) 16 [()] [] (fun _ => hts) →
    let x := numAt s hts
    let n := x / 2 ^ 32 % 256
    let vl := x % 65536
    let is := (List.range vl).filter fun i => s.hart.csr.vstart.toNat ≤ i
    let good : Prop := (n = 2 ∨ n = 4 ∨ n = 8) ∧ vl * (8 * n) ≤ s.hart.vlrBits ∧ x / 2 ^ 40 = 0
    (good → AllReach s (laneVia s) .load (fun i => s.getG o.a + BitVec.ofNat 64 (16 + n * i)) n is [] ts →
      ∃ t, exec (.vrest o) s = .next t ∧ MFrame (.vm .vrest o) [o.d] s t ∧ t.mem = s.mem ∧
        (∀ i ∈ is, InReg (8 * n) i → getE (t.hart.getV o.d) (8 * n) i = numAt s (ts i)) ∧
        (∀ i : Nat, i < vl → i ∉ is → InReg (8 * n) i → getE (t.hart.getV o.d) (8 * n) i = getE (s.hart.getV o.d) (8 * n) i) ∧
        ∀ k : Nat, 8 * n * vl ≤ k → (t.hart.getV o.d).getLsbD k = false) ∧
    (¬ good → HasHandler s → ∃ t, exec (.vrest o) s = .next t ∧ t.hart.csr.cause = 0x101 ∧
      t.hart.csr.tval = heldWord (.vm .vrest o) ∧ t.hart.csr.taux = 0x100000000 ∧ t.hart.v = s.hart.v)

/-- An element fault at the first pending element traps in the vector class with the element, its weight register and
the address reported, VSTART at the element, nothing loaded and no byte of memory changed but the A and D bits on the
way of its translation, which `v` holds; with FRACCTL.FP set and a weight below 1 the element is demoted instead, for
any cause but a machine check: its weight becomes 0 and DEMOTED rises, and the instruction completes when it has no
other element (R146, R147, R269). -/
def Sys2Proof.Spec.ElementFaults : Prop :=
  ∀ row ∈ accessTable, ∀ (o : VMOp) (s v : State) (i : Nat) (rest : List Nat) (f : MemFault),
    let bits := bitsFor s o row.2.2.2
    let demotes : Prop := s.hart.csr.fracctl = 1 ∧ min (s.hart.rawW o.w i) 32768 < 32768 ∧ f.cause ≠ .mchk
    let u : State := issuing s (.vm row.1 o)
    MReady s o (memBytes bits) → Admitted s (.vm row.1 o) → pending s o.w = i :: rest → s.hart.csr.stripEn = false →
    access u s.hart.agent (laneVia s i) row.2.2.1 (elemAddr s o row.2.1 row.2.2.2 i) (memBytes bits) = .fault f v →
    OnlyBytes u v →
    (¬ demotes → HasHandler s → ∃ t, exec (VInstr.vm row.1 o).toInstr s = .next t ∧
      t.hart.csr.cause = BitVec.ofNat 64 (256 + f.cause.code) ∧ t.hart.csr.tval = f.addr ∧
      t.hart.csr.taux = BitVec.ofNat 64 (2 ^ 63 + f.cause.cspec * 2 ^ 32 + o.w.val * 2 ^ 16 + i) ∧ t.hart.csr.vstart = BitVec.ofNat 11 i ∧
      t.hart.csr.epc = (s.hart.pc + 4) &&& 0xFFFFFFFFFFFFE ∧
      t.hart.viq = [{ entryOf s (.vm row.1 o) with tagged := false, begun := (vinfo (.vm row.1 o)).longLat }] ∧
      t.hart.v = s.hart.v ∧ t.hart.w = s.hart.w ∧ SameBytes v t) ∧
    (demotes → rest = [] → ∃ t, exec (VInstr.vm row.1 o).toInstr s = .next t ∧ t.hart.rawW o.w i = 0 ∧
      (∀ j : Nat, j < 1024 → j ≠ i → t.hart.rawW o.w j = s.hart.rawW o.w j) ∧ t.hart.v = s.hart.v ∧ SameBytes v t ∧
      t.hart.csr.demoted = (if s.hart.csr.demoted = BitVec.allOnes 32 then s.hart.csr.demoted else s.hart.csr.demoted + 1) ∧
      t.hart.csr.firstdem = (if s.hart.csr.vstart = 0 ∨ s.hart.csr.firstdem = 0xFFF ∨
        s.hart.csr.vstart.toNat ≤ s.hart.csr.firstdem.toNat then BitVec.ofNat 12 i else s.hart.csr.firstdem) ∧
      t.hart.csr.vstart = 0 ∧ t.hart.pc = s.hart.pc + 4)

/-- VLDFF whose second pending element faults loads the first, sets VL to the faulting element's index and completes
with no trap; the VL granted to the front-end stays. A machine check is no element fault at which it ends: it traps
there and VL stays (R146, R151, R245; the machine check is log entry 54). -/
def Sys2Proof.Spec.FirstFaultLoads : Prop :=
  ∀ (o : VMOp) (s : State) (i j : Nat) (rest : List Nat) (f : MemFault) (ts : List Target),
    let bits := bitsFor s o true
    let loaded (t : State) : Prop :=
      (InReg s.hart.sew i → t.hart.elem o.d i = (widen s.hart o.fmt i (elemBits bits i (numAt s ts))).1 % 2 ^ s.hart.sew) ∧
      ∀ k : Nat, k ≠ i → InReg s.hart.sew k → t.hart.elem o.d k = s.hart.elem o.d k
    MReady s o (memBytes bits) → Admitted s (.vm .vldff o) → pending s o.w = i :: j :: rest → s.hart.csr.stripEn = false →
    AllReach s (laneVia s) .load (elemAddr s o .unit true) (memBytes bits) [i] [] (fun _ => ts) →
    (∀ u : State, Alike (fun _ => False) s u →
      access u s.hart.agent (laneVia s j) .load (elemAddr s o .unit true j) (memBytes bits) = .fault f u) →
    (f.cause ≠ .mchk → ∃ t, exec (.vldff o) s = .next t ∧ t.hart.csr.vl = BitVec.ofNat 11 j ∧
      t.hart.grantedVl = s.hart.grantedVl ∧ t.mem = s.mem ∧ loaded t ∧ t.hart.csr.vstart = 0 ∧ t.hart.pc = s.hart.pc + 4 ∧
      t.hart.viq = []) ∧
    (f.cause = .mchk → HasHandler s → ∃ t, exec (.vldff o) s = .next t ∧ t.hart.csr.cause = 0x110 ∧
      t.hart.csr.vl = s.hart.csr.vl ∧ t.mem = s.mem ∧ loaded t ∧ t.hart.csr.vstart = BitVec.ofNat 11 j ∧
      t.hart.frozen = true ∧ t.hart.viq.map (·.instr) = [.vm .vldff o])

/-- A vector memory instruction that hits watch bits in U performs every element and is then reported: WATCHHIT with
the lowest element that hit, its weight register and address, the kind and whether more hit, VSTART at VL, and the
instruction frozen at the head; MTLD completes, leaves the VIQ and is reported with CSPEC[9] (R373, R374). -/
def Sys2Proof.Spec.VectorWatchHits : Prop :=
  (∀ row ∈ accessTable, ∀ (o : VMOp) (s : State) (ts : Nat → List Target) (i : Nat) (rest : List Nat), let is := pending s o.w
    let bits := bitsFor s o row.2.2.2
    let kind : Nat := match row.2.2.1 with
      | .load | .fetch => 1
      | .store => 2
      | .rmw => 3
    MReady s o (memBytes bits) → Admitted s (.vm row.1 o) → s.hart.csr.status.priv = false → HasHandler s →
    s.hart.csr.stripEn = false → (row.1 ∈ ddrMembers → ∀ j ∈ is, InDdr (ts j)) →
    AllFound s (laneVia s) row.2.2.1 (elemAddr s o row.2.1 row.2.2.2) (memBytes bits) is [] ts →
    (is.filter fun j => (ts j).any s.watchedTarget) = i :: rest →
    ∃ t, exec (VInstr.vm row.1 o).toInstr s = .next t ∧ t.hart.csr.cause = 0x10D ∧
      t.hart.csr.tval = elemAddr s o row.2.1 row.2.2.2 i ∧
      t.hart.csr.taux = BitVec.ofNat 64
        (2 ^ 63 + (kind + (if rest = [] then 0 else 256)) * 2 ^ 32 + o.w.val * 2 ^ 16 + i % 65536) ∧
      t.hart.csr.vstart = s.hart.csr.vl ∧ t.hart.frozen = true ∧ t.hart.headTrapped = true ∧
      t.hart.viq.map (·.instr) = [.vm row.1 o] ∧ headPc t.hart = s.hart.pc ∧ SameOffAll is [] ts s t) ∧
  ∀ (o : MtldOp) (s : State) (ts : Nat → List Target) (r : Nat) (rest : List Nat), let bits := tileBits o.fmt
    let rows := if o.t then (tileShape o.fmt).2 else (tileShape o.fmt).1
    let cols := if o.t then (tileShape o.fmt).1 else (tileShape o.fmt).2
    let va (r : Nat) : Word := s.getG o.a + BitVec.ofNat 64 r * s.getG o.b
    MemReady s → SteTakes s → Admitted s (.mtld o) → s.hart.csr.status.priv = false → HasHandler s →
    s.hart.csr.stripEn = false →
    (s.getG o.a).toNat % memBytes bits = 0 → (s.getG o.b).toNat % memBytes bits = 0 →
    AllFound s (fun _ => .tile) .load va (cols * bits / 8) (List.range rows) [] ts →
    ((List.range rows).filter fun j => (ts j).any s.watchedTarget) = r :: rest →
    ∃ t, exec (.mtld o) s = .next t ∧ t.hart.csr.cause = 0x10D ∧ t.hart.csr.tval = va r ∧
      t.hart.csr.taux = BitVec.ofNat 64 (2 ^ 63 + (513 + (if rest = [] then 0 else 256)) * 2 ^ 32 + r) ∧
      t.hart.viq = [] ∧ t.hart.headTrapped = false ∧ t.hart.csr.vstart = 0 ∧ t.mem = s.mem ∧
      ((t.coreSt s.core).slot o.slot).fmt = tileCode o.fmt

/-- A base that is not a multiple of the element raises ACCESS in the vector class on it, before any element (R144,
R157). -/
def Sys2Proof.Spec.VectorAlignment : Prop :=
  ∀ (o : VMOp) (s : State) (op : VMOpc) (bytes : Nat), VReady s → Admitted s (.vm op o) → s.hart.allDone = false → HasHandler s →
    (∃ mode k byFmt, (op, mode, k, byFmt) ∈ accessTable ∧ bytes = memBytes (bitsFor s o byFmt)) ∨
      ((op = .vsave ∨ op = .vrest) ∧ bytes = 16) →
    (s.getG o.a).toNat % bytes ≠ 0 → ∃ t, exec (VInstr.vm op o).toInstr s = .next t ∧
      t.hart.csr.cause = 0x103 ∧ t.hart.csr.tval = s.getG o.a ∧ t.hart.csr.taux = 0 ∧ t.hart.v = s.hart.v ∧
      t.hart.csr.vstart = s.hart.csr.vstart

/-- The statement that joins `ElementFaults`, `FirstFaultLoads`, `VectorWatchHits` and `VectorAlignment`. It rests on
choices or readings of the model: log entries 11, 20, 36 and 54. -/
def Obligations.VectorElementFaults : Prop :=
  Spec.ElementFaults ∧ Spec.FirstFaultLoads ∧ Spec.VectorWatchHits ∧ Spec.VectorAlignment

/-! ## Statements: tile and array instructions -/

/-- MTLD loads its slot with the tile in memory, transposed when T is set, and records the format and the scales; no
register, accumulator or byte of memory changes (R211, R213, R214, R215). -/
def Sys2Proof.Spec.TileLoads : Prop :=
  ∀ (o : MtldOp) (s : State) (ts : Nat → List Target), let bits := tileBits o.fmt
    let rows := if o.t then (tileShape o.fmt).2 else (tileShape o.fmt).1
    let cols := if o.t then (tileShape o.fmt).1 else (tileShape o.fmt).2
    MemReady s → SteTakes s → Admitted s (.mtld o) →
    (s.getG o.a).toNat % memBytes bits = 0 → (s.getG o.b).toNat % memBytes bits = 0 →
    AllReach s (fun _ => .tile) .load (fun r => s.getG o.a + BitVec.ofNat 64 r * s.getG o.b) (cols * bits / 8) (List.range rows) [] ts →
    ∃ t, exec (.mtld o) s = .next t ∧ TFrame (.mtld o) s t ∧ t.mem = s.mem ∧ t.acc = s.acc ∧ t.cells = s.cells ∧
      t.clusters = s.clusters ∧ t.hart.v = s.hart.v ∧
      (∀ k n : Nat, k < (tileShape o.fmt).1 → n < (tileShape o.fmt).2 → slotElem t s.core o.slot o.fmt k n =
        elemIn bits ((ts (if o.t then n else k)).map (targetByte s s.hart.agent)) (if o.t then k else n)) ∧
      ((t.coreSt s.core).slot o.slot).fmt = tileCode o.fmt ∧ ((t.coreSt s.core).slot o.slot).blk = o.blk ∧
      (o.blk ≠ 0 → ((t.coreSt s.core).slot o.slot).scales = s.hart.k[o.ksel.val]'o.ksel.isLt) ∧
      ∀ m : Fin 2, m ≠ o.slot → (t.coreSt s.core).slot m = (s.coreSt s.core).slot m

/-- MROW granted at once by a free STE adds the product of its A register and the slot to its accumulator row, in the
numerics of the slot's format, and no other row; while the STE is busy it waits with nothing written. It sets PLANE
where four planes of a floating-point A lose a 1, SAT where an integer addition saturates, no other flag, and no field
of FIRSTX (R57, R58, R61, R216, R217, R219, R220, R222). -/
def Sys2Proof.Spec.TileRows : Prop :=
  ∀ (o : MrowOp) (s : State) (f : TileFmt), VReady s → Admitted s (.mrow o) → s.hart.watchHit = none →
    s.memoriesWf = true → s.cappedSte s.hart = false → tileOfCode ((s.coreSt s.core).slot o.slot).fmt = some f →
    (s.time < (s.coreSt s.core).steUntil → ∃ t, exec (.mrow o) s = .next t ∧
      TileWaits (.mrow o) (rowRequest s o) s t) ∧
    (SteFree s → ∃ t, exec (.mrow o) s = .next t ∧ TFrame (.mrow o) s t ∧ t.mem = s.mem ∧
      t.slots = s.slots ∧ t.cells = s.cells ∧ t.hart.v = s.hart.v ∧
      (t.coreSt s.core).steUntil = s.time + rowCycles (some f) o.p ∧
      SameOffRow o.acc (rowAt s o.row o.rr) s t ∧
      let args := tileArgs s s.hart f o
      let n := if f = .fp64 then 8 else 4
      (∀ e : Nat, e < (tileShape f).2 → accAt t o.acc (rowAt s o.row o.rr) n e =
        match tileFloat f with
        | some b => args.rowFloat b (accAt s o.acc (rowAt s o.row o.rr) n e) e % 256 ^ n
        | none => (args.rowInt (accAt s o.acc (rowAt s o.row o.rr) n e) e).1) ∧
      (∀ b : Nat, b < 7 → (t.hart.csr.fflags.getLsbD b = true ↔ s.hart.csr.fflags.getLsbD b = true ∨
        (b = 5 ∧ tilePlanes f = true ∧ o.p = false ∧
          ∃ k : Nat, k < args.kmax ∧ losesPlane (getE (s.hart.getV o.v) 16 k)))) ∧
      (∀ b : Nat, b < 3 → (t.hart.csr.iflags.getLsbD b = true ↔ s.hart.csr.iflags.getLsbD b = true ∨
        (b = 2 ∧ tileFloat f = none ∧ ∃ e : Nat, e < (tileShape f).2 ∧
          (args.rowInt (accAt s o.acc (rowAt s o.row o.rr) n e) e).2 = true))) ∧
      t.hart.csr.firstx = s.hart.csr.firstx ∧ t.hart.csr.firstxi = s.hart.csr.firstxi)

/-- A busy STE, or one without a ready row of its core, grants nothing. A free one with one ready row performs that
row: it leaves its queue, occupies the STE for its format's cycles, writes its own accumulator row and no other, and
completes. A row whose hart's cap is exhausted is not ready (R217, R219, R220, R222, R345). -/
def Sys2Proof.Spec.SteGrants : Prop :=
  ∀ s : State, let c := s.coreSt s.core
    let ready := s.readyRows s.core true ++ s.readyRows s.core false
    (s.time < c.steUntil ∨ ready = [] → exec .steGrant s = .next s) ∧
    (∀ x ∈ ready, s.cappedSte x.1 = false) ∧
    ∀ (q : TileReq) (o : MrowOp) (f : TileFmt), c.steUntil ≤ s.time → ready = [(s.hart, q, o)] → s.hart.run ≠ .vacant →
      (∀ h ∈ s.others, h.run = .vacant ∨ h.csr.hartid ≠ s.hart.csr.hartid) → s.mapsWf = true →
      tileOfCode (c.slot o.slot).fmt = some f → ∃ t, exec .steGrant s = .next t ∧
        t.hart.tiles = s.hart.tiles.erase q ∧ (t.coreSt s.core).steUntil = s.time + rowCycles (some f) o.p ∧
        SameOffRow o.acc q.entry.tileRow s t ∧ t.mem = s.mem ∧ t.slots = s.slots ∧ t.others = s.others ∧
        t.hart.v = s.hart.v ∧ t.hart.csr.vstart = 0 ∧ t.hart.maskValid = false ∧
        t.hart.csr.firstx = s.hart.csr.firstx ∧ let n := if f = .fp64 then 8 else 4
        ∀ e : Nat, e < (tileShape f).2 → accAt t o.acc q.entry.tileRow n e = match tileFloat f with
          | some b => (tileArgs s s.hart f o).rowFloat b (accAt s o.acc q.entry.tileRow n e) e % 256 ^ n
          | none => ((tileArgs s s.hart f o).rowInt (accAt s o.acc q.entry.tileRow n e) e).1

/-- The statement that joins `TileLoads`, `TileRows` and `SteGrants`. It rests on choices or readings of the model:
log entries 23, 36 and 43. -/
def Obligations.TileLoadsAndRows : Prop :=
  Spec.TileLoads ∧ Spec.TileRows ∧ Spec.SteGrants

/-- MACLR zeroes its rows; MAWR writes the active elements of its row from a vector register; MARD reads the row into
the active elements of a vector register, and 0 beyond the row. Each keeps everything else (R24, R224, R225). -/
def Sys2Proof.Spec.AccumulatorAccess : Prop :=
  (∀ (o : MaclrOp) (s : State), VReady s → SteTakes s → Admitted s (.maclr o) → o.row.val + o.n.val < 64 → s.memoriesWf = true →
    ∃ t, exec (.maclr o) s = .next t ∧ TFrame (.maclr o) s t ∧ Kept s { t with acc := s.acc } ∧
      (∀ r b : Nat, o.row.val ≤ r → r ≤ o.row.val + o.n.val → b < 1024 → accByte t o.acc r b = 0) ∧
      ∀ loc : Nat, (∀ r b : Nat, o.row.val ≤ r → r ≤ o.row.val + o.n.val → b < 1024 → loc ≠ accLoc s.core o.acc r b) →
        readByte t.acc loc = readByte s.acc loc) ∧
  (∀ (o : AccOp) (s : State), VReady s → SteTakes s → Admitted s (.mawr o) → s.memoriesWf = true → let n := efBytes o.ef
    ∃ t, exec (.mawr o) s = .next t ∧ TFrame (.mawr o) s t ∧ Kept s { t with acc := s.acc } ∧
      SameOffRow o.acc (rowAt s o.row o.rr) s t ∧
      ∀ e : Nat, e < 1024 / n → accAt t o.acc (rowAt s o.row o.rr) n e =
        if e ∈ actives s o.w then s.hart.elem o.v e else accAt s o.acc (rowAt s o.row o.rr) n e) ∧
  ∀ (o : AccOp) (s : State), VReady s → SteTakes s → Admitted s (.mard o) → let n := efBytes o.ef
    ∃ t, exec (.mard o) s = .next t ∧ MFrame (.mard o) [o.v] s t ∧ t.mem = s.mem ∧ t.hart.k = s.hart.k ∧
      (∀ e ∈ actives s o.w, InReg s.hart.sew e → t.hart.elem o.v e =
        if e < 1024 / n then accAt s o.acc (rowAt s o.row o.rr) n e else 0) ∧
      ∀ e : Nat, e ∉ actives s o.w → InReg s.hart.sew e → t.hart.elem o.v e = s.hart.elem o.v e

/-- MAST stores the pending elements of its accumulator row as a store of native elements does, and changes no register
and no accumulator (R224, R226, R294). -/
def Sys2Proof.Spec.AccumulatorStores : Prop :=
  ∀ (o : AccOp) (s : State) (ts : Nat → List Target), let n := efBytes o.ef
    let is := (pending s o.w).filter fun i => i < 1024 / n
    let m (i : Nat) : Int := match o.mode with
      | .unit => i
      | .strided => i * (s.getG o.b).toInt
      | .indexed => (el s o.v i).toInt
    MemReady s → SteTakes s → Admitted s (.mast o) → (s.getG o.a).toNat % n = 0 →
    AllReach s (laneVia s) .store (fun i => memAddr (s.getG o.a) (8 * n) (m i)) n is [] ts →
    ∃ t, exec (.mast o) s = .next t ∧ MFrame (.mast o) [] s t ∧ t.hart.k = s.hart.k ∧ SameOffAll is [] ts s t ∧
      ∀ i ∈ is, (∀ j ∈ is, i < j → ∀ x ∈ ts i, x ∉ ts j) →
        Stored t (ts i) (accAt s o.acc (rowAt s o.row o.rr) n i)

/-- The statement that joins `AccumulatorAccess` and `AccumulatorStores`. It rests on choices or readings of the
model: log entries 11 and 36. -/
def Obligations.AccumulatorRows : Prop :=
  Spec.AccumulatorAccess ∧ Spec.AccumulatorStores

/-- LAEVAL writes each clause's output to its bit of vd, clears the bits from C to 1,023 and keeps the higher ones;
the form with F waits for the step in progress, and the form without it sees each row as it now stands. LAVOTE writes
each class's clamped vote to an element. Neither changes the array (R228, R233, R234, R240). -/
def Sys2Proof.Spec.ArrayEvaluation : Prop :=
  (∀ (o : LaVOp) (s : State), let u := if o.flag then landed s else s
    VReady s → Admitted s (.laeval o) →
    ∃ t, exec (.laeval o) s = .next t ∧ MFrame (.laeval o) [o.vd] u t ∧ t.mem = s.mem ∧ t.hart.k = s.hart.k ∧
      (∀ c : Nat, c < cfgC (s.clusterSt s.cluster).config →
        ((t.hart.getV o.vd).getLsbD c = true ↔ ClauseHolds u (s.hart.getV o.v) false c)) ∧
      (∀ c : Nat, cfgC (s.clusterSt s.cluster).config ≤ c → c < 1024 → (t.hart.getV o.vd).getLsbD c = false) ∧
      ∀ c : Nat, 1024 ≤ c → (t.hart.getV o.vd).getLsbD c = (s.hart.getV o.vd).getLsbD c) ∧
  ∀ (o : LaVOp) (s : State), VReady s → Admitted s (.lavote o) →
    ∃ t, exec (.lavote o) s = .next t ∧ MFrame (.lavote o) [o.vd] s t ∧ t.mem = s.mem ∧ t.hart.k = s.hart.k ∧
      let w := (s.clusterSt s.cluster).config
      (∀ j : Nat, j < cfgL w → InReg s.hart.sew j → ∀ v : Int, VoteIs w (fun c => (s.hart.getV o.v).getLsbD c) j v →
        t.hart.elem o.vd j = (BitVec.ofInt s.hart.sew v).toNat) ∧
      ∀ j : Nat, cfgL w ≤ j → InReg s.hart.sew j → t.hart.elem o.vd j = s.hart.elem o.vd j

/-- LATRAIN and LAFB run one step of the array, after the one in progress has ended: LATRAIN nudges the clauses of the
trained classes that its draws choose, LAFB those that vm names, all from the states at the start of the step; no
register and no byte of memory changes (R235, R236, R237, R238, R240). -/
def Sys2Proof.Spec.ArrayTraining : Prop :=
  (∀ (o : LatrainOp) (s : State), VReady s → Admitted s (.latrain o) → s.mapsWf = true → let cl := s.cluster
    let u := landed s
    let a := u.clusterSt cl
    let x := s.hart.getV o.v
    ∃ t, exec (.latrain o) s = .next t ∧ TFrame (.latrain o) s t ∧ Kept s { t with cells := s.cells, clusters := s.clusters } ∧
      ArrayStepped x (fun c =>
        match feedback a.config (s.getG o.a) (voteOf a.config (clauseOut u cl a.config x true)) c with
        | some (p, ty) => if (draw a.seed a.steps c 1023 : Int) < p then some ty else none
        | none => none) u t) ∧
  ∀ (o : LaVOp) (s : State), VReady s → Admitted s (.lafb o) → s.mapsWf = true →
    ∃ t, exec (.lafb o) s = .next t ∧ TFrame (.lafb o) s t ∧ Kept s { t with cells := s.cells, clusters := s.clusters } ∧
      ArrayStepped (s.hart.getV o.v)
        (fun c => if (s.hart.getV o.vd).getLsbD c then some (if o.flag then 1 else 0) else none) (landed s) t

/-- LACFG configures the array, and clears it when it leaves the secure world; LASEED sets the seed and clears the
step count; LATBL loads a legal nudge table; LASTS writes the array's image and LASTL reads one back; each after the
step in progress has ended. A word, table or header that is not legal raises ILL with CSPEC 5 and leaves the array,
and so does a control word of LATRAIN (R229, R230, R231, R232, R235, R236, R237, R239, R240; the table's cause is log
entry 56). -/
def Sys2Proof.Spec.ArrayConfiguration : Prop :=
  (∀ (o : LaAOp) (s : State), VReady s → Admitted s (.lacfg o) → s.mapsWf = true → let u := landed s
    let a := u.clusterSt s.cluster
    ∃ t, exec (.lacfg o) s = .next t ∧ TFrame (.lacfg o) s t ∧
      if a.config.getLsbD 32 = true ∧ (s.getG o.a).getLsbD 32 = false then
        t.clusterSt s.cluster = { a with config := s.getG o.a, configured := true, seed := 0, steps := 0, table := 0 } ∧
          (∀ c l : Nat, c < 1024 → l < 1024 → t.cell s.cluster c l = 0) ∧
          Kept s { t with cells := s.cells, clusters := s.clusters }
      else t.clusterSt s.cluster = { a with config := s.getG o.a, configured := true } ∧
        Kept u { t with clusters := u.clusters }) ∧
  (∀ (o : LaAOp) (s : State), VReady s → vtypeLegal s.hart.csr.vtype = true → HasHandler s →
    worldFaults s (entryOf s (.lacfg o)) = false → cfgLegal (s.getG o.a) = false → ∃ t, exec (.lacfg o) s = .next t ∧
      t.hart.csr.cause = 0x101 ∧ t.hart.csr.tval = heldWord (.lacfg o) ∧ t.hart.csr.taux = 0x500000000 ∧
      t.clusters = s.clusters ∧ t.cells = s.cells) ∧
  (∀ (o : LatrainOp) (s : State), VReady s → vtypeLegal s.hart.csr.vtype = true → HasHandler s →
    worldFaults s (entryOf s (.latrain o)) = false → (s.clusterSt s.cluster).configured = true →
    controlLegal (s.clusterSt s.cluster).config (s.getG o.a) = false → ∃ t, exec (.latrain o) s = .next t ∧
      t.hart.csr.cause = 0x101 ∧ t.hart.csr.tval = heldWord (.latrain o) ∧ t.hart.csr.taux = 0x500000000 ∧
      t.clusters = s.clusters ∧ t.cells = s.cells) ∧
  (∀ (o : LaAOp) (s : State), VReady s → Admitted s (.laseed o) → ∃ t, exec (.laseed o) s = .next t ∧
    TFrame (.laseed o) s t ∧ Kept (landed s) { t with clusters := (landed s).clusters } ∧
      t.clusters = mapSet ClusterSt.reset (landed s).clusters s.cluster
        { (landed s).clusterSt s.cluster with seed := BitVec.ofNat 32 (s.getG o.a).toNat, steps := 0 }) ∧
  (∀ (o : LaAOp) (s : State) (ts : List Target), MemReady s → Admitted s (.latbl o) → (s.getG o.a).toNat % 64 = 0 →
    AllReach s (fun _ : Unit => .tile) .load (fun _ => s.getG o.a) 64 [()] [] (fun _ => ts) →
    (tableLegal (BitVec.ofNat 512 (numAt s ts)) = true → ∃ t, exec (.latbl o) s = .next t ∧ TFrame (.latbl o) s t ∧
      Kept (landed s) { t with clusters := (landed s).clusters } ∧
      t.clusters = mapSet ClusterSt.reset (landed s).clusters s.cluster
        { (landed s).clusterSt s.cluster with table := BitVec.ofNat 512 (numAt s ts) }) ∧
    (tableLegal (BitVec.ofNat 512 (numAt s ts)) = false → HasHandler s → ∃ t, exec (.latbl o) s = .next t ∧
      t.hart.csr.cause = 0x101 ∧ t.hart.csr.taux = 0x500000000 ∧ t.clusters = s.clusters)) ∧
  (∀ (o : LaAOp) (s : State) (ts : List Target), MemReady s → Admitted s (.lasts o) → (s.getG o.a).toNat % 256 = 0 →
    let u := landed s
    let a := u.clusterSt s.cluster
    AllReach s (fun _ : Unit => .tile) .store (fun _ => s.getG o.a) (256 + 1024 * cfgC a.config) [()] [] (fun _ => ts) →
    ImagePins s (s.getG o.a) (256 + 1024 * cfgC a.config) → ts.Nodup → ∃ t, exec (.lasts o) s = .next t ∧ TFrame (.lasts o) s t ∧
      Kept u { t with mem := u.mem } ∧ SameOffTargets ts s t ∧
      (∀ (k : Nat) (loc : Nat), k < 256 → ts[k]? = some (.mem loc) → readByte t.mem loc = ((arrayHeader a)[k]?).getD 0) ∧
      ∀ (c l loc : Nat), c < cfgC a.config → l < 1024 → ts[256 + 1024 * c + l]? = some (.mem loc) →
        (readByte t.mem loc).toNat = u.cell s.cluster c l) ∧
  ∀ (o : LaAOp) (s : State) (hts ts : List Target), MemReady s → Admitted s (.lastl o) → (s.getG o.a).toNat % 256 = 0 → s.mapsWf = true →
    AllReach s (fun _ : Unit => .tile) .load (fun _ => s.getG o.a) 256 [()] [] (fun _ => hts) →
    let x := numAt s hts
    let w : Word := BitVec.ofNat 64 x
    let legal : Prop := cfgLegal w = true ∧ tableLegal (BitVec.ofNat 512 (x / 2 ^ 512)) = true ∧ x / 2 ^ 96 % 2 ^ 32 = 0 ∧
      x / 2 ^ 192 % 2 ^ 320 = 0 ∧ x / 2 ^ 1024 = 0
    s.hart.csr.status.world = true ∨ ((s.clusterSt s.cluster).arrayWorld = false ∧ w.getLsbD 32 = false) →
    (legal → AllReach s (fun _ : Unit => .tile) .load (fun _ => s.getG o.a) (256 + 1024 * cfgC w) [()] [] (fun _ => ts) →
      ImagePins s (s.getG o.a) (256 + 1024 * cfgC w) → ts.take 256 = hts → ∃ t, exec (.lastl o) s = .next t ∧ TFrame (.lastl o) s t ∧
        Kept s { t with cells := s.cells, clusters := s.clusters } ∧
        t.clusterSt s.cluster = { (landed s).clusterSt s.cluster with
          configured := true, config := w, seed := BitVec.ofNat 32 (x / 2 ^ 64), steps := BitVec.ofNat 64 (x / 2 ^ 128)
          table := BitVec.ofNat 512 (x / 2 ^ 512) } ∧
        ∀ (c l : Nat) (y : Target), c < cfgC w → l < 1024 → ts[256 + 1024 * c + l]? = some y →
          t.cell s.cluster c l = (targetByte s s.hart.agent y).toNat) ∧
    (¬ legal → HasHandler s → ∃ t, exec (.lastl o) s = .next t ∧ t.hart.csr.cause = 0x101 ∧
      t.hart.csr.tval = heldWord (.lastl o) ∧ t.hart.csr.taux = 0x500000000 ∧ t.clusters = (landed s).clusters)

/-- LASTS and LASTL in U whose image holds watched bytes complete, leave the VIQ and are then reported: WATCHHIT with
the base, the kind of access and CSPEC[9], as no element is named (R239, R372, R373, R374). -/
def Sys2Proof.Spec.ImageWatchHits : Prop :=
  (∀ (o : LaAOp) (s : State) (ts : List Target), MemReady s → Admitted s (.lasts o) → (s.getG o.a).toNat % 256 = 0 →
    s.hart.csr.status.priv = false → HasHandler s → s.hart.csr.stripEn = false →
    let n := 256 + 1024 * cfgC (s.clusterSt s.cluster).config
    AllFound s (fun _ : Unit => .tile) .store (fun _ => s.getG o.a) n [()] [] (fun _ => ts) →
    ImagePins s (s.getG o.a) n → ts.any s.watchedTarget = true → ∃ t, exec (.lasts o) s = .next t ∧
      t.hart.csr.cause = 0x10D ∧ t.hart.csr.tval = s.getG o.a ∧ t.hart.csr.taux = BitVec.ofNat 64 (2 ^ 63 + 514 * 2 ^ 32) ∧
      t.hart.viq = [] ∧ t.hart.headTrapped = false ∧ SameOffTargets ts s t ∧ t.cells = (landed s).cells) ∧
  ∀ (o : LaAOp) (s : State) (hts ts : List Target), MemReady s → Admitted s (.lastl o) → (s.getG o.a).toNat % 256 = 0 → s.mapsWf = true →
    s.hart.csr.status.priv = false → HasHandler s → s.hart.csr.stripEn = false →
    AllFound s (fun _ : Unit => .tile) .load (fun _ => s.getG o.a) 256 [()] [] (fun _ => hts) →
    let x := numAt s hts
    let w : Word := BitVec.ofNat 64 x
    s.hart.csr.status.world = true ∨ ((s.clusterSt s.cluster).arrayWorld = false ∧ w.getLsbD 32 = false) →
    headerLegal (leBytes 256 x) = true →
    AllFound s (fun _ : Unit => .tile) .load (fun _ => s.getG o.a) (256 + 1024 * cfgC w) [()] [] (fun _ => ts) →
    ImagePins s (s.getG o.a) (256 + 1024 * cfgC w) → ts.any s.watchedTarget = true → ∃ t, exec (.lastl o) s = .next t ∧
      t.hart.csr.cause = 0x10D ∧ t.hart.csr.tval = s.getG o.a ∧ t.hart.csr.taux = BitVec.ofNat 64 (2 ^ 63 + 513 * 2 ^ 32) ∧
      t.hart.viq = [] ∧ t.hart.headTrapped = false ∧ t.mem = s.mem ∧ (t.clusterSt s.cluster).configured = true ∧
      (t.clusterSt s.cluster).config = w

/-- The statement that joins `ArrayEvaluation`, `ArrayTraining`, `ArrayConfiguration` and `ImageWatchHits`. It rests
on choices or readings of the model: log entries 11, 36 and 56. -/
def Obligations.ClauseArray : Prop :=
  Spec.ArrayEvaluation ∧ Spec.ArrayTraining ∧ Spec.ArrayConfiguration ∧ Spec.ImageWatchHits

/-! ## Statements: the host, engines, Helm and Gimbal -/

/-- SEM_READ claims a free semaphore for its port and returns it with HELD 1 and the owner; SEM_RELEASE and the loss
of a port's link free it when that port owns it, and change nothing otherwise. After the cutoff both ports are down,
and neither access reaches the module. An access of the port, PUSHGO too, stands behind an earlier one that waits
(R386, R387, R400). -/
def Sys2Proof.Spec.HostSemaphore : Prop :=
  ∀ (p : Fin 2) (s : State), let owner : Bool := if s.host.semHeld then s.host.semOwner else p == 1
    (s.cutOff = true → exec (.semRead p) s = .next s ∧ exec (.semRelease p) s = .next s) ∧
    (s.cutOff = false → ¬ PortFree s p →
      exec (.semRead p) s = .next (waiting s (.host p (.read (BitVec.ofNat 48 (2 ^ 47)) 8))) ∧
      exec (.semRelease p) s = .next (waiting s (.host p (barWrite 0 0))) ∧
      ∀ x : Word, exec (.pushgo p x) s = .next (waiting s (.host p (barWrite 0x18 x)))) ∧
    (s.cutOff = false → PortFree s p → exec (.semRead p) s = .next { s with host := { s.host with
      semHeld := true, semOwner := owner, hostResp := .data (leBytes 8 (2 ^ 63 + if owner then 1 else 0)) } }) ∧
    ∀ i : Instr, i = .semRelease p ∧ s.cutOff = false ∧ PortFree s p ∨ i = .portLinkDown p → exec i s = .next
      (if s.host.semHeld = true ∧ s.host.semOwner = (p == 1) then
        { s with host := { s.host with semHeld := false, semOwner := false } } else s)

/-- A flit that an up link sends again raises RETRY, which saturates, and one that passes its check begins the count
of failed sends anew, unless 16 have failed; a link goes down after 16 failed sends of one flit and keeps RETRY; a
link that trains comes up non-secure with its peer's number and RETRY 0. Each write of a hart that the link carried is
lost and raises a machine check with CSPEC 3 at that hart, and a read-modify-write whose outcome has not come back
takes that machine check (R307, R390). -/
def Sys2Proof.Spec.LinkEvents : Prop :=
  ∀ (l : Fin 24) (peer : BitVec 16) (s : State), let k := s.link l
    let upd (x : Link) : State := { s with links := s.links.set l.val x l.isLt }
    exec (.flitRetry l) s = .next (if k.up = true then
      upd { k with retry := BitVec.ofNat 16 (min (k.retry.toNat + 1) 65535), fails := k.fails + 1 } else s) ∧
    (∀ rest : List Turn, s.agenda = .flitSent l :: rest → s.powered = true →
      step s = .next { upd (if 16 ≤ k.fails then k else { k with fails := 0 }) with agenda := rest }) ∧
    (k.up = false ∨ k.fails < 16 → exec (.linkDown l) s = .next s) ∧
    (k.up = true → 16 ≤ k.fails → let down : Link := { k with up := false, secure := false, fails := 0 }
      let lost (h : Hart) : List Pend := h.pend.filter fun p => p.link == some l.val
      let onTrip (h : Hart) : Prop := ∃ (old : Option Nat) (hit : Bool), h.run = .peer l.val old hit
      ((∀ h ∈ s.hart :: s.others, lost h = [] ∧ ¬ onTrip h) → exec (.linkDown l) s = .next (upd down)) ∧
      ((∀ h ∈ s.hart :: s.others, ¬ onTrip h) → s.hart.run ≠ .vacant →
        (∀ h ∈ s.others, h.csr.hartid ≠ s.hart.csr.hartid) → ∃ t, exec (.linkDown l) s = .next t ∧ t.link l = down ∧
          t.hart = { s.hart with
            pend := s.hart.pend.filter fun p => p.link != some l.val
            pendMchk := s.hart.pendMchk ++ List.replicate (lost s.hart).length (3, 0) } ∧ t.mem = s.mem) ∧
      (onTrip s.hart → (∀ h ∈ s.hart :: s.others, lost h = []) → (∀ h ∈ s.others, ¬ onTrip h) → HasHandler s →
        ∃ t, exec (.linkDown l) s = .next t ∧ t.link l = down ∧
          Traps { code := 0x10, cls := .scalar, tval := 0, taux := 0x300000000 } s.hart.pc s t)) ∧
    exec (.linkUp l peer) s = .next (if k.up = true then s else
      upd { up := true, secure := false, retry := 0, peerid := peer, fails := 0 })

/-- The statement that joins `HostSemaphore` and `LinkEvents`. It rests on choices or readings of the model: log
entries 41 and 42. -/
def Obligations.HostSemaphoreAndLinks : Prop :=
  Spec.HostSemaphore ∧ Spec.LinkEvents

/-- An access of LPDDR6 from outside that its world and the map admit reads, or writes, exactly its bytes, a release
write waking the monitors of its line; a refused one and a read of a bad block are aborted; one that meets an engine's
lines waits, and so does every later one of its source. LINE_RECALL performs the one that has waited longest among
those that can, once the hart itself does not wait. A peer's read-modify-write performs here as one step and returns
the old value (R264, R306, R311, R387, R390, R396). -/
def Sys2Proof.Spec.OutsideMemoryAccesses : Prop :=
  (∀ (s : State) (run : BusAccess → Instr) (w : Bool) (answer : BusResp → State → State) (wait : BusAccess → Recall),
    Outside s run w answer wait → ∀ (addr : BitVec 48) (n : Nat) (bs : List Byte) (rel : Bool), let pa := addr.toNat
      (∀ acc : BusAccess, s.recalled.any (wait acc).sameSource = true →
        exec (run acc) s = .next { s with recalled := s.recalled ++ [wait acc] }) ∧
      (s.recalled.any (wait (.read addr n)).sameSource = false → pa < lpddrEnd →
      (outsideRefused s w pa n = true → exec (run (.read addr n)) s = .next (answer .abort s)) ∧
      (outsideRefused s w pa n = false → (targetsOf pa n).any (s.ownedTarget none) = true →
        exec (run (.read addr n)) s = .next { s with recalled := s.recalled ++ [wait (.read addr n)] }) ∧
      (outsideRefused s w pa n = false → (targetsOf pa n).any (s.ownedTarget none) = false →
        exec (run (.read addr n)) s = .next
          (answer (if (targetsOf pa n).any s.badTarget then .abort else .data (readBytes s.mem pa n)) s)) ∧
      (outsideRefused s w pa bs.length = true → exec (run (.write addr bs rel)) s = .next (answer .abort s)) ∧
      (outsideRefused s w pa bs.length = false → (targetsOf pa bs.length).any (s.ownedTarget none) = true →
        exec (run (.write addr bs rel)) s = .next { s with recalled := s.recalled ++ [wait (.write addr bs rel)] }) ∧
      (outsideRefused s w pa bs.length = false → (targetsOf pa bs.length).any (s.ownedTarget none) = false →
        s.mapsWf = true → let line := if rel then some (pa / 64) else none
        ∃ t, exec (run (.write addr bs rel)) s = .next t ∧ HomeWritten pa bs s t ∧ t = answer .done { s with
          mem := t.mem, ctl := t.ctl, hart := wakeAt line s.hart, others := s.others.map (wakeAt line) }))) ∧
  (∀ (l : Fin 24) (op : BusRmw) (w32 rel : Bool) (addr : BitVec 48) (x cmp : Word) (s : State), let pa := addr.toNat
    let n := if w32 then 4 else 8
    (s.link l).up = true → s.recalled.any (Recall.peer l (.rmw op w32 rel addr x cmp)).sameSource = false → pa < lpddrEnd →
    pa % n = 0 → outsideRefused s (s.link l).secure pa n = false → s.mapsWf = true →
    (targetsOf pa n).any (s.ownedTarget none) = false → (targetsOf pa n).any s.badTarget = false →
    let old := readNat s.mem pa n
    let line := if rel then some (pa / 64) else none
    let gives (y : Nat) : Prop := ∃ t, exec (.peerAccess l (.rmw op w32 rel addr x cmp)) s = .next t ∧
      HomeWritten pa (leBytes n y) s t ∧ t = toPeer (.data (readBytes s.mem pa n)) { s with
        mem := t.mem, ctl := t.ctl, hart := wakeAt line s.hart, others := s.others.map (wakeAt line) }
    (∀ f : (w : Nat) → BitVec w → BitVec w → BitVec w, (op, f) ∈ busTable →
      gives (f (8 * n) (BitVec.ofNat _ old) (BitVec.ofNat _ x.toNat)).toNat) ∧
    (op = .cas → old = cmp.toNat % 2 ^ (8 * n) → gives (x.toNat % 2 ^ (8 * n))) ∧
    (op = .cas → old ≠ cmp.toNat % 2 ^ (8 * n) → exec (.peerAccess l (.rmw op w32 rel addr x cmp)) s =
      .next (toPeer (.data (readBytes s.mem pa n)) s))) ∧
  (∀ (l : Fin 24) (acc : BusAccess) (s : State), (s.link l).up = false → exec (.peerAccess l acc) s = .next s) ∧
  ∀ s : State,
    (s.hart.run = .stalled → exec .lineRecall s = .next { s with hart := { s.hart with run := .running } }) ∧
    (s.hart.run ≠ .stalled → AllWait s s.recalled → exec .lineRecall s = .next s) ∧
    ∀ (before rest : List Recall) (r : Recall) (t : State), s.hart.run ≠ .stalled → s.recalled = before ++ r :: rest →
      AllWait s before → before.any r.sameSource = false → CanArrive s r →
      exec (recallEvent r) { s with recalled := [] } = .next t → t.recalled = [] →
      exec .lineRecall s = .next { t with recalled := before ++ rest }

/-- BAR2 reads as ones and discards writes until boot has finished and above the module's LPDDR6; BAR0 reaches the
staging buffer in non-secure slices, SEM by SEM_READ, and its 8-byte registers, which a write of 8 bytes writes; after
the cutoff no access arrives. A port's accesses are taken in their order, so that these are of a port none of which
waits (R385, R386, R387, R395, R400). -/
def Sys2Proof.Spec.HostWindows : Prop :=
  ∀ (p : Fin 2) (addr : BitVec 48) (n : Nat) (bs : List Byte) (rel : Bool) (s : State), let off := addr.toNat % 2 ^ 26
    let first : Prop := s.cutOff = false ∧ s.recalled.any (Recall.host p (.read addr n)).sameSource = false
    (s.cutOff = true → ∀ acc : BusAccess, exec (.hostAccess p acc) s = .next s) ∧
    (first → addr.getLsbD 47 = false → s.host.bootState ≠ 3 ∨ lpddrEnd ≤ addr.toNat →
      exec (.hostAccess p (.read addr n)) s = .next (toPort (.data (List.replicate n 0xFF)) s) ∧
      exec (.hostAccess p (.write addr bs rel)) s = .next (toPort .done s)) ∧
    (first → addr.getLsbD 47 = true →
      (0x1000000 ≤ off → off + n ≤ 0x2000000 → (stagingTargets off n).any (s.ownedTarget none) = false → exec (.hostAccess p (.read addr n)) s = .next
        (toPort (if stagingSecure s off n || (stagingTargets off n).any s.badTarget then .abort else .data (readBytes s.mem (packageLoc (off - 0x1000000)) n)) s)) ∧
      (0x1000000 ≤ off → off + bs.length ≤ 0x2000000 → 0 < bs.length → s.memoriesWf = true →
        stagingSecure s off bs.length = false → (stagingTargets off bs.length).any (s.ownedTarget none) = false →
        ∃ t, exec (.hostAccess p (.write addr bs rel)) s = .next t ∧
          (∀ (i : Nat) (b : Byte), bs[i]? = some b → readByte t.mem (packageLoc (off - 0x1000000) + i) = b) ∧
          SameOutside (packageLoc (off - 0x1000000)) bs.length s t ∧ t = toPort .done { s with mem := t.mem }) ∧
      (off = 0 → n ≤ 8 → exec (.hostAccess p (.read addr n)) s = exec (.semRead p) s) ∧
      (off = 8 → exec (.hostAccess p (.read addr 8)) s = .next
        (toPort (.data (leBytes 8 (s.host.bootState.toNat + 256 * s.host.bootReason.toNat))) s)) ∧
      (off < 4096 → bs.length = 8 → exec (.hostAccess p (.write addr bs rel)) s =
        exec (.registerWrite (.host p (BitVec.ofNat 12 off)) (BitVec.ofNat 64 (leNat bs))) (toPort .done s)))

/-- The statement that joins `OutsideMemoryAccesses` and `HostWindows`. It rests on a choice or reading of the model:
log entry 31. -/
def Obligations.OutsideAccesses : Prop :=
  Spec.OutsideMemoryAccesses ∧ Spec.HostWindows

/-- A module reset leaves SPI NOR and peers' memory, vacates every hart, and boots from NOR: an image that verifies
starts the firmware, any other gives STATE 4 with the reason of the first check that fails; firmware whose write was
cut off fails with an open reason, and a read error of the NOR, which is open, gives REASON 5, for the kernel image
too. The firmware then starts the kernel image that follows it, or gives REASON 6, also where that image's write was
cut off, and the kernel finishes boot (R391, R392, R393). -/
def Sys2Proof.Spec.BootSequence : Prop :=
  (∀ (i : Source) (kind : Nat), i.verify kind = 0 ↔ i.formatOk kind = true ∧
    BitVec.ofNat 256 (beNat (sha256 (i.bytes 0x100 384))) = (if kind = 1 then Config.rootHash else Config.kernHash) ∧
    Config.minSvn.toNat ≤ leNat (i.bytes 8 4) ∧ rsaVerify (i.bytes 0x100 384) (i.bytes 0x400 384) i.digest = true) ∧
  ∀ s : State,
    (∃ t, exec .moduleReset s = .next t ∧ t.nor = s.nor ∧ t.hart = Hart.reset ∧ t.others = [] ∧ t.powered = true ∧
      t.host.semHeld = false ∧ t.host.kernelUp = false ∧ t.helm.root = 0 ∧ t.host.kernelBad = s.host.kernelBad ∧
      (∀ loc : Nat, readByte t.mem loc = if 2 ^ 60 ≤ loc then readByte s.mem loc else 0) ∧
      (s.host.norBad = true → t.host.bootState = 4 ∧ 1 ≤ t.host.bootReason.toNat ∧ t.host.bootReason.toNat ≤ 5) ∧
      (s.host.norBad = false → Config.norReadFails s.fresh = true → t.host.bootState = 4 ∧ t.host.bootReason = 5) ∧
      (s.host.norBad = false → Config.norReadFails s.fresh = false → (norSource s 0).verify 1 = 0 → t.host.bootState = 2 ∧
        t.host.fwLen = 0x800 + (norSource s 0).length) ∧
      (s.host.norBad = false → Config.norReadFails s.fresh = false → (norSource s 0).verify 1 ≠ 0 → t.host.bootState = 4 ∧
        t.host.bootReason = BitVec.ofNat 8 ((norSource s 0).verify 1))) ∧
    (s.host.bootState = 2 → s.host.kernelUp = false →
      let i := norSource s ((s.host.fwLen + 0xFFFF) / 0x10000 * 0x10000)
      let fails (reason : Byte) : State := { s with
        fresh := s.fresh + 1, host := { s.host with bootState := 4, bootReason := reason, expectKernel := true } }
      (Config.norReadFails s.fresh = true → exec .kernelStart s = .next (fails 5)) ∧
      (Config.norReadFails s.fresh = false → s.host.kernelBad = false → i.verify 2 = 0 → ∃ t, exec .kernelStart s = .next t ∧ t.host.kernelUp = true ∧
        t.host.bootState = 2 ∧ t = { s with host := t.host, fresh := s.fresh + 1 }) ∧
      (Config.norReadFails s.fresh = false → s.host.kernelBad = true ∨ i.verify 2 ≠ 0 → exec .kernelStart s = .next (fails 6))) ∧
    (s.host.bootState ≠ 2 ∨ s.host.kernelUp = true → exec .kernelStart s = .next s) ∧
    exec .bootReady s = .next (if s.host.bootState = 2 ∧ s.host.kernelUp = true then
      { s with host := { s.host with bootState := 3 }, ctl := { s.ctl with sparing := Config.sparing } } else s)

/-- PUSHGO of the semaphore's holder in STATE 4 verifies the pushed image and boots it, or fails with its reason (6
for a kernel); anyone else's changes nothing. With PROGRAM the image joins those still to be written, and NOR_PROGRAM
writes the oldest of them to SPI NOR, a kernel behind the firmware. A loss of power ends everything but NOR, cuts off
the write of an image to it, and the module takes no step until power returns (R386, R392, R393). -/
def Sys2Proof.Spec.PushedImages : Prop :=
  ∀ (p : Fin 2) (x : Word) (s : State),
    let go : Prop := s.cutOff = false ∧ s.host.semHeld = true ∧ s.host.semOwner = (p == 1) ∧ s.host.bootState = 4 ∧ x.getLsbD 0 = true
    let kernel := s.host.expectKernel
    let good : Prop := (pushSource s).verify (if kernel then 2 else 1) = 0
    (PortFree s p → ¬ go → exec (.pushgo p x) s = .next s) ∧
    (PortFree s p → go → good → ∃ t, exec (.pushgo p x) s = .next t ∧ t.host.bootState = 2 ∧ t.host.pushed = true ∧
      t.host.pushImage = (pushSource s).image ∧
      t.host.norQueue = s.host.norQueue ++ (if x.getLsbD 1 then [(pushSource s).image] else []) ∧
      t.host.kernelUp = (s.host.kernelUp || kernel) ∧ t = { s with host := t.host }) ∧
    (PortFree s p → go → ¬ good → ∃ t, exec (.pushgo p x) s = .next t ∧ t.host.bootState = 4 ∧
      t.host.bootReason = (if kernel then 6 else BitVec.ofNat 8 ((pushSource s).verify 1)) ∧ t = { s with host := t.host }) ∧
    (s.host.norQueue = [] → exec .norProgram s = .next s) ∧
    (∀ (image : List Byte) (rest : List (List Byte)), s.host.norQueue = image :: rest → memWf s.nor = true →
      ∃ t, exec .norProgram s = .next t ∧
      let at0 := if kernelImage image then (s.host.fwLen + 0xFFFF) / 0x10000 * 0x10000 else 0
      (∀ (k : Nat) (b : Byte), image[k]? = some b → readByte t.nor (at0 + k) = b) ∧
      (∀ k : Nat, k < at0 ∨ at0 + image.length ≤ k → readByte t.nor k = readByte s.nor k) ∧
      t = { s with nor := t.nor, host := { s.host with
        norQueue := rest
        norBad := if kernelImage image then s.host.norBad else false
        kernelBad := if kernelImage image then false else s.host.kernelBad } }) ∧
    ∃ t, exec .powerLoss s = .next t ∧ t.powered = false ∧ t.nor = s.nor ∧ t.hart = Hart.reset ∧ t.others = [] ∧
      (t.host.norBad = true ↔ s.host.norBad = true ∨ ∃ image rest, s.host.norQueue = image :: rest ∧ ¬ kernelImage image) ∧
      (t.host.kernelBad = true ↔ s.host.kernelBad = true ∨ ∃ image rest, s.host.norQueue = image :: rest ∧ kernelImage image) ∧
      (s.agenda = [] → step t = .fault .poweredOff)

/-- The statement that joins `BootSequence` and `PushedImages`. It rests on choices or readings of the model: log
entries 28 and 29. -/
def Obligations.BootAndPush : Prop :=
  Spec.BootSequence ∧ Spec.PushedImages

/-- The kernel performs requests in the order of their writes, and does nothing for one whose turn has not come; each
of these waits while an engine owns a line of a request, of its destination or of a nonce. LOAD copies the drive's
blocks to DST; a drive error leaves each block old or new and gives STATUS 4. ATTEST writes its report of 1,024 bytes
with the identity key's signature of it, or gives STATUS 4 when its nonce cannot be read. RETIRE retires its channel
(R389, R394, R399). -/
def Sys2Proof.Spec.LoadAttestRetire : Prop :=
  (∀ row ∈ requestTable, ∀ s : State, s.host.kernelUp = false ∨ s.host.bootState ≠ 3 ∨ nextRequest s row.1 = none →
    exec row.2 s = .next s) ∧
  ∀ (i : Nat) (r : Request) (s : State), let dst := reqDst s r
    let w := srcSecure r.src
    (NextRequest s 1 i r → s.ownedRange dst (reqLen s r) = false → s.memoriesWf = true → let n := reqArg1 s r
      let new (k o : Nat) : Byte :=
        Config.nvmeByte (reqUnit s r) (reqNsid s r) ((reqArg0 s r + k) % 2 ^ 64) o s.fresh
      (∀ k : Nat, k < n → outsideRefused s w (dst + 4096 * k) 4096 = false) → ∃ t, exec .reqLoad s = .next t ∧
        SameOutside dst (4096 * n) s t ∧
        (Config.nvmeError s.fresh = false → t.host = resulted s i r 1 ∧
          ∀ k o : Nat, k < n → o < 4096 → readByte t.mem (dst + 4096 * k + o) = new k o) ∧
        (Config.nvmeError s.fresh = true → t.host = resulted s i r 4 ∧ ∀ k : Nat, k < n →
          (∀ o : Nat, o < 4096 → readByte t.mem (dst + 4096 * k + o) = new k o) ∨
            ∀ o : Nat, o < 4096 → readByte t.mem (dst + 4096 * k + o) = readByte s.mem (dst + 4096 * k + o)) ∧
        t = { s with
          mem := t.mem, host := t.host, fresh := t.fresh
          ctl := { s.ctl with
            blockMeta := t.ctl.blockMeta, sectors := t.ctl.sectors, dirty := t.ctl.dirty, bad := t.ctl.bad } }) ∧
    (NextRequest s 2 i r → s.ownedRange dst (reqLen s r) = false → s.ownedRange (reqArg0 s r) 32 = false → let a := reqArg0 s r
      let unreadable : Prop := lpddrEnd < a + 32 ∨ outsideRefused s w a 32 = true ∨ (targetsOf a 32).any s.badTarget = true
      (unreadable → exec .reqAttest s = .next { s with host := resulted s i r 4 }) ∧
      (¬ unreadable → outsideRefused s w dst 1024 = false → s.memoriesWf = true → ∃ t, exec .reqAttest s = .next t ∧
        t.host = resulted s i r 1 ∧ SameOutside dst 1024 s t ∧ let bs := readBytes t.mem dst 1024
        field bs 0 8 = Config.serial.toNat ∧ field bs 8 4 = Config.minSvn.toNat ∧ field bs 0xC 4 = s.host.fwSvn.toNat ∧
        (bs.drop 0x10).take 32 = readBytes s.mem a 32 ∧ beNat ((bs.drop 0x30).take 32) = s.host.fwHash.toNat ∧
        beNat ((bs.drop 0x50).take 32) = s.host.kernHash.toNat ∧ field bs 0x90 8 = s.time % 2 ^ 64 ∧
        beNat ((bs.drop 0x100).take 384) = Config.identityModulus.toNat ∧
        beNat ((bs.drop 0x280).take 384) = powMod Config.identityModulus.toNat 3072
          (beNat (pkcsEncode (sha256 (bs.take 0x280)))) Config.identityExponent)) ∧
    (NextRequest s 5 i r → s.ownedRange dst (reqLen s r) = false → exec .reqRetire s = .next { s with
      ctl := { s.ctl with retired := some (reqUnit s r) }, host := resulted s i r 1 })

/-- DRAIN stops placement on its cluster and takes it offline once no hart is on it and no command aims at it; RETURN
brings an offline cluster back zeroed and unconfigured, its worlds kept, unless its test fails (STATUS 4), and is
denied for a cluster that is not offline. A completed request gets its STATUS, its counter rises by 1 with release,
and a port gets its message (R388, R398). -/
def Sys2Proof.Spec.DrainReturnComplete : Prop :=
  (∀ (i : Nat) (r : Request) (s : State), s.mapsWf = true → let cl := reqUnit s r
    (NextRequest s 3 i r → s.ownedRange (reqDst s r) (reqLen s r) = false → ∃ t, exec .reqDrain s = .next t ∧
      (s.clusterIdle cl = true → t.host = resulted s i r 1 ∧
        t.clusterSt cl = { s.clusterSt cl with draining := false, offline := true }) ∧
      (s.clusterIdle cl = false → t.host = s.host ∧ t.clusterSt cl = { s.clusterSt cl with draining := true } ∧
        t.cores = s.cores) ∧
      (∀ c : Nat, c ≠ cl → t.clusterSt c = s.clusterSt c) ∧
      t = { s with clusters := t.clusters, cores := t.cores, host := t.host }) ∧
    (NextRequest s 4 i r → s.ownedRange (reqDst s r) (reqLen s r) = false →
      ((s.clusterSt cl).offline = false → exec .returnCluster s = .next { s with host := resulted s i r 3 }) ∧
      ((s.clusterSt cl).offline = true → Config.testFails s.fresh = true →
        exec .returnCluster s = .next { s with host := resulted s i r 4, fresh := s.fresh + 1 }) ∧
      ((s.clusterSt cl).offline = true → Config.testFails s.fresh = false → ∃ t, exec .returnCluster s = .next t ∧
        t.host = resulted s i r 1 ∧
        t.clusterSt cl = { ClusterSt.reset with
          memSecure := (s.clusterSt cl).memSecure, arraySecure := (s.clusterSt cl).arraySecure } ∧
        (∀ loc : Nat, OfCluster cl loc → readByte t.mem loc = 0) ∧
        (∀ loc : Nat, ¬ OfCluster cl loc → readByte t.mem loc = readByte s.mem loc) ∧
        (∀ g : Nat, g ∈ t.ctl.watch ↔ g ∈ s.ctl.watch ∧ ¬ OfCluster cl (32 * g)) ∧
        (∀ b : Nat, b ∈ t.ctl.bad ↔ b ∈ s.ctl.bad ∧ ¬ OfCluster cl (256 * b)) ∧
        (∀ c l : Nat, c < 1024 → l < 1024 → t.cell cl c l = 0)))) ∧
  ∀ s : State, s.host.kernelUp = true → s.host.bootState = 3 → RequestsFree s →
    (completable s [] s.host.requests = none → exec .requestComplete s = .next s) ∧
    ∀ (r : Request) (x : Fin 5), completable s [] s.host.requests = some (r, x) → let c := reqCompl s r
      let pa := r.addr.toNat + 1
      s.memoriesWf = true → c % 8 = 0 → outsideRefused s (srcSecure r.src) pa 1 = false → pa < lpddrEnd →
      outsideRefused s (srcSecure r.src) c 8 = false → c + 8 ≤ lpddrEnd →
      s.ownedRange pa 1 = false → s.ownedRange c 8 = false → pa < c ∨ c + 8 ≤ pa →
      ∃ t, exec .requestComplete s = .next t ∧ readByte t.mem pa = BitVec.ofNat 8 x.val ∧
        readNat t.mem c 8 = (readNat s.mem c 8 + 1) % 2 ^ 64 ∧
        (∀ loc : Nat, loc ≠ pa → loc < c ∨ c + 8 ≤ loc → readByte t.mem loc = readByte s.mem loc) ∧
        t.host = { s.host with
          requests := s.host.requests.erase r
          msix1 := s.host.msix1 ++ match r.src with
            | .port p => [p]
            | .hart _ _ => []
            | .management => [] } ∧
        t.hart = wakeAt (some (c / 64)) s.hart ∧ t.others = s.others.map (wakeAt (some (c / 64)))

/-- The statement that joins `LoadAttestRetire` and `DrainReturnComplete`. It rests on choices or readings of the
model: log entries 32 and 35. -/
def Obligations.ManagementRequests : Prop :=
  Spec.LoadAttestRetire ∧ Spec.DrainReturnComplete

/-- The kernel routes the oldest fault message by its domain's entry: without a valid one, or where it cannot reach
the entry or the ring, to the host; otherwise its 32 bytes go to the next record of the domain's ring, and then to the
host, or as NOTIFY to the entry's hart when that hart is placed for the domain (R264, R365, R397, R399). -/
def Sys2Proof.Spec.FaultMessageRouting : Prop :=
  ∀ s : State,
    (s.host.kernelUp = false ∨ s.messages = [] → exec .faultMessage s = .next s) ∧
    ∀ (m : FaultMsg) (rest : List FaultMsg), s.host.kernelUp = true → s.messages = m :: rest → s.mapsWf = true →
      let slot := s.host.domtab.toNat + 8 * m.domain.toNat
      let e := readNat s.mem slot 8
      let n := mapGet 0 s.ringCount m.domain.toNat
      let pa := e / 2 ^ 12 % 2 ^ 40 * 4096 + 32 * (n % 128)
      let reached (a : Nat) : Prop := a < lpddrEnd ∧ physCheck s true a = none
      s.ownedRange slot 8 = false →
      (¬ reached slot ∨ e.testBit 63 = false ∨ ¬ reached pa → exec .faultMessage s = .next { s with
        messages := rest, host := { s.host with msix0 := s.host.msix0 + 1 } }) ∧
      (reached slot → e.testBit 63 = true → reached pa → s.ownedRange pa 32 = false →
        ∃ t, exec .faultMessage s = .next t ∧ t.messages = rest ∧
        mapGet 0 t.ringCount m.domain.toNat = n + 1 ∧ SameOutside pa 32 s t ∧ let bs := readBytes t.mem pa 32
        field bs 0 2 = m.domain.toNat ∧ field bs 2 1 = m.kind.toNat ∧ field bs 3 1 = m.code.toNat ∧
        field bs 4 4 = m.source.toNat ∧ field bs 8 8 = m.object.toNat ∧ field bs 16 8 = m.addr.toNat ∧
        field bs 24 8 = m.time % 2 ^ 64 ∧
        (e.testBit 62 = true ∨ s.placedHart (BitVec.ofNat 12 e) = none → t.host.msix0 = s.host.msix0 + 1) ∧
        ∀ h : Hart, e.testBit 62 = false → s.placedHart (BitVec.ofNat 12 e) = some h →
          (h.domain ≠ m.domain → t.host.msix0 = s.host.msix0 + 1) ∧
          (h.domain = m.domain → t.host = s.host ∧ (t.placedHart (BitVec.ofNat 12 e)).map (·.pendNotify) =
            some (h.pendNotify ++ [BitVec.ofNat 64 pa])))

/-- A soft error is only counted: SOFTERR of the hart it belongs to, SOFTERRMOD at every placed hart, and the module's
register; a refused migration counts MIGFREEZE at every hart and at the module (R284, R364, R380). -/
def Sys2Proof.Spec.CountedEvents : Prop :=
  ∀ s : State,
    (∀ own : Bool, ∃ t u, exec (.softError own) s = .next t ∧ t = { s with
        hart := t.hart, others := t.others, softerr := s.softerr + 1 } ∧
      (if own then Counted 0x10 1 s.hart u else u = s.hart) ∧
      (if s.hart.run = .vacant then t.hart = u else Counted 0x11 1 u t.hart) ∧ t.others.length = s.others.length ∧
      ∀ (k : Nat) (h h' : Hart), s.others[k]? = some h → t.others[k]? = some h' →
        if h.run = .vacant then h' = h else Counted 0x11 1 h h') ∧
    ∃ t, exec .migfreezeMessage s = .next t ∧ Counted 0x12 1 s.hart t.hart ∧ t.others.length = s.others.length ∧
      (∀ (k : Nat) (h h' : Hart), s.others[k]? = some h → t.others[k]? = some h' → Counted 0x12 1 h h') ∧
      t = { s with hart := t.hart, others := t.others, migfreeze := s.migfreeze + 1 }

/-- The kinds of memory in which an error is found, with the size of each and where its byte `o` lies for a hart
(R283). -/
def Sys2Proof.Spec.errorTable (s : State) : List (ErrKind × Nat × (Nat → Nat)) :=
  [(.block, lpddrEnd, fun o => o), (.scratchpad, 2 ^ 19, coreLoc s.core), (.clusterMemory, 2 ^ 22, clusterLoc s.cluster),
    (.package, 2 ^ 26, packageLoc)]

/-- An uncorrectable error of memory stays with its unit of 256 bytes and raises a masked machine check at the placed
hart; one of a hart's state raises the unmasked one; one of an STE slot, of the accumulators or of an array raises a
machine check with CSPEC 4 at every placed hart of the core or the cluster, and leaves that state (R283, R364). -/
def Sys2Proof.Spec.UncorrectableErrors : Prop :=
  ∀ (addr : Word) (s : State),
    (∀ row ∈ errorTable s, let unit := row.2.2 addr.toNat / 256
      (row.2.1 ≤ addr.toNat → exec (.uncorrectableError row.1 addr) s = .next s) ∧
      (addr.toNat < row.2.1 → ∃ t, exec (.uncorrectableError row.1 addr) s = .next t ∧
        (∀ b : Nat, b ∈ t.ctl.bad ↔ b ∈ s.ctl.bad ∨ b = unit) ∧
        t.hart = (if s.hart.run = .vacant then s.hart else { s.hart with pendMchk := s.hart.pendMchk ++ [(1, 0)] }) ∧
        t = { s with
          ctl := { s.ctl with bad := t.ctl.bad }, hart := t.hart, others := t.others, messages := t.messages })) ∧
    (∃ t, exec (.uncorrectableError .hartState addr) s = .next t ∧
      t.hart = (if s.hart.run = .vacant then s.hart else { s.hart with pendMchkUnmasked := true }) ∧
      t = { s with hart := t.hart, messages := t.messages }) ∧
    ∀ (k : ErrKind) (near : Hart → Prop),
      ((∃ n : Fin 2, k = .slot n) ∨ k = .acc) ∧ near = (fun h => coreOf h.csr.hartid = coreOf s.hart.csr.hartid) ∨
        k = .array ∧ near = (fun h => clusterOf h.csr.hartid = clusterOf s.hart.csr.hartid) →
      ∃ t, exec (.uncorrectableError k addr) s = .next t ∧ t.others.length = s.others.length ∧
        (∀ (i : Nat) (h h' : Hart), (s.hart :: s.others)[i]? = some h → (t.hart :: t.others)[i]? = some h' →
          (h.run ≠ .vacant ∧ near h → h' = { h with pendMchk := h.pendMchk ++ [(4, 0)] }) ∧
          (¬ (h.run ≠ .vacant ∧ near h) → h' = h)) ∧
        t = { s with hart := t.hart, others := t.others, messages := t.messages }

/-- A partial write of a block without a line in L2 merges its bytes and encodes the block by its frame's attribute,
entry and sectors; over an uncorrectable error it raises a machine check, and the error stays. Bytes outside one block
of LPDDR6, or of a block that L2 holds, are no such write. A write-back of a modified line encodes its block and
leaves it clean (R266, R274, R275, R279, R283, R364). -/
def Sys2Proof.Spec.ControllerWrites : Prop :=
  (∀ (a : BitVec 48) (bs : List Byte) (s : State), s.mapsWf = true → let pa := a.toNat
    let b := pa / 256
    (bs = [] ∨ lpddrEnd ≤ pa ∨ 256 < pa % 256 + bs.length ∨ b ∈ s.ctl.lines → exec (.partialWriteMerge a bs) s = .next s) ∧
    (bs ≠ [] → pa < lpddrEnd → pa % 256 + bs.length ≤ 256 → b ∉ s.ctl.lines → let meets := s.badUnit b = true ∧ bs.length < 256
      ∃ t, exec (.partialWriteMerge a bs) s = .next t ∧
      (∀ (i : Nat) (x : Byte), bs[i]? = some x → readByte t.mem (pa + i) = x) ∧ SameOutside pa bs.length s t ∧
      BlocksTaken (· = b) s t ∧
      (meets → s.hart.run ≠ .vacant → t.hart = { s.hart with pendMchk := s.hart.pendMchk ++ [(1, 0)] }) ∧
      (¬ meets → t.hart = s.hart ∧ t.others = s.others ∧ t.messages = s.messages) ∧
      (∀ n : Nat, n ∈ t.ctl.bad ↔ (n ∈ s.ctl.bad ∨ n = b ∧ meets) ∧ ¬ (n = b ∧ bs.length = 256)) ∧
      t = { s with
        mem := t.mem, hart := t.hart, others := t.others, messages := t.messages
        ctl := { s.ctl with blockMeta := t.ctl.blockMeta, sectors := t.ctl.sectors, bad := t.ctl.bad } })) ∧
  ∀ (blk : BitVec 40) (s : State), s.mapsWf = true → let b := blk.toNat
    (b ∉ s.ctl.dirty → exec (.l2Writeback blk) s = .next s) ∧
    (b ∈ s.ctl.dirty → ∃ t, exec (.l2Writeback blk) s = .next t ∧
      (∀ n : Nat, n ∈ t.ctl.dirty ↔ n ∈ s.ctl.dirty ∧ n ≠ b) ∧
      (∀ n : Nat, mapGet 0 t.ctl.blockMeta n =
        if n = b then encodeEntry (s.blockCompressed b) (readBytes s.mem (256 * b) 256) else mapGet 0 s.ctl.blockMeta n) ∧
      (∀ n : Nat, mapGet [] t.ctl.sectors n =
        if n = b then encodeSectors (s.blockCompressed b) (readBytes s.mem (256 * b) 256) else mapGet [] s.ctl.sectors n) ∧
      t = { s with ctl := { s.ctl with dirty := t.ctl.dirty, blockMeta := t.ctl.blockMeta, sectors := t.ctl.sectors } })

/-- The statement that joins `FaultMessageRouting`, `CountedEvents`, `UncorrectableErrors` and `ControllerWrites`. It
rests on choices or readings of the model: log entries 26 and 32. -/
def Obligations.MessagesCountsAndErrors : Prop :=
  Spec.FaultMessageRouting ∧ Spec.CountedEvents ∧ Spec.UncorrectableErrors ∧ Spec.ControllerWrites

/-- WORLD_SET sets the world of an idle block and of no other; a block that leaves the secure world has all its memory
zeroed first, with the watch bits that lie in it, and memory outside it stays. A block that is not idle keeps its
world (R395). -/
def Sys2Proof.Spec.BlockWorlds : Prop :=
  ∀ (b : Block) (w : Bool) (s : State), s.mapsWf = true →
    (blockIdle s b = false → exec (.worldSet b w) s = .next s) ∧
    (blockIdle s b = true → ∃ t, exec (.worldSet b w) s = .next t ∧ blockSecure t b = w ∧
      (∀ x : Block, x ≠ b → blockSecure t x = blockSecure s x) ∧
      (blockSecure s b = false ∨ w = true → t.mem = s.mem ∧ t.acc = s.acc ∧ t.slots = s.slots ∧ t.cells = s.cells ∧ t.ctl = s.ctl) ∧
      (blockSecure s b = true → w = false →
        (∀ loc : Nat, OfBlock b loc → readByte t.mem loc = 0) ∧
        (∀ loc : Nat, ¬ OfBlock b loc → readByte t.mem loc = readByte s.mem loc) ∧
        (∀ g : Nat, g ∈ t.ctl.watch ↔ g ∈ s.ctl.watch ∧ ¬ OfBlock b (32 * g)) ∧
        (∀ n : Fin 512, b = .core n → ∀ (tile row x : Nat), tile < 4 → row < 64 → x < 1024 →
          readByte t.acc (accLoc n.val tile row x) = 0) ∧
        ∀ n : Fin 64, b = .array n → ∀ c l : Nat, c < 1024 → l < 1024 → t.cell n.val c l = 0) ∧
      t.hart = s.hart ∧ t.others = s.others ∧ t.host = s.host ∧ t.helm = s.helm)

/-- The thermal cutoff takes the power of the compute dies: no hart, engine command, core or cluster state is left,
the semaphore is free, no access from outside waits, and LPDDR6, peers' memory and SPI NOR keep their contents (R386,
R400). -/
def Sys2Proof.Spec.ThermalCutoff : Prop :=
  ∀ s : State, ∃ t, exec .thermalCutoff s = .next t ∧ t.cutOff = true ∧ t.hart = Hart.reset ∧ t.others = [] ∧ t.acc = [] ∧
    t.slots = [] ∧ t.cells = [] ∧ t.cores = [] ∧ t.clusters = [] ∧ t.running = [] ∧ t.slotRecs = [] ∧ t.owned = [] ∧
    t.helm.gangs = [] ∧ t.helm.claims = [] ∧ t.recalled = [] ∧ t.loose = false ∧ t.host.semHeld = false ∧ t.nor = s.nor ∧
    (∀ g : Nat, g ∈ t.ctl.watch ↔ g ∈ s.ctl.watch ∧ (32 * g < 2 ^ 52 ∨ 2 ^ 60 ≤ 32 * g)) ∧
    ∀ loc : Nat, readByte t.mem loc = if loc < 2 ^ 52 ∨ 2 ^ 60 ≤ loc then readByte s.mem loc else 0

/-- The statement that joins `BlockWorlds` and `ThermalCutoff`. It rests on choices or readings of the model: log
entries 32 and 33. -/
def Obligations.WorldsAndCutoff : Prop :=
  Spec.BlockWorlds ∧ Spec.ThermalCutoff

/-- A register written from outside an instruction keeps its access rules: a control register stores what its fields
allow and no other changes; QSn keeps bit 62 clear, and VTYPE in S also writes the trap copy; VL and VTYPE wait for
the vector unit. GMBLIM takes LIMIT between 20 and 400 unless it is locked, and LOCK stays set. MBREQ joins at most 64
pending requests and counts the others in DROP; a hart's is a release of its earlier scalar accesses, a port's stays
behind its accesses that wait, and after the cutoff never arrives (R7, R21, R23, R51, R289, R343, R387, R388, R400).
-/
def Sys2Proof.Spec.NamedRegisterWrites : Prop :=
  (∀ (cr : BitVec 12) (x old : Word) (s : State), cr ≠ 0x022 → crRead s cr.toNat = some old →
    (cr = 0 → s.hart.csr.stripEn = false) → ∃ t, exec (.registerWrite (.cr cr) x) s = .next t ∧
      crRead t cr.toNat = some (crStored s cr.toNat old x) ∧ (∀ m : Nat, m ≠ cr.toNat → crRead t m = crRead s m) ∧
      t = { s with hart := t.hart, fresh := t.fresh } ∧ t.hart.g = s.hart.g ∧ t.hart.pc = s.hart.pc ∧ t.hart.v = s.hart.v) ∧
  (∀ (n : Fin 4) (x : Word) (s : State), ∃ t, exec (.qsRebind n x) s = .next t ∧
    t.hart.csr.qs[n.val] = x &&& 0xBFFFFFFFFFFFFFFF ∧
    (∀ m : Fin 4, m ≠ n → t.hart.csr.qs[m.val] = s.hart.csr.qs[m.val]) ∧
    t = { s with hart := { s.hart with csr := { s.hart.csr with qs := t.hart.csr.qs } } }) ∧
  (∀ (x : Word) (s : State), ∀ row ∈ [((.vlWrite x : Instr), 0), (.vtypeWrite x, 1)],
    (s.hart.viqReady = true → exec row.1 s = .next (drainWait s)) ∧
    (s.hart.viqReady = false → s.hart.csr.stripEn = false → ∃ (t : State) (old : Word), exec row.1 s = .next t ∧
      crRead s row.2 = some old ∧ crRead t row.2 = some (crStored s row.2 old x) ∧
      (∀ m : Nat, m ≠ row.2 → crRead t m = crRead s.landOwn m) ∧ t = { s.landOwn with hart := t.hart } ∧
      t.hart.g = s.landOwn.hart.g ∧ t.hart.pc = s.landOwn.hart.pc ∧ t.hart.v = s.landOwn.hart.v ∧ t.hart.filling = [] ∧
      t.hart.trapVtype = (if row.2 = 1 ∧ s.hart.csr.status.priv then x.setWidth 9 else s.landOwn.hart.trapVtype))) ∧
  (∀ (x : Word) (s : State), ∃ t, exec (.gmblimWrite x) s = .next t ∧
    t.helm.limit.toNat = (if s.helm.lock then s.helm.limit.toNat else max 20 (min 400 (x.toNat % 512))) ∧
    t.helm.lock = (s.helm.lock || x.getLsbD 31) ∧
    t = { s with helm := { s.helm with limit := t.helm.limit, lock := t.helm.lock } }) ∧
  ∀ (addr : Word) (s : State),
    let joined (src : Requester) (u : State) : State :=
      if 64 ≤ u.host.requests.length then { u with host := { u.host with drop := u.host.drop + 1 } }
      else { u with host := { u.host with
        requests := u.host.requests ++ [{ src := src, addr := addr &&& 0xFFFFFFFFFFC0, result := none }] } }
    exec (.mbreq .management addr) s = .next (joined .management s) ∧
    (∀ p : Fin 2, (s.cutOff = true → exec (.mbreq (.port p) addr) s = .next s) ∧
      (s.cutOff = false → PortFree s p → exec (.mbreq (.port p) addr) s = .next (joined (.port p) s)) ∧
      (s.cutOff = false → ¬ PortFree s p →
        exec (.mbreq (.port p) addr) s = .next (waiting s (.host p (barWrite 0x40 addr))))) ∧
    ∀ (id : BitVec 12) (w : Bool),
      ((∀ h ∈ s.hart :: s.others, h.run = .vacant ∨ h.csr.hartid ≠ id) →
        exec (.mbreq (.hart id w) addr) s = .next (joined (.hart id w) s)) ∧
      ((∃ h ∈ s.hart :: s.others, h.run ≠ .vacant ∧ h.csr.hartid = id) →
        exec (.mbreq (.hart id w) addr) s = .next (joined (.hart id w) (s.visit id State.releaseScalar))) ∧
      (s.hart.run ≠ .vacant → s.hart.csr.hartid = id → s.hart.pend = [] → s.hart.late = [] →
        exec (.mbreq (.hart id w) addr) s = .next (joined (.hart id w) s))

/-- Registers of the engine and control window: LD in S returns one and SD writes it as a hart may, the host's writes
reach its own registers until the cutoff, each behind the port's accesses that wait, and the management cluster writes
every register of the window; in U an access traps, and REGISTER_WRITE of one changes nothing. MBSTAT.PEND, which
counts the pending requests, keeps its count (the model's choice, log entry 3). A write that takes a link down takes
with it what the link carried (R307, R343, R384 to R386, R388, R390, R396). -/
def Sys2Proof.Spec.WindowRegisters : Prop :=
  (∀ (o : MOp) (s : State) (off : Nat), s.getG o.a + o.off.signExtend 64 = BitVec.ofNat 64 (0xFFF8000000000 + off) →
    isControlReg off = true → off < 2 ^ 16 →
    (s.hart.csr.status.priv = true →
      (∃ t, exec (.ld o) s = .next t ∧ Writes 4 o.d (controlRead s off) s t) ∧
      (s.hart.run ≠ .vacant → s.hart.pend = [] → s.hart.late = [] → ∃ t u, exec (.sd o) s = .next t ∧ exec (.registerWrite (.window (BitVec.ofNat 16 off)) (s.getG o.d)) s = .next u ∧
        t = { u with hart := { u.hart with pc := s.hart.pc + 4 } })) ∧
    (s.hart.csr.status.priv = false → HasHandler s → ∀ i : Instr, i = .ld o ∨ i = .sd o → ∃ t, exec i s = .next t ∧
      Traps { code := 0x03, cls := .scalar, tval := BitVec.ofNat 64 (0xFFF8000000000 + off), taux := 0 } s.hart.pc s t)) ∧
  (∀ (x : Word) (off : BitVec 16) (s : State), s.hart.run = .vacant ∨ s.hart.csr.status.priv = false →
    exec (.registerWrite (.window off) x) s = .next s) ∧
  (∀ (x : Word) (s : State), s.hart.run ≠ .vacant → s.hart.csr.status.priv = true →
    exec (.registerWrite (.window 0) x) s = .next { s with helm := { s.helm with root := x &&& 0xFFFFFFFFFF01 } } ∧
    exec (.registerWrite (.window 8) x) s = exec (.gmblimWrite x) s ∧
    exec (.registerWrite (.window 0x40) x) s = exec (.mbreq (.hart s.hart.csr.hartid s.hart.csr.status.world) x) s ∧
    ∀ off : BitVec 16, off ≠ 0 → off ≠ 8 → off ≠ 0x40 → exec (.registerWrite (.window off) x) s = .next s) ∧
  (∀ (p : Fin 2) (off : BitVec 12) (x : Word) (s : State), s.cutOff = true →
    exec (.registerWrite (.host p off) x) s = .next s) ∧
  (∀ (p : Fin 2) (x : Word) (s : State), s.cutOff = false →
    (PortFree s p → exec (.registerWrite (.host p 0) x) s = (if x.getLsbD 63 then .next s else exec (.semRelease p) s) ∧
      exec (.registerWrite (.host p 0x10) x) s = .next (if s.host.semHeld = true ∧ s.host.semOwner = (p == 1) then
        { s with host := { s.host with pushlen := x.setWidth 25 } } else s)) ∧
    (¬ PortFree s p → ∀ off : BitVec 12,
      exec (.registerWrite (.host p off) x) s = .next (waiting s (.host p (barWrite off.toNat x)))) ∧
    exec (.registerWrite (.host p 0x18) x) s = exec (.pushgo p x) s ∧
    exec (.registerWrite (.host p 0x40) x) s = exec (.mbreq (.port p) x) s) ∧
  ∀ (x : Word) (s : State),
    exec (.registerWrite (.management 0) x) s = .next { s with helm := { s.helm with root := x &&& 0xFFFFFFFFFF01 } } ∧
    exec (.registerWrite (.management 8) x) s = exec (.gmblimWrite x) s ∧
    exec (.registerWrite (.management 0x18) x) s = .next { s with helm := { s.helm with rampdefer := x } } ∧
    exec (.registerWrite (.management 0x20) x) s = .next { s with helm := { s.helm with rampvcnt := x } } ∧
    exec (.registerWrite (.management 0x80) x) s = .next { s with host := { s.host with domtab := x &&& 0xFFFFFFFFF000 } } ∧
    (∃ t, exec (.registerWrite (.management 0x10) x) s = .next t ∧
      t = { s with helm := { s.helm with power := x.setWidth 16, rise := t.helm.rise } } ∧
      (s.mapsWf = true → ∀ k : Nat, mapGet 0 t.helm.rise k =
        if k = s.slotNow then 8 * (x.toNat / 2 ^ 16 % 2 ^ 16) else mapGet 0 s.helm.rise k)) ∧
    exec (.registerWrite (.management 0x40) x) s = exec (.mbreq .management x) s ∧
    exec (.registerWrite (.management 0x48) x) s = .next
      { s with host := { s.host with drop := BitVec.ofNat 16 (x.toNat / 2 ^ 16) } } ∧
    (∀ l : Fin 24, let k := s.link l
      let write : Instr := .registerWrite (.management (BitVec.ofNat 16 (0x2000 + 8 * l.val))) x
      let stored : Link := { up := x.getLsbD 63, secure := x.getLsbD 63 && x.getLsbD 62, retry := BitVec.ofNat 16 (x.toNat / 2 ^ 16)
                             peerid := x.setWidth 16, fails := if k.up = x.getLsbD 63 then k.fails else 0 }
      (k.up = false ∨ x.getLsbD 63 = true → exec write s = .next { s with links := s.links.set l.val stored l.isLt }) ∧
      (k.up = true → x.getLsbD 63 = false → ∃ t u : State, exec write s = .next t ∧ t.link l = stored ∧
        exec (.linkDown l) { s with links := s.links.set l.val { k with fails := 16 } l.isLt } = .next u ∧
        t = { u with links := t.links })) ∧
    ∀ n : Fin 256, ∃ t u,
      exec (.registerWrite (.management (BitVec.ofNat 16 (0x1000 + 16 * n.val))) x) s = .next t ∧
      exec (.registerWrite (.management (BitVec.ofNat 16 (0x1000 + 16 * n.val + 8))) x) s = .next u ∧
      (mapWf (0, 0) s.wrg = true →
        mapGet (0, 0) t.wrg n.val = (x &&& 0xFFFFFFFF0003, (mapGet (0, 0) s.wrg n.val).2) ∧
        mapGet (0, 0) u.wrg n.val = ((mapGet (0, 0) s.wrg n.val).1, x &&& 0xFFFFFFFF0000) ∧
        ∀ m : Nat, m ≠ n.val → mapGet (0, 0) t.wrg m = mapGet (0, 0) s.wrg m ∧ mapGet (0, 0) u.wrg m = mapGet (0, 0) s.wrg m)

/-- The statement that joins `NamedRegisterWrites` and `WindowRegisters`. It rests on choices or readings of the
model: log entries 3, 5 and 50. -/
def Obligations.RegisterWrites : Prop :=
  Spec.NamedRegisterWrites ∧ Spec.WindowRegisters

/-- ENGINE_COMMAND_START takes up the first command of a free engine that can start, those before it staying back: a
malformed one enters faulted with code 1, any other started, owning its destination's lines from then on, and V is
cleared in its slot; a chain whose descriptor cannot be read enters its first command faulted. With none that can
start nothing happens (R244, R247, R248, R249, R310, R311; which of several chains goes first is log entry 58). -/
def Sys2Proof.Spec.EngineCommandStart : Prop :=
  ∀ (e : Fin 68) (s : State), let i : Instr := .engineCommandStart e
    (s.engineBusy e = true ∨ (∀ r ∈ s.slotRecs, r.engine = e → StaysBack s r) → exec i s = .next s) ∧
    ∀ (before after : List SlotRec) (r : SlotRec), s.engineBusy e = false →
      s.slotRecs.filter (·.engine == e) = before ++ r :: after → (∀ q ∈ before, StaysBack s q) →
      (∀ (f : MemFault) (u : State), readChain s r = .fault f u → s.isFirst r = true → exec i s = .next { u with
        running := u.running ++ [{ slot := r, dw := Vector.replicate 8 0, phase := .faulted f.cause.engineCode f.addr }] }) ∧
      ∀ (v : ChainView) (c : EngCmd) (ts : List Target), readChain s r = .ok (s, v) → s.isNext r v = true →
        ReadsCommand s r v c → (c.word 0).getLsbD 15 = true → SlotReached s c v ts →
        let enters (p : Phase) (t : State) : Prop := t.running = s.running ++ [{ c with phase := p }] ∧ VCleared s t c ts
        (c.malformed = true → ∃ t, exec i s = .next t ∧ enters (.faulted 1 0) t ∧ t.owned = s.owned) ∧
        (c.malformed = false → c.isEnqVoid = true → 64 ≤ e.val → ∃ t, exec i s = .next t ∧ enters .performed t ∧
          t.owned = s.owned) ∧
        ∀ rows : List (List Target), c.malformed = false → ¬ (c.isEnqVoid = true ∧ 64 ≤ e.val) → Triggered s c True →
          c.dest s = .ok (s, rows) → rows.any (s.ownedElsewhere e) = false →
          ∃ t, exec i s = .next t ∧ enters .started t ∧ s.owned <+: t.owned ∧ OwnsRows t e rows

/-- The oldest performed command of a chain completes: with AV its ARRADD is added to the counter at ARR, then DONE
receives its sequence number with release, and the command and its record are gone; without such a command nothing
happens (R244, R247). -/
def Sys2Proof.Spec.EngineCompletion : Prop :=
  ∀ (e : Fin 68) (s : State),
    (s.performedCmd e = none → exec (.engineCommandComplete e) s = .next s) ∧
    ∀ (c : EngCmd) (ts : List Target), s.performedCmd e = some c → AllMemory ts → s.memoriesWf = true →
      s.ownedElsewhere c.slot.engine ts = false →
      let gone (t : State) : Prop := t.running = s.running.filter (fun d => d.slot != c.slot) ∧
        t.slotRecs = s.slotRecs.filter (fun r => r != c.slot) ∧ Stored t ts (c.slot.seq % 2 ^ 48) ∧
        ∀ loc : Nat, ts.head? = some (.mem loc) → s.hart.monitor = some (loc / 64) → t.hart.monitorHit = true
      ((c.word 0).getLsbD 13 = false → EngineReaches (fun x => x ∈ ts) s c .store c.slot.chain 8 ts →
        ∃ t, exec (.engineCommandComplete e) s = .next t ∧ gone t ∧ SameOffTargets ts s t) ∧
      ∀ ta : List Target, (c.word 0).getLsbD 13 = true → AllMemory ta → Sound s ta → s.ownedElsewhere c.slot.engine ta = false →
        (∀ x ∈ ta, x ∉ ts) →
        EngineReaches (fun x => x ∈ ts ∨ x ∈ ta) s c .store c.slot.chain 8 ts →
        EngineReaches (fun x => x ∈ ts ∨ x ∈ ta) s c .rmw (c.addr 7) 8 ta →
        ∃ t, exec (.engineCommandComplete e) s = .next t ∧ gone t ∧ SameOffTargets (ts ++ ta) s t ∧
          Stored t ta ((numberAt s c.slot.agent ta + (c.word 0).toNat / 2 ^ 16 % 2 ^ 16) % 2 ^ 64)

/-- A faulted command that is the oldest of its chain reports: DONE receives the error form with its code and number,
HALT is set, the chain's domain gets a message of kind 3, the engine gives up its lines, and the chain stands until
HALT is written 0. CHAIN_RESUME then reads the first halted command whose chain may go on again from its slot, clears
V there and runs it (R248, R249, R311, R314). -/
def Sys2Proof.Spec.EngineFaults : Prop :=
  ∀ (e : Fin 68) (s : State),
    (s.faultedCmd e = none → exec (.engineCommandFault e) s = .next s) ∧
    (∀ (c : EngCmd) (code : Nat) (addr : Word) (ts th : List Target), s.faultedCmd e = some c → c.phase = .faulted code addr →
      code ≠ 4 → AllMemory ts → AllMemory th → Sound s ts → Sound s th → (∀ x ∈ th, x ∉ ts) → s.memoriesWf = true →
      s.ownedElsewhere c.slot.engine (ts ++ th) = false →
      EngineReaches (fun x => x ∈ ts ∨ x ∈ th) s c .store c.slot.chain 8 ts →
      EngineReaches (fun x => x ∈ ts ∨ x ∈ th) s c .rmw (c.slot.chain + 0x18) 8 th →
      let x := numberAt s c.slot.agent th
      ∃ t, exec (.engineCommandFault e) s = .next t ∧ Stored t ts (2 ^ 63 + code * 2 ^ 48 + c.slot.seq % 2 ^ 48) ∧
        Stored t th (if x.testBit 24 then x else x + 2 ^ 24) ∧ SameOffTargets (ts ++ th) s t ∧
        t.running = s.running.map (fun d => if d.slot = c.slot then { d with phase := .halted } else d) ∧
        t.owned = s.owned.filter (fun o => o.engine != some c.slot.engine) ∧
        t.messages = s.messages ++ [⟨c.slot.domain, 3, BitVec.ofNat 8 code, BitVec.ofNat 32 (2 ^ 31 + e.val), c.slot.chain,
          addr, s.time⟩]) ∧
    let stands (d : EngCmd) : Prop := (∀ u v, readChain s d.slot ≠ .ok (u, v)) ∨
      ∃ v : ChainView, readChain s d.slot = .ok (s, v) ∧ v.halt = true
    (s.engineBusy e = true ∨ (∀ c ∈ s.running, c.slot.engine = e → c.phase = .halted → stands c) →
      exec (.chainResume e) s = .next s) ∧
    ∀ (before after : List EngCmd) (c again : EngCmd) (v : ChainView) (ts : List Target), s.engineBusy e = false →
      s.running = before ++ c :: after → (∀ d ∈ before, d.slot.engine = e → d.phase = .halted → stands d) →
      c.slot.engine = e → c.phase = .halted → readChain s c.slot = .ok (s, v) → v.halt = false →
      ReadsCommand s c.slot v again → SlotReached s again v ts →
      let becomes (p : Phase) (t : State) : Prop :=
        t.running = s.running.map (fun x => if x.slot = c.slot then { again with phase := p } else x) ∧ VCleared s t again ts
      (again.malformed = true → ∃ t, exec (.chainResume e) s = .next t ∧ becomes (.faulted 1 0) t) ∧
      ∀ rows : List (List Target), again.malformed = false → ¬ (again.isEnqVoid = true ∧ 64 ≤ e.val) → Triggered s again True →
        again.dest s = .ok (s, rows) → rows.any (s.ownedElsewhere e) = false →
        ∃ t, exec (.chainResume e) s = .next t ∧ becomes .started t ∧ s.owned <+: t.owned ∧ OwnsRows t e rows

/-- The statement that joins `EngineCommandStart`, `EngineCompletion` and `EngineFaults`. It rests on choices or
readings of the model: log entries 24, 25, 37, 45, 58 and 59. -/
def Obligations.EngineCommands : Prop :=
  Spec.EngineCommandStart ∧ Spec.EngineCompletion ∧ Spec.EngineFaults

/-- COPY, COPY2D, COPYD and ROWGATHER move each byte of each source row to its place in the destination row; FILL
repeats its pattern of 8 bytes; VOID moves nothing. No other byte changes, the blocks written are encoded afresh, and
the command is performed, its lines no longer owned. An engine with no such started command does nothing (R250, R278,
R279, R311, R312). -/
def Sys2Proof.Spec.EngineCopyResults : Prop :=
  (∀ row ∈ copyTable, ∀ (e : Fin 64) (s : State),
    (s.startedOp e.val row.2 = none → exec (row.1 e) s = .next s) ∧
    ∀ (c : EngCmd) (dst src idx : Nat → List Target), s.startedOp e.val row.2 = some c → c.ds = false →
      DestReached s c dst → SourceReached s c dst src idx → ∃ t, exec (row.1 e) s = .next t ∧ Performed s c dst t ∧
        (∀ (r i loc : Nat) (x : Target), r < c.rows → (src r)[i]? = some x → (dst r)[i]? = some (.mem loc) →
          readByte t.mem loc = targetByte s c.slot.agent x) ∧
        ∀ loc : Nat, ¬ written c dst (.mem loc) → readByte t.mem loc = readByte s.mem loc) ∧
  (∀ (e : Fin 64) (s : State),
    (s.startedOp e.val 4 = none → exec (.engFill e) s = .next s) ∧
    ∀ (c : EngCmd) (dst : Nat → List Target), s.startedOp e.val 4 = some c → c.ds = false → DestReached s c dst →
      ∃ t, exec (.engFill e) s = .next t ∧ Performed s c dst t ∧
        (∀ r i loc : Nat, r < c.rows → (dst r)[i]? = some (.mem loc) →
          readByte t.mem loc = BitVec.ofNat 8 ((c.word 4).toNat / 256 ^ (i % 8))) ∧
        ∀ loc : Nat, ¬ written c dst (.mem loc) → readByte t.mem loc = readByte s.mem loc) ∧
  ∀ (e : Fin 64) (s : State),
    (s.startedOp e.val 0 = none → exec (.engVoid e) s = .next s) ∧
    ∀ c : EngCmd, s.startedOp e.val 0 = some c → ∃ t, exec (.engVoid e) s = .next t ∧ Performed s c (fun _ => []) t ∧ t.mem = s.mem ∧
      t.ctl = s.ctl

/-- A copy with DS delivers its source rows in order into the buffer of the stream register that it names, up to 4,096
bytes, and stalls with the rest; it waits while that buffer holds unread bytes of another command.
STREAM_BUFFER_RESUME delivers what fits once reads have freed room; memory stays as it is (R253). A hart that is not
placed, or of another region than the command's, receives nothing, which is the model's choice (log entries 37 and
45). -/
def Sys2Proof.Spec.StreamDeliveries : Prop :=
  (∀ row ∈ copyTable, ∀ (e : Fin 64) (s : State) (c : EngCmd) (src idx : Nat → List Target),
    s.startedOp e.val row.2 = some c → c.ds = true → s.memoriesWf = true → SourceReached s c (fun _ => []) src idx →
    ((∀ h : Hart, s.placedHart c.hartid = some h → h.region ≠ c.slot.region) →
      ∃ t, exec (row.1 e) s = .next t ∧ Performed s c (fun _ => []) t ∧ t.mem = s.mem) ∧
    ∀ h : Hart, s.placedHart c.hartid = some h → h.region = c.slot.region → (h.stream c.streamReg).of c = false →
      ((h.stream c.streamReg).live = true → (h.stream c.streamReg).data ≠ [] → exec (row.1 e) s = .next s) ∧
      ((h.stream c.streamReg).live = false ∨ (h.stream c.streamReg).data = [] →
        let bs := ((List.range c.rows).map fun r => (src r).map (targetByte s c.slot.agent)).flatten
        ∃ t, exec (row.1 e) s = .next t ∧ t.mem = s.mem ∧
          (t.placedHart c.hartid).map (·.stream c.streamReg) = some
            { live := true, ce := BitVec.ofNat 6 c.slot.engine.val, seq := BitVec.ofNat 32 c.slot.seq, pos := 0,
              total := c.byteCount, data := bs.take 4096 } ∧
          t.running = s.running.map fun d => if d.slot = c.slot then
            { d with phase := if bs.length ≤ 4096 then .performed else .stalled (bs.drop 4096) } else d)) ∧
  ∀ (e : Fin 64) (s : State),
    let stalled : EngCmd → Bool := fun c => c.slot.engine.val == e.val && match c.phase with
      | .stalled _ => true
      | _ => false
    (s.running.find? stalled = none → exec (.streamBufferResume e) s = .next s) ∧
    ∀ (c : EngCmd) (rest : List Byte), s.running.find? stalled = some c → c.phase = .stalled rest →
      let becomes (p : Phase) (t : State) : Prop := t.mem = s.mem ∧
        t.running = s.running.map fun d => if d.slot = c.slot then { d with phase := p } else d
      ((∀ h : Hart, s.placedHart c.hartid = some h → h.region ≠ c.slot.region) →
        ∃ t, exec (.streamBufferResume e) s = .next t ∧ becomes .performed t) ∧
      ∀ h : Hart, s.placedHart c.hartid = some h → h.region = c.slot.region → let b := h.stream c.streamReg
        (b.live = true → b.of c = false → b.data ≠ [] → ∃ t, exec (.streamBufferResume e) s = .next t ∧
          becomes (.stalled rest) t ∧ t.hart = s.hart ∧ t.others = s.others) ∧
        (b.of c = true → let room := 4096 - b.data.length
          ∃ t, exec (.streamBufferResume e) s = .next t ∧
            (t.placedHart c.hartid).map (·.stream c.streamReg) = some { b with data := b.data ++ rest.take room } ∧
            becomes (if rest.length ≤ room then .performed else .stalled (rest.drop room)) t)

/-- The statement that joins `EngineCopyResults` and `StreamDeliveries`. It rests on choices or readings of the model:
log entries 24, 37 and 45. -/
def Obligations.EngineCopies : Prop :=
  Spec.EngineCopyResults ∧ Spec.StreamDeliveries

/-- PGMODE gives its pages the attribute and encodes every block of those that change, with no byte changed; PGZERO
zeroes their bytes, metadata entries and lines of L2 and ends their watches and errors; HOTREAD writes their hotness
words with the count of recent moves; HOTCLEAR clears their counters; PGZERO and HOTCLEAR keep FROZEN. Without its
started command an engine does nothing (R274, R280, R282, R283). -/
def Sys2Proof.Spec.PageServiceResults : Prop :=
  (∀ row ∈ serviceTable, ∀ (d : Fin 4) (s : State), s.startedOp (64 + d.val) row.2 = none → exec (row.1 d) s = .next s) ∧
  ∀ (d : Fin 4) (s : State) (c : EngCmd) (fr : Nat → Nat), let n := c.pages
    let inPages (x : Target) : Prop := ∃ loc : Nat, x = .mem loc ∧ IsPage n fr (loc / 65536)
    let kept (f : Nat) : Word := mapGet 0 s.ctl.hotness f &&& 0x8000000000000
    (s.startedOp (64 + d.val) 16 = some c → PagesReached inPages s c n fr →
      (∀ b : Nat, IsPage n fr (b / 256) → s.badUnit b = false) →
      let want := (c.word 3).getLsbD 0
      let changes (f : Nat) : Prop := IsPage n fr f ∧ mapGet false s.ctl.compressed f ≠ want
      ∃ t, exec (.pgmode d) s = .next t ∧ Served s c t ∧ t.mem = s.mem ∧
        (∀ f : Nat, (IsPage n fr f → mapGet false t.ctl.compressed f = want) ∧
          (¬ IsPage n fr f → mapGet false t.ctl.compressed f = mapGet false s.ctl.compressed f)) ∧
        (∀ b : Nat,
          (changes (b / 256) → mapGet 0 t.ctl.blockMeta b = encodeEntry want (readBytes s.mem (256 * b) 256) ∧
            mapGet [] t.ctl.sectors b = encodeSectors want (readBytes s.mem (256 * b) 256)) ∧
          (¬ changes (b / 256) → mapGet 0 t.ctl.blockMeta b = mapGet 0 s.ctl.blockMeta b ∧
            mapGet [] t.ctl.sectors b = mapGet [] s.ctl.sectors b)) ∧
        t.ctl = { s.ctl with compressed := t.ctl.compressed, blockMeta := t.ctl.blockMeta, sectors := t.ctl.sectors }) ∧
    (s.startedOp (64 + d.val) 17 = some c → PagesReached inPages s c n fr → ∃ t, exec (.pgzero d) s = .next t ∧ Served s c t ∧
      (∀ loc : Nat, (IsPage n fr (loc / 65536) → readByte t.mem loc = 0) ∧
        (¬ IsPage n fr (loc / 65536) → readByte t.mem loc = readByte s.mem loc)) ∧
      (∀ g : Nat, g ∈ t.ctl.watch ↔ g ∈ s.ctl.watch ∧ ¬ IsPage n fr (g / 2048)) ∧
      (∀ b : Nat, (b ∈ t.ctl.bad ↔ b ∈ s.ctl.bad ∧ ¬ IsPage n fr (b / 256)) ∧
        (b ∈ t.ctl.lines ↔ b ∈ s.ctl.lines ∧ ¬ IsPage n fr (b / 256)) ∧
        (b ∈ t.ctl.dirty ↔ b ∈ s.ctl.dirty ∧ ¬ IsPage n fr (b / 256)) ∧
        (IsPage n fr (b / 256) → mapGet 0 t.ctl.blockMeta b = 0 ∧ mapGet [] t.ctl.sectors b = []) ∧
        (¬ IsPage n fr (b / 256) → mapGet 0 t.ctl.blockMeta b = mapGet 0 s.ctl.blockMeta b ∧
          mapGet [] t.ctl.sectors b = mapGet [] s.ctl.sectors b)) ∧
      ∀ f : Nat, (IsPage n fr f → mapGet 0 t.ctl.hotness f = kept f) ∧
        (¬ IsPage n fr f → mapGet 0 t.ctl.hotness f = mapGet 0 s.ctl.hotness f)) ∧
    (∀ ts : Nat → List Target, let touched (x : Target) : Prop := ∃ j : Nat, j < n ∧ x ∈ ts j
      s.startedOp (64 + d.val) 18 = some c → PagesReached touched s c n fr →
      (∀ j : Nat, j < n → AllMemory (ts j) ∧ Sound s (ts j) ∧ s.ownedElsewhere c.slot.engine (ts j) = false ∧
        EngineReaches touched s c .store (c.word 3 + BitVec.ofNat 64 (8 * j)) 8 (ts j)) →
      (∀ j j' : Nat, j < n → j' < n → j ≠ j' → ∀ x ∈ ts j, x ∉ ts j') →
      ∃ t, exec (.hotread d) s = .next t ∧ Served s c t ∧
        BlocksTaken (fun b => ∃ loc : Nat, touched (.mem loc) ∧ loc < lpddrEnd ∧ loc / 256 = b) s t ∧
        t.ctl = { s.ctl with blockMeta := t.ctl.blockMeta, sectors := t.ctl.sectors, dirty := t.ctl.dirty } ∧
        (∀ j : Nat, j < n → Stored t (ts j) (mapGet 0 s.ctl.hotness (fr j) ||| BitVec.ofNat 64
          (2 ^ 48 * ((mapGet [] s.ctl.moves (fr j)).filter fun x => s.time < x + 5600000).length)).toNat) ∧
        ∀ loc : Nat, ¬ touched (.mem loc) → readByte t.mem loc = readByte s.mem loc) ∧
    (s.startedOp (64 + d.val) 19 = some c → PagesReached inPages s c n fr → ∃ t, exec (.hotclear d) s = .next t ∧
      Served s c t ∧ t.mem = s.mem ∧ t.ctl = { s.ctl with hotness := t.ctl.hotness } ∧
      ∀ f : Nat, (IsPage n fr f → mapGet 0 t.ctl.hotness f = kept f) ∧
        (¬ IsPage n fr f → mapGet 0 t.ctl.hotness f = mapGet 0 s.ctl.hotness f))

/-- MIGRATE copies its page to the target frame with its watch bits and counters, and no other byte changes; the
blocks of a target in this module's LPDDR6 are encoded by its attribute. A page that has moved four times within 8 ms
stays, is FROZEN, and counts as MIGFREEZE (R274, R284). -/
def Sys2Proof.Spec.PageMigration : Prop :=
  ∀ (d : Fin 4) (s : State) (c : EngCmd) (src : Nat), let pa := (c.word 3 &&& 0xFFFFFFFF0000).toNat
    let dst := s.physLoc pa / 65536
    s.startedOp (64 + d.val) 20 = some c → s.mapsWf = true → serviceFrame c 0 s = .ok (s, src) → s.frameOwned src = false →
    physCheck s c.slot.secure pa = none →
    (pa < lpddrEnd → s.frameRefused c.slot.secure dst = false) →
    let recent := ((mapGet [] s.ctl.moves src).filter fun x => s.time < x + 5600000).length
    let done (t : State) : Prop := t.running = s.running.map fun x =>
      if x.slot = c.slot then { x with phase := .performed } else x
    (4 ≤ recent → ∃ t, exec (.migrate d) s = .next t ∧ done t ∧ t.mem = s.mem ∧ t.migfreeze = s.migfreeze + 1 ∧
      Counted 0x12 1 s.hart t.hart ∧ mapGet 0 t.ctl.hotness src = mapGet 0 s.ctl.hotness src ||| 0x8000000000000 ∧
      ∀ f : Nat, f ≠ src → mapGet 0 t.ctl.hotness f = mapGet 0 s.ctl.hotness f) ∧
    (recent < 4 → (∀ b : Nat, b / 256 = src → s.badUnit b = false) → s.frameOwned dst = false → ∃ t, exec (.migrate d) s = .next t ∧ done t ∧
      (∀ k : Nat, k < 65536 → readByte t.mem (65536 * dst + k) = readByte s.mem (65536 * src + k)) ∧
      (∀ loc : Nat, loc / 65536 ≠ dst → readByte t.mem loc = readByte s.mem loc) ∧
      (∀ k : Nat, k < 2048 → (2048 * dst + k ∈ t.ctl.watch ↔ 2048 * src + k ∈ s.ctl.watch)) ∧
      (∀ g : Nat, g / 2048 ≠ dst → (g ∈ t.ctl.watch ↔ g ∈ s.ctl.watch)) ∧
      (65536 * dst < lpddrEnd → ∀ b : Nat, b / 256 = dst →
        mapGet 0 t.ctl.blockMeta b = encodeEntry (s.blockCompressed b) (readBytes t.mem (256 * b) 256)) ∧
      (∀ b : Nat, b / 256 ≠ dst → mapGet 0 t.ctl.blockMeta b = mapGet 0 s.ctl.blockMeta b) ∧
      mapGet 0 t.ctl.hotness dst = mapGet 0 s.ctl.hotness src &&& ~~~0x8000000000000 ∧
      s.time ∈ mapGet [] t.ctl.moves dst ∧ t.hart = s.hart ∧ t.others = s.others)

/-- The statement that joins `PageServiceResults` and `PageMigration`. It rests on a choice or reading of the model:
log entry 25. -/
def Obligations.PageServices : Prop :=
  Spec.PageServiceResults ∧ Spec.PageMigration

/-- The Helm walks only when it is enabled, boot has finished and the dies have power, and once its earlier changes
are made (R311). A walk of an empty tree places nothing, and forgets the RCBs that it could not read (the model's
choice, log entry 53). A walk that finds one leaf whose next gang can be placed puts all its harts at ENTRY in one
cluster, each with its rank, its launch values and the next ramp slot, in which the gang's step is reserved (R324,
R326 to R328, R344). -/
def Sys2Proof.Spec.HelmWalks : Prop :=
  (∀ s : State, s.helm.root.getLsbD 0 = false ∨ s.host.bootState ≠ 3 ∨ s.cutOff = true → s.helm.todo = [] →
    exec .helmWalk s = .next s) ∧
  (∀ s : State, s.helmOn = true → s.helm.root &&& 0xFFFFFFFFFF00 = 0 → s.helm.todo = [] →
    exec .helmWalk s = .next { s with helm := { s.helm with
      seen := [], skipped := s.helm.skipped.filter fun p => !p.2.isEmpty } }) ∧
  ∀ (s : State) (leaf : Leaf) (a cl : Nat), Launchable s leaf a cl → s.mapsWf = true → ∃ (t : State) (g : Gang),
    exec .helmWalk s = .next t ∧ t.helm.gangs = [g] ∧ g.region = leaf.rcb ∧ g.record = a ∧ g.h = recH s a ∧
      mapGet 0 t.helm.rise (s.slotNow + 1) = mapGet 0 s.helm.rise (s.slotNow + 1) + recStep s a ∧
      ∀ k : Nat, k < recH s a → ∃ h ∈ t.hart :: t.others, h.gang = g.id ∧ JustPlaced s leaf a cl k h

/-- A parked hart whose work has settled leaves its front-end, its own waiting writes having performed and a step of
its cluster's array that it has in progress having ended: without pre-emption it retires, and with its last hart the
gang's budget returns, RETIRED rises and the Helm walks; with one pending it yields, and when every live hart has
yielded the gang is pre-empted and its budget returns. A gang whose pre-emption has lasted 1 ms is ended, with what
its harts have passed performed, and a message of kind 6. Nothing else happens (R321, R324, R329, R330, R332, R350).
-/
def Sys2Proof.Spec.HartsLeave : Prop :=
  let settledOut (s : State) : State := s.flushAll.landOwn.vacate [s.flushAll.hart.csr.hartid]
  let left (s : State) : State := match (settledOut s).others with
    | [] => { settledOut s with hart := Hart.reset }
    | h :: hs => { settledOut s with hart := h, others := hs }
  let without (s : State) (g : Gang) : State :=
    { s with helm := { s.helm with gangs := s.helm.gangs.filter fun x => x.id != g.id } }
  let given (g : Gang) : List HelmWrite := g.useWrites (.give g.step g.counted)
  (∀ s : State, let last (g : Gang) : Prop := ∀ h ∈ (settledOut s).others, h.gang = g.id → h.run = .vacant
    (s.hart.settled = false → exec .hartRetire s = .next s ∧ exec .hartYield s = .next s) ∧
    (s.hart.settled = true → s.gang? s.hart.gang = none → exec .hartRetire s = .next (left s) ∧ exec .hartYield s = .next s) ∧
    ∀ g : Gang, s.hart.settled = true → s.gang? s.hart.gang = some g →
      (g.preemptAt = none → exec .hartYield s = .next s ∧ (¬ last g → exec .hartRetire s = .next (left s)) ∧
        (last g → g.yielded = [] → exec .hartRetire s =
          .next ((without (left s) g).helmWrites (given g ++ [g.stateWrite .retired])).walk)) ∧
      (g.preemptAt ≠ none → exec .hartRetire s = .next s ∧
        let now : Gang := { g with yielded := g.yielded ++ [s.hart.csr.rank.toNat] }
        let put (u : State) (f : Gang → Gang) : State :=
          { u with helm := { u.helm with gangs := u.helm.gangs.map fun x => if x.id = g.id then f x else x } }
        let y : State := put s fun _ => now
        let lastNow : Prop := ∀ h ∈ (settledOut y).others, h.gang = g.id → h.run = .vacant
        (¬ lastNow → exec .hartYield s = .next (left y).walk) ∧
        (lastNow → exec .hartYield s = .next ((put (left y) fun x =>
          { x with preempted := true, preemptAt := none, places := [] }).helmWrites (given now ++ [g.stateWrite .preempted])).walk))) ∧
  (∀ x g : Nat, x < 2 ^ 64 → let y := (HelmChange.retired).apply x g
    y / 2 ^ 16 % 2 ^ 16 = (x / 2 ^ 16 % 2 ^ 16 + 1) % 2 ^ 16 ∧ y % 2 ^ 16 = x % 2 ^ 16 ∧ y / 2 ^ 32 % 2 ^ 31 = x / 2 ^ 32 % 2 ^ 31 ∧
      (y.testBit 63 = true ↔ x.testBit 63 = true ∨ (x / 2 ^ 16 % 2 ^ 16 + 1) % 2 ^ 16 = g)) ∧
  (∀ x step h g : Nat, x < 2 ^ 52 → step ≤ x / 2 ^ 32 → 1 ≤ x / 2 ^ 16 % 2 ^ 16 → h ≤ x % 2 ^ 16 →
    let y := (HelmChange.give step h).apply x g
    y / 2 ^ 32 = x / 2 ^ 32 - step ∧ y / 2 ^ 16 % 2 ^ 16 = x / 2 ^ 16 % 2 ^ 16 - 1 ∧ y % 2 ^ 16 = x % 2 ^ 16 - h ∧
      (HelmChange.take step h).apply y g = x) ∧
  ∀ s : State,
    ((∀ g ∈ s.helm.gangs, ∀ t : Nat, g.preemptAt = some t → s.time < t + 700000) → exec .preemptTimeout s = .next s) ∧
    ∀ g : Gang, s.helm.gangs.find? s.overdue = some g → s.gang? g.id = some g → g.preempted = false →
      let stop (h : Hart) : Hart := if h.gang = g.id then h.releaseHeld fun _ => true else h
      let s0 : State := ({ s with hart := stop s.hart, others := s.others.map stop }.flushHarts fun h => h.gang == g.id).vacate
        (s.gangIds g.id)
      let u : State := { s0 with
        hart := if s0.hart.gang = g.id then Hart.reset else s0.hart
        others := s0.others.filter fun h => h.gang != g.id }
      ∃ t, exec .preemptTimeout s = .next t ∧ let w := (without u g).helmWrites (given g ++ [g.stateWrite .retired])
        t = { w with messages := w.messages ++ [⟨g.domain, 6, 0, 0xFFFFFFFF, BitVec.ofNat 64 g.record, 0, s.time⟩] }

/-- The statement that joins `HelmWalks` and `HartsLeave`. It rests on choices or readings of the model: log entries
27 and 53. -/
def Obligations.HelmAndGangs : Prop :=
  Spec.HelmWalks ∧ Spec.HartsLeave

/-- An issue slot of a partition with one hart goes to an element group of what the hart has issued, and its credit
and wait settle (R336); while its cap is exhausted it gets none and THROTTLE counts; in a partition with nothing to
issue no hart keeps a credit or a wait, and a slot that the partition has used in this cycle is not used again (R335,
R345). REGISTER_FULL makes a register full when its producer has its last element to write, and only then (R26). -/
def Sys2Proof.Spec.IssueSlots : Prop :=
  (∀ s : State, s.slotFree = false → exec .elementGroupIssue s = .next s) ∧
  (∀ s : State, s.slotFree = true → (∀ h ∈ s.boundHarts, h.viqReady = false) →
    (s.hart.csr.status.cd = true → SoleInPartition s → s.hart.viq = [] → exec .elementGroupIssue s = .next s) ∧
    (s.hart.csr.status.cd = false → ∃ t, exec .elementGroupIssue s = .next t ∧
      t = { s with hart := t.hart, others := t.others } ∧ t.others.length = s.others.length ∧
      ∀ (i : Nat) (h h' : Hart), (s.hart :: s.others)[i]? = some h → (t.hart :: t.others)[i]? = some h' →
        h' = if h ∈ s.boundHarts then { h with credit := 0, waits := 0 } else h)) ∧
  (∀ s : State, SoleInPartition s → s.hart.csr.status.cd = false → 0 < s.hart.groups → s.hart.viq = [] →
    s.hart.used.getLsbD 0 = false → s.hart.idleTo ≤ s.time →
    (s.capped s.hart = false → exec .elementGroupIssue s = .next { s with hart := { s.hart with
      groups := s.hart.groups - 1, used := s.hart.used ||| 1, waits := 0
      credit := bounded (bounded (s.hart.credit + s.hart.share.toNat) - s.hart.share.toNat) } }) ∧
    (s.capped s.hart = true → ∃ t, exec .elementGroupIssue s = .next t ∧
      Counted 6 1 { s.hart with credit := 0, waits := 0 } t.hart ∧ t = { s with hart := t.hart })) ∧
  ∀ (isW : Bool) (n : Fin 32) (s : State), let r := if isW then 32 + n.val % 8 else n.val
    ((∀ x ∈ s.hart.filling, x.1 ≠ r) → exec (.registerFull isW n) s = .next s) ∧
    ((∃ x ∈ s.hart.filling, x.1 = r) → ∃ t, exec (.registerFull isW n) s = .next t ∧
      t.hart.filling = s.hart.filling.filter (fun x => x.1 != r) ∧
      (∀ k : Nat, k < 32 → t.hart.vfull.getLsbD k = (s.hart.vfull.getLsbD k || (!isW && k == n.val))) ∧
      (∀ k : Nat, k < 8 → t.hart.wfull.getLsbD k = (s.hart.wfull.getLsbD k || (isW && k == n.val % 8))) ∧
      t = { s with hart := { s.hart with vfull := t.hart.vfull, wfull := t.hart.wfull, filling := t.hart.filling } })

/-- Power above 2,600 W, or a rise of more than LIMIT within the last 700 cycles, a microsecond, lowers the cap of the
gangs of the lowest PRIO that can fall by one eighth, and so does a die that stands at 105 °C; otherwise the cap of
those of the highest PRIO below 8/8 rises by one. Caps move at most once in 175 cycles (R345, R400). -/
def Sys2Proof.Spec.IssueCaps : Prop :=
  ∀ (s : State),
    (∀ (hot : BitVec 4) (rest : List Turn), s.agenda = .heat hot :: rest → s.powered = true →
      step s = .next { s with agenda := rest, hotDies := hot }) ∧
    (∃ t, exec .thermalThrottle s = .next t ∧ (s.hotDies = 0 → t = s) ∧
      (s.hotDies ≠ 0 → CapsOnTime true s.helm s t)) ∧
    ∀ pwr : BitVec 16, let recent := s.helm.powers.filter fun p => decide (s.time ≤ p.1 + 700)
      let above : Prop := 2600 < pwr.toNat ∨ (∃ p ∈ recent, p.2.toNat + s.helm.limit.toNat < pwr.toNat) ∨ s.hotDies ≠ 0
      let read : HelmSt := { s.helm with power := pwr, powers := (s.time, pwr) :: recent }
      ∃ t, exec (.gimbalCapStep pwr) s = .next t ∧ (above → CapsOnTime true read s t) ∧ (¬ above → CapsOnTime false read s t)

/-- The start of a ramp slot starts every hart that waits for that slot or an earlier one, and the Helm walks; with
the present slot already begun, time goes on to the next when no vector unit has anything to issue. A taper step
lowers each due ballast by one eighth, on time, and counts its slots in BALLASTCYC of the core and, of the hart placed
there whose ballast it is, in its open strip and, for ballast in the lanes, in BALLAST. A release cap rises by one
eighth 175 cycles after its last rise when the slot has room for the rise (R326, R344, R346 to R348). -/
def Sys2Proof.Spec.RampAndTaper : Prop :=
  (∀ s : State, s.slotNow = s.helm.slot → (∃ h ∈ s.hart :: s.others, h.viqReady = true) → exec .rampSlotStart s = .next s) ∧
  (∀ s : State, s.slotNow ≠ s.helm.slot ∨ (∀ h ∈ s.hart :: s.others, h.viqReady = false) →
    let k := if s.slotNow = s.helm.slot then s.slotNow + 1 else s.slotNow
    ∃ u : State, exec .rampSlotStart s = .next u.walk ∧ u.helm.slot = k ∧
      u.time = (if s.slotNow = s.helm.slot then k * 1400 else s.time) ∧ u.hart.run = startedBy k s.hart.run ∧
      u.hart.pc = s.hart.pc ∧ u.hart.g = s.hart.g ∧ u.others.length = s.others.length ∧ u.mem = s.mem ∧
      ∀ (i : Nat) (h h' : Hart), s.others[i]? = some h → u.others[i]? = some h' → h'.run = startedBy k h.run ∧ h'.g = h.g) ∧
  (∀ s : State, s.mapsWf = true → ∃ t, exec .ballastTaperStep s = .next t ∧
    ((∀ n : Nat, ∀ b ∈ (s.coreSt n).ballast, ¬ TaperDue s b) → t = s) ∧
    (∀ n : Nat, (t.coreSt n).ballast.length = (s.coreSt n).ballast.length ∧
      ∀ (i : Nat) (b b' : Ballast), (s.coreSt n).ballast[i]? = some b → (t.coreSt n).ballast[i]? = some b' →
        (TaperDue s b → b' = { b with
          duty := b.duty - 1, stepAt := b.stepAt + 1400 / max 1 b.duty0, counted := nextSlots s b }) ∧
        (¬ TaperDue s b → b' = b)) ∧
    (∀ n : Nat, (t.coreSt n).ballastcyc =
      (s.coreSt n).ballastcyc + BitVec.ofNat 64 (((s.coreSt n).ballast.map (taperCount s)).sum)) ∧
    ((∀ n : Nat, ∀ b ∈ (s.coreSt n).ballast, n < 512 ∧ b.slot < 8) → t.others.length = s.others.length ∧ (∀ (i : Nat) (h h' : Hart), (s.hart :: s.others)[i]? = some h →
      (t.hart :: t.others)[i]? = some h' → h.run ≠ .vacant →
      let own := (s.coreSt (coreOf h.csr.hartid)).ballast.filter fun b => b.live && b.slot == h.csr.hartid.toNat % 8
      let lanes := own.filter fun b => !b.ste
      h'.openStrip = h.openStrip.map (fun o => { o with ballast := o.ballast + (own.map (taperCount s)).sum }) ∧
      h' = { h with openStrip := h'.openStrip, csr := { h.csr with evcnt := h'.csr.evcnt } } ∧
        ∀ (k : Nat) (hk : k < 4), h'.csr.evcnt[k] = if (h.csr.evsel[k]).toNat = 5 then
          h.csr.evcnt[k] + BitVec.ofNat 64 ((lanes.map (taperCount s)).sum) else h.csr.evcnt[k])) ∧
    t = { s with cores := t.cores, hart := t.hart, others := t.others }) ∧
  ∀ s : State, let used := mapGet 0 s.helm.rise s.slotNow
    let x := (s.hartPart s.hart + 7) / 8
    let may : Prop := s.hart.run ≠ .vacant ∧ s.hart.relCap < 8 ∧ s.hart.relAt + 175 ≤ s.time ∧ used + x ≤ 16 * s.helm.limit.toNat
    (¬ may → exec .releaseCapStep s = .next s) ∧
    (may → (∀ h ∈ s.others, h.run = .vacant ∨ h.csr.hartid ≠ s.hart.csr.hartid) → ∃ t, exec .releaseCapStep s = .next t ∧
      t = { s with
        hart := { s.hart with relCap := s.hart.relCap + 1, relAt := s.time }
        helm := { s.helm with rise := t.helm.rise } } ∧
      (s.mapsWf = true → mapGet 0 t.helm.rise s.slotNow = used + x))

/-- The statement that joins `IssueSlots`, `IssueCaps` and `RampAndTaper`. It rests on choices or readings of the
model: log entries 22, 23 and 33. -/
def Obligations.IssueAndPower : Prop :=
  Spec.IssueSlots ∧ Spec.IssueCaps ∧ Spec.RampAndTaper

/-- SAMPLE_TAG makes the next fetched instruction the tagged one while sampling is enabled, and does nothing
otherwise. SAMPLE_RECORD writes the record of the oldest tagged instruction that has ended behind the buffer's header,
in the slot that COUNT gives, and then COUNT + 1; with sampling disabled the record is dropped (R376 to R378). -/
def Sys2Proof.Spec.SampleRecords : Prop :=
  ∀ s : State,
    exec .sampleTag s = .next (if s.hart.csr.sampctl.getLsbD 0 = true then
      { s with hart := { s.hart with tagNext := true } } else s) ∧
    (s.hart.tagDone = [] → exec .sampleRecord s = .next s) ∧
    ∀ (g : Tag) (rest : List Tag), s.hart.tagDone = g :: rest →
      (s.hart.csr.sampctl.getLsbD 0 = false → exec .sampleRecord s = .next { s with hart := { s.hart with tagDone := rest } }) ∧
      (s.hart.csr.sampctl.getLsbD 0 = true → s.memoriesWf = true → s.hart.pend = [] →
        let base := s.hart.csr.sampctl &&& 0xFFFFFFFFFF000
        let ag : Agent := { s.hart.agent with sup := false }
        ∀ (th : List Target) (ts : Nat → List Target), let touched (x : Target) : Prop := x ∈ th ∨ ∃ j : Nat, j < 32 ∧ x ∈ ts j
          let reaches (k : Kind) (va : Word) (l : List Target) : Prop :=
            ∀ u : State, Mapped none touched s u → locate ag .scalar k 2 u va 8 = .ok (u, l)
          reaches .load base th → reaches .store base th → AllMemory th → Sound s th →
          th.any (s.ownedTarget none) = false → let n := numberSeen s ag th
          (∀ j : Nat, j < 32 → AllMemory (ts j) ∧ Sound s (ts j) ∧ (ts j).any (s.ownedTarget none) = false ∧
            reaches .store (base + BitVec.ofNat 64 (256 * (1 + n % 15)) + BitVec.ofNat 64 (8 * j)) (ts j)) →
          (∀ j j' : Nat, j < 32 → j' < 32 → j ≠ j' → ∀ x ∈ ts j, x ∉ ts j' ∧ x ∉ th) →
          ∃ t, exec .sampleRecord s = .next t ∧ t.hart.tagDone = rest ∧ Stored t th (n + 1) ∧ Stored t (ts 0) g.pc.toNat ∧
            Stored t (ts 1) g.fetched ∧ Stored t (ts 2) g.enc.toNat ∧
            Stored t (ts 6) (g.vl.toNat + g.vstart.toNat * 2 ^ 16 + g.vtype.toNat * 2 ^ 32 +
              ((if g.vector then 1 else 0) + (if g.trapped then 2 else 0) + (if g.masked then 4 else 0) + (if g.restarted then 8 else 0)) * 2 ^ 48 +
              g.code.toNat * 2 ^ 56) ∧
            (∀ k : Nat, k < 16 → Stored t (ts (8 + k)) (g.mask.toNat / 2 ^ (64 * k))) ∧
            ∀ loc : Nat, ¬ touched (.mem loc) → readByte t.mem loc = readByte s.mem loc)

/-- The log reaches the record that it writes next: it is on, nothing of the hart waits before the record, and its
four doublewords are reached with the rights of U, whatever of them has been written, in sound and unowned memory
(R378, R379). -/
structure Sys2Proof.Spec.LogReached (s : State) (ts : Nat → List Target) : Prop where
  on : s.hart.csr.stripEn = true
  wf : s.memoriesWf = true
  size : stripRecords s.hart ≤ 4096
  first : s.hart.stripOut = []
  idle : s.hart.pend = [] ∧ s.landOwn = s
  reach : ∀ j : Nat, j < 4 → ∀ u : State, Alike (fun x => ∃ k : Nat, k < 4 ∧ x ∈ ts k) s u →
    access u { s.hart.agent with sup := false } .scalar .store (recordAddr s.hart j) 8 = .ok (u, ts j)
  memory : ∀ j : Nat, j < 4 → AllMemory (ts j) ∧ Sound s (ts j)
  apart : ∀ j k : Nat, j < 4 → k < 4 → j ≠ k → ∀ x ∈ ts j, x ∉ ts k

/-- The record of an open strip that closes now has been written, and HEAD has moved on to the next (R379, Table
17-2). -/
structure Sys2Proof.Spec.StripClosed (s : State) (o : OpenStrip) (trap : Bool) (ts : Nat → List Target) (t : State) : Prop where
  opening : Stored t (ts 0) (o.pc.toNat % 2 ^ 52 + o.vl.toNat * 2 ^ 52)
  cycles : Stored t (ts 1) (min (s.time - o.start) 0xFFFFFFFF + min o.arith 0xFFFFFFFF * 2 ^ 32)
  pipes : Stored t (ts 2) (min o.mem 0xFFFFFFFF + min o.tile 0xFFFFFFFF * 2 ^ 32)
  closing : Stored t (ts 3) (min o.ballast 0xFFFFFFFF + o.vtype.toNat * 2 ^ 32 + if trap then 2 ^ 48 else 0)
  bytes : ∀ loc : Nat, (∀ j : Nat, j < 4 → .mem loc ∉ ts j) → readByte t.mem loc = readByte s.mem loc
  head : stripHead t.hart = (stripHead s.hart + 1) % stripRecords s.hart
  rest : t.hart.csr.striplog.toNat % 2 ^ 52 = s.hart.csr.striplog.toNat % 2 ^ 52 ∧ t.hart.stripOut = []

/-- The strip that a vector-length-setting instruction at `pc` opens, in U alone (R379). -/
def Sys2Proof.Spec.opened (s : State) (user : Bool) (pc : Word) (vl : BitVec 11) (vtype : BitVec 9) (mem : Nat) : Option OpenStrip :=
  if user then some { pc := pc, vl := vl, vtype := vtype, start := s.time, arith := 0, mem := mem, tile := 0, ballast := 0 } else none

/-- While STRIPLOG.EN is 1 an open strip closes at a write of VL, at SETVLI or SETVL at the vector unit, and at a
VLDFF that shortens VL, and its record is written at HEAD; in U the next strip opens with VL and VTYPE as they now
are. Trap entry from U closes it with FLAGS[0] set. With no strip open none is written, and a record whose address
faults is not: EN clears (R378, R379). That a VLDFF's own groups count in the strip that it opens is the model's
reading (log entry 34), and its whole effect after one exec is the model's (log entry 36). -/
def Sys2Proof.Spec.StripLog : Prop :=
  (∀ (x : Word) (s : State), s.hart.viqReady = false → ∀ i : Instr, i = .vlWrite x ∨ i = .registerWrite (.cr 0) x →
    let vl := BitVec.ofNat 11 (crStored s 0 0 x).toNat
    let next := opened s (!s.hart.csr.status.priv) s.hart.pc vl s.hart.csr.vtype 0
    (∀ (o : OpenStrip) (ts : Nat → List Target), LogReached s ts → s.hart.openStrip = some o → ∃ t, exec i s = .next t ∧
      StripClosed s o false ts t ∧ t.hart.openStrip = next ∧ t.hart.csr.vl = vl) ∧
    (s.hart.csr.stripEn = true → s.hart.openStrip = none → ∃ t, exec i s = .next t ∧ t.hart.openStrip = next ∧
      t.hart.csr.vl = vl ∧ t.hart.csr.striplog = s.hart.csr.striplog ∧ SameBytes s t) ∧
    ∀ (o : OpenStrip) (f : MemFault), s.hart.csr.stripEn = true → s.hart.stripOut = [] → s.hart.openStrip = some o →
      s.landOwn = s → f.cause ≠ .mchk → memWf s.mem = true →
      (∀ u : State, Alike (fun _ => False) s u →
        access u { s.hart.agent with sup := false } .scalar .store (recordAddr s.hart 0) 8 = .fault f u) →
      ∃ t, exec i s = .next t ∧ t.hart.csr.striplog = s.hart.csr.striplog &&& ~~~1#64 ∧ t.hart.openStrip = none ∧
        t.hart.csr.vl = vl ∧ t.hart.stripOut = [] ∧ SameBytes s t) ∧
  (∀ (c : CrOp) (s : State) (o : OpenStrip) (ts : Nat → List Target), c.cr = 0 → s.hart.viqReady = false → CrAdmitted s 0 →
    LogReached s ts → s.hart.openStrip = some o →
    ∀ row ∈ [((.cwr c : Instr), s.getG c.a), (.crs c, s.hart.csr.vl.setWidth 64 ||| s.getG c.a),
        (.crc c, s.hart.csr.vl.setWidth 64 &&& ~~~s.getG c.a)],
      let vl := BitVec.ofNat 11 (crStored s 0 0 row.2).toNat
      ∃ t, exec row.1 s = .next t ∧ StripClosed s o false ts t ∧ t.hart.csr.vl = vl ∧ t.hart.pc = s.hart.pc + 4 ∧
        t.hart.openStrip = opened s (!s.hart.csr.status.priv) s.hart.pc vl s.hart.csr.vtype 0) ∧
  (∀ (s : State) (e : Held) (rest : List Held) (vl vt : Word) (o : OpenStrip) (ts : Nat → List Target),
    s.hart.viq = e :: rest → (∃ i, e.instr = .setvli i) ∨ (∃ i, e.instr = .setvl i) → e.ops = [vl, vt] → TakesSlot s →
    e.flying = false → e.thenVtype = none → (∀ x ∈ rest.head?, (vinfo x.instr).c = false) → gate s e false = .open →
    LogReached s ts → s.hart.openStrip = some o → ∃ t, exec .elementGroupIssue s = .next t ∧ t.hart.viq = rest ∧
      StripClosed s o false ts t ∧ t.hart.csr.vl = vl.setWidth 11 ∧ t.hart.csr.vtype = vt.setWidth 9 ∧
      t.hart.openStrip = opened s (!e.priv) e.pc (vl.setWidth 11) (vt.setWidth 9) 0) ∧
  (∀ (o : VMOp) (s : State) (i j : Nat) (rest : List Nat) (f : MemFault) (ts : List Target) (strip : OpenStrip)
      (log : Nat → List Target), let bits := bitsFor s o true
    MReady s o (memBytes bits) → Admitted s (.vm .vldff o) → pending s o.w = i :: j :: rest →
    AllReach s (laneVia s) .load (elemAddr s o .unit true) (memBytes bits) [i] [] (fun _ => ts) → f.cause ≠ .mchk →
    (∀ u : State, Alike (fun _ => False) s u →
      access u s.hart.agent (laneVia s j) .load (elemAddr s o .unit true j) (memBytes bits) = .fault f u) →
    LogReached s log → s.hart.openStrip = some strip → ∃ t, exec (.vldff o) s = .next t ∧
      StripClosed s strip false log t ∧ t.hart.csr.vl = BitVec.ofNat 11 j ∧
      t.hart.openStrip = opened s (!s.hart.csr.status.priv) s.hart.pc (BitVec.ofNat 11 j) s.hart.csr.vtype
        (groupsOf s.hart (.vm .vldff o))) ∧
  ∀ (code : BitVec 12) (s : State) (o : OpenStrip) (ts : Nat → List Target), LogReached s ts → s.hart.openStrip = some o →
    s.hart.csr.status.priv = false → HasHandler s → ∃ t, exec (.trap code) s = .next t ∧
      Traps { code := 0x04, cls := .scalar, tval := code.setWidth 64, taux := 0x400000000 } s.hart.pc s t ∧
      StripClosed s o true ts t ∧ t.hart.openStrip = none

/-- The statement that joins `SampleRecords` and `StripLog`. It rests on choices or readings of the model: log entries
34 and 36. -/
def Obligations.Sampling : Prop :=
  Spec.SampleRecords ∧ Spec.StripLog

/-! ## Statements: reset, encodings, the step and the invariants -/

/-- What the manual gives the machine at reset: the control registers of Table 01-4, empty stationary slots, the Helm
and Gimbal registers of Table 15-5, the host registers of Table 18-2, every block and frame non-secure, and every link
down. -/
def Obligations.ResetState : Prop :=
  let s := State.reset
  (∀ row ∈ ([(0x000, 0), (0x001, 2), (0x002, 0), (0x004, 0), (0x005, 0), (0x006, 0), (0x007, 0xFFF), (0x008, 0), (0x010, 0),
      (0x011, 0), (0x012, 0), (0x013, 0xFFFFFFFFFFFFFFF), (0x014, 0xFFFFFFFFFFFF), (0x020, 0), (0x021, 0), (0x022, 0),
      (0x0C8, 0), (0x0C9, 0), (0x0CA, 0), (0x0CB, 0), (0x0CC, 0), (0x0CD, 0), (0x0CE, 0), (0x0CF, 0), (0x102, 0), (0x103, 0),
      (0x104, 0), (0x105, 0), (0x108, 0), (0x109, 0), (0x10A, 0), (0x10B, 0), (0x110, 0), (0x111, 0)] : List (Nat × Word)),
    crRead s row.1 = some row.2) ∧
  s.hart.csr.status.vs = 1 ∧ s.hart.csr.status.ie = true ∧ s.hart.csr.status.pie = false ∧
  s.hart.csr.status.ppriv = false ∧ s.hart.csr.status.priv = false ∧
  (∀ (n : Nat) (k : Fin 2), ((s.coreSt n).slot k).fmt = 0 ∧ (s.coreSt n).secure = false) ∧
  (∀ n : Nat, (s.clusterSt n).memSecure = false ∧ (s.clusterSt n).arraySecure = false ∧ (mapGet (0, 0) s.wrg n).1.getLsbD 0 = false) ∧
  s.pkgSecure = 0 ∧ s.engSecure = 0 ∧ s.mruSecure = 0 ∧
  s.helm.root = 0 ∧ s.helm.lock = false ∧ s.helm.limit = 120 ∧ s.helm.rampdefer = 0 ∧ s.helm.rampvcnt = 0 ∧
  s.host.semHeld = false ∧ s.host.semOwner = false ∧ s.host.bootState = 0 ∧ s.host.bootReason = 0 ∧ s.host.pushlen = 0 ∧
  s.host.drop = 0 ∧ s.host.requests = [] ∧ s.host.domtab = 0 ∧
  ∀ l : Fin 24, (s.link l).up = false ∧ (s.link l).secure = false ∧ (s.link l).retry = 0 ∧ (s.link l).peerid = 0

/-- The words that the manual works out field by field decode to the instructions they stand for, and a word with a
reserved field set, an unassigned major or a zero register of C.ADDI decodes to none (R69, R72 to R95, Tables 03-8,
06-1, 07-1, 08-2, 09-4, 10-4, 14-2). It rests on a choice or reading of the model: log entry 15. -/
def Obligations.WordsOfTheManual : Prop :=
  decodeWord 0xFF001284 = some (.addi ⟨5, 1, 0xFF0⟩) ∧
  decodeWord 0x8141 = some (.cAddi ⟨5, 0x10⟩) ∧
  decodeWord 0x0FFF1A06 = some (.lih ⟨20, 0x0FFF1⟩) ∧
  decodeWord 0xFFAC0B8E = some (.bstrip ⟨23, 0xFFA⟩) ∧
  decodeWord 0x094E6294 = some (.fma ⟨5, 6, 7, .rne, .fp32⟩) ∧
  decodeWord 0x580C7296 = some (.amoadd ⟨5, 7, 6, .cluster, .acq, false⟩) ∧
  decodeWord 0x1900001A = some (.lafence .cluster) ∧
  decodeWord 0x00217C9C = some (.setvli ⟨25, 23, 2⟩) ∧
  decodeWord 0x808D42C0 = some (.vldIndexed ⟨5, 20, 6, 2, .native, false, false⟩) ∧
  decodeWord 0x000951C6 = some (.vscaddD ⟨3, 21, 4, 0, .native, false, false⟩) ∧
  decodeWord 0x008411B0 = some (.vfadd ⟨3, 1, 2, 2, false, false, false, false⟩) ∧
  decodeWord 0x400E6226 = some (.vwmac ⟨4, 6, 7, 0, false, false, false, false⟩) ∧
  decodeWord 0x000C4134 = some (.vfcvtFwid ⟨2, 4, 6, 0, false, false, false, false⟩) ∧
  decodeWord 0x8002314A = some (.vprune ⟨2, 3, 1, 0, false, false, false, false⟩) ∧
  decodeWord 0x200020CE = some (.wsig ⟨1, 2, 0, 0, false, false, false, false⟩) ∧
  decodeWord 0x00A000D2 = some (.farm ⟨1, 10⟩) ∧
  decodeWord 0x0000A42A00400007 = some (.mrow ⟨4, false, 20, true, false, 5, 1, 0, false, false⟩) ∧
  decodeWord 0x00000004000BD003 = some (.mtld ⟨20, 23, 0, 0, false, .e4m3, 0, false, false⟩) ∧
  decodeWord 0x0000002600200027 = some (.laeval ⟨2, false, true, 6, false, false⟩) ∧
  decodeWord 0x0000007E = none ∧ decodeWord 0x8001 = none ∧ decodeWord 0x202020CE = none

/-- Decoding is right on every word that encodes something: the decoder reads each well-formed instruction back from
its encoding with every operand, also as the bytes in memory ahead of any others, and what it reads from a word is
well formed and encodes to that very word, so that no bit of it is ignored (R75, R95). -/
def Obligations.DecodeReadsBackEveryEncoding : Prop :=
  (∀ (i : Instr) (w : Nat), wellFormed i = true → encode i = some w → w < 2 ^ (8 * lengthOf w) ∧ decodeWord w = some i ∧
    ∀ rest : List Byte, decodeBytes (leBytes (lengthOf w) w ++ rest) = .ok (i, rest)) ∧
  ∀ (i : Instr) (w : Nat), decodeWord w = some i → wellFormed i = true ∧ encode i = some (w % 2 ^ (8 * lengthOf w))

/-- The module takes its next cycle: no turn is scheduled, it has power, and no write waits for a turn. -/
structure Sys2Proof.Spec.OwnCycle (s : State) : Prop where
  agenda : s.agenda = []
  power : s.powered = true
  tight : s.loose = false

/-- The cycle belongs to the front-end of the hart whose turn it is, in the state `u` that the cycle's start leaves: no
asynchronous cause is pending, and the cycle is not the sixteenth. -/
structure Sys2Proof.Spec.FrontTurn (s u : State) : Prop where
  own : OwnCycle s
  start : u = s.tick.cycleStart
  cause : asyncCause u.hart = none
  cycle : u.time % 16 ≠ 0

/-- Nothing is due at the start of a cycle: no link's flit has failed 16 times, no change of the Helm waits, the ramp
slot has begun, no taper step, release cap or overdue gang is due, no hart has anything in flight, to issue, to grant,
to settle or to pin, and no record waits. -/
structure Sys2Proof.Spec.Quiet (s : State) : Prop where
  links : ∀ l : Fin 24, (s.link l).up = true → (s.link l).fails < 16
  changes : s.helm.todo = []
  slot : s.slotNow = s.helm.slot
  tapers : s.taperDue = false
  gangs : s.helm.gangs.find? s.overdue = none
  harts : ∀ h ∈ s.hart :: s.others, h.run = .vacant ∨
    (8 ≤ h.relCap ∧ (∀ e ∈ h.viq, e.flying = false) ∧ h.viqReady = false ∧ h.credit = 0 ∧ h.waits = 0 ∧ s.pinsBusy (coreOf h.csr.hartid) = false)
  tiles : ∀ h ∈ s.hart :: s.others, h.tiles = []
  records : s.hart.tagDone = [] ∧ s.hart.stripOut = []

/-- In the front-end's turn a step fetches at PC, decodes, and is exec of the instruction, which then counts as
retired unless it trapped or waits; loads that it may not pass have performed before it. Bytes that decode to nothing
raise ILL with the encoding in TVAL; a fetch that cannot be translated traps with the lowest address of the
instruction that failed, and one that waits lets the rest of the module go on. The bytes fetched are those at PC. An
asynchronous cause is taken first, a scheduled event or instruction is exec of it, a scheduled cycle is such a cycle
too, a cycle in which nothing is due only passes time, and accesses that wait perform once no turn schedules them, but
for elements that an older instruction still holds back (R69, R70, R95, R289, R294, R295, R357, R380; which turns an
agenda names is the model's, log entries 5 and 36). It rests on choices or readings of the model: log entries 4, 5, 6
and 36. -/
def Obligations.StepRunsTheDecodedInstruction : Prop :=
  (∀ s u : State, FrontTurn s u →
    (∀ (s1 : State) (w : Nat) (i : Instr), fetch u = .ok (s1, w) → decodeWord w = some i → s1.hart.late = [] →
      (u.hart.run = .running → step s = afterInstr u.hart.pc (exec i (s1.ready w))) ∧
      (u.hart.run.again = true → step s = afterRetry (afterInstr u.hart.pc (exec i (s1.ready w))))) ∧
    (∀ (s1 : State) (w : Nat), u.hart.run = .running → fetch u = .ok (s1, w) → decodeWord w = none → HasHandler s1 →
      s1.hart.csr.sampEn = false → ∃ t, step s = .next t ∧
        Traps { code := 0x01, cls := .scalar, tval := BitVec.ofNat 64 w, taux := 0 } u.hart.pc s1 t) ∧
    (∀ (f : MemFault) (v : State), u.hart.run = .running → fetch u = .fault f v → HasHandler v → v.hart.handlerEntry = false →
      ∃ t, step s = .next t ∧
        Traps { code := f.cause.code, cls := .scalar, tval := f.addr,
                taux := if f.cause = .mchk then 0x100000000 else 0x300000000 } u.hart.pc v t) ∧
    (u.hart.run = .running → fetch u = .wait → step s = idle u)) ∧
  (∀ s : State, Quiet s → s.cycleStart = s) ∧
  (∀ (s s1 s2 : State) (ts us : List Target), let ag := s.hart.agent
    let h := numberAt s1 ag ts
    locate ag .scalar .fetch 2 s s.hart.pc 2 = .ok (s1, ts) → ts.any (s1.ownedTarget none) = false → Sound s1 ts →
    locate ag .scalar .fetch 2 s1 (s.hart.pc + 2) (lengthOf h - 2) = .ok (s2, us) → us.any (s2.ownedTarget none) = false →
    Sound s2 us → fetch s = .ok (s2, h + 2 ^ 16 * numberAt s2 ag us)) ∧
  (∀ (s : State) (w : Nat), s.hart.csr.sampEn = false → (∀ (l : Nat) (old : Option Nat) (hit : Bool), s.hart.run ≠ .peer l old hit) →
    s.ready w = { s with hart := { s.hart with handlerEntry := false, run := .running } }) ∧
  (∀ (u : State) (pc : Word), u.hart.handlerEntry = false → u.hart.run.again = false → u.hart.run ≠ .vacant → u.hart.tag = none →
    Counted 2 1 u.hart (u.retired pc).hart ∧ u.retired pc = { u with hart := (u.retired pc).hart }) ∧
  (∀ s : State, OwnCycle s → (asyncCause s.tick.cycleStart.hart).isSome = true → step s = exec .trapEntry s.tick.cycleStart) ∧
  (∀ s : State, s.agenda = [] → s.powered = true → s.loose = true → ∃ t, step s = .next t ∧ t.loose = false ∧
    ∀ h ∈ t.hart :: t.others, ∀ p ∈ h.pend, p.isHeld = true) ∧
  ∀ (s : State) (rest : List Turn), s.powered = true →
    (∀ i : Instr, s.agenda = .event i :: rest → (encode i).isNone = true → step s = exec i { s with agenda := rest }) ∧
    (∀ i : Instr, s.agenda = .event i :: rest → (encode i).isSome = true → s.hart.late = [] →
      (∀ e ∈ s.hart.viq, e.early = []) → step s = exec i { s with agenda := rest }) ∧
    (s.agenda = .cycle :: rest → (∀ h ∈ s.hart :: s.others, ∀ e ∈ h.viq, e.early = []) →
      step s = stepOwn false (State.tick { s with agenda := rest }))

/-- What a trap, an instruction or a launch never leaves in a hart: more than 16 entries in the return stack (R15),
STATUS.VS 3, an unassigned rounding mode or event, THR above 32767, a return stack pointer off a doubleword, TVEC.MODE
2 or 3, or STRIPLOG.SIZE above 8 (Table 01-4). VL and VSTART are not among these fields: what they become may stand in
entries that the vector unit still holds. -/
structure Sys2Proof.Spec.LegalHart (h : Hart) : Prop where
  depth : h.rstack.length ≤ 16
  vs : h.csr.status.vs ≠ 3
  rm : h.csr.fcsr.toNat ≤ 4
  thr : h.csr.thr.toNat ≤ 32767
  events : ∀ i : Fin 4, (h.csr.evsel[i]).toNat ≤ 0x16
  rasp : h.csr.rasp.toNat % 8 = 0 ∧ h.csr.rasl.toNat % 8 = 0
  tvec : h.csr.tvec.toNat % 4 ≤ 1
  striplog : bitsOf h.csr.striplog.toNat 4 4 ≤ 8

/-- Every hart of the module is legal. -/
def Sys2Proof.Spec.LegalHarts (s : State) : Prop := LegalHart s.hart ∧ ∀ h ∈ s.others, LegalHart h

/-- Every step keeps these fields of every hart legal: the return stack holds at most 16 entries; STATUS.VS, FCSR.RM,
THR, EVSEL0 to EVSEL3, RASP, RASL, TVEC.MODE and STRIPLOG.SIZE hold values that Table 01-4 lets them hold (R15, R16,
R20, R28, R30). -/
def Obligations.StepsKeepHartsLegal : Prop :=   ∀ s t : State, LegalHarts s → step s = .next t → LegalHarts t

/-- Every step keeps every memory and every record of the module in its canonical form, so that equal contents are
equal data. It rests on a choice or reading of the model: log entry 1. -/
def Obligations.StepsKeepMapsCanonical : Prop :=   ∀ s t : State, s.mapsWf = true → step s = .next t → t.mapsWf = true

/-- The state right after reset meets the invariants that every step keeps. It rests on a choice or reading of the
model: log entry 1. -/
def Obligations.ResetMeetsTheInvariants : Prop := State.reset.mapsWf = true ∧ LegalHarts State.reset
end

