-- ==== Sys2Proof/Laws/Maps.lean ====
section
/-! SUPPORT. Laws of sparse maps and sparse memory: a read after a write, and that every write keeps the canonical
form. -/

namespace Sys2Proof.Machine

section Maps

variable {α : Type} [DecidableEq α]

theorem mapWfFrom_mono {d : α} {m : SMap α} : ∀ {lo lo' : Nat}, lo' ≤ lo → mapWfFrom d lo m = true → mapWfFrom d lo' m = true := by
  cases m with
  | nil => intros; rfl
  | cons p r =>
    intro lo lo' hl h
    obtain ⟨a, x⟩ := p
    simp only [mapWfFrom, Bool.and_eq_true, decide_eq_true_eq] at h ⊢
    exact ⟨⟨by omega, h.1.2⟩, h.2⟩

theorem mapGet_below {d : α} {m : SMap α} : ∀ {lo k : Nat}, mapWfFrom d lo m = true → k < lo → mapGet d m k = d := by
  induction m with
  | nil => intros; rfl
  | cons p r ih =>
    intro lo k h hk
    obtain ⟨a, x⟩ := p
    simp only [mapWfFrom, Bool.and_eq_true, decide_eq_true_eq] at h
    simp only [mapGet]
    rw [if_neg (by omega)]
    exact ih h.2 (by omega)

/-- A read of the key that was written gives what was written. -/
theorem mapGet_mapSet_same {d : α} {m : SMap α} (k : Nat) (x : α) :
    ∀ {lo : Nat}, mapWfFrom d lo m = true → mapGet d (mapSet d m k x) k = x := by
  induction m with
  | nil =>
    intro lo _
    by_cases h : x = d <;> simp [mapSet, mapGet, h]
  | cons p r ih =>
    intro lo hw
    obtain ⟨a, y⟩ := p
    simp only [mapWfFrom, Bool.and_eq_true, decide_eq_true_eq] at hw
    simp only [mapSet]
    by_cases h1 : k < a
    · rw [if_pos h1]
      by_cases h : x = d
      · rw [if_pos h, h]
        simp only [mapGet]
        rw [if_neg (by omega)]
        exact mapGet_below hw.2 (by omega)
      · simp [h, mapGet]
    · rw [if_neg h1]
      by_cases h2 : k = a
      · rw [if_pos h2]
        by_cases h : x = d
        · rw [if_pos h, h]
          exact mapGet_below hw.2 (by omega)
        · simp [h, mapGet]
      · rw [if_neg h2]
        simp only [mapGet]
        rw [if_neg (fun e => h2 e.symm)]
        exact ih hw.2

/-- A read of another key gives what it gave before. -/
theorem mapGet_mapSet_other {d : α} {m : SMap α} {k j : Nat} (x : α) (hj : j ≠ k) :
    ∀ {lo : Nat}, mapWfFrom d lo m = true → mapGet d (mapSet d m k x) j = mapGet d m j := by
  induction m with
  | nil =>
    intro lo _
    by_cases h : x = d <;> simp [mapSet, mapGet, h, Ne.symm hj]
  | cons p r ih =>
    intro lo hw
    obtain ⟨a, y⟩ := p
    simp only [mapWfFrom, Bool.and_eq_true, decide_eq_true_eq] at hw
    simp only [mapSet]
    by_cases h1 : k < a
    · rw [if_pos h1]
      by_cases h : x = d
      · rw [if_pos h]
      · rw [if_neg h]
        rw [mapGet, if_neg (Ne.symm hj)]
    · rw [if_neg h1]
      by_cases h2 : k = a
      · rw [if_pos h2]
        have ha : a ≠ j := by omega
        by_cases h : x = d
        · rw [if_pos h]; simp [mapGet, ha]
        · rw [if_neg h]; simp [mapGet, ha, Ne.symm hj]
      · rw [if_neg h2]
        simp only [mapGet]
        rw [ih hw.2]

theorem mapWfFrom_mapSet {d : α} {m : SMap α} (k : Nat) (x : α) :
    ∀ {lo : Nat}, lo ≤ k → mapWfFrom d lo m = true → mapWfFrom d lo (mapSet d m k x) = true := by
  induction m with
  | nil =>
    intro lo hl _
    by_cases h : x = d <;> simp [mapSet, mapWfFrom, h, hl]
  | cons p r ih =>
    intro lo hl hw
    obtain ⟨a, y⟩ := p
    have hw' := hw
    simp only [mapWfFrom, Bool.and_eq_true, decide_eq_true_eq] at hw
    simp only [mapSet]
    by_cases h1 : k < a
    · rw [if_pos h1]
      by_cases h : x = d
      · rw [if_pos h]; exact hw'
      · rw [if_neg h]
        simp only [mapWfFrom, Bool.and_eq_true, decide_eq_true_eq]
        exact ⟨⟨hl, h⟩, ⟨by omega, hw.1.2⟩, hw.2⟩
    · rw [if_neg h1]
      by_cases h2 : k = a
      · rw [if_pos h2]
        by_cases h : x = d
        · rw [if_pos h]; exact mapWfFrom_mono (by omega) hw.2
        · rw [if_neg h]
          simp only [mapWfFrom, Bool.and_eq_true, decide_eq_true_eq]
          exact ⟨⟨hl, h⟩, by rw [h2]; exact hw.2⟩
      · rw [if_neg h2]
        simp only [mapWfFrom, Bool.and_eq_true, decide_eq_true_eq]
        exact ⟨hw.1, ih (by omega) hw.2⟩

/-- A write keeps the canonical form. -/
theorem mapWf_mapSet {d : α} {m : SMap α} (k : Nat) (x : α) (h : mapWf d m = true) : mapWf d (mapSet d m k x) = true :=
  mapWfFrom_mapSet k x (Nat.zero_le k) h

/-- Writing what a key reads as changes nothing. -/
theorem mapSet_self {d : α} {m : SMap α} (k : Nat) : ∀ {lo : Nat}, mapWfFrom d lo m = true → mapSet d m k (mapGet d m k) = m := by
  induction m with
  | nil => intro lo _; simp [mapSet, mapGet]
  | cons p r ih =>
    intro lo hw
    obtain ⟨a, y⟩ := p
    simp only [mapWfFrom, Bool.and_eq_true, decide_eq_true_eq] at hw
    simp only [mapGet]
    by_cases h2 : a = k
    · subst h2
      simp [mapSet, hw.1.2]
    · rw [if_neg h2]
      simp only [mapSet]
      by_cases h1 : k < a
      · rw [if_pos h1, mapGet_below hw.2 (by omega), if_pos rfl]
      · rw [if_neg h1, if_neg (Ne.symm h2), ih hw.2]

theorem mapWfFrom_filter {d : α} {m : SMap α} (p : Nat × α → Bool) :
    ∀ {lo : Nat}, mapWfFrom d lo m = true → mapWfFrom d lo (m.filter p) = true := by
  induction m with
  | nil => intros; rfl
  | cons q r ih =>
    intro lo hw
    obtain ⟨a, y⟩ := q
    simp only [mapWfFrom, Bool.and_eq_true, decide_eq_true_eq] at hw
    by_cases h : p (a, y)
    · rw [List.filter_cons_of_pos h]
      simp only [mapWfFrom, Bool.and_eq_true, decide_eq_true_eq]
      exact ⟨hw.1, ih hw.2⟩
    · rw [List.filter_cons_of_neg h]
      exact mapWfFrom_mono (by omega) (ih hw.2)

/-- Leaving entries out keeps the canonical form. -/
theorem mapWf_filter {d : α} {m : SMap α} (p : Nat × α → Bool) (h : mapWf d m = true) : mapWf d (m.filter p) = true :=
  mapWfFrom_filter p h

theorem mapWfFrom_mapEntries (d : α) (xs : List α) : ∀ (lo : Nat), mapWfFrom d lo (mapEntries d lo xs) = true := by
  induction xs with
  | nil => intros; rfl
  | cons x r ih =>
    intro lo
    simp only [mapEntries]
    by_cases h : x = d
    · rw [if_pos h]; exact mapWfFrom_mono (by omega) (ih (lo + 1))
    · rw [if_neg h]
      simp only [mapWfFrom, Bool.and_eq_true, decide_eq_true_eq]
      exact ⟨⟨Nat.le_refl _, h⟩, ih (lo + 1)⟩

theorem mapEntries_lt {d : α} (xs : List α) : ∀ (lo : Nat), ∀ p ∈ mapEntries d lo xs, p.1 < lo + xs.length := by
  induction xs with
  | nil => intro lo p hp; cases hp
  | cons x r ih =>
    intro lo p hp
    simp only [mapEntries] at hp
    have hr := ih (lo + 1) p
    by_cases h : x = d
    · rw [if_pos h] at hp
      have := hr hp
      simp only [List.length_cons]; omega
    · rw [if_neg h] at hp
      cases hp with
      | head => simp only [List.length_cons]; omega
      | tail _ hq =>
        have := hr hq
        simp only [List.length_cons]; omega

theorem mapWfFrom_append {d : α} {b : SMap α} {hi : Nat} (hb : mapWfFrom d hi b = true) :
    ∀ {a : SMap α} {lo : Nat}, lo ≤ hi → mapWfFrom d lo a = true → (∀ p ∈ a, p.1 < hi) → mapWfFrom d lo (a ++ b) = true := by
  intro a
  induction a with
  | nil => intro lo hl _ _; exact mapWfFrom_mono hl hb
  | cons q r ih =>
    intro lo hl ha hp
    obtain ⟨k, y⟩ := q
    simp only [mapWfFrom, Bool.and_eq_true, decide_eq_true_eq] at ha
    simp only [List.cons_append, mapWfFrom, Bool.and_eq_true, decide_eq_true_eq]
    have hk : k < hi := hp (k, y) (List.mem_cons_self ..)
    exact ⟨ha.1, ih (by omega) ha.2 fun p h => hp p (List.mem_cons_of_mem _ h)⟩

theorem mapWfFrom_takeWhile {d : α} {m : SMap α} (p : Nat × α → Bool) :
    ∀ {lo : Nat}, mapWfFrom d lo m = true → mapWfFrom d lo (m.takeWhile p) = true := by
  induction m with
  | nil => intros; rfl
  | cons q r ih =>
    intro lo hw
    obtain ⟨a, y⟩ := q
    simp only [mapWfFrom, Bool.and_eq_true, decide_eq_true_eq] at hw
    by_cases h : p (a, y)
    · rw [List.takeWhile_cons_of_pos h]
      simp only [mapWfFrom, Bool.and_eq_true, decide_eq_true_eq]
      exact ⟨hw.1, ih hw.2⟩
    · rw [List.takeWhile_cons_of_neg h]; rfl

theorem mapWfFrom_dropWhile {d : α} {m : SMap α} (hi : Nat) :
    ∀ {lo : Nat}, mapWfFrom d lo m = true → mapWfFrom d hi (m.dropWhile fun p => decide (p.1 < hi)) = true := by
  induction m with
  | nil => intros; rfl
  | cons q r ih =>
    intro lo hw
    obtain ⟨a, y⟩ := q
    simp only [mapWfFrom, Bool.and_eq_true, decide_eq_true_eq] at hw
    by_cases h : a < hi
    · rw [List.dropWhile_cons_of_pos (by simpa using h)]; exact ih hw.2
    · rw [List.dropWhile_cons_of_neg (by simpa using h)]
      simp only [mapWfFrom, Bool.and_eq_true, decide_eq_true_eq]
      exact ⟨⟨by omega, hw.1.2⟩, hw.2⟩

omit [DecidableEq α] in
theorem mem_takeWhile_lt {lo : Nat} {m : SMap α} : ∀ p ∈ m.takeWhile (fun p => decide (p.1 < lo)), p.1 < lo := by
  induction m with
  | nil => intro p hp; cases hp
  | cons q r ih =>
    intro p hp
    by_cases h : q.1 < lo
    · rw [List.takeWhile_cons_of_pos (by simpa using h)] at hp
      cases hp with
      | head => exact h
      | tail _ hq => exact ih p hq
    · rw [List.takeWhile_cons_of_neg (by simpa using h)] at hp; cases hp

/-- Consecutive keys written at once keep the canonical form. -/
theorem mapWf_mapPut {d : α} {m : SMap α} (lo : Nat) (xs : List α) (h : mapWf d m = true) :
    mapWf d (mapPut d m lo xs) = true := by
  have h1 : mapWfFrom d lo (mapEntries d lo xs ++ m.dropWhile fun p => decide (p.1 < lo + xs.length)) = true :=
    mapWfFrom_append (mapWfFrom_dropWhile (lo + xs.length) h) (by omega) (mapWfFrom_mapEntries d xs lo) (mapEntries_lt xs lo)
  have h2 := mapWfFrom_append h1 (Nat.zero_le lo) (mapWfFrom_takeWhile (fun p => decide (p.1 < lo)) h) mem_takeWhile_lt
  unfold mapWf mapPut
  rw [List.append_assoc]
  exact h2

end Maps

/-! ### Memory -/

/-- A byte that was written reads as written. -/
theorem readByte_writeByte_same {m : Memory} (h : memWf m = true) (a : Nat) (b : Byte) : readByte (writeByte m a b) a = b :=
  mapGet_mapSet_same a b h

/-- Another byte reads as before. -/
theorem readByte_writeByte_other {m : Memory} (h : memWf m = true) {a c : Nat} (b : Byte) (hc : c ≠ a) :
    readByte (writeByte m a b) c = readByte m c :=
  mapGet_mapSet_other b hc h

theorem memWf_writeByte {m : Memory} (h : memWf m = true) (a : Nat) (b : Byte) : memWf (writeByte m a b) = true :=
  mapWf_mapSet a b h

theorem memWf_writeBytes (bs : List Byte) : ∀ {m : Memory}, memWf m = true → ∀ a, memWf (writeBytes m a bs) = true := by
  induction bs with
  | nil => intro m h a; exact h
  | cons b r ih => intro m h a; exact ih (memWf_writeByte h a b) (a + 1)

theorem memWf_writeNat {m : Memory} (h : memWf m = true) (a n x : Nat) : memWf (writeNat m a n x) = true :=
  memWf_writeBytes _ h a

theorem memWf_replaceBytes {m : Memory} (h : memWf m = true) (a : Nat) (bs : List Byte) :
    memWf (replaceBytes m a bs) = true :=
  mapWf_mapPut a bs h

/-- Bytes outside the written range read as before. -/
theorem readByte_writeBytes_other (bs : List Byte) :
    ∀ {m : Memory}, memWf m = true → ∀ (a c : Nat), (c < a ∨ a + bs.length ≤ c) →
      readByte (writeBytes m a bs) c = readByte m c := by
  induction bs with
  | nil => intro m _ a c _; rfl
  | cons b r ih =>
    intro m h a c hc
    simp only [List.length_cons] at hc
    rw [writeBytes, ih (memWf_writeByte h a b) (a + 1) c (by omega), readByte_writeByte_other h b (by omega)]

/-- The written range reads as the bytes that were written. -/
theorem readBytes_writeBytes (bs : List Byte) :
    ∀ {m : Memory}, memWf m = true → ∀ a, readBytes (writeBytes m a bs) a bs.length = bs := by
  induction bs with
  | nil => intros; rfl
  | cons b r ih =>
    intro m h a
    simp only [List.length_cons, readBytes, writeBytes]
    rw [ih (memWf_writeByte h a b) (a + 1), readByte_writeBytes_other r (memWf_writeByte h a b) (a + 1) a (by omega),
      readByte_writeByte_same h]

theorem leBytes_leNat (bs : List Byte) : leBytes bs.length (leNat bs) = bs := by
  induction bs with
  | nil => rfl
  | cons b r ih =>
    simp only [List.length_cons, leBytes, leNat]
    have hb := b.isLt
    rw [show (b.toNat + 256 * leNat r) / 256 = leNat r by omega, ih]
    congr 1
    apply BitVec.eq_of_toNat_eq
    simp
    omega

theorem readBytes_length (m : Memory) (n : Nat) : ∀ a : Nat, (readBytes m a n).length = n := by
  induction n with
  | zero => intro a; rfl
  | succ n ih => intro a; simp [readBytes, ih]

theorem writeBytes_self {m : Memory} (h : memWf m = true) (n : Nat) : ∀ a : Nat, writeBytes m a (readBytes m a n) = m := by
  induction n with
  | zero => intro a; rfl
  | succ n ih =>
    intro a
    simp only [readBytes, writeBytes]
    rw [show writeByte m a (readByte m a) = m from mapSet_self a h, ih]

/-- Writing the number that stands there changes nothing. -/
theorem writeNat_self {m : Memory} (h : memWf m = true) (a n : Nat) : writeNat m a n (readNat m a n) = m := by
  unfold writeNat readNat
  have e : leBytes n (leNat (readBytes m a n)) = readBytes m a n := by
    have := leBytes_leNat (readBytes m a n)
    rwa [readBytes_length] at this
  rw [e, writeBytes_self h]

/-- Memories that agree on a range read alike there. -/
theorem readNat_congr {m m' : Memory} (n : Nat) : ∀ a : Nat, (∀ i, i < n → readByte m (a + i) = readByte m' (a + i)) →
    readNat m a n = readNat m' a n := by
  unfold readNat
  induction n with
  | zero => intro a _; rfl
  | succ n ih =>
    intro a h
    simp only [readBytes, leNat]
    rw [show readByte m a = readByte m' a from h 0 (by omega), ih (a + 1) fun i hi => by
      have := h (i + 1) (by omega)
      rwa [show a + (i + 1) = a + 1 + i by omega] at this]

end Sys2Proof.Machine
end

