-- ==== Sys2Proof/Laws/Sets.lean ====
section
/-! SUPPORT. Laws of rising lists of numbers, and of moving a range of keys: each keeps the canonical form. -/

namespace Sys2Proof.Machine

theorem risingFrom_mono {l : List Nat} : ∀ {lo lo' : Nat}, lo' ≤ lo → risingFrom lo l = true → risingFrom lo' l = true := by
  cases l with
  | nil => intros; rfl
  | cons a r =>
    intro lo lo' hl h
    simp only [risingFrom, Bool.and_eq_true, decide_eq_true_eq] at h ⊢
    exact ⟨by omega, h.2⟩

theorem risingFrom_setAdd {l : List Nat} (k : Nat) :
    ∀ {lo : Nat}, lo ≤ k → risingFrom lo l = true → risingFrom lo (setAdd l k) = true := by
  induction l with
  | nil => intro lo hl _; simp [setAdd, risingFrom, hl]
  | cons a r ih =>
    intro lo hl h
    simp only [setAdd]
    have h' := h
    simp only [risingFrom, Bool.and_eq_true, decide_eq_true_eq] at h
    by_cases h1 : k < a
    · rw [if_pos h1]
      simp only [risingFrom, Bool.and_eq_true, decide_eq_true_eq]
      exact ⟨hl, by omega, h.2⟩
    · rw [if_neg h1]
      by_cases h2 : k = a
      · rw [if_pos h2]; exact h'
      · rw [if_neg h2]
        simp only [risingFrom, Bool.and_eq_true, decide_eq_true_eq]
        exact ⟨h.1, ih (by omega) h.2⟩

theorem risingFrom_filter {l : List Nat} (p : Nat → Bool) :
    ∀ {lo : Nat}, risingFrom lo l = true → risingFrom lo (l.filter p) = true := by
  induction l with
  | nil => intros; rfl
  | cons a r ih =>
    intro lo h
    simp only [risingFrom, Bool.and_eq_true, decide_eq_true_eq] at h
    by_cases hp : p a
    · rw [List.filter_cons_of_pos hp]
      simp only [risingFrom, Bool.and_eq_true, decide_eq_true_eq]
      exact ⟨h.1, ih h.2⟩
    · rw [List.filter_cons_of_neg hp]
      exact risingFrom_mono (by omega) (ih h.2)

theorem risingFrom_setDel {l : List Nat} (k : Nat) {lo : Nat} (h : risingFrom lo l = true) :
    risingFrom lo (setDel l k) = true := risingFrom_filter _ h

/-- A number is in a set with one added when it was or is that one. -/
theorem mem_setAdd {l : List Nat} {k x : Nat} : x ∈ setAdd l k ↔ x = k ∨ x ∈ l := by
  induction l with
  | nil => simp [setAdd]
  | cons a r ih =>
    simp only [setAdd]
    split
    · simp
    · split
      · rename_i h; subst h; simp
      · simp only [List.mem_cons, ih]; exact or_left_comm

theorem mem_setDel {l : List Nat} {k x : Nat} : x ∈ setDel l k ↔ x ∈ l ∧ x ≠ k := by simp [setDel]

/-- A rising list is a sparse map of its numbers, whose laws it then has. -/
theorem risingFrom_iff {l : List Nat} : ∀ {lo : Nat},
    risingFrom lo l = mapWfFrom false lo (l.map fun x => (x, true)) := by
  induction l with
  | nil => intro lo; rfl
  | cons a r ih => intro lo; simp [risingFrom, mapWfFrom, ih]

section Moves

variable {α : Type} [DecidableEq α]

theorem mapWfFrom_shift {d : α} {m : SMap α} {a b : Nat} : ∀ {lo : Nat}, a ≤ lo → mapWfFrom d lo m = true →
    mapWfFrom d (lo - a + b) (m.map fun p => (p.1 - a + b, p.2)) = true := by
  induction m with
  | nil => intros; rfl
  | cons q r ih =>
    intro lo hl h
    obtain ⟨k, x⟩ := q
    simp only [mapWfFrom, Bool.and_eq_true, decide_eq_true_eq] at h
    simp only [List.map_cons, mapWfFrom, Bool.and_eq_true, decide_eq_true_eq]
    refine ⟨⟨by omega, h.1.2⟩, ?_⟩
    have := ih (lo := k + 1) (by omega) h.2
    rwa [show k + 1 - a + b = k - a + b + 1 by omega] at this

theorem mapWfFrom_above {d : α} {m : SMap α} : ∀ {lo hi : Nat}, mapWfFrom d lo m = true → (∀ p ∈ m, hi ≤ p.1) →
    mapWfFrom d hi m = true := by
  intro lo hi h hp
  cases m with
  | nil => rfl
  | cons q r =>
    obtain ⟨k, x⟩ := q
    simp only [mapWfFrom, Bool.and_eq_true, decide_eq_true_eq] at h ⊢
    exact ⟨⟨hp (k, x) (List.mem_cons_self ..), h.1.2⟩, h.2⟩

/-- Moving a range of keys keeps the canonical form. -/
theorem mapWf_moveKeys {d : α} {m : SMap α} (lo dst n : Nat) (h : mapWf d m = true) : mapWf d (moveKeys m lo dst n) = true := by
  have hf : mapWfFrom d lo (m.filter fun p => decide (lo ≤ p.1) && decide (p.1 < lo + n)) = true :=
    mapWfFrom_above (mapWfFrom_filter _ h) fun p hp => by simp at hp; exact hp.2.1
  have h1 := mapWfFrom_shift (a := lo) (b := dst) (Nat.le_refl lo) hf
  rw [Nat.sub_self, Nat.zero_add] at h1
  have h2 : ∀ p ∈ (m.filter fun p => decide (lo ≤ p.1) && decide (p.1 < lo + n)).map fun p => (p.1 - lo + dst, p.2),
      p.1 < dst + n := by
    intro p hp
    simp only [List.mem_map, List.mem_filter, Bool.and_eq_true, decide_eq_true_eq] at hp
    obtain ⟨q, ⟨_, hq⟩, rfl⟩ := hp
    simp only; omega
  unfold mapWf moveKeys
  rw [List.append_assoc]
  exact mapWfFrom_append (mapWfFrom_append (mapWfFrom_dropWhile (dst + n) h) (by omega) h1 h2) (Nat.zero_le dst)
    (mapWfFrom_takeWhile _ h) mem_takeWhile_lt

end Moves

/-- Moving a range of a rising list keeps it rising. -/
theorem risingFrom_moveSet {l : List Nat} (lo dst n : Nat) (h : risingFrom 0 l = true) :
    risingFrom 0 (moveSet l lo dst n) = true := by
  rw [risingFrom_iff] at h ⊢
  have := mapWf_moveKeys (d := false) lo dst n h
  unfold moveKeys mapWf at this
  unfold moveSet
  simpa [List.map_append, List.takeWhile_map, List.dropWhile_map, List.filter_map, List.map_map, Function.comp_def] using this

end Sys2Proof.Machine
end

