-- ==== Sys2Proof/Laws/Access.lean ====
section
/-! SUPPORT. What translating an access and writing its bytes can change: translation sets the A and D bits of leaves
and nothing else, and a write reaches its own targets and nothing else. -/

namespace Sys2Proof.Spec

open Sys2Proof.Machine

/-! ### Bytes and the blocks that hold them -/

theorem OnlyBytes.refl (s : State) : OnlyBytes s s := rfl

theorem OnlyBytes.trans {s t u : State} (h : OnlyBytes s t) (k : OnlyBytes t u) : OnlyBytes s u := by
  unfold OnlyBytes at *; rw [h] at k; exact k

theorem encodeBlock_only (s : State) (b : Nat) : OnlyBytes s (s.encodeBlock b) ∧ (s.encodeBlock b).mem = s.mem := ⟨rfl, rfl⟩

/-- A block that takes a write changes nothing but its entry and sectors, or that its line is modified (R266). -/
theorem settleBlock_only (s : State) (b : Nat) : OnlyBytes s (s.settleBlock b) ∧ (s.settleBlock b).mem = s.mem := by
  unfold State.settleBlock
  split
  · exact ⟨rfl, rfl⟩
  · exact encodeBlock_only s b

theorem settleBlocks_only : ∀ (bs : List Nat) (s : State),
    OnlyBytes s (bs.foldl State.settleBlock s) ∧ (bs.foldl State.settleBlock s).mem = s.mem := by
  intro bs
  induction bs with
  | nil => intro s; exact ⟨rfl, rfl⟩
  | cons b bs ih =>
    intro s
    have h := settleBlock_only s b
    have k := ih (s.settleBlock b)
    exact ⟨h.1.trans k.1, by rw [List.foldl_cons, k.2, h.2]⟩

/-- Every sparse map of the controllers keeps its canonical form when a block takes a write. -/
theorem mapsWf_settleBlock {s : State} (b : Nat) (h : s.mapsWf = true) : (s.settleBlock b).mapsWf = true := by
  unfold State.settleBlock
  split
  · simp only [State.mapsWf, Bool.and_eq_true, State.onCtl, State.memoriesWf] at h ⊢
    simp_all [risingFrom_setAdd b (Nat.zero_le b)]
  · simp only [State.mapsWf, Bool.and_eq_true, State.encodeBlock, State.onCtl, State.memoriesWf] at h ⊢
    simp_all [mapWf_mapSet]

theorem mapsWf_settleBlocks : ∀ (bs : List Nat) {s : State}, s.mapsWf = true → (bs.foldl State.settleBlock s).mapsWf = true := by
  intro bs
  induction bs with
  | nil => intro s h; exact h
  | cons b bs ih => intro s h; exact ih (mapsWf_settleBlock b h)

/-- Memory in its canonical form may stand for memory in its canonical form. -/
theorem mapsWf_mem {s : State} {m : Memory} (hm : memWf m = true) (h : s.mapsWf = true) :
    ({ s with mem := m } : State).mapsWf = true := by
  simp only [State.mapsWf, Bool.and_eq_true, State.memoriesWf] at h ⊢
  simp_all

theorem memWf_of_mapsWf {s : State} (h : s.mapsWf = true) : memWf s.mem = true := by
  simp only [State.mapsWf, Bool.and_eq_true, State.memoriesWf] at h
  simp_all

theorem putBytes_only (s : State) (loc : Nat) (bs : List Byte) :
    OnlyBytes s (s.putBytes loc bs) ∧ (s.putBytes loc bs).mem = writeBytes s.mem loc bs := by
  have h := settleBlocks_only (blocksAt ((List.range bs.length).map (loc + ·))) { s with mem := writeBytes s.mem loc bs }
  refine ⟨?_, h.2⟩
  unfold State.putBytes
  have := h.1
  unfold OnlyBytes at this ⊢
  rw [this]

theorem mapsWf_putBytes {s : State} (loc : Nat) (bs : List Byte) (h : s.mapsWf = true) : (s.putBytes loc bs).mapsWf = true :=
  mapsWf_settleBlocks _ (mapsWf_mem (memWf_writeBytes bs (memWf_of_mapsWf h) loc) h)

/-! ### Translation (R269) -/

theorem touchLeaf_only (s : State) (x : Xlat) (k : Kind) : OnlyBytes s (s.touchLeaf x k) := by
  unfold State.touchLeaf
  split
  · exact OnlyBytes.refl s
  · exact (putBytes_only s _ _).1

theorem touchLeaf_wf {s : State} (x : Xlat) (k : Kind) (h : s.mapsWf = true) : (s.touchLeaf x k).mapsWf = true := by
  unfold State.touchLeaf
  split
  · exact h
  · exact mapsWf_putBytes _ _ h

/-- A translation that succeeds changes bytes of page tables at most. -/
theorem translate_spec {s s1 : State} {ag : Agent} {via : Via} {k : Kind} {va : Word} {t : Target}
    (h : translate s ag via k va = .ok (s1, t)) : OnlyBytes s s1 ∧ (s.mapsWf = true → s1.mapsWf = true) := by
  unfold Machine.translate at h
  repeat' (first | split at h | (dsimp only at h; split at h))
  all_goals first
    | (cases h; done)
    | (cases h; exact ⟨OnlyBytes.refl s, id⟩)
    | (cases h; exact ⟨touchLeaf_only s _ k, touchLeaf_wf _ k⟩)

theorem locate_spec {ag : Agent} {via : Via} {k : Kind} :
    ∀ {fuel : Nat} {s s1 : State} {va : Word} {n : Nat} {ts : List Target}, locate ag via k fuel s va n = .ok (s1, ts) →
      OnlyBytes s s1 ∧ (s.mapsWf = true → s1.mapsWf = true) ∧ ts.length ≤ n := by
  intro fuel
  induction fuel with
  | zero =>
    intro s s1 va n ts h
    simp only [locate, Acc.ok.injEq, Prod.mk.injEq] at h
    rw [← h.1, ← h.2]; exact ⟨OnlyBytes.refl s, id, Nat.zero_le _⟩
  | succ f ih =>
    intro s s1 va n ts h
    unfold locate at h
    dsimp only at h
    split at h
    · simp only [Acc.ok.injEq, Prod.mk.injEq] at h
      rw [← h.1, ← h.2]; exact ⟨OnlyBytes.refl s, id, Nat.zero_le _⟩
    · split at h
      · cases h
      · cases h
      · rename_i ht
        split at h
        · cases h
        · cases h
        · rename_i hl
          cases h
          have a := translate_spec ht
          have b := ih hl
          have : pieceLen va n ≤ n := Nat.min_le_left _ _
          refine ⟨a.1.trans b.1, fun h => b.2.1 (a.2 h), ?_⟩
          have := b.2.2
          simp only [List.length_append, List.length_map, List.length_range]
          omega

/-- The state after an access has translated is the state before it with other bytes in its page tables. -/
theorem access_spec {s s1 : State} {ag : Agent} {via : Via} {k : Kind} {va : Word} {n : Nat} {ts : List Target}
    (h : access s ag via k va n = .ok (s1, ts)) :
    OnlyBytes s s1 ∧ (s.mapsWf = true → s1.mapsWf = true) ∧ ts.length ≤ n := by
  unfold access at h
  split at h
  · cases h
  · cases h
  · rename_i hl
    split at h
    · cases h
    · cases h; exact locate_spec hl

/-- A translation that fails changes bytes of page tables at most, as one that succeeds does. -/
theorem translate_fault {s u : State} {ag : Agent} {via : Via} {k : Kind} {va : Word} {f : MemFault}
    (h : translate s ag via k va = .fault f u) : OnlyBytes s u := by
  unfold Machine.translate at h
  repeat' (first | split at h | (dsimp only at h; split at h))
  all_goals first
    | (cases h; done)
    | (cases h; exact OnlyBytes.refl s)
    | (cases h; exact touchLeaf_only s _ k)

theorem locate_fault {ag : Agent} {via : Via} {k : Kind} {f : MemFault} :
    ∀ {fuel : Nat} {s u : State} {va : Word} {n : Nat}, locate ag via k fuel s va n = .fault f u → OnlyBytes s u := by
  intro fuel
  induction fuel with
  | zero => intro s u va n h; cases h
  | succ m ih =>
    intro s u va n h
    unfold locate at h
    dsimp only at h
    split at h
    · cases h
    · split at h
      · rename_i ht
        cases h
        exact translate_fault ht
      · cases h
      · rename_i ht
        split at h
        · rename_i hl
          cases h
          exact (translate_spec ht).1.trans (ih hl)
        · cases h
        · cases h

/-- The state that a refused access leaves is the state before it with other bytes in its page tables. -/
theorem access_fault {s u : State} {ag : Agent} {via : Via} {k : Kind} {va : Word} {n : Nat} {f : MemFault}
    (h : access s ag via k va n = .fault f u) : OnlyBytes s u := by
  unfold access at h
  split at h
  · rename_i hl
    cases h
    exact locate_fault hl
  · cases h
  · split at h <;> cases h

/-- An access whose bytes are reached performs. -/
theorem access_ok {s s1 : State} {ag : Agent} {via : Via} {k : Kind} {va : Word} {n : Nat} {ts : List Target}
    (h : Reaches s ag via k va n s1 ts) : access s ag via k va n = .ok (s1, ts) := by
  unfold access
  rw [h.1]
  simp [h.2]

theorem access_error {s u : State} {ag : Agent} {via : Via} {k : Kind} {va : Word} {n : Nat} {f : MemFault}
    (h : locate ag via k (n / 4096 + 2) s va n = .fault f u) : access s ag via k va n = .fault f u := by
  unfold access; rw [h]

theorem access_owned {s s1 : State} {ag : Agent} {via : Via} {k : Kind} {va : Word} {n : Nat} {ts : List Target}
    (h : locate ag via k (n / 4096 + 2) s va n = .ok (s1, ts)) (ho : ts.any (s1.ownedTarget ag.engine) = true) :
    access s ag via k va n = .wait := by
  unfold access; rw [h]; simp [ho]

/-! ### Writing targets -/

/-- Bytes put at memory targets change memory alone. -/
theorem putTargets_frame : ∀ {ts : List Target} {bs : List Byte} {s : State}, (∀ x ∈ ts, ∃ loc, x = Target.mem loc) →
    putTargets s ts bs = { s with mem := (putTargets s ts bs).mem } := by
  intro ts
  induction ts with
  | nil => intro bs s _; cases bs <;> rfl
  | cons t ts ih =>
    intro bs s hall
    obtain ⟨loc, rfl⟩ := hall t (by simp)
    cases bs with
    | nil => rfl
    | cons b bs =>
      have h1 := ih (bs := bs) (s := { s with mem := writeByte s.mem loc b }) (fun x hx => hall x (by simp [hx]))
      unfold putTargets
      rw [h1]

/-- Bytes written to memory targets change memory and what the controllers keep of its blocks. -/
theorem writeTargets_only {ts : List Target} {bs : List Byte} {s : State} (h : ∀ x ∈ ts, ∃ loc, x = Target.mem loc) :
    OnlyBytes s (writeTargets s ts bs) ∧ (writeTargets s ts bs).mem = (putTargets s ts bs).mem := by
  have k := settleBlocks_only (blocksHit ts) (putTargets s ts bs)
  refine ⟨?_, k.2⟩
  have hp : OnlyBytes s (putTargets s ts bs) := by
    have := putTargets_frame (bs := bs) (s := s) h
    unfold OnlyBytes
    rw [this]
  exact hp.trans k.1

theorem memWf_putTargets : ∀ {ts : List Target} {bs : List Byte} {s : State}, (∀ x ∈ ts, ∃ loc, x = Target.mem loc) →
    memWf s.mem = true → memWf (putTargets s ts bs).mem = true := by
  intro ts
  induction ts with
  | nil => intro bs s _ h; cases bs <;> exact h
  | cons t ts ih =>
    intro bs s hall h
    obtain ⟨loc, rfl⟩ := hall t (by simp)
    cases bs with
    | nil => exact h
    | cons b bs =>
      unfold putTargets
      exact ih (fun x hx => hall x (by simp [hx])) (memWf_writeByte h loc b)

theorem mapsWf_writeTargets {ts : List Target} {bs : List Byte} {s : State} (ht : ∀ x ∈ ts, ∃ loc, x = Target.mem loc)
    (h : s.mapsWf = true) : (writeTargets s ts bs).mapsWf = true := by
  unfold writeTargets
  rw [putTargets_frame ht]
  exact mapsWf_settleBlocks _ (mapsWf_mem (memWf_putTargets ht (memWf_of_mapsWf h)) h)

/-- A location that is no target keeps its byte. -/
theorem readByte_writeTargets_other {ts : List Target} {bs : List Byte} {s : State} {loc : Nat}
    (ha : ∀ x ∈ ts, ∃ l, x = Target.mem l) (hm : memWf s.mem = true) (hn : Target.mem loc ∉ ts) :
    readByte (writeTargets s ts bs).mem loc = readByte s.mem loc := by
  rw [(writeTargets_only ha).2]
  revert bs s
  induction ts with
  | nil => intro bs s _; cases bs <;> rfl
  | cons t ts ih =>
    intro bs s hm
    obtain ⟨l, rfl⟩ := ha t (by simp)
    cases bs with
    | nil => rfl
    | cons b bs =>
      simp only [List.mem_cons, not_or] at hn
      unfold putTargets
      rw [ih (fun x hx => ha x (by simp [hx])) hn.2 (memWf_writeByte hm l b)]
      exact readByte_writeByte_other hm b (fun e => hn.1 (by rw [e]))

/-- A target that no later target repeats holds its byte. -/
theorem readByte_writeTargets_same {ts : List Target} {bs : List Byte} {s : State} {i loc : Nat} {b : Byte}
    (ha : ∀ x ∈ ts, ∃ l, x = Target.mem l) (hm : memWf s.mem = true) (ht : ts[i]? = some (.mem loc)) (hb : bs[i]? = some b)
    (hl : ∀ j, i < j → ts[j]? ≠ some (.mem loc)) : readByte (writeTargets s ts bs).mem loc = b := by
  rw [(writeTargets_only ha).2]
  revert bs s i
  induction ts with
  | nil => intro bs s i _ h; simp at h
  | cons t ts ih =>
    intro bs s i hm ht hb hl
    obtain ⟨l, rfl⟩ := ha t (by simp)
    cases bs with
    | nil => simp at hb
    | cons c bs =>
      have hall' : ∀ x ∈ ts, ∃ l, x = Target.mem l := fun x hx => ha x (by simp [hx])
      have hm' : memWf (writeByte s.mem l c) = true := memWf_writeByte hm l c
      cases i with
      | zero =>
        simp only [List.getElem?_cons_zero, Option.some.injEq, Target.mem.injEq] at ht hb
        subst ht; subst hb
        have hn : Target.mem l ∉ ts := by
          intro hx
          obtain ⟨j, hj⟩ := List.getElem?_of_mem hx
          exact hl (j + 1) (by omega) (by simpa using hj)
        unfold putTargets
        rw [← (writeTargets_only hall').2, readByte_writeTargets_other hall' hm' hn]
        exact readByte_writeByte_same hm l c
      | succ i =>
        simp only [List.getElem?_cons_succ] at ht hb
        unfold putTargets
        exact ih hall' (s := { s with mem := writeByte s.mem l c }) hm' ht hb
          (fun j hj e => hl (j + 1) (by omega) (by simpa using e))

/-- Errors that a merge meets pend a machine check, and no byte changes (R364); without one nothing changes. -/
theorem mergeErrors_sound {s : State} {ts : List Target} (ag : Agent) (h : Sound s ts) : s.mergeErrors ag ts = s := by
  unfold State.mergeErrors
  rw [show ts.any s.badTarget = false from h]
  rfl

end Sys2Proof.Spec
end

