-- ==== Sys2Proof/Laws/Elements.lean ====
section
/-! SUPPORT. Laws of elements of vector registers (R18, R35): reading an element after elements have been written. -/

namespace Sys2Proof.Machine

theorem getLsbD_setE (r : VBits) (n i x k : Nat) (hk : k < 16384) :
    (setE r n i x).getLsbD k =
      if n * i ≤ k ∧ k < n * i + n then x.testBit (k - n * i) else r.getLsbD k := by
  simp only [setE, BitVec.getLsbD_or, BitVec.getLsbD_and, BitVec.getLsbD_not, BitVec.getLsbD_shiftLeft, BitVec.getLsbD_ofNat,
    Nat.testBit_two_pow_sub_one, Nat.testBit_mod_two_pow]
  by_cases h1 : k < n * i
  · have : ¬(n * i ≤ k ∧ k < n * i + n) := by omega
    simp [h1, hk, this]
  · have hk' : k - n * i < 16384 := by omega
    by_cases h2 : k < n * i + n
    · have h3 : n * i ≤ k ∧ k < n * i + n := by omega
      have h4 : k - n * i < n := by omega
      simp [h1, hk, hk', h3, h4]
    · have h3 : ¬(n * i ≤ k ∧ k < n * i + n) := by omega
      have h4 : ¬ k - n * i < n := by omega
      simp [h1, hk, hk', h3, h4]

/-- The element that was written reads as written. -/
theorem getE_setE_same (r : VBits) (n i x : Nat) (h : n * i + n ≤ 16384) : getE (setE r n i x) n i = x % 2 ^ n := by
  unfold getE
  apply Nat.eq_of_testBit_eq
  intro k
  rw [BitVec.testBit_toNat, BitVec.getLsbD_extractLsb', Nat.testBit_mod_two_pow]
  by_cases hk : k < n
  · rw [getLsbD_setE r n i x (n * i + k) (by omega), if_pos (by omega)]
    simp [hk]
  · simp [hk]

/-- Another element reads as before. -/
theorem getE_setE_other (r : VBits) {n i j : Nat} (x : Nat) (h : j ≠ i) : getE (setE r n i x) n j = getE r n j := by
  unfold getE
  apply Nat.eq_of_testBit_eq
  intro k
  rw [BitVec.testBit_toNat, BitVec.testBit_toNat, BitVec.getLsbD_extractLsb', BitVec.getLsbD_extractLsb']
  by_cases hk : k < n
  · by_cases hb : n * j + k < 16384
    · have hd : ¬(n * i ≤ n * j + k ∧ n * j + k < n * i + n) := by
        rcases Nat.lt_or_gt_of_ne h with hl | hl
        · have := Nat.mul_le_mul_left n (show j + 1 ≤ i from hl)
          rw [Nat.mul_add] at this; omega
        · have := Nat.mul_le_mul_left n (show i + 1 ≤ j from hl)
          rw [Nat.mul_add] at this; omega
      rw [getLsbD_setE r n i x (n * j + k) hb, if_neg hd]
    · rw [BitVec.getLsbD_of_ge _ _ (by omega), BitVec.getLsbD_of_ge _ _ (by omega)]
  · simp [hk]

/-- What an element reads as after a list of element results: the result for it, if the list has one. -/
theorem getE_setEs (n : Nat) (j : Nat) (hj : n * j + n ≤ 16384) (r : ElemRes) :
    ∀ (v : VBits), (r.map (·.1)).Nodup →
      getE (setEs v n r) n j = match r.find? (fun x => x.1 == j) with
        | some x => x.2.1 % 2 ^ n
        | none => getE v n j := by
  induction r with
  | nil => intros; rfl
  | cons x r ih =>
    intro v hn
    rw [List.map_cons, List.nodup_cons] at hn
    have hc : setEs v n (x :: r) = setEs (setE v n x.1 x.2.1) n r := rfl
    rw [hc, ih _ hn.2]
    by_cases h : x.1 = j
    · have hf : r.find? (fun y => y.1 == j) = none := by
        rw [List.find?_eq_none]
        intro y hy hyj
        exact hn.1 (by rw [h]; exact List.mem_map.2 ⟨y, hy, by simpa using hyj⟩)
      rw [hf, List.find?_cons_of_pos (by simpa using h)]
      dsimp only
      rw [← h]
      exact getE_setE_same v n x.1 x.2.1 (by rw [h]; exact hj)
    · rw [List.find?_cons_of_neg (by simpa using h)]
      cases r.find? (fun y => y.1 == j) with
      | none => exact getE_setE_other v x.2.1 (Ne.symm h)
      | some y => rfl

end Sys2Proof.Machine
end

