-- ==== Sys2Proof/Laws/Encode.lean ====
section
/-! SUPPORT. Laws of packed bit fields, and the length that each format's first halfword fixes (R69). -/

namespace Sys2Proof

/-- Bits of a list of fields. -/
def Fields.bits (fs : Fields) : Nat := (fs.map (·.1)).sum

theorem pack_lt (fs : Fields) : pack fs < 2 ^ Fields.bits fs := by
  induction fs with
  | nil => simp [pack, Fields.bits]
  | cons f fs ih =>
    obtain ⟨n, x⟩ := f
    simp only [pack, Fields.bits, List.map_cons, List.sum_cons] at ih ⊢
    have h1 : x % 2 ^ n < 2 ^ n := Nat.mod_lt _ (Nat.two_pow_pos n)
    have h2 : 2 ^ n * pack fs + 2 ^ n ≤ 2 ^ n * 2 ^ (fs.map (·.1)).sum := by
      rw [← Nat.mul_succ]; exact Nat.mul_le_mul_left _ ih
    rw [Nat.pow_add]; omega

/-- Fields that fit their widths are read back from the packed number. -/
theorem unpack_pack (fs : Fields) (h : ∀ f ∈ fs, f.2 < 2 ^ f.1) : unpack (fs.map (·.1)) (pack fs) = fs.map (·.2) := by
  induction fs with
  | nil => rfl
  | cons f fs ih =>
    obtain ⟨n, x⟩ := f
    have hx : x < 2 ^ n := h (n, x) (List.mem_cons_self ..)
    have e1 : (x + 2 ^ n * pack fs) % 2 ^ n = x := by rw [Nat.add_mul_mod_self_left, Nat.mod_eq_of_lt hx]
    have e2 : (x + 2 ^ n * pack fs) / 2 ^ n = pack fs := by
      rw [Nat.add_mul_div_left _ _ (Nat.two_pow_pos n), Nat.div_eq_of_lt hx, Nat.zero_add]
    simp only [List.map_cons, pack, unpack, Nat.mod_eq_of_lt hx, e1, e2]
    rw [ih fun f hf => h f (List.mem_cons_of_mem _ hf)]

/-- The first fields of a packed list can be taken off. -/
theorem pack_cons_div (n x : Nat) (fs : Fields) : pack ((n, x) :: fs) / 2 ^ n = pack fs := by
  simp only [pack]
  rw [Nat.add_mul_div_left _ _ (Nat.two_pow_pos n), Nat.div_eq_of_lt (Nat.mod_lt _ (Nat.two_pow_pos n)), Nat.zero_add]

theorem pack_cons_mod (n x : Nat) (fs : Fields) : pack ((n, x) :: fs) % 2 ^ n = x % 2 ^ n := by
  simp only [pack]
  rw [Nat.add_mul_mod_self_left, Nat.mod_mod]

/-- An encoding fits the length that its first halfword fixes: what the fields of each format show. -/
def Fits (w : Nat) : Prop := w < 2 ^ (8 * lengthOf w)

theorem fits_word_cons (fs : Fields) (h : Fields.bits fs = 31) :
    lengthOf (pack ((1, 0) :: fs)) = 4 ∧ Fits (pack ((1, 0) :: fs)) := by
  have h1 : pack ((1, 0) :: fs) % 2 = 0 := pack_cons_mod 1 0 fs
  have h2 : lengthOf (pack ((1, 0) :: fs)) = 4 := by unfold lengthOf; rw [if_pos h1]
  refine ⟨h2, ?_⟩
  unfold Fits
  rw [h2]
  have := pack_lt ((1, 0) :: fs)
  rwa [show Fields.bits ((1, 0) :: fs) = 32 by simp only [Fields.bits, List.map_cons, List.sum_cons] at h ⊢; omega] at this

theorem fits_long_cons (fs : Fields) (h : Fields.bits fs = 62) :
    lengthOf (pack ((2, 3) :: fs)) = 8 ∧ Fits (pack ((2, 3) :: fs)) := by
  have h1 : pack ((2, 3) :: fs) % 4 = 3 := pack_cons_mod 2 3 fs
  have h2 : lengthOf (pack ((2, 3) :: fs)) = 8 := by unfold lengthOf; rw [if_neg (by omega), if_neg (by omega)]
  refine ⟨h2, ?_⟩
  unfold Fits
  rw [h2]
  have := pack_lt ((2, 3) :: fs)
  rwa [show Fields.bits ((2, 3) :: fs) = 64 by simp only [Fields.bits, List.map_cons, List.sum_cons] at h ⊢; omega] at this

theorem fits_half_cons (fs : Fields) (h : Fields.bits fs = 14) :
    lengthOf (pack ((2, 1) :: fs)) = 2 ∧ Fits (pack ((2, 1) :: fs)) := by
  have h1 : pack ((2, 1) :: fs) % 4 = 1 := pack_cons_mod 2 1 fs
  have h2 : lengthOf (pack ((2, 1) :: fs)) = 2 := by unfold lengthOf; rw [if_neg (by omega), if_pos h1]
  refine ⟨h2, ?_⟩
  unfold Fits
  rw [h2]
  have := pack_lt ((2, 1) :: fs)
  rwa [show Fields.bits ((2, 1) :: fs) = 16 by simp only [Fields.bits, List.map_cons, List.sum_cons] at h ⊢; omega] at this

theorem fits_word {l : Fields} (fs : Fields) (e : l = (1, 0) :: fs) (h : Fields.bits fs = 31) :
    lengthOf (pack l) = 4 ∧ Fits (pack l) := by rw [e]; exact fits_word_cons fs h

theorem fits_long {l : Fields} (fs : Fields) (e : l = (2, 3) :: fs) (h : Fields.bits fs = 62) :
    lengthOf (pack l) = 8 ∧ Fits (pack l) := by rw [e]; exact fits_long_cons fs h

theorem fits_half {l : Fields} (fs : Fields) (e : l = (2, 1) :: fs) (h : Fields.bits fs = 14) :
    lengthOf (pack l) = 2 ∧ Fits (pack l) := by rw [e]; exact fits_half_cons fs h

theorem Fields.bits_append (a b : Fields) : Fields.bits (a ++ b) = Fields.bits a + Fields.bits b := by
  simp [Fields.bits]

theorem fits_fieldsT (tmaj fn a b v w : Nat) (fv s c : Bool) {w1 : Fields} (h : Fields.bits w1 = 32) :
    lengthOf (pack (fieldsT tmaj fn a b v w fv s c w1)) = 8 ∧ Fits (pack (fieldsT tmaj fn a b v w fv s c w1)) := by
  refine fits_long ([(5, tmaj), (3, fn), (5, a), (5, b), (5, v), (3, w), (1, flag fv), (1, flag s), (1, flag c), (1, 0)] ++ w1)
    rfl ?_
  rw [Fields.bits_append, h]
  rfl

/-- Bytes of an instruction that enters the VIQ. -/
def VInstr.bytes : VInstr → Nat
  | .mtld _ | .mrow _ | .maclr _ | .mard _ | .mawr _ | .mast _ | .lacfg _ | .laeval _ | .lavote _ | .latrain _ | .lafb _
  | .lastl _ | .lasts _ | .latbl _ | .laseed _ => 8
  | _ => 4

theorem VInstr.fits_fields (v : VInstr) : lengthOf (pack v.fields) = v.bytes ∧ Fits (pack v.fields) := by
  cases v with
  | v _ _ => exact fits_word _ rfl rfl
  | vm _ _ => exact fits_word _ rfl rfl
  | mtld _ => exact fits_fieldsT _ _ _ _ _ _ _ _ _ rfl
  | mrow _ => exact fits_fieldsT _ _ _ _ _ _ _ _ _ rfl
  | maclr _ => exact fits_fieldsT _ _ _ _ _ _ _ _ _ rfl
  | mard _ => exact fits_fieldsT _ _ _ _ _ _ _ _ _ rfl
  | mawr _ => exact fits_fieldsT _ _ _ _ _ _ _ _ _ rfl
  | mast _ => exact fits_fieldsT _ _ _ _ _ _ _ _ _ rfl
  | lacfg _ => exact fits_fieldsT _ _ _ _ _ _ _ _ _ rfl
  | laeval _ => exact fits_fieldsT _ _ _ _ _ _ _ _ _ rfl
  | lavote _ => exact fits_fieldsT _ _ _ _ _ _ _ _ _ rfl
  | latrain _ => exact fits_fieldsT _ _ _ _ _ _ _ _ _ rfl
  | lafb _ => exact fits_fieldsT _ _ _ _ _ _ _ _ _ rfl
  | lastl _ => exact fits_fieldsT _ _ _ _ _ _ _ _ _ rfl
  | lasts _ => exact fits_fieldsT _ _ _ _ _ _ _ _ _ rfl
  | latbl _ => exact fits_fieldsT _ _ _ _ _ _ _ _ _ rfl
  | laseed _ => exact fits_fieldsT _ _ _ _ _ _ _ _ _ rfl
  | vlsync => exact fits_word _ rfl rfl
  | lafence _ => exact fits_word _ rfl rfl
  | tlbinv _ => exact fits_word _ rfl rfl
  | efence _ => exact fits_word _ rfl rfl
  | setvli _ => exact fits_word _ rfl rfl
  | setvl _ => exact fits_word _ rfl rfl
  | enq _ => exact fits_word _ rfl rfl
  | restvq _ => exact fits_word _ rfl rfl

theorem VOpc.toV_toInstr (op : VOpc) (o : VOp) : (op.toInstr o).toV = some (.v op o) := by cases op <;> rfl

theorem VMOpc.toV_toInstr (op : VMOpc) (o : VMOp) : (op.toInstr o).toV = some (.vm op o) := by cases op <;> rfl

theorem VInstr.toV_toInstr (v : VInstr) : v.toInstr.toV = some v := by
  cases v <;> first
    | exact VOpc.toV_toInstr _ _
    | exact VMOpc.toV_toInstr _ _
    | rfl

/-- The encoding of an instruction that enters the VIQ. -/
theorem VInstr.encode_toInstr (v : VInstr) : encode v.toInstr = some (pack v.fields) := by
  unfold encode encFields
  rw [VInstr.toV_toInstr]
  rfl

/-- Its length. -/
theorem VInstr.instrLen_toInstr (v : VInstr) : instrLen v.toInstr = v.bytes := by
  unfold instrLen
  rw [VInstr.encode_toInstr]
  exact v.fits_fields.1

end Sys2Proof
end

