-- ==== Sys2Proof/Laws/State.lean ====
section
/-! SUPPORT. What the small updates of State leave and what they set, field by field: every lemma is true by unfolding
one record update, so that no later proof unfolds one. -/

namespace Sys2Proof.Machine


/-! ### State.onHart -/

@[simp] theorem State.onHart_hart (s : State) (f : Hart → Hart) : (s.onHart f).hart = f s.hart := rfl
@[simp] theorem State.onHart_others (s : State) (f : Hart → Hart) : (s.onHart f).others = s.others := rfl
@[simp] theorem State.onHart_agenda (s : State) (f : Hart → Hart) : (s.onHart f).agenda = s.agenda := rfl
@[simp] theorem State.onHart_mem (s : State) (f : Hart → Hart) : (s.onHart f).mem = s.mem := rfl
@[simp] theorem State.onHart_acc (s : State) (f : Hart → Hart) : (s.onHart f).acc = s.acc := rfl
@[simp] theorem State.onHart_slots (s : State) (f : Hart → Hart) : (s.onHart f).slots = s.slots := rfl
@[simp] theorem State.onHart_cells (s : State) (f : Hart → Hart) : (s.onHart f).cells = s.cells := rfl
@[simp] theorem State.onHart_nor (s : State) (f : Hart → Hart) : (s.onHart f).nor = s.nor := rfl
@[simp] theorem State.onHart_ctl (s : State) (f : Hart → Hart) : (s.onHart f).ctl = s.ctl := rfl
@[simp] theorem State.onHart_cores (s : State) (f : Hart → Hart) : (s.onHart f).cores = s.cores := rfl
@[simp] theorem State.onHart_clusters (s : State) (f : Hart → Hart) : (s.onHart f).clusters = s.clusters := rfl
@[simp] theorem State.onHart_pkgSecure (s : State) (f : Hart → Hart) : (s.onHart f).pkgSecure = s.pkgSecure := rfl
@[simp] theorem State.onHart_engSecure (s : State) (f : Hart → Hart) : (s.onHart f).engSecure = s.engSecure := rfl
@[simp] theorem State.onHart_mruSecure (s : State) (f : Hart → Hart) : (s.onHart f).mruSecure = s.mruSecure := rfl
@[simp] theorem State.onHart_slotRecs (s : State) (f : Hart → Hart) : (s.onHart f).slotRecs = s.slotRecs := rfl
@[simp] theorem State.onHart_reserved (s : State) (f : Hart → Hart) : (s.onHart f).reserved = s.reserved := rfl
@[simp] theorem State.onHart_running (s : State) (f : Hart → Hart) : (s.onHart f).running = s.running := rfl
@[simp] theorem State.onHart_owned (s : State) (f : Hart → Hart) : (s.onHart f).owned = s.owned := rfl
@[simp] theorem State.onHart_recalled (s : State) (f : Hart → Hart) : (s.onHart f).recalled = s.recalled := rfl
@[simp] theorem State.onHart_helm (s : State) (f : Hart → Hart) : (s.onHart f).helm = s.helm := rfl
@[simp] theorem State.onHart_host (s : State) (f : Hart → Hart) : (s.onHart f).host = s.host := rfl
@[simp] theorem State.onHart_wrg (s : State) (f : Hart → Hart) : (s.onHart f).wrg = s.wrg := rfl
@[simp] theorem State.onHart_links (s : State) (f : Hart → Hart) : (s.onHart f).links = s.links := rfl
@[simp] theorem State.onHart_messages (s : State) (f : Hart → Hart) : (s.onHart f).messages = s.messages := rfl
@[simp] theorem State.onHart_ringCount (s : State) (f : Hart → Hart) : (s.onHart f).ringCount = s.ringCount := rfl
@[simp] theorem State.onHart_softerr (s : State) (f : Hart → Hart) : (s.onHart f).softerr = s.softerr := rfl
@[simp] theorem State.onHart_migfreeze (s : State) (f : Hart → Hart) : (s.onHart f).migfreeze = s.migfreeze := rfl
@[simp] theorem State.onHart_time (s : State) (f : Hart → Hart) : (s.onHart f).time = s.time := rfl
@[simp] theorem State.onHart_powered (s : State) (f : Hart → Hart) : (s.onHart f).powered = s.powered := rfl
@[simp] theorem State.onHart_cutOff (s : State) (f : Hart → Hart) : (s.onHart f).cutOff = s.cutOff := rfl
@[simp] theorem State.onHart_hotDies (s : State) (f : Hart → Hart) : (s.onHart f).hotDies = s.hotDies := rfl
@[simp] theorem State.onHart_loose (s : State) (f : Hart → Hart) : (s.onHart f).loose = s.loose := rfl
@[simp] theorem State.onHart_fresh (s : State) (f : Hart → Hart) : (s.onHart f).fresh = s.fresh := rfl

/-! ### State.onCsr -/

@[simp] theorem State.onCsr_csr (s : State) (f : Csr → Csr) : (s.onCsr f).hart.csr = f s.hart.csr := rfl
@[simp] theorem State.onCsr_others (s : State) (f : Csr → Csr) : (s.onCsr f).others = s.others := rfl
@[simp] theorem State.onCsr_agenda (s : State) (f : Csr → Csr) : (s.onCsr f).agenda = s.agenda := rfl
@[simp] theorem State.onCsr_mem (s : State) (f : Csr → Csr) : (s.onCsr f).mem = s.mem := rfl
@[simp] theorem State.onCsr_acc (s : State) (f : Csr → Csr) : (s.onCsr f).acc = s.acc := rfl
@[simp] theorem State.onCsr_slots (s : State) (f : Csr → Csr) : (s.onCsr f).slots = s.slots := rfl
@[simp] theorem State.onCsr_cells (s : State) (f : Csr → Csr) : (s.onCsr f).cells = s.cells := rfl
@[simp] theorem State.onCsr_nor (s : State) (f : Csr → Csr) : (s.onCsr f).nor = s.nor := rfl
@[simp] theorem State.onCsr_ctl (s : State) (f : Csr → Csr) : (s.onCsr f).ctl = s.ctl := rfl
@[simp] theorem State.onCsr_cores (s : State) (f : Csr → Csr) : (s.onCsr f).cores = s.cores := rfl
@[simp] theorem State.onCsr_clusters (s : State) (f : Csr → Csr) : (s.onCsr f).clusters = s.clusters := rfl
@[simp] theorem State.onCsr_pkgSecure (s : State) (f : Csr → Csr) : (s.onCsr f).pkgSecure = s.pkgSecure := rfl
@[simp] theorem State.onCsr_engSecure (s : State) (f : Csr → Csr) : (s.onCsr f).engSecure = s.engSecure := rfl
@[simp] theorem State.onCsr_mruSecure (s : State) (f : Csr → Csr) : (s.onCsr f).mruSecure = s.mruSecure := rfl
@[simp] theorem State.onCsr_slotRecs (s : State) (f : Csr → Csr) : (s.onCsr f).slotRecs = s.slotRecs := rfl
@[simp] theorem State.onCsr_reserved (s : State) (f : Csr → Csr) : (s.onCsr f).reserved = s.reserved := rfl
@[simp] theorem State.onCsr_running (s : State) (f : Csr → Csr) : (s.onCsr f).running = s.running := rfl
@[simp] theorem State.onCsr_owned (s : State) (f : Csr → Csr) : (s.onCsr f).owned = s.owned := rfl
@[simp] theorem State.onCsr_recalled (s : State) (f : Csr → Csr) : (s.onCsr f).recalled = s.recalled := rfl
@[simp] theorem State.onCsr_helm (s : State) (f : Csr → Csr) : (s.onCsr f).helm = s.helm := rfl
@[simp] theorem State.onCsr_host (s : State) (f : Csr → Csr) : (s.onCsr f).host = s.host := rfl
@[simp] theorem State.onCsr_wrg (s : State) (f : Csr → Csr) : (s.onCsr f).wrg = s.wrg := rfl
@[simp] theorem State.onCsr_links (s : State) (f : Csr → Csr) : (s.onCsr f).links = s.links := rfl
@[simp] theorem State.onCsr_messages (s : State) (f : Csr → Csr) : (s.onCsr f).messages = s.messages := rfl
@[simp] theorem State.onCsr_ringCount (s : State) (f : Csr → Csr) : (s.onCsr f).ringCount = s.ringCount := rfl
@[simp] theorem State.onCsr_softerr (s : State) (f : Csr → Csr) : (s.onCsr f).softerr = s.softerr := rfl
@[simp] theorem State.onCsr_migfreeze (s : State) (f : Csr → Csr) : (s.onCsr f).migfreeze = s.migfreeze := rfl
@[simp] theorem State.onCsr_time (s : State) (f : Csr → Csr) : (s.onCsr f).time = s.time := rfl
@[simp] theorem State.onCsr_powered (s : State) (f : Csr → Csr) : (s.onCsr f).powered = s.powered := rfl
@[simp] theorem State.onCsr_cutOff (s : State) (f : Csr → Csr) : (s.onCsr f).cutOff = s.cutOff := rfl
@[simp] theorem State.onCsr_hotDies (s : State) (f : Csr → Csr) : (s.onCsr f).hotDies = s.hotDies := rfl
@[simp] theorem State.onCsr_loose (s : State) (f : Csr → Csr) : (s.onCsr f).loose = s.loose := rfl
@[simp] theorem State.onCsr_fresh (s : State) (f : Csr → Csr) : (s.onCsr f).fresh = s.fresh := rfl
@[simp] theorem State.onCsr_hart_pc (s : State) (f : Csr → Csr) : (s.onCsr f).hart.pc = s.hart.pc := rfl
@[simp] theorem State.onCsr_hart_g (s : State) (f : Csr → Csr) : (s.onCsr f).hart.g = s.hart.g := rfl
@[simp] theorem State.onCsr_hart_v (s : State) (f : Csr → Csr) : (s.onCsr f).hart.v = s.hart.v := rfl
@[simp] theorem State.onCsr_hart_w (s : State) (f : Csr → Csr) : (s.onCsr f).hart.w = s.hart.w := rfl
@[simp] theorem State.onCsr_hart_k (s : State) (f : Csr → Csr) : (s.onCsr f).hart.k = s.hart.k := rfl
@[simp] theorem State.onCsr_hart_sbuf (s : State) (f : Csr → Csr) : (s.onCsr f).hart.sbuf = s.hart.sbuf := rfl
@[simp] theorem State.onCsr_hart_vfull (s : State) (f : Csr → Csr) : (s.onCsr f).hart.vfull = s.hart.vfull := rfl
@[simp] theorem State.onCsr_hart_wfull (s : State) (f : Csr → Csr) : (s.onCsr f).hart.wfull = s.hart.wfull := rfl
@[simp] theorem State.onCsr_hart_rstack (s : State) (f : Csr → Csr) : (s.onCsr f).hart.rstack = s.hart.rstack := rfl
@[simp] theorem State.onCsr_hart_trapVtype (s : State) (f : Csr → Csr) : (s.onCsr f).hart.trapVtype = s.hart.trapVtype := rfl
@[simp] theorem State.onCsr_hart_strip (s : State) (f : Csr → Csr) : (s.onCsr f).hart.strip = s.hart.strip := rfl
@[simp] theorem State.onCsr_hart_run (s : State) (f : Csr → Csr) : (s.onCsr f).hart.run = s.hart.run := rfl
@[simp] theorem State.onCsr_hart_viq (s : State) (f : Csr → Csr) : (s.onCsr f).hart.viq = s.hart.viq := rfl
@[simp] theorem State.onCsr_hart_pend (s : State) (f : Csr → Csr) : (s.onCsr f).hart.pend = s.hart.pend := rfl
@[simp] theorem State.onCsr_hart_grantedVl (s : State) (f : Csr → Csr) : (s.onCsr f).hart.grantedVl = s.hart.grantedVl := rfl
@[simp] theorem State.onCsr_hart_groups (s : State) (f : Csr → Csr) : (s.onCsr f).hart.groups = s.hart.groups := rfl
@[simp] theorem State.onCsr_hart_tiles (s : State) (f : Csr → Csr) : (s.onCsr f).hart.tiles = s.hart.tiles := rfl
@[simp] theorem State.onCsr_hart_frozen (s : State) (f : Csr → Csr) : (s.onCsr f).hart.frozen = s.hart.frozen := rfl
@[simp] theorem State.onCsr_hart_headTrapped (s : State) (f : Csr → Csr) : (s.onCsr f).hart.headTrapped = s.hart.headTrapped := rfl
@[simp] theorem State.onCsr_hart_mask (s : State) (f : Csr → Csr) : (s.onCsr f).hart.mask = s.hart.mask := rfl
@[simp] theorem State.onCsr_hart_maskValid (s : State) (f : Csr → Csr) : (s.onCsr f).hart.maskValid = s.hart.maskValid := rfl
@[simp] theorem State.onCsr_hart_watchHit (s : State) (f : Csr → Csr) : (s.onCsr f).hart.watchHit = s.hart.watchHit := rfl
@[simp] theorem State.onCsr_hart_convoy (s : State) (f : Csr → Csr) : (s.onCsr f).hart.convoy = s.hart.convoy := rfl
@[simp] theorem State.onCsr_hart_gone (s : State) (f : Csr → Csr) : (s.onCsr f).hart.gone = s.hart.gone := rfl
@[simp] theorem State.onCsr_hart_filling (s : State) (f : Csr → Csr) : (s.onCsr f).hart.filling = s.hart.filling := rfl
@[simp] theorem State.onCsr_hart_replay (s : State) (f : Csr → Csr) : (s.onCsr f).hart.replay = s.hart.replay := rfl
@[simp] theorem State.onCsr_hart_late (s : State) (f : Csr → Csr) : (s.onCsr f).hart.late = s.hart.late := rfl
@[simp] theorem State.onCsr_hart_idleTo (s : State) (f : Csr → Csr) : (s.onCsr f).hart.idleTo = s.hart.idleTo := rfl
@[simp] theorem State.onCsr_hart_waitEv (s : State) (f : Csr → Csr) : (s.onCsr f).hart.waitEv = s.hart.waitEv := rfl
@[simp] theorem State.onCsr_hart_vgap (s : State) (f : Csr → Csr) : (s.onCsr f).hart.vgap = s.hart.vgap := rfl
@[simp] theorem State.onCsr_hart_monitor (s : State) (f : Csr → Csr) : (s.onCsr f).hart.monitor = s.hart.monitor := rfl
@[simp] theorem State.onCsr_hart_monitorHit (s : State) (f : Csr → Csr) : (s.onCsr f).hart.monitorHit = s.hart.monitorHit := rfl
@[simp] theorem State.onCsr_hart_pendMchkUnmasked (s : State) (f : Csr → Csr) : (s.onCsr f).hart.pendMchkUnmasked = s.hart.pendMchkUnmasked := rfl
@[simp] theorem State.onCsr_hart_pendMchk (s : State) (f : Csr → Csr) : (s.onCsr f).hart.pendMchk = s.hart.pendMchk := rfl
@[simp] theorem State.onCsr_hart_pendPreempt (s : State) (f : Csr → Csr) : (s.onCsr f).hart.pendPreempt = s.hart.pendPreempt := rfl
@[simp] theorem State.onCsr_hart_pendNotify (s : State) (f : Csr → Csr) : (s.onCsr f).hart.pendNotify = s.hart.pendNotify := rfl
@[simp] theorem State.onCsr_hart_handlerEntry (s : State) (f : Csr → Csr) : (s.onCsr f).hart.handlerEntry = s.hart.handlerEntry := rfl
@[simp] theorem State.onCsr_hart_arrived (s : State) (f : Csr → Csr) : (s.onCsr f).hart.arrived = s.hart.arrived := rfl
@[simp] theorem State.onCsr_hart_episodeDone (s : State) (f : Csr → Csr) : (s.onCsr f).hart.episodeDone = s.hart.episodeDone := rfl
@[simp] theorem State.onCsr_hart_openStrip (s : State) (f : Csr → Csr) : (s.onCsr f).hart.openStrip = s.hart.openStrip := rfl
@[simp] theorem State.onCsr_hart_stripOut (s : State) (f : Csr → Csr) : (s.onCsr f).hart.stripOut = s.hart.stripOut := rfl
@[simp] theorem State.onCsr_hart_tagGap (s : State) (f : Csr → Csr) : (s.onCsr f).hart.tagGap = s.hart.tagGap := rfl
@[simp] theorem State.onCsr_hart_tagNext (s : State) (f : Csr → Csr) : (s.onCsr f).hart.tagNext = s.hart.tagNext := rfl
@[simp] theorem State.onCsr_hart_tag (s : State) (f : Csr → Csr) : (s.onCsr f).hart.tag = s.hart.tag := rfl
@[simp] theorem State.onCsr_hart_tagDone (s : State) (f : Csr → Csr) : (s.onCsr f).hart.tagDone = s.hart.tagDone := rfl
@[simp] theorem State.onCsr_hart_sSeen (s : State) (f : Csr → Csr) : (s.onCsr f).hart.sSeen = s.hart.sSeen := rfl
@[simp] theorem State.onCsr_hart_partition (s : State) (f : Csr → Csr) : (s.onCsr f).hart.partition = s.hart.partition := rfl
@[simp] theorem State.onCsr_hart_ptroot (s : State) (f : Csr → Csr) : (s.onCsr f).hart.ptroot = s.hart.ptroot := rfl
@[simp] theorem State.onCsr_hart_domain (s : State) (f : Csr → Csr) : (s.onCsr f).hart.domain = s.hart.domain := rfl
@[simp] theorem State.onCsr_hart_share (s : State) (f : Csr → Csr) : (s.onCsr f).hart.share = s.hart.share := rfl
@[simp] theorem State.onCsr_hart_prio (s : State) (f : Csr → Csr) : (s.onCsr f).hart.prio = s.hart.prio := rfl
@[simp] theorem State.onCsr_hart_region (s : State) (f : Csr → Csr) : (s.onCsr f).hart.region = s.hart.region := rfl
@[simp] theorem State.onCsr_hart_gang (s : State) (f : Csr → Csr) : (s.onCsr f).hart.gang = s.hart.gang := rfl
@[simp] theorem State.onCsr_hart_credit (s : State) (f : Csr → Csr) : (s.onCsr f).hart.credit = s.hart.credit := rfl
@[simp] theorem State.onCsr_hart_waits (s : State) (f : Csr → Csr) : (s.onCsr f).hart.waits = s.hart.waits := rfl
@[simp] theorem State.onCsr_hart_since (s : State) (f : Csr → Csr) : (s.onCsr f).hart.since = s.hart.since := rfl
@[simp] theorem State.onCsr_hart_used (s : State) (f : Csr → Csr) : (s.onCsr f).hart.used = s.hart.used := rfl
@[simp] theorem State.onCsr_hart_usedSte (s : State) (f : Csr → Csr) : (s.onCsr f).hart.usedSte = s.hart.usedSte := rfl
@[simp] theorem State.onCsr_hart_granted (s : State) (f : Csr → Csr) : (s.onCsr f).hart.granted = s.hart.granted := rfl
@[simp] theorem State.onCsr_hart_relCap (s : State) (f : Csr → Csr) : (s.onCsr f).hart.relCap = s.hart.relCap := rfl
@[simp] theorem State.onCsr_hart_relAt (s : State) (f : Csr → Csr) : (s.onCsr f).hart.relAt = s.hart.relAt := rfl

/-! ### State.onStatus -/

theorem State.onStatus_eq (s : State) (f : Status → Status) :
    s.onStatus f = s.onCsr fun c => { c with status := f c.status } := rfl
@[simp] theorem State.onStatus_status (s : State) (f : Status → Status) :
    (s.onStatus f).hart.csr.status = f s.hart.csr.status := rfl
@[simp] theorem State.onStatus_vl (s : State) (f : Status → Status) :
    (s.onStatus f).hart.csr.vl = s.hart.csr.vl := rfl
@[simp] theorem State.onStatus_vtype (s : State) (f : Status → Status) :
    (s.onStatus f).hart.csr.vtype = s.hart.csr.vtype := rfl
@[simp] theorem State.onStatus_vstart (s : State) (f : Status → Status) :
    (s.onStatus f).hart.csr.vstart = s.hart.csr.vstart := rfl
@[simp] theorem State.onStatus_vlr (s : State) (f : Status → Status) :
    (s.onStatus f).hart.csr.vlr = s.hart.csr.vlr := rfl
@[simp] theorem State.onStatus_thr (s : State) (f : Status → Status) :
    (s.onStatus f).hart.csr.thr = s.hart.csr.thr := rfl
@[simp] theorem State.onStatus_fracctl (s : State) (f : Status → Status) :
    (s.onStatus f).hart.csr.fracctl = s.hart.csr.fracctl := rfl
@[simp] theorem State.onStatus_demoted (s : State) (f : Status → Status) :
    (s.onStatus f).hart.csr.demoted = s.hart.csr.demoted := rfl
@[simp] theorem State.onStatus_firstdem (s : State) (f : Status → Status) :
    (s.onStatus f).hart.csr.firstdem = s.hart.csr.firstdem := rfl
@[simp] theorem State.onStatus_vdirty (s : State) (f : Status → Status) :
    (s.onStatus f).hart.csr.vdirty = s.hart.csr.vdirty := rfl
@[simp] theorem State.onStatus_fcsr (s : State) (f : Status → Status) :
    (s.onStatus f).hart.csr.fcsr = s.hart.csr.fcsr := rfl
@[simp] theorem State.onStatus_fflags (s : State) (f : Status → Status) :
    (s.onStatus f).hart.csr.fflags = s.hart.csr.fflags := rfl
@[simp] theorem State.onStatus_iflags (s : State) (f : Status → Status) :
    (s.onStatus f).hart.csr.iflags = s.hart.csr.iflags := rfl
@[simp] theorem State.onStatus_firstx (s : State) (f : Status → Status) :
    (s.onStatus f).hart.csr.firstx = s.hart.csr.firstx := rfl
@[simp] theorem State.onStatus_firstxi (s : State) (f : Status → Status) :
    (s.onStatus f).hart.csr.firstxi = s.hart.csr.firstxi := rfl
@[simp] theorem State.onStatus_rasp (s : State) (f : Status → Status) :
    (s.onStatus f).hart.csr.rasp = s.hart.csr.rasp := rfl
@[simp] theorem State.onStatus_rasl (s : State) (f : Status → Status) :
    (s.onStatus f).hart.csr.rasl = s.hart.csr.rasl := rfl
@[simp] theorem State.onStatus_spill (s : State) (f : Status → Status) :
    (s.onStatus f).hart.csr.spill = s.hart.csr.spill := rfl
@[simp] theorem State.onStatus_hartid (s : State) (f : Status → Status) :
    (s.onStatus f).hart.csr.hartid = s.hart.csr.hartid := rfl
@[simp] theorem State.onStatus_rank (s : State) (f : Status → Status) :
    (s.onStatus f).hart.csr.rank = s.hart.csr.rank := rfl
@[simp] theorem State.onStatus_gangsz (s : State) (f : Status → Status) :
    (s.onStatus f).hart.csr.gangsz = s.hart.csr.gangsz := rfl
@[simp] theorem State.onStatus_evsel (s : State) (f : Status → Status) :
    (s.onStatus f).hart.csr.evsel = s.hart.csr.evsel := rfl
@[simp] theorem State.onStatus_evcnt (s : State) (f : Status → Status) :
    (s.onStatus f).hart.csr.evcnt = s.hart.csr.evcnt := rfl
@[simp] theorem State.onStatus_tvec (s : State) (f : Status → Status) :
    (s.onStatus f).hart.csr.tvec = s.hart.csr.tvec := rfl
@[simp] theorem State.onStatus_epc (s : State) (f : Status → Status) :
    (s.onStatus f).hart.csr.epc = s.hart.csr.epc := rfl
@[simp] theorem State.onStatus_cause (s : State) (f : Status → Status) :
    (s.onStatus f).hart.csr.cause = s.hart.csr.cause := rfl
@[simp] theorem State.onStatus_tval (s : State) (f : Status → Status) :
    (s.onStatus f).hart.csr.tval = s.hart.csr.tval := rfl
@[simp] theorem State.onStatus_taux (s : State) (f : Status → Status) :
    (s.onStatus f).hart.csr.taux = s.hart.csr.taux := rfl
@[simp] theorem State.onStatus_qs (s : State) (f : Status → Status) :
    (s.onStatus f).hart.csr.qs = s.hart.csr.qs := rfl
@[simp] theorem State.onStatus_striplog (s : State) (f : Status → Status) :
    (s.onStatus f).hart.csr.striplog = s.hart.csr.striplog := rfl
@[simp] theorem State.onStatus_sampctl (s : State) (f : Status → Status) :
    (s.onStatus f).hart.csr.sampctl = s.hart.csr.sampctl := rfl

/-! ### State.setPc and State.advance -/

@[simp] theorem State.setPc_pc (s : State) (x : Word) : (s.setPc x).hart.pc = x := rfl
@[simp] theorem State.setPc_others (s : State) (x : Word) : (s.setPc x).others = s.others := rfl
@[simp] theorem State.setPc_agenda (s : State) (x : Word) : (s.setPc x).agenda = s.agenda := rfl
@[simp] theorem State.setPc_mem (s : State) (x : Word) : (s.setPc x).mem = s.mem := rfl
@[simp] theorem State.setPc_acc (s : State) (x : Word) : (s.setPc x).acc = s.acc := rfl
@[simp] theorem State.setPc_slots (s : State) (x : Word) : (s.setPc x).slots = s.slots := rfl
@[simp] theorem State.setPc_cells (s : State) (x : Word) : (s.setPc x).cells = s.cells := rfl
@[simp] theorem State.setPc_nor (s : State) (x : Word) : (s.setPc x).nor = s.nor := rfl
@[simp] theorem State.setPc_ctl (s : State) (x : Word) : (s.setPc x).ctl = s.ctl := rfl
@[simp] theorem State.setPc_cores (s : State) (x : Word) : (s.setPc x).cores = s.cores := rfl
@[simp] theorem State.setPc_clusters (s : State) (x : Word) : (s.setPc x).clusters = s.clusters := rfl
@[simp] theorem State.setPc_pkgSecure (s : State) (x : Word) : (s.setPc x).pkgSecure = s.pkgSecure := rfl
@[simp] theorem State.setPc_engSecure (s : State) (x : Word) : (s.setPc x).engSecure = s.engSecure := rfl
@[simp] theorem State.setPc_mruSecure (s : State) (x : Word) : (s.setPc x).mruSecure = s.mruSecure := rfl
@[simp] theorem State.setPc_slotRecs (s : State) (x : Word) : (s.setPc x).slotRecs = s.slotRecs := rfl
@[simp] theorem State.setPc_reserved (s : State) (x : Word) : (s.setPc x).reserved = s.reserved := rfl
@[simp] theorem State.setPc_running (s : State) (x : Word) : (s.setPc x).running = s.running := rfl
@[simp] theorem State.setPc_owned (s : State) (x : Word) : (s.setPc x).owned = s.owned := rfl
@[simp] theorem State.setPc_recalled (s : State) (x : Word) : (s.setPc x).recalled = s.recalled := rfl
@[simp] theorem State.setPc_helm (s : State) (x : Word) : (s.setPc x).helm = s.helm := rfl
@[simp] theorem State.setPc_host (s : State) (x : Word) : (s.setPc x).host = s.host := rfl
@[simp] theorem State.setPc_wrg (s : State) (x : Word) : (s.setPc x).wrg = s.wrg := rfl
@[simp] theorem State.setPc_links (s : State) (x : Word) : (s.setPc x).links = s.links := rfl
@[simp] theorem State.setPc_messages (s : State) (x : Word) : (s.setPc x).messages = s.messages := rfl
@[simp] theorem State.setPc_ringCount (s : State) (x : Word) : (s.setPc x).ringCount = s.ringCount := rfl
@[simp] theorem State.setPc_softerr (s : State) (x : Word) : (s.setPc x).softerr = s.softerr := rfl
@[simp] theorem State.setPc_migfreeze (s : State) (x : Word) : (s.setPc x).migfreeze = s.migfreeze := rfl
@[simp] theorem State.setPc_time (s : State) (x : Word) : (s.setPc x).time = s.time := rfl
@[simp] theorem State.setPc_powered (s : State) (x : Word) : (s.setPc x).powered = s.powered := rfl
@[simp] theorem State.setPc_cutOff (s : State) (x : Word) : (s.setPc x).cutOff = s.cutOff := rfl
@[simp] theorem State.setPc_hotDies (s : State) (x : Word) : (s.setPc x).hotDies = s.hotDies := rfl
@[simp] theorem State.setPc_loose (s : State) (x : Word) : (s.setPc x).loose = s.loose := rfl
@[simp] theorem State.setPc_fresh (s : State) (x : Word) : (s.setPc x).fresh = s.fresh := rfl
@[simp] theorem State.setPc_hart_g (s : State) (x : Word) : (s.setPc x).hart.g = s.hart.g := rfl
@[simp] theorem State.setPc_hart_v (s : State) (x : Word) : (s.setPc x).hart.v = s.hart.v := rfl
@[simp] theorem State.setPc_hart_w (s : State) (x : Word) : (s.setPc x).hart.w = s.hart.w := rfl
@[simp] theorem State.setPc_hart_k (s : State) (x : Word) : (s.setPc x).hart.k = s.hart.k := rfl
@[simp] theorem State.setPc_hart_sbuf (s : State) (x : Word) : (s.setPc x).hart.sbuf = s.hart.sbuf := rfl
@[simp] theorem State.setPc_hart_vfull (s : State) (x : Word) : (s.setPc x).hart.vfull = s.hart.vfull := rfl
@[simp] theorem State.setPc_hart_wfull (s : State) (x : Word) : (s.setPc x).hart.wfull = s.hart.wfull := rfl
@[simp] theorem State.setPc_hart_rstack (s : State) (x : Word) : (s.setPc x).hart.rstack = s.hart.rstack := rfl
@[simp] theorem State.setPc_hart_csr (s : State) (x : Word) : (s.setPc x).hart.csr = s.hart.csr := rfl
@[simp] theorem State.setPc_hart_trapVtype (s : State) (x : Word) : (s.setPc x).hart.trapVtype = s.hart.trapVtype := rfl
@[simp] theorem State.setPc_hart_strip (s : State) (x : Word) : (s.setPc x).hart.strip = s.hart.strip := rfl
@[simp] theorem State.setPc_hart_run (s : State) (x : Word) : (s.setPc x).hart.run = s.hart.run := rfl
@[simp] theorem State.setPc_hart_viq (s : State) (x : Word) : (s.setPc x).hart.viq = s.hart.viq := rfl
@[simp] theorem State.setPc_hart_pend (s : State) (x : Word) : (s.setPc x).hart.pend = s.hart.pend := rfl
@[simp] theorem State.setPc_hart_grantedVl (s : State) (x : Word) : (s.setPc x).hart.grantedVl = s.hart.grantedVl := rfl
@[simp] theorem State.setPc_hart_groups (s : State) (x : Word) : (s.setPc x).hart.groups = s.hart.groups := rfl
@[simp] theorem State.setPc_hart_tiles (s : State) (x : Word) : (s.setPc x).hart.tiles = s.hart.tiles := rfl
@[simp] theorem State.setPc_hart_frozen (s : State) (x : Word) : (s.setPc x).hart.frozen = s.hart.frozen := rfl
@[simp] theorem State.setPc_hart_headTrapped (s : State) (x : Word) : (s.setPc x).hart.headTrapped = s.hart.headTrapped := rfl
@[simp] theorem State.setPc_hart_mask (s : State) (x : Word) : (s.setPc x).hart.mask = s.hart.mask := rfl
@[simp] theorem State.setPc_hart_maskValid (s : State) (x : Word) : (s.setPc x).hart.maskValid = s.hart.maskValid := rfl
@[simp] theorem State.setPc_hart_watchHit (s : State) (x : Word) : (s.setPc x).hart.watchHit = s.hart.watchHit := rfl
@[simp] theorem State.setPc_hart_convoy (s : State) (x : Word) : (s.setPc x).hart.convoy = s.hart.convoy := rfl
@[simp] theorem State.setPc_hart_gone (s : State) (x : Word) : (s.setPc x).hart.gone = s.hart.gone := rfl
@[simp] theorem State.setPc_hart_filling (s : State) (x : Word) : (s.setPc x).hart.filling = s.hart.filling := rfl
@[simp] theorem State.setPc_hart_replay (s : State) (x : Word) : (s.setPc x).hart.replay = s.hart.replay := rfl
@[simp] theorem State.setPc_hart_late (s : State) (x : Word) : (s.setPc x).hart.late = s.hart.late := rfl
@[simp] theorem State.setPc_hart_idleTo (s : State) (x : Word) : (s.setPc x).hart.idleTo = s.hart.idleTo := rfl
@[simp] theorem State.setPc_hart_waitEv (s : State) (x : Word) : (s.setPc x).hart.waitEv = s.hart.waitEv := rfl
@[simp] theorem State.setPc_hart_vgap (s : State) (x : Word) : (s.setPc x).hart.vgap = s.hart.vgap := rfl
@[simp] theorem State.setPc_hart_monitor (s : State) (x : Word) : (s.setPc x).hart.monitor = s.hart.monitor := rfl
@[simp] theorem State.setPc_hart_monitorHit (s : State) (x : Word) : (s.setPc x).hart.monitorHit = s.hart.monitorHit := rfl
@[simp] theorem State.setPc_hart_pendMchkUnmasked (s : State) (x : Word) : (s.setPc x).hart.pendMchkUnmasked = s.hart.pendMchkUnmasked := rfl
@[simp] theorem State.setPc_hart_pendMchk (s : State) (x : Word) : (s.setPc x).hart.pendMchk = s.hart.pendMchk := rfl
@[simp] theorem State.setPc_hart_pendPreempt (s : State) (x : Word) : (s.setPc x).hart.pendPreempt = s.hart.pendPreempt := rfl
@[simp] theorem State.setPc_hart_pendNotify (s : State) (x : Word) : (s.setPc x).hart.pendNotify = s.hart.pendNotify := rfl
@[simp] theorem State.setPc_hart_handlerEntry (s : State) (x : Word) : (s.setPc x).hart.handlerEntry = s.hart.handlerEntry := rfl
@[simp] theorem State.setPc_hart_arrived (s : State) (x : Word) : (s.setPc x).hart.arrived = s.hart.arrived := rfl
@[simp] theorem State.setPc_hart_episodeDone (s : State) (x : Word) : (s.setPc x).hart.episodeDone = s.hart.episodeDone := rfl
@[simp] theorem State.setPc_hart_openStrip (s : State) (x : Word) : (s.setPc x).hart.openStrip = s.hart.openStrip := rfl
@[simp] theorem State.setPc_hart_stripOut (s : State) (x : Word) : (s.setPc x).hart.stripOut = s.hart.stripOut := rfl
@[simp] theorem State.setPc_hart_tagGap (s : State) (x : Word) : (s.setPc x).hart.tagGap = s.hart.tagGap := rfl
@[simp] theorem State.setPc_hart_tagNext (s : State) (x : Word) : (s.setPc x).hart.tagNext = s.hart.tagNext := rfl
@[simp] theorem State.setPc_hart_tag (s : State) (x : Word) : (s.setPc x).hart.tag = s.hart.tag := rfl
@[simp] theorem State.setPc_hart_tagDone (s : State) (x : Word) : (s.setPc x).hart.tagDone = s.hart.tagDone := rfl
@[simp] theorem State.setPc_hart_sSeen (s : State) (x : Word) : (s.setPc x).hart.sSeen = s.hart.sSeen := rfl
@[simp] theorem State.setPc_hart_partition (s : State) (x : Word) : (s.setPc x).hart.partition = s.hart.partition := rfl
@[simp] theorem State.setPc_hart_ptroot (s : State) (x : Word) : (s.setPc x).hart.ptroot = s.hart.ptroot := rfl
@[simp] theorem State.setPc_hart_domain (s : State) (x : Word) : (s.setPc x).hart.domain = s.hart.domain := rfl
@[simp] theorem State.setPc_hart_share (s : State) (x : Word) : (s.setPc x).hart.share = s.hart.share := rfl
@[simp] theorem State.setPc_hart_prio (s : State) (x : Word) : (s.setPc x).hart.prio = s.hart.prio := rfl
@[simp] theorem State.setPc_hart_region (s : State) (x : Word) : (s.setPc x).hart.region = s.hart.region := rfl
@[simp] theorem State.setPc_hart_gang (s : State) (x : Word) : (s.setPc x).hart.gang = s.hart.gang := rfl
@[simp] theorem State.setPc_hart_credit (s : State) (x : Word) : (s.setPc x).hart.credit = s.hart.credit := rfl
@[simp] theorem State.setPc_hart_waits (s : State) (x : Word) : (s.setPc x).hart.waits = s.hart.waits := rfl
@[simp] theorem State.setPc_hart_since (s : State) (x : Word) : (s.setPc x).hart.since = s.hart.since := rfl
@[simp] theorem State.setPc_hart_used (s : State) (x : Word) : (s.setPc x).hart.used = s.hart.used := rfl
@[simp] theorem State.setPc_hart_usedSte (s : State) (x : Word) : (s.setPc x).hart.usedSte = s.hart.usedSte := rfl
@[simp] theorem State.setPc_hart_granted (s : State) (x : Word) : (s.setPc x).hart.granted = s.hart.granted := rfl
@[simp] theorem State.setPc_hart_relCap (s : State) (x : Word) : (s.setPc x).hart.relCap = s.hart.relCap := rfl
@[simp] theorem State.setPc_hart_relAt (s : State) (x : Word) : (s.setPc x).hart.relAt = s.hart.relAt := rfl
@[simp] theorem State.advance_pc (s : State) (n : Nat) : (s.advance n).hart.pc = s.hart.pc + BitVec.ofNat 64 n := rfl
@[simp] theorem State.advance_others (s : State) (n : Nat) : (s.advance n).others = s.others := rfl
@[simp] theorem State.advance_agenda (s : State) (n : Nat) : (s.advance n).agenda = s.agenda := rfl
@[simp] theorem State.advance_mem (s : State) (n : Nat) : (s.advance n).mem = s.mem := rfl
@[simp] theorem State.advance_acc (s : State) (n : Nat) : (s.advance n).acc = s.acc := rfl
@[simp] theorem State.advance_slots (s : State) (n : Nat) : (s.advance n).slots = s.slots := rfl
@[simp] theorem State.advance_cells (s : State) (n : Nat) : (s.advance n).cells = s.cells := rfl
@[simp] theorem State.advance_nor (s : State) (n : Nat) : (s.advance n).nor = s.nor := rfl
@[simp] theorem State.advance_ctl (s : State) (n : Nat) : (s.advance n).ctl = s.ctl := rfl
@[simp] theorem State.advance_cores (s : State) (n : Nat) : (s.advance n).cores = s.cores := rfl
@[simp] theorem State.advance_clusters (s : State) (n : Nat) : (s.advance n).clusters = s.clusters := rfl
@[simp] theorem State.advance_pkgSecure (s : State) (n : Nat) : (s.advance n).pkgSecure = s.pkgSecure := rfl
@[simp] theorem State.advance_engSecure (s : State) (n : Nat) : (s.advance n).engSecure = s.engSecure := rfl
@[simp] theorem State.advance_mruSecure (s : State) (n : Nat) : (s.advance n).mruSecure = s.mruSecure := rfl
@[simp] theorem State.advance_slotRecs (s : State) (n : Nat) : (s.advance n).slotRecs = s.slotRecs := rfl
@[simp] theorem State.advance_reserved (s : State) (n : Nat) : (s.advance n).reserved = s.reserved := rfl
@[simp] theorem State.advance_running (s : State) (n : Nat) : (s.advance n).running = s.running := rfl
@[simp] theorem State.advance_owned (s : State) (n : Nat) : (s.advance n).owned = s.owned := rfl
@[simp] theorem State.advance_recalled (s : State) (n : Nat) : (s.advance n).recalled = s.recalled := rfl
@[simp] theorem State.advance_helm (s : State) (n : Nat) : (s.advance n).helm = s.helm := rfl
@[simp] theorem State.advance_host (s : State) (n : Nat) : (s.advance n).host = s.host := rfl
@[simp] theorem State.advance_wrg (s : State) (n : Nat) : (s.advance n).wrg = s.wrg := rfl
@[simp] theorem State.advance_links (s : State) (n : Nat) : (s.advance n).links = s.links := rfl
@[simp] theorem State.advance_messages (s : State) (n : Nat) : (s.advance n).messages = s.messages := rfl
@[simp] theorem State.advance_ringCount (s : State) (n : Nat) : (s.advance n).ringCount = s.ringCount := rfl
@[simp] theorem State.advance_softerr (s : State) (n : Nat) : (s.advance n).softerr = s.softerr := rfl
@[simp] theorem State.advance_migfreeze (s : State) (n : Nat) : (s.advance n).migfreeze = s.migfreeze := rfl
@[simp] theorem State.advance_time (s : State) (n : Nat) : (s.advance n).time = s.time := rfl
@[simp] theorem State.advance_powered (s : State) (n : Nat) : (s.advance n).powered = s.powered := rfl
@[simp] theorem State.advance_cutOff (s : State) (n : Nat) : (s.advance n).cutOff = s.cutOff := rfl
@[simp] theorem State.advance_hotDies (s : State) (n : Nat) : (s.advance n).hotDies = s.hotDies := rfl
@[simp] theorem State.advance_loose (s : State) (n : Nat) : (s.advance n).loose = s.loose := rfl
@[simp] theorem State.advance_fresh (s : State) (n : Nat) : (s.advance n).fresh = s.fresh := rfl
@[simp] theorem State.advance_hart_g (s : State) (n : Nat) : (s.advance n).hart.g = s.hart.g := rfl
@[simp] theorem State.advance_hart_v (s : State) (n : Nat) : (s.advance n).hart.v = s.hart.v := rfl
@[simp] theorem State.advance_hart_w (s : State) (n : Nat) : (s.advance n).hart.w = s.hart.w := rfl
@[simp] theorem State.advance_hart_k (s : State) (n : Nat) : (s.advance n).hart.k = s.hart.k := rfl
@[simp] theorem State.advance_hart_sbuf (s : State) (n : Nat) : (s.advance n).hart.sbuf = s.hart.sbuf := rfl
@[simp] theorem State.advance_hart_vfull (s : State) (n : Nat) : (s.advance n).hart.vfull = s.hart.vfull := rfl
@[simp] theorem State.advance_hart_wfull (s : State) (n : Nat) : (s.advance n).hart.wfull = s.hart.wfull := rfl
@[simp] theorem State.advance_hart_rstack (s : State) (n : Nat) : (s.advance n).hart.rstack = s.hart.rstack := rfl
@[simp] theorem State.advance_hart_csr (s : State) (n : Nat) : (s.advance n).hart.csr = s.hart.csr := rfl
@[simp] theorem State.advance_hart_trapVtype (s : State) (n : Nat) : (s.advance n).hart.trapVtype = s.hart.trapVtype := rfl
@[simp] theorem State.advance_hart_strip (s : State) (n : Nat) : (s.advance n).hart.strip = s.hart.strip := rfl
@[simp] theorem State.advance_hart_run (s : State) (n : Nat) : (s.advance n).hart.run = s.hart.run := rfl
@[simp] theorem State.advance_hart_viq (s : State) (n : Nat) : (s.advance n).hart.viq = s.hart.viq := rfl
@[simp] theorem State.advance_hart_pend (s : State) (n : Nat) : (s.advance n).hart.pend = s.hart.pend := rfl
@[simp] theorem State.advance_hart_grantedVl (s : State) (n : Nat) : (s.advance n).hart.grantedVl = s.hart.grantedVl := rfl
@[simp] theorem State.advance_hart_groups (s : State) (n : Nat) : (s.advance n).hart.groups = s.hart.groups := rfl
@[simp] theorem State.advance_hart_tiles (s : State) (n : Nat) : (s.advance n).hart.tiles = s.hart.tiles := rfl
@[simp] theorem State.advance_hart_frozen (s : State) (n : Nat) : (s.advance n).hart.frozen = s.hart.frozen := rfl
@[simp] theorem State.advance_hart_headTrapped (s : State) (n : Nat) : (s.advance n).hart.headTrapped = s.hart.headTrapped := rfl
@[simp] theorem State.advance_hart_mask (s : State) (n : Nat) : (s.advance n).hart.mask = s.hart.mask := rfl
@[simp] theorem State.advance_hart_maskValid (s : State) (n : Nat) : (s.advance n).hart.maskValid = s.hart.maskValid := rfl
@[simp] theorem State.advance_hart_watchHit (s : State) (n : Nat) : (s.advance n).hart.watchHit = s.hart.watchHit := rfl
@[simp] theorem State.advance_hart_convoy (s : State) (n : Nat) : (s.advance n).hart.convoy = s.hart.convoy := rfl
@[simp] theorem State.advance_hart_gone (s : State) (n : Nat) : (s.advance n).hart.gone = s.hart.gone := rfl
@[simp] theorem State.advance_hart_filling (s : State) (n : Nat) : (s.advance n).hart.filling = s.hart.filling := rfl
@[simp] theorem State.advance_hart_replay (s : State) (n : Nat) : (s.advance n).hart.replay = s.hart.replay := rfl
@[simp] theorem State.advance_hart_late (s : State) (n : Nat) : (s.advance n).hart.late = s.hart.late := rfl
@[simp] theorem State.advance_hart_idleTo (s : State) (n : Nat) : (s.advance n).hart.idleTo = s.hart.idleTo := rfl
@[simp] theorem State.advance_hart_waitEv (s : State) (n : Nat) : (s.advance n).hart.waitEv = s.hart.waitEv := rfl
@[simp] theorem State.advance_hart_vgap (s : State) (n : Nat) : (s.advance n).hart.vgap = s.hart.vgap := rfl
@[simp] theorem State.advance_hart_monitor (s : State) (n : Nat) : (s.advance n).hart.monitor = s.hart.monitor := rfl
@[simp] theorem State.advance_hart_monitorHit (s : State) (n : Nat) : (s.advance n).hart.monitorHit = s.hart.monitorHit := rfl
@[simp] theorem State.advance_hart_pendMchkUnmasked (s : State) (n : Nat) : (s.advance n).hart.pendMchkUnmasked = s.hart.pendMchkUnmasked := rfl
@[simp] theorem State.advance_hart_pendMchk (s : State) (n : Nat) : (s.advance n).hart.pendMchk = s.hart.pendMchk := rfl
@[simp] theorem State.advance_hart_pendPreempt (s : State) (n : Nat) : (s.advance n).hart.pendPreempt = s.hart.pendPreempt := rfl
@[simp] theorem State.advance_hart_pendNotify (s : State) (n : Nat) : (s.advance n).hart.pendNotify = s.hart.pendNotify := rfl
@[simp] theorem State.advance_hart_handlerEntry (s : State) (n : Nat) : (s.advance n).hart.handlerEntry = s.hart.handlerEntry := rfl
@[simp] theorem State.advance_hart_arrived (s : State) (n : Nat) : (s.advance n).hart.arrived = s.hart.arrived := rfl
@[simp] theorem State.advance_hart_episodeDone (s : State) (n : Nat) : (s.advance n).hart.episodeDone = s.hart.episodeDone := rfl
@[simp] theorem State.advance_hart_openStrip (s : State) (n : Nat) : (s.advance n).hart.openStrip = s.hart.openStrip := rfl
@[simp] theorem State.advance_hart_stripOut (s : State) (n : Nat) : (s.advance n).hart.stripOut = s.hart.stripOut := rfl
@[simp] theorem State.advance_hart_tagGap (s : State) (n : Nat) : (s.advance n).hart.tagGap = s.hart.tagGap := rfl
@[simp] theorem State.advance_hart_tagNext (s : State) (n : Nat) : (s.advance n).hart.tagNext = s.hart.tagNext := rfl
@[simp] theorem State.advance_hart_tag (s : State) (n : Nat) : (s.advance n).hart.tag = s.hart.tag := rfl
@[simp] theorem State.advance_hart_tagDone (s : State) (n : Nat) : (s.advance n).hart.tagDone = s.hart.tagDone := rfl
@[simp] theorem State.advance_hart_sSeen (s : State) (n : Nat) : (s.advance n).hart.sSeen = s.hart.sSeen := rfl
@[simp] theorem State.advance_hart_partition (s : State) (n : Nat) : (s.advance n).hart.partition = s.hart.partition := rfl
@[simp] theorem State.advance_hart_ptroot (s : State) (n : Nat) : (s.advance n).hart.ptroot = s.hart.ptroot := rfl
@[simp] theorem State.advance_hart_domain (s : State) (n : Nat) : (s.advance n).hart.domain = s.hart.domain := rfl
@[simp] theorem State.advance_hart_share (s : State) (n : Nat) : (s.advance n).hart.share = s.hart.share := rfl
@[simp] theorem State.advance_hart_prio (s : State) (n : Nat) : (s.advance n).hart.prio = s.hart.prio := rfl
@[simp] theorem State.advance_hart_region (s : State) (n : Nat) : (s.advance n).hart.region = s.hart.region := rfl
@[simp] theorem State.advance_hart_gang (s : State) (n : Nat) : (s.advance n).hart.gang = s.hart.gang := rfl
@[simp] theorem State.advance_hart_credit (s : State) (n : Nat) : (s.advance n).hart.credit = s.hart.credit := rfl
@[simp] theorem State.advance_hart_waits (s : State) (n : Nat) : (s.advance n).hart.waits = s.hart.waits := rfl
@[simp] theorem State.advance_hart_since (s : State) (n : Nat) : (s.advance n).hart.since = s.hart.since := rfl
@[simp] theorem State.advance_hart_used (s : State) (n : Nat) : (s.advance n).hart.used = s.hart.used := rfl
@[simp] theorem State.advance_hart_usedSte (s : State) (n : Nat) : (s.advance n).hart.usedSte = s.hart.usedSte := rfl
@[simp] theorem State.advance_hart_granted (s : State) (n : Nat) : (s.advance n).hart.granted = s.hart.granted := rfl
@[simp] theorem State.advance_hart_relCap (s : State) (n : Nat) : (s.advance n).hart.relCap = s.hart.relCap := rfl
@[simp] theorem State.advance_hart_relAt (s : State) (n : Nat) : (s.advance n).hart.relAt = s.hart.relAt := rfl

/-! ### State.setRun -/

@[simp] theorem State.setRun_run (s : State) (r : Run) : (s.setRun r).hart.run = r := rfl
@[simp] theorem State.setRun_others (s : State) (r : Run) : (s.setRun r).others = s.others := rfl
@[simp] theorem State.setRun_agenda (s : State) (r : Run) : (s.setRun r).agenda = s.agenda := rfl
@[simp] theorem State.setRun_mem (s : State) (r : Run) : (s.setRun r).mem = s.mem := rfl
@[simp] theorem State.setRun_acc (s : State) (r : Run) : (s.setRun r).acc = s.acc := rfl
@[simp] theorem State.setRun_slots (s : State) (r : Run) : (s.setRun r).slots = s.slots := rfl
@[simp] theorem State.setRun_cells (s : State) (r : Run) : (s.setRun r).cells = s.cells := rfl
@[simp] theorem State.setRun_nor (s : State) (r : Run) : (s.setRun r).nor = s.nor := rfl
@[simp] theorem State.setRun_ctl (s : State) (r : Run) : (s.setRun r).ctl = s.ctl := rfl
@[simp] theorem State.setRun_cores (s : State) (r : Run) : (s.setRun r).cores = s.cores := rfl
@[simp] theorem State.setRun_clusters (s : State) (r : Run) : (s.setRun r).clusters = s.clusters := rfl
@[simp] theorem State.setRun_pkgSecure (s : State) (r : Run) : (s.setRun r).pkgSecure = s.pkgSecure := rfl
@[simp] theorem State.setRun_engSecure (s : State) (r : Run) : (s.setRun r).engSecure = s.engSecure := rfl
@[simp] theorem State.setRun_mruSecure (s : State) (r : Run) : (s.setRun r).mruSecure = s.mruSecure := rfl
@[simp] theorem State.setRun_slotRecs (s : State) (r : Run) : (s.setRun r).slotRecs = s.slotRecs := rfl
@[simp] theorem State.setRun_reserved (s : State) (r : Run) : (s.setRun r).reserved = s.reserved := rfl
@[simp] theorem State.setRun_running (s : State) (r : Run) : (s.setRun r).running = s.running := rfl
@[simp] theorem State.setRun_owned (s : State) (r : Run) : (s.setRun r).owned = s.owned := rfl
@[simp] theorem State.setRun_recalled (s : State) (r : Run) : (s.setRun r).recalled = s.recalled := rfl
@[simp] theorem State.setRun_helm (s : State) (r : Run) : (s.setRun r).helm = s.helm := rfl
@[simp] theorem State.setRun_host (s : State) (r : Run) : (s.setRun r).host = s.host := rfl
@[simp] theorem State.setRun_wrg (s : State) (r : Run) : (s.setRun r).wrg = s.wrg := rfl
@[simp] theorem State.setRun_links (s : State) (r : Run) : (s.setRun r).links = s.links := rfl
@[simp] theorem State.setRun_messages (s : State) (r : Run) : (s.setRun r).messages = s.messages := rfl
@[simp] theorem State.setRun_ringCount (s : State) (r : Run) : (s.setRun r).ringCount = s.ringCount := rfl
@[simp] theorem State.setRun_softerr (s : State) (r : Run) : (s.setRun r).softerr = s.softerr := rfl
@[simp] theorem State.setRun_migfreeze (s : State) (r : Run) : (s.setRun r).migfreeze = s.migfreeze := rfl
@[simp] theorem State.setRun_time (s : State) (r : Run) : (s.setRun r).time = s.time := rfl
@[simp] theorem State.setRun_powered (s : State) (r : Run) : (s.setRun r).powered = s.powered := rfl
@[simp] theorem State.setRun_cutOff (s : State) (r : Run) : (s.setRun r).cutOff = s.cutOff := rfl
@[simp] theorem State.setRun_hotDies (s : State) (r : Run) : (s.setRun r).hotDies = s.hotDies := rfl
@[simp] theorem State.setRun_loose (s : State) (r : Run) : (s.setRun r).loose = s.loose := rfl
@[simp] theorem State.setRun_fresh (s : State) (r : Run) : (s.setRun r).fresh = s.fresh := rfl
@[simp] theorem State.setRun_hart_pc (s : State) (r : Run) : (s.setRun r).hart.pc = s.hart.pc := rfl
@[simp] theorem State.setRun_hart_g (s : State) (r : Run) : (s.setRun r).hart.g = s.hart.g := rfl
@[simp] theorem State.setRun_hart_v (s : State) (r : Run) : (s.setRun r).hart.v = s.hart.v := rfl
@[simp] theorem State.setRun_hart_w (s : State) (r : Run) : (s.setRun r).hart.w = s.hart.w := rfl
@[simp] theorem State.setRun_hart_k (s : State) (r : Run) : (s.setRun r).hart.k = s.hart.k := rfl
@[simp] theorem State.setRun_hart_sbuf (s : State) (r : Run) : (s.setRun r).hart.sbuf = s.hart.sbuf := rfl
@[simp] theorem State.setRun_hart_vfull (s : State) (r : Run) : (s.setRun r).hart.vfull = s.hart.vfull := rfl
@[simp] theorem State.setRun_hart_wfull (s : State) (r : Run) : (s.setRun r).hart.wfull = s.hart.wfull := rfl
@[simp] theorem State.setRun_hart_rstack (s : State) (r : Run) : (s.setRun r).hart.rstack = s.hart.rstack := rfl
@[simp] theorem State.setRun_hart_csr (s : State) (r : Run) : (s.setRun r).hart.csr = s.hart.csr := rfl
@[simp] theorem State.setRun_hart_trapVtype (s : State) (r : Run) : (s.setRun r).hart.trapVtype = s.hart.trapVtype := rfl
@[simp] theorem State.setRun_hart_strip (s : State) (r : Run) : (s.setRun r).hart.strip = s.hart.strip := rfl
@[simp] theorem State.setRun_hart_viq (s : State) (r : Run) : (s.setRun r).hart.viq = s.hart.viq := rfl
@[simp] theorem State.setRun_hart_pend (s : State) (r : Run) : (s.setRun r).hart.pend = s.hart.pend := rfl
@[simp] theorem State.setRun_hart_grantedVl (s : State) (r : Run) : (s.setRun r).hart.grantedVl = s.hart.grantedVl := rfl
@[simp] theorem State.setRun_hart_groups (s : State) (r : Run) : (s.setRun r).hart.groups = s.hart.groups := rfl
@[simp] theorem State.setRun_hart_tiles (s : State) (r : Run) : (s.setRun r).hart.tiles = s.hart.tiles := rfl
@[simp] theorem State.setRun_hart_frozen (s : State) (r : Run) : (s.setRun r).hart.frozen = s.hart.frozen := rfl
@[simp] theorem State.setRun_hart_headTrapped (s : State) (r : Run) : (s.setRun r).hart.headTrapped = s.hart.headTrapped := rfl
@[simp] theorem State.setRun_hart_mask (s : State) (r : Run) : (s.setRun r).hart.mask = s.hart.mask := rfl
@[simp] theorem State.setRun_hart_maskValid (s : State) (r : Run) : (s.setRun r).hart.maskValid = s.hart.maskValid := rfl
@[simp] theorem State.setRun_hart_watchHit (s : State) (r : Run) : (s.setRun r).hart.watchHit = s.hart.watchHit := rfl
@[simp] theorem State.setRun_hart_convoy (s : State) (r : Run) : (s.setRun r).hart.convoy = s.hart.convoy := rfl
@[simp] theorem State.setRun_hart_gone (s : State) (r : Run) : (s.setRun r).hart.gone = s.hart.gone := rfl
@[simp] theorem State.setRun_hart_filling (s : State) (r : Run) : (s.setRun r).hart.filling = s.hart.filling := rfl
@[simp] theorem State.setRun_hart_replay (s : State) (r : Run) : (s.setRun r).hart.replay = s.hart.replay := rfl
@[simp] theorem State.setRun_hart_late (s : State) (r : Run) : (s.setRun r).hart.late = s.hart.late := rfl
@[simp] theorem State.setRun_hart_idleTo (s : State) (r : Run) : (s.setRun r).hart.idleTo = s.hart.idleTo := rfl
@[simp] theorem State.setRun_hart_waitEv (s : State) (r : Run) : (s.setRun r).hart.waitEv = s.hart.waitEv := rfl
@[simp] theorem State.setRun_hart_vgap (s : State) (r : Run) : (s.setRun r).hart.vgap = s.hart.vgap := rfl
@[simp] theorem State.setRun_hart_monitor (s : State) (r : Run) : (s.setRun r).hart.monitor = s.hart.monitor := rfl
@[simp] theorem State.setRun_hart_monitorHit (s : State) (r : Run) : (s.setRun r).hart.monitorHit = s.hart.monitorHit := rfl
@[simp] theorem State.setRun_hart_pendMchkUnmasked (s : State) (r : Run) : (s.setRun r).hart.pendMchkUnmasked = s.hart.pendMchkUnmasked := rfl
@[simp] theorem State.setRun_hart_pendMchk (s : State) (r : Run) : (s.setRun r).hart.pendMchk = s.hart.pendMchk := rfl
@[simp] theorem State.setRun_hart_pendPreempt (s : State) (r : Run) : (s.setRun r).hart.pendPreempt = s.hart.pendPreempt := rfl
@[simp] theorem State.setRun_hart_pendNotify (s : State) (r : Run) : (s.setRun r).hart.pendNotify = s.hart.pendNotify := rfl
@[simp] theorem State.setRun_hart_handlerEntry (s : State) (r : Run) : (s.setRun r).hart.handlerEntry = s.hart.handlerEntry := rfl
@[simp] theorem State.setRun_hart_arrived (s : State) (r : Run) : (s.setRun r).hart.arrived = s.hart.arrived := rfl
@[simp] theorem State.setRun_hart_episodeDone (s : State) (r : Run) : (s.setRun r).hart.episodeDone = s.hart.episodeDone := rfl
@[simp] theorem State.setRun_hart_openStrip (s : State) (r : Run) : (s.setRun r).hart.openStrip = s.hart.openStrip := rfl
@[simp] theorem State.setRun_hart_stripOut (s : State) (r : Run) : (s.setRun r).hart.stripOut = s.hart.stripOut := rfl
@[simp] theorem State.setRun_hart_tagGap (s : State) (r : Run) : (s.setRun r).hart.tagGap = s.hart.tagGap := rfl
@[simp] theorem State.setRun_hart_tagNext (s : State) (r : Run) : (s.setRun r).hart.tagNext = s.hart.tagNext := rfl
@[simp] theorem State.setRun_hart_tag (s : State) (r : Run) : (s.setRun r).hart.tag = s.hart.tag := rfl
@[simp] theorem State.setRun_hart_tagDone (s : State) (r : Run) : (s.setRun r).hart.tagDone = s.hart.tagDone := rfl
@[simp] theorem State.setRun_hart_sSeen (s : State) (r : Run) : (s.setRun r).hart.sSeen = s.hart.sSeen := rfl
@[simp] theorem State.setRun_hart_partition (s : State) (r : Run) : (s.setRun r).hart.partition = s.hart.partition := rfl
@[simp] theorem State.setRun_hart_ptroot (s : State) (r : Run) : (s.setRun r).hart.ptroot = s.hart.ptroot := rfl
@[simp] theorem State.setRun_hart_domain (s : State) (r : Run) : (s.setRun r).hart.domain = s.hart.domain := rfl
@[simp] theorem State.setRun_hart_share (s : State) (r : Run) : (s.setRun r).hart.share = s.hart.share := rfl
@[simp] theorem State.setRun_hart_prio (s : State) (r : Run) : (s.setRun r).hart.prio = s.hart.prio := rfl
@[simp] theorem State.setRun_hart_region (s : State) (r : Run) : (s.setRun r).hart.region = s.hart.region := rfl
@[simp] theorem State.setRun_hart_gang (s : State) (r : Run) : (s.setRun r).hart.gang = s.hart.gang := rfl
@[simp] theorem State.setRun_hart_credit (s : State) (r : Run) : (s.setRun r).hart.credit = s.hart.credit := rfl
@[simp] theorem State.setRun_hart_waits (s : State) (r : Run) : (s.setRun r).hart.waits = s.hart.waits := rfl
@[simp] theorem State.setRun_hart_since (s : State) (r : Run) : (s.setRun r).hart.since = s.hart.since := rfl
@[simp] theorem State.setRun_hart_used (s : State) (r : Run) : (s.setRun r).hart.used = s.hart.used := rfl
@[simp] theorem State.setRun_hart_usedSte (s : State) (r : Run) : (s.setRun r).hart.usedSte = s.hart.usedSte := rfl
@[simp] theorem State.setRun_hart_granted (s : State) (r : Run) : (s.setRun r).hart.granted = s.hart.granted := rfl
@[simp] theorem State.setRun_hart_relCap (s : State) (r : Run) : (s.setRun r).hart.relCap = s.hart.relCap := rfl
@[simp] theorem State.setRun_hart_relAt (s : State) (r : Run) : (s.setRun r).hart.relAt = s.hart.relAt := rfl

/-! ### Hart.setG and State.setG (R14) -/

@[simp] theorem Hart.getG_zero (h : Hart) : h.getG 0 = 0 := rfl

@[simp] theorem Hart.setG_zero (h : Hart) (x : Word) : h.setG 0 x = h := rfl

theorem Hart.getG_setG_same (h : Hart) (n : Reg) (x : Word) (hn : n ≠ 0) : (h.setG n x).getG n = x := by
  simp [Hart.setG, Hart.getG, hn]

theorem Hart.getG_setG_other (h : Hart) (n m : Reg) (x : Word) (hm : m ≠ n) : (h.setG n x).getG m = h.getG m := by
  have : n.val ≠ m.val := fun e => hm (Fin.ext e.symm)
  unfold Hart.setG
  split
  · rfl
  · simp [Hart.getG, this]

@[simp] theorem State.getG_zero (s : State) : s.getG 0 = 0 := rfl

theorem State.getG_setG_same (s : State) (n : Reg) (x : Word) (hn : n ≠ 0) : (s.setG n x).getG n = x :=
  Hart.getG_setG_same s.hart n x hn

theorem State.getG_setG_other (s : State) (n m : Reg) (x : Word) (hm : m ≠ n) : (s.setG n x).getG m = s.getG m :=
  Hart.getG_setG_other s.hart n m x hm

@[simp] theorem State.getG_advance (s : State) (n : Nat) (r : Reg) : (s.advance n).getG r = s.getG r := rfl

@[simp] theorem State.getG_setPc (s : State) (x : Word) (r : Reg) : (s.setPc x).getG r = s.getG r := rfl

@[simp] theorem State.getG_setRun (s : State) (x : Run) (r : Reg) : (s.setRun x).getG r = s.getG r := rfl

@[simp] theorem State.getG_onCsr (s : State) (f : Csr → Csr) (r : Reg) : (s.onCsr f).getG r = s.getG r := rfl

/-- A register write is a change of the register file alone. -/
theorem Hart.setG_eq (h : Hart) (n : Reg) (x : Word) : h.setG n x = { h with g := (h.setG n x).g } := by
  unfold Hart.setG; split <;> rfl

theorem State.setG_eq (s : State) (n : Reg) (x : Word) :
    s.setG n x = { s with hart := { s.hart with g := (s.setG n x).hart.g } } := by
  simp only [State.setG, State.onHart]
  exact congrArg (fun h => { s with hart := h }) (Hart.setG_eq s.hart n x)

@[simp] theorem Hart.setG_pc (h : Hart) (n : Reg) (x : Word) : (h.setG n x).pc = h.pc := by
  rw [Hart.setG_eq]
@[simp] theorem Hart.setG_v (h : Hart) (n : Reg) (x : Word) : (h.setG n x).v = h.v := by
  rw [Hart.setG_eq]
@[simp] theorem Hart.setG_w (h : Hart) (n : Reg) (x : Word) : (h.setG n x).w = h.w := by
  rw [Hart.setG_eq]
@[simp] theorem Hart.setG_k (h : Hart) (n : Reg) (x : Word) : (h.setG n x).k = h.k := by
  rw [Hart.setG_eq]
@[simp] theorem Hart.setG_sbuf (h : Hart) (n : Reg) (x : Word) : (h.setG n x).sbuf = h.sbuf := by
  rw [Hart.setG_eq]
@[simp] theorem Hart.setG_vfull (h : Hart) (n : Reg) (x : Word) : (h.setG n x).vfull = h.vfull := by
  rw [Hart.setG_eq]
@[simp] theorem Hart.setG_wfull (h : Hart) (n : Reg) (x : Word) : (h.setG n x).wfull = h.wfull := by
  rw [Hart.setG_eq]
@[simp] theorem Hart.setG_rstack (h : Hart) (n : Reg) (x : Word) : (h.setG n x).rstack = h.rstack := by
  rw [Hart.setG_eq]
@[simp] theorem Hart.setG_csr (h : Hart) (n : Reg) (x : Word) : (h.setG n x).csr = h.csr := by
  rw [Hart.setG_eq]
@[simp] theorem Hart.setG_trapVtype (h : Hart) (n : Reg) (x : Word) : (h.setG n x).trapVtype = h.trapVtype := by
  rw [Hart.setG_eq]
@[simp] theorem Hart.setG_strip (h : Hart) (n : Reg) (x : Word) : (h.setG n x).strip = h.strip := by
  rw [Hart.setG_eq]
@[simp] theorem Hart.setG_run (h : Hart) (n : Reg) (x : Word) : (h.setG n x).run = h.run := by
  rw [Hart.setG_eq]
@[simp] theorem Hart.setG_viq (h : Hart) (n : Reg) (x : Word) : (h.setG n x).viq = h.viq := by
  rw [Hart.setG_eq]
@[simp] theorem Hart.setG_pend (h : Hart) (n : Reg) (x : Word) : (h.setG n x).pend = h.pend := by
  rw [Hart.setG_eq]
@[simp] theorem Hart.setG_grantedVl (h : Hart) (n : Reg) (x : Word) : (h.setG n x).grantedVl = h.grantedVl := by
  rw [Hart.setG_eq]
@[simp] theorem Hart.setG_groups (h : Hart) (n : Reg) (x : Word) : (h.setG n x).groups = h.groups := by
  rw [Hart.setG_eq]
@[simp] theorem Hart.setG_tiles (h : Hart) (n : Reg) (x : Word) : (h.setG n x).tiles = h.tiles := by
  rw [Hart.setG_eq]
@[simp] theorem Hart.setG_frozen (h : Hart) (n : Reg) (x : Word) : (h.setG n x).frozen = h.frozen := by
  rw [Hart.setG_eq]
@[simp] theorem Hart.setG_headTrapped (h : Hart) (n : Reg) (x : Word) : (h.setG n x).headTrapped = h.headTrapped := by
  rw [Hart.setG_eq]
@[simp] theorem Hart.setG_mask (h : Hart) (n : Reg) (x : Word) : (h.setG n x).mask = h.mask := by
  rw [Hart.setG_eq]
@[simp] theorem Hart.setG_maskValid (h : Hart) (n : Reg) (x : Word) : (h.setG n x).maskValid = h.maskValid := by
  rw [Hart.setG_eq]
@[simp] theorem Hart.setG_watchHit (h : Hart) (n : Reg) (x : Word) : (h.setG n x).watchHit = h.watchHit := by
  rw [Hart.setG_eq]
@[simp] theorem Hart.setG_convoy (h : Hart) (n : Reg) (x : Word) : (h.setG n x).convoy = h.convoy := by
  rw [Hart.setG_eq]
@[simp] theorem Hart.setG_gone (h : Hart) (n : Reg) (x : Word) : (h.setG n x).gone = h.gone := by
  rw [Hart.setG_eq]
@[simp] theorem Hart.setG_filling (h : Hart) (n : Reg) (x : Word) : (h.setG n x).filling = h.filling := by
  rw [Hart.setG_eq]
@[simp] theorem Hart.setG_replay (h : Hart) (n : Reg) (x : Word) : (h.setG n x).replay = h.replay := by
  rw [Hart.setG_eq]
@[simp] theorem Hart.setG_late (h : Hart) (n : Reg) (x : Word) : (h.setG n x).late = h.late := by
  rw [Hart.setG_eq]
@[simp] theorem Hart.setG_idleTo (h : Hart) (n : Reg) (x : Word) : (h.setG n x).idleTo = h.idleTo := by
  rw [Hart.setG_eq]
@[simp] theorem Hart.setG_waitEv (h : Hart) (n : Reg) (x : Word) : (h.setG n x).waitEv = h.waitEv := by
  rw [Hart.setG_eq]
@[simp] theorem Hart.setG_vgap (h : Hart) (n : Reg) (x : Word) : (h.setG n x).vgap = h.vgap := by
  rw [Hart.setG_eq]
@[simp] theorem Hart.setG_monitor (h : Hart) (n : Reg) (x : Word) : (h.setG n x).monitor = h.monitor := by
  rw [Hart.setG_eq]
@[simp] theorem Hart.setG_monitorHit (h : Hart) (n : Reg) (x : Word) : (h.setG n x).monitorHit = h.monitorHit := by
  rw [Hart.setG_eq]
@[simp] theorem Hart.setG_pendMchkUnmasked (h : Hart) (n : Reg) (x : Word) : (h.setG n x).pendMchkUnmasked = h.pendMchkUnmasked := by
  rw [Hart.setG_eq]
@[simp] theorem Hart.setG_pendMchk (h : Hart) (n : Reg) (x : Word) : (h.setG n x).pendMchk = h.pendMchk := by
  rw [Hart.setG_eq]
@[simp] theorem Hart.setG_pendPreempt (h : Hart) (n : Reg) (x : Word) : (h.setG n x).pendPreempt = h.pendPreempt := by
  rw [Hart.setG_eq]
@[simp] theorem Hart.setG_pendNotify (h : Hart) (n : Reg) (x : Word) : (h.setG n x).pendNotify = h.pendNotify := by
  rw [Hart.setG_eq]
@[simp] theorem Hart.setG_handlerEntry (h : Hart) (n : Reg) (x : Word) : (h.setG n x).handlerEntry = h.handlerEntry := by
  rw [Hart.setG_eq]
@[simp] theorem Hart.setG_arrived (h : Hart) (n : Reg) (x : Word) : (h.setG n x).arrived = h.arrived := by
  rw [Hart.setG_eq]
@[simp] theorem Hart.setG_episodeDone (h : Hart) (n : Reg) (x : Word) : (h.setG n x).episodeDone = h.episodeDone := by
  rw [Hart.setG_eq]
@[simp] theorem Hart.setG_openStrip (h : Hart) (n : Reg) (x : Word) : (h.setG n x).openStrip = h.openStrip := by
  rw [Hart.setG_eq]
@[simp] theorem Hart.setG_stripOut (h : Hart) (n : Reg) (x : Word) : (h.setG n x).stripOut = h.stripOut := by
  rw [Hart.setG_eq]
@[simp] theorem Hart.setG_tagGap (h : Hart) (n : Reg) (x : Word) : (h.setG n x).tagGap = h.tagGap := by
  rw [Hart.setG_eq]
@[simp] theorem Hart.setG_tagNext (h : Hart) (n : Reg) (x : Word) : (h.setG n x).tagNext = h.tagNext := by
  rw [Hart.setG_eq]
@[simp] theorem Hart.setG_tag (h : Hart) (n : Reg) (x : Word) : (h.setG n x).tag = h.tag := by
  rw [Hart.setG_eq]
@[simp] theorem Hart.setG_tagDone (h : Hart) (n : Reg) (x : Word) : (h.setG n x).tagDone = h.tagDone := by
  rw [Hart.setG_eq]
@[simp] theorem Hart.setG_sSeen (h : Hart) (n : Reg) (x : Word) : (h.setG n x).sSeen = h.sSeen := by
  rw [Hart.setG_eq]
@[simp] theorem Hart.setG_partition (h : Hart) (n : Reg) (x : Word) : (h.setG n x).partition = h.partition := by
  rw [Hart.setG_eq]
@[simp] theorem Hart.setG_ptroot (h : Hart) (n : Reg) (x : Word) : (h.setG n x).ptroot = h.ptroot := by
  rw [Hart.setG_eq]
@[simp] theorem Hart.setG_domain (h : Hart) (n : Reg) (x : Word) : (h.setG n x).domain = h.domain := by
  rw [Hart.setG_eq]
@[simp] theorem Hart.setG_share (h : Hart) (n : Reg) (x : Word) : (h.setG n x).share = h.share := by
  rw [Hart.setG_eq]
@[simp] theorem Hart.setG_prio (h : Hart) (n : Reg) (x : Word) : (h.setG n x).prio = h.prio := by
  rw [Hart.setG_eq]
@[simp] theorem Hart.setG_region (h : Hart) (n : Reg) (x : Word) : (h.setG n x).region = h.region := by
  rw [Hart.setG_eq]
@[simp] theorem Hart.setG_gang (h : Hart) (n : Reg) (x : Word) : (h.setG n x).gang = h.gang := by
  rw [Hart.setG_eq]
@[simp] theorem Hart.setG_credit (h : Hart) (n : Reg) (x : Word) : (h.setG n x).credit = h.credit := by
  rw [Hart.setG_eq]
@[simp] theorem Hart.setG_waits (h : Hart) (n : Reg) (x : Word) : (h.setG n x).waits = h.waits := by
  rw [Hart.setG_eq]
@[simp] theorem Hart.setG_since (h : Hart) (n : Reg) (x : Word) : (h.setG n x).since = h.since := by
  rw [Hart.setG_eq]
@[simp] theorem Hart.setG_used (h : Hart) (n : Reg) (x : Word) : (h.setG n x).used = h.used := by
  rw [Hart.setG_eq]
@[simp] theorem Hart.setG_usedSte (h : Hart) (n : Reg) (x : Word) : (h.setG n x).usedSte = h.usedSte := by
  rw [Hart.setG_eq]
@[simp] theorem Hart.setG_granted (h : Hart) (n : Reg) (x : Word) : (h.setG n x).granted = h.granted := by
  rw [Hart.setG_eq]
@[simp] theorem Hart.setG_relCap (h : Hart) (n : Reg) (x : Word) : (h.setG n x).relCap = h.relCap := by
  rw [Hart.setG_eq]
@[simp] theorem Hart.setG_relAt (h : Hart) (n : Reg) (x : Word) : (h.setG n x).relAt = h.relAt := by
  rw [Hart.setG_eq]
@[simp] theorem State.setG_others (s : State) (n : Reg) (x : Word) : (s.setG n x).others = s.others := rfl
@[simp] theorem State.setG_agenda (s : State) (n : Reg) (x : Word) : (s.setG n x).agenda = s.agenda := rfl
@[simp] theorem State.setG_mem (s : State) (n : Reg) (x : Word) : (s.setG n x).mem = s.mem := rfl
@[simp] theorem State.setG_acc (s : State) (n : Reg) (x : Word) : (s.setG n x).acc = s.acc := rfl
@[simp] theorem State.setG_slots (s : State) (n : Reg) (x : Word) : (s.setG n x).slots = s.slots := rfl
@[simp] theorem State.setG_cells (s : State) (n : Reg) (x : Word) : (s.setG n x).cells = s.cells := rfl
@[simp] theorem State.setG_nor (s : State) (n : Reg) (x : Word) : (s.setG n x).nor = s.nor := rfl
@[simp] theorem State.setG_ctl (s : State) (n : Reg) (x : Word) : (s.setG n x).ctl = s.ctl := rfl
@[simp] theorem State.setG_cores (s : State) (n : Reg) (x : Word) : (s.setG n x).cores = s.cores := rfl
@[simp] theorem State.setG_clusters (s : State) (n : Reg) (x : Word) : (s.setG n x).clusters = s.clusters := rfl
@[simp] theorem State.setG_pkgSecure (s : State) (n : Reg) (x : Word) : (s.setG n x).pkgSecure = s.pkgSecure := rfl
@[simp] theorem State.setG_engSecure (s : State) (n : Reg) (x : Word) : (s.setG n x).engSecure = s.engSecure := rfl
@[simp] theorem State.setG_mruSecure (s : State) (n : Reg) (x : Word) : (s.setG n x).mruSecure = s.mruSecure := rfl
@[simp] theorem State.setG_slotRecs (s : State) (n : Reg) (x : Word) : (s.setG n x).slotRecs = s.slotRecs := rfl
@[simp] theorem State.setG_reserved (s : State) (n : Reg) (x : Word) : (s.setG n x).reserved = s.reserved := rfl
@[simp] theorem State.setG_running (s : State) (n : Reg) (x : Word) : (s.setG n x).running = s.running := rfl
@[simp] theorem State.setG_owned (s : State) (n : Reg) (x : Word) : (s.setG n x).owned = s.owned := rfl
@[simp] theorem State.setG_recalled (s : State) (n : Reg) (x : Word) : (s.setG n x).recalled = s.recalled := rfl
@[simp] theorem State.setG_helm (s : State) (n : Reg) (x : Word) : (s.setG n x).helm = s.helm := rfl
@[simp] theorem State.setG_host (s : State) (n : Reg) (x : Word) : (s.setG n x).host = s.host := rfl
@[simp] theorem State.setG_wrg (s : State) (n : Reg) (x : Word) : (s.setG n x).wrg = s.wrg := rfl
@[simp] theorem State.setG_links (s : State) (n : Reg) (x : Word) : (s.setG n x).links = s.links := rfl
@[simp] theorem State.setG_messages (s : State) (n : Reg) (x : Word) : (s.setG n x).messages = s.messages := rfl
@[simp] theorem State.setG_ringCount (s : State) (n : Reg) (x : Word) : (s.setG n x).ringCount = s.ringCount := rfl
@[simp] theorem State.setG_softerr (s : State) (n : Reg) (x : Word) : (s.setG n x).softerr = s.softerr := rfl
@[simp] theorem State.setG_migfreeze (s : State) (n : Reg) (x : Word) : (s.setG n x).migfreeze = s.migfreeze := rfl
@[simp] theorem State.setG_time (s : State) (n : Reg) (x : Word) : (s.setG n x).time = s.time := rfl
@[simp] theorem State.setG_powered (s : State) (n : Reg) (x : Word) : (s.setG n x).powered = s.powered := rfl
@[simp] theorem State.setG_cutOff (s : State) (n : Reg) (x : Word) : (s.setG n x).cutOff = s.cutOff := rfl
@[simp] theorem State.setG_hotDies (s : State) (n : Reg) (x : Word) : (s.setG n x).hotDies = s.hotDies := rfl
@[simp] theorem State.setG_loose (s : State) (n : Reg) (x : Word) : (s.setG n x).loose = s.loose := rfl
@[simp] theorem State.setG_fresh (s : State) (n : Reg) (x : Word) : (s.setG n x).fresh = s.fresh := rfl
@[simp] theorem State.setG_hart_pc (s : State) (n : Reg) (x : Word) : (s.setG n x).hart.pc = s.hart.pc := by
  simp [State.setG]
@[simp] theorem State.setG_hart_v (s : State) (n : Reg) (x : Word) : (s.setG n x).hart.v = s.hart.v := by
  simp [State.setG]
@[simp] theorem State.setG_hart_w (s : State) (n : Reg) (x : Word) : (s.setG n x).hart.w = s.hart.w := by
  simp [State.setG]
@[simp] theorem State.setG_hart_k (s : State) (n : Reg) (x : Word) : (s.setG n x).hart.k = s.hart.k := by
  simp [State.setG]
@[simp] theorem State.setG_hart_sbuf (s : State) (n : Reg) (x : Word) : (s.setG n x).hart.sbuf = s.hart.sbuf := by
  simp [State.setG]
@[simp] theorem State.setG_hart_vfull (s : State) (n : Reg) (x : Word) : (s.setG n x).hart.vfull = s.hart.vfull := by
  simp [State.setG]
@[simp] theorem State.setG_hart_wfull (s : State) (n : Reg) (x : Word) : (s.setG n x).hart.wfull = s.hart.wfull := by
  simp [State.setG]
@[simp] theorem State.setG_hart_rstack (s : State) (n : Reg) (x : Word) : (s.setG n x).hart.rstack = s.hart.rstack := by
  simp [State.setG]
@[simp] theorem State.setG_hart_csr (s : State) (n : Reg) (x : Word) : (s.setG n x).hart.csr = s.hart.csr := by
  simp [State.setG]
@[simp] theorem State.setG_hart_trapVtype (s : State) (n : Reg) (x : Word) : (s.setG n x).hart.trapVtype = s.hart.trapVtype := by
  simp [State.setG]
@[simp] theorem State.setG_hart_strip (s : State) (n : Reg) (x : Word) : (s.setG n x).hart.strip = s.hart.strip := by
  simp [State.setG]
@[simp] theorem State.setG_hart_run (s : State) (n : Reg) (x : Word) : (s.setG n x).hart.run = s.hart.run := by
  simp [State.setG]
@[simp] theorem State.setG_hart_viq (s : State) (n : Reg) (x : Word) : (s.setG n x).hart.viq = s.hart.viq := by
  simp [State.setG]
@[simp] theorem State.setG_hart_pend (s : State) (n : Reg) (x : Word) : (s.setG n x).hart.pend = s.hart.pend := by
  simp [State.setG]
@[simp] theorem State.setG_hart_grantedVl (s : State) (n : Reg) (x : Word) : (s.setG n x).hart.grantedVl = s.hart.grantedVl := by
  simp [State.setG]
@[simp] theorem State.setG_hart_groups (s : State) (n : Reg) (x : Word) : (s.setG n x).hart.groups = s.hart.groups := by
  simp [State.setG]
@[simp] theorem State.setG_hart_tiles (s : State) (n : Reg) (x : Word) : (s.setG n x).hart.tiles = s.hart.tiles := by
  simp [State.setG]
@[simp] theorem State.setG_hart_frozen (s : State) (n : Reg) (x : Word) : (s.setG n x).hart.frozen = s.hart.frozen := by
  simp [State.setG]
@[simp] theorem State.setG_hart_headTrapped (s : State) (n : Reg) (x : Word) : (s.setG n x).hart.headTrapped = s.hart.headTrapped := by
  simp [State.setG]
@[simp] theorem State.setG_hart_mask (s : State) (n : Reg) (x : Word) : (s.setG n x).hart.mask = s.hart.mask := by
  simp [State.setG]
@[simp] theorem State.setG_hart_maskValid (s : State) (n : Reg) (x : Word) : (s.setG n x).hart.maskValid = s.hart.maskValid := by
  simp [State.setG]
@[simp] theorem State.setG_hart_watchHit (s : State) (n : Reg) (x : Word) : (s.setG n x).hart.watchHit = s.hart.watchHit := by
  simp [State.setG]
@[simp] theorem State.setG_hart_convoy (s : State) (n : Reg) (x : Word) : (s.setG n x).hart.convoy = s.hart.convoy := by
  simp [State.setG]
@[simp] theorem State.setG_hart_gone (s : State) (n : Reg) (x : Word) : (s.setG n x).hart.gone = s.hart.gone := by
  simp [State.setG]
@[simp] theorem State.setG_hart_filling (s : State) (n : Reg) (x : Word) : (s.setG n x).hart.filling = s.hart.filling := by
  simp [State.setG]
@[simp] theorem State.setG_hart_replay (s : State) (n : Reg) (x : Word) : (s.setG n x).hart.replay = s.hart.replay := by
  simp [State.setG]
@[simp] theorem State.setG_hart_late (s : State) (n : Reg) (x : Word) : (s.setG n x).hart.late = s.hart.late := by
  simp [State.setG]
@[simp] theorem State.setG_hart_idleTo (s : State) (n : Reg) (x : Word) : (s.setG n x).hart.idleTo = s.hart.idleTo := by
  simp [State.setG]
@[simp] theorem State.setG_hart_waitEv (s : State) (n : Reg) (x : Word) : (s.setG n x).hart.waitEv = s.hart.waitEv := by
  simp [State.setG]
@[simp] theorem State.setG_hart_vgap (s : State) (n : Reg) (x : Word) : (s.setG n x).hart.vgap = s.hart.vgap := by
  simp [State.setG]
@[simp] theorem State.setG_hart_monitor (s : State) (n : Reg) (x : Word) : (s.setG n x).hart.monitor = s.hart.monitor := by
  simp [State.setG]
@[simp] theorem State.setG_hart_monitorHit (s : State) (n : Reg) (x : Word) : (s.setG n x).hart.monitorHit = s.hart.monitorHit := by
  simp [State.setG]
@[simp] theorem State.setG_hart_pendMchkUnmasked (s : State) (n : Reg) (x : Word) : (s.setG n x).hart.pendMchkUnmasked = s.hart.pendMchkUnmasked := by
  simp [State.setG]
@[simp] theorem State.setG_hart_pendMchk (s : State) (n : Reg) (x : Word) : (s.setG n x).hart.pendMchk = s.hart.pendMchk := by
  simp [State.setG]
@[simp] theorem State.setG_hart_pendPreempt (s : State) (n : Reg) (x : Word) : (s.setG n x).hart.pendPreempt = s.hart.pendPreempt := by
  simp [State.setG]
@[simp] theorem State.setG_hart_pendNotify (s : State) (n : Reg) (x : Word) : (s.setG n x).hart.pendNotify = s.hart.pendNotify := by
  simp [State.setG]
@[simp] theorem State.setG_hart_handlerEntry (s : State) (n : Reg) (x : Word) : (s.setG n x).hart.handlerEntry = s.hart.handlerEntry := by
  simp [State.setG]
@[simp] theorem State.setG_hart_arrived (s : State) (n : Reg) (x : Word) : (s.setG n x).hart.arrived = s.hart.arrived := by
  simp [State.setG]
@[simp] theorem State.setG_hart_episodeDone (s : State) (n : Reg) (x : Word) : (s.setG n x).hart.episodeDone = s.hart.episodeDone := by
  simp [State.setG]
@[simp] theorem State.setG_hart_openStrip (s : State) (n : Reg) (x : Word) : (s.setG n x).hart.openStrip = s.hart.openStrip := by
  simp [State.setG]
@[simp] theorem State.setG_hart_stripOut (s : State) (n : Reg) (x : Word) : (s.setG n x).hart.stripOut = s.hart.stripOut := by
  simp [State.setG]
@[simp] theorem State.setG_hart_tagGap (s : State) (n : Reg) (x : Word) : (s.setG n x).hart.tagGap = s.hart.tagGap := by
  simp [State.setG]
@[simp] theorem State.setG_hart_tagNext (s : State) (n : Reg) (x : Word) : (s.setG n x).hart.tagNext = s.hart.tagNext := by
  simp [State.setG]
@[simp] theorem State.setG_hart_tag (s : State) (n : Reg) (x : Word) : (s.setG n x).hart.tag = s.hart.tag := by
  simp [State.setG]
@[simp] theorem State.setG_hart_tagDone (s : State) (n : Reg) (x : Word) : (s.setG n x).hart.tagDone = s.hart.tagDone := by
  simp [State.setG]
@[simp] theorem State.setG_hart_sSeen (s : State) (n : Reg) (x : Word) : (s.setG n x).hart.sSeen = s.hart.sSeen := by
  simp [State.setG]
@[simp] theorem State.setG_hart_partition (s : State) (n : Reg) (x : Word) : (s.setG n x).hart.partition = s.hart.partition := by
  simp [State.setG]
@[simp] theorem State.setG_hart_ptroot (s : State) (n : Reg) (x : Word) : (s.setG n x).hart.ptroot = s.hart.ptroot := by
  simp [State.setG]
@[simp] theorem State.setG_hart_domain (s : State) (n : Reg) (x : Word) : (s.setG n x).hart.domain = s.hart.domain := by
  simp [State.setG]
@[simp] theorem State.setG_hart_share (s : State) (n : Reg) (x : Word) : (s.setG n x).hart.share = s.hart.share := by
  simp [State.setG]
@[simp] theorem State.setG_hart_prio (s : State) (n : Reg) (x : Word) : (s.setG n x).hart.prio = s.hart.prio := by
  simp [State.setG]
@[simp] theorem State.setG_hart_region (s : State) (n : Reg) (x : Word) : (s.setG n x).hart.region = s.hart.region := by
  simp [State.setG]
@[simp] theorem State.setG_hart_gang (s : State) (n : Reg) (x : Word) : (s.setG n x).hart.gang = s.hart.gang := by
  simp [State.setG]
@[simp] theorem State.setG_hart_credit (s : State) (n : Reg) (x : Word) : (s.setG n x).hart.credit = s.hart.credit := by
  simp [State.setG]
@[simp] theorem State.setG_hart_waits (s : State) (n : Reg) (x : Word) : (s.setG n x).hart.waits = s.hart.waits := by
  simp [State.setG]
@[simp] theorem State.setG_hart_since (s : State) (n : Reg) (x : Word) : (s.setG n x).hart.since = s.hart.since := by
  simp [State.setG]
@[simp] theorem State.setG_hart_used (s : State) (n : Reg) (x : Word) : (s.setG n x).hart.used = s.hart.used := by
  simp [State.setG]
@[simp] theorem State.setG_hart_usedSte (s : State) (n : Reg) (x : Word) : (s.setG n x).hart.usedSte = s.hart.usedSte := by
  simp [State.setG]
@[simp] theorem State.setG_hart_granted (s : State) (n : Reg) (x : Word) : (s.setG n x).hart.granted = s.hart.granted := by
  simp [State.setG]
@[simp] theorem State.setG_hart_relCap (s : State) (n : Reg) (x : Word) : (s.setG n x).hart.relCap = s.hart.relCap := by
  simp [State.setG]
@[simp] theorem State.setG_hart_relAt (s : State) (n : Reg) (x : Word) : (s.setG n x).hart.relAt = s.hart.relAt := by
  simp [State.setG]

/-! ### State.setCore and State.setCluster -/

@[simp] theorem State.setCore_hart (s : State) (n : Nat) (c : CoreSt) : (s.setCore n c).hart = s.hart := rfl
@[simp] theorem State.setCore_others (s : State) (n : Nat) (c : CoreSt) : (s.setCore n c).others = s.others := rfl
@[simp] theorem State.setCore_agenda (s : State) (n : Nat) (c : CoreSt) : (s.setCore n c).agenda = s.agenda := rfl
@[simp] theorem State.setCore_mem (s : State) (n : Nat) (c : CoreSt) : (s.setCore n c).mem = s.mem := rfl
@[simp] theorem State.setCore_acc (s : State) (n : Nat) (c : CoreSt) : (s.setCore n c).acc = s.acc := rfl
@[simp] theorem State.setCore_slots (s : State) (n : Nat) (c : CoreSt) : (s.setCore n c).slots = s.slots := rfl
@[simp] theorem State.setCore_cells (s : State) (n : Nat) (c : CoreSt) : (s.setCore n c).cells = s.cells := rfl
@[simp] theorem State.setCore_nor (s : State) (n : Nat) (c : CoreSt) : (s.setCore n c).nor = s.nor := rfl
@[simp] theorem State.setCore_ctl (s : State) (n : Nat) (c : CoreSt) : (s.setCore n c).ctl = s.ctl := rfl
@[simp] theorem State.setCore_clusters (s : State) (n : Nat) (c : CoreSt) : (s.setCore n c).clusters = s.clusters := rfl
@[simp] theorem State.setCore_pkgSecure (s : State) (n : Nat) (c : CoreSt) : (s.setCore n c).pkgSecure = s.pkgSecure := rfl
@[simp] theorem State.setCore_engSecure (s : State) (n : Nat) (c : CoreSt) : (s.setCore n c).engSecure = s.engSecure := rfl
@[simp] theorem State.setCore_mruSecure (s : State) (n : Nat) (c : CoreSt) : (s.setCore n c).mruSecure = s.mruSecure := rfl
@[simp] theorem State.setCore_slotRecs (s : State) (n : Nat) (c : CoreSt) : (s.setCore n c).slotRecs = s.slotRecs := rfl
@[simp] theorem State.setCore_reserved (s : State) (n : Nat) (c : CoreSt) : (s.setCore n c).reserved = s.reserved := rfl
@[simp] theorem State.setCore_running (s : State) (n : Nat) (c : CoreSt) : (s.setCore n c).running = s.running := rfl
@[simp] theorem State.setCore_owned (s : State) (n : Nat) (c : CoreSt) : (s.setCore n c).owned = s.owned := rfl
@[simp] theorem State.setCore_recalled (s : State) (n : Nat) (c : CoreSt) : (s.setCore n c).recalled = s.recalled := rfl
@[simp] theorem State.setCore_helm (s : State) (n : Nat) (c : CoreSt) : (s.setCore n c).helm = s.helm := rfl
@[simp] theorem State.setCore_host (s : State) (n : Nat) (c : CoreSt) : (s.setCore n c).host = s.host := rfl
@[simp] theorem State.setCore_wrg (s : State) (n : Nat) (c : CoreSt) : (s.setCore n c).wrg = s.wrg := rfl
@[simp] theorem State.setCore_links (s : State) (n : Nat) (c : CoreSt) : (s.setCore n c).links = s.links := rfl
@[simp] theorem State.setCore_messages (s : State) (n : Nat) (c : CoreSt) : (s.setCore n c).messages = s.messages := rfl
@[simp] theorem State.setCore_ringCount (s : State) (n : Nat) (c : CoreSt) : (s.setCore n c).ringCount = s.ringCount := rfl
@[simp] theorem State.setCore_softerr (s : State) (n : Nat) (c : CoreSt) : (s.setCore n c).softerr = s.softerr := rfl
@[simp] theorem State.setCore_migfreeze (s : State) (n : Nat) (c : CoreSt) : (s.setCore n c).migfreeze = s.migfreeze := rfl
@[simp] theorem State.setCore_time (s : State) (n : Nat) (c : CoreSt) : (s.setCore n c).time = s.time := rfl
@[simp] theorem State.setCore_powered (s : State) (n : Nat) (c : CoreSt) : (s.setCore n c).powered = s.powered := rfl
@[simp] theorem State.setCore_cutOff (s : State) (n : Nat) (c : CoreSt) : (s.setCore n c).cutOff = s.cutOff := rfl
@[simp] theorem State.setCore_hotDies (s : State) (n : Nat) (c : CoreSt) : (s.setCore n c).hotDies = s.hotDies := rfl
@[simp] theorem State.setCore_loose (s : State) (n : Nat) (c : CoreSt) : (s.setCore n c).loose = s.loose := rfl
@[simp] theorem State.setCore_fresh (s : State) (n : Nat) (c : CoreSt) : (s.setCore n c).fresh = s.fresh := rfl
@[simp] theorem State.setCluster_hart (s : State) (n : Nat) (c : ClusterSt) : (s.setCluster n c).hart = s.hart := rfl
@[simp] theorem State.setCluster_others (s : State) (n : Nat) (c : ClusterSt) : (s.setCluster n c).others = s.others := rfl
@[simp] theorem State.setCluster_agenda (s : State) (n : Nat) (c : ClusterSt) : (s.setCluster n c).agenda = s.agenda := rfl
@[simp] theorem State.setCluster_mem (s : State) (n : Nat) (c : ClusterSt) : (s.setCluster n c).mem = s.mem := rfl
@[simp] theorem State.setCluster_acc (s : State) (n : Nat) (c : ClusterSt) : (s.setCluster n c).acc = s.acc := rfl
@[simp] theorem State.setCluster_slots (s : State) (n : Nat) (c : ClusterSt) : (s.setCluster n c).slots = s.slots := rfl
@[simp] theorem State.setCluster_cells (s : State) (n : Nat) (c : ClusterSt) : (s.setCluster n c).cells = s.cells := rfl
@[simp] theorem State.setCluster_nor (s : State) (n : Nat) (c : ClusterSt) : (s.setCluster n c).nor = s.nor := rfl
@[simp] theorem State.setCluster_ctl (s : State) (n : Nat) (c : ClusterSt) : (s.setCluster n c).ctl = s.ctl := rfl
@[simp] theorem State.setCluster_cores (s : State) (n : Nat) (c : ClusterSt) : (s.setCluster n c).cores = s.cores := rfl
@[simp] theorem State.setCluster_pkgSecure (s : State) (n : Nat) (c : ClusterSt) : (s.setCluster n c).pkgSecure = s.pkgSecure := rfl
@[simp] theorem State.setCluster_engSecure (s : State) (n : Nat) (c : ClusterSt) : (s.setCluster n c).engSecure = s.engSecure := rfl
@[simp] theorem State.setCluster_mruSecure (s : State) (n : Nat) (c : ClusterSt) : (s.setCluster n c).mruSecure = s.mruSecure := rfl
@[simp] theorem State.setCluster_slotRecs (s : State) (n : Nat) (c : ClusterSt) : (s.setCluster n c).slotRecs = s.slotRecs := rfl
@[simp] theorem State.setCluster_reserved (s : State) (n : Nat) (c : ClusterSt) : (s.setCluster n c).reserved = s.reserved := rfl
@[simp] theorem State.setCluster_running (s : State) (n : Nat) (c : ClusterSt) : (s.setCluster n c).running = s.running := rfl
@[simp] theorem State.setCluster_owned (s : State) (n : Nat) (c : ClusterSt) : (s.setCluster n c).owned = s.owned := rfl
@[simp] theorem State.setCluster_recalled (s : State) (n : Nat) (c : ClusterSt) : (s.setCluster n c).recalled = s.recalled := rfl
@[simp] theorem State.setCluster_helm (s : State) (n : Nat) (c : ClusterSt) : (s.setCluster n c).helm = s.helm := rfl
@[simp] theorem State.setCluster_host (s : State) (n : Nat) (c : ClusterSt) : (s.setCluster n c).host = s.host := rfl
@[simp] theorem State.setCluster_wrg (s : State) (n : Nat) (c : ClusterSt) : (s.setCluster n c).wrg = s.wrg := rfl
@[simp] theorem State.setCluster_links (s : State) (n : Nat) (c : ClusterSt) : (s.setCluster n c).links = s.links := rfl
@[simp] theorem State.setCluster_messages (s : State) (n : Nat) (c : ClusterSt) : (s.setCluster n c).messages = s.messages := rfl
@[simp] theorem State.setCluster_ringCount (s : State) (n : Nat) (c : ClusterSt) : (s.setCluster n c).ringCount = s.ringCount := rfl
@[simp] theorem State.setCluster_softerr (s : State) (n : Nat) (c : ClusterSt) : (s.setCluster n c).softerr = s.softerr := rfl
@[simp] theorem State.setCluster_migfreeze (s : State) (n : Nat) (c : ClusterSt) : (s.setCluster n c).migfreeze = s.migfreeze := rfl
@[simp] theorem State.setCluster_time (s : State) (n : Nat) (c : ClusterSt) : (s.setCluster n c).time = s.time := rfl
@[simp] theorem State.setCluster_powered (s : State) (n : Nat) (c : ClusterSt) : (s.setCluster n c).powered = s.powered := rfl
@[simp] theorem State.setCluster_cutOff (s : State) (n : Nat) (c : ClusterSt) : (s.setCluster n c).cutOff = s.cutOff := rfl
@[simp] theorem State.setCluster_hotDies (s : State) (n : Nat) (c : ClusterSt) : (s.setCluster n c).hotDies = s.hotDies := rfl
@[simp] theorem State.setCluster_loose (s : State) (n : Nat) (c : ClusterSt) : (s.setCluster n c).loose = s.loose := rfl
@[simp] theorem State.setCluster_fresh (s : State) (n : Nat) (c : ClusterSt) : (s.setCluster n c).fresh = s.fresh := rfl

/-! ### State.count -/

/-- Counting events changes the counters alone. -/
theorem Csr.count_eq (c : Csr) (code k : Nat) : c.count code k = { c with evcnt := (c.count code k).evcnt } := by
  unfold Csr.count; split <;> rfl

@[simp] theorem Csr.count_vl (c : Csr) (code k : Nat) : (c.count code k).vl = c.vl := by
  rw [Csr.count_eq]
@[simp] theorem Csr.count_vtype (c : Csr) (code k : Nat) : (c.count code k).vtype = c.vtype := by
  rw [Csr.count_eq]
@[simp] theorem Csr.count_vstart (c : Csr) (code k : Nat) : (c.count code k).vstart = c.vstart := by
  rw [Csr.count_eq]
@[simp] theorem Csr.count_vlr (c : Csr) (code k : Nat) : (c.count code k).vlr = c.vlr := by
  rw [Csr.count_eq]
@[simp] theorem Csr.count_thr (c : Csr) (code k : Nat) : (c.count code k).thr = c.thr := by
  rw [Csr.count_eq]
@[simp] theorem Csr.count_fracctl (c : Csr) (code k : Nat) : (c.count code k).fracctl = c.fracctl := by
  rw [Csr.count_eq]
@[simp] theorem Csr.count_demoted (c : Csr) (code k : Nat) : (c.count code k).demoted = c.demoted := by
  rw [Csr.count_eq]
@[simp] theorem Csr.count_firstdem (c : Csr) (code k : Nat) : (c.count code k).firstdem = c.firstdem := by
  rw [Csr.count_eq]
@[simp] theorem Csr.count_vdirty (c : Csr) (code k : Nat) : (c.count code k).vdirty = c.vdirty := by
  rw [Csr.count_eq]
@[simp] theorem Csr.count_fcsr (c : Csr) (code k : Nat) : (c.count code k).fcsr = c.fcsr := by
  rw [Csr.count_eq]
@[simp] theorem Csr.count_fflags (c : Csr) (code k : Nat) : (c.count code k).fflags = c.fflags := by
  rw [Csr.count_eq]
@[simp] theorem Csr.count_iflags (c : Csr) (code k : Nat) : (c.count code k).iflags = c.iflags := by
  rw [Csr.count_eq]
@[simp] theorem Csr.count_firstx (c : Csr) (code k : Nat) : (c.count code k).firstx = c.firstx := by
  rw [Csr.count_eq]
@[simp] theorem Csr.count_firstxi (c : Csr) (code k : Nat) : (c.count code k).firstxi = c.firstxi := by
  rw [Csr.count_eq]
@[simp] theorem Csr.count_rasp (c : Csr) (code k : Nat) : (c.count code k).rasp = c.rasp := by
  rw [Csr.count_eq]
@[simp] theorem Csr.count_rasl (c : Csr) (code k : Nat) : (c.count code k).rasl = c.rasl := by
  rw [Csr.count_eq]
@[simp] theorem Csr.count_spill (c : Csr) (code k : Nat) : (c.count code k).spill = c.spill := by
  rw [Csr.count_eq]
@[simp] theorem Csr.count_hartid (c : Csr) (code k : Nat) : (c.count code k).hartid = c.hartid := by
  rw [Csr.count_eq]
@[simp] theorem Csr.count_rank (c : Csr) (code k : Nat) : (c.count code k).rank = c.rank := by
  rw [Csr.count_eq]
@[simp] theorem Csr.count_gangsz (c : Csr) (code k : Nat) : (c.count code k).gangsz = c.gangsz := by
  rw [Csr.count_eq]
@[simp] theorem Csr.count_evsel (c : Csr) (code k : Nat) : (c.count code k).evsel = c.evsel := by
  rw [Csr.count_eq]
@[simp] theorem Csr.count_status (c : Csr) (code k : Nat) : (c.count code k).status = c.status := by
  rw [Csr.count_eq]
@[simp] theorem Csr.count_tvec (c : Csr) (code k : Nat) : (c.count code k).tvec = c.tvec := by
  rw [Csr.count_eq]
@[simp] theorem Csr.count_epc (c : Csr) (code k : Nat) : (c.count code k).epc = c.epc := by
  rw [Csr.count_eq]
@[simp] theorem Csr.count_cause (c : Csr) (code k : Nat) : (c.count code k).cause = c.cause := by
  rw [Csr.count_eq]
@[simp] theorem Csr.count_tval (c : Csr) (code k : Nat) : (c.count code k).tval = c.tval := by
  rw [Csr.count_eq]
@[simp] theorem Csr.count_taux (c : Csr) (code k : Nat) : (c.count code k).taux = c.taux := by
  rw [Csr.count_eq]
@[simp] theorem Csr.count_qs (c : Csr) (code k : Nat) : (c.count code k).qs = c.qs := by
  rw [Csr.count_eq]
@[simp] theorem Csr.count_striplog (c : Csr) (code k : Nat) : (c.count code k).striplog = c.striplog := by
  rw [Csr.count_eq]
@[simp] theorem Csr.count_sampctl (c : Csr) (code k : Nat) : (c.count code k).sampctl = c.sampctl := by
  rw [Csr.count_eq]
@[simp] theorem State.count_others (s : State) (code k : Nat) : (s.count code k).others = s.others := rfl
@[simp] theorem State.count_agenda (s : State) (code k : Nat) : (s.count code k).agenda = s.agenda := rfl
@[simp] theorem State.count_mem (s : State) (code k : Nat) : (s.count code k).mem = s.mem := rfl
@[simp] theorem State.count_acc (s : State) (code k : Nat) : (s.count code k).acc = s.acc := rfl
@[simp] theorem State.count_slots (s : State) (code k : Nat) : (s.count code k).slots = s.slots := rfl
@[simp] theorem State.count_cells (s : State) (code k : Nat) : (s.count code k).cells = s.cells := rfl
@[simp] theorem State.count_nor (s : State) (code k : Nat) : (s.count code k).nor = s.nor := rfl
@[simp] theorem State.count_ctl (s : State) (code k : Nat) : (s.count code k).ctl = s.ctl := rfl
@[simp] theorem State.count_cores (s : State) (code k : Nat) : (s.count code k).cores = s.cores := rfl
@[simp] theorem State.count_clusters (s : State) (code k : Nat) : (s.count code k).clusters = s.clusters := rfl
@[simp] theorem State.count_pkgSecure (s : State) (code k : Nat) : (s.count code k).pkgSecure = s.pkgSecure := rfl
@[simp] theorem State.count_engSecure (s : State) (code k : Nat) : (s.count code k).engSecure = s.engSecure := rfl
@[simp] theorem State.count_mruSecure (s : State) (code k : Nat) : (s.count code k).mruSecure = s.mruSecure := rfl
@[simp] theorem State.count_slotRecs (s : State) (code k : Nat) : (s.count code k).slotRecs = s.slotRecs := rfl
@[simp] theorem State.count_reserved (s : State) (code k : Nat) : (s.count code k).reserved = s.reserved := rfl
@[simp] theorem State.count_running (s : State) (code k : Nat) : (s.count code k).running = s.running := rfl
@[simp] theorem State.count_owned (s : State) (code k : Nat) : (s.count code k).owned = s.owned := rfl
@[simp] theorem State.count_recalled (s : State) (code k : Nat) : (s.count code k).recalled = s.recalled := rfl
@[simp] theorem State.count_helm (s : State) (code k : Nat) : (s.count code k).helm = s.helm := rfl
@[simp] theorem State.count_host (s : State) (code k : Nat) : (s.count code k).host = s.host := rfl
@[simp] theorem State.count_wrg (s : State) (code k : Nat) : (s.count code k).wrg = s.wrg := rfl
@[simp] theorem State.count_links (s : State) (code k : Nat) : (s.count code k).links = s.links := rfl
@[simp] theorem State.count_messages (s : State) (code k : Nat) : (s.count code k).messages = s.messages := rfl
@[simp] theorem State.count_ringCount (s : State) (code k : Nat) : (s.count code k).ringCount = s.ringCount := rfl
@[simp] theorem State.count_softerr (s : State) (code k : Nat) : (s.count code k).softerr = s.softerr := rfl
@[simp] theorem State.count_migfreeze (s : State) (code k : Nat) : (s.count code k).migfreeze = s.migfreeze := rfl
@[simp] theorem State.count_time (s : State) (code k : Nat) : (s.count code k).time = s.time := rfl
@[simp] theorem State.count_powered (s : State) (code k : Nat) : (s.count code k).powered = s.powered := rfl
@[simp] theorem State.count_cutOff (s : State) (code k : Nat) : (s.count code k).cutOff = s.cutOff := rfl
@[simp] theorem State.count_hotDies (s : State) (code k : Nat) : (s.count code k).hotDies = s.hotDies := rfl
@[simp] theorem State.count_loose (s : State) (code k : Nat) : (s.count code k).loose = s.loose := rfl
@[simp] theorem State.count_fresh (s : State) (code k : Nat) : (s.count code k).fresh = s.fresh := rfl
@[simp] theorem State.count_hart_pc (s : State) (code k : Nat) : (s.count code k).hart.pc = s.hart.pc := rfl
@[simp] theorem State.count_hart_g (s : State) (code k : Nat) : (s.count code k).hart.g = s.hart.g := rfl
@[simp] theorem State.count_hart_v (s : State) (code k : Nat) : (s.count code k).hart.v = s.hart.v := rfl
@[simp] theorem State.count_hart_w (s : State) (code k : Nat) : (s.count code k).hart.w = s.hart.w := rfl
@[simp] theorem State.count_hart_k (s : State) (code k : Nat) : (s.count code k).hart.k = s.hart.k := rfl
@[simp] theorem State.count_hart_sbuf (s : State) (code k : Nat) : (s.count code k).hart.sbuf = s.hart.sbuf := rfl
@[simp] theorem State.count_hart_vfull (s : State) (code k : Nat) : (s.count code k).hart.vfull = s.hart.vfull := rfl
@[simp] theorem State.count_hart_wfull (s : State) (code k : Nat) : (s.count code k).hart.wfull = s.hart.wfull := rfl
@[simp] theorem State.count_hart_rstack (s : State) (code k : Nat) : (s.count code k).hart.rstack = s.hart.rstack := rfl
@[simp] theorem State.count_hart_trapVtype (s : State) (code k : Nat) : (s.count code k).hart.trapVtype = s.hart.trapVtype := rfl
@[simp] theorem State.count_hart_strip (s : State) (code k : Nat) : (s.count code k).hart.strip = s.hart.strip := rfl
@[simp] theorem State.count_hart_run (s : State) (code k : Nat) : (s.count code k).hart.run = s.hart.run := rfl
@[simp] theorem State.count_hart_viq (s : State) (code k : Nat) : (s.count code k).hart.viq = s.hart.viq := rfl
@[simp] theorem State.count_hart_pend (s : State) (code k : Nat) : (s.count code k).hart.pend = s.hart.pend := rfl
@[simp] theorem State.count_hart_grantedVl (s : State) (code k : Nat) : (s.count code k).hart.grantedVl = s.hart.grantedVl := rfl
@[simp] theorem State.count_hart_groups (s : State) (code k : Nat) : (s.count code k).hart.groups = s.hart.groups := rfl
@[simp] theorem State.count_hart_tiles (s : State) (code k : Nat) : (s.count code k).hart.tiles = s.hart.tiles := rfl
@[simp] theorem State.count_hart_frozen (s : State) (code k : Nat) : (s.count code k).hart.frozen = s.hart.frozen := rfl
@[simp] theorem State.count_hart_headTrapped (s : State) (code k : Nat) : (s.count code k).hart.headTrapped = s.hart.headTrapped := rfl
@[simp] theorem State.count_hart_mask (s : State) (code k : Nat) : (s.count code k).hart.mask = s.hart.mask := rfl
@[simp] theorem State.count_hart_maskValid (s : State) (code k : Nat) : (s.count code k).hart.maskValid = s.hart.maskValid := rfl
@[simp] theorem State.count_hart_watchHit (s : State) (code k : Nat) : (s.count code k).hart.watchHit = s.hart.watchHit := rfl
@[simp] theorem State.count_hart_convoy (s : State) (code k : Nat) : (s.count code k).hart.convoy = s.hart.convoy := rfl
@[simp] theorem State.count_hart_gone (s : State) (code k : Nat) : (s.count code k).hart.gone = s.hart.gone := rfl
@[simp] theorem State.count_hart_filling (s : State) (code k : Nat) : (s.count code k).hart.filling = s.hart.filling := rfl
@[simp] theorem State.count_hart_replay (s : State) (code k : Nat) : (s.count code k).hart.replay = s.hart.replay := rfl
@[simp] theorem State.count_hart_late (s : State) (code k : Nat) : (s.count code k).hart.late = s.hart.late := rfl
@[simp] theorem State.count_hart_idleTo (s : State) (code k : Nat) : (s.count code k).hart.idleTo = s.hart.idleTo := rfl
@[simp] theorem State.count_hart_waitEv (s : State) (code k : Nat) : (s.count code k).hart.waitEv = s.hart.waitEv := rfl
@[simp] theorem State.count_hart_vgap (s : State) (code k : Nat) : (s.count code k).hart.vgap = s.hart.vgap := rfl
@[simp] theorem State.count_hart_monitor (s : State) (code k : Nat) : (s.count code k).hart.monitor = s.hart.monitor := rfl
@[simp] theorem State.count_hart_monitorHit (s : State) (code k : Nat) : (s.count code k).hart.monitorHit = s.hart.monitorHit := rfl
@[simp] theorem State.count_hart_pendMchkUnmasked (s : State) (code k : Nat) : (s.count code k).hart.pendMchkUnmasked = s.hart.pendMchkUnmasked := rfl
@[simp] theorem State.count_hart_pendMchk (s : State) (code k : Nat) : (s.count code k).hart.pendMchk = s.hart.pendMchk := rfl
@[simp] theorem State.count_hart_pendPreempt (s : State) (code k : Nat) : (s.count code k).hart.pendPreempt = s.hart.pendPreempt := rfl
@[simp] theorem State.count_hart_pendNotify (s : State) (code k : Nat) : (s.count code k).hart.pendNotify = s.hart.pendNotify := rfl
@[simp] theorem State.count_hart_handlerEntry (s : State) (code k : Nat) : (s.count code k).hart.handlerEntry = s.hart.handlerEntry := rfl
@[simp] theorem State.count_hart_arrived (s : State) (code k : Nat) : (s.count code k).hart.arrived = s.hart.arrived := rfl
@[simp] theorem State.count_hart_episodeDone (s : State) (code k : Nat) : (s.count code k).hart.episodeDone = s.hart.episodeDone := rfl
@[simp] theorem State.count_hart_openStrip (s : State) (code k : Nat) : (s.count code k).hart.openStrip = s.hart.openStrip := rfl
@[simp] theorem State.count_hart_stripOut (s : State) (code k : Nat) : (s.count code k).hart.stripOut = s.hart.stripOut := rfl
@[simp] theorem State.count_hart_tagGap (s : State) (code k : Nat) : (s.count code k).hart.tagGap = s.hart.tagGap := rfl
@[simp] theorem State.count_hart_tagNext (s : State) (code k : Nat) : (s.count code k).hart.tagNext = s.hart.tagNext := rfl
@[simp] theorem State.count_hart_tag (s : State) (code k : Nat) : (s.count code k).hart.tag = s.hart.tag := rfl
@[simp] theorem State.count_hart_tagDone (s : State) (code k : Nat) : (s.count code k).hart.tagDone = s.hart.tagDone := rfl
@[simp] theorem State.count_hart_sSeen (s : State) (code k : Nat) : (s.count code k).hart.sSeen = s.hart.sSeen := rfl
@[simp] theorem State.count_hart_partition (s : State) (code k : Nat) : (s.count code k).hart.partition = s.hart.partition := rfl
@[simp] theorem State.count_hart_ptroot (s : State) (code k : Nat) : (s.count code k).hart.ptroot = s.hart.ptroot := rfl
@[simp] theorem State.count_hart_domain (s : State) (code k : Nat) : (s.count code k).hart.domain = s.hart.domain := rfl
@[simp] theorem State.count_hart_share (s : State) (code k : Nat) : (s.count code k).hart.share = s.hart.share := rfl
@[simp] theorem State.count_hart_prio (s : State) (code k : Nat) : (s.count code k).hart.prio = s.hart.prio := rfl
@[simp] theorem State.count_hart_region (s : State) (code k : Nat) : (s.count code k).hart.region = s.hart.region := rfl
@[simp] theorem State.count_hart_gang (s : State) (code k : Nat) : (s.count code k).hart.gang = s.hart.gang := rfl
@[simp] theorem State.count_hart_credit (s : State) (code k : Nat) : (s.count code k).hart.credit = s.hart.credit := rfl
@[simp] theorem State.count_hart_waits (s : State) (code k : Nat) : (s.count code k).hart.waits = s.hart.waits := rfl
@[simp] theorem State.count_hart_since (s : State) (code k : Nat) : (s.count code k).hart.since = s.hart.since := rfl
@[simp] theorem State.count_hart_used (s : State) (code k : Nat) : (s.count code k).hart.used = s.hart.used := rfl
@[simp] theorem State.count_hart_usedSte (s : State) (code k : Nat) : (s.count code k).hart.usedSte = s.hart.usedSte := rfl
@[simp] theorem State.count_hart_granted (s : State) (code k : Nat) : (s.count code k).hart.granted = s.hart.granted := rfl
@[simp] theorem State.count_hart_relCap (s : State) (code k : Nat) : (s.count code k).hart.relCap = s.hart.relCap := rfl
@[simp] theorem State.count_hart_relAt (s : State) (code k : Nat) : (s.count code k).hart.relAt = s.hart.relAt := rfl
@[simp] theorem State.count_hart_csr (s : State) (code k : Nat) : (s.count code k).hart.csr = s.hart.csr.count code k := rfl

end Sys2Proof.Machine
end

