-- ==== Sys2Proof/Laws/Issue.lean ====
section
/-! SUPPORT. How an instruction that enters the VIQ runs when the vector unit is free (R11, R335): once for all of
them, so that a proof about one of them has to look at its own effect only. -/

namespace Sys2Proof.Machine

/-- Sorting keeps what one element alone gives. -/
theorem filterMap_insertRank {α β : Type} (le : α → α → Bool) (f : α → Option β) (x : α) :
    ∀ l : List α, (∀ y ∈ l, f y = none) → (insertRank le x l).filterMap f = (f x).toList := by
  intro l
  induction l with
  | nil => intro _; cases hx : f x <;> simp [insertRank, hx]
  | cons y r ih =>
    intro h
    have hy := h y (by simp)
    have hr : ∀ z ∈ r, f z = none := fun z hz => h z (by simp [hz])
    unfold insertRank
    split
    · have : r.filterMap f = [] := List.filterMap_eq_nil_iff.mpr hr
      cases hx : f x <;> simp [hx, hy, this]
    · simp [hy, ih hr]

theorem mem_insertRank {α : Type} (le : α → α → Bool) (x : α) : ∀ (l : List α) (y : α), y ∈ insertRank le x l ↔ y = x ∨ y ∈ l := by
  intro l
  induction l with
  | nil => intro y; simp [insertRank]
  | cons z r ih =>
    intro y
    unfold insertRank
    split
    · simp
    · simp only [List.mem_cons, ih]
      constructor
      · rintro (h | h | h) <;> simp [h]
      · rintro (h | h | h) <;> simp [h]

theorem mem_sortRank {α : Type} (le : α → α → Bool) : ∀ (l : List α) (y : α), y ∈ sortRank le l ↔ y ∈ l := by
  intro l
  induction l with
  | nil => intro y; simp [sortRank]
  | cons x r ih => intro y; simp [sortRank, mem_insertRank, ih]

theorem filterMap_sortRank {α β : Type} (le : α → α → Bool) (f : α → Option β) (x : α) (l : List α)
    (h : ∀ y ∈ l, f y = none) : (sortRank le (x :: l)).filterMap f = (f x).toList := by
  unfold sortRank
  exact filterMap_insertRank le f x _ fun y hy => h y ((mem_sortRank le l y).mp hy)

/-- A placed hart is found where it stands. -/
theorem State.refocus_self {s : State} (hp : s.hart.run ≠ .vacant) : s.refocus (some s.hart.csr.hartid) = s := by
  unfold State.refocus Hart.named
  simp [hp]

theorem State.refocus_focus (s : State) : s.refocus s.focus = s := by
  unfold State.refocus State.focus Hart.named
  simp

/-- One ready hart is the hart that the sequencer chooses. -/
theorem chooseHart_one (x : Hart × State) : chooseHart [x] = some x := by
  unfold chooseHart pickBy
  by_cases h : 256 ≤ x.1.waits <;> by_cases k : 0 ≤ credited x.1 <;> simp [h, k]

/-- A map with a value set that is not its default reads as the value. -/
theorem mapGet_mapSet_value {α : Type} [DecidableEq α] {d x : α} (hx : x ≠ d) (k : Nat) :
    ∀ m : SMap α, mapGet d (mapSet d m k x) k = x := by
  intro m
  induction m with
  | nil => simp [mapSet, mapGet, hx]
  | cons p r ih =>
    obtain ⟨a, y⟩ := p
    unfold mapSet
    rw [if_neg hx, if_neg hx]
    split
    · simp [mapGet]
    · split
      · simp [mapGet]
      · rename_i h1 h2
        rw [mapGet, if_neg (fun e => h2 e.symm)]
        exact ih

/-- Every other key of that map reads as before. -/
theorem mapGet_mapSet_keep {α : Type} [DecidableEq α] {d x : α} (hx : x ≠ d) {k j : Nat} (hj : j ≠ k) :
    ∀ m : SMap α, mapGet d (mapSet d m k x) j = mapGet d m j := by
  intro m
  induction m with
  | nil => simp [mapSet, mapGet, hx, Ne.symm hj]
  | cons p r ih =>
    obtain ⟨a, y⟩ := p
    unfold mapSet
    rw [if_neg hx, if_neg hx]
    split
    · rw [mapGet, if_neg (Ne.symm hj)]
    · split
      · rename_i h1 h2
        subst h2
        rw [mapGet, if_neg (Ne.symm hj), mapGet, if_neg (Ne.symm hj)]
      · simp only [mapGet, ih]

theorem mapSet_ne_nil {α : Type} [DecidableEq α] {d x : α} (hx : x ≠ d) (k : Nat) (m : SMap α) : mapSet d m k x ≠ [] := by
  intro h
  have := mapGet_mapSet_value hx k m
  rw [h] at this
  exact hx this.symm

end Sys2Proof.Machine

namespace Sys2Proof.Spec

open Sys2Proof.Machine

/-- A free vector unit has no work. -/
theorem viqReady_of_idle {s : State} (h : VIdle s) : s.hart.viqReady = false := by
  unfold Hart.viqReady
  rw [h.groups, h.tiles, h.queue]
  rfl

/-- An empty queue has room for any instruction but one that needs more than sixteen operands, which there is none. -/
theorem queueFull_of_idle {s : State} (h : VIdle s) {v : VInstr} (hv : soqCount v ≤ 16) : s.hart.queueFull v = false := by
  have he : s.hart.entries = [] := by unfold Hart.entries; rw [h.queue, h.tiles]; rfl
  unfold Hart.queueFull Hart.viqUsed Hart.soqUsed
  rw [he]
  simp
  omega

theorem soqCount_le (v : VInstr) : soqCount v ≤ 16 := by
  cases v <;> simp [soqCount, soqRegs]
  · unfold vScalars
    repeat' split
    all_goals simp
  · unfold vmScalars
    repeat' split
    all_goals simp

theorem queued_viq {s : State} (h : VIdle s) (v : VInstr) : (queued s v).hart.viq = [entryOf s v] := by
  show s.hart.viq ++ [entryOf s v] = _
  rw [h.queue]
  rfl

/-- The other harts of the partition have nothing to issue. -/
theorem others_idle {s : State} (h : VIdle s) {x : Hart} (hx : x ∈ s.others) (hb : SharesPartition s x) :
    x.viqReady = false ∧ x.viq = [] ∧ x.used.getLsbD 0 = false ∧ x.idleTo ≤ s.time ∧ x.sSeen = false := by
  obtain ⟨a, b, c, -, -, f, g, k⟩ := h.others x hx hb
  refine ⟨?_, a, f, g, k⟩
  unfold Hart.viqReady
  rw [a, b, c]
  rfl

/-- A state that is the queued one but for the compiler-directed partition's bookkeeping. -/
structure LikeQueued (s q : State) (v : VInstr) : Prop where
  same : q = { queued s v with cores := q.cores, hart := { (queued s v).hart with sSeen := q.hart.sSeen, used := q.hart.used } }
  cores : SameCores s q

/-- The harts bound to the partition in such a state: the hart itself and others that have nothing to issue. -/
theorem LikeQueued.bound {s q : State} {v : VInstr} (h : VIdle s) (k : LikeQueued s q v) :
    ∃ l : List Hart, q.boundHarts = q.hart :: l ∧
      ∀ x ∈ l, x.viqReady = false ∧ x.viq = [] ∧ x.used.getLsbD 0 = false ∧ x.idleTo ≤ s.time ∧ x.sSeen = false := by
  have hp : q.hart.run ≠ .vacant := by rw [k.same]; exact h.placed
  have ho : q.others = s.others := by rw [k.same]; rfl
  have hid : q.hart.csr.hartid = s.hart.csr.hartid := by rw [k.same]; rfl
  have hpt : q.hart.partition = s.hart.partition := by rw [k.same]; rfl
  refine ⟨q.others.filter q.isBound, ?_, ?_⟩
  · unfold State.boundHarts
    rw [List.filter_cons_of_pos (by unfold State.isBound; simp [hp])]
  · intro x hx
    rw [ho] at hx
    unfold State.isBound at hx
    rw [hid, hpt] at hx
    simp only [List.mem_filter, Bool.and_eq_true, bne_iff_ne, ne_eq, beq_iff_eq] at hx
    exact others_idle h hx.1 ⟨hx.2.1.1, hx.2.1.2, hx.2.2⟩

/-- The next bound hart that holds an entry is the hart itself: no other has one. -/
theorem nextBound_self {k : Hart} {l : List Hart} (hk : k.viq ≠ []) (hl : ∀ x ∈ l, x.viq = []) (slot : Nat) :
    nextBound (k :: l) slot = some k := by
  have hfl : (bySlot (k :: l)).filter (fun x => !x.viq.isEmpty) = [k] := by
    have := filterMap_sortRank (fun a b : Hart => decide (a.csr.hartid.toNat ≤ b.csr.hartid.toNat))
      (fun x => if !x.viq.isEmpty then some x else none) k l (by intro y hy; rw [hl y hy]; rfl)
    rw [← List.filterMap_eq_filter]
    unfold bySlot
    refine Eq.trans ?_ (this.trans ?_)
    · congr 1
    · simp [hk]
  unfold nextBound
  dsimp only
  rw [hfl]
  by_cases h : slot < slotOf k.csr.hartid <;> simp [h]

theorem slotOf_lt (id : BitVec 12) : slotOf id < 8 := Nat.mod_lt _ (by decide)

/-- Where the partition may be directed when it stays with the hart, or with none, is the hart itself. -/
theorem directTo_self {s : State} (h : VIdle s) (v : VInstr) :
    LikeQueued s ((queued s v).directTo (slotOf s.hart.csr.hartid)) v ∧
      ((queued s v).directTo (slotOf s.hart.csr.hartid)).cdSlot = slotOf s.hart.csr.hartid ∧
      ((queued s v).directTo (slotOf s.hart.csr.hartid)).hart.used = s.hart.used := by
  have h8 : slotOf s.hart.csr.hartid ≠ 8 := by have := slotOf_lt s.hart.csr.hartid; omega
  have hb : (queued s v).isBound (queued s v).hart = true := by
    unfold State.isBound
    simp [show (queued s v).hart.run ≠ .vacant from h.placed]
  have hoth : (queued s v).others.map (fun x => if (queued s v).isBound x then { x with sSeen := false } else x) = s.others := by
    show s.others.map _ = s.others
    refine (List.map_congr_left ?_).trans (List.map_id _)
    intro x hx
    split
    · rename_i hbx
      unfold State.isBound at hbx
      simp only [Bool.and_eq_true, bne_iff_ne, ne_eq, beq_iff_eq] at hbx
      have := (others_idle h hx ⟨hbx.1.1, hbx.1.2, hbx.2⟩).2.2.2.2
      cases x
      simp_all
    · rfl
  have hne : ({ s.coreSt (coreOf s.hart.csr.hartid) with cdSlot := mapSet 8 (s.coreSt (coreOf s.hart.csr.hartid)).cdSlot s.hart.partition.val (slotOf s.hart.csr.hartid) } : CoreSt) ≠
      CoreSt.reset := by
    intro e
    have := congrArg CoreSt.cdSlot e
    exact mapSet_ne_nil h8 _ _ this
  have hcs (n : Nat) : ((queued s v).directTo (slotOf s.hart.csr.hartid)).coreSt n =
      if n = coreOf s.hart.csr.hartid then { s.coreSt (coreOf s.hart.csr.hartid) with
        cdSlot := mapSet 8 (s.coreSt (coreOf s.hart.csr.hartid)).cdSlot s.hart.partition.val (slotOf s.hart.csr.hartid) }
      else s.coreSt n := by
    split
    · rename_i hn
      rw [hn]
      exact mapGet_mapSet_value hne _ _
    · rename_i hn
      exact mapGet_mapSet_keep hne hn _
  have hh : ((queued s v).directTo (slotOf s.hart.csr.hartid)).hart = { (queued s v).hart with sSeen := false } := by
    unfold State.directTo
    dsimp only
    rw [if_pos hb]
  refine ⟨⟨?_, ?_⟩, ?_, ?_⟩
  · unfold State.directTo
    dsimp only
    rw [hoth, if_pos hb]
    rfl
  · intro n
    rw [hcs n]
    split
    · rename_i hn
      rw [hn]
    · rfl
  · unfold State.cdSlot
    rw [hh]
    show mapGet 8 (State.coreSt _ (coreOf s.hart.csr.hartid)).cdSlot s.hart.partition.val = _
    rw [hcs, if_pos rfl]
    exact mapGet_mapSet_value h8 _ _
  · rw [hh]
    rfl

/-- What a compiler-directed partition does before its slot, with the hart's entry the only one: it stays with the
hart, or comes to it. -/
theorem moved_spec {s : State} (h : VIdle s) (v : VInstr) :
    LikeQueued s (moved (queued s v)) v ∧ (moved (queued s v)).hart.used = s.hart.used ∧ (s.hart.csr.status.cd = true →
      directedHart (moved (queued s v)) = some (moved (queued s v)).hart) := by
  have hcd : (queued s v).hart.csr.status.cd = s.hart.csr.status.cd := rfl
  have q0 : LikeQueued s (queued s v) v := ⟨rfl, fun n => rfl⟩
  unfold moved
  rw [hcd]
  cases hc : s.hart.csr.status.cd with
  | false => exact ⟨q0, rfl, fun e => absurd e (by decide)⟩
  | true =>
    obtain ⟨l, hb, hl⟩ := q0.bound h
    have hslot : slotOf (queued s v).hart.csr.hartid = slotOf s.hart.csr.hartid := rfl
    have hne : (queued s v).hart.viq ≠ [] := by rw [queued_viq h v]; simp
    have next (slot : Nat) : (queued s v).directNext slot = (queued s v).directTo (slotOf s.hart.csr.hartid) := by
      unfold State.directNext
      rw [hb, nextBound_self hne (fun x hx => (hl x hx).2.1)]
      rfl
    have toSelf : LikeQueued s ((queued s v).directTo (slotOf s.hart.csr.hartid)) v ∧
        ((queued s v).directTo (slotOf s.hart.csr.hartid)).hart.used = s.hart.used ∧ (true = true → directedHart ((queued s v).directTo (slotOf s.hart.csr.hartid)) =
          some ((queued s v).directTo (slotOf s.hart.csr.hartid)).hart) := by
      obtain ⟨a, b, c⟩ := directTo_self h v
      refine ⟨a, c, fun _ => ?_⟩
      obtain ⟨l', hb', -⟩ := a.bound h
      unfold directedHart
      rw [hb', b, List.find?_cons_of_pos]
      rw [a.same]
      show (slotOf s.hart.csr.hartid == slotOf s.hart.csr.hartid) = true
      simp
    rw [if_pos rfl]
    unfold directedMove
    have hs := h.stays hc
    simp only [List.mem_cons, List.not_mem_nil, or_false] at hs
    have hcur : (queued s v).cdSlot = mapGet 8 (s.coreSt s.core).cdSlot s.hart.partition.val := rfl
    rcases hs with e | e
    · have hd : directedHart (queued s v) = none := by
        unfold directedHart
        rw [hcur, e, List.find?_eq_none]
        intro x _
        have := slotOf_lt x.csr.hartid
        simp
        omega
      rw [hd]
      dsimp only
      rw [next]
      exact toSelf
    · have hd : directedHart (queued s v) = some (queued s v).hart := by
        unfold directedHart
        rw [hcur, e, hb, List.find?_cons_of_pos]
        simp [hslot]
      rw [hd]
      dsimp only
      rw [next]
      split
      · exact toSelf
      · exact ⟨q0, rfl, fun _ => hd⟩

/-- The state in which the entry is taken up, beside the queued one. -/
theorem issuing_like {s : State} (h : VIdle s) (v : VInstr) : LikeQueued s (issuing s v) v := by
  have k := (moved_spec h v).1
  refine ⟨?_, ?_⟩
  · exact (congrArg (fun q => q.onHart fun h => { h with used := h.used ||| 1 }) k.same).trans rfl
  · intro n
    exact k.cores n

theorem issuing_viq {s : State} (h : VIdle s) (v : VInstr) : (issuing s v).hart.viq = [entryOf s v] := by
  rw [(issuing_like h v).same]
  exact queued_viq h v

/-! ### What the vector unit does with the entry -/

/-- The entry that a free hart has just queued, as the vector unit takes it up. -/
noncomputable def taken (s : State) (v : VInstr) : Option State := issueEntry (entryOf s v) [] (issuing s v)

/-- The unit takes the entry up: nothing stands before it. -/
theorem issueConvoy_issuing {s : State} (h : VIdle s) (v : VInstr) :
    issueConvoy (issuing s v) = (taken s v).bind (issueMembers 3) := by
  unfold issueConvoy issueHead taken
  rw [issuing_viq h v]
  rfl

/-- An entry other than a RESTVQ or a tile instruction is taken up as the gate of R358 says, and then runs. -/
theorem taken_other {s : State} (h : VIdle s) {v : VInstr} (hv : ∀ a : Reg, v ≠ .restvq a) (ht : forEngine v = false) :
    taken s v = issueOther (entryOf s v) (issuing s v) := by
  have hi : (entryOf s v).instr = v := rfl
  have hfl : (entryOf s v).flying = false := rfl
  have k := (issuing_like h v).same
  have hf : (issuing s v).hart.frozen = false := by rw [k]; exact h.thawed
  have htl : (issuing s v).hart.tiles = [] := by rw [k]; exact h.tiles
  have hfill : (issuing s v).hart.csr.status.det = true → (issuing s v).hart.filling = [] := by rw [k]; exact h.filled
  have hd : detWaits (issuing s v).hart (entryOf s v) = false := by
    unfold detWaits
    rw [htl]
    cases hc : (issuing s v).hart.csr.status.det with
    | false => rfl
    | true => rw [hfill hc]; simp
  have htw : tileWaits (issuing s v).hart (entryOf s v) = false := by unfold tileWaits; rw [htl]; rfl
  clear k
  unfold taken issueEntry
  rw [hf, hfl, htw, hd]
  simp only [Bool.false_or, Bool.false_eq_true, if_false, hi]
  cases v with
  | restvq a => exact absurd rfl (hv a)
  | _ => simp_all

theorem issuing_loose {s : State} (h : VIdle s) (v : VInstr) : (issuing s v).loose = false := by
  rw [(issuing_like h v).same]; exact h.turns

/-- An admitted entry whose run completes leaves the VIQ. -/
theorem taken_done {s t : State} (h : VIdle s) {v : VInstr} (hv : ∀ a : Reg, v ≠ .restvq a) (ht : forEngine v = false)
    (ha : Admitted s v) (hr : runEntry (entryOf s v) (issuing s v) = .done t) :
    taken s v = some (completeEntry (entryOf s v) (issuing s v).hart t) := by
  rw [taken_other h hv ht]
  unfold issueOther
  rw [show gate (issuing s v) (entryOf s v) false = .open from ha, hr, issuing_loose h v]
  rfl

/-- A barred entry traps with its cause and stays at the head. -/
theorem taken_barred {s : State} (h : VIdle s) {v : VInstr} (hv : ∀ a : Reg, v ≠ .restvq a) (ht : forEngine v = false)
    {k : Trap} (hb : gate (issuing s v) (entryOf s v) false = .bar k) :
    taken s v = some (trapEntryAt (entryOf s v) (issuing s v).hart k (issuing s v)) := by
  have htl : (issuing s v).hart.tiles = [] := by rw [(issuing_like h v).same]; exact h.tiles
  rw [taken_other h hv ht]
  unfold issueOther
  rw [hb]
  dsimp only
  unfold State.whenOldest
  rw [htl]
  rfl

/-! ### The issue slot (R335 to R338) -/

/-- What the sequencer settles after the issue slot that gave `t`: credits and waits, or whether the convoy has a member
with s = 1. -/
noncomputable def slotAfter (s : State) (v : VInstr) (t : State) : State :=
  if s.hart.csr.status.cd then directedAfter (moved (queued s v)).hart t
  else settleCredits [(queued s v).hart] (some s.hart.csr.hartid) (coreOf s.hart.csr.hartid) s.hart.partition t

/-- The slot of the hart that has just queued its entry. -/
theorem issueOf_moved {s : State} (h : VIdle s) (v : VInstr) :
    issueOf (moved (queued s v)) (moved (queued s v)).hart = ((taken s v).bind (issueMembers 3)).map fun u => u.refocus s.focus := by
  have k := (moved_spec h v).1.same
  have hp : (moved (queued s v)).hart.run ≠ .vacant := by rw [k]; exact h.placed
  have hg : (moved (queued s v)).hart.groups = 0 := by rw [k]; exact h.groups
  have hfoc : (moved (queued s v)).focus = s.focus := by
    unfold State.focus
    rw [show (moved (queued s v)).hart.run = s.hart.run by rw [k]; rfl,
      show (moved (queued s v)).hart.csr.hartid = s.hart.csr.hartid by rw [k]; rfl]
  have hc := issueConvoy_issuing h v
  unfold issueOf
  rw [State.refocus_self hp, hfoc]
  unfold issueNext
  dsimp only
  rw [if_pos hg]
  unfold issuing at hc
  rw [hc]

/-- An instruction that enters the VIQ of a free vector unit: it is taken up at once, or waits as the one entry. -/
theorem enterQueue_idle {s : State} (h : VIdle s) (v : VInstr) :
    s.enterQueue v.bytes (entryOf s v) =
      match (taken s v).bind (issueMembers 3) with
      | some t => slotAfter s v (t.refocus s.focus)
      | none => if s.hart.csr.status.cd then moved (queued s v)
        else settleCredits [] none (coreOf s.hart.csr.hartid) s.hart.partition (queued s v) := by
  have q0 : LikeQueued s (queued s v) v := ⟨rfl, fun n => rfl⟩
  obtain ⟨l, hb, hl⟩ := q0.bound h
  have hfree : (queued s v).slotFree = true := by
    unfold State.slotFree
    rw [hb]
    simp only [List.all_cons, Bool.and_eq_true, Bool.not_eq_true', List.all_eq_true, decide_eq_true_eq]
    exact ⟨⟨h.slot, h.idle⟩, fun x hx => ⟨(hl x hx).2.2.1, (hl x hx).2.2.2.1⟩⟩
  have hq : (s.onHart (·.enqueue (entryOf s v))).advance v.bytes = queued s v := by
    unfold queued
    rw [VInstr.instrLen_toInstr]
  unfold State.enterQueue
  dsimp only
  rw [hq, if_pos hfree]
  unfold Machine.sequence
  dsimp only
  have hcd : (queued s v).hart.csr.status.cd = s.hart.csr.status.cd := rfl
  obtain ⟨hm, hu, hdir⟩ := moved_spec h v
  have hio := issueOf_moved h v
  rw [hcd]
  cases hc : s.hart.csr.status.cd with
  | false =>
    have hmq : moved (queued s v) = queued s v := by unfold moved; rw [hcd, hc]; rfl
    rw [hmq] at hio
    have hcap : (queued s v).capped (queued s v).hart = false := h.cap
    have hready : (queued s v).hart.viqReady = true := by
      unfold Hart.viqReady
      rw [queued_viq h v, show (queued s v).hart.frozen = false from h.thawed]
      simp
    have hslots : slotsOf (queued s v) (bySlot ((queued s v).boundHarts.filter fun x => !(queued s v).capped x)) =
        ((issueOf (queued s v) (queued s v).hart).map fun t => ((queued s v).hart, t)).toList := by
      unfold slotsOf bySlot
      rw [hb, List.filter_cons_of_pos (by simp [hcap])]
      rw [filterMap_sortRank]
      · rw [hready]; simp
      · intro y hy
        rw [(hl y (List.mem_filter.mp hy).1).1]
        rfl
    rw [if_neg (by decide), hslots, hio]
    cases (taken s v).bind (issueMembers 3) with
    | none => rfl
    | some t =>
      simp only [Option.map_some, Option.toList_some, chooseHart_one]
      unfold slotAfter
      rw [hc]
      rfl
  | true =>
    have hmv : moved (queued s v) = directedMove (queued s v) := by unfold moved; rw [hcd, hc]; rfl
    rw [if_pos rfl, ← hmv, hdir hc]
    have hcap : (moved (queued s v)).capped (moved (queued s v)).hart = false := by
      rw [hm.same, hu]
      exact h.cap
    dsimp only
    rw [hcap]
    unfold directedSlot
    have hg0 : (moved (queued s v)).hart.vgap = 0 := by rw [hm.same]; exact h.gap hc
    rw [hg0]
    simp only [Nat.lt_irrefl, decide_false, Bool.false_and, Bool.false_eq_true, if_false]
    rw [hio]
    cases (taken s v).bind (issueMembers 3) with
    | none => rfl
    | some t =>
      unfold slotAfter
      rw [hc]
      rfl

/-- An instruction that enters the VIQ of a free vector unit. -/
theorem queueV_ready {s : State} (h : VReady s) (v : VInstr) :
    queueV v.bytes v s = .next (s.enterQueue v.bytes (entryOf s v)) := by
  have hoff : s.hart.vsOff = false := by unfold Hart.vsOff; simpa using h.2
  unfold queueV queueOps
  rw [hoff, Bool.and_false, if_neg (by decide), queueFull_of_idle h.1 (soqCount_le v), if_neg (by decide)]
  rfl

/-- After an entry has left nothing behind it, its convoy has no further member. -/
theorem issueMembers_none {t : State} (n : Nat) (h : t.hart.viq = []) : issueMembers n t = some t := by
  cases n with
  | zero => rfl
  | succ n => unfold issueMembers; rw [h]

/-- An admitted instruction whose entry completes with nothing behind it: the next state, with everything that its
completion and its issue slot do. -/
theorem queueV_done {s t : State} (h : VReady s) {v : VInstr} (hv : ∀ a : Reg, v ≠ .restvq a) (ht : forEngine v = false)
    (ha : Admitted s v) (hr : runEntry (entryOf s v) (issuing s v) = .done t)
    (hq : (completeEntry (entryOf s v) (issuing s v).hart t).hart.viq = [])
    (hf : (completeEntry (entryOf s v) (issuing s v).hart t).refocus s.focus =
      completeEntry (entryOf s v) (issuing s v).hart t) :
    queueV v.bytes v s = .next (slotAfter s v (completeEntry (entryOf s v) (issuing s v).hart t)) := by
  rw [queueV_ready h v, enterQueue_idle h.1 v, taken_done h.1 hv ht ha hr]
  simp only [Option.bind_some]
  rw [issueMembers_none 3 hq]
  dsimp only
  rw [hf]

/-- While STATUS.VS is OFF an instruction of the vector kinds traps VFIRST (R28). -/
theorem queueV_off {s : State} {v : VInstr} (len : Nat) (h : s.hart.csr.status.vs = 0) (hv : trapsVfirst v = true) :
    queueV len v s = .next (s.trapVfirst (heldWord v)) := by
  unfold queueV
  rw [if_pos (by unfold Hart.vsOff; rw [hv, h]; rfl)]

end Sys2Proof.Spec
end

