-- ==== Sys2Proof/Laws/PerInstr.lean ====
section
/-! SUPPORT. For each constructor of Instr: its encoding, if it has one, fits the length that its first halfword
fixes, so that the decoder reads exactly its bits (R69). -/

namespace Sys2Proof.Laws.EncLen

open Sys2Proof

/-- The encoding of an instruction fits the length that its first halfword fixes. -/
def Statement (i : Instr) : Prop := ∀ w : Nat, encode i = some w → Fits w

/-- By the fields of the encoding. -/
theorem ofFields {i : Instr} {fs : Fields} (e : encFields i = some fs) (h : Fits (pack fs)) : Statement i := by
  intro w hw
  unfold encode at hw
  rw [e] at hw
  exact Option.some.inj hw ▸ h

/-- An instruction that enters the VIQ. -/
theorem ofHeld {i : Instr} (v : VInstr) (e : encFields i = some v.fields) : Statement i := ofFields e v.fits_fields.2

/-- A 32-bit word. -/
theorem ofWord {i : Instr} {fs : Fields} (e : encFields i = some ((1, 0) :: fs)) (h : Fields.bits fs = 31) : Statement i :=
  ofFields e (fits_word fs rfl h).2

/-- A compressed halfword. -/
theorem ofHalf {i : Instr} {fs : Fields} (e : encFields i = some ((2, 1) :: fs)) (h : Fields.bits fs = 14) : Statement i :=
  ofFields e (fits_half fs rfl h).2

/-- An event has no encoding. -/
theorem ofEvent {i : Instr} (e : encFields i = none) : Statement i := by
  intro w hw
  unfold encode at hw
  rw [e] at hw
  cases hw

theorem add (o : R3) : Statement (.add o) := ofWord rfl rfl
theorem sub (o : R3) : Statement (.sub o) := ofWord rfl rfl
theorem and (o : R3) : Statement (.and o) := ofWord rfl rfl
theorem or (o : R3) : Statement (.or o) := ofWord rfl rfl
theorem xor (o : R3) : Statement (.xor o) := ofWord rfl rfl
theorem andn (o : R3) : Statement (.andn o) := ofWord rfl rfl
theorem sll (o : R3) : Statement (.sll o) := ofWord rfl rfl
theorem srl (o : R3) : Statement (.srl o) := ofWord rfl rfl
theorem sra (o : R3) : Statement (.sra o) := ofWord rfl rfl
theorem rol (o : R3) : Statement (.rol o) := ofWord rfl rfl
theorem slt (o : R3) : Statement (.slt o) := ofWord rfl rfl
theorem sltu (o : R3) : Statement (.sltu o) := ofWord rfl rfl
theorem min (o : R3) : Statement (.min o) := ofWord rfl rfl
theorem max (o : R3) : Statement (.max o) := ofWord rfl rfl
theorem minu (o : R3) : Statement (.minu o) := ofWord rfl rfl
theorem maxu (o : R3) : Statement (.maxu o) := ofWord rfl rfl
theorem mul (o : R3) : Statement (.mul o) := ofWord rfl rfl
theorem mulh (o : R3) : Statement (.mulh o) := ofWord rfl rfl
theorem mulhu (o : R3) : Statement (.mulhu o) := ofWord rfl rfl
theorem div (o : R3) : Statement (.div o) := ofWord rfl rfl
theorem divu (o : R3) : Statement (.divu o) := ofWord rfl rfl
theorem rem (o : R3) : Statement (.rem o) := ofWord rfl rfl
theorem remu (o : R3) : Statement (.remu o) := ofWord rfl rfl
theorem clz (o : R2) : Statement (.clz o) := ofWord rfl rfl
theorem ctz (o : R2) : Statement (.ctz o) := ofWord rfl rfl
theorem popc (o : R2) : Statement (.popc o) := ofWord rfl rfl
theorem bswap (o : R2) : Statement (.bswap o) := ofWord rfl rfl
theorem sext (o : ExtOp) : Statement (.sext o) := ofWord rfl rfl
theorem zext (o : ExtOp) : Statement (.zext o) := ofWord rfl rfl
theorem sel (o : SelOp) : Statement (.sel o) := ofWord rfl rfl
theorem addi (o : IOp) : Statement (.addi o) := ofWord rfl rfl
theorem andi (o : IOp) : Statement (.andi o) := ofWord rfl rfl
theorem ori (o : IOp) : Statement (.ori o) := ofWord rfl rfl
theorem xori (o : IOp) : Statement (.xori o) := ofWord rfl rfl
theorem slli (o : ShOp) : Statement (.slli o) := ofWord rfl rfl
theorem srli (o : ShOp) : Statement (.srli o) := ofWord rfl rfl
theorem srai (o : ShOp) : Statement (.srai o) := ofWord rfl rfl
theorem slti (o : IOp) : Statement (.slti o) := ofWord rfl rfl
theorem lih (o : UOp) : Statement (.lih o) := ofWord rfl rfl
theorem addpc (o : UOp) : Statement (.addpc o) := ofWord rfl rfl
theorem lb (o : MOp) : Statement (.lb o) := ofWord rfl rfl
theorem lh (o : MOp) : Statement (.lh o) := ofWord rfl rfl
theorem lw (o : MOp) : Statement (.lw o) := ofWord rfl rfl
theorem ld (o : MOp) : Statement (.ld o) := ofWord rfl rfl
theorem lbu (o : MOp) : Statement (.lbu o) := ofWord rfl rfl
theorem lhu (o : MOp) : Statement (.lhu o) := ofWord rfl rfl
theorem lwu (o : MOp) : Statement (.lwu o) := ofWord rfl rfl
theorem sb (o : MOp) : Statement (.sb o) := ofWord rfl rfl
theorem sh (o : MOp) : Statement (.sh o) := ofWord rfl rfl
theorem sw (o : MOp) : Statement (.sw o) := ofWord rfl rfl
theorem sd (o : MOp) : Statement (.sd o) := ofWord rfl rfl
theorem beq (o : BOp) : Statement (.beq o) := ofWord rfl rfl
theorem bne (o : BOp) : Statement (.bne o) := ofWord rfl rfl
theorem blt (o : BOp) : Statement (.blt o) := ofWord rfl rfl
theorem bge (o : BOp) : Statement (.bge o) := ofWord rfl rfl
theorem bltu (o : BOp) : Statement (.bltu o) := ofWord rfl rfl
theorem bgeu (o : BOp) : Statement (.bgeu o) := ofWord rfl rfl
theorem bstrip (o : BsOp) : Statement (.bstrip o) := ofWord rfl rfl
theorem j (off : BitVec 20) : Statement (.j off) := ofWord rfl rfl
theorem call (off : BitVec 20) : Statement (.call off) := ofWord rfl rfl
theorem ji (o : JiOp) : Statement (.ji o) := ofWord rfl rfl
theorem calli (o : JiOp) : Statement (.calli o) := ofWord rfl rfl
theorem ret : Statement .ret := ofWord rfl rfl
theorem fadd (o : FpOp) : Statement (.fadd o) := ofWord rfl rfl
theorem fsub (o : FpOp) : Statement (.fsub o) := ofWord rfl rfl
theorem fmul (o : FpOp) : Statement (.fmul o) := ofWord rfl rfl
theorem fdiv (o : FpOp) : Statement (.fdiv o) := ofWord rfl rfl
theorem fsqrt (o : FpOp) : Statement (.fsqrt o) := ofWord rfl rfl
theorem fma (o : FpOp) : Statement (.fma o) := ofWord rfl rfl
theorem fmin (o : FpOp) : Statement (.fmin o) := ofWord rfl rfl
theorem fmax (o : FpOp) : Statement (.fmax o) := ofWord rfl rfl
theorem fcmpeq (o : FpOp) : Statement (.fcmpeq o) := ofWord rfl rfl
theorem fcmplt (o : FpOp) : Statement (.fcmplt o) := ofWord rfl rfl
theorem fcmple (o : FpOp) : Statement (.fcmple o) := ofWord rfl rfl
theorem fclass (o : FpOp) : Statement (.fclass o) := ofWord rfl rfl
theorem fsgnj (o : FpOp) : Statement (.fsgnj o) := ofWord rfl rfl
theorem fsgnjn (o : FpOp) : Statement (.fsgnjn o) := ofWord rfl rfl
theorem fsgnjx (o : FpOp) : Statement (.fsgnjx o) := ofWord rfl rfl
theorem fcvtfi (o : FcvtIOp) : Statement (.fcvtfi o) := ofWord rfl rfl
theorem fcvtif (o : FcvtIOp) : Statement (.fcvtif o) := ofWord rfl rfl
theorem fcvtff (o : FcvtFOp) : Statement (.fcvtff o) := ofWord rfl rfl
theorem amoadd (o : AmoOp) : Statement (.amoadd o) := ofWord rfl rfl
theorem amoand (o : AmoOp) : Statement (.amoand o) := ofWord rfl rfl
theorem amoor (o : AmoOp) : Statement (.amoor o) := ofWord rfl rfl
theorem amoxor (o : AmoOp) : Statement (.amoxor o) := ofWord rfl rfl
theorem amomin (o : AmoOp) : Statement (.amomin o) := ofWord rfl rfl
theorem amomax (o : AmoOp) : Statement (.amomax o) := ofWord rfl rfl
theorem amominu (o : AmoOp) : Statement (.amominu o) := ofWord rfl rfl
theorem amomaxu (o : AmoOp) : Statement (.amomaxu o) := ofWord rfl rfl
theorem amoswap (o : AmoOp) : Statement (.amoswap o) := ofWord rfl rfl
theorem amocas (o : AmoOp) : Statement (.amocas o) := ofWord rfl rfl
theorem lda (o : AmoOp) : Statement (.lda o) := ofWord rfl rfl
theorem str (o : AmoOp) : Statement (.str o) := ofWord rfl rfl
theorem take (o : AmoOp) : Statement (.take o) := ofWord rfl rfl
theorem steal (o : AmoOp) : Statement (.steal o) := ofWord rfl rfl
theorem ticket (o : AmoOp) : Statement (.ticket o) := ofWord rfl rfl
theorem trap (code : BitVec 12) : Statement (.trap code) := ofWord rfl rfl
theorem eret : Statement .eret := ofWord rfl rfl
theorem crd (o : CrdOp) : Statement (.crd o) := ofWord rfl rfl
theorem cwr (o : CrOp) : Statement (.cwr o) := ofWord rfl rfl
theorem crs (o : CrOp) : Statement (.crs o) := ofWord rfl rfl
theorem crc (o : CrOp) : Statement (.crc o) := ofWord rfl rfl
theorem wfe : Statement .wfe := ofWord rfl rfl
theorem pause : Statement .pause := ofWord rfl rfl
theorem fence (scope : Scope) (kind : FenceKind) : Statement (.fence scope kind) := ofWord rfl rfl
theorem svfence : Statement .svfence := ofWord rfl rfl
theorem ifence : Statement .ifence := ofWord rfl rfl
theorem vlsync : Statement .vlsync := ofHeld _ rfl
theorem lafence (scope : Scope) : Statement (.lafence scope) := ofHeld _ rfl
theorem tlbinv (o : AbOp) : Statement (.tlbinv o) := ofHeld _ rfl
theorem efence (scope : Scope) : Statement (.efence scope) := ofHeld _ rfl
theorem setvli (o : SetvliOp) : Statement (.setvli o) := ofHeld _ rfl
theorem setvl (o : R3) : Statement (.setvl o) := ofHeld _ rfl
theorem enq (o : EnqOp) : Statement (.enq o) := ofHeld _ rfl
theorem enqSlotWrite : Statement .enqSlotWrite := ofEvent rfl
theorem seqwait (o : R3) : Statement (.seqwait o) := ofWord rfl rfl
theorem seqrd (o : R2) : Statement (.seqrd o) := ofWord rfl rfl
theorem qbind (o : QbindOp) : Statement (.qbind o) := ofWord rfl rfl
theorem qrd (o : QrdOp) : Statement (.qrd o) := ofWord rfl rfl
theorem arrwait (o : R3) : Statement (.arrwait o) := ofWord rfl rfl
theorem waitSatisfied : Statement .waitSatisfied := ofEvent rfl
theorem gbar : Statement .gbar := ofWord rfl rfl
theorem gbarRelease : Statement .gbarRelease := ofEvent rfl
theorem watchSet (o : AbOp) : Statement (.watchSet o) := ofWord rfl rfl
theorem watchClr (o : AbOp) : Statement (.watchClr o) := ofWord rfl rfl
theorem savevq (a : Reg) : Statement (.savevq a) := ofWord rfl rfl
theorem restvq (a : Reg) : Statement (.restvq a) := ofHeld _ rfl
theorem restvqHead : Statement .restvqHead := ofEvent rfl
theorem vadd (o : VOp) : Statement (.vadd o) := ofHeld _ rfl
theorem vsub (o : VOp) : Statement (.vsub o) := ofHeld _ rfl
theorem vmul (o : VOp) : Statement (.vmul o) := ofHeld _ rfl
theorem vmulh (o : VOp) : Statement (.vmulh o) := ofHeld _ rfl
theorem vmulhu (o : VOp) : Statement (.vmulhu o) := ofHeld _ rfl
theorem vmin (o : VOp) : Statement (.vmin o) := ofHeld _ rfl
theorem vmax (o : VOp) : Statement (.vmax o) := ofHeld _ rfl
theorem vminu (o : VOp) : Statement (.vminu o) := ofHeld _ rfl
theorem vmaxu (o : VOp) : Statement (.vmaxu o) := ofHeld _ rfl
theorem vand (o : VOp) : Statement (.vand o) := ofHeld _ rfl
theorem vor (o : VOp) : Statement (.vor o) := ofHeld _ rfl
theorem vxor (o : VOp) : Statement (.vxor o) := ofHeld _ rfl
theorem vsll (o : VOp) : Statement (.vsll o) := ofHeld _ rfl
theorem vsrl (o : VOp) : Statement (.vsrl o) := ofHeld _ rfl
theorem vsra (o : VOp) : Statement (.vsra o) := ofHeld _ rfl
theorem vabs (o : VOp) : Statement (.vabs o) := ofHeld _ rfl
theorem vdiv (o : VOp) : Statement (.vdiv o) := ofHeld _ rfl
theorem vdivu (o : VOp) : Statement (.vdivu o) := ofHeld _ rfl
theorem vrem (o : VOp) : Statement (.vrem o) := ofHeld _ rfl
theorem vremu (o : VOp) : Statement (.vremu o) := ofHeld _ rfl
theorem vsadd (o : VOp) : Statement (.vsadd o) := ofHeld _ rfl
theorem vssub (o : VOp) : Statement (.vssub o) := ofHeld _ rfl
theorem vsaddu (o : VOp) : Statement (.vsaddu o) := ofHeld _ rfl
theorem vssubu (o : VOp) : Statement (.vssubu o) := ofHeld _ rfl
theorem vwmul (o : VOp) : Statement (.vwmul o) := ofHeld _ rfl
theorem vwmulu (o : VOp) : Statement (.vwmulu o) := ofHeld _ rfl
theorem vwmac (o : VOp) : Statement (.vwmac o) := ofHeld _ rfl
theorem vwmacu (o : VOp) : Statement (.vwmacu o) := ofHeld _ rfl
theorem vwmacsu (o : VOp) : Statement (.vwmacsu o) := ofHeld _ rfl
theorem vnshr (o : VOp) : Statement (.vnshr o) := ofHeld _ rfl
theorem vnshru (o : VOp) : Statement (.vnshru o) := ofHeld _ rfl
theorem vmv (o : VOp) : Statement (.vmv o) := ofHeld _ rfl
theorem vaddVx (o : VOp) : Statement (.vaddVx o) := ofHeld _ rfl
theorem vsubVx (o : VOp) : Statement (.vsubVx o) := ofHeld _ rfl
theorem vmulVx (o : VOp) : Statement (.vmulVx o) := ofHeld _ rfl
theorem vmulhVx (o : VOp) : Statement (.vmulhVx o) := ofHeld _ rfl
theorem vmulhuVx (o : VOp) : Statement (.vmulhuVx o) := ofHeld _ rfl
theorem vminVx (o : VOp) : Statement (.vminVx o) := ofHeld _ rfl
theorem vmaxVx (o : VOp) : Statement (.vmaxVx o) := ofHeld _ rfl
theorem vminuVx (o : VOp) : Statement (.vminuVx o) := ofHeld _ rfl
theorem vmaxuVx (o : VOp) : Statement (.vmaxuVx o) := ofHeld _ rfl
theorem vandVx (o : VOp) : Statement (.vandVx o) := ofHeld _ rfl
theorem vorVx (o : VOp) : Statement (.vorVx o) := ofHeld _ rfl
theorem vxorVx (o : VOp) : Statement (.vxorVx o) := ofHeld _ rfl
theorem vsllVx (o : VOp) : Statement (.vsllVx o) := ofHeld _ rfl
theorem vsrlVx (o : VOp) : Statement (.vsrlVx o) := ofHeld _ rfl
theorem vsraVx (o : VOp) : Statement (.vsraVx o) := ofHeld _ rfl
theorem vdivVx (o : VOp) : Statement (.vdivVx o) := ofHeld _ rfl
theorem vdivuVx (o : VOp) : Statement (.vdivuVx o) := ofHeld _ rfl
theorem vremVx (o : VOp) : Statement (.vremVx o) := ofHeld _ rfl
theorem vremuVx (o : VOp) : Statement (.vremuVx o) := ofHeld _ rfl
theorem vsaddVx (o : VOp) : Statement (.vsaddVx o) := ofHeld _ rfl
theorem vssubVx (o : VOp) : Statement (.vssubVx o) := ofHeld _ rfl
theorem vsadduVx (o : VOp) : Statement (.vsadduVx o) := ofHeld _ rfl
theorem vssubuVx (o : VOp) : Statement (.vssubuVx o) := ofHeld _ rfl
theorem vwmulVx (o : VOp) : Statement (.vwmulVx o) := ofHeld _ rfl
theorem vwmuluVx (o : VOp) : Statement (.vwmuluVx o) := ofHeld _ rfl
theorem vwmacVx (o : VOp) : Statement (.vwmacVx o) := ofHeld _ rfl
theorem vwmacuVx (o : VOp) : Statement (.vwmacuVx o) := ofHeld _ rfl
theorem vwmacsuVx (o : VOp) : Statement (.vwmacsuVx o) := ofHeld _ rfl
theorem vnshrVx (o : VOp) : Statement (.vnshrVx o) := ofHeld _ rfl
theorem vnshruVx (o : VOp) : Statement (.vnshruVx o) := ofHeld _ rfl
theorem vfadd (o : VOp) : Statement (.vfadd o) := ofHeld _ rfl
theorem vfsub (o : VOp) : Statement (.vfsub o) := ofHeld _ rfl
theorem vfmul (o : VOp) : Statement (.vfmul o) := ofHeld _ rfl
theorem vfdiv (o : VOp) : Statement (.vfdiv o) := ofHeld _ rfl
theorem vfmin (o : VOp) : Statement (.vfmin o) := ofHeld _ rfl
theorem vfmax (o : VOp) : Statement (.vfmax o) := ofHeld _ rfl
theorem vfma (o : VOp) : Statement (.vfma o) := ofHeld _ rfl
theorem vfms (o : VOp) : Statement (.vfms o) := ofHeld _ rfl
theorem vfnma (o : VOp) : Statement (.vfnma o) := ofHeld _ rfl
theorem vfnms (o : VOp) : Statement (.vfnms o) := ofHeld _ rfl
theorem vfsqrt (o : VOp) : Statement (.vfsqrt o) := ofHeld _ rfl
theorem vfrece (o : VOp) : Statement (.vfrece o) := ofHeld _ rfl
theorem vfrsqe (o : VOp) : Statement (.vfrsqe o) := ofHeld _ rfl
theorem vfsgn (o : VOp) : Statement (.vfsgn o) := ofHeld _ rfl
theorem vfclass (o : VOp) : Statement (.vfclass o) := ofHeld _ rfl
theorem vfabs (o : VOp) : Statement (.vfabs o) := ofHeld _ rfl
theorem vfcvtF2i (o : VOp) : Statement (.vfcvtF2i o) := ofHeld _ rfl
theorem vfcvtF2u (o : VOp) : Statement (.vfcvtF2u o) := ofHeld _ rfl
theorem vfcvtI2f (o : VOp) : Statement (.vfcvtI2f o) := ofHeld _ rfl
theorem vfcvtU2f (o : VOp) : Statement (.vfcvtU2f o) := ofHeld _ rfl
theorem vfcvtF2iz (o : VOp) : Statement (.vfcvtF2iz o) := ofHeld _ rfl
theorem vfcvtF2uz (o : VOp) : Statement (.vfcvtF2uz o) := ofHeld _ rfl
theorem vfcvtFwid (o : VOp) : Statement (.vfcvtFwid o) := ofHeld _ rfl
theorem vfcvtFnar (o : VOp) : Statement (.vfcvtFnar o) := ofHeld _ rfl
theorem vfcvtFrnd (o : VOp) : Statement (.vfcvtFrnd o) := ofHeld _ rfl
theorem vfaddVx (o : VOp) : Statement (.vfaddVx o) := ofHeld _ rfl
theorem vfsubVx (o : VOp) : Statement (.vfsubVx o) := ofHeld _ rfl
theorem vfmulVx (o : VOp) : Statement (.vfmulVx o) := ofHeld _ rfl
theorem vfdivVx (o : VOp) : Statement (.vfdivVx o) := ofHeld _ rfl
theorem vfminVx (o : VOp) : Statement (.vfminVx o) := ofHeld _ rfl
theorem vfmaxVx (o : VOp) : Statement (.vfmaxVx o) := ofHeld _ rfl
theorem vfmaVx (o : VOp) : Statement (.vfmaVx o) := ofHeld _ rfl
theorem vfmsVx (o : VOp) : Statement (.vfmsVx o) := ofHeld _ rfl
theorem vcmpEq (o : VOp) : Statement (.vcmpEq o) := ofHeld _ rfl
theorem vcmpNe (o : VOp) : Statement (.vcmpNe o) := ofHeld _ rfl
theorem vcmpLt (o : VOp) : Statement (.vcmpLt o) := ofHeld _ rfl
theorem vcmpGe (o : VOp) : Statement (.vcmpGe o) := ofHeld _ rfl
theorem vcmpLtu (o : VOp) : Statement (.vcmpLtu o) := ofHeld _ rfl
theorem vcmpGeu (o : VOp) : Statement (.vcmpGeu o) := ofHeld _ rfl
theorem vfcmpEq (o : VOp) : Statement (.vfcmpEq o) := ofHeld _ rfl
theorem vfcmpLt (o : VOp) : Statement (.vfcmpLt o) := ofHeld _ rfl
theorem vfcmpLe (o : VOp) : Statement (.vfcmpLe o) := ofHeld _ rfl
theorem vfcmpNe (o : VOp) : Statement (.vfcmpNe o) := ofHeld _ rfl
theorem vfcmpUnord (o : VOp) : Statement (.vfcmpUnord o) := ofHeld _ rfl
theorem vfcmpOrd (o : VOp) : Statement (.vfcmpOrd o) := ofHeld _ rfl
theorem vredsum (o : VOp) : Statement (.vredsum o) := ofHeld _ rfl
theorem vredmax (o : VOp) : Statement (.vredmax o) := ofHeld _ rfl
theorem vredmin (o : VOp) : Statement (.vredmin o) := ofHeld _ rfl
theorem vredmaxu (o : VOp) : Statement (.vredmaxu o) := ofHeld _ rfl
theorem vredminu (o : VOp) : Statement (.vredminu o) := ofHeld _ rfl
theorem vredand (o : VOp) : Statement (.vredand o) := ofHeld _ rfl
theorem vredor (o : VOp) : Statement (.vredor o) := ofHeld _ rfl
theorem vredxor (o : VOp) : Statement (.vredxor o) := ofHeld _ rfl
theorem vfredsumO (o : VOp) : Statement (.vfredsumO o) := ofHeld _ rfl
theorem vfredsumU (o : VOp) : Statement (.vfredsumU o) := ofHeld _ rfl
theorem vfredmax (o : VOp) : Statement (.vfredmax o) := ofHeld _ rfl
theorem vfredmin (o : VOp) : Statement (.vfredmin o) := ofHeld _ rfl
theorem vfscanO (o : VOp) : Statement (.vfscanO o) := ofHeld _ rfl
theorem vfscanF (o : VOp) : Statement (.vfscanF o) := ofHeld _ rfl
theorem vscan (o : VOp) : Statement (.vscan o) := ofHeld _ rfl
theorem vsegscan (o : VOp) : Statement (.vsegscan o) := ofHeld _ rfl
theorem vldUnit (o : VMOp) : Statement (.vldUnit o) := ofHeld _ rfl
theorem vldStrided (o : VMOp) : Statement (.vldStrided o) := ofHeld _ rfl
theorem vldIndexed (o : VMOp) : Statement (.vldIndexed o) := ofHeld _ rfl
theorem vldff (o : VMOp) : Statement (.vldff o) := ofHeld _ rfl
theorem vstUnit (o : VMOp) : Statement (.vstUnit o) := ofHeld _ rfl
theorem vstStrided (o : VMOp) : Statement (.vstStrided o) := ofHeld _ rfl
theorem vstIndexed (o : VMOp) : Statement (.vstIndexed o) := ofHeld _ rfl
theorem vstbUnit (o : VMOp) : Statement (.vstbUnit o) := ofHeld _ rfl
theorem vstbStrided (o : VMOp) : Statement (.vstbStrided o) := ofHeld _ rfl
theorem vstbIndexed (o : VMOp) : Statement (.vstbIndexed o) := ofHeld _ rfl
theorem vamoadd (o : VMOp) : Statement (.vamoadd o) := ofHeld _ rfl
theorem vamoand (o : VMOp) : Statement (.vamoand o) := ofHeld _ rfl
theorem vamoor (o : VMOp) : Statement (.vamoor o) := ofHeld _ rfl
theorem vamoxor (o : VMOp) : Statement (.vamoxor o) := ofHeld _ rfl
theorem vamomin (o : VMOp) : Statement (.vamomin o) := ofHeld _ rfl
theorem vamomax (o : VMOp) : Statement (.vamomax o) := ofHeld _ rfl
theorem vamoswap (o : VMOp) : Statement (.vamoswap o) := ofHeld _ rfl
theorem vscaddD (o : VMOp) : Statement (.vscaddD o) := ofHeld _ rfl
theorem vscaddU (o : VMOp) : Statement (.vscaddU o) := ofHeld _ rfl
theorem vscaddReplayGroup : Statement .vscaddReplayGroup := ofEvent rfl
theorem vldkUnit (o : VMOp) : Statement (.vldkUnit o) := ofHeld _ rfl
theorem vldkStrided (o : VMOp) : Statement (.vldkStrided o) := ofHeld _ rfl
theorem vcompress (o : VOp) : Statement (.vcompress o) := ofHeld _ rfl
theorem vexpand (o : VOp) : Statement (.vexpand o) := ofHeld _ rfl
theorem vpopcpfx (o : VOp) : Statement (.vpopcpfx o) := ofHeld _ rfl
theorem vconflict (o : VOp) : Statement (.vconflict o) := ofHeld _ rfl
theorem vprune (o : VOp) : Statement (.vprune o) := ofHeld _ rfl
theorem vperm (o : VOp) : Statement (.vperm o) := ofHeld _ rfl
theorem vslideup (o : VOp) : Statement (.vslideup o) := ofHeld _ rfl
theorem vslidedn (o : VOp) : Statement (.vslidedn o) := ofHeld _ rfl
theorem vbcast (o : VOp) : Statement (.vbcast o) := ofHeld _ rfl
theorem vmvxv (o : VOp) : Statement (.vmvxv o) := ofHeld _ rfl
theorem vmvvx (o : VOp) : Statement (.vmvvx o) := ofHeld _ rfl
theorem viota (o : VOp) : Statement (.viota o) := ofHeld _ rfl
theorem vqrd (o : VOp) : Statement (.vqrd o) := ofHeld _ rfl
theorem vmvcmpl (o : VOp) : Statement (.vmvcmpl o) := ofHeld _ rfl
theorem wcond (o : VOp) : Statement (.wcond o) := ofHeld _ rfl
theorem wsig (o : VOp) : Statement (.wsig o) := ofHeld _ rfl
theorem wnot (o : VOp) : Statement (.wnot o) := ofHeld _ rfl
theorem wmul (o : VOp) : Statement (.wmul o) := ofHeld _ rfl
theorem wmin (o : VOp) : Statement (.wmin o) := ofHeld _ rfl
theorem wmax (o : VOp) : Statement (.wmax o) := ofHeld _ rfl
theorem wmv (o : VOp) : Statement (.wmv o) := ofHeld _ rfl
theorem wmvv (o : VOp) : Statement (.wmvv o) := ofHeld _ rfl
theorem join (o : VOp) : Statement (.join o) := ofHeld _ rfl
theorem jgrad (o : VOp) : Statement (.jgrad o) := ofHeld _ rfl
theorem wdcond (o : VOp) : Statement (.wdcond o) := ofHeld _ rfl
theorem wdsig (o : VOp) : Statement (.wdsig o) := ofHeld _ rfl
theorem wscale (o : VOp) : Statement (.wscale o) := ofHeld _ rfl
theorem wcnt (o : VOp) : Statement (.wcnt o) := ofHeld _ rfl
theorem farm (o : ArmOp) : Statement (.farm o) := ofWord rfl rfl
theorem wloop (o : ArmOp) : Statement (.wloop o) := ofWord rfl rfl
theorem vsave (o : VMOp) : Statement (.vsave o) := ofHeld _ rfl
theorem vrest (o : VMOp) : Statement (.vrest o) := ofHeld _ rfl
theorem cAddi (o : CiOp) : Statement (.cAddi o) := ofHalf rfl rfl
theorem cLi (o : CiOp) : Statement (.cLi o) := ofHalf rfl rfl
theorem cMv (o : R2) : Statement (.cMv o) := ofHalf rfl rfl
theorem cAdd (o : R2) : Statement (.cAdd o) := ofHalf rfl rfl
theorem cSub (o : R2) : Statement (.cSub o) := ofHalf rfl rfl
theorem cLd (o : CiOp) : Statement (.cLd o) := ofHalf rfl rfl
theorem cSd (o : CiOp) : Statement (.cSd o) := ofHalf rfl rfl
theorem cJ (off : BitVec 10) : Statement (.cJ off) := ofHalf rfl rfl
theorem cBeqz (o : CiOp) : Statement (.cBeqz o) := ofHalf rfl rfl
theorem cBnez (o : CiOp) : Statement (.cBnez o) := ofHalf rfl rfl
theorem cRet : Statement .cRet := ofHalf rfl rfl
theorem cNop : Statement .cNop := ofHalf rfl rfl
theorem cVgap (n : BitVec 4) : Statement (.cVgap n) := ofHalf rfl rfl
theorem cTrap0 : Statement .cTrap0 := ofHalf rfl rfl
theorem mtld (o : MtldOp) : Statement (.mtld o) := ofHeld _ rfl
theorem mrow (o : MrowOp) : Statement (.mrow o) := ofHeld _ rfl
theorem maclr (o : MaclrOp) : Statement (.maclr o) := ofHeld _ rfl
theorem mard (o : AccOp) : Statement (.mard o) := ofHeld _ rfl
theorem mawr (o : AccOp) : Statement (.mawr o) := ofHeld _ rfl
theorem mast (o : AccOp) : Statement (.mast o) := ofHeld _ rfl
theorem steGrant : Statement .steGrant := ofEvent rfl
theorem lacfg (o : LaAOp) : Statement (.lacfg o) := ofHeld _ rfl
theorem laeval (o : LaVOp) : Statement (.laeval o) := ofHeld _ rfl
theorem lavote (o : LaVOp) : Statement (.lavote o) := ofHeld _ rfl
theorem latrain (o : LatrainOp) : Statement (.latrain o) := ofHeld _ rfl
theorem lafb (o : LaVOp) : Statement (.lafb o) := ofHeld _ rfl
theorem lastl (o : LaAOp) : Statement (.lastl o) := ofHeld _ rfl
theorem lasts (o : LaAOp) : Statement (.lasts o) := ofHeld _ rfl
theorem latbl (o : LaAOp) : Statement (.latbl o) := ofHeld _ rfl
theorem laseed (o : LaAOp) : Statement (.laseed o) := ofHeld _ rfl
theorem rasdFlush (x : Word) : Statement (.rasdFlush x) := ofEvent rfl
theorem qsRebind (n : Fin 4) (x : Word) : Statement (.qsRebind n x) := ofEvent rfl
theorem vlWrite (x : Word) : Statement (.vlWrite x) := ofEvent rfl
theorem vtypeWrite (x : Word) : Statement (.vtypeWrite x) := ofEvent rfl
theorem registerWrite (r : RegName) (x : Word) : Statement (.registerWrite r x) := ofEvent rfl
theorem gmblimWrite (x : Word) : Statement (.gmblimWrite x) := ofEvent rfl
theorem semRead (p : Fin 2) : Statement (.semRead p) := ofEvent rfl
theorem semRelease (p : Fin 2) : Statement (.semRelease p) := ofEvent rfl
theorem pushgo (p : Fin 2) (x : Word) : Statement (.pushgo p x) := ofEvent rfl
theorem norProgram : Statement .norProgram := ofEvent rfl
theorem mbreq (src : Requester) (addr : Word) : Statement (.mbreq src addr) := ofEvent rfl
theorem reqLoad : Statement .reqLoad := ofEvent rfl
theorem reqAttest : Statement .reqAttest := ofEvent rfl
theorem reqDrain : Statement .reqDrain := ofEvent rfl
theorem returnCluster : Statement .returnCluster := ofEvent rfl
theorem reqRetire : Statement .reqRetire := ofEvent rfl
theorem requestComplete : Statement .requestComplete := ofEvent rfl
theorem engineCommandStart (e : Fin 68) : Statement (.engineCommandStart e) := ofEvent rfl
theorem engVoid (e : Fin 64) : Statement (.engVoid e) := ofEvent rfl
theorem engCopy (e : Fin 64) : Statement (.engCopy e) := ofEvent rfl
theorem engCopy2d (e : Fin 64) : Statement (.engCopy2d e) := ofEvent rfl
theorem engCopyd (e : Fin 64) : Statement (.engCopyd e) := ofEvent rfl
theorem engFill (e : Fin 64) : Statement (.engFill e) := ofEvent rfl
theorem engRowgather (e : Fin 64) : Statement (.engRowgather e) := ofEvent rfl
theorem pgmode (d : Fin 4) : Statement (.pgmode d) := ofEvent rfl
theorem pgzero (d : Fin 4) : Statement (.pgzero d) := ofEvent rfl
theorem hotread (d : Fin 4) : Statement (.hotread d) := ofEvent rfl
theorem hotclear (d : Fin 4) : Statement (.hotclear d) := ofEvent rfl
theorem migrate (d : Fin 4) : Statement (.migrate d) := ofEvent rfl
theorem migfreezeMessage : Statement .migfreezeMessage := ofEvent rfl
theorem engineCommandComplete (e : Fin 68) : Statement (.engineCommandComplete e) := ofEvent rfl
theorem engineCommandFault (e : Fin 68) : Statement (.engineCommandFault e) := ofEvent rfl
theorem chainResume (e : Fin 68) : Statement (.chainResume e) := ofEvent rfl
theorem streamBufferResume (e : Fin 64) : Statement (.streamBufferResume e) := ofEvent rfl
theorem lineRecall : Statement .lineRecall := ofEvent rfl
theorem partialWriteMerge (pa : BitVec 48) (data : List Byte) : Statement (.partialWriteMerge pa data) := ofEvent rfl
theorem l2Writeback (blk : BitVec 40) : Statement (.l2Writeback blk) := ofEvent rfl
theorem helmWalk : Statement .helmWalk := ofEvent rfl
theorem rampSlotStart : Statement .rampSlotStart := ofEvent rfl
theorem gimbalCapStep (pwr : BitVec 16) : Statement (.gimbalCapStep pwr) := ofEvent rfl
theorem ballastTaperStep : Statement .ballastTaperStep := ofEvent rfl
theorem releaseCapStep : Statement .releaseCapStep := ofEvent rfl
theorem elementGroupIssue : Statement .elementGroupIssue := ofEvent rfl
theorem registerFull (isW : Bool) (n : Fin 32) : Statement (.registerFull isW n) := ofEvent rfl
theorem hartRetire : Statement .hartRetire := ofEvent rfl
theorem hartYield : Statement .hartYield := ofEvent rfl
theorem preemptTimeout : Statement .preemptTimeout := ofEvent rfl
theorem trapEntry : Statement .trapEntry := ofEvent rfl
theorem wfeWake : Statement .wfeWake := ofEvent rfl
theorem wfeTimeout : Statement .wfeTimeout := ofEvent rfl
theorem pauseEnd : Statement .pauseEnd := ofEvent rfl
theorem sampleTag : Statement .sampleTag := ofEvent rfl
theorem sampleRecord : Statement .sampleRecord := ofEvent rfl
theorem uncorrectableError (k : ErrKind) (addr : Word) : Statement (.uncorrectableError k addr) := ofEvent rfl
theorem softError (inHart : Bool) : Statement (.softError inHart) := ofEvent rfl
theorem faultMessage : Statement .faultMessage := ofEvent rfl
theorem flitRetry (l : Fin 24) : Statement (.flitRetry l) := ofEvent rfl
theorem linkDown (l : Fin 24) : Statement (.linkDown l) := ofEvent rfl
theorem linkUp (l : Fin 24) (peer : BitVec 16) : Statement (.linkUp l peer) := ofEvent rfl
theorem portLinkDown (p : Fin 2) : Statement (.portLinkDown p) := ofEvent rfl
theorem hostAccess (p : Fin 2) (acc : BusAccess) : Statement (.hostAccess p acc) := ofEvent rfl
theorem moduleReset : Statement .moduleReset := ofEvent rfl
theorem kernelStart : Statement .kernelStart := ofEvent rfl
theorem bootReady : Statement .bootReady := ofEvent rfl
theorem worldSet (b : Block) (secure : Bool) : Statement (.worldSet b secure) := ofEvent rfl
theorem thermalThrottle : Statement .thermalThrottle := ofEvent rfl
theorem thermalCutoff : Statement .thermalCutoff := ofEvent rfl
theorem peerAccess (l : Fin 24) (acc : BusAccess) : Statement (.peerAccess l acc) := ofEvent rfl
theorem powerLoss : Statement .powerLoss := ofEvent rfl

end Sys2Proof.Laws.EncLen
end

