-- ==== Sys2Proof/Laws/Scalar.lean ====
section
/-! SUPPORT. What the shared operations of the scalar instructions do: writing a result, and an access of a scalar
load or store in each of its outcomes (R113, R118, R311). -/

namespace Sys2Proof.Spec

open Sys2Proof.Machine

theorem leBytes_length (n x : Nat) : (leBytes n x).length = n := by
  induction n generalizing x with
  | zero => rfl
  | succ n ih => simp [leBytes, ih]

theorem leBytes_get : ∀ (n x i : Nat), i < n → (leBytes n x)[i]? = some (BitVec.ofNat 8 (x / 256 ^ i)) := by
  intro n
  induction n with
  | zero => intro x i h; omega
  | succ n ih =>
    intro x i h
    cases i with
    | zero => simp [leBytes]
    | succ i =>
      simp only [leBytes, List.getElem?_cons_succ]
      rw [ih _ _ (by omega), Nat.div_div_eq_div_mul, Nat.pow_succ, Nat.mul_comm]

theorem leNat_lt (bs : List Byte) : leNat bs < 2 ^ (8 * bs.length) := by
  induction bs with
  | nil => simp [leNat]
  | cons b bs ih =>
    simp only [leNat, List.length_cons]
    have := b.isLt
    rw [Nat.mul_succ, Nat.pow_add]
    omega

/-- The number that bytes hold is the number that they were taken from. -/
theorem leNat_leBytes (n x : Nat) : leNat (leBytes n x) = x % 256 ^ n := by
  induction n generalizing x with
  | zero => simp [leBytes, leNat, Nat.mod_one]
  | succ n ih =>
    simp only [leBytes, leNat, ih, BitVec.toNat_ofNat]
    rw [show 256 ^ (n + 1) = 256 * 256 ^ n by rw [Nat.pow_succ, Nat.mul_comm], Nat.mod_mul]

/-- The one way in which a scalar instruction writes its result. -/
theorem writeNext_writes (len : Nat) (d : Reg) (x : Word) (s : State) :
    ∃ t, writeNext len d x s = .next t ∧ Writes len d x s t := by
  refine ⟨_, rfl, ?_, ?_, ?_, ?_, ?_⟩
  · intro h; simp [State.getG_setG_same, h]
  · intro r h; simp [State.getG_setG_other, h]
  · simp
  · unfold OnlyGPc; rw [State.setG_eq]; rfl
  · intro loc; simp

/-- Where no waiting write meets the condition, none performs. -/
theorem forcedBy_none {hit : Pend → Bool} : ∀ {l : List Pend}, (∀ p ∈ l, hit p = false) → forcedBy hit l = l.map fun p => (p, false) := by
  intro l
  induction l with
  | nil => intro _; rfl
  | cons p ps ih =>
    intro h
    simp only [forcedBy, List.map_cons]
    rw [ih fun q hq => h q (by simp [hq]), h p (by simp)]
    simp

/-- With no write waiting there is none to perform. -/
theorem flush_empty {s : State} (p : Pend → Bool) (h : s.hart.pend.filter p = []) : s.flush p = s := by
  have k := forcedBy_none fun q hq => by simpa using List.filter_eq_nil_iff.mp h q hq
  have h1 : (s.hart.pend.map fun q => (q, false)).filter (·.2) = [] := by simp
  have h2 : ((s.hart.pend.map fun q => (q, false)).filter fun x => !x.2).map (·.1) = s.hart.pend := by
    rw [List.filter_eq_self.mpr (by simp), List.map_map]
    exact List.map_id _
  unfold State.flush
  dsimp only
  rw [k, h1, h2]
  rfl

/-- Where no write of the hart waits, its accesses come after none. -/
theorem afterOwn_empty {s : State} (h : s.hart.pend = []) (ag : Agent) (ts : List Target) : s.afterOwn ag ts = s := by
  unfold State.afterOwn State.after
  split
  · exact flush_empty _ (by rw [h]; rfl)
  · rfl

theorem settled_empty {s : State} (h : s.hart.pend = []) (ag : Agent) (ts : List Target) : s.settled ag ts = s := by
  unfold State.settled State.after State.flushScalar
  split
  · rw [flush_empty (fun p => (p.lane == none || p.kind == PendKind.blend) && p.touches ts) (by rw [h]; rfl)]
    exact flush_empty _ (by rw [h]; rfl)
  · rfl

/-- A load of the hart whose bytes are reached and sound gives them, once its own waiting writes to them have
performed. -/
theorem loadAt_reached {s s1 : State} {via : Via} {va : Word} {n : Nat} {ts : List Target}
    (h : Reaches s s.hart.agent via .load va n s1 ts) (hs : Sound s1 ts) :
    loadAt s s.hart.agent via va n =
      .ok { st := s1.afterOwn s.hart.agent ts
            data := ts.map (targetByte (s1.afterOwn s.hart.agent ts) s.hart.agent)
            hit := ts.any (s1.afterOwn s.hart.agent ts).watchedTarget, targets := ts } := by
  unfold loadAt
  rw [access_ok h]
  simp only [Sound] at hs
  simp [hs]

/-- A store of the hart that performs at once writes its bytes, after its waiting scalar stores. -/
theorem storeAt_reached {s s1 : State} {via : Via} {va : Word} {bs : List Byte} {ts : List Target}
    (h : Reaches s s.hart.agent via .store va bs.length s1 ts) :
    storeAt s s.hart.agent via va bs =
      .ok { st := storeBytes (s1.settled s.hart.agent ts) s.hart.agent ts bs, data := [], hit := ts.any s1.watchedTarget,
            targets := ts } := by
  unfold storeAt
  rw [access_ok h]

/-- A plain store of the hart performs at once while nothing outside schedules its writes. -/
theorem storeLater_reached {s s1 : State} {via : Via} {va : Word} {bs : List Byte} {ts : List Target}
    (h : Reaches s s.hart.agent via .store va bs.length s1 ts) (hl : s.loose = false) :
    storeLater s s.hart.agent via false va bs =
      .ok { st := storeBytes (if ts.any Target.isMbreq then s1.settled s.hart.agent ts else s1.afterOwn s.hart.agent ts)
              s.hart.agent ts bs
            data := [], hit := ts.any s1.watchedTarget, targets := ts } := by
  have k : s1.loose = false := by
    have := (locate_spec h.1).1
    unfold OnlyBytes at this
    rw [this]; exact hl
  unfold storeLater
  rw [access_ok h]
  dsimp only
  rw [k]
  rfl

/-- No watch trap follows an access of S, or one that meets no watch bit (R372). -/
theorem watchCounts_unwatched {s s1 : State} {ts : List Target} (h : Unwatched s s1 ts) :
    watchCounts s (ts.any s1.watchedTarget) = false := by
  unfold watchCounts
  cases h with
  | inl h => simp [h]
  | inr h => simp [h]

/-- Bytes written to targets in memory stand there, and every other byte is as before. -/
theorem writeTargets_stored {s1 : State} {ts : List Target} {n x : Nat} (hm : memWf s1.mem = true) (ha : ∀ x ∈ ts, ∃ loc, x = Target.mem loc)
    (hn : ts.length ≤ n) :
    (∀ (i loc : Nat), ts[i]? = some (.mem loc) → (∀ j, i < j → ts[j]? ≠ some (.mem loc)) →
      readByte (writeTargets s1 ts (leBytes n x)).mem loc = BitVec.ofNat 8 (x / 256 ^ i)) ∧
    ∀ loc : Nat, Target.mem loc ∉ ts → readByte (writeTargets s1 ts (leBytes n x)).mem loc = readByte s1.mem loc := by
  refine ⟨?_, fun loc hl => readByte_writeTargets_other ha hm hl⟩
  intro i loc hi hl
  have h : i < ts.length := by
    apply Nat.lt_of_not_le
    intro hc
    rw [List.getElem?_eq_none hc] at hi
    cases hi
  exact readByte_writeTargets_same ha hm hi (leBytes_get _ _ _ (by omega)) hl

end Sys2Proof.Spec
end

