-- ==== Sys2Proof/Laws/Traps.lean ====
section
/-! SUPPORT. What taking an exception does, once for every trap (R353). -/

namespace Sys2Proof.Machine

theorem controlWrite_hart (s : State) (o : Nat) (x : Word) :
    (controlWrite s o x).hart = s.hart ∧ (controlWrite s o x).others = s.others := by
  unfold controlWrite State.writeGmblim State.submit
  repeat' split
  all_goals exact ⟨rfl, rfl⟩

/-- A machine check that waits changes of the harts the list of those that wait alone. -/
def SameButChecks (h h' : Hart) : Prop := h' = { h with pendMchk := h'.pendMchk }

theorem SameButChecks.refl (h : Hart) : SameButChecks h h := rfl

theorem SameButChecks.trans {h i j : Hart} (a : SameButChecks h i) (b : SameButChecks i j) : SameButChecks h j := by
  unfold SameButChecks at *; rw [a] at b; exact b

theorem pendCheck_hart (s : State) (id : BitVec 12) (region : Nat) (d c : BitVec 16) (a : Word) :
    SameButChecks s.hart (s.pendCheck id region d c a).hart := by
  unfold State.pendCheck State.sendFault
  dsimp only
  split <;> rfl

/-- The bytes of an access put at their targets change no hart. -/
theorem putTargets_hart : ∀ (ts : List Target) (bs : List Byte) (s : State),
    (putTargets s ts bs).hart = s.hart ∧ (putTargets s ts bs).others = s.others := by
  intro ts
  induction ts with
  | nil => intro bs s; cases bs <;> exact ⟨rfl, rfl⟩
  | cons t ts ih =>
    intro bs s
    cases t with
    | mem l =>
      cases bs with
      | nil => exact ⟨rfl, rfl⟩
      | cons b bs => simp only [putTargets]; exact ih bs _
    | array o =>
      cases bs with
      | nil => exact ⟨rfl, rfl⟩
      | cons b bs => simp only [putTargets]; exact ih bs s
    | control o =>
      simp only [putTargets]
      split
      · exact controlWrite_hart s o _
      · exact ih _ s

theorem OnlyBytes.harts {s t : State} (h : Spec.OnlyBytes s t) : t.hart = s.hart ∧ t.others = s.others := by
  unfold Spec.OnlyBytes at h; rw [h]; exact ⟨rfl, rfl⟩

theorem writeTargets_hart (ts : List Target) (bs : List Byte) (s : State) :
    (writeTargets s ts bs).hart = s.hart ∧ (writeTargets s ts bs).others = s.others := by
  have h := OnlyBytes.harts (Spec.settleBlocks_only (blocksHit ts) (putTargets s ts bs)).1
  have k := putTargets_hart ts bs s
  exact ⟨h.1.trans k.1, h.2.trans k.2⟩

/-- The bytes of an access stored change of the hart its waiting machine checks at most. -/
theorem storeBytes_hart (s : State) (ag : Agent) (ts : List Target) (bs : List Byte) :
    SameButChecks s.hart (storeBytes s ag ts bs).hart := by
  unfold storeBytes
  rw [(writeTargets_hart _ _ _).1]
  unfold State.mergeErrors
  split
  · exact pendCheck_hart { s with ctl := _ } ag.hartid ag.region ag.domain 1 0
  · exact SameButChecks.refl _

/-- The state that log writes leave. -/
def Logged.state : Logged → Option State
  | .done s => some s
  | .fault s => some s
  | .wait => none

/-- Log writes change of the hart its waiting machine checks at most. -/
theorem logFault_hart (s : State) (f : MemFault) : SameButChecks s.hart (s.logFault f).hart := by
  unfold State.logFault
  split
  · exact pendCheck_hart s _ _ _ _ _
  · exact SameButChecks.refl _

theorem logWrites_hart : ∀ (xs : List Word) (s t : State) (va : Word), (logWrites xs s va).state = some t →
    SameButChecks s.hart t.hart := by
  intro xs
  induction xs with
  | nil => intro s t va h; cases h; exact SameButChecks.refl _
  | cons x xs ih =>
    intro s t va h
    unfold logWrites at h
    split at h
    · rename_i s1 ts ha
      have h3 := (OnlyBytes.harts (Spec.access_spec ha).1).1
      have h2 := storeBytes_hart s1 s1.hart.logAgent ts (leBytes 8 x.toNat)
      exact SameButChecks.trans (h3 ▸ h2) (ih _ _ _ h)
    · rename_i f u ha
      cases h
      have hu := (OnlyBytes.harts (Spec.access_fault ha)).1
      exact hu ▸ logFault_hart u f
    · cases h

/-- Counting an event changes the counters only. -/
theorem Csr.count_frame (c : Csr) (code k : Nat) : c.count code k = { c with evcnt := (c.count code k).evcnt } := by
  unfold Csr.count
  split <;> rfl

/-- What closing the open strip and recording a tagged instruction leave of a hart. -/
structure Recorded (h h' : Hart) : Prop where
  frame : h' = { h with
    openStrip := h'.openStrip, stripOut := h'.stripOut, tag := h'.tag, tagDone := h'.tagDone, pendMchk := h'.pendMchk
    csr := { h.csr with striplog := h'.csr.striplog, evcnt := h'.csr.evcnt } }

theorem Recorded.refl (h : Hart) : Recorded h h := ⟨rfl⟩

theorem Recorded.trans {h i j : Hart} (a : Recorded h i) (b : Recorded i j) : Recorded h j := by
  obtain ⟨a⟩ := a
  obtain ⟨b⟩ := b
  constructor
  rw [a] at b
  exact b

theorem SameButChecks.recorded {h i : Hart} (a : SameButChecks h i) : Recorded h i := by
  unfold SameButChecks at a
  constructor
  rw [a]

/-- Writing the oldest closed strip's record. -/
theorem writeStrip_hart (s : State) : Recorded s.hart s.writeStrip.hart := by
  unfold State.writeStrip
  split
  · exact Recorded.refl _
  · dsimp only
    split
    · exact ⟨rfl⟩
    · split
      · exact Recorded.refl _
      · rename_i u e
        have h := logWrites_hart _ _ u _ (by rw [e]; rfl)
        refine Recorded.trans (i := u.hart) (Recorded.trans ⟨rfl⟩ h.recorded) ?_
        constructor
        simp only [State.stopStripLog, State.count, State.onCsr, State.onHart]
        rw [Csr.count_frame]
      · rename_i u e
        have h := logWrites_hart _ _ u _ (by rw [e]; rfl)
        exact Recorded.trans (i := u.hart) (Recorded.trans ⟨rfl⟩ h.recorded) ⟨rfl⟩

/-- Closing the open strip changes of the hart only the record of it, STRIPLOG, the counters and waiting machine
checks; with logging disabled it writes nothing. -/
theorem closeStrip_spec (s : State) (b : Bool) :
    Recorded s.hart (s.closeStrip b).hart ∧
      (s.hart.csr.stripEn = false → (s.closeStrip b).mem = s.mem ∧ (s.closeStrip b).others = s.others) := by
  unfold State.closeStrip
  split
  · exact ⟨Recorded.refl _, fun _ => ⟨rfl, rfl⟩⟩
  · dsimp only
    split
    · exact ⟨⟨rfl⟩, fun _ => ⟨rfl, rfl⟩⟩
    · rename_i h
      refine ⟨?_, fun hn => absurd hn (by simpa using h)⟩
      exact Recorded.trans ⟨rfl⟩ (writeStrip_hart _)

/-- The records before a trap's entry. -/
theorem trapRecords_spec (s : State) (k : Trap) :
    Recorded s.hart (s.trapRecords k).hart ∧
      (s.hart.csr.stripEn = false → (s.trapRecords k).mem = s.mem ∧ (s.trapRecords k).others = s.others) := by
  unfold State.trapRecords
  have h1 : ∀ s1 : State, s1 = (if s.hart.csr.status.priv then s else s.closeStrip true) →
      Recorded s.hart s1.hart ∧ (s.hart.csr.stripEn = false → s1.mem = s.mem ∧ s1.others = s.others) := by
    intro s1 e
    subst e
    split
    · exact ⟨Recorded.refl _, fun _ => ⟨rfl, rfl⟩⟩
    · exact closeStrip_spec s true
  generalize e : (if s.hart.csr.status.priv then s else s.closeStrip true) = s1 at *
  obtain ⟨hf, hm⟩ := h1 s1 rfl
  dsimp only
  split
  · split
    · exact ⟨hf.trans ⟨rfl⟩, hm⟩
    · exact ⟨hf, hm⟩
  · exact ⟨hf, hm⟩

/-- Writes that perform change of the hart its waiting writes and machine checks and its monitor at most. -/
def SameButWrites (h h' : Hart) : Prop := h' = { h with pend := h'.pend, pendMchk := h'.pendMchk, monitorHit := h'.monitorHit }

theorem SameButWrites.refl (h : Hart) : SameButWrites h h := rfl

theorem SameButWrites.trans {h i j : Hart} (a : SameButWrites h i) (b : SameButWrites i j) : SameButWrites h j := by
  unfold SameButWrites at *; rw [a] at b; exact b

theorem SameButChecks.writes {h i : Hart} (a : SameButChecks h i) : SameButWrites h i := by
  unfold SameButChecks at a
  unfold SameButWrites
  rw [a]

theorem releaseTargets_hart (s : State) (ts : List Target) : SameButWrites s.hart (s.releaseTargets ts).hart := by
  unfold State.releaseTargets State.releaseLine Hart.seeRelease
  split
  · dsimp only
    split <;> rfl
  · rfl

theorem performPend_hart (s : State) (ag : Agent) (p : Pend) : SameButWrites s.hart (s.performPend ag p).hart := by
  unfold State.performPend
  dsimp only
  split
  · exact (storeBytes_hart s ag _ _).writes.trans (releaseTargets_hart _ _)
  · exact (storeBytes_hart s ag _ _).writes

/-- Writes that perform leave of the hart its registers, its queues and its other state. -/
theorem flush_hart (s : State) (which : Pend → Bool) : SameButWrites s.hart (s.flush which).hart := by
  unfold State.flush
  have key : ∀ (ps : List Pend) (t : State), SameButWrites t.hart (ps.foldl (fun t p => t.performPend s.hart.agent p) t).hart := by
    intro ps
    induction ps with
    | nil => intro t; exact SameButWrites.refl _
    | cons p ps ih => intro t; exact (performPend_hart t _ p).trans (ih _)
  exact SameButWrites.trans (i := { s.hart with pend := _ }) rfl (key _ { s with hart := { s.hart with pend := _ } })

/-- The end of a step changes the array's rows and no more. -/
theorem landRows_frame (s : State) (cl : Nat) :
    s.landRows cl = { s with cells := (s.landRows cl).cells, clusters := (s.landRows cl).clusters } := by
  unfold State.landRows
  dsimp only
  split
  · rfl
  · have key : ∀ (rs : List (Nat × List Byte)) (t : State),
        rs.foldl (fun t r => t.setRow cl r.1 r.2) t = { t with cells := (rs.foldl (fun t r => t.setRow cl r.1 r.2) t).cells } := by
      intro rs
      induction rs with
      | nil => intro t; rfl
      | cons r rs ih =>
        intro t
        rw [List.foldl_cons]
        exact (ih _).trans rfl
    have h := key (s.clusterSt cl).rows s
    generalize (s.clusterSt cl).rows.foldl (fun t r => t.setRow cl r.1 r.2) s = t at *
    rw [h]
    rfl

theorem landOwn_frame (s : State) : s.landOwn = { s with cells := s.landOwn.cells, clusters := s.landOwn.clusters } := by
  unfold State.landOwn
  dsimp only
  split
  · exact landRows_frame s _
  · rfl

/-- What a trap does before its records: element stores that have been sent perform and a step of the hart ends. -/
def State.stopped (s : State) : State := (s.landOwn.onHart (·.releaseHeld fun _ => true)).flushLanes

theorem stopped_hart (s : State) : SameButWrites s.hart s.stopped.hart := by
  have h : s.landOwn.hart = s.hart := by rw [landOwn_frame]
  have k : SameButWrites s.hart (s.landOwn.onHart (·.releaseHeld fun _ => true)).hart := by
    show SameButWrites s.hart (s.landOwn.hart.releaseHeld _)
    rw [h]
    rfl
  exact k.trans (flush_hart _ _)

/-- Where no element store has been sent, nothing performs. -/
theorem stopped_quiet {s : State} (h : Spec.LanesEmpty s) : s.stopped.mem = s.mem ∧ s.stopped.others = s.others := by
  have hp : s.landOwn.hart = s.hart := by rw [landOwn_frame]
  unfold State.stopped State.flushLanes
  rw [Spec.flush_empty]
  · exact ⟨by rw [landOwn_frame]; rfl, by rw [landOwn_frame]; rfl⟩
  · rw [List.filter_eq_nil_iff]
    intro p hq
    change p ∈ (s.landOwn.hart.releaseHeld fun _ => true).pend at hq
    rw [hp] at hq
    unfold Hart.releaseHeld at hq
    obtain ⟨q, hm, rfl⟩ := List.mem_map.mp hq
    have := h q hm
    split
    · simp [this]
    · simp [this]

end Sys2Proof.Machine

namespace Sys2Proof.Spec

open Sys2Proof.Machine

/-- Taking an exception with a handler set is what R353 says, for every cause and class. -/
theorem takeTrap_traps (k : Trap) (epc : Word) (s : State) (hh : HasHandler s) : Traps k epc s (s.takeTrap k epc) := by
  unfold State.takeTrap
  rw [if_neg hh]
  have hfl := stopped_hart s
  have hq := @stopped_quiet s
  unfold SameButWrites at hfl
  dsimp only
  rw [show (s.landOwn.onHart (·.releaseHeld fun _ => true)).flushLanes = s.stopped from rfl]
  obtain ⟨⟨hf⟩, hm⟩ := trapRecords_spec s.stopped k
  have hen : s.stopped.hart.csr.stripEn = s.hart.csr.stripEn := by rw [hfl]
  rw [hen] at hm
  generalize s.stopped = s0 at *
  generalize s0.trapRecords k = s1 at *
  have key : Traps k epc s (s1.onHart (·.enterTrap k epc)) := by
    have hc : s1.hart.csr.status = s.hart.csr.status := by rw [hf, hfl]
    have htv : s1.hart.csr.tvec = s.hart.csr.tvec := by rw [hf, hfl]
    have ht : tailVtype s1.hart = tailVtype s.hart := by rw [hf, hfl]; rfl
    have htr : s1.hart.trapVtype = s.hart.trapVtype := by rw [hf, hfl]
    have hvq : s1.hart.viq = s.hart.viq := by rw [hf, hfl]
    have htl : s1.hart.tiles = s.hart.tiles := by rw [hf, hfl]
    have hsh : ∀ h : Hart, (h.stopHead).g = h.g ∧ h.stopHead.v = h.v ∧ h.stopHead.w = h.w ∧ h.stopHead.k = h.k ∧
        h.stopHead.viq.isEmpty = h.viq.isEmpty := by
      intro h
      unfold Hart.stopHead
      split
      · exact ⟨rfl, rfl, rfl, rfl, rfl⟩
      · rename_i e
        dsimp only
        split
        · exact ⟨rfl, rfl, rfl, rfl, rfl⟩
        · exact ⟨rfl, rfl, rfl, rfl, by rw [e]; rfl⟩
    have h0 := hsh { s1.hart with viq := s1.hart.stoppedViq, tiles := [], vfull := refill s1.hart.tiles s1.hart.vfull }
    constructor <;> simp only [State.onHart, Hart.enterTrap, Status.enter]
    · rw [htv]
    · rw [hc]
    · rw [hc]
    · rw [hc, ht, htr]
    · rw [h0.2.2.2.2]
      simp only [Hart.stoppedViq, hvq, htl]
      cases s.hart.tiles <;> cases s.hart.viq <;> rfl
    · exact ⟨by rw [h0.1, hf, hfl], by rw [h0.2.1, hf, hfl], by rw [h0.2.2.1, hf, hfl], by rw [h0.2.2.2.1, hf, hfl]⟩
    · intro hn hl
      have h2 := hm hn
      have h3 := hq hl
      exact ⟨h2.2.trans h3.2, fun loc => by rw [h2.1, h3.1]⟩
  split
  · obtain ⟨a1, a2, a3, a4, a5, a6, a7, a8, a9, a10, a11, a12, a13, a14⟩ := key
    constructor <;> simp only [State.count, State.onCsr] <;> (try rw [Csr.count_frame]) <;> assumption
  · exact key

end Sys2Proof.Spec
end

