-- ==== Sys2Proof/Tests/Slice0.lean ====
section
/-! SUPPORT. Tests: words that the manual works out, ill-formed terms, single steps on small states with results taken
from the manual, and for each statement with hypotheses a state and operands that meet them. -/

set_option Elab.async false

namespace Sys2Proof.Tests

open Sys2Proof Sys2Proof.Machine Sys2Proof.Spec

/-! ### Small states -/

/-- A hart of HARTID 0 in S with a handler, VS DIRTY, SEW = 32 and the given VL. -/
def hartAt (vl : BitVec 11) : Hart :=
  { Hart.reset with
    run := .running
    pc := 0x10000
    csr := { Csr.reset with
      vl := vl, vtype := 2, tvec := 0x10040, status := { Status.reset with priv := true, vs := 2 } } }

/-- The module with that hart alone. -/
def base : State := { State.reset with hart := hartAt 4 }

/-- With some general registers set. -/
def regs (l : List (Reg × Word)) (s : State) : State := l.foldl (fun t p => t.setG p.1 p.2) s

/-- The first byte of the scratchpad of the hart's core, and the byte at an offset in it. -/
def pad (o : Nat) : Word := BitVec.ofNat 64 (0xFFF1000000000 + o)

/-- The targets of `n` bytes at an offset in the scratchpad of core 0. -/
def padTargets (o n : Nat) : List Target := (List.range n).map fun i => .mem (coreLoc 0 o + i)

theorem window_pad {u : State} {ag : Agent} {via : Via} {k : Kind} {o : Nat} (ho : o < 2 ^ 19) (hk : k ≠ .fetch)
    (hc : ag.core = 0) (hs : (u.coreSt 0).secure = false) :
    window u ag via k (0xFFF1000000000 + o) = .ok (.mem (coreLoc 0 o)) := by
  unfold window
  simp only [hk, if_false]
  rw [if_neg (by omega), if_pos (by omega)]
  simp only [Nat.add_sub_cancel_left, hc, hs, Bool.false_and]
  rw [if_neg (by omega)]
  rfl

/-- An access within a page of the scratchpad reaches its bytes and changes nothing. -/
theorem locate_pad {u : State} {ag : Agent} {via : Via} {k : Kind} {o n : Nat} (ho : o % 4096 + n ≤ 4096) (h0 : 0 < n)
    (ho' : o < 2 ^ 19) (hk : k ≠ .fetch) (hc : ag.core = 0) (hs : (u.coreSt 0).secure = false) (fuel : Nat) :
    locate ag via k (fuel + 1) u (pad o) n = .ok (u, padTargets o n) := by
  have hv : (pad o).toNat = 0xFFF1000000000 + o := by unfold pad; simp; omega
  have hm : pieceLen (pad o) n = n := by unfold pieceLen; rw [hv]; omega
  have ht : Machine.translate u ag via k (pad o) = .ok (u, .mem (coreLoc 0 o)) := by
    unfold Machine.translate
    dsimp only
    rw [hv, if_neg (by omega), if_pos (by omega), window_pad ho' hk hc hs]
  unfold locate
  rw [if_neg (by omega)]
  dsimp only
  rw [hm, ht]
  dsimp only
  rw [Nat.sub_self]
  have hz : ∀ f : Nat, locate ag via k f u (pad o + BitVec.ofNat 64 n) 0 = .ok (u, []) := by
    intro f; cases f <;> rfl
  rw [hz]
  simp [padTargets, Target.plus]

/-- Likewise with the waits of R311, in a module whose engines own nothing. -/
theorem reaches_pad {u : State} {ag : Agent} {via : Via} {k : Kind} {o n : Nat} (ho : o % 4096 + n ≤ 4096) (h0 : 0 < n)
    (ho' : o < 2 ^ 19) (hk : k ≠ .fetch) (hc : ag.core = 0) (hs : (u.coreSt 0).secure = false) (hw : u.owned = []) :
    Reaches u ag via k (pad o) n u (padTargets o n) := by
  refine ⟨locate_pad ho h0 ho' hk hc hs _, ?_⟩
  unfold padTargets
  rw [List.any_eq_false]
  intro x hx
  obtain ⟨i, _, rfl⟩ := List.mem_map.mp hx
  simp [State.ownedTarget, State.ownedLoc, hw]

theorem access_pad {u : State} {ag : Agent} {via : Via} {k : Kind} {o n : Nat} (ho : o % 4096 + n ≤ 4096) (h0 : 0 < n)
    (ho' : o < 2 ^ 19) (hk : k ≠ .fetch) (hc : ag.core = 0) (hs : (u.coreSt 0).secure = false) (hw : u.owned = []) :
    access u ag via k (pad o) n = .ok (u, padTargets o n) :=
  have h := reaches_pad ho h0 ho' hk hc hs hw
  access_ok h

theorem allMemory_pad (o n : Nat) : AllMemory (padTargets o n) := by
  intro x hx
  obtain ⟨i, _, rfl⟩ := List.mem_map.mp hx
  exact ⟨_, rfl⟩

theorem sound_pad {u : State} (o n : Nat) (h : u.ctl.bad = []) : Sound u (padTargets o n) := by
  unfold Sound padTargets
  rw [List.any_eq_false]
  intro x hx
  obtain ⟨i, _, rfl⟩ := List.mem_map.mp hx
  have : ¬ 256 * ((coreLoc 0 o + i) / 256) < lpddrEnd := by
    unfold coreLoc lpddrEnd; omega
  simp [State.badTarget, State.badLoc, State.badUnit, h, this]

/-- Element accesses within one page of the scratchpad meet the premise of the element statements. -/
theorem allReach_pad {ι : Type} {s : State} {via : ι → Via} {k : Kind} {va : ι → Word} {len : Nat} {is : List ι}
    {extra : List Target} (off : ι → Nat) (hva : ∀ i ∈ is, va i = pad (off i)) (ho : ∀ i ∈ is, off i % 4096 + len ≤ 4096)
    (ho' : ∀ i ∈ is, off i < 2 ^ 19) (h0 : 0 < len) (hk : k ≠ .fetch) (hc : s.hart.agent.core = 0)
    (hs : (s.coreSt 0).secure = false) (hw : s.owned = []) (hb : s.ctl.bad = []) (hp : s.hart.csr.status.priv = true) :
    AllReach s via k va len is extra (fun i => padTargets (off i) len) := by
  refine ⟨⟨?_, fun i _ => sound_pad _ _ hb⟩, .inl hp⟩
  intro i hi u hu
  rw [hva i hi]
  refine access_pad (ho i hi) h0 (ho' i hi) hk hc ?_ (hu.owned.trans hw)
  rw [hu.world.2.2.1 0]
  exact hs

/-! ### Well-formedness: each check refuses an ill-formed term -/

/-- A V operand set with everything zero. -/
def zV : VOp := ⟨0, 0, 0, 0, false, false, false, false⟩
/-- A VM operand set with everything zero. -/
def zVM : VMOp := ⟨0, 0, 0, 0, .native, false, false⟩

/-- V format: a reserved b, fb or fa, an odd pair, a conversion code, weight and stream register numbers (R73 to R75,
R84, R85). -/
theorem test_ill_formed_vector :
    ([.vabs { zV with b := 1 }, .vabs { zV with fb := true }, .vwmul { zV with d := 1 }, .vnshr { zV with a := 1 },
      .vaddVx { zV with fb := true }, .vprune { zV with b := 24 }, .vprune { zV with b := 3 }, .vprune { zV with fb := true },
      .vwmulVx { zV with d := 3 }, .vnshrVx { zV with a := 3 }, .vfcvtF2u { zV with b := 2 }, .vfcvtI2f zV, .vfcvtU2f zV,
      .vfcvtF2iz zV, .vfcvtF2uz zV, .vfcvtFwid { zV with b := 6, d := 1 }, .vfcvtFnar { zV with b := 7, a := 1 },
      .vfcvtFrnd zV, .vcmpEq { zV with d := 8 }, .viota { zV with a := 1 }, .vbcast { zV with fa := true },
      .vmvxv { zV with w := 1 }, .vmvvx { zV with fb := true }, .vqrd { zV with a := 4 }, .wcond { zV with d := 8 },
      .wnot { zV with a := 8 }, .wmul { zV with b := 8 }, .wmvv { zV with a := 8 }, .wdsig { zV with b := 8 }] : List Instr).all
      (fun i => !wellFormed i) = true := by decide +kernel

/-- VM format (R86): a reserved b, an element format that a member has not, a scale register number. -/
theorem test_ill_formed_memory :
    ([.vldUnit { zVM with b := 1 }, .vstbUnit { zVM with fmt := .s8 }, .vstbStrided { zVM with fmt := .s8 },
      .vamoadd { zVM with fmt := .fp16 }, .vamoand zVM, .vamoor zVM, .vamoxor zVM, .vamomin zVM, .vamomax zVM, .vamoswap zVM,
      .vldkUnit { zVM with d := 4 }, .vldkStrided { zVM with w := 1 }, .vsave { zVM with b := 1 }] : List Instr).all
      (fun i => !wellFormed i) = true := by decide +kernel

/-- Tile, scalar and compressed forms (R75, R78 to R81, R83, R90 to R92). -/
theorem test_ill_formed_others :
    ([.mtld ⟨1, 2, 0, 1, false, .e4m3, 0, false, false⟩, .mtld ⟨1, 2, 0, 3, false, .bf16, 0, false, false⟩,
      .maclr ⟨1, 63, 0, false, false⟩, .mard ⟨1, 0, 0, 0, false, 0, .unit, .fp32, 0, 0, false, false⟩,
      .mawr ⟨0, 0, 0, 0, false, 0, .strided, .fp32, 0, 0, false, false⟩,
      .mast ⟨1, 2, 0, 0, false, 0, .unit, .fp32, 0, 0, false, false⟩,
      .mast ⟨1, 0, 3, 0, false, 0, .unit, .fp32, 0, 0, false, false⟩, .lavote ⟨0, false, true, 1, false, false⟩,
      .enq ⟨1, 2, 3, 0, .two⟩, .fsqrt ⟨1, 2, 3, .rne, .fp32⟩, .fclass ⟨1, 2, 3, .rne, .fp32⟩,
      .amoadd ⟨1, 2, 3, .lane, .rlx, false⟩, .lda ⟨1, 2, 0, .core, .rel, false⟩, .lda ⟨1, 2, 3, .core, .acq, false⟩,
      .str ⟨0, 2, 3, .core, .acq, false⟩, .str ⟨1, 2, 3, .core, .rel, false⟩, .take ⟨1, 2, 0, .core, .rlx, true⟩,
      .steal ⟨1, 2, 3, .core, .rlx, false⟩, .ticket ⟨1, 2, 0, .lane, .rlx, false⟩, .cAddi ⟨0, 1⟩, .cLi ⟨0, 1⟩, .cMv ⟨0, 1⟩,
      .cAdd ⟨0, 1⟩, .cSub ⟨0, 1⟩, .cVgap 0] : List Instr).all (fun i => !wellFormed i) = true := by decide +kernel

/-! ### Decoding: words that the manual works out from the fields (Tables 03-8, 06-1, 07-1, 08-2, 09-4, 10-4, 14-2) -/

theorem test_decode_scalar :
    decodeWord 0xFF001284 = some (.addi ⟨5, 1, 0xFF0⟩) ∧ decodeWord 0xFF005284 = some (.addi ⟨5, 5, 0xFF0⟩) ∧
    decodeWord 0x8141 = some (.cAddi ⟨5, 0x10⟩) ∧ decodeWord 0x0FFF1A06 = some (.lih ⟨20, 0x0FFF1⟩) ∧
    decodeWord 0xFFAC0B8E = some (.bstrip ⟨23, 0xFFA⟩) ∧ decodeWord 0x094E6294 = some (.fma ⟨5, 6, 7, .rne, .fp32⟩) := by
  decide +kernel

theorem test_decode_atomics_and_fences :
    decodeWord 0x580C7296 = some (.amoadd ⟨5, 7, 6, .cluster, .acq, false⟩) ∧
    decodeWord 0x140B4016 = some (.amoadd ⟨0, 20, 5, .core, .rlx, true⟩) ∧
    decodeWord 0x66814316 = some (.lda ⟨6, 20, 0, .package, .acq, true⟩) ∧
    decodeWord 0xAECD5016 = some (.str ⟨0, 21, 6, .system, .rel, true⟩) ∧
    decodeWord 0x2180001A = some (.efence .package) ∧ decodeWord 0x1900001A = some (.lafence .cluster) ∧
    decodeWord 0x0040001A = some .svfence ∧ decodeWord 0x0180001E = some .gbar := by
  decide +kernel

theorem test_decode_engines :
    decodeWord 0x00114C1E = some (.enq ⟨24, 20, 8, 0, .one⟩) ∧ decodeWord 0x00734D1E = some (.seqwait ⟨26, 20, 25⟩) := by
  decide +kernel

/-- The third word is that of the fields of the example, g22 included; Table 06-1 prints 0x4A6E_63C2, whose field a is
6 (log entry 15). -/
theorem test_decode_vector_memory :
    decodeWord 0x00217C9C = some (.setvli ⟨25, 23, 2⟩) ∧ decodeWord 0x80317C9C = some (.setvl ⟨25, 23, 24⟩) ∧
    decodeWord 0x04015140 = some (.vldUnit ⟨2, 21, 0, 0, .e4m3, false, false⟩) ∧
    decodeWord 0x808D42C0 = some (.vldIndexed ⟨5, 20, 6, 2, .native, false, false⟩) ∧
    decodeWord 0x4A6F63C2 = some (.vstStrided ⟨7, 22, 23, 1, .s8, false, false⟩) ∧
    decodeWord 0xC00140C0 = some (.vldff ⟨1, 20, 0, 0, .native, false, false⟩) ∧
    decodeWord 0x000951C6 = some (.vscaddD ⟨3, 21, 4, 0, .native, false, false⟩) ∧
    decodeWord 0x000183D4 = some (.vsave ⟨7, 24, 0, 0, .native, false, false⟩) := by
  decide +kernel

theorem test_decode_vector_compute :
    decodeWord 0x008411B0 = some (.vfadd { zV with d := 3, a := 1, b := 2, w := 2 }) ∧
    decodeWord 0x024411B0 = some (.vfadd { zV with d := 3, a := 1, b := 2, w := 1, fa := true }) ∧
    decodeWord 0x58021230 = some (.vfmul { zV with d := 4, a := 1, b := 1, s := true, c := true }) ∧
    decodeWord 0x004620A0 = some (.vadd { zV with d := 1, a := 2, b := 3, w := 1 }) ∧
    decodeWord 0x000620A4 = some (.vdiv { zV with d := 1, a := 2, b := 3 }) ∧
    decodeWord 0x400E6226 = some (.vwmac { zV with d := 4, a := 6, b := 7 }) ∧
    decodeWord 0x000C4134 = some (.vfcvtFwid { zV with d := 2, a := 4, b := 6 }) ∧
    decodeWord 0x2004113A = some (.vfcmpLt { zV with d := 2, a := 1, b := 2 }) ∧
    decodeWord 0x200E62BE = some (.vfredsumU { zV with d := 5, a := 6, b := 7 }) ∧
    decodeWord 0x8002314A = some (.vprune { zV with d := 2, a := 3, b := 1 }) ∧
    decodeWord 0x000A00CC = some (.vbcast { zV with d := 1, b := 5 }) := by
  decide +kernel

theorem test_decode_weights :
    decodeWord 0x000020CE = some (.wcond { zV with d := 1, a := 2 }) ∧
    decodeWord 0x2000314E = some (.wsig { zV with d := 2, a := 3 }) ∧
    decodeWord 0x600610CE = some (.wmul { zV with d := 1, a := 1, b := 3 }) ∧
    decodeWord 0x00441250 = some (.join { zV with d := 4, a := 1, b := 2, w := 1 }) ∧
    decodeWord 0x204412D0 = some (.jgrad { zV with d := 5, a := 1, b := 2, w := 1 }) ∧
    decodeWord 0x804E5350 = some (.wscale { zV with d := 6, a := 5, b := 7, w := 1 }) ∧
    decodeWord 0x00A000D2 = some (.farm ⟨1, 10⟩) ∧ decodeWord 0xFFA200D2 = some (.wloop ⟨1, 0xFFA⟩) := by
  decide +kernel

theorem test_decode_tiles :
    decodeWord 0x00000004000BD003 = some (.mtld ⟨20, 23, 0, 0, false, .e4m3, 0, false, false⟩) ∧
    decodeWord 0x000000000000000B = some (.maclr ⟨0, 0, 0, false, false⟩) ∧
    decodeWord 0x0000000000100007 = some (.mrow ⟨1, false, 0, false, false, 0, 0, 0, false, false⟩) ∧
    decodeWord 0x000000000000598B = some (.mast ⟨22, 0, 0, 0, false, 0, .unit, .fp32, 0, 0, false, false⟩) ∧
    decodeWord 0x0000A42A00400007 = some (.mrow ⟨4, false, 20, true, false, 5, 1, 0, false, false⟩) := by
  decide +kernel

theorem test_decode_array :
    decodeWord 0x0000000000005423 = some (.lacfg ⟨21, false, false⟩) ∧
    decodeWord 0x000000000010502B = some (.latrain ⟨1, false, 20, false, false⟩) ∧
    decodeWord 0x0000000500200027 = some (.laeval ⟨2, false, false, 5, false, false⟩) ∧
    decodeWord 0x0000002600200027 = some (.laeval ⟨2, false, true, 6, false, false⟩) := by
  decide +kernel

/-- An unassigned major, a reserved field, a destination g0 of C.ADDI and an odd pair raise ILL (R75, R84, R92, R95). -/
theorem test_decode_refuses :
    decodeWord 0x0000007E = none ∧ decodeWord 0x202020CE = none ∧ decodeWord 0x8001 = none ∧
    decodeWord 0x400E62A6 = none := by
  decide +kernel

theorem test_decode_bytes :
    decodeBytes [0x84, 0x12, 0x00, 0xFF, 0x41] = .ok (.addi ⟨5, 1, 0xFF0⟩, [0x41]) ∧
    decodeBytes [0x84, 0x12] = .error .truncated := by
  refine ⟨rfl, rfl⟩

/-! ### Single steps, with results from the manual -/

/-- A general register of the next state. -/
def outG (o : Out) (r : Reg) : Option Word :=
  match o with
  | .next t => some (t.getG r)
  | _ => none

/-- A property of the next state. -/
def outIs (o : Out) (p : State → Bool) : Bool :=
  match o with
  | .next t => p t
  | _ => false

/-- Example 05-1. -/
theorem test_lih : outG (exec (.lih ⟨20, 0x0FFF1⟩) base) 20 = some 0x0FFF1000 := by decide +kernel
theorem test_slli : outG (exec (.slli ⟨20, 20, 24⟩) (regs [(20, 0x0FFF1000)] base)) 20 = some 0x000FFF1000000000 := by
  decide +kernel

/-- The corners of R115: 7 by 0 and −2^63 by −1. -/
theorem test_div_by_zero : outIs (exec (.div ⟨5, 6, 0⟩) (regs [(6, 7)] base)) (fun t =>
    t.getG 5 == BitVec.allOnes 64 && t.hart.csr.iflags == 1) = true := by decide +kernel
theorem test_rem_overflow : outIs (exec (.rem ⟨5, 6, 7⟩) (regs [(6, 0x8000000000000000), (7, BitVec.allOnes 64)] base)) (fun t =>
    t.getG 5 == 0 && t.hart.csr.iflags == 2) = true := by decide +kernel

/-- A jump to itself parks the hart (R329), and a write of g0 is discarded (R14). -/
theorem test_park : outIs (exec (.j 0) base) (fun t => decide (t.hart.run = .parked)) = true := by decide +kernel
theorem test_g0 : outG (exec (.addi ⟨0, 0, 5⟩) base) 0 = some 0 := by decide +kernel

/-- Example 06-1: with VLR = 16,384 and SEW = 32 a request of 1,000 elements grants 512. -/
theorem test_setvli : outIs (exec (.setvli ⟨25, 23, 2⟩) (regs [(23, 1000)] base)) (fun t =>
    t.getG 25 == 512 && t.hart.csr.vl == 512) = true := by decide +kernel

/-- fma.fp32 of 2.0 · 3.0 + 1.0 is 7.0, exact (R126). -/
theorem test_fma : outIs (exec (.fma ⟨5, 6, 7, .rne, .fp32⟩) (regs [(5, 0x3F800000), (6, 0x40000000), (7, 0x40400000)] base))
    (fun t => t.getG 5 == 0x40E00000 && t.hart.csr.fflags == 0) = true := by decide +kernel

/-- Of 3.0 in FP32 the reciprocal estimate is 0x3EAB_0000 (R173). -/
theorem test_vfrece : ((vEnvRm base).recip 0x40400000).1 = 0x3EAB0000 := by decide +kernel

/-- TRAP 5 enters the handler in S with its immediate in TVAL and CSPEC 4 (R134, R353). -/
theorem test_trap : outIs (exec (.trap 5) base) (fun t => t.hart.pc == 0x10040 && t.hart.csr.cause == 4 && t.hart.csr.tval == 5 &&
    t.hart.csr.taux == 0x400000000 && t.hart.csr.epc == 0x10000 && t.hart.csr.status.priv && !t.hart.csr.status.ie) = true := by
  decide +kernel

/-- The barrier of a gang of one hart lets it through (R255). -/
theorem test_gbar : outIs (exec .gbar base) (fun t => t.hart.pc == 0x10004 && decide (t.hart.run = .running)) = true := by
  decide +kernel

/-- An element-wise sum of SEW 32 wraps in each element and keeps the elements from VL on (R165). -/
theorem test_vadd : outIs (exec (.vadd { zV with d := 3, a := 1, b := 2 })
    { base with hart := { hartAt 1 with v := (Hart.reset.v.set 1 0xFFFFFFFF).set 2 0x100000002 } }) (fun t =>
    t.hart.elem 3 0 == 1 && t.hart.elem 3 1 == 0 && t.hart.csr.vdirty == 8) = true := by decide +kernel

/-- The check value of CRC-32 (IEEE 802.3), the bytes "123456789". -/
theorem test_crc32 : crc32 [0x31, 0x32, 0x33, 0x34, 0x35, 0x36, 0x37, 0x38, 0x39] = 0xCBF43926 := by decide +kernel

/-- Reset, then a word placed for the front-end, then one step runs it (log entry 2). -/
theorem test_first_step : outIs (step (State.reset.withFetchWord 32 0xFF001284)) (fun t =>
    t.getG 5 == 0xFFFFFFFFFFFFFFF0 && t.hart.pc == 0x10004) = true := by decide +kernel

/-! ### Witnesses: states and operands that meet the hypotheses of the statements -/

/-- A module whose page tables map the page at 0x10000 to frame 0x40000, its hart in U. -/
def paged : State :=
  let s := base.placeForFetch []
  { s with hart := { s.hart with csr := { s.hart.csr with status := { s.hart.csr.status with priv := false } } } }

/-- The targets of `n` bytes in that page. -/
def pageTargets (o n : Nat) : List Target := (List.range n).map fun i => .mem (0x40000 + o + i)

/-- An access has faulted, and left the state as it was. -/
def faultsWith {α : Type} (x : Acc α) (f : MemFault) (u : State) : Bool :=
  match x with
  | .fault g v => decide (f = g) && decide (u = v)
  | _ => false

theorem faultsWith_eq {α : Type} {x : Acc α} {f : MemFault} {u : State} (h : faultsWith x f u = true) : x = .fault f u := by
  cases x with
  | fault g v => simp [faultsWith] at h; rw [h.1, h.2]
  | _ => cases h

/-- An access has succeeded with a value. -/
def okIs {α : Type} [DecidableEq α] (x : Acc α) (a : α) : Bool :=
  match x with
  | .ok b => decide (b = a)
  | _ => false

theorem okIs_eq {α : Type} [DecidableEq α] {x : Acc α} {a : α} (h : okIs x a = true) : x = .ok a := by
  cases x with
  | ok b => simp [okIs] at h; rw [h]
  | _ => cases h

/-- Memory that holds the page tables of `paged`. -/
def HasTables (u : State) : Prop := ∀ loc : Nat, loc < 0x40000 → readByte u.mem loc = readByte paged.mem loc

/-- A module that holds those tables, none of its frames secure, and an agent that walks them: nothing holds a
translation yet, no other engine owns a line and they have no error. -/
structure Paged (u : State) (ag : Agent) : Prop where
  tables : HasTables u
  world : u.wrg = []
  sparing : u.ctl.sparing = false
  root : ag.ptroot = some 0x10000
  pins : ag.pins = []
  tlb : (u.coreSt ag.core).tlb = []
  free : ∀ loc : Nat, u.ownedLoc ag.engine loc = false
  sound : ∀ b : Nat, b < 0x400 → u.badUnit b = false

/-- No block is bad but those named. -/
theorem sound_of {u : State} {bad : List Nat} (h : u.ctl.bad = bad) (hm : u.ctl.blockMeta = []) {b : Nat} (hb : bad.contains b = false) :
    u.badUnit b = false := by
  unfold State.badUnit
  rw [h, hb, hm]
  have : entryOk (mapGet 0 [] b) = true := show entryOk 0 = true by decide
  rw [this]
  simp

theorem found_paged {u : State} {ag : Agent} (h : Paged u ag) (va : Nat) : findLeaf u ag va = walk u ag 0x10000 va 3 0 0x10000 := by
  unfold findLeaf
  rw [h.pins, h.tlb, h.root]
  cases ag.engine <;> rfl

theorem wrg_free {u : State} (h : u.wrg = []) (pa : Nat) : u.frameSecure pa = false := by
  unfold State.frameSecure State.dieSecure
  rw [h]
  rfl

/-- A step of the walk reads its PTE. -/
theorem walk_reads {u : State} {ag : Agent} (h : Paged u ag) {slot : Nat} (hs : slot < 0x40000) :
    physCheck u ag.secure slot = none ∧ u.physLoc slot = slot ∧ u.ownedLoc ag.engine slot = false ∧ u.badLoc slot = false := by
  refine ⟨?_, ?_, h.free _, h.sound _ (by omega)⟩
  · unfold physCheck
    rw [if_pos (by unfold lpddrEnd; omega), h.sparing, wrg_free h.world]
    simp
  · unfold State.physLoc
    rw [if_pos (by unfold lpddrEnd; omega)]

/-- The level 1 and level 2 tables of an address below 2^28. -/
theorem walk_paged {u : State} {ag : Agent} (h : Paged u ag) {va : Nat} (hv : va < 0x30000) :
    walk u ag 0x10000 va 3 0 0x10000 = walk u ag 0x10000 va 1 2 0x30000 := by
  have r0 : readNat u.mem 0x10000 8 = 0x20001 := by
    rw [readNat_congr 8 0x10000 fun i hi => h.tables _ (by omega)]; decide +kernel
  have r1 : readNat u.mem 0x20000 8 = 0x30001 := by
    rw [readNat_congr 8 0x20000 fun i hi => h.tables _ (by omega)]; decide +kernel
  have b0 : bitsOf va (40 - 12 * 0) 12 = 0 := by unfold bitsOf; omega
  have b1 : bitsOf va (40 - 12 * (0 + 1)) 12 = 0 := by unfold bitsOf; omega
  have t0 := walk_reads h (slot := 0x10000) (by decide)
  have t1 := walk_reads h (slot := 0x20000) (by decide)
  unfold walk
  dsimp only
  rw [b0, show 0x10000 + 8 * 0 = 0x10000 from rfl, t0.1]
  dsimp only
  rw [t0.2.1, r0, t0.2.2.1, t0.2.2.2, if_neg (by decide), if_neg (by decide), if_neg (by decide), if_neg (by decide), if_neg (by decide)]
  unfold walk
  dsimp only
  rw [b1, show bitsOf 0x20001 16 32 * 2 ^ 16 + 8 * 0 = 0x20000 by decide, t1.1]
  dsimp only
  rw [t1.2.1, r1, t1.2.2.1, t1.2.2.2, if_neg (by decide), if_neg (by decide), if_neg (by decide), if_neg (by decide), if_neg (by decide)]
  rfl

/-- In any module with those tables the page translates to its frame, for every kind, with A and D already set. -/
theorem translate_page {u : State} {ag : Agent} {via : Via} {k : Kind} {o : Nat} (ho : o < 65536) (h : Paged u ag) :
    Machine.translate u ag via k (BitVec.ofNat 64 (0x10000 + o)) = .ok (u, .mem (0x40000 + o)) := by
  have hv : (BitVec.ofNat 64 (0x10000 + o)).toNat = 0x10000 + o := by simp; omega
  have r2 : readNat u.mem 0x30008 8 = 0x4019F := by
    rw [readNat_congr 8 0x30008 fun i hi => h.tables _ (by omega)]; decide +kernel
  have b2 : bitsOf (0x10000 + o) (40 - 12 * 2) 12 = 1 := by unfold bitsOf; omega
  have hl : leafCheck 0x4019F ag k = none := by cases k <;> rfl
  have hp : pteTouched 0x4019F k = 0x4019F := by cases k <;> rfl
  have t2 := walk_reads h (slot := 0x30008) (by decide)
  have hw : findLeaf u ag (0x10000 + o) = .leaf ⟨0x10000, ag.secure, 16, 1, 0x30008, 0x4019F⟩ := by
    rw [found_paged h, walk_paged h (by omega)]
    unfold walk
    dsimp only
    rw [b2, show 0x30000 + 8 * 1 = 0x30008 from rfl, t2.1]
    dsimp only
    rw [t2.2.1, r2, t2.2.2.1, t2.2.2.2, if_neg (by decide), if_neg (by decide), if_neg (by decide), if_pos (by decide),
      if_neg (by decide), if_neg (by decide), if_neg (by decide)]
    simp only [show ¬ (2 : Nat) = 1 by decide, if_false, Found.leaf.injEq, Xlat.mk.injEq, and_true, true_and]
    omega
  have ha : (⟨0x10000, ag.secure, 16, 1, 0x30008, 0x4019F⟩ : Xlat).apply (0x10000 + o) = 0x40000 + o := by
    unfold Xlat.apply
    rw [show bitsOf 0x4019F 16 32 = 4 by decide]
    dsimp only
    omega
  have ht : u.touchLeaf ⟨0x10000, ag.secure, 16, 1, 0x30008, 0x4019F⟩ k = u := by
    unfold State.touchLeaf
    rw [if_pos hp]
  have hf : physCheck u ag.secure (0x40000 + o) = none := by
    unfold physCheck
    rw [if_pos (by unfold lpddrEnd; omega), h.sparing, wrg_free h.world]
    simp
  unfold Machine.translate
  dsimp only
  rw [hv, if_neg (by omega), if_neg (by omega), hw]
  dsimp only
  rw [hl]
  dsimp only
  rw [hp]
  simp only [bne_self_eq_false, Bool.false_and, Bool.false_eq_true, if_false]
  rw [ht, ha, hf]
  dsimp only
  unfold State.physLoc
  rw [if_pos (by unfold lpddrEnd; omega)]

/-- An access within 4 KiB of that page reaches its bytes and changes nothing. -/
theorem locate_page {u : State} {ag : Agent} {via : Via} {k : Kind} {o n : Nat} (ho : o % 4096 + n ≤ 4096) (h0 : 0 < n)
    (ho' : o < 65536) (h : Paged u ag) (fuel : Nat) :
    locate ag via k (fuel + 1) u (BitVec.ofNat 64 (0x10000 + o)) n = .ok (u, pageTargets o n) := by
  have hv : (BitVec.ofNat 64 (0x10000 + o)).toNat = 0x10000 + o := by simp; omega
  have hmn : pieceLen (BitVec.ofNat 64 (0x10000 + o)) n = n := by unfold pieceLen; rw [hv]; omega
  unfold locate
  rw [if_neg (by omega)]
  dsimp only
  rw [hmn, translate_page ho' h]
  dsimp only
  rw [Nat.sub_self]
  have hz : ∀ f : Nat, locate ag via k f u (BitVec.ofNat 64 (0x10000 + o) + BitVec.ofNat 64 n) 0 = .ok (u, []) := by
    intro f; cases f <;> rfl
  rw [hz]
  simp [pageTargets, Target.plus]

theorem reaches_page {u : State} {ag : Agent} {via : Via} {k : Kind} {o n : Nat} (ho : o % 4096 + n ≤ 4096) (h0 : 0 < n)
    (ho' : o < 65536) (h : Paged u ag) : Reaches u ag via k (BitVec.ofNat 64 (0x10000 + o)) n u (pageTargets o n) := by
  refine ⟨locate_page ho h0 ho' h _, ?_⟩
  unfold pageTargets
  rw [List.any_eq_false]
  intro x hx
  obtain ⟨_, _, rfl⟩ := List.mem_map.mp hx
  simp [State.ownedTarget, h.free]

/-- The page above it is not mapped, and an attempt leaves the module as it was. -/
theorem translate_unmapped {u : State} {ag : Agent} {via : Via} {k : Kind} (h : Paged u ag) :
    Machine.translate u ag via k 0x20000 = .fault ⟨.xlate, 0x20000⟩ u := by
  have r2 : readNat u.mem 0x30010 8 = 0 := by
    rw [readNat_congr 8 0x30010 fun i hi => h.tables _ (by omega)]; decide +kernel
  have t2 := walk_reads h (slot := 0x30010) (by decide)
  have hw : findLeaf u ag 0x20000 = .fault .xlate := by
    rw [found_paged h, walk_paged h (by omega)]
    unfold walk
    dsimp only
    rw [show 0x30000 + 8 * bitsOf 0x20000 (40 - 12 * 2) 12 = 0x30010 by decide, t2.1]
    dsimp only
    rw [t2.2.1, r2, t2.2.2.1, t2.2.2.2]
    rfl
  unfold Machine.translate
  dsimp only
  rw [show (0x20000 : Word).toNat = 0x20000 from rfl, if_neg (by decide), if_neg (by decide), hw]

theorem locate_unmapped {u : State} {ag : Agent} {via : Via} {k : Kind} {n : Nat} (h0 : 0 < n) (h : Paged u ag) (fuel : Nat) :
    locate ag via k (fuel + 1) u 0x20000 n = .fault ⟨.xlate, 0x20000⟩ u := by
  unfold locate
  rw [if_neg (by omega)]
  dsimp only
  rw [translate_unmapped h]

/-- An access there faults. -/
theorem faults_unmapped {u : State} {ag : Agent} {via : Via} {k : Kind} {n : Nat} (h0 : 0 < n) (h : Paged u ag) :
    access u ag via k 0x20000 n = .fault ⟨.xlate, 0x20000⟩ u := by
  unfold access
  rw [locate_unmapped h0 h (n / 4096 + 1)]

/-! ### Witnesses: registers, scalar arithmetic and memory -/

theorem witness_registers : (31 : Reg) ≠ 0 ∧ (30 : Reg) ≠ 31 ∧ (1023 : Nat) < 1024 ∧ (1022 : Nat) ≠ 1023 ∧ (7 : Fin 8) ≠ 0 ∧
    (0 : Fin 8) ≠ 7 := by decide

theorem row_mem {α β : Type} {l : List (α × β)} {a : α} (i : Nat) (h : l[i]?.map (·.1) = some a) : ∃ f, (a, f) ∈ l := by
  cases e : l[i]? with
  | none => rw [e] at h; cases h
  | some p =>
    rw [e] at h
    simp only [Option.map_some, Option.some.injEq] at h
    exact ⟨p.2, h ▸ List.mem_of_getElem? e⟩

/-- A row of each table of the scalar statements. -/
theorem witness_scalar_tables : (∃ f, ((Instr.clz : R2 → Instr), f) ∈ unaryTable) ∧ (∃ f, (Instr.maxu, f) ∈ aluTable) ∧
    (∃ f, (Instr.slti, f) ∈ immTable) ∧ (∃ f, (Instr.srai, f) ∈ shiftTable) ∧ (∃ f, (Instr.bgeu, f) ∈ branchTable) ∧
    (∃ f, (Instr.fsgnjx, f) ∈ fpTable) ∧ ∃ f, (Instr.crc, f) ∈ crTable :=
  ⟨row_mem 0 rfl, row_mem 15 rfl, row_mem 4 rfl, row_mem 2 rfl, row_mem 5 rfl, row_mem 14 rfl, row_mem 2 rfl⟩

/-- Each clause of DivisionCorners: a zero divisor, the overflow of DIV, and a division of −2^63 by 1. -/
theorem witness_DivisionCorners :
    (∃ row ∈ divTable, row.2.2.2 = some 0) ∧ base.getG 0 = 0 ∧
    divOverflows ((regs [(6, 0x8000000000000000)] base).getG 6) ((regs [(7, BitVec.allOnes 64)] base).getG 7) ∧
    (regs [(7, 1)] base).getG 7 ≠ 0 ∧
    ¬ divOverflows ((regs [(6, 0x8000000000000000)] base).getG 6) ((regs [(7, 1)] base).getG 7) := by
  exact ⟨⟨_, List.mem_of_getElem? (i := 2) rfl, rfl⟩, by decide +kernel, ⟨by decide +kernel, by decide +kernel⟩,
    by decide +kernel, fun h => absurd h.2 (by decide +kernel)⟩

/-- A state whose g6 names a byte of the scratchpad. -/
def atPad (o : Nat) : State := regs [(6, pad o)] base

theorem handler_base : HasHandler base := by unfold HasHandler; decide
theorem handler_atPad (o : Nat) : HasHandler (atPad o) := handler_base
theorem handler_paged : HasHandler paged := by unfold HasHandler; decide

theorem core_zero {h : Hart} (e : h.csr.hartid = 0) : h.agent.core = 0 := by simp [Hart.agent, coreOf, e]

theorem atPad_va (o : Nat) : (atPad o).getG 6 + (0 : BitVec 12).signExtend 64 = pad o := by
  have : (atPad o).getG 6 = pad o := rfl
  rw [this]
  simp

/-- What the accesses of the scalar statements find at the scratchpad: for any `via` and kind but a fetch. -/
theorem reaches_atPad (via : Via) {k : Kind} {o n : Nat} (ho : o % 4096 + n ≤ 4096) (h0 : 0 < n) (ho' : o < 2 ^ 19)
    (hk : k ≠ .fetch) : Reaches (atPad o) (atPad o).hart.agent via k (pad o) n (atPad o) (padTargets o n) :=
  reaches_pad ho h0 ho' hk (core_zero rfl) rfl rfl

theorem witness_ScalarLoadResults : ∃ ext d va ts, IsLoad (atPad 0) (.ld ⟨5, 6, 0⟩) 4 8 ext d va ∧
    Reaches (atPad 0) (atPad 0).hart.agent (viaOf 8) .load va 8 (atPad 0) ts ∧ Sound (atPad 0) ts ∧
    Unwatched (atPad 0) (atPad 0) ts := by
  refine ⟨_, _, _, padTargets 0 8, .plain .ld 8 _ _ (List.mem_of_getElem? (i := 3) rfl), ?_, sound_pad _ _ rfl, .inl rfl⟩
  show Reaches _ _ _ _ ((atPad 0).getG 6 + _) _ _ _
  rw [atPad_va]
  exact reaches_atPad _ (by decide) (by decide) (by decide) (by decide)

theorem witness_compressed_load : ∃ ext va, IsLoad (regs [(1, pad 0)] base) (.cLd ⟨5, 31⟩) 2 8 ext 5 va ∧ va = pad 248 :=
  ⟨_, _, .compressed ⟨5, 31⟩, by decide +kernel⟩

/-- The page of `paged` with its first block bad, and with its first granule watched. -/
def badPage : State := regs [(6, 0x10000)] { paged with ctl := { paged.ctl with bad := [0x400] } }
/-- Likewise watched. -/
def watchedPage : State := regs [(6, 0x10000)] { paged with ctl := { paged.ctl with watch := [0x2000] } }

theorem tables_paged {u : State} (h : u.mem = paged.mem) : HasTables u := fun _ _ => by rw [h]

theorem ptroot_paged : paged.hart.ptroot = some 0x10000 := by decide +kernel

/-- A module with the tables of `paged` and no errors but those named beyond them. -/
theorem paged_of {u : State} {ag : Agent} {bad : List Nat} (hm : u.mem = paged.mem) (hr : u.wrg = []) (hs : u.ctl.sparing = false)
    (hg : ag.ptroot = some 0x10000) (hp : ag.pins = []) (ht : (u.coreSt ag.core).tlb = []) (ho : u.owned = [])
    (hb : u.ctl.bad = bad) (he : u.ctl.blockMeta = []) (hn : ∀ b ∈ bad, 0x400 ≤ b) : Paged u ag :=
  ⟨tables_paged hm, hr, hs, hg, hp, ht, fun _ => by simp [State.ownedLoc, ho], fun b h => sound_of hb he (by
    rw [← Bool.not_eq_true, List.contains_iff_mem]
    exact fun hm => by have := hn b hm; omega)⟩

theorem witness_ScalarLoadMachineCheckAndWatch :
    (∃ ext d va ts, IsLoad badPage (.ld ⟨5, 6, 0⟩) 4 8 ext d va ∧ HasHandler badPage ∧
      Reaches badPage badPage.hart.agent (viaOf 8) .load va 8 badPage ts ∧ ¬ Sound badPage ts) ∧
    ∃ ext d va ts, IsLoad watchedPage (.ld ⟨5, 6, 0⟩) 4 8 ext d va ∧ HasHandler watchedPage ∧
      Reaches watchedPage watchedPage.hart.agent (viaOf 8) .load va 8 watchedPage ts ∧ Sound watchedPage ts ∧
      ¬ Unwatched watchedPage watchedPage ts := by
  refine ⟨⟨_, _, _, pageTargets 0 8, .plain .ld 8 _ _ (List.mem_of_getElem? (i := 3) rfl), handler_paged, ?_, ?_⟩,
    _, _, _, pageTargets 0 8, .plain .ld 8 _ _ (List.mem_of_getElem? (i := 3) rfl), handler_paged, ?_, ?_, ?_⟩
  · show Reaches _ _ _ _ (badPage.getG 6 + _) _ _ _
    rw [show badPage.getG 6 + BitVec.signExtend 64 (0 : BitVec 12) = BitVec.ofNat 64 (0x10000 + 0) by decide +kernel]
    exact reaches_page (by decide) (by decide) (by decide)
      (paged_of rfl rfl rfl ptroot_paged rfl (by decide +kernel) rfl rfl rfl (by decide))
  · unfold Sound; decide +kernel
  · show Reaches _ _ _ _ (watchedPage.getG 6 + _) _ _ _
    rw [show watchedPage.getG 6 + BitVec.signExtend 64 (0 : BitVec 12) = BitVec.ofNat 64 (0x10000 + 0) by decide +kernel]
    exact reaches_page (by decide) (by decide) (by decide)
      (paged_of rfl rfl rfl ptroot_paged rfl (by decide +kernel) rfl rfl rfl (by decide))
  · unfold Sound; decide +kernel
  · unfold Unwatched; decide +kernel

theorem witness_ScalarStoreResults : ∃ x va ts, IsStore (atPad 4088) (.sd ⟨5, 6, 0⟩) 4 8 x va ∧ (atPad 4088).memoriesWf = true ∧
    (atPad 4088).loose = false ∧ Reaches (atPad 4088) (atPad 4088).hart.agent (viaOf 8) .store va 8 (atPad 4088) ts ∧ AllMemory ts ∧
    Unwatched (atPad 4088) (atPad 4088) ts ∧ Sound (atPad 4088) ts := by
  refine ⟨_, _, padTargets 4088 8, .plain .sd 8 _ (List.mem_of_getElem? (i := 3) rfl), by decide +kernel, rfl, ?_, allMemory_pad _ _,
    .inl rfl, sound_pad _ _ rfl⟩
  show Reaches _ _ _ _ ((atPad 4088).getG 6 + _) _ _ _
  rw [atPad_va]
  exact reaches_atPad _ (by decide) (by decide) (by decide) (by decide)

/-- An address above the address space faults, and a line that an engine owns makes the load wait. -/
theorem witness_ScalarAccessFaults :
    (∃ ext d va, IsLoad base (.ld ⟨5, 0, 0xFFF⟩) 4 8 ext d va ∧ HasHandler base ∧
      locate base.hart.agent (viaOf 8) .load (8 / 4096 + 2) base va 8 = .fault { cause := .access, addr := BitVec.allOnes 64 } base) ∧
    let s : State := { atPad 0 with owned := [{ lo := coreLoc 0 0, len := 64, engine := some 3 }] }
    ∃ ext d va ts, IsLoad s (.ld ⟨5, 6, 0⟩) 4 8 ext d va ∧
      locate s.hart.agent (viaOf 8) .load (8 / 4096 + 2) s va 8 = .ok (s, ts) ∧ ts.any (s.ownedTarget none) = true := by
  refine ⟨⟨_, _, _, .plain .ld 8 _ _ (List.mem_of_getElem? (i := 3) rfl), handler_base, faultsWith_eq ?_⟩, _, _, _, padTargets 0 8,
    .plain .ld 8 _ _ (List.mem_of_getElem? (i := 3) rfl), ?_, by decide +kernel⟩
  · decide +kernel
  · show locate _ _ _ _ _ ((atPad 0).getG 6 + _) _ = _
    rw [atPad_va]
    exact locate_pad (by decide) (by decide) (by decide) (by decide) (core_zero rfl) rfl _

/-- A store in U over a watched granule performs and then traps. -/
theorem witness_ScalarStoreWatch : ∃ x va ts, IsStore watchedPage (.sd ⟨5, 6, 0⟩) 4 8 x va ∧ watchedPage.memoriesWf = true ∧
    watchedPage.loose = false ∧ HasHandler watchedPage ∧
    Reaches watchedPage watchedPage.hart.agent (viaOf 8) .store va 8 watchedPage ts ∧ AllMemory ts ∧
    ¬ Unwatched watchedPage watchedPage ts := by
  refine ⟨_, _, pageTargets 0 8, .plain .sd 8 _ (List.mem_of_getElem? (i := 3) rfl), by decide +kernel, rfl, handler_paged, ?_, ?_, ?_⟩
  · show Reaches _ _ _ _ (watchedPage.getG 6 + _) _ _ _
    rw [show watchedPage.getG 6 + BitVec.signExtend 64 (0 : BitVec 12) = BitVec.ofNat 64 (0x10000 + 0) by decide +kernel]
    exact reaches_page (by decide) (by decide) (by decide)
      (paged_of rfl rfl rfl ptroot_paged rfl (by decide +kernel) rfl rfl rfl (by decide))
  · intro x hx
    obtain ⟨_, _, rfl⟩ := List.mem_map.mp hx
    exact ⟨_, rfl⟩
  · unfold Unwatched; decide +kernel

/-- Two waiting bytes of the scalar path at one location: the first may perform, the second not before it. -/
def waiting : State :=
  let p : Pend := { lane := none, kind := .plain, link := none, locs := [coreLoc 0 0], bytes := [1], keep := 0 }
  { base with loose := true, hart := { base.hart with pend := [p, { p with bytes := [2] }] } }

theorem witness_WaitingStores :
    (∃ x va ts, IsStore { atPad 0 with loose := true } (.sd ⟨5, 6, 0⟩) 4 8 x va ∧
      Reaches { atPad 0 with loose := true } (atPad 0).hart.agent (viaOf 8) .store va 8 { atPad 0 with loose := true } ts ∧
      AllMemory ts ∧ Unwatched { atPad 0 with loose := true } { atPad 0 with loose := true } ts) ∧
    waiting.powered = true ∧ waiting.memoriesWf = true ∧
    (∃ p, waiting.hart.pend[0]? = some p ∧ (∀ q ∈ waiting.hart.pend.take 0, q.precedes p = false) ∧ p.locs.Nodup ∧
      p.bytes.length = p.locs.length) ∧
    ∃ p, waiting.hart.pend[1]? = some p ∧ ∃ q ∈ waiting.hart.pend.take 1, q.precedes p = true := by
  refine ⟨⟨_, _, padTargets 0 8, .plain .sd 8 _ (List.mem_of_getElem? (i := 3) rfl), ?_, allMemory_pad _ _, .inl rfl⟩, rfl,
    by decide +kernel, ⟨_, rfl, by decide, by decide, rfl⟩, _, rfl, _, List.mem_cons_self .., by decide⟩
  show Reaches _ _ _ _ ((atPad 0).getG 6 + _) _ _ _
  rw [atPad_va]
  exact reaches_pad (by decide) (by decide) (by decide) (by decide) (core_zero rfl) rfl rfl

/-- A misaligned store with two bytes still to perform, and an element that is held back. -/
theorem witness_WaitingStores_kinds :
    (let p : Pend := { lane := none, kind := .bytewise, link := none, locs := [coreLoc 0 1, coreLoc 0 2], bytes := [1, 2], keep := 0 }
     let s : State := { base with hart := { base.hart with pend := [p] } }
     s.hart.pend[0]? = some p ∧ s.memoriesWf = true ∧ (∀ e ∈ s.hart.viq, e.early = []) ∧ p.kind = .bytewise ∧ 1 < p.locs.length ∧
     p.locs.Nodup ∧ p.bytes.length = p.locs.length ∧ ¬ ((∃ pc : Word, p.kind = .held pc) ∨ ∃ q ∈ s.hart.pend.take 0, q.precedes p = true)) ∧
    ∃ pc : Word, ({ lane := some 0, kind := .held 0x10000, link := none, locs := [], bytes := [], keep := 0 } : Pend).kind = .held pc :=
  ⟨⟨rfl, by decide +kernel, fun _ h => (nomatch h), rfl, by decide, by decide, rfl, by
    rintro (⟨pc, h⟩ | ⟨q, h, _⟩)
    · cases h
    · cases h⟩, 0x10000, rfl⟩

/-- The page table that maps the load's page lies in a line that an engine owns. -/
theorem witness_ScalarAccessWaits : ∃ ext d va,
    IsLoad { regs [(6, 0x10000)] paged with owned := [{ lo := 0x30008, len := 8, engine := some 3 }] } (.ld ⟨5, 6, 0⟩) 4 8 ext d va ∧
    (match locate paged.hart.agent (viaOf 8) .load (8 / 4096 + 2)
      { regs [(6, 0x10000)] paged with owned := [{ lo := 0x30008, len := 8, engine := some 3 }] } va 8 with
      | .wait => true | _ => false) = true :=
  ⟨_, _, _, .plain .ld 8 _ _ (List.mem_of_getElem? (i := 3) rfl), by decide +kernel⟩

/-! ### Witnesses: branches, the return stack, atomics and control registers -/

/-- With a strip record at PC that holds `n`, and VIQ entries or none. -/
def stripped (n : Word) (q : List Held) : State :=
  regs [(7, 5)] { base with hart := { hartAt 4 with strip := ⟨true, 0x10000, n⟩, viq := q } }

/-- An entry of the VIQ. -/
def heldOf (v : VInstr) (ops : List Word) : Held :=
  { instr := v, pc := 0x10000, ops := ops, priv := true, rm := 0, data := [], conv := 0, skip := 0, tagged := false
    done := 0, restart := none, begun := false, flying := false, first := 0, raised := [], demoted := false, early := []
    thenVtype := none, pins := [], part := none, reading := false }

theorem witness_StripLoops :
    base.getG 0 = 0 ∧
    ((stripped 6 []).getG 7 ≠ 0 ∧ ¬ (stripped 6 []).hart.strip.value.toNat ≤ ((stripped 6 []).getG 7).toNat) ∧
    ((stripped 5 []).getG 7 ≠ 0 ∧ (stripped 5 []).hart.strip.valid = true ∧
      (stripped 5 []).hart.strip.pc = (stripped 5 []).hart.pc ∧
      (stripped 5 []).hart.strip.value.toNat ≤ ((stripped 5 []).getG 7).toNat ∧ (stripped 5 []).hart.viqReady = false ∧
      HasHandler (stripped 5 [])) ∧ (stripped 5 [heldOf .vlsync []]).hart.viqReady = true := by
  refine ⟨by decide +kernel, ⟨by decide +kernel, by decide +kernel⟩, ⟨by decide +kernel, rfl, rfl, by decide +kernel,
    by decide +kernel, handler_base⟩, by decide +kernel⟩

/-- With a return stack, RASP, RASL and SPILL. -/
def stacked (r : List Word) (rasp rasl : Word) (spill : BitVec 32) : State :=
  { base with hart := { hartAt 4 with rstack := r, csr := { (hartAt 4).csr with rasp := rasp, rasl := rasl, spill := spill } } }

theorem witness_JumpsAndParking : (0x80000 : BitVec 20) ≠ 0 ∧ (0x200 : BitVec 10) ≠ 0 := by decide

theorem witness_CallsPush :
    (∃ x, IsCall base (.call 5) x) ∧ base.hart.rstack.length < 16 ∧
    (let s := stacked (List.replicate 16 4) 0x100 0x107 0
     s.hart.rstack.length = 16 ∧ s.hart.csr.rasl.toNat < s.hart.csr.rasp.toNat + 8 ∧ HasHandler s) ∧
    let s := stacked (List.replicate 16 4) (pad 0) (pad 8) 0
    s.hart.rstack.length = 16 ∧ s.hart.csr.rasp.toNat + 8 ≤ s.hart.csr.rasl.toNat ∧ s.memoriesWf = true ∧
      s.loose = false ∧ AllMemory (padTargets 0 8) ∧ Reaches s s.hart.agent .scalar .store s.hart.csr.rasp 8 s (padTargets 0 8) ∧ Sound s (padTargets 0 8) := by
  refine ⟨⟨_, .call 5⟩, by decide +kernel, ⟨by decide +kernel, by decide +kernel, handler_base⟩, by decide +kernel,
    by decide +kernel, by decide +kernel, rfl, allMemory_pad _ _, ?_, sound_pad _ _ rfl⟩
  exact reaches_pad (by decide) (by decide) (by decide) (by decide) (core_zero rfl) rfl rfl

/-- A call while stores may wait, with a full stack and room for its spill. -/
theorem witness_WaitingSpill : let s := { stacked (List.replicate 16 4) (pad 0) (pad 8) 0 with loose := true }
    (∃ x, IsCall s (.call 5) x) ∧ s.hart.rstack.length = 16 ∧ s.hart.csr.rasp.toNat + 8 ≤ s.hart.csr.rasl.toNat ∧
      s.memoriesWf = true ∧ s.loose = true ∧ AllMemory (padTargets 0 8) ∧
      Reaches s s.hart.agent .scalar .store s.hart.csr.rasp 8 s (padTargets 0 8) :=
  ⟨⟨_, .call 5⟩, by decide +kernel, by decide +kernel, by decide +kernel, rfl, allMemory_pad _ _,
    reaches_pad (by decide) (by decide) (by decide) (by decide) (core_zero rfl) rfl rfl⟩

/-- A spill and a refill whose pages are not mapped. -/
theorem witness_StackFaults :
    (let s := stacked (List.replicate 16 4) 0 8 0
     s.hart.rstack.length = 16 ∧ s.hart.csr.rasp.toNat + 8 ≤ s.hart.csr.rasl.toNat ∧ HasHandler s ∧
       locate s.hart.agent .scalar .store 2 s s.hart.csr.rasp 8 = .fault ⟨.xlate, 0⟩ s) ∧
    let s := stacked [] 8 8 1
    s.hart.rstack = [] ∧ s.hart.csr.spill ≠ 0 ∧ HasHandler s ∧
      locate s.hart.agent .scalar .load 2 s ((s.hart.csr.rasp - 8) &&& 0xFFFFFFFFFFFF8) 8 = .fault ⟨.xlate, 0⟩ s :=
  ⟨⟨by decide +kernel, by decide +kernel, handler_base, faultsWith_eq (by decide +kernel)⟩, rfl, by decide +kernel, handler_base,
    faultsWith_eq (by decide +kernel)⟩

theorem witness_ReturnsPop :
    (stacked [4] 0 0 0).hart.rstack = [] ++ [4] ∧
    (let s := stacked [] 0 0 0; s.hart.rstack = [] ∧ s.hart.csr.spill = 0 ∧ HasHandler s) ∧
    let s := stacked [] (pad 8) (pad 8) 1
    s.hart.rstack = [] ∧ s.hart.csr.spill ≠ 0 ∧
      Reaches s s.hart.agent .scalar .load ((s.hart.csr.rasp - 8) &&& 0xFFFFFFFFFFFF8) 8 s (padTargets 0 8) ∧
      Sound s (padTargets 0 8) := by
  refine ⟨rfl, ⟨rfl, rfl, handler_base⟩, rfl, by decide +kernel, ?_, sound_pad _ _ rfl⟩
  rw [show ((stacked [] (pad 8) (pad 8) 1).hart.csr.rasp - 8) &&& 0xFFFFFFFFFFFF8 = pad 0 by decide +kernel]
  exact reaches_pad (by decide) (by decide) (by decide) (by decide) (core_zero rfl) rfl rfl

/-- Operands of a 64-bit atomic at g6. -/
def amoAt6 : AmoOp := ⟨5, 6, 7, .core, .rel, false⟩

theorem home_of {s : State} {va : Word} (hr : s.hart.run = .running) (hl : s.loose = false) : AtHome s va :=
  ⟨fun _ _ _ h => (by rw [hr] at h; cases h), fun h => (by rw [hl] at h; cases h)⟩

theorem witness_AtomicResults : (∃ f, IsAtomic (atPad 0) (.amoadd amoAt6) amoAt6 f) ∧
    (∃ f, IsAtomic (atPad 0) (.amocas amoAt6) amoAt6 f) ∧ (atPad 0).memoriesWf = true ∧
    ((atPad 0).getG 6).toNat % atomicBytes amoAt6 = 0 ∧ AtHome (atPad 0) ((atPad 0).getG 6) ∧
    Reaches (atPad 0) (atPad 0).hart.agent .atomic .rmw ((atPad 0).getG 6) (atomicBytes amoAt6) (atPad 0) (padTargets 0 8) ∧
    Sound (atPad 0).flushScalar (padTargets 0 8) ∧ Unwatched (atPad 0) (atPad 0).flushScalar (padTargets 0 8) := by
  refine ⟨⟨_, .table .amoadd _ _ (List.mem_of_getElem? (i := 0) rfl)⟩, ⟨_, .cas _⟩, by decide +kernel, by decide +kernel,
    home_of rfl rfl, ?_, sound_pad _ _ rfl, .inl rfl⟩
  exact reaches_atPad _ (by decide) (by decide) (by decide) (by decide)

/-- A hart in U whose atomic hits a watch bit. -/
theorem witness_AtomicWatch : let s := watchedPage
    (∃ f, IsAtomic s (.amoadd amoAt6) amoAt6 f) ∧ s.memoriesWf = true ∧ (s.getG 6).toNat % atomicBytes amoAt6 = 0 ∧
    AtHome s (s.getG 6) ∧ Reaches s s.hart.agent .atomic .rmw (s.getG 6) (atomicBytes amoAt6) s (pageTargets 0 8) ∧
    Sound s.flushScalar (pageTargets 0 8) ∧ ¬ Unwatched s s.flushScalar (pageTargets 0 8) ∧ HasHandler s := by
  refine ⟨⟨_, .table .amoadd _ _ (List.mem_of_getElem? (i := 0) rfl)⟩, by decide +kernel, by decide +kernel, home_of rfl rfl, ?_,
    by unfold Sound; decide +kernel, by unfold Unwatched; decide +kernel, handler_paged⟩
  exact reaches_page (o := 0) (by decide) (by decide) (by decide)
    (paged_of rfl rfl rfl ptroot_paged rfl (by decide +kernel) rfl rfl rfl (by decide))

/-- `paged` with its page mapped to the memory of peer 0 over link 0, and a stage of a read-modify-write. -/
def peered (run : Run) : State :=
  let s := regs [(6, 0x10000)] paged
  { s with
    mem := writeNat s.mem 0x30008 8 0x80000000019F
    links := s.links.set 0 { s.links[0] with up := true }
    loose := true
    hart := { s.hart with run := run } }

/-- The bytes that it names there. -/
def peerTargets : List Target := (List.range 8).map fun i => .mem (peerLoc 0 0 + i)

/-- The three stages: sending, performing and completing. -/
theorem witness_AtomicsAtPeers :
    (let s := peered .running
     s.loose = true ∧ linkOver s s.hart.agent (s.getG 6) = some 0 ∧
       (∀ (m : Nat) (x : Option Nat) (hit : Bool), s.hart.run ≠ .peer m x hit) ∧
       (∃ f, IsAtomic s (.amoadd amoAt6) amoAt6 f) ∧ (s.getG 6).toNat % atomicBytes amoAt6 = 0 ∧ (s.getG 6).toNat % 8192 = 0) ∧
    (let s := peered (.peer 0 none false)
     s.loose = true ∧ s.memoriesWf = true ∧
       Reaches s s.hart.agent .atomic .rmw (s.getG 6) (atomicBytes amoAt6) s peerTargets ∧ Sound s.flushScalar peerTargets) ∧
    (peered (.peer 0 (some 5) false)).hart.run = .peer 0 (some 5) false := by
  refine ⟨⟨rfl, by decide +kernel, fun _ _ _ h => (by cases h), ⟨_, .table .amoadd _ _ (List.mem_of_getElem? (i := 0) rfl)⟩,
    by decide +kernel, by decide +kernel⟩, ⟨rfl, by decide +kernel, ⟨okIs_eq ?_, by decide +kernel⟩, by unfold Sound; decide +kernel⟩, rfl⟩
  decide +kernel

theorem witness_AtomicAlignment : HasHandler (atPad 4) ∧ (∃ f, IsAtomic (atPad 4) (.amoadd amoAt6) amoAt6 f) ∧
    ((atPad 4).getG 6).toNat % atomicBytes amoAt6 ≠ 0 ∧ ((atPad 4096).getG 6).toNat % 8192 ≠ 0 :=
  ⟨handler_base, ⟨_, .table .amoadd _ _ (List.mem_of_getElem? (i := 0) rfl)⟩, by decide +kernel, by decide +kernel⟩

theorem witness_OrderedLoadsAndStores :
    ((atPad 0).getG 6).toNat % atomicBytes amoAt6 = 0 ∧ Sound (atPad 0) (padTargets 0 8) ∧
    Unwatched (atPad 0) (atPad 0) (padTargets 0 8) ∧
    (∀ k ∈ [Kind.load, .store], Reaches (atPad 0) (atPad 0).hart.agent (viaOf (atomicBytes amoAt6)) k ((atPad 0).getG 6)
      (atomicBytes amoAt6) (atPad 0) (padTargets 0 8)) ∧
    AllMemory (padTargets 0 8) ∧ (atPad 0).memoriesWf = true ∧ (atPad 0).loose = false ∧
    Sound (atPad 0).flushScalar (padTargets 0 8) ∧
    ¬ Unwatched watchedPage watchedPage (pageTargets 0 8) ∧ HasHandler watchedPage ∧ Sound watchedPage (pageTargets 0 8) ∧
    ∀ k : Kind, Reaches watchedPage watchedPage.hart.agent (viaOf (atomicBytes amoAt6)) k (watchedPage.getG 6)
      (atomicBytes amoAt6) watchedPage (pageTargets 0 8) := by
  refine ⟨by decide +kernel, sound_pad _ _ rfl, .inl rfl, ?_, allMemory_pad _ _, by decide +kernel, rfl, sound_pad _ _ rfl,
    by unfold Unwatched; decide +kernel, handler_paged, by unfold Sound; decide +kernel, fun k => ?_⟩
  · intro k hk
    exact reaches_atPad _ (by decide) (by decide) (by decide) (by revert k; decide)
  · exact reaches_page (o := 0) (by decide) (by decide) (by decide)
      (paged_of rfl rfl rfl ptroot_paged rfl (by decide +kernel) rfl rfl rfl (by decide))

/-- STR while writes may wait. -/
theorem witness_OrderedStores_waiting : let s : State := { atPad 0 with loose := true }
    s.loose = true ∧ AllMemory (padTargets 0 8) ∧ Unwatched s s (padTargets 0 8) ∧
    Reaches s s.hart.agent (viaOf (atomicBytes amoAt6)) .store (s.getG 6) (atomicBytes amoAt6) s (padTargets 0 8) :=
  ⟨rfl, allMemory_pad _ _, .inl rfl, reaches_pad (by decide) (by decide) (by decide) (by decide) (core_zero rfl) rfl rfl⟩

/-- A queue object in U that is empty and whose granule is watched. -/
theorem witness_WorkQueues_watch : let s := watchedPage
    s.memoriesWf = true ∧ (s.getG 6).toNat % 8192 = 0 ∧ AtHome s (s.getG 6) ∧ HasHandler s ∧
    Reaches s s.hart.agent .atomic .rmw (s.getG 6) 16 s (pageTargets 0 16) ∧ Sound s (pageTargets 0 16) ∧
    let u := s.settled s.hart.agent (pageTargets 0 16)
    numberAt u s.hart.agent (pageTargets 0 16) / 2 ^ 64 ≤ numberAt u s.hart.agent (pageTargets 0 16) % 2 ^ 64 ∧
    ¬ Unwatched s u (pageTargets 0 16) := by
  refine ⟨by decide +kernel, by decide +kernel, home_of rfl rfl, handler_paged, ?_, by unfold Sound; decide +kernel, by decide +kernel,
    by unfold Unwatched; decide +kernel⟩
  exact reaches_page (o := 0) (by decide) (by decide) (by decide)
    (paged_of rfl rfl rfl ptroot_paged rfl (by decide +kernel) rfl rfl rfl (by decide))

/-- A queue object at the start of the scratchpad, with BOTTOM as given. -/
def queueObject (bottom : Byte) : State := { atPad 0 with mem := writeByte [] (coreLoc 0 8) bottom }

theorem witness_WorkQueues :
    (∀ b ∈ [(0 : Byte), 1], let s := queueObject b
      s.memoriesWf = true ∧ (s.getG 6).toNat % 8192 = 0 ∧ AtHome s (s.getG 6) ∧ s.flushScalar = s ∧
      Reaches s s.hart.agent .atomic .rmw (s.getG 6) 16 s (padTargets 0 16) ∧ Sound s (padTargets 0 16) ∧
      Unwatched s s (padTargets 0 16)) ∧
    (let s := queueObject 0
     numberAt s s.hart.agent (padTargets 0 16) / 2 ^ 64 ≤ numberAt s s.hart.agent (padTargets 0 16) % 2 ^ 64) ∧
    let s := queueObject 1
    numberAt s s.hart.agent (padTargets 0 16) % 2 ^ 64 < numberAt s s.hart.agent (padTargets 0 16) / 2 ^ 64 ∧
    Reaches s s.hart.agent .atomic .rmw (s.getG 6 + BitVec.ofNat 64 (0x1000 + 8 * (0 % 512))) 8 s (padTargets 0x1000 8) ∧
    Sound s (padTargets 0x1000 8) ∧ Unwatched s s (padTargets 0x1000 8) := by
  refine ⟨?_, by decide +kernel, by decide +kernel, ?_, sound_pad _ _ rfl, .inl rfl⟩
  · intro b hb
    refine ⟨by revert b; decide +kernel, by revert b; decide +kernel, home_of rfl rfl, rfl, ?_, sound_pad _ _ rfl, .inl rfl⟩
    exact reaches_pad (by decide) (by decide) (by decide) (by decide) (core_zero rfl) rfl rfl
  · rw [show (queueObject 1).getG 6 + BitVec.ofNat 64 (0x1000 + 8 * (0 % 512)) = pad 0x1000 by decide +kernel]
    exact reaches_pad (by decide) (by decide) (by decide) (by decide) (core_zero rfl) rfl rfl

theorem admitted_base (n : Nat) : CrAdmitted base n := ⟨fun _ => rfl, fun _ => by decide +kernel, fun _ => by decide +kernel⟩

theorem witness_ControlRegisters :
    (∃ x, crRead base 0 = some x) ∧ (∃ x, crRead base 0x105 = some x) ∧ (∀ n, CrAdmitted base n) ∧
    base.hart.csr.stripEn = false ∧ HasHandler base ∧ crRead base 0xFFF = none ∧ isVectorSide 0 = true ∧
    base.hart.csr.status.vs ≠ 0 ∧ (stripped 5 [heldOf .vlsync []]).hart.viqReady = true ∧
    paged.hart.csr.status.priv = false ∧ HasHandler paged ∧
    ∃ s : State, s.hart.csr.status.vs = 0 ∧ HasHandler s :=
  ⟨⟨_, rfl⟩, ⟨_, rfl⟩, admitted_base, by decide +kernel, handler_base, by decide +kernel, by decide, by decide +kernel,
    by decide +kernel, rfl, handler_paged,
    { base with hart := { hartAt 4 with csr := { (hartAt 4).csr with status := { Status.reset with vs := 0 } } } }, rfl,
    handler_base⟩

/-- How a flush ends, as a number. -/
def flushEnd : Flush → Nat
  | .done _ => 0
  | .limit _ => 1
  | .fault _ _ => 2
  | _ => 3

theorem flushed_limit {x : Flush} (h : flushEnd x = 1) : ∃ u, x = .limit u := by
  cases x with
  | limit u => exact ⟨u, rfl⟩
  | _ => cases h

theorem flushed_fault {x : Flush} (h : flushEnd x = 2) : ∃ u f, x = .fault u f := by
  cases x with
  | fault u f => exact ⟨u, f, rfl⟩
  | _ => cases h

theorem flushed_wait {x : Flush} (h : flushEnd x = 3) : ∃ u, x = .wait u := by
  cases x with
  | wait u => exact ⟨u, rfl⟩
  | _ => cases h

/-- A flush of one entry to the scratchpad, and one whose line an engine owns. -/
theorem witness_FlushedStack : let s := stacked [4] (pad 0) (pad 8) 0
    s.hart.rstack.length = 1 ∧ s.loose = false ∧ s.hart.pend = [] ∧ s.memoriesWf = true ∧ s.hart.csr.rasp.toNat % 8 = 0 ∧
      s.hart.csr.rasp.toNat + 8 * 1 ≤ s.hart.csr.rasl.toNat ∧ s.hart.csr.rasl.toNat < 2 ^ 52 ∧
      AllFound s (fun _ : Nat => Via.scalar) .store (fun k => s.hart.csr.rasp + BitVec.ofNat 64 (8 * k)) 8 (List.range 1) []
        (fun k => padTargets (8 * k) 8) ∧ (∀ k : Nat, k < 1 → AllMemory (padTargets (8 * k) 8)) ∧
      Alone (List.range 1) (fun k => padTargets (8 * k) 8) 0 ∧
      let o : State := { s with owned := [{ lo := coreLoc 0 0, len := 64, engine := some 3 }] }
      ∃ u, flushStack 17 (o.onCsr fun c => { c with spill := 0 }) = .wait u := by
  refine ⟨rfl, rfl, rfl, by decide +kernel, by decide +kernel, by decide +kernel, by decide +kernel, ?_,
    fun _ _ => allMemory_pad _ _, ?_, flushed_wait (by decide +kernel)⟩
  · refine (allReach_pad (fun k => 8 * k) ?_ ?_ ?_ (by decide) (by decide) (core_zero rfl) rfl rfl rfl rfl).toAllFound
    all_goals
      intro i hi
      have : i = 0 := by simpa using hi
      subst this
      decide +kernel
  · intro j hj hn
    exact absurd (by simpa using hj) hn

/-- A flush of an empty stack is done at once; of one entry with room for none it stops, and to an unmapped page it
faults. -/
theorem witness_ReturnStackFlush :
    (∃ u, flushStack 17 (base.onCsr fun c => { c with spill := 0 }) = .done u) ∧ base.hart.rstack.length ≤ 16 ∧
    (let s := (stacked [4] 0x100 0x107 0).onCsr fun c => { c with spill := 0 }
     ∃ u, flushStack 17 s = .limit u) ∧ HasHandler (stacked [4] 0x100 0x107 0) ∧
    (let s := (stacked [4] 0 8 0).onCsr fun c => { c with spill := 0 }
     ∃ u f, flushStack 17 s = .fault u f) ∧ HasHandler (stacked [4] 0 8 0) ∧
    (∃ old, crRead base 0x022 = some old) :=
  ⟨⟨_, rfl⟩, by decide +kernel, flushed_limit (by decide +kernel), handler_base, flushed_fault (by decide +kernel), handler_base,
    ⟨_, rfl⟩⟩

/-! ### Witnesses: traps, waiting, streams, the barrier, watches, frames and the queue -/

theorem no_handler_reset : ¬ HasHandler State.reset := by unfold HasHandler; decide

theorem witness_SoftwareTraps : HasHandler base ∧ ¬ HasHandler State.reset := ⟨handler_base, no_handler_reset⟩

theorem witness_ExceptionReturn : base.hart.csr.status.priv = true ∧ base.hart.viq = [] ∧
    base.hart.tiles = [] ∧ paged.hart.csr.status.priv = false ∧ HasHandler paged := ⟨rfl, rfl, rfl, rfl, handler_paged⟩

/-- A running hart is at a boundary. -/
theorem at_boundary {h : Hart} (e : h.run = .running) : AtBoundary h :=
  ⟨by rw [e]; decide, by rw [e]; decide, fun k => by rw [e]; simp, fun l old hit => by rw [e]; simp⟩

theorem witness_AsynchronousTraps :
    (∃ k, PendingCause { hartAt 4 with pendMchkUnmasked := true } k) ∧
    (∃ k, PendingCause { hartAt 4 with pendMchk := [(1, 0x40000)] } k) ∧
    (∃ k, PendingCause { hartAt 4 with pendPreempt := true } k) ∧
    (∃ k, PendingCause { hartAt 4 with pendNotify := [7] } k) ∧ HasHandler base ∧ ∀ k, ¬ PendingCause Hart.reset k := by
  refine ⟨⟨_, .unmasked (at_boundary rfl) rfl⟩, ⟨_, .mchk _ _ [] (at_boundary rfl) rfl rfl rfl⟩,
    ⟨_, .preempt (at_boundary rfl) rfl rfl rfl rfl⟩, ⟨_, .notify _ [] (at_boundary rfl) rfl rfl rfl rfl rfl⟩, handler_base, ?_⟩
  intro k h
  cases h with
  | unmasked b _ => exact b.1 rfl
  | mchk _ _ _ b _ _ _ => exact b.1 rfl
  | preempt b _ _ _ _ => exact b.1 rfl
  | notify _ _ b _ _ _ _ _ => exact b.1 rfl

theorem witness_FrontEndFences : (Instr.fence .system .full = .svfence ∨ ∃ sc k, Instr.fence .system .full = .fence sc k) ∧
    base.hart.viqReady = false ∧ (stripped 5 [heldOf .vlsync []]).hart.viqReady = true :=
  ⟨.inr ⟨_, _, rfl⟩, by decide +kernel, by decide +kernel⟩

/-- A hart that waits in SEQWAIT. -/
def seqWaiting (o : R3) : State := { atPad 0 with hart := { (atPad 0).hart with run := .seqwait o } }

/-- A word of 0 satisfies a SEQWAIT for 0 and an ARRWAIT for 0, and neither for 1. -/
theorem witness_WordWaits : (∃ p, IsWait (atPad 0) (.seqwait ⟨5, 6, 0⟩) 5 6 p (.seqwait ⟨5, 6, 0⟩) ∧ p 0) ∧
    (∃ p, IsWait (regs [(7, 1)] (atPad 0)) (.arrwait ⟨5, 6, 7⟩) 5 6 p (.arrwait ⟨5, 6, 7⟩) ∧ ¬ p 0) ∧
    (∃ p, IsWait (seqWaiting ⟨5, 6, 0⟩) .waitSatisfied 5 6 p (.seqwait ⟨5, 6, 0⟩)) ∧ ((atPad 0).getG 6).toNat % 8 = 0 ∧
    Reaches (atPad 0) (atPad 0).hart.agent .scalar .load ((atPad 0).getG 6) 8 (atPad 0) (padTargets 0 8) ∧
    Sound (atPad 0) (padTargets 0 8) ∧ Unwatched (atPad 0) (atPad 0) (padTargets 0 8) ∧
    numberSeen (atPad 0) (atPad 0).hart.agent (padTargets 0 8) = 0 := by
  refine ⟨⟨_, .seqwait ⟨5, 6, 0⟩, .inr (by decide +kernel)⟩, ⟨_, .arrwait ⟨5, 6, 7⟩, ?_⟩,
    ⟨_, .again (.seqwait ⟨5, 6, 0⟩) 5 6 _ (.seqwait ⟨5, 6, 0⟩) (by decide)⟩, by decide +kernel, ?_,
    sound_pad _ _ rfl, .inl rfl, by decide +kernel⟩
  · show ¬ ((regs [(7, 1)] (atPad 0)).getG 7).toNat ≤ (0 : Word).toNat
    decide +kernel
  · exact reaches_atPad _ (by decide) (by decide) (by decide) (by decide)

/-- At a descriptor of engine 0 that has handed out one number, and at one that has handed out none. -/
theorem witness_StreamBinding : (queueObject 1).hart.csr.status.vs ≠ 0 ∧
    (∀ b ∈ [(0 : Byte), 1], let s := queueObject b
      Reaches s s.hart.agent .scalar .load (s.getG 6) 64 s (padTargets 0 64) ∧ Sound s (padTargets 0 64) ∧ HasHandler s) ∧
    (let x := numberSeen (queueObject 1) (queueObject 1).hart.agent (padTargets 0 64)
     x / 2 ^ 200 % 128 < 64 ∧ ((queueObject 1).getG 0).toNat % 2 ^ 48 < x / 2 ^ 64 % 2 ^ 48) ∧
    let x := numberSeen (queueObject 0) (queueObject 0).hart.agent (padTargets 0 64)
    x / 2 ^ 64 % 2 ^ 48 ≤ ((queueObject 0).getG 0).toNat % 2 ^ 48 := by
  refine ⟨by decide +kernel, ?_, by decide +kernel, by decide +kernel⟩
  intro b hb
  exact ⟨reaches_pad (by decide) (by decide) (by decide) (by decide) (core_zero rfl) rfl rfl, sound_pad _ _ rfl, handler_base⟩

/-- q1 bound to command 3 of engine 2, of 64 bytes, with `n` bytes delivered. -/
def streaming (n : Nat) : State :=
  let h := (hartAt 4).setQs 1 (qsWord true 2 3 0)
  { base with hart := h.setStream 1 { live := true, ce := 2, seq := 3, pos := 0, total := 64, data := List.replicate n 7 } }

/-- A gate that is open. -/
def opens (g : Gate) : Bool :=
  match g with
  | .open => true
  | .wait => false
  | .bar _ => false

theorem opens_eq {g : Gate} (h : opens g = true) : g = .open := by cases g <;> first | rfl | cases h

/-- The vector unit of a hart alone on its core with nothing queued is idle. -/
theorem idle_of {s : State} (hq : s.hart.viq = []) (hg : s.hart.groups = 0) (ht : s.hart.tiles = []) (hf : s.hart.frozen = false)
    (hv : s.hart.vgap = 0) (hu : s.hart.used = 0) (hc : s.capped s.hart = false) (hr : s.hart.run = .running := by rfl)
    (ho : s.others = [] := by rfl) (hl : s.loose = false := by rfl) (hd : s.hart.filling = [] := by rfl)
    (hi : s.hart.idleTo = 0 := by rfl)
    (hs : mapGet 8 (s.coreSt s.core).cdSlot s.hart.partition.val = 8 := by rfl) : VIdle s where
  placed := by rw [hr]; decide
  unique := fun h hh => by rw [ho] at hh; cases hh
  queue := hq
  groups := hg
  tiles := ht
  thawed := hf
  filled := fun _ => hd
  turns := hl
  gap := fun _ => hv
  stays := fun _ => by rw [hs]; simp
  slot := by rw [hu]; exact BitVec.getLsbD_zero
  idle := by rw [hi]; exact Nat.zero_le _
  cap := hc
  others := fun h hh => by rw [ho] at hh; cases hh

/-- A hart of no gang that the Helm has placed has no cap. -/
theorem uncapped {s : State} {h : Hart} (hg : s.helm.gangs = []) (hr : h.relCap = 8) : s.capped h = false := by
  simp [State.capped, State.issueCap, State.gang?, hg, hr]

theorem ready_base : VReady base := ⟨idle_of rfl rfl rfl rfl rfl rfl (by decide +kernel), by decide +kernel⟩

theorem ready_streaming (n : Nat) : VReady (streaming n) :=
  ⟨idle_of rfl rfl rfl rfl rfl rfl (uncapped rfl rfl), by show (2 : BitVec 2) ≠ 0; decide⟩

/-- Operands of VQRD: v5 from q1 under w0. -/
def vqrdOp : VOp := ⟨5, 1, 0, 0, false, false, false, false⟩

/-- q1 holds 8 bytes or more of its command; it is unbound; it is bound, awaits its command and holds 7 bytes; and it
is bound to a command that does not exist. -/
theorem witness_StreamReads : (∀ n, (streaming n).hart.csr.status.vs ≠ 0) ∧
    (∀ k ∈ [8, 16], ¬ StreamEmpty (streaming k) 1 8 ∧ ¬ StreamShort (streaming k) 1 8) ∧
    (StreamEmpty base 1 8 ∧ HasHandler base) ∧ StreamShort (streaming 7) 1 8 ∧
    (let s := (streaming 8).onHart fun h => h.setStream 1 (Hart.reset.stream 1)
     ¬ StreamHeld s 1 ∧ ¬ StreamAwaited s 1 ∧ StreamEmpty s 1 8) ∧
    VReady (streaming 16) ∧ VReady base ∧ VReady (streaming 15) ∧
    (∀ s ∈ [base, streaming 15, streaming 16], Admitted s (.v .vqrd vqrdOp)) ∧ streamOf vqrdOp.a = 1 ∧
    (streaming 16).hart.sew / 8 * ((streaming 16).hart.activeList vqrdOp.w).length = 16 ∧
    base.hart.activeList vqrdOp.w ≠ [] ∧ ¬ StreamEmpty (streaming 16) 1 16 ∧ ¬ StreamShort (streaming 16) 1 16 ∧
    StreamEmpty base 1 16 ∧ StreamShort (streaming 15) 1 16 := by
  have clear : ∀ k ∈ [8, 16], ¬ StreamEmpty (streaming k) 1 8 ∧ ¬ StreamShort (streaming k) 1 8 := by
    unfold StreamShort StreamEmpty StreamHeld StreamAwaited; decide +kernel
  refine ⟨fun n => (by show (2 : BitVec 2) ≠ 0; decide), clear, ⟨.inl (by decide +kernel), handler_base⟩, ?_, ?_, ready_streaming 16,
    ready_base, ready_streaming 15, ?_, by decide +kernel, by decide +kernel, by decide +kernel, ?_, ?_, .inl (by decide +kernel), ?_⟩
  · unfold StreamShort StreamEmpty StreamHeld StreamAwaited; decide +kernel
  · unfold StreamEmpty StreamHeld StreamAwaited; decide +kernel
  · have each : ∀ s ∈ [base, streaming 15, streaming 16], opens (gate (issuing s (.v .vqrd vqrdOp)) (entryOf s (.v .vqrd vqrdOp)) false) = true := by
      decide +kernel
    exact fun s h => opens_eq (each s h)
  · unfold StreamEmpty StreamHeld StreamAwaited; decide +kernel
  · unfold StreamShort StreamEmpty StreamHeld StreamAwaited; decide +kernel
  · unfold StreamShort StreamEmpty StreamHeld StreamAwaited; decide +kernel

/-- The other hart of the gang, which has arrived or not. -/
def partner (arrived : Bool) : State :=
  { base with others := [{ hartAt 4 with csr := { (hartAt 4).csr with hartid := 1 }, run := if arrived then .gbar else .running
                                         arrived := arrived }] }

/-- A hart that waits in GBAR. -/
def atBarrier (s : State) : State := { s with hart := { s.hart with run := .gbar, arrived := true } }

theorem witness_GangBarrier : (∀ a, (partner a).hart.run ≠ .vacant) ∧
    (∃ s : State, s.hart.run ≠ .vacant ∧ s.hart.arrived = true ∧ s.hart.episodeDone = true) ∧
    ((partner true).hart.arrived = false ∧ OthersArrived (partner true)) ∧
    ((partner false).hart.arrived = false ∧ ¬ OthersArrived (partner false)) ∧
    ((atBarrier (partner true)).hart.run = .gbar ∧ (atBarrier (partner true)).hart.arrived = true ∧
      OthersArrived (atBarrier (partner true))) ∧ (base.hart.run ≠ .gbar) ∧ ¬ OthersArrived (atBarrier (partner false)) := by
  have gone : ∀ s : State, s.helm.gangs = [] → ∀ (n : Nat) (g : Gang), s.gang? n = some g → g.yielded = [] := by
    intro s h n g hg
    rw [State.gang?, h] at hg
    cases hg
  have yes : OthersArrived (partner true) :=
    ⟨fun h hh _ _ => by rw [List.mem_singleton.mp hh], gone _ rfl _⟩
  have no : ∀ s : State, s.others = (partner false).others → s.hart.gang = 0 → ¬ OthersArrived s := by
    intro s e eg h
    have := h.1 _ (by rw [e]; exact List.mem_singleton.mpr rfl) (by rw [eg]; rfl) (by decide)
    cases this
  refine ⟨fun a => by cases a <;> decide, ⟨{ atBarrier base with hart := { (atBarrier base).hart with episodeDone := true } },
    by decide, rfl, rfl⟩, ⟨rfl, yes⟩, ⟨rfl, no _ rfl rfl⟩, ⟨rfl, rfl, yes.1, gone _ rfl _⟩, by decide, no _ rfl rfl⟩

/-- `paged` with a range in g6 and g7. -/
def pagedAt (a n : Word) : State := { paged with hart := { paged.hart with g := (Hart.reset.g.set 6 a).set 7 n } }

/-- In the page of `paged` each granule is reached, whatever bits are set. -/
theorem granule_page {s : State} {w0 : List Nat} (h : Paged (withWatch s w0) s.hart.agent) {o : Nat} (ho : o < 65536)
    (hd : s.ctl.bad = []) (hm : s.ctl.blockMeta = []) (hp : o % 4096 + 1 ≤ 4096 := by omega) :
    GranuleAt s (fun x => x.toNat + 0x30000) (BitVec.ofNat 64 (0x10000 + o)) := by
  intro w
  have hw : Paged (withWatch s w) s.hart.agent :=
    ⟨h.tables, h.world, h.sparing, h.root, h.pins, h.tlb, h.free, fun b _ => sound_of (bad := []) hd hm rfl⟩
  rw [locate_page hp (by decide) ho hw 0]
  dsimp only
  have : (BitVec.ofNat 64 (0x10000 + o)).toNat + 0x30000 = 0x40000 + o := by
    simp only [BitVec.toNat_ofNat]; omega
  rw [this]
  rfl

theorem tlb_paged : (mapGet CoreSt.reset paged.cores 0).tlb = [] := by decide +kernel

/-- A range of the page; one that no table maps; and one whose first granule is the page's last. -/
theorem witness_WatchBits :
    (let s := pagedAt 0x10010 33
     ∀ p ∈ granulesLeft ((s.getG 7).toNat / 32 + 2) (s.getG 6) (s.getG 7).toNat,
       GranuleAt s (fun x => x.toNat + 0x30000) p.1) ∧
    (let s := pagedAt 0x20000 33
     (granulesLeft ((s.getG 7).toNat / 32 + 2) (s.getG 6) (s.getG 7).toNat)[0]? = some (0x20000, 33) ∧
       GranuleFaults s 0x20000 ⟨.xlate, 0x20000⟩ (withWatch s) ∧ HasHandler s) ∧
    let s := pagedAt 0x1FFF0 48
    let l := granulesLeft ((s.getG 7).toNat / 32 + 2) (s.getG 6) (s.getG 7).toNat
    l[1]? = some (0x20000, 32) ∧ (∀ p ∈ l.take 1, GranuleAt s (fun x => x.toNat + 0x30000) p.1) ∧
      GranuleFaults s 0x20000 ⟨.xlate, 0x20000⟩ (withWatch s) ∧ HasHandler s := by
  have hp : ∀ (a n : Word) (w : List Nat), Paged (withWatch (pagedAt a n) w) (pagedAt a n).hart.agent := fun a n w =>
    paged_of rfl rfl rfl ptroot_paged rfl (by
      unfold State.coreSt; rw [core_zero rfl]; simp only [withWatch, pagedAt]; exact tlb_paged) rfl (bad := []) rfl rfl (by decide)
  have hf : ∀ a n : Word, GranuleFaults (pagedAt a n) 0x20000 ⟨.xlate, 0x20000⟩ (withWatch (pagedAt a n)) := fun a n =>
    .inl fun w => locate_unmapped (by decide) (hp a n w) 0
  refine ⟨?_, ⟨by decide +kernel, hf _ _, by unfold HasHandler; decide +kernel⟩, by decide +kernel, ?_, hf _ _, by unfold HasHandler; decide +kernel⟩
  · intro s p h
    have e : granulesLeft ((s.getG 7).toNat / 32 + 2) (s.getG 6) (s.getG 7).toNat =
      [(BitVec.ofNat 64 (0x10000 + 16), 33), (BitVec.ofNat 64 (0x10000 + 32), 17)] := by decide +kernel
    rw [e] at h
    simp only [List.mem_cons, List.not_mem_nil, or_false] at h
    rcases h with rfl | rfl <;> exact granule_page (hp _ _ []) (by decide) rfl rfl
  · intro p h
    have e : (granulesLeft (((pagedAt 0x1FFF0 48).getG 7).toNat / 32 + 2) ((pagedAt 0x1FFF0 48).getG 6)
      ((pagedAt 0x1FFF0 48).getG 7).toNat).take 1 = [(BitVec.ofNat 64 (0x10000 + 0xFFF0), 48)] := by decide +kernel
    rw [e, List.mem_singleton] at h
    rw [h]
    exact granule_page (hp _ _ []) (by decide) rfl rfl

/-- A run of bytes, byte by byte. -/
theorem range_bytes (m : Memory) : ∀ n a : Nat, (List.range n).map (fun i => readByte m (a + i)) = readBytes m a n := by
  intro n
  induction n with
  | zero => intro a; rfl
  | succ n ih =>
    intro a
    rw [List.range_succ_eq_map, List.map_cons, List.map_map, readBytes, ← ih (a + 1)]
    congr 1
    refine List.map_congr_left fun i _ => ?_
    simp only [Function.comp_apply, Nat.succ_eq_add_one]
    rw [show a + (i + 1) = a + 1 + i by omega]

/-- Bytes of the scratchpad as a run of bytes. -/
theorem targets_read (s : State) (ag : Agent) (o n : Nat) :
    (padTargets o n).map (targetByte s ag) = readBytes s.mem (coreLoc 0 o) n := by
  rw [← range_bytes]
  simp [padTargets, targetByte]

theorem take_read (m : Memory) : ∀ (k n a : Nat), k ≤ n → (readBytes m a n).take k = readBytes m a k
  | 0, _, _, _ => by simp [readBytes]
  | k + 1, n + 1, a, h => by simp only [readBytes, List.take_succ_cons]; rw [take_read m k n (a + 1) (by omega)]

theorem drop_read (m : Memory) : ∀ (k n a : Nat), k ≤ n → (readBytes m a n).drop k = readBytes m (a + k) (n - k)
  | 0, _, _, _ => by simp
  | k + 1, n + 1, a, h => by
    simp only [readBytes, List.drop_succ_cons]
    rw [drop_read m k n (a + 1) (by omega), show a + 1 + k = a + (k + 1) by omega, show n + 1 - (k + 1) = n - k by omega]

theorem field_read (m : Memory) (a n off k : Nat) (h : off + k ≤ n) :
    field (readBytes m a n) off k = readNat m (a + off) k := by
  unfold field readNat
  rw [drop_read m off n a (by omega), take_read m k (n - off) _ (by omega)]

/-- VERSION 1, SIZE 2,048, NSOQ 16 and VLR 16,384 at the start of the scratchpad. -/
def frameHeadMemory : Memory := [(coreLoc 0 0, 1), (coreLoc 0 3, 8), (coreLoc 0 5, 16), (coreLoc 0 0x21, 0x40)]

/-- The smallest good state frame: with its CHECK. -/
def frameMemory : Memory :=
  writeNat frameHeadMemory (coreLoc 0 0x7FC) 4 (crc32 (readBytes frameHeadMemory (coreLoc 0 0) 0x7FC)).toNat

theorem frame_byte {loc : Nat} (h : loc < coreLoc 0 0x7FC) : readByte frameMemory loc = readByte frameHeadMemory loc :=
  readByte_writeBytes_other _ (by decide +kernel) _ _ (.inl h)

theorem readBytes_congr {m m' : Memory} (n : Nat) : ∀ a : Nat, (∀ i, i < n → readByte m (a + i) = readByte m' (a + i)) →
    readBytes m a n = readBytes m' a n := by
  induction n with
  | zero => intro a _; rfl
  | succ n ih =>
    intro a h
    simp only [readBytes]
    rw [show readByte m a = readByte m' a from h 0 (by omega), ih (a + 1) fun i hi => by
      have := h (i + 1) (by omega)
      rwa [show a + (i + 1) = a + 1 + i by omega] at this]

theorem frame_bytes : readBytes frameMemory (coreLoc 0 0) 0x7FC = readBytes frameHeadMemory (coreLoc 0 0) 0x7FC :=
  readBytes_congr _ _ fun i hi => frame_byte (by simp only [coreLoc]; omega)

theorem frame_field (off k : Nat) (h : off + k ≤ 0x7FC) :
    field (readBytes frameMemory (coreLoc 0 0) 2048) off k = readNat frameHeadMemory (coreLoc 0 off) k := by
  rw [field_read _ _ _ _ _ (by omega), show coreLoc 0 0 + off = coreLoc 0 off by simp [coreLoc]]
  refine readNat_congr k _ fun i hi => frame_byte ?_
  simp only [coreLoc]
  omega

theorem frame_check : field (readBytes frameMemory (coreLoc 0 0) 2048) 0x7FC 4 =
    (crc32 ((readBytes frameMemory (coreLoc 0 0) 2048).take 0x7FC)).toNat := by
  rw [field_read _ _ _ _ _ (by decide), take_read _ _ _ _ (by decide), frame_bytes]
  have hb : (leBytes 4 (crc32 (readBytes frameHeadMemory (coreLoc 0 0) 0x7FC)).toNat).length = 4 := rfl
  have := readBytes_writeBytes (leBytes 4 (crc32 (readBytes frameHeadMemory (coreLoc 0 0) 0x7FC)).toNat)
    (m := frameHeadMemory) (by decide +kernel) (coreLoc 0 0x7FC)
  rw [hb] at this
  unfold readNat
  rw [show coreLoc 0 0 + 0x7FC = coreLoc 0 0x7FC from rfl]
  show leNat (readBytes (writeBytes frameHeadMemory _ _) _ 4) = _
  rw [this, leNat_leBytes, Nat.mod_eq_of_lt]
  exact (crc32 _).isLt

/-- A module with that frame at g6, VIQ entries or none. -/
def framed (q : List Held) : State :=
  { atPad 0 with mem := frameMemory, hart := { (atPad 0).hart with viq := q, used := 1 } }

theorem slot_taken (q : List Held) : (framed q).hart.used.getLsbD 0 = true := by
  have h : (framed q).hart.used = 1 := by simp only [framed]
  rw [h]
  decide +kernel

/-- RESTVQ in the VIQ with the bytes that it read. -/
def restoring : Held := { heldOf (.restvq 6) [] with data := readBytes frameMemory (coreLoc 0 0) 2048 }

theorem witness_FrameSave : (atPad 0).hart.viqReady = false ∧ ((atPad 0).getG 6).toNat % 64 = 0 ∧ (atPad 0).memoriesWf = true ∧
    (atPad 0).hart.viq.length ≤ 32 ∧ (((atPad 0).hart.viq.map soqOps).flatten).length ≤ 16 ∧
    Reaches (atDrain (atPad 0)) (atPad 0).hart.agent .scalar .store ((atPad 0).getG 6) 2048 (atDrain (atPad 0)) (padTargets 0 2048) ∧
    AllMemory (padTargets 0 2048) ∧ Sound ((atDrain (atPad 0)).settled (atPad 0).hart.agent (padTargets 0 2048)) (padTargets 0 2048) := by
  refine ⟨by decide +kernel, by decide +kernel, by decide +kernel, by decide +kernel, by decide +kernel, ?_, allMemory_pad _ _,
    sound_pad _ _ rfl⟩
  exact reaches_pad (by decide) (by decide) (by decide) (by decide) (core_zero rfl) rfl rfl

theorem readBytes_length (m : Memory) : ∀ (n a : Nat), (readBytes m a n).length = n
  | 0, _ => rfl
  | n + 1, a => by simp only [readBytes, List.length_cons]; rw [readBytes_length m n (a + 1)]

theorem frame_good {h : Hart} (hv : h.vlrBits = 16384) : frameBad h restoring.data = false := by
  show frameBad h (readBytes frameMemory (coreLoc 0 0) 2048) = false
  unfold frameBad
  rw [frame_check, hv, frame_field 0 2 (by decide), frame_field 2 2 (by decide), frame_field 0x20 2 (by decide),
    frame_field 4 1 (by decide), frame_field 5 1 (by decide), frame_field 6 2 (by decide), frame_field 0x18 8 (by decide),
    frame_field 0x22 30 (by decide), bne_self_eq_false]
  decide +kernel

theorem frame_none {bs : List Byte} (h : field bs 4 1 = 0) : frameHeld bs = [] := by
  unfold frameHeld restartYounger
  dsimp only
  rw [h]
  dsimp only [frameEntries]
  split <;> simp [thenTail]

theorem frame_empty : frameHeld restoring.data = [] :=
  frame_none ((frame_field 4 1 (by decide)).trans (by decide +kernel))

/-- With it at the head of the VIQ. -/
def restorer : State := { atPad 0 with mem := frameMemory, hart := { (atPad 0).hart with viq := [restoring] } }

/-- The hart alone on its core takes the slot of its partition. -/
theorem takes_of {s : State} (hg : s.hart.groups = 0) (ht : s.hart.tiles = []) (hf : s.hart.frozen = false)
    (hu : s.hart.used = 0) (hc : s.capped s.hart = false) (hr : s.hart.run = .running := by rfl)
    (ho : s.others = [] := by rfl) (hi : s.hart.idleTo = 0 := by rfl) (hd : s.hart.filling = [] := by rfl)
    (hv : s.hart.vgap = 0 := by rfl) : TakesSlot s where
  sole := ⟨by rw [hr]; decide, fun h hh => by rw [ho] at hh; cases hh⟩
  slot := by rw [hu]; exact BitVec.getLsbD_zero
  idle := by rw [hi]; exact Nat.zero_le _
  groups := hg
  thawed := hf
  tiles := ht
  filled := fun _ => hd
  gap := fun _ => hv
  cap := hc

theorem witness_FrameRestore : (atPad 0).hart.queueFull (.restvq 6) = false ∧
    (∀ s ∈ [atPad 0, framed [], framed [heldOf .vlsync []]],
      Reaches s s.hart.agent .scalar .load (s.getG 6) 2048 s (padTargets 0 2048) ∧ Sound s (padTargets 0 2048) ∧
        HasHandler s) ∧
    (field ((padTargets 0 2048).map (targetByte (atPad 0) (atPad 0).hart.agent)) 0 2 ≠ 1) ∧
    (let s := framed [heldOf .vlsync []]
     let bs := (padTargets 0 2048).map (targetByte s s.hart.agent)
     (field bs 0 2 = 1 ∧ field bs 2 2 = 2048 ∧ field bs 0x7FC 4 = (crc32 (bs.take 0x7FC)).toNat ∧
      field bs 0x20 2 = s.hart.vlrBits ∧ field bs 4 1 ≤ 32 ∧ field bs 5 1 ≤ 16 ∧ field bs 6 2 < 4 ∧
      field bs 0x18 8 < 2 ^ 39 ∧ field bs 0x22 30 = 0) ∧
     s.hart.queueFull (.restvq 6) = false ∧ s.hart.run ≠ .vacant ∧ s.hart.used.getLsbD 0 = true ∧ s.hart.viqUsed + field bs 4 1 ≤ 32 ∧
     s.hart.soqUsed + min 16 (field bs 5 1 + field bs 0x7FB 1) ≤ 16) ∧
    (let s := framed [heldOf (.tlbinv ⟨6, 0⟩) [1, 2]]
     let bs := (padTargets 0 2048).map (targetByte s s.hart.agent)
     s.hart.queueFull (.restvq 6) = false ∧ ¬ s.hart.soqUsed + min 16 (field bs 5 1 + field bs 0x7FB 1) ≤ 16) ∧
    (let s := restorer
     s.hart.viq = restoring :: [] ∧ restoring.instr = .restvq 6 ∧ TakesSlot s ∧ restoring.flying = false ∧
       restoring.data.length = 2048 ∧ frameBad s.hart restoring.data = false ∧ restoring.thenVtype = none ∧
       ∀ x ∈ (frameHeld restoring.data ++ []).head?, (vinfo x.instr).c = false) ∧ base.hart.viq.head? = none := by
  refine ⟨by decide +kernel, ?_, ?_, ?_, ?_, ⟨rfl, rfl, takes_of rfl rfl rfl rfl (uncapped rfl rfl), rfl, readBytes_length _ _ _, frame_good rfl, rfl, ?_⟩, rfl⟩
  · intro s hs
    simp only [List.mem_cons, List.not_mem_nil, or_false] at hs
    rcases hs with rfl | rfl | rfl <;>
      exact ⟨reaches_pad (by decide) (by decide) (by decide) (by decide) (core_zero rfl) rfl rfl, sound_pad _ _ rfl, handler_base⟩
  · rw [targets_read _ _ _ _, field_read _ _ _ _ _ (by decide)]
    decide +kernel
  · dsimp only
    rw [targets_read _ _ _ _, show (framed [heldOf .vlsync []]).mem = frameMemory from rfl]
    refine ⟨⟨?_, ?_, frame_check, ?_, ?_, ?_, ?_, ?_, ?_⟩, by decide +kernel, by decide, slot_taken _, ?_, ?_⟩ <;>
      first
      | rw [frame_field _ _ (by decide)]; decide +kernel
      | rw [frame_field 5 1 (by decide), frame_field 0x7FB 1 (by decide)]; decide +kernel
  · dsimp only
    rw [targets_read _ _ _ _, show (framed [heldOf (.tlbinv ⟨6, 0⟩) [1, 2]]).mem = frameMemory from rfl]
    refine ⟨by decide +kernel, ?_⟩
    rw [frame_field 5 1 (by decide), frame_field 0x7FB 1 (by decide)]
    decide +kernel
  · rw [frame_empty]
    exact fun x hx => by cases hx

/-- `base` with another STATUS.VS. -/
def withVs (vs : BitVec 2) : State :=
  { base with hart := { hartAt 4 with csr := { (hartAt 4).csr with status := { (hartAt 4).csr.status with vs := vs } } } }

/-- `base` with another VTYPE. -/
def withVtype (vt : BitVec 9) : State := { base with hart := { hartAt 4 with csr := { (hartAt 4).csr with vtype := vt } } }

/-- Operands of a vector instruction: v4 from v8 and v12 under w0. -/
def vop : VOp := ⟨4, 8, 12, 0, false, false, false, false⟩

/-- A gate that a cause bars. -/
def bars (g : Gate) : Bool :=
  match g with
  | .open => false
  | .wait => false
  | .bar _ => true

theorem bars_eq {g : Gate} (h : bars g = true) : ∃ k, g = .bar k := by
  match g, h with
  | .bar k, _ => exact ⟨k, rfl⟩

theorem witness_VectorInstructionsQueue : IsQueued (.v .vadd vop) ∧ ((withVs 0).hart.csr.status.vs = 0 ∧ HasHandler (withVs 0)) ∧
    ((stripped 5 (List.replicate 32 (heldOf .vlsync []))).hart.queueFull (.v .vadd vop) = true) ∧
    base.hart.csr.status.vs ≠ 0 ∧ (stripped 5 [heldOf .vlsync []]).hart.queueFull (.v .vadd vop) = false ∧
    base.hart.run ≠ .vacant ∧ (framed []).hart.used.getLsbD 0 = true :=
  ⟨.v _ _ (by decide), ⟨rfl, handler_base⟩, by decide +kernel, by decide +kernel, by decide +kernel, by decide, slot_taken _⟩

theorem ready_vtype (vt : BitVec 9) : VReady (withVtype vt) :=
  ⟨idle_of rfl rfl rfl rfl rfl rfl (uncapped rfl rfl), by show (2 : BitVec 2) ≠ 0; decide⟩

theorem witness_VectorInstructionsBarred : VReady (withVtype 0) ∧
    (∃ k, gate (issuing (withVtype 0) (.v .vadd vop)) (entryOf (withVtype 0) (.v .vadd vop)) false = .bar k) ∧
    HasHandler (withVtype 0) := ⟨ready_vtype 0, bars_eq (by decide +kernel), handler_base⟩

theorem witness_VectorCauseOrder : ∃ op o, (heldOf (.v .vadd vop) []).instr = .v op o := ⟨_, _, rfl⟩

theorem idle_paged : VIdle paged :=
  idle_of rfl rfl rfl rfl rfl rfl (uncapped rfl rfl) (hs := by decide +kernel)

theorem witness_LengthAndQueuedFences : (∃ d avl vt, IsSetLength base (.setvli ⟨5, 6, 2⟩) d avl vt) ∧
    (∃ d avl vt, IsSetLength base (.setvl ⟨5, 6, 7⟩) d avl vt) ∧ VReady base ∧ base.hart.csr.stripEn = false ∧
    ((withVs 0).hart.csr.status.vs = 0 ∧ HasHandler (withVs 0)) ∧ IsQueuedFence (.tlbinv ⟨6, 0⟩) ∧ VIdle base ∧
    base.hart.csr.status.priv = true ∧ (base.getG 0).toNat ≤ 1 ∧ VIdle paged ∧ HasHandler paged ∧
    paged.hart.csr.status.priv = false ∧ (paged.getG 0).toNat ≤ 1 ∧ 1 < ((atPad 0).getG 6).toNat :=
  ⟨⟨_, _, _, .setvli _⟩, ⟨_, _, _, .setvl _⟩, ready_base, by decide +kernel, ⟨rfl, handler_base⟩, .tlbinv _, ready_base.1, rfl,
    by decide +kernel, idle_paged, handler_paged, rfl, by decide +kernel, by decide +kernel⟩

/-- `base` with every vector and weight register empty. -/
def emptied : State := { base with hart := { base.hart with vfull := 0, wfull := 0 } }

/-- Each clause of FARM and WLOOP: a weight above THR under w0 with VL = 4, and none with VL = 0. -/
theorem witness_WeightBranches : ((withVs 0).hart.csr.status.vs = 0 ∧ HasHandler (withVs 0)) ∧
    base.hart.csr.status.vs ≠ 0 ∧ base.hart.viqReady = false ∧ (stripped 5 [heldOf .vlsync []]).hart.viqReady = true ∧
    (settled base).wfull.getLsbD 1 = true ∧
    (settled emptied).wfull.getLsbD 1 = false ∧ (settled emptied).vfull.getLsbD vop.a.val = false ∧
    emptied.hart.csr.status.vs ≠ 0 ∧ emptied.hart.viqReady = false ∧ HasHandler emptied ∧
    (∃ k : Nat, k < base.hart.csr.vl.toNat ∧ base.hart.csr.thr.toNat < min (base.hart.rawW 0 k) 32768) ∧
    ¬ ∃ k : Nat, k < (State.reset).hart.csr.vl.toNat ∧ State.reset.hart.csr.thr.toNat < min (State.reset.hart.rawW 0 k) 32768 :=
  ⟨⟨rfl, handler_base⟩, by decide +kernel, by decide +kernel, by decide +kernel, by decide +kernel, by decide +kernel,
    by decide +kernel, by decide +kernel, by decide +kernel, by unfold HasHandler; decide +kernel, ⟨0, by decide +kernel, by decide +kernel⟩,
    fun ⟨_, h, _⟩ => Nat.not_lt_zero _ h⟩

/-- With c = 1 it starts behind no convoy, or joins one of which it reads a result. -/
theorem witness_VectorToScalarMove : (joinConvoy base.hart.convoy (.v .vmvxv vop)).2.1 = 0 ∧
    (joinConvoy none (.v .vmvxv { vop with c := true })).2.1 ≠ 0 ∧ base.hart.run ≠ .vacant ∧
    ((withVs 0).hart.csr.status.vs = 0 ∧ HasHandler (withVs 0)) ∧
    base.hart.csr.status.vs ≠ 0 ∧ base.hart.viqReady = false ∧ (stripped 5 [heldOf .vlsync []]).hart.viqReady = true ∧
    vtypeLegal base.hart.csr.vtype = true ∧ (settled base).vfull.getLsbD vop.a.val = true ∧
    (vtypeLegal (withVtype 0).hart.csr.vtype = false ∧ (withVtype 0).hart.viqReady = false ∧ HasHandler (withVtype 0)) ∧
    0 < base.hart.vlrBits / sewOf base.hart.csr.vtype ∧
    ¬ ((regs [(12, 512)] base).getG 12).toNat < base.hart.vlrBits / sewOf base.hart.csr.vtype :=
  ⟨by decide +kernel, by decide +kernel, by decide, ⟨rfl, handler_base⟩, by decide +kernel, by decide +kernel, by decide +kernel, by decide +kernel, by decide +kernel,
    ⟨by decide +kernel, by decide +kernel, handler_base⟩, by decide +kernel, by decide +kernel⟩

/-- `base` on a compiler-directed partition with a gap to leave, after its slot is free or used. -/
def gapped (used : BitVec 1024) : State :=
  { base with hart := { hartAt 4 with
      vgap := 2, used := used, csr := { (hartAt 4).csr with status := { (hartAt 4).csr.status with cd := true } } } }

theorem witness_MoveBehindGap : (gapped 0).hart.csr.status.cd = true ∧ 0 < (gapped 0).hart.vgap ∧
    (gapped 0).hart.csr.status.vs ≠ 0 ∧ (gapped 0).hart.viqReady = false ∧ (gapped 0).slotFree = true ∧
    (gapped 1).hart.csr.status.cd = true ∧ 0 < (gapped 1).hart.vgap ∧ (gapped 1).hart.csr.status.vs ≠ 0 ∧
    (gapped 1).hart.viqReady = false ∧ (gapped 1).slotFree = false :=
  ⟨rfl, by decide, by decide +kernel, by decide +kernel, by decide +kernel, rfl, by decide, by decide +kernel, by decide +kernel,
    by decide +kernel⟩

/-- Operands of ENQ: the descriptor at g6, one command in v8. -/
def enqOp : EnqOp := ⟨5, 6, 8, 0, .one⟩

/-- A module with vector work queued, g6 at an offset of the scratchpad, and at its start a chain of 16 slots with
number 1 the next, or zeros. -/
def chained (o : Nat) (good : Bool) : State :=
  { atPad o with
    mem := if good then writeByte (writeByte [] (coreLoc 0 8) 1) (coreLoc 0 0x18) 4 else []
    hart := { (atPad o).hart with viq := [heldOf .vlsync []], used := 1 } }

theorem witness_CommandReservation :
    (∀ o ∈ [0, 8], ∀ g : Bool, let s := chained o g
      s.hart.csr.status.vs ≠ 0 ∧ s.hart.queueFull (.enq enqOp) = false ∧ s.hart.run ≠ .vacant ∧ s.hart.used.getLsbD 0 = true ∧ HasHandler s) ∧
    ((chained 8 true).getG 6).toNat % 64 ≠ 0 ∧
    (∀ g : Bool, let s := chained 0 g
      (s.getG 6).toNat % 64 = 0 ∧ s.memoriesWf = true ∧ AtHome s (s.getG 6) ∧
      Reaches s s.hart.agent .atomic .rmw (s.getG 6) 64 s (padTargets 0 64) ∧ Sound s.flushScalar (padTargets 0 64)) ∧
    descriptorBad (chained 0 false).hart (numberAt (chained 0 false) (chained 0 false).hart.agent (padTargets 0 64)) = true ∧
    descriptorBad (chained 0 true).hart (numberAt (chained 0 true) (chained 0 true).hart.agent (padTargets 0 64)) = false ∧
    (chained 0 true).hart.csr.status.det = false := by
  refine ⟨?_, by decide +kernel, ?_, by decide +kernel, by decide +kernel, by decide +kernel⟩
  · intro o ho g
    refine ⟨?_, ?_, ?_, ?_, handler_base⟩ <;> revert g <;> revert o <;> decide +kernel
  · intro g
    refine ⟨by revert g; decide +kernel, by revert g; decide +kernel, home_of rfl rfl, ?_, sound_pad _ _ rfl⟩
    exact reaches_pad (by decide) (by decide) (by decide) (by decide) (core_zero rfl) rfl rfl

/-- The second part of ENQ with one accepted command, numbered 1, for a ring of 16 slots at 0x1000 of the scratchpad. -/
def enqHeld : Held := heldOf (.enq enqOp) (enqWords 1 1 1 (pad 0) 0 4 (pad 0x1000))

/-- At the head of the VIQ. -/
def committing : State := { base with hart := { hartAt 4 with viq := [enqHeld] } }

theorem witness_CommandSlots : committing.hart.viq = enqHeld :: [] ∧ enqHeld.instr = .enq enqOp ∧ TakesSlot committing ∧
    enqHeld.flying = false ∧ gate committing enqHeld false = .open ∧ committing.memoriesWf = true ∧
    (enqHeld.op 1).getLsbD 4 = false ∧ enqHeld.priv = committing.hart.csr.status.priv ∧ enqHeld.begun = false ∧ enqHeld.enqK = 1 ∧
    AllReach committing (fun _ : Nat => Via.scalar) .store
      (fun j => enqHeld.enqRing + BitVec.ofNat 64 (64 * ((enqHeld.enqFirst + j) % 2 ^ enqHeld.enqLog2))) 64
      (List.range enqHeld.enqK) [] (fun j => padTargets (0x1040 + 64 * j) 64) ∧
    (∀ j : Nat, j < enqHeld.enqK → AllMemory (padTargets (0x1040 + 64 * j) 64) ∧
      Alone (List.range enqHeld.enqK) (fun j => padTargets (0x1040 + 64 * j) 64) j) ∧
    (committing.hart.thr < committing.hart.weight 0 0 ∧ 0 < committing.hart.csr.vl.toNat) ∧
    ¬ committing.hart.thr < committing.hart.weight 1 0 := by
  have hk : enqHeld.enqK = 1 := by decide +kernel
  refine ⟨rfl, rfl, takes_of rfl rfl rfl rfl (uncapped rfl rfl), rfl, opens_eq (by decide +kernel), by decide +kernel, by decide +kernel,
    rfl, rfl, hk, ?_, ?_, by decide +kernel, by decide +kernel⟩
  · rw [hk]
    refine allReach_pad (fun j => 0x1040 + 64 * j) ?_ ?_ ?_ (by decide) (by decide) (core_zero rfl) rfl rfl rfl rfl
    all_goals
      intro j hj
      obtain rfl : j = 0 := by simpa using hj
    · decide +kernel
    · decide
    · decide
  · intro j hj
    rw [hk] at hj ⊢
    obtain rfl : j = 0 := by omega
    refine ⟨allMemory_pad _ _, fun i hi hne => absurd (by simpa using hi) hne⟩

/-! ### Witnesses: vector instructions -/

/-- Everything that the statements of register-only members name, with v4, v8 and v12 and w0. -/
def registerMembers : List VOpc :=
  (intTable.map (·.1) ++ widenTable.map (·.1) ++ narrowTable.map (·.1) ++ vfTable.map (·.1)).flatMap
      (fun p => p.1 :: p.2.toList) ++
    compareTable.map (·.1) ++ vfCompareTable.map (·.1) ++ toIntTable.map (·.1) ++ reduceTable.map (·.1) ++
    [.vfcvtI2f, .vfcvtU2f, .vfcvtFwid, .vfcvtFnar, .vfredsumO, .vfredmax, .vfredmin, .vfredsumU, .vfscanF, .vscan, .vsegscan,
      .vfscanO, .vcompress, .vexpand, .vpopcpfx, .vconflict, .vprune, .vperm, .vslideup, .vslidedn, .vbcast, .viota, .vmvcmpl,
      .vmvvx, .wcond, .wsig, .wnot, .wmul, .wmin, .wmax, .wmv, .wmvv, .wcnt, .join, .jgrad, .wscale, .wdcond, .wdsig]

/-- Each of them is admitted in `base`. -/
theorem witness_register_members : VReady base ∧ ∀ op ∈ registerMembers, Admitted base (.v op vop) := by
  refine ⟨ready_base, fun op h => opens_eq ?_⟩
  have all : registerMembers.all (fun op => opens (gate (issuing base (.v op vop)) (entryOf base (.v op vop)) false)) = true := by
    decide +kernel
  exact List.all_eq_true.mp all op h

/-- The vector form and the .vx form of a row. -/
theorem witness_forms : FormOf ((.vadd : VOpc), some .vaddVx) .vadd false ∧ FormOf ((.vadd : VOpc), some .vaddVx) .vaddVx true ∧
    (∃ f, (((.vadd : VOpc), some VOpc.vaddVx), f) ∈ intTable) ∧ (∃ f, (((.vwmac : VOpc), some VOpc.vwmacVx), f) ∈ widenTable) ∧
    (∃ f, (((.vnshr : VOpc), some VOpc.vnshrVx), f) ∈ narrowTable) ∧ ∃ f, (((.vfma : VOpc), some VOpc.vfmaVx), f) ∈ vfTable :=
  ⟨.inl ⟨rfl, rfl⟩, .inr ⟨rfl, rfl⟩, row_mem 0 rfl, row_mem 2 rfl, row_mem 0 rfl, row_mem 6 rfl⟩

/-- VFREDMAX with active elements, and with none when VL is 0. -/
theorem witness_VectorReductions : actives base 0 ≠ [] ∧
    let s := { base with hart := hartAt 0 }
    VReady s ∧ Admitted s (.v .vfredmax vop) ∧ actives s 0 = [] :=
  ⟨by decide +kernel, ⟨idle_of rfl rfl rfl rfl rfl rfl (uncapped rfl rfl), by decide +kernel⟩, opens_eq (by decide +kernel),
    by decide +kernel⟩

/-- Operands of a VM instruction: v4, the base in g6, the stride in g7 or the indexes in v7, under w0. -/
def vmop : VMOp := ⟨4, 6, 7, 0, .native, false, false⟩

/-- `base` with g6 at an offset of the scratchpad and a stride of 1 in g7. -/
def striding (o : Nat) : State := regs [(7, 1)] (atPad o)

/-- What a VM instruction asks of the state, from a hart alone on its core. -/
theorem memReady_of {s : State} (hr : VReady s) (hw : s.memoriesWf = true) (hh : s.hart.watchHit = none := by rfl)
    (hp : s.hart.replay = [] := by rfl) (hd : s.hart.pend = [] := by rfl) (ho : s.others = [] := by rfl)
    (hq : (s.coreSt s.core).pinQueue = [] := by rfl) : MemReady s :=
  ⟨hr, hh, hp, hd, hw, hq, fun h hm => by rw [ho] at hm; cases hm⟩

theorem mready_striding {n : Nat} (h : ((striding 0).getG 6).toNat % n = 0) : MReady (striding 0) vmop n :=
  ⟨memReady_of ⟨idle_of rfl rfl rfl rfl rfl rfl (uncapped rfl rfl), by decide +kernel⟩ (by decide +kernel), h⟩

/-- Where element i of a mode lies from the base. -/
def stepOf (mode : MemMode) (i : Nat) : Nat := if mode = .indexed then 0 else 4 * i

theorem reach_striding {mode : MemMode} (hm : mode ∈ [MemMode.unit, .strided, .indexed]) {k : Kind} (hk : k ≠ .fetch) (byFmt : Bool) :
    AllReach (striding 0) (laneVia (striding 0)) k (elemAddr (striding 0) vmop mode byFmt) 4 (pending (striding 0) 0) []
      (fun i => padTargets (stepOf mode i) 4) := by
  have hp : pending (striding 0) 0 = [0, 1, 2, 3] := by decide +kernel
  rw [hp]
  refine allReach_pad (stepOf mode) ?_ ?_ ?_ (by decide) hk (core_zero rfl) rfl rfl rfl rfl
  · have : ∀ b : Bool, ∀ m ∈ [MemMode.unit, .strided, .indexed], ∀ i ∈ [0, 1, 2, 3],
        elemAddr (striding 0) vmop m b i = pad (stepOf m i) := by decide +kernel
    exact this byFmt mode hm
  · revert mode; decide
  · revert mode; decide

/-- Every load, store and blending store of memory in the scratchpad. -/
theorem witness_VectorLoads_and_stores :
    (∀ p ∈ [((.vldUnit : VMOpc), MemMode.unit, Kind.load), (.vldStrided, .strided, .load), (.vldIndexed, .indexed, .load),
        (.vldff, .unit, .load), (.vstUnit, .unit, .store), (.vstStrided, .strided, .store), (.vstIndexed, .indexed, .store),
        (.vstbUnit, .unit, .rmw), (.vstbStrided, .strided, .rmw), (.vstbIndexed, .indexed, .rmw)],
      Admitted (striding 0) (.vm p.1 vmop) ∧ ∀ b : Bool,
        AllReach (striding 0) (laneVia (striding 0)) p.2.2 (elemAddr (striding 0) vmop p.2.1 b) 4 (pending (striding 0) 0) []
          (fun i => padTargets (stepOf p.2.1 i) 4)) ∧
    MReady (striding 0) vmop (memBytes (bitsFor (striding 0) vmop true)) ∧ MReady (striding 0) vmop ((striding 0).hart.sew / 8) ∧
    memBytes (bitsFor (striding 0) vmop true) = 4 ∧ (striding 0).hart.sew / 8 = 4 := by
  refine ⟨?_, mready_striding (by decide +kernel), mready_striding (by decide +kernel), by decide +kernel, by decide +kernel⟩
  intro p hp
  refine ⟨opens_eq ?_, fun b => reach_striding ?_ ?_ b⟩ <;> revert p <;> decide +kernel

/-- The clauses of stores and blends: an element whose bytes no higher, and no other, element reaches; a nibble. -/
theorem witness_store_clauses : (∀ j ∈ pending (striding 0) 0, 3 < j → ∀ x ∈ padTargets 12 4, x ∉ padTargets (stepOf .unit j) 4) ∧
    Alone (pending (striding 0) 0) (fun i => padTargets (stepOf .unit i) 4) 2 ∧
    bitsFor (striding 0) { vmop with fmt := .e2m1 } true = 4 ∧ (memberOf (striding 0) { vmop with fmt := .e2m1 } .unit 3 % 2).toNat = 1 ∧
    padTargets 1 1 = [.mem (coreLoc 0 1)] := by
  refine ⟨by decide +kernel, ?_, by decide +kernel, by decide +kernel, by decide +kernel⟩
  show ∀ j ∈ pending (striding 0) 0, j ≠ 2 → ∀ x ∈ padTargets (stepOf .unit 2) 4, x ∉ padTargets (stepOf .unit j) 4
  decide +kernel

/-- A nibble store: four elements of format E2M1 at the start of the scratchpad. -/
theorem witness_nibbles : let o := { vmop with fmt := VmFmt.e2m1 }
    MReady (striding 0) o (memBytes (bitsFor (striding 0) o true)) ∧ Admitted (striding 0) (.vm .vstUnit o) ∧
    AllReach (striding 0) (laneVia (striding 0)) .store (elemAddr (striding 0) o .unit true) (memBytes (bitsFor (striding 0) o true))
      (pending (striding 0) 0) [] (fun i => padTargets (i / 2) 1) := by
  refine ⟨⟨memReady_of ⟨idle_of rfl rfl rfl rfl rfl rfl (uncapped rfl rfl), by decide +kernel⟩ (by decide +kernel), by decide +kernel⟩,
    opens_eq (by decide +kernel), ?_⟩
  rw [show pending (striding 0) 0 = [0, 1, 2, 3] by decide +kernel,
    show memBytes (bitsFor (striding 0) { vmop with fmt := .e2m1 } true) = 1 by decide +kernel]
  exact allReach_pad (fun i => i / 2) (by decide +kernel) (by decide) (by decide) (by decide) (by decide) (core_zero rfl) rfl rfl
    rfl rfl

theorem witness_ScaleLoads : MReady { striding 0 with hart := { (striding 0).hart with csr := { (striding 0).hart.csr with vstart := 252 } } }
      vmop 1 ∧ (striding 0).hart.allDone = false ∧ ∀ strided : Bool,
    let s : State := { striding 0 with hart := { (striding 0).hart with csr := { (striding 0).hart.csr with vstart := 252 } } }
    Admitted s (.vm (if strided then .vldkStrided else .vldkUnit) vmop) ∧ s.hart.allDone = false ∧
    AllReach s (laneVia s) .load (fun j => s.getG 6 + BitVec.ofNat 64 j * (if strided then s.getG 7 else 1)) 1
      ((List.range 256).filter fun j => s.hart.csr.vstart.toNat ≤ j) [] (fun j => padTargets j 1) := by
  refine ⟨⟨memReady_of ⟨idle_of rfl rfl rfl rfl rfl rfl (uncapped rfl rfl), by decide +kernel⟩ (by decide +kernel), by decide +kernel⟩,
    by decide +kernel, ?_⟩
  intro strided s
  refine ⟨opens_eq (by revert strided; decide +kernel), rfl, ?_⟩
  rw [show (List.range 256).filter (fun j => s.hart.csr.vstart.toNat ≤ j) = [252, 253, 254, 255] by decide +kernel]
  exact allReach_pad (fun j => j) (by revert strided; decide +kernel) (by decide) (by decide) (by decide) (by decide) (core_zero rfl)
    rfl rfl rfl rfl

/-! #### Elements in LPDDR6 -/

/-- `paged` with its VL, g6 at an offset of the page, and CTL.FP. -/
def pageAt (vl : BitVec 11) (fp : BitVec 1) (o : Nat) : State :=
  { paged with hart := { paged.hart with
      g := Hart.reset.g.set 6 (BitVec.ofNat 64 (0x10000 + o)), csr := { paged.hart.csr with vl := vl, fracctl := fp } } }

/-- A hart of HARTID 0 in a module with the cores of `paged`. -/
theorem core_paged {s : State} (hc : s.cores = paged.cores) (hi : s.hart.csr.hartid = 0) (hp : s.hart.partition = 0) :
    mapGet 8 (s.coreSt s.core).cdSlot s.hart.partition.val = 8 ∧ (s.coreSt s.core).pinQueue = [] := by
  have h : s.core = 0 := by simp [State.core, coreOf, hi]
  unfold State.coreSt
  rw [h, hc, hp]
  have : mapGet 8 (mapGet CoreSt.reset paged.cores 0).cdSlot (0 : Fin 4).val = 8 ∧
    (mapGet CoreSt.reset paged.cores 0).pinQueue = [] := by decide +kernel
  exact this

theorem core_pageAt (vl : BitVec 11) (fp : BitVec 1) (o : Nat) :
    mapGet 8 ((pageAt vl fp o).coreSt (pageAt vl fp o).core).cdSlot (pageAt vl fp o).hart.partition.val = 8 ∧
      ((pageAt vl fp o).coreSt (pageAt vl fp o).core).pinQueue = [] :=
  core_paged (by simp only [pageAt]) (by simp only [pageAt]; rfl) (by simp only [pageAt]; rfl)

theorem ready_pageAt (vl : BitVec 11) (fp : BitVec 1) (o : Nat) : VReady (pageAt vl fp o) :=
  ⟨idle_of rfl rfl rfl rfl rfl rfl (uncapped rfl rfl) (hs := (core_pageAt _ _ _).1), by show (2 : BitVec 2) ≠ 0; decide⟩

theorem memReady_pageAt {vl : BitVec 11} {fp : BitVec 1} {o : Nat} (hw : (pageAt vl fp o).memoriesWf = true) : MemReady (pageAt vl fp o) :=
  memReady_of (ready_pageAt vl fp o) hw (hq := (core_pageAt _ _ _).2)

/-- Whatever the other accesses have written above the page tables, they still map the page. -/
theorem paged_alike {s u : State} {touched : Target → Prop} {ag : Agent} (h : Paged s ag) (hu : Alike touched s u)
    (ht : ∀ loc : Nat, loc < 0x40000 → ¬ touched (.mem loc)) : Paged u ag := by
  have hc : (u.coreSt ag.core).tlb = [] := by
    rw [hu.world.2.2.1 ag.core]
    exact h.tlb
  exact ⟨fun loc hloc => (hu.bytes loc (ht loc hloc)).trans (h.tables loc hloc), hu.world.1.trans h.world,
    hu.sparing.trans h.sparing, h.root, h.pins, hc, fun l => by have := h.free l; unfold State.ownedLoc at this ⊢; rwa [hu.owned], fun b hb => (hu.bad b).trans (h.sound b hb)⟩

theorem sound_page {s : State} {o n : Nat} (hb : s.ctl.bad = []) (he : s.ctl.blockMeta = []) : (pageTargets o n).any s.badTarget = false := by
  rw [List.any_eq_false]
  intro x hx
  obtain ⟨_, _, rfl⟩ := List.mem_map.mp hx
  simp [State.badTarget, State.badLoc, sound_of hb he (b := _) rfl]

/-- Element accesses within the page meet the premise of the element statements. -/
theorem allFound_page {ι : Type} {s : State} {via : ι → Via} {k : Kind} {va : ι → Word} {len : Nat} {is : List ι} (off : ι → Nat)
    (hva : ∀ i ∈ is, va i = BitVec.ofNat 64 (0x10000 + off i)) (ho : ∀ i ∈ is, off i % 4096 + len ≤ 4096)
    (ho' : ∀ i ∈ is, off i < 65536) (h0 : 0 < len) (h : Paged s s.hart.agent) (hb : s.ctl.bad = []) (he : s.ctl.blockMeta = []) :
    AllFound s via k va len is [] (fun i => pageTargets (off i) len) := by
  refine ⟨?_, fun i _ => sound_page hb he⟩
  intro i hi u hu
  rw [hva i hi]
  refine access_ok (reaches_page (ho i hi) h0 (ho' i hi) (paged_alike h hu ?_))
  rintro loc hloc (h | ⟨j, hj, h⟩)
  · cases h
  · simp only [pageTargets, List.mem_map, Target.mem.injEq] at h
    obtain ⟨_, _, h⟩ := h
    omega

theorem allReach_page {ι : Type} {s : State} {via : ι → Via} {k : Kind} {va : ι → Word} {len : Nat} {is : List ι} (off : ι → Nat)
    (hva : ∀ i ∈ is, va i = BitVec.ofNat 64 (0x10000 + off i)) (ho : ∀ i ∈ is, off i % 4096 + len ≤ 4096)
    (ho' : ∀ i ∈ is, off i < 65536) (h0 : 0 < len) (h : Paged s s.hart.agent) (hb : s.ctl.bad = []) (he : s.ctl.blockMeta = [])
    (hwatch : s.ctl.watch = []) : AllReach s via k va len is [] (fun i => pageTargets (off i) len) := by
  refine ⟨allFound_page off hva ho ho' h0 h hb he, .inr ?_⟩
  intro i _
  rw [List.any_eq_false]
  intro x hx
  obtain ⟨_, _, rfl⟩ := List.mem_map.mp hx
  simp [State.watchedTarget, hwatch]

theorem paged_pageAt (vl : BitVec 11) (fp : BitVec 1) (o : Nat) : Paged (pageAt vl fp o) (pageAt vl fp o).hart.agent :=
  paged_of rfl rfl rfl ptroot_paged rfl (by
    unfold State.coreSt; rw [core_zero rfl]; simp only [pageAt]; exact tlb_paged) rfl (bad := []) rfl rfl (by decide)

theorem inDdr_page {o n : Nat} (h : o + n ≤ 65536) : InDdr (pageTargets o n) := by
  intro x hx
  obtain ⟨i, hi, rfl⟩ := List.mem_map.mp hx
  exact ⟨_, rfl, by have := List.mem_range.mp hi; unfold lpddrEnd; omega⟩

/-- Vector atomics and scatter-adds in LPDDR6: four elements at one location, and one element alone. -/
theorem witness_VectorUpdates : ∀ vl ∈ [(1 : BitVec 11), 4], let s := pageAt vl 0 0
    MReady s vmop (s.hart.sew / 8) ∧ vlNow s ≤ 1024 ∧
    (∀ op ∈ vAmoTable.map (·.1) ++ [.vscaddD, .vscaddU], Admitted s (.vm op vmop)) ∧
    (∀ i ∈ pending s 0, InDdr (pageTargets 0 4)) ∧
    AllReach s (laneVia s) .rmw (elemAddr s vmop .indexed false) (s.hart.sew / 8) (pending s 0) [] (fun _ => pageTargets 0 4) ∧
    (vl = 1 → Alone (pending s 0) (fun _ => pageTargets 0 4) 0) := by
  intro vl hvl s
  have hv : vl = 1 ∨ vl = 4 := by simpa using hvl
  refine ⟨⟨memReady_pageAt (by rcases hv with rfl | rfl <;> decide +kernel), by rcases hv with rfl | rfl <;> decide +kernel⟩,
    by rcases hv with rfl | rfl <;> decide +kernel, fun op h => opens_eq ?_, fun _ _ => inDdr_page (by decide), ?_, ?_⟩
  · have all : ∀ vl ∈ [(1 : BitVec 11), 4], ∀ op ∈ vAmoTable.map (·.1) ++ [VMOpc.vscaddD, .vscaddU],
        opens (gate (issuing (pageAt vl 0 0) (.vm op vmop)) (entryOf (pageAt vl 0 0) (.vm op vmop)) false) = true := by decide +kernel
    exact all vl hvl op h
  · have hs : s.hart.sew / 8 = 4 := by rcases hv with rfl | rfl <;> decide +kernel
    rw [hs]
    refine allReach_page (fun _ => 0) ?_ (fun _ _ => by decide) (fun _ _ => by decide) (by decide) (paged_pageAt _ _ _)
      rfl rfl rfl
    rcases hv with rfl | rfl <;> decide +kernel
  · rintro rfl j hj hne
    rw [show pending s 0 = [0] by decide +kernel] at hj
    exact absurd (List.mem_singleton.mp hj) hne

theorem witness_ReplayGroups : let s := { base with hart := { hartAt 4 with replay := [⟨0x40000, 0, 0x3F800000, 32⟩] } }
    s.memoriesWf = true ∧ (∀ r ∈ s.hart.replay, r.sew = 32 ∧ r.loc % (32 / 8) = 0) ∧ ∃ r ∈ s.hart.replay, r.loc = 0x40000 :=
  ⟨by decide +kernel, by decide, ⟨_, List.mem_singleton.mpr rfl, rfl⟩⟩

/-! #### Register frames -/

/-- The scratchpad holds a VREST header of four 32-bit elements, or zeros. -/
def savedAt (good : Bool) : State :=
  { striding 0 with mem := if good then [(coreLoc 0 0, 4), (coreLoc 0 4, 4)] else [] }

theorem witness_RegisterSaveAndRestore : ∀ g : Bool, let s := savedAt g
    MReady s vmop 16 ∧ s.hart.allDone = false ∧ Admitted s (.vm .vsave vmop) ∧ Admitted s (.vm .vrest vmop) ∧ HasHandler s ∧
    (∀ k ∈ [Kind.load, .store], AllReach s (fun _ : Unit => laneVia s s.hart.csr.vstart.toNat) k (fun _ => s.getG 6) 16 [()] []
        (fun _ => padTargets 0 16) ∧
      ∀ extra : List Target, AllReach s (laneVia s) k (fun i => s.getG 6 + BitVec.ofNat 64 (16 + 4 * i)) 4 [0, 1, 2, 3] extra
        (fun i => padTargets (16 + 4 * i) 4)) ∧
    bodies s = [0, 1, 2, 3] ∧ s.hart.sew / 8 = 4 ∧
    (∀ i ∈ bodies s, ∀ x ∈ padTargets (16 + 4 * i) 4, x ∉ padTargets 0 16) ∧
    (∀ i ∈ bodies s, Alone (bodies s) (fun i => padTargets (16 + 4 * i) 4) i) ∧
    (let x := numAt s (padTargets 0 16)
     if g then x / 2 ^ 32 % 256 = 4 ∧ x % 65536 = 4 ∧ 4 * (8 * 4) ≤ s.hart.vlrBits ∧ x / 2 ^ 40 = 0
     else x / 2 ^ 32 % 256 = 0) := by
  intro g s
  have hb : bodies s = [0, 1, 2, 3] := by cases g <;> decide +kernel
  rw [hb]
  refine ⟨⟨memReady_of ⟨idle_of rfl rfl rfl rfl rfl rfl (uncapped rfl rfl), by cases g <;> decide +kernel⟩ (by cases g <;> decide +kernel),
      by cases g <;> decide +kernel⟩, rfl, opens_eq (by cases g <;> decide +kernel), opens_eq (by cases g <;> decide +kernel),
    handler_base, ?_, rfl, by cases g <;> decide +kernel, by decide +kernel, ?_, by cases g <;> decide +kernel⟩
  · intro k hk
    have hf : k ≠ .fetch := by revert k; decide
    refine ⟨allReach_pad (fun _ => 0) (fun _ _ => by cases g <;> rfl) (fun _ _ => by decide) (fun _ _ => by decide) (by decide) hf
      (core_zero rfl) rfl rfl rfl rfl, fun extra => ?_⟩
    exact allReach_pad (fun i => 16 + 4 * i) (by cases g <;> decide +kernel) (by decide) (by decide) (by decide) hf (core_zero rfl)
      rfl rfl rfl rfl
  · show ∀ i ∈ [0, 1, 2, 3], ∀ j ∈ [0, 1, 2, 3], j ≠ i → ∀ x ∈ padTargets (16 + 4 * i) 4, x ∉ padTargets (16 + 4 * j) 4
    decide +kernel

/-! #### Element faults -/

/-- Weight 1/2 in element 0 of w1 and an unmapped base, under FRACCTL.FP as given. -/
def halfWeight (fp : BitVec 1) : State :=
  { pageAt 1 fp 65536 with hart := { (pageAt 1 fp 65536).hart with w := Hart.reset.w.set 1 16384 } }

theorem paged_halfWeight (fp : BitVec 1) : Paged (issuing (halfWeight fp) (.vm .vldUnit { vmop with w := 1 }))
    (halfWeight fp).hart.agent :=
  paged_of rfl rfl rfl ptroot_paged rfl (by
    rcases (show fp = 0 ∨ fp = 1 by revert fp; decide) with rfl | rfl <;> decide +kernel) rfl (bad := []) rfl rfl (by decide)

theorem core_halfWeight (fp : BitVec 1) :
    mapGet 8 ((halfWeight fp).coreSt (halfWeight fp).core).cdSlot (halfWeight fp).hart.partition.val = 8 ∧
      ((halfWeight fp).coreSt (halfWeight fp).core).pinQueue = [] :=
  core_paged (by simp only [halfWeight, pageAt]) (by simp only [halfWeight, pageAt]; rfl) (by simp only [halfWeight, pageAt]; rfl)

theorem onlyBytes_refl (s : State) : OnlyBytes s s := rfl

theorem witness_ElementFaults : ∀ fp : BitVec 1, let s := halfWeight fp; let o := { vmop with w := 1 }
    let u := issuing s (.vm .vldUnit o)
    ((.vldUnit : VMOpc), MemMode.unit, Kind.load, true) ∈ accessTable ∧
    MReady s o (memBytes (bitsFor s o true)) ∧ Admitted s (.vm .vldUnit o) ∧ pending s 1 = 0 :: [] ∧
    s.hart.csr.stripEn = false ∧ HasHandler s ∧ min (s.hart.rawW 1 0) 32768 < 32768 ∧ s.hart.csr.fracctl = fp ∧
    access u s.hart.agent (laneVia s 0) .load (elemAddr s o .unit true 0) (memBytes (bitsFor s o true)) = .fault ⟨.xlate, 0x20000⟩ u ∧
    OnlyBytes u u := by
  intro fp s o u
  have hfp : fp = 0 ∨ fp = 1 := by revert fp; decide
  have ha : elemAddr s o .unit true 0 = 0x20000 := by rcases hfp with rfl | rfl <;> decide +kernel
  have hn : memBytes (bitsFor s o true) = 4 := by rcases hfp with rfl | rfl <;> decide +kernel
  rw [ha, hn]
  refine ⟨List.mem_of_getElem? (i := 0) rfl, ⟨memReady_of ⟨idle_of rfl rfl rfl rfl rfl rfl (uncapped rfl rfl)
    (hs := (core_halfWeight _).1), by show (2 : BitVec 2) ≠ 0; decide⟩ ?_ (hq := (core_halfWeight _).2), ?_⟩, opens_eq ?_, ?_, ?_, handler_paged, ?_, rfl,
    faults_unmapped (by decide) (paged_halfWeight fp), onlyBytes_refl u⟩ <;> rcases hfp with rfl | rfl <;> decide +kernel

/-- VLDFF from the last four bytes of the page: element 0 is read and element 1 faults. -/
theorem witness_FirstFaultLoads : let s := pageAt 4 0 65532
    MReady s vmop (memBytes (bitsFor s vmop true)) ∧ Admitted s (.vm .vldff vmop) ∧ pending s 0 = 0 :: 1 :: [2, 3] ∧
    s.hart.csr.stripEn = false ∧
    AllReach s (laneVia s) .load (elemAddr s vmop .unit true) (memBytes (bitsFor s vmop true)) [0] [] (fun _ => pageTargets 65532 4) ∧
    ∀ u : State, Alike (fun _ => False) s u → access u s.hart.agent (laneVia s 1) .load (elemAddr s vmop .unit true 1)
      (memBytes (bitsFor s vmop true)) = .fault ⟨.xlate, 0x20000⟩ u := by
  intro s
  have hb : memBytes (bitsFor s vmop true) = 4 := by decide +kernel
  rw [hb]
  refine ⟨⟨memReady_pageAt (by decide +kernel), by decide +kernel⟩, opens_eq (by decide +kernel), by decide +kernel,
    by decide +kernel, ?_, ?_⟩
  · exact allReach_page (fun _ => 65532) (by decide +kernel) (fun _ _ => by decide) (fun _ _ => by decide) (by decide)
      (paged_pageAt _ _ _) rfl rfl rfl
  · intro u hu
    rw [show elemAddr s vmop .unit true 1 = 0x20000 by decide +kernel]
    exact faults_unmapped (by decide) (paged_alike (paged_pageAt _ _ _) hu fun _ _ h => h)

/-- The last element of a page whose translation the TLB holds, and the next one's PTE in a bad block. -/
def brokenPte : State :=
  { pageAt 4 0 0x1EFFFC with
    ctl := { paged.ctl with bad := [0x301] }
    cores := [(0, { CoreSt.reset with tlb := [⟨0x10000, false, 16, 31, 0x40000, 0x4019F⟩] })] }

theorem tlb_brokenPte : (brokenPte.coreSt brokenPte.hart.agent.core).tlb = [⟨0x10000, false, 16, 31, 0x40000, 0x4019F⟩] := by
  decide +kernel

/-- Whatever other accesses have done, the TLB maps the first element to the end of the frame. -/
theorem broken_first {u : State} (h : Alike (fun x => x ∈ ([] : List Target) ∨ ∃ j ∈ [0], x ∈ (fun _ : Nat => pageTargets 65532 4) j) brokenPte u) :
    access u brokenPte.hart.agent (laneVia brokenPte 0) .load 0x1FFFFC 4 = .ok (u, pageTargets 65532 4) := by
  have hp : brokenPte.hart.agent.pins = [] := by decide +kernel
  have ht : (u.coreSt brokenPte.hart.agent.core).tlb = [⟨0x10000, false, 16, 31, 0x40000, 0x4019F⟩] := by
    rw [h.world.2.2.1]
    exact tlb_brokenPte
  have hf : findLeaf u brokenPte.hart.agent 0x1FFFFC = .leaf ⟨0x10000, false, 16, 31, 0x40000, 0x4019F⟩ := by
    unfold findLeaf
    rw [hp, ht]
    rw [show (if brokenPte.hart.agent.engine.isNone = true then ([⟨0x10000, false, 16, 31, 0x40000, 0x4019F⟩] : List Xlat).find?
      (fun x => x.serves brokenPte.hart.agent 0x1FFFFC) else none) = some ⟨0x10000, false, 16, 31, 0x40000, 0x4019F⟩ by decide +kernel]
    rfl
  have hx : Machine.translate u brokenPte.hart.agent (laneVia brokenPte 0) .load 0x1FFFFC = .ok (u, .mem 0x4FFFC) := by
    unfold Machine.translate
    dsimp only
    rw [show (0x1FFFFC : Word).toNat = 0x1FFFFC from rfl, if_neg (by decide), if_neg (by decide), hf]
    dsimp only
    rw [show leafCheck 0x4019F brokenPte.hart.agent .load = none by decide +kernel]
    dsimp only
    rw [show pteTouched 0x4019F .load = 0x4019F by decide +kernel]
    simp only [bne_self_eq_false, Bool.false_and, Bool.false_eq_true, if_false]
    have hu : u.touchLeaf ⟨0x10000, false, 16, 31, 0x40000, 0x4019F⟩ .load = u := by
      unfold State.touchLeaf
      rw [if_pos (by decide +kernel)]
    have hc : physCheck u brokenPte.hart.agent.secure 0x4FFFC = none := by
      unfold physCheck
      rw [if_pos (by decide), h.sparing, wrg_free (h.world.1.trans rfl)]
      rfl
    rw [hu, show (⟨0x10000, false, 16, 31, 0x40000, 0x4019F⟩ : Xlat).apply 0x1FFFFC = 0x4FFFC by decide +kernel, hc]
    dsimp only
    unfold State.physLoc
    rw [if_pos (by decide)]
  refine access_ok ⟨?_, ?_⟩
  · show locate _ _ _ (1 + 1) _ _ _ = _
    unfold locate
    rw [if_neg (by decide)]
    dsimp only
    rw [show pieceLen 0x1FFFFC 4 = 4 by decide +kernel, hx]
    rfl
  · unfold pageTargets
    rw [List.any_eq_false]
    intro x hx
    obtain ⟨_, _, rfl⟩ := List.mem_map.mp hx
    have ho : u.owned = [] := h.owned
    simp [State.ownedTarget, State.ownedLoc, ho]

/-- The walk for the second one meets the error. -/
theorem broken_second {u : State} (h : Alike (fun _ => False) brokenPte u) :
    access u brokenPte.hart.agent (laneVia brokenPte 1) .load 0x200000 4 = .fault ⟨.mchk, 0x200000⟩ u := by
  have hp : brokenPte.hart.agent.pins = [] := by decide +kernel
  have hr : brokenPte.hart.agent.ptroot = some 0x10000 := by decide +kernel
  have ht : (u.coreSt brokenPte.hart.agent.core).tlb = [⟨0x10000, false, 16, 31, 0x40000, 0x4019F⟩] := by
    rw [h.world.2.2.1]
    exact tlb_brokenPte
  have hm : ∀ loc : Nat, readByte u.mem loc = readByte paged.mem loc := fun loc => h.bytes loc id
  have hn : ∀ loc : Nat, u.ownedLoc brokenPte.hart.agent.engine loc = false := fun loc => by
    have ho : u.owned = [] := h.owned
    simp [State.ownedLoc, ho]
  have hc : ∀ slot : Nat, slot < 0x40000 → physCheck u brokenPte.hart.agent.secure slot = none ∧ u.physLoc slot = slot := by
    intro slot hs
    refine ⟨?_, ?_⟩
    · unfold physCheck
      rw [if_pos (by unfold lpddrEnd; omega), h.sparing, wrg_free (h.world.1.trans rfl)]
      rfl
    · unfold State.physLoc
      rw [if_pos (by unfold lpddrEnd; omega)]
  have r0 : readNat u.mem 0x10000 8 = 0x20001 := by
    rw [readNat_congr 8 0x10000 fun i _ => hm _]; decide +kernel
  have r1 : readNat u.mem 0x20000 8 = 0x30001 := by
    rw [readNat_congr 8 0x20000 fun i _ => hm _]; decide +kernel
  have b0 : u.badLoc 0x10000 = false := (h.bad _).trans (by decide +kernel)
  have b1 : u.badLoc 0x20000 = false := (h.bad _).trans (by decide +kernel)
  have b2 : u.badLoc 0x30100 = true := (h.bad _).trans (by decide +kernel)
  have hw : findLeaf u brokenPte.hart.agent 0x200000 = .fault .mchk := by
    unfold findLeaf
    rw [hp, ht, hr]
    have hs : (if brokenPte.hart.agent.engine.isNone = true then
        ([⟨0x10000, false, 16, 31, 0x40000, 0x4019F⟩] : List Xlat).find? (fun x => x.serves brokenPte.hart.agent 0x200000)
        else none) = none := by
      decide +kernel
    simp only [List.find?_nil]
    rw [hs]
    dsimp only
    unfold walk
    dsimp only
    rw [show (0x10000 : BitVec 48).toNat + 8 * bitsOf 0x200000 (40 - 12 * 0) 12 = 0x10000 by decide, (hc 0x10000 (by decide)).1]
    dsimp only
    rw [(hc 0x10000 (by decide)).2, r0, hn, b0, if_neg (by decide), if_neg (by decide), if_neg (by decide), if_neg (by decide),
      if_neg (by decide)]
    unfold walk
    dsimp only
    rw [show bitsOf 0x20001 16 32 * 2 ^ 16 + 8 * bitsOf 0x200000 (40 - 12 * (0 + 1)) 12 = 0x20000 by decide, (hc 0x20000 (by decide)).1]
    dsimp only
    rw [(hc 0x20000 (by decide)).2, r1, hn, b1, if_neg (by decide), if_neg (by decide), if_neg (by decide), if_neg (by decide),
      if_neg (by decide)]
    unfold walk
    dsimp only
    rw [show bitsOf 0x30001 16 32 * 2 ^ 16 + 8 * bitsOf 0x200000 (40 - 12 * (0 + 1 + 1)) 12 = 0x30100 by decide, (hc 0x30100 (by decide)).1]
    dsimp only
    rw [(hc 0x30100 (by decide)).2, hn, b2]
    rfl
  refine access_error ?_
  show locate _ _ _ (1 + 1) _ _ _ = _
  unfold locate
  rw [if_neg (by decide)]
  dsimp only
  unfold Machine.translate
  dsimp only
  rw [show (0x200000 : Word).toNat = 0x200000 from rfl, if_neg (by decide), if_neg (by decide), hw]

theorem witness_FirstFaultCheck : MReady brokenPte vmop (memBytes (bitsFor brokenPte vmop true)) ∧
    Admitted brokenPte (.vm .vldff vmop) ∧ pending brokenPte 0 = 0 :: 1 :: [2, 3] ∧ brokenPte.hart.csr.stripEn = false ∧
    HasHandler brokenPte ∧
    AllReach brokenPte (laneVia brokenPte) .load (elemAddr brokenPte vmop .unit true) (memBytes (bitsFor brokenPte vmop true)) [0] []
      (fun _ => pageTargets 65532 4) ∧
    ∀ u : State, Alike (fun _ => False) brokenPte u → access u brokenPte.hart.agent (laneVia brokenPte 1) .load
      (elemAddr brokenPte vmop .unit true 1) (memBytes (bitsFor brokenPte vmop true)) = .fault ⟨.mchk, 0x200000⟩ u := by
  have hb : memBytes (bitsFor brokenPte vmop true) = 4 := by decide +kernel
  rw [hb]
  refine ⟨⟨memReady_of ⟨idle_of rfl rfl rfl rfl rfl rfl (uncapped rfl rfl) (hs := by decide +kernel), by show (2 : BitVec 2) ≠ 0; decide⟩
      (by decide +kernel) (hq := by decide +kernel), by decide +kernel⟩, opens_eq (by decide +kernel), by decide +kernel, rfl, handler_paged,
    ⟨⟨?_, fun i _ => by decide +kernel⟩, .inr fun i _ => by decide +kernel⟩, fun u hu => ?_⟩
  · intro i hi u hu
    obtain rfl : i = 0 := List.mem_singleton.mp hi
    rw [show elemAddr brokenPte vmop .unit true 0 = 0x1FFFFC by decide +kernel]
    exact broken_first hu
  · rw [show elemAddr brokenPte vmop .unit true 1 = 0x200000 by decide +kernel]
    exact broken_second hu

theorem witness_VectorAlignment : VReady (striding 1) ∧ Admitted (striding 1) (.vm .vldUnit vmop) ∧
    Admitted (striding 1) (.vm .vsave vmop) ∧ (striding 1).hart.allDone = false ∧ HasHandler (striding 1) ∧
    ((striding 1).getG 6).toNat % memBytes (bitsFor (striding 1) vmop true) ≠ 0 ∧ ((striding 1).getG 6).toNat % 16 ≠ 0 :=
  ⟨⟨idle_of rfl rfl rfl rfl rfl rfl (uncapped rfl rfl), by decide +kernel⟩, opens_eq (by decide +kernel), opens_eq (by decide +kernel),
    rfl, handler_base, by decide +kernel, by decide +kernel⟩

/-! #### Watch hits -/

/-- `pageAt` with its first granule watched. -/
def watchedAt (o : Nat) : State := { pageAt 4 0 o with ctl := { (pageAt 4 0 o).ctl with watch := [0x2000] } }

theorem core_watchedAt (o : Nat) :
    mapGet 8 ((watchedAt o).coreSt (watchedAt o).core).cdSlot (watchedAt o).hart.partition.val = 8 ∧
      ((watchedAt o).coreSt (watchedAt o).core).pinQueue = [] :=
  core_paged (by simp only [watchedAt, pageAt]) (by simp only [watchedAt, pageAt]; rfl) (by simp only [watchedAt, pageAt]; rfl)

theorem paged_watchedAt (o : Nat) : Paged (watchedAt o) (watchedAt o).hart.agent :=
  paged_of rfl rfl rfl ptroot_paged rfl (by
    unfold State.coreSt; rw [core_zero rfl]; simp only [watchedAt, pageAt]; exact tlb_paged) rfl (bad := []) rfl rfl (by decide)

/-- Four elements from byte 24 of the page in U: the granule of elements 0 and 1 is watched. -/
theorem witness_VectorWatchHits : let s := watchedAt 24
    ((.vldUnit : VMOpc), MemMode.unit, Kind.load, true) ∈ accessTable ∧ MReady s vmop (memBytes (bitsFor s vmop true)) ∧
    Admitted s (.vm .vldUnit vmop) ∧ s.hart.csr.status.priv = false ∧ HasHandler s ∧ s.hart.csr.stripEn = false ∧
    VMOpc.vldUnit ∉ ddrMembers ∧
    AllFound s (laneVia s) .load (elemAddr s vmop .unit true) (memBytes (bitsFor s vmop true)) (pending s 0) []
      (fun i => pageTargets (24 + 4 * i) 4) ∧
    ((pending s 0).filter fun j => (pageTargets (24 + 4 * j) 4).any s.watchedTarget) = 0 :: [1] := by
  intro s
  have hb : memBytes (bitsFor s vmop true) = 4 := by decide +kernel
  rw [hb]
  refine ⟨List.mem_of_getElem? (i := 0) rfl, ⟨memReady_of ⟨idle_of rfl rfl rfl rfl rfl rfl (uncapped rfl rfl)
    (hs := (core_watchedAt _).1), by show (2 : BitVec 2) ≠ 0; decide⟩ (by decide +kernel) (hq := (core_watchedAt _).2),
    by decide +kernel⟩, opens_eq (by decide +kernel), rfl, by unfold HasHandler; decide +kernel, by decide +kernel, by decide, ?_,
    by decide +kernel⟩
  exact allFound_page (fun i => 24 + 4 * i) (by decide +kernel) (by decide +kernel) (by decide +kernel) (by decide) (paged_watchedAt _)
    rfl rfl

/-- Elements of VSCADD reach one location or none in common. -/
theorem witness_VectorScatterAdds : ∀ i ∈ pending (pageAt 4 0 0) 0, ∀ j ∈ pending (pageAt 4 0 0) 0,
    (fun _ : Nat => pageTargets 0 4) i = (fun _ : Nat => pageTargets 0 4) j ∨ ∀ x ∈ pageTargets 0 4, x ∉ pageTargets 0 4 :=
  fun _ _ _ _ => .inl rfl

/-! ### Witnesses: tile and array instructions -/

/-- Operands of MTLD: an FP32 tile at g6 with rows g7 apart, into slot 0. -/
def mtldOp (t : Bool) : MtldOp := ⟨6, 7, 0, 0, t, .fp32, 0, false, false⟩

/-- `base` with a tile's base and stride. -/
def tiled : State := regs [(7, 512)] (atPad 0)

theorem ready_tiled : VReady tiled := ⟨idle_of rfl rfl rfl rfl rfl rfl (uncapped rfl rfl), by decide +kernel⟩

/-- No other hart of its core asks for the STE. -/
theorem steTakes_of {s : State} (ho : s.others = []) : SteTakes s := fun h hm => by rw [ho] at hm; cases hm

theorem witness_TileLoads : MemReady tiled ∧ SteTakes tiled ∧ ∀ t : Bool,
    Admitted tiled (.mtld (mtldOp t)) ∧ (tiled.getG 6).toNat % 4 = 0 ∧ (tiled.getG 7).toNat % 4 = 0 ∧
    AllReach tiled (fun _ => .tile) .load (fun r => tiled.getG 6 + BitVec.ofNat 64 r * tiled.getG 7) 512 (List.range 128) []
      (fun r => padTargets (512 * r) 512) := by
  refine ⟨memReady_of ready_tiled (by decide +kernel), steTakes_of rfl, fun t => ⟨opens_eq (by cases t <;> decide +kernel), by decide +kernel,
    by decide +kernel, ?_⟩⟩
  refine allReach_pad (fun r => 512 * r) ?_ ?_ ?_ (by decide) (by decide) (core_zero rfl) rfl rfl rfl rfl
  · have : ∀ i ∈ List.range 128, tiled.getG 6 + BitVec.ofNat 64 i * tiled.getG 7 = pad (512 * i) := by decide +kernel
    exact this
  · intro i _; omega
  · intro i hi; have := List.mem_range.mp hi; omega

/-- Operands of MROW: the A row in v4, slot 0, row 5 of accumulator 1, the high queue. -/
def mrowOp : MrowOp := ⟨4, false, 0, true, false, 5, 1, 0, false, false⟩

/-- Slot 0 of core 0 loaded with an FP32 tile, the STE occupied until a cycle. -/
def slotted (steUntil : Nat) : State :=
  base.setCore 0 { CoreSt.reset with slot0 := { Slot.empty with fmt := 8 }, steUntil := steUntil }

theorem ready_slotted {n : Nat} (h : n = 0 ∨ n = 10) : VReady (slotted n) :=
  ⟨idle_of rfl rfl rfl rfl rfl rfl (uncapped rfl rfl) (hs := by rcases h with rfl | rfl <;> decide +kernel),
    by show (2 : BitVec 2) ≠ 0; decide⟩

theorem witness_TileRows : ∀ n ∈ [0, 10], let s := slotted n
    VReady s ∧ Admitted s (.mrow mrowOp) ∧ s.hart.watchHit = none ∧ s.memoriesWf = true ∧ s.cappedSte s.hart = false ∧
    tileOfCode ((s.coreSt s.core).slot mrowOp.slot).fmt = some .fp32 ∧
    (if n = 0 then SteFree s else s.time < (s.coreSt s.core).steUntil) := by
  intro n hn s
  have hv : n = 0 ∨ n = 10 := by simpa using hn
  refine ⟨ready_slotted hv, opens_eq (by rcases hv with rfl | rfl <;> decide +kernel), rfl,
    by rcases hv with rfl | rfl <;> decide +kernel, by rcases hv with rfl | rfl <;> decide +kernel, by rcases hv with rfl | rfl <;> decide +kernel, ?_⟩
  rcases hv with rfl | rfl
  · exact ⟨by decide +kernel, fun _ hh => (nomatch hh)⟩
  · show s.time < _
    decide +kernel

/-- A waiting row, and a hart that has it. -/
def waitingRow : TileReq := rowRequest (slotted 0) mrowOp
/-- With the STE occupied until a cycle. -/
def rowWaits (n : Nat) : State := { slotted n with hart := { (slotted n).hart with tiles := [waitingRow] } }

theorem witness_SteGrants : (rowWaits 10).time < ((rowWaits 10).coreSt (rowWaits 10).core).steUntil ∧
    (base.readyRows base.core true ++ base.readyRows base.core false = []) ∧ let s := rowWaits 0
    (s.coreSt s.core).steUntil ≤ s.time ∧
    s.readyRows s.core true ++ s.readyRows s.core false = [(s.hart, waitingRow, mrowOp)] ∧ s.hart.run ≠ .vacant ∧
    (∀ h ∈ s.others, h.run = .vacant ∨ h.csr.hartid ≠ s.hart.csr.hartid) ∧ s.mapsWf = true ∧
    tileOfCode ((s.coreSt s.core).slot mrowOp.slot).fmt = some .fp32 :=
  ⟨by decide +kernel, by decide +kernel, by decide +kernel, by decide +kernel, by decide +kernel, fun _ hh => (nomatch hh),
    by decide +kernel, by decide +kernel⟩

/-- Operands of an accumulator access: v4, row 5 of accumulator 1, FP32, base g6. -/
def accOp (mode : AccMode) : AccOp := ⟨6, 7, 4, 0, false, 0, mode, .fp32, 5, 1, false, false⟩

theorem witness_AccumulatorAccess : VReady base ∧ SteTakes base ∧ base.memoriesWf = true ∧ Admitted base (.maclr ⟨1, 5, 1, false, false⟩) ∧
    Admitted base (.mawr (accOp .unit)) ∧ Admitted base (.mard (accOp .unit)) ∧ 0 ∈ actives base 0 ∧ 4 ∉ actives base 0 ∧
    InReg base.hart.sew 0 ∧ InReg base.hart.sew 4 :=
  ⟨ready_base, steTakes_of rfl, by decide +kernel, opens_eq (by decide +kernel), opens_eq (by decide +kernel), opens_eq (by decide +kernel),
    by decide +kernel, by decide +kernel, by unfold InReg; decide +kernel, by unfold InReg; decide +kernel⟩

theorem witness_AccumulatorStores : ∀ mode : AccMode, let s := striding 0
    MemReady s ∧ SteTakes s ∧ Admitted s (.mast (accOp mode)) ∧ (s.getG 6).toNat % 4 = 0 ∧
    let m (i : Nat) : Int := match mode with
      | .unit => i
      | .strided => i * (s.getG 7).toInt
      | .indexed => (el s 4 i).toInt
    (pending s 0).filter (fun i => i < 1024 / 4) = [0, 1, 2, 3] ∧
    AllReach s (laneVia s) .store (fun i => memAddr (s.getG 6) 32 (m i)) 4 [0, 1, 2, 3] []
      (fun i => padTargets (if mode = .indexed then 0 else 4 * i) 4) := by
  intro mode s
  refine ⟨memReady_of ⟨idle_of rfl rfl rfl rfl rfl rfl (uncapped rfl rfl), by decide +kernel⟩ (by decide +kernel), steTakes_of rfl,
    opens_eq (by cases mode <;> decide +kernel), by decide +kernel, by decide +kernel, ?_⟩
  refine allReach_pad (fun i => if mode = .indexed then 0 else 4 * i) ?_ ?_ ?_ (by decide) (by decide) (core_zero rfl) rfl rfl rfl rfl
  all_goals cases mode <;> decide +kernel

/-- The configuration word of an array of one clause and 16 features, T = 1. -/
def arrayWord : Word := 0x100400

/-- The array of cluster 0 configured so, with a nudge table of zeros, g6 at the scratchpad with the given memory. -/
def arrayed (m : Memory) : State :=
  { (atPad 0).setCluster 0 { ClusterSt.reset with configured := true, config := arrayWord } with mem := m }

theorem ready_arrayed (m : Memory) : VReady (arrayed m) :=
  ⟨idle_of rfl rfl rfl rfl rfl rfl (uncapped rfl rfl), by show (2 : BitVec 2) ≠ 0; decide⟩

/-- Operands of the array's vector members. -/
def laVOp : LaVOp := ⟨4, false, true, 5, false, false⟩

theorem witness_ArrayEvaluation : VReady (arrayed []) ∧ Admitted (arrayed []) (.laeval laVOp) ∧ Admitted (arrayed []) (.lavote laVOp) ∧
    0 < cfgC arrayWord ∧ cfgC arrayWord ≤ 1 ∧ 0 < cfgL arrayWord ∧ InReg (arrayed []).hart.sew 0 ∧
    ∃ v, VoteIs arrayWord (fun c => ((arrayed []).hart.getV 4).getLsbD c) 0 v :=
  ⟨ready_arrayed [], opens_eq (by decide +kernel), opens_eq (by decide +kernel), by decide, by decide, by decide,
    by unfold InReg; decide +kernel, _, rfl⟩

theorem witness_ArrayTraining : VReady (arrayed []) ∧ (arrayed []).memoriesWf = true ∧ Admitted (arrayed []) (.lafb laVOp) ∧
    Admitted (arrayed []) (.latrain ⟨4, false, 0, false, false⟩) ∧ vtypeLegal (arrayed []).hart.csr.vtype = true ∧
    HasHandler (arrayed []) ∧ worldFaults (arrayed []) (entryOf (arrayed []) (.latrain ⟨4, false, 6, false, false⟩)) = false ∧
    ((arrayed []).clusterSt (arrayed []).cluster).configured = true ∧
    controlLegal ((arrayed []).clusterSt (arrayed []).cluster).config ((arrayed []).getG 6) = false :=
  ⟨ready_arrayed [], by decide +kernel, opens_eq (by decide +kernel), opens_eq (by decide +kernel), by decide +kernel, handler_base,
    by decide +kernel, by decide +kernel, by decide +kernel⟩

/-- Operands of the array's members with a general register. -/
def laAOp (a : Reg) : LaAOp := ⟨a, false, false⟩

theorem nodup_pad (o n : Nat) : (padTargets o n).Nodup := by
  show List.Pairwise (· ≠ ·) ((List.range n).map fun i => Target.mem (coreLoc 0 o + i))
  rw [List.pairwise_map]
  exact List.Pairwise.imp (fun h e => h (by injection e with e; omega)) List.nodup_range

/-- One access of the array within a page of the scratchpad. -/
theorem reach_arrayed (m : Memory) {k : Kind} {n : Nat} (h0 : 0 < n) (hn : n ≤ 4096) (hk : k ≠ .fetch) :
    AllReach (arrayed m) (fun _ : Unit => .tile) k (fun _ => (arrayed m).getG 6) n [()] [] (fun _ => padTargets 0 n) :=
  allReach_pad (fun _ => 0) (fun _ _ => rfl) (fun _ _ => by omega) (fun _ _ => by decide) h0 hk (core_zero rfl) rfl rfl rfl rfl

/-- The header of an image of that array, at the scratchpad. -/
def imageMemory : Memory := [(coreLoc 0 1, 4), (coreLoc 0 2, 0x10)]

theorem ready_of {s : State} (a : s.hart.viq = []) (b : s.hart.groups = 0) (c : s.hart.tiles = []) (d : s.hart.frozen = false)
    (e : s.hart.vgap = 0) (f : s.hart.used = 0) (g : s.helm.gangs = []) (h : s.hart.relCap = 8) (i : s.hart.csr.status.vs ≠ 0)
    (hr : s.hart.run = .running := by rfl) (ho : s.others = [] := by rfl) (hl : s.loose = false := by rfl)
    (hd : s.hart.filling = [] := by rfl) (hi : s.hart.idleTo = 0 := by rfl) (hs : mapGet 8 (s.coreSt s.core).cdSlot s.hart.partition.val = 8 := by rfl) : VReady s :=
  ⟨idle_of a b c d e f (uncapped g h) hr ho hl hd hi hs, i⟩

theorem witness_ArrayConfiguration :
    (let s := regs [(5, arrayWord)] base
     VReady s ∧ vtypeLegal s.hart.csr.vtype = true ∧ HasHandler s ∧ worldFaults s (entryOf s (.lacfg (laAOp 6))) = false ∧
     cfgLegal (s.getG 6) = false ∧ Admitted s (.lacfg (laAOp 5)) ∧ Admitted s (.laseed (laAOp 5)) ∧
     ¬ ((s.clusterSt s.cluster).config.getLsbD 32 = true ∧ (s.getG 5).getLsbD 32 = false)) ∧
    (let s := regs [(5, arrayWord)] (base.setCluster 0 { ClusterSt.reset with config := 0x100000000, configured := true, arraySecure := false })
     VReady s ∧ ((s.clusterSt s.cluster).config.getLsbD 32 = true ∧ (s.getG 5).getLsbD 32 = false) ∧
       let u : State := { s with hart := { s.hart with csr := { s.hart.csr with status := { s.hart.csr.status with world := true } } } }
       VReady u ∧ Admitted u (.lacfg (laAOp 5)) ∧ (u.clusterSt u.cluster).config.getLsbD 32 = true ∧ (u.getG 5).getLsbD 32 = false) ∧
    (∀ m ∈ [[], imageMemory, [(coreLoc 0 3, 1)]], let s := arrayed m
      MemReady s ∧ Admitted s (.latbl (laAOp 6)) ∧ Admitted s (.lasts (laAOp 6)) ∧ Admitted s (.lastl (laAOp 6)) ∧
      (s.getG 6).toNat % 256 = 0 ∧ (s.getG 6).toNat % 64 = 0 ∧ HasHandler s ∧
      ImagePins s (s.getG 6) 1280 ∧
      AllReach s (fun _ : Unit => .tile) .load (fun _ => s.getG 6) 64 [()] [] (fun _ => padTargets 0 64) ∧
      AllReach s (fun _ : Unit => .tile) .load (fun _ => s.getG 6) 256 [()] [] (fun _ => padTargets 0 256) ∧
      AllReach s (fun _ : Unit => .tile) .load (fun _ => s.getG 6) (256 + 1024 * cfgC arrayWord) [()] [] (fun _ => padTargets 0 1280) ∧
      AllReach s (fun _ : Unit => .tile) .store (fun _ => s.getG 6) (256 + 1024 * cfgC (s.clusterSt s.cluster).config) [()] []
        (fun _ => padTargets 0 1280)) ∧
    (padTargets 0 1280).Nodup ∧ (padTargets 0 1280).take 256 = padTargets 0 256 ∧
    tableLegal (BitVec.ofNat 512 (numAt (arrayed []) (padTargets 0 64))) = true ∧
    tableLegal (BitVec.ofNat 512 (numAt (arrayed [(coreLoc 0 3, 1)]) (padTargets 0 64))) = false ∧
    (let s := arrayed imageMemory
     let x := numAt s (padTargets 0 256)
     (s.clusterSt s.cluster).arrayWorld = false ∧ (BitVec.ofNat 64 x).getLsbD 32 = false ∧ BitVec.ofNat 64 x = arrayWord ∧
     cfgLegal (BitVec.ofNat 64 x) = true ∧ tableLegal (BitVec.ofNat 512 (x / 2 ^ 512)) = true ∧ x / 2 ^ 96 % 2 ^ 32 = 0 ∧
       x / 2 ^ 192 % 2 ^ 320 = 0 ∧ x / 2 ^ 1024 = 0) ∧
    let x := numAt (arrayed []) (padTargets 0 256)
    (BitVec.ofNat 64 x).getLsbD 32 = false ∧ cfgLegal (BitVec.ofNat 64 x) = false := by
  refine ⟨⟨ready_of rfl rfl rfl rfl rfl rfl rfl rfl (by decide +kernel), by decide +kernel, handler_base, by decide +kernel,
      by decide +kernel, opens_eq (by decide +kernel), opens_eq (by decide +kernel), by decide +kernel⟩,
    ⟨ready_of rfl rfl rfl rfl rfl rfl rfl rfl (by decide +kernel), by decide +kernel,
      ready_of rfl rfl rfl rfl rfl rfl rfl rfl (by decide +kernel), opens_eq (by decide +kernel), by decide +kernel, by decide +kernel⟩,
    ?_, nodup_pad _ _, by decide +kernel, by decide +kernel, by decide +kernel, by decide +kernel, by decide +kernel⟩
  intro m hm s
  have e : 256 + 1024 * cfgC (s.clusterSt s.cluster).config = 1280 := by revert m; decide +kernel
  have e' : 256 + 1024 * cfgC arrayWord = 1280 := by decide
  rw [e, e']
  refine ⟨memReady_of (ready_arrayed m) ?_, opens_eq ?_, opens_eq ?_, opens_eq ?_, ?_, ?_, handler_base, by unfold ImagePins; revert m; decide +kernel, reach_arrayed m (by decide) (by decide) (by decide),
    reach_arrayed m (by decide) (by decide) (by decide), reach_arrayed m (by decide) (by decide) (by decide),
    reach_arrayed m (by decide) (by decide) (by decide)⟩ <;> revert m <;> decide +kernel

/-- `watchedAt` with the base and the stride of a tile in g6 and g7. -/
def watchedTile : State :=
  { watchedAt 0 with hart := { (watchedAt 0).hart with g := (Hart.reset.g.set 6 0x10000).set 7 512 } }

theorem core_watchedTile : mapGet 8 (watchedTile.coreSt watchedTile.core).cdSlot watchedTile.hart.partition.val = 8 ∧
    (watchedTile.coreSt watchedTile.core).pinQueue = [] :=
  core_paged (by simp only [watchedTile, watchedAt, pageAt]) (by simp only [watchedTile, watchedAt, pageAt]; rfl)
    (by simp only [watchedTile, watchedAt, pageAt]; rfl)

/-- MTLD in U of the page whose first granule is watched: row 0 hits. -/
theorem witness_TileWatchHits : let s := watchedTile; let o := mtldOp false
    MemReady s ∧ SteTakes s ∧ Admitted s (.mtld o) ∧ s.hart.csr.status.priv = false ∧ HasHandler s ∧ s.hart.csr.stripEn = false ∧
    (s.getG o.a).toNat % 4 = 0 ∧ (s.getG o.b).toNat % 4 = 0 ∧
    AllFound s (fun _ => .tile) .load (fun r => s.getG o.a + BitVec.ofNat 64 r * s.getG o.b) 512 (List.range 128) []
      (fun r => pageTargets (512 * r) 512) ∧
    ((List.range 128).filter fun j => (pageTargets (512 * j) 512).any s.watchedTarget) = 0 :: [] := by
  intro s o
  refine ⟨memReady_of ⟨idle_of rfl rfl rfl rfl rfl rfl (uncapped rfl rfl) (hs := core_watchedTile.1), by show (2 : BitVec 2) ≠ 0; decide⟩
    (by decide +kernel) (hq := core_watchedTile.2), steTakes_of rfl, opens_eq (by decide +kernel), rfl, by unfold HasHandler; decide +kernel,
    by decide +kernel, by decide +kernel, by decide +kernel, ?_, by decide +kernel⟩
  refine allFound_page (fun r => 512 * r) ?_ ?_ ?_ (by decide) (paged_of rfl rfl rfl ptroot_paged rfl (by
    unfold State.coreSt; rw [core_zero rfl]; simp only [s, watchedTile, watchedAt, pageAt]; exact tlb_paged) rfl (bad := []) rfl rfl
    (by decide)) rfl rfl
  · decide +kernel
  · intro i _; omega
  · intro i hi; have := List.mem_range.mp hi; omega

/-- The page of `watchedAt` holds the header of an image of the array at its start. -/
def watchedImage : State :=
  { (watchedAt 0).setCluster 0 { ClusterSt.reset with configured := true, config := arrayWord } with
    mem := writeBytes paged.mem 0x40001 [4, 0x10] }

theorem paged_watchedImage : Paged watchedImage watchedImage.hart.agent :=
  { tables := fun loc h => by
      exact readByte_writeBytes_other _ (by decide +kernel) _ _ (.inl (by omega))
    world := rfl, sparing := rfl, root := ptroot_paged, pins := rfl
    tlb := by decide +kernel
    free := fun _ => by rw [State.ownedLoc, show watchedImage.owned = [] from rfl]; rfl
    sound := fun b _ => sound_of (bad := []) rfl rfl rfl }

/-- An image of that array in U in a page whose first granule is watched. -/
theorem witness_ImageWatchHits : let s := watchedImage
    MemReady s ∧ Admitted s (.lasts (laAOp 6)) ∧ Admitted s (.lastl (laAOp 6)) ∧ (s.getG 6).toNat % 256 = 0 ∧ s.mapsWf = true ∧
    s.hart.csr.status.priv = false ∧ HasHandler s ∧ s.hart.csr.stripEn = false ∧ ImagePins s (s.getG 6) 1280 ∧
    256 + 1024 * cfgC (s.clusterSt s.cluster).config = 1280 ∧
    AllFound s (fun _ : Unit => .tile) .store (fun _ => s.getG 6) 1280 [()] [] (fun _ => pageTargets 0 1280) ∧
    AllFound s (fun _ : Unit => .tile) .load (fun _ => s.getG 6) 256 [()] [] (fun _ => pageTargets 0 256) ∧
    AllFound s (fun _ : Unit => .tile) .load (fun _ => s.getG 6) 1280 [()] [] (fun _ => pageTargets 0 1280) ∧
    (pageTargets 0 1280).any s.watchedTarget = true ∧ (s.clusterSt s.cluster).arrayWorld = false ∧
    BitVec.ofNat 64 (numAt s (pageTargets 0 256)) = arrayWord ∧ headerLegal (leBytes 256 (numAt s (pageTargets 0 256))) = true := by
  intro s
  have hf : ∀ (k : Kind) (n : Nat), 0 < n → n ≤ 4096 →
      AllFound s (fun _ : Unit => .tile) k (fun _ => s.getG 6) n [()] [] (fun _ => pageTargets 0 n) := fun k n h0 hn =>
    allFound_page (fun _ => 0) (fun _ _ => by decide +kernel) (fun _ _ => by omega) (fun _ _ => by decide) h0 paged_watchedImage rfl rfl
  refine ⟨memReady_of ⟨idle_of rfl rfl rfl rfl rfl rfl (uncapped rfl rfl) (hs := by decide +kernel), by show (2 : BitVec 2) ≠ 0; decide⟩
    (by decide +kernel) (hq := by decide +kernel), opens_eq (by decide +kernel), opens_eq (by decide +kernel), by decide +kernel,
    by decide +kernel, rfl, by unfold HasHandler; decide +kernel, by decide +kernel, by unfold ImagePins; decide +kernel, by decide +kernel,
    hf _ _ (by decide) (by decide), hf _ _ (by decide) (by decide), hf _ _ (by decide) (by decide), by decide +kernel, by decide +kernel,
    by decide +kernel, by decide +kernel⟩

/-! ### Witnesses: the host and the management kernel -/

/-- A module whose boot has finished, its kernel running. -/
def upAndRunning : State := { base with host := { base.host with bootState := 3, kernelUp := true } }

/-- Likewise with link 0 up. -/
def linked : State := { upAndRunning with links := upAndRunning.links.set 0 { up := true, secure := false, retry := 0, peerid := 1, fails := 0 } }

/-- A world region of die 1 that holds the block at 0x40000 is secure. -/
def barred : State := { linked with wrg := [(64, (3, 0x100000))] }

/-- Likewise with an engine that owns the line at 0x40000. -/
def lineOwned : State := { linked with owned := [⟨0x40000, 64, some 0⟩] }

/-- No access waits, so that every port is free. -/
theorem portFree_of {s : State} (h : s.recalled = []) (p : Fin 2) : PortFree s p := fun r hr => by rw [h] at hr; cases hr

/-- With a read of port 0 that waits. -/
def portWaits : State := { linked with recalled := [.host 0 (.read 0x40000 8)] }

theorem witness_PortFree : base.cutOff = false ∧ PortFree base 0 ∧ portWaits.cutOff = false ∧ ¬ PortFree portWaits 0 ∧
    PortFree portWaits 1 :=
  ⟨rfl, portFree_of rfl 0, by decide +kernel, fun h => h _ (List.mem_cons_self ..) rfl, fun r hr => by
    obtain rfl : r = .host 0 (.read 0x40000 8) := List.mem_singleton.mp hr
    decide⟩

/-- A next state that meets a test. -/
theorem next_of {o : Out} {p : State → Bool} (h : outIs o p = true) : ∃ t, o = .next t ∧ p t = true := by
  cases o with
  | next t => exact ⟨t, rfl, h⟩
  | _ => cases h

/-- A next state known whole. -/
theorem next_eq {o : Out} {t : State} (h : outIs o (fun u => decide (u = t)) = true) : o = .next t := by
  obtain ⟨u, hu, hd⟩ := next_of h
  rw [hu, of_decide_eq_true hd]

theorem witness_OutsideMemoryAccesses : (∀ s ∈ [linked, lineOwned],
      (∃ run w a r, Outside s run w a r) ∧ (linked.link 0).up = true ∧ s.cutOff = false ∧ s.recalled = [] ∧
      outsideRefused s false 0x40000 8 = false ∧ s.mapsWf = true ∧ (0x40000 : BitVec 48).toNat < lpddrEnd) ∧
    Outside linked (.peerAccess 0) (linked.link 0).secure toPeer (.peer 0) ∧ (linked.link 0).secure = false ∧
    (targetsOf 0x40000 8).any (linked.ownedTarget none) = false ∧ (targetsOf 0x40000 8).any linked.badTarget = false ∧
    (targetsOf 0x40000 8).any (lineOwned.ownedTarget none) = true ∧
    (∃ f, (BusRmw.add, f) ∈ busTable) ∧ readNat linked.mem 0x40000 8 = (0 : Word).toNat % 2 ^ 64 ∧
    readNat linked.mem 0x40000 8 ≠ (1 : Word).toNat % 2 ^ 64 ∧ (base.link 0).up = false := by
  refine ⟨?_, .peer 0 (by decide +kernel), by decide +kernel, by decide +kernel, by decide +kernel, by decide +kernel,
    row_mem 0 rfl, by decide +kernel, by decide +kernel, by decide +kernel⟩
  intro s hs
  have h3 : s.host.bootState = 3 := by revert s; decide +kernel
  have hc : s.cutOff = false := by revert s; decide +kernel
  exact ⟨⟨_, _, _, _, .host 0 h3 hc⟩, by decide +kernel, hc, by revert s; decide +kernel, by revert s; decide +kernel,
    by revert s; decide +kernel, by decide⟩

/-- A read that waits for the line, and one of the same port behind it. -/
theorem witness_OutsideWaits : let r : Recall := .host 0 (.read 0x40000 8)
    let q : Recall := .host 0 (.read 0x50000 8)
    lineOwned.hart.run ≠ .stalled ∧ AllWait lineOwned [r, q] ∧ AllWait linked [] ∧ CanArrive linked r ∧
    (∃ t, exec (recallEvent r) { linked with recalled := [] } = .next t ∧ (t.recalled == []) = true) ∧
    AllWait lineOwned [r] ∧ CanArrive lineOwned (.peer 0 (.read 0x50000 8)) ∧
    [r].any (Recall.peer 0 (.read 0x50000 8)).sameSource = false ∧
    (∃ t, exec (recallEvent (.peer 0 (.read 0x50000 8))) { lineOwned with recalled := [] } = .next t ∧ (t.recalled == []) = true) ∧
    ({ base with hart := { base.hart with run := .stalled } } : State).hart.run = .stalled ∧
    ({ lineOwned with recalled := [r] } : State).recalled.any q.sameSource = true := by
  intro r q
  have hw : WaitsForLine lineOwned r := ⟨rfl, next_eq (by decide +kernel)⟩
  refine ⟨by decide, ?_, fun i x h => (by cases h), rfl, next_of (by decide +kernel), ?_,
    (show (lineOwned.link 0).up = true by decide +kernel), by decide,
    next_of (by decide +kernel), rfl, by decide⟩
  · intro i x h
    match i, h with
    | 0, h => cases h; exact .inr hw
    | 1, h => cases h; exact .inl (by decide)
  · intro i x h
    match i, h with
    | 0, h => cases h; exact .inr hw

/-- A refused access: a frame of a secure region. -/
theorem witness_outside_refused : (∃ run w a r, Outside barred run w a r) ∧ outsideRefused barred false 0x40000 8 = true :=
  ⟨⟨_, _, _, _, .host 0 (by decide +kernel) (by decide +kernel)⟩, by decide +kernel⟩

theorem witness_HostWindows : base.cutOff = false ∧ base.recalled = [] ∧
    (stagingTargets 0x1000000 8).any (base.ownedTarget none) = false ∧ (0x40000 : BitVec 48).getLsbD 47 = false ∧ base.host.bootState ≠ 3 ∧
    (0x800001000000 : BitVec 48).getLsbD 47 = true ∧ (0x800001000000 : BitVec 48).toNat % 2 ^ 26 = 0x1000000 ∧
    base.memoriesWf = true ∧ stagingSecure base 0x1000000 8 = false ∧ (0x800000000000 : BitVec 48).toNat % 2 ^ 26 = 0 ∧
    (0x800000000008 : BitVec 48).toNat % 2 ^ 26 = 8 ∧ ∃ s : State, s.cutOff = true :=
  ⟨by decide +kernel, rfl, by decide +kernel, by decide, by decide +kernel, by decide, by decide, by decide +kernel, by decide +kernel,
    by decide, by decide, { base with cutOff := true }, rfl⟩

/-- An empty SPI NOR does not verify. Whether any image does rests on the fused hashes, and whether a read of the NOR
fails is open; the model leaves both free. -/
theorem witness_BootSequence : (∀ s : State, Config.norReadFails s.fresh = true ∨ Config.norReadFails s.fresh = false) ∧ base.host.norBad = false ∧ (norSource base 0).verify 1 ≠ 0 ∧
    let s : State := { base with host := { base.host with bootState := 2 } }
    s.host.bootState = 2 ∧ s.host.kernelUp = false ∧ (norSource s ((s.host.fwLen + 0xFFFF) / 0x10000 * 0x10000)).verify 2 ≠ 0 ∧
      s.host.kernelBad = false ∧ ∃ u : State, u.host.norBad = true ∧ u.host.kernelBad = true ∧ u.host.bootState = 2 ∧ u.host.kernelUp = false :=
  ⟨fun s => by cases Config.norReadFails s.fresh <;> simp, by decide +kernel, by decide +kernel, rfl, rfl, by decide +kernel,
    rfl, { base with host := { base.host with norBad := true, kernelBad := true, bootState := 2 } }, rfl, rfl, rfl, rfl⟩

theorem witness_PushedImages : let s : State := { base with host := { base.host with semHeld := true, bootState := 4, norQueue := [[1]] } }
    (s.host.semHeld = true ∧ s.host.semOwner = ((0 : Fin 2) == 1) ∧ s.host.bootState = 4 ∧ (1 : Word).getLsbD 0 = true) ∧
    (pushSource s).verify (if s.host.expectKernel then 2 else 1) ≠ 0 ∧ s.cutOff = false ∧ s.host.norQueue = [1] :: [] ∧ memWf s.nor = true ∧
    s.agenda = [] ∧ PortFree s 0 ∧ base.host.norQueue = [] ∧ base.host.semHeld = false ∧ ¬ kernelImage [1] ∧
    kernelImage [0, 0, 0, 0, 0, 0, 0, 0, 0, 0, 0, 0, 2] :=
  ⟨by decide +kernel, by decide +kernel, rfl, rfl, by decide +kernel, rfl, portFree_of rfl 0, rfl, rfl, by decide, by decide⟩

theorem owned_none {s : State} (h : s.owned = []) (pa n : Nat) : s.ownedRange pa n = false := by
  simp [State.ownedRange, h]

/-- A request at 0x40000 of the given OP from port 0, DST 0x50000, COMPL 0x60000, with its result. -/
def requested (op : Byte) (r : Option (Fin 5)) : State :=
  { upAndRunning with
    mem := [(0x40000, op), (0x4001A, 5), (0x40022, 6)]
    ctl := { upAndRunning.ctl with sparing := true }
    host := { upAndRunning.host with requests := [⟨.port 0, 0x40000, r⟩] } }

/-- With no world region below the spare channel's range nothing is refused. -/
theorem open_outside {s : State} {w : Bool} {pa n : Nat} (hw : s.wrg = []) (h : pa + n ≤ 0x17E00000000) :
    outsideRefused s w pa n = false := by
  unfold outsideRefused
  rw [List.any_eq_false]
  intro i hi
  have hn := List.mem_range.mp hi
  have hf : s.frameSecure (pa + i) = false := wrg_free hw _
  unfold physCheck
  rw [if_pos (by unfold lpddrEnd; omega), hf]
  have : decide (0x17E00000000 ≤ pa + i) = false := by simp; omega
  rw [this]
  simp

/-- No engine owns a request's line. -/
theorem requestsFree_of {s : State} (h : s.owned = []) : RequestsFree s := fun _ _ => owned_none h _ _

/-- The request itself. -/
def aRequest : Request := ⟨.port 0, 0x40000, none⟩

theorem next_requested {op : Byte} {n : Nat} (h : nextRequest (requested op none) n = some 0) :
    NextRequest (requested op none) n 0 aRequest := ⟨requestsFree_of rfl, rfl, rfl, rfl, h⟩

/-- ATTEST and RETIRE; a LOAD is admitted only where the drive has 4 KiB blocks, which the model leaves free. -/
theorem witness_LoadAttestRetire : NextRequest (requested 2 none) 2 0 aRequest ∧ NextRequest (requested 5 none) 5 0 aRequest ∧
    nextRequest base 1 = none ∧
    (let s := requested 2 none
     ¬ (lpddrEnd < reqArg0 s aRequest + 32 ∨ outsideRefused s (srcSecure aRequest.src) (reqArg0 s aRequest) 32 = true ∨
       (targetsOf (reqArg0 s aRequest) 32).any s.badTarget = true) ∧
     outsideRefused s (srcSecure aRequest.src) (reqDst s aRequest) 1024 = false ∧ s.memoriesWf = true ∧
     ∀ (pa n : Nat), s.ownedRange pa n = false) ∧
    let s : State := { requested 2 none with ctl := { base.ctl with bad := [0] } }
    NextRequest s 2 0 aRequest ∧ (targetsOf (reqArg0 s aRequest) 32).any s.badTarget = true := by
  refine ⟨next_requested (by decide +kernel), next_requested (by decide +kernel), by decide +kernel,
    ⟨by decide +kernel, ?_, by decide +kernel, fun pa n => owned_none rfl pa n⟩, ⟨requestsFree_of rfl, rfl, rfl, rfl, by decide +kernel⟩, by decide +kernel⟩
  rw [show reqDst (requested 2 none) aRequest = 0x50000 by decide +kernel]
  exact open_outside rfl (by decide)

theorem witness_DrainReturnComplete : NextRequest (requested 3 none) 3 0 aRequest ∧ NextRequest (requested 4 none) 4 0 aRequest ∧
    (requested 3 none).mapsWf = true ∧ (requested 3 none).clusterIdle 0 = false ∧
    ({ requested 3 none with hart := Hart.reset } : State).clusterIdle 0 = true ∧
    ((requested 4 none).clusterSt 0).offline = false ∧
    (let s := (requested 4 none).setCluster 0 { ClusterSt.reset with offline := true }
     NextRequest s 4 0 aRequest ∧ (s.clusterSt (reqUnit s aRequest)).offline = true ∧ s.mapsWf = true) ∧
    completable upAndRunning [] upAndRunning.host.requests = none ∧ let s := requested 3 (some 1)
    s.host.kernelUp = true ∧ s.host.bootState = 3 ∧ completable s [] s.host.requests = some (⟨.port 0, 0x40000, some 1⟩, 1) ∧
    reqCompl s ⟨.port 0, 0x40000, some 1⟩ = 0x60000 ∧ s.memoriesWf = true ∧ outsideRefused s false 0x40001 1 = false ∧
    outsideRefused s false 0x60000 8 = false ∧ ∀ (pa n : Nat), s.ownedRange pa n = false :=
  ⟨next_requested (by decide +kernel), next_requested (by decide +kernel), by decide +kernel, by decide +kernel, by decide +kernel,
    by decide +kernel, ⟨⟨requestsFree_of rfl, rfl, rfl, rfl, by decide +kernel⟩, by decide +kernel, by decide +kernel⟩, by decide +kernel, rfl, rfl,
    by decide +kernel, by decide +kernel, by decide +kernel, by decide +kernel, by decide +kernel, fun pa n => owned_none rfl pa n⟩

/-! ### Witnesses: messages, errors, worlds and registers -/

/-- A message of domain 5. -/
def aMessage : FaultMsg := ⟨5, 3, 1, 2, 0x40000, 0, 9⟩

/-- The kernel with that message, and domain 5's entry with the given top byte and HARTID 0. -/
def routed (top : Byte) (domain : BitVec 16) : State :=
  { upAndRunning with
    messages := [aMessage], mem := writeByte [(0x7002A, 1)] 0x7002F top
    host := { upAndRunning.host with domtab := 0x70000 }, hart := { upAndRunning.hart with domain := domain } }

theorem witness_FaultMessageRouting : upAndRunning.messages = [] ∧ (∀ top ∈ [(0 : Byte), 0x80, 0xC0], let s := routed top 5
      s.host.kernelUp = true ∧ s.messages = aMessage :: [] ∧ s.mapsWf = true) ∧
    (let e (top : Byte) := readNat (routed top 5).mem ((routed top 5).host.domtab.toNat + 8 * 5) 8
     (∀ top : Byte, (routed top 5).ownedRange ((routed top 5).host.domtab.toNat + 8 * 5) 8 = false ∧
       (routed top 5).ownedRange ((e top) / 2 ^ 12 % 2 ^ 40 * 4096) 32 = false) ∧
     (∀ top ∈ [(0x80 : Byte), 0xC0], physCheck (routed top 5) true (0x70000 + 8 * 5) = none ∧ (e top) / 2 ^ 12 % 2 ^ 40 * 4096 < lpddrEnd ∧
       physCheck (routed top 5) true ((e top) / 2 ^ 12 % 2 ^ 40 * 4096) = none) ∧
     physCheck { routed 0x80 5 with ctl := { base.ctl with sparing := true } } true 0x17E00000000 ≠ none ∧
     (e 0).testBit 63 = false ∧ (e 0x80).testBit 63 = true ∧ (e 0x80).testBit 62 = false ∧ (e 0xC0).testBit 62 = true ∧
     BitVec.ofNat 12 (e 0x80) = 0) ∧
    ∀ d ∈ [(5 : BitVec 16), 6], ∃ h, (routed 0x80 d).placedHart 0 = some h ∧ h.domain = d :=
  ⟨rfl, by decide +kernel, ⟨fun _ => ⟨owned_none rfl _ _, owned_none rfl _ _⟩, by decide +kernel, by decide +kernel, by decide +kernel, by decide +kernel,
    by decide +kernel, by decide +kernel, by decide +kernel⟩, fun d _ => ⟨(routed 0x80 d).hart, rfl, rfl⟩⟩

theorem witness_UncorrectableErrors : (∃ k n f, (k, n, f) ∈ errorTable base ∧ n ≤ (0xFFFF000000000000 : Word).toNat) ∧
    (∃ n f, (ErrKind.scratchpad, n, f) ∈ errorTable base ∧ (0x40000 : Word).toNat < n) ∧
    ((∃ n : Fin 2, (ErrKind.slot 1) = .slot n) ∨ (ErrKind.slot 1) = .acc) ∧ base.hart.run ≠ .vacant ∧
    coreOf base.hart.csr.hartid = 0 :=
  ⟨⟨_, _, _, List.mem_of_getElem? (i := 0) rfl, by decide⟩, ⟨_, _, List.mem_of_getElem? (i := 1) rfl, by decide⟩, .inl ⟨1, rfl⟩,
    by decide, by decide +kernel⟩

theorem witness_ControllerWrites : base.mapsWf = true ∧ ([] : List Byte) = [] ∧
    ([1, 2] : List Byte) ≠ [] ∧ (0x40000 : BitVec 48).toNat < lpddrEnd ∧ (0x40000 : BitVec 48).toNat % 256 + 2 ≤ 256 ∧
    (0x40000 : BitVec 48).toNat / 256 ∉ base.ctl.lines ∧ base.badUnit 0x400 = false ∧
    (0x400 : BitVec 40).toNat ∉ base.ctl.dirty ∧
    (let s : State := { base with ctl := { base.ctl with lines := [0x400], dirty := [0x400] } }
     s.mapsWf = true ∧ (0x400 : BitVec 40).toNat ∈ s.ctl.dirty ∧ (0x40000 : BitVec 48).toNat / 256 ∈ s.ctl.lines) ∧
    let s : State := { base with ctl := { base.ctl with bad := [0x400] } }
    s.mapsWf = true ∧ s.badUnit 0x400 = true ∧ s.hart.run ≠ .vacant :=
  ⟨by decide +kernel, rfl, by decide, by decide, by decide, by decide +kernel, by decide +kernel, by decide +kernel,
    ⟨by decide +kernel, by decide +kernel, by decide +kernel⟩, by decide +kernel, by decide +kernel, by decide⟩

/-- A region at the root with a chain of records. -/
def aLeaf : Leaf := { rcb := 0x40000, parent := 0, anc := [], eff := Eff.default, chain := 0x50000, recSecure := false }

/-- A gang that holds a place on core 0. -/
def placedGang : Gang := { newGang aLeaf 0x50000 State.reset 0 0 with places := [(0, 0)] }

theorem witness_BlockWorlds : base.mapsWf = true ∧
    (let s : State := { base with helm := { base.helm with gangs := [placedGang] } }
     blockIdle s (.core 0) = false ∧ s.mapsWf = true) ∧
    blockIdle base (.core 0) = true ∧ blockSecure base (.core 0) = false ∧
    let s := base.setCore 0 { CoreSt.reset with secure := true }
    s.mapsWf = true ∧ blockIdle s (.core 0) = true ∧ blockSecure s (.core 0) = true :=
  ⟨by decide +kernel, ⟨by decide +kernel, by decide +kernel⟩, by decide +kernel, by decide +kernel, by decide +kernel,
    by decide +kernel, by decide +kernel⟩

theorem witness_NamedRegisterWrites : (0 : BitVec 12) ≠ 0x022 ∧ (∃ old, crRead base 0 = some old) ∧ base.hart.csr.stripEn = false ∧
    base.hart.viqReady = false ∧ (stripped 5 [heldOf .vlsync []]).hart.viqReady = true :=
  ⟨by decide, ⟨_, rfl⟩, by decide +kernel, by decide +kernel, by decide +kernel⟩

/-- g6 at a register of the window, in S and in U. -/
theorem witness_WindowRegisters : (∀ s ∈ [regs [(6, 0xFFF8000000008)] base, regs [(6, 0xFFF8000000008)] paged],
      s.getG 6 + (0 : BitVec 12).signExtend 64 = BitVec.ofNat 64 (0xFFF8000000000 + 8)) ∧ isControlReg 8 = true ∧
    (regs [(6, 0xFFF8000000008)] base).hart.csr.status.priv = true ∧
    (regs [(6, 0xFFF8000000008)] paged).hart.csr.status.priv = false ∧
    (∀ s ∈ [regs [(6, 0xFFF8000000008)] base, regs [(6, 0xFFF8000000008)] paged],
      s.hart.run ≠ .vacant ∧ s.hart.pend = [] ∧ s.hart.late = []) ∧
    HasHandler (regs [(6, 0xFFF8000000008)] paged) ∧ mapWf (0, 0) base.wrg = true := by
  refine ⟨by decide +kernel, by decide +kernel, by decide +kernel, by decide +kernel, by decide +kernel, ?_, by decide +kernel⟩
  have : (regs [(6, 0xFFF8000000008)] paged).hart.csr.tvec = paged.hart.csr.tvec := by decide +kernel
  unfold HasHandler
  rw [this]
  exact handler_paged

/-- The other clauses of the registers: a vacant hart, after the cutoff, and a link that a write takes down or leaves.
-/
theorem witness_register_clauses : State.reset.hart.run = .vacant ∧ base.hart.run ≠ .vacant ∧ base.hart.csr.status.priv = true ∧
    (linked.link 0).up = true ∧ (base.link 0).up = false ∧ (0 : Word).getLsbD 63 = false ∧ base.cutOff = false ∧
    ({ base with cutOff := true } : State).cutOff = true ∧ base.mapsWf = true :=
  ⟨rfl, by decide, rfl, by decide +kernel, by decide +kernel, by decide, rfl, rfl, by decide +kernel⟩

/-! ### Witnesses: links -/

/-- Link 0 after 16 failed sends of one flit, with a hart of the given trip and waiting writes. -/
def failing (run : Run) (pend : List Pend) : State :=
  { linked with
    links := linked.links.set 0 { up := true, secure := false, retry := 0, peerid := 1, fails := 16 }
    hart := { linked.hart with run := run, pend := pend } }

/-- A write that link 0 carries. -/
def carried : Pend := { kind := .plain, lane := none, link := some 0, locs := [peerLoc 1 0], bytes := [1], keep := 0 }

/-- A link that goes down with nothing on it, with a write of the hart, and with its read-modify-write. -/
theorem witness_LinkEvents : (∀ x ∈ [failing .running [], failing .running [carried], failing (.peer 0 none false) []],
      (x.link 0).up = true ∧ 16 ≤ (x.link 0).fails ∧ x.others = [] ∧ x.hart.run ≠ .vacant ∧ HasHandler x) ∧
    ((failing .running [carried]).hart.pend.filter fun p => p.link == some 0) ≠ [] ∧
    (∃ (old : Option Nat) (hit : Bool), (failing (.peer 0 none false) []).hart.run = .peer 0 old hit) ∧
    (∀ (old : Option Nat) (hit : Bool), (failing .running [carried]).hart.run ≠ .peer 0 old hit) ∧
    (base.link 0).up = false ∧ (linked.link 0).fails < 16 ∧
    ({ linked with agenda := [.flitSent 0] } : State).agenda = .flitSent 0 :: [] ∧ linked.powered = true := by
  refine ⟨?_, by decide +kernel, ⟨none, false, rfl⟩, fun _ _ h => (by cases h), by decide +kernel, by decide +kernel, rfl, rfl⟩
  intro x hx
  simp only [List.mem_cons, List.not_mem_nil, or_false] at hx
  rcases hx with rfl | rfl | rfl <;> exact ⟨by decide +kernel, by decide +kernel, rfl, by decide, handler_base⟩

/-! ### Witnesses: engines -/

/-- What the ENQ of the hart of HARTID 0 records for command 1 of a chain of engine e whose descriptor is at the
scratchpad. -/
def aSlot (e : Fin 68) : SlotRec :=
  { chain := pad 0, seq := 1, engine := e, priv := true, secure := false, ptroot := some 0x10000, domain := 5, hartid := 0
    region := 0, cmd0 := 0, cmd2 := 0, cmd3 := 0 }

theorem slot_core (e : Fin 68) : (aSlot e).agent.core = 0 := by simp [SlotRec.agent, aSlot, coreOf]

/-- Doublewords at offsets of the scratchpad. -/
def words (l : List (Nat × Nat)) : Memory := l.foldl (fun m p => writeNat m (coreLoc 0 p.1) 8 p.2) []

/-- Doublewords of a chain with a ring of 16 slots at 0x1000, and of command 1: doubleword 0, an FP destination row of
64 bytes at 0x2000, and a trigger at 0x3000. -/
def chainWords (w0 : Nat) : List (Nat × Nat) :=
  [(0x10, (pad 0x1000).toNat), (0x18, 4), (0x1040, w0), (0x1050, (pad 0x2000).toNat), (0x1058, 2 ^ 32 + 64),
    (0x1070, (pad 0x3000).toNat)]

/-- A module with memory, slot records and running commands. -/
def engines (m : Memory) (recs : List SlotRec) (run : List EngCmd) : State :=
  { base with mem := m, slotRecs := recs, running := run }

theorem free_pad {s : State} (hw : s.owned = []) (eng : Option (Fin 68)) (o n : Nat) :
    (padTargets o n).any (s.ownedTarget eng) = false := by
  unfold padTargets
  rw [List.any_eq_false]
  intro x hx
  obtain ⟨i, _, rfl⟩ := List.mem_map.mp hx
  simp [State.ownedTarget, State.ownedLoc, hw]

theorem load_pad {s : State} {ag : Agent} {via : Via} {o n : Nat} (ho : o % 4096 + n ≤ 4096) (h0 : 0 < n) (ho' : o < 2 ^ 19)
    (hc : ag.core = 0) (hs : (s.coreSt 0).secure = false) (hw : (padTargets o n).any (s.ownedTarget ag.engine) = false)
    (hb : s.ctl.bad = []) (he : ag.engine.isNone = false) :
    ∃ hit, loadAt s ag via (pad o) n = .ok
      { st := s, data := (padTargets o n).map (targetByte s ag), hit := hit, targets := padTargets o n } := by
  have hsound : (padTargets o n).any s.badTarget = false := sound_pad _ _ hb
  refine ⟨(padTargets o n).any s.watchedTarget, ?_⟩
  unfold loadAt
  rw [access_ok ⟨locate_pad ho h0 ho' (by decide) hc hs _, hw⟩]
  dsimp only
  rw [hsound, State.afterOwn, he]
  rfl

/-- The bytes of the scratchpad as an engine reads them. -/
theorem engine_bytes (s : State) (ag : Agent) (o n : Nat) :
    (padTargets o n).map (targetByte s ag) = readBytes s.mem (coreLoc 0 o) n := by
  rw [← range_bytes]
  simp [padTargets, targetByte, Function.comp_def]

/-- The chain's descriptor as an engine reads it. -/
def viewAt (s : State) (r : SlotRec) : ChainView := chainView ((padTargets 0 64).map (targetByte s r.agent))

theorem chain_pad (m : Memory) (recs : List SlotRec) (run : List EngCmd) (e : Fin 68) :
    readChain (engines m recs run) (aSlot e) = .ok (engines m recs run, viewAt (engines m recs run) (aSlot e)) := by
  obtain ⟨hit, h⟩ := load_pad (s := engines m recs run) (ag := (aSlot e).agent) (via := .engine) (o := 0) (n := 64) (by decide)
    (by decide) (by decide) (slot_core e) rfl (free_pad rfl _ _ _) rfl rfl
  unfold readChain
  rw [show (aSlot e).chain = pad 0 from rfl, h]
  rfl

theorem dest_pad {s : State} {c : EngCmd} (hds : c.ds = false) (he : c.slot.engine.val < 64) (hr : c.rows = 1)
    (ha : c.addr 2 + BitVec.ofNat 64 0 * c.word 5 = pad 0x2000) (hl : c.len = 64) (hc : c.slot.agent.core = 0)
    (hs : (s.coreSt 0).secure = false) : c.dest s = .ok (s, [padTargets 0x2000 64]) := by
  unfold EngCmd.dest
  rw [hds, if_neg (by simp; omega), hr]
  unfold destRows
  dsimp only
  rw [ha, hl, locate_pad (by decide) (by decide) (by decide) (by decide) hc hs]
  rfl

/-- An engine reaches the scratchpad, whatever has been written. -/
theorem engine_pad {touched : Target → Prop} {s : State} {c : EngCmd} {k : Kind} {o n : Nat} (ho : o % 4096 + n ≤ 4096)
    (h0 : 0 < n) (ho' : o < 2 ^ 19) (hk : k ≠ .fetch) (hc : c.slot.agent.core = 0) (hs : (s.coreSt 0).secure = false) :
    EngineReaches touched s c k (pad o) n (padTargets o n) := by
  intro u hu
  refine locate_pad ho h0 ho' hk hc ?_ _
  unfold State.coreSt
  rw [hu.world.2.2.1]
  exact hs

/-- An access waits for a line that an engine owns. -/
def waits {α : Type} (x : Acc α) : Bool :=
  match x with
  | .wait => true
  | _ => false

theorem waits_eq {α : Type} {x : Acc α} (h : waits x = true) : x = .wait := by
  cases x with
  | wait => rfl
  | _ => cases h

/-- A module whose command 1 has the given doubleword 0, none of its commands running. -/
def starting (e : Fin 68) (w0 : Nat) : State := engines (words (chainWords w0)) [aSlot e] []

/-- The bytes of the command's slot. -/
def slotBytes (w0 : Nat) : List Byte := readBytes (words (chainWords w0)) (coreLoc 0 0x1040) 64

/-- The command read from its slot. -/
def slotCommand (e : Fin 68) (w0 : Nat) : EngCmd := { slot := aSlot e, dw := words8 (slotBytes w0), phase := .started }

theorem load_words (m : Memory) (recs : List SlotRec) (run : List EngCmd) (e : Fin 68) :
    ∃ d, loadAt (engines m recs run) (aSlot e).agent .engine (pad 0x1040) 64 = .ok d ∧ d.st = engines m recs run ∧
      d.data = readBytes m (coreLoc 0 0x1040) 64 := by
  obtain ⟨hit, h⟩ := load_pad (s := engines m recs run) (ag := (aSlot e).agent) (via := .engine)
    (o := 0x1040) (n := 64) (by decide) (by decide) (by decide) (slot_core _) rfl (free_pad rfl _ _ _) rfl rfl
  exact ⟨_, h, rfl, engine_bytes _ _ _ _⟩

theorem load_slot (w0 : Nat) (recs : List SlotRec) (run : List EngCmd) (e : Fin 68) :
    ∃ d, loadAt (engines (words (chainWords w0)) recs run) (aSlot e).agent .engine (pad 0x1040) 64 = .ok d ∧
      d.st = engines (words (chainWords w0)) recs run ∧ d.data = slotBytes w0 := by
  rw [slotBytes]
  exact load_words _ recs run e

/-- The engine reads that command from its slot. -/
theorem reads_slot (w0 : Nat) (recs : List SlotRec) (run : List EngCmd) (e : Fin 68) {v : ChainView}
    (hv : v.slot (aSlot e).seq = pad 0x1040) : ReadsCommand (engines (words (chainWords w0)) recs run) (aSlot e) v (slotCommand e w0) := by
  obtain ⟨d, h, hs, hd⟩ := load_slot w0 recs run e
  refine ⟨d, by rw [hv]; exact h, hs, ?_⟩
  rw [hd]; rfl

theorem slot_reached {w0 : Nat} {recs : List SlotRec} {run : List EngCmd} {e : Fin 68} {v : ChainView}
    (hv : v.slot (aSlot e).seq = pad 0x1040) (hm : (engines (words (chainWords w0)) recs run).memoriesWf = true) :
    SlotReached (engines (words (chainWords w0)) recs run) (slotCommand e w0) v (padTargets 0x1040 8) :=
  { wf := hm, memory := allMemory_pad _ _
    reach := by
      rw [show v.slot (slotCommand e w0).slot.seq = pad 0x1040 from hv]
      exact engine_pad (by decide) (by decide) (by decide) (by decide) (slot_core _) rfl
    free := free_pad rfl _ _ _
    idle := fun h hm => by
      obtain rfl : h = base.hart := List.mem_singleton.mp hm
      rfl }

/-- A FILL of 64 bytes, one with no completion scope, and an ENQ's VOID at a memory service engine. -/
theorem witness_EngineCommandStart :
    (∀ p ∈ [((0 : Fin 68), 0x8104), (0, 0x8004), (64, 0x8000)], let s := starting p.1 p.2
      s.engineBusy p.1 = false ∧ s.slotRecs.filter (fun r => r.engine == p.1) = [] ++ aSlot p.1 :: [] ∧
      readChain s (aSlot p.1) = .ok (s, viewAt s (aSlot p.1)) ∧ s.isNext (aSlot p.1) (viewAt s (aSlot p.1)) = true ∧
      ReadsCommand s (aSlot p.1) (viewAt s (aSlot p.1)) (slotCommand p.1 p.2) ∧ ((slotCommand p.1 p.2).word 0).getLsbD 15 = true ∧
      SlotReached s (slotCommand p.1 p.2) (viewAt s (aSlot p.1)) (padTargets 0x1040 8)) ∧
    (slotCommand 0 0x8004).malformed = true ∧
    (let c := slotCommand 0 0x8104
     c.malformed = false ∧ ¬ (c.isEnqVoid = true ∧ 64 ≤ (0 : Fin 68).val) ∧ Triggered (starting 0 0x8104) c True ∧
     c.dest (starting 0 0x8104) = .ok (starting 0 0x8104, [padTargets 0x2000 64]) ∧
     ([padTargets 0x2000 64].any ((starting 0 0x8104).ownedElsewhere 0) = false)) ∧
    (let c := { slotCommand 64 0x8000 with dw := (Vector.replicate 8 0).set 0 (0x8000 : Word) }
     c.isEnqVoid = true ∧ c.malformed = false) ∧ base.slotRecs = [] := by
  refine ⟨?_, by decide +kernel, ⟨by decide +kernel, by decide +kernel, .inl ⟨by decide +kernel, trivial⟩, ?_, by decide +kernel⟩,
    by decide +kernel, rfl⟩
  · intro p hp s
    have ha : (viewAt s (aSlot p.1)).slot (aSlot p.1).seq = pad 0x1040 := by revert p; decide +kernel
    have hm : s.memoriesWf = true := by revert p; decide +kernel
    exact ⟨by revert p; decide +kernel, by revert p; decide +kernel, chain_pad _ _ _ _, by revert p; decide +kernel,
      reads_slot _ _ _ _ ha, by revert p; decide +kernel, slot_reached ha hm⟩
  · exact dest_pad (by decide +kernel) (by decide) (by decide +kernel) (by decide +kernel) (by decide +kernel) (slot_core _) rfl

/-- A record of engine 0 whose chain no table maps. -/
def lostSlot : SlotRec := { aSlot 0 with chain := 0x20000, ptroot := none }

/-- The last command of a chain that cannot be read enters faulted. -/
theorem witness_unreadable_chain : let s := engines [] [aSlot 0, lostSlot] []
    readChain s lostSlot = .fault ⟨.xlate, 0x20000⟩ s ∧ s.isFirst lostSlot = true :=
  ⟨faultsWith_eq (by decide +kernel), by decide +kernel⟩

/-- Each reason to stay back: a line of the chain that engine 1 owns; a chain that cannot be read, behind its first
command; the second command of a chain; a slot without V; a trigger of 1 over a counter of 0; and a destination line
that engine 1 owns. -/
theorem witness_StaysBack :
    StaysBack { starting 0 0x8104 with owned := [⟨coreLoc 0 0, 64, some 1⟩] } (aSlot 0) ∧
    StaysBack (engines [] [lostSlot, { lostSlot with seq := 2 }] []) { lostSlot with seq := 2 } ∧
    StaysBack (starting 0 0x8104) { aSlot 0 with seq := 2 } ∧
    StaysBack (starting 0 0x104) (aSlot 0) ∧ StaysBack (starting 0 0x100009104) (aSlot 0) ∧
    StaysBack { starting 0 0x8104 with owned := [⟨coreLoc 0 0x2000, 64, some 1⟩] } (aSlot 0) := by
  have hv : ∀ w0 ∈ [0x104, 0x100009104], (viewAt (starting 0 w0) (aSlot 0)).slot (aSlot 0).seq = pad 0x1040 := by decide +kernel
  have hx (w0 : Nat) := chain_pad (words (chainWords w0)) [aSlot 0] [] 0
  refine ⟨.locked (waits_eq (by decide +kernel)), .unread _ _ (faultsWith_eq (u := engines [] [lostSlot, { lostSlot with seq := 2 }] [])
      (f := ⟨.xlate, 0x20000⟩) (by decide +kernel)) (by decide +kernel), .turn _ (hx _) (by decide +kernel),
    .empty _ _ (hx _) (reads_slot _ _ _ _ (hv _ (by decide))) (by decide +kernel), ?_, ?_⟩
  · obtain ⟨hit, h⟩ := load_pad (s := starting 0 0x100009104) (ag := (aSlot 0).agent) (via := .engine) (o := 0x3000) (n := 8)
      (by decide) (by decide) (by decide) (slot_core _) rfl (free_pad rfl _ _ _) rfl rfl
    refine .trigger _ _ (hx _) (reads_slot _ _ _ _ (hv _ (by decide))) (by decide +kernel) (by decide +kernel) (by decide +kernel)
      (.inr ⟨by decide +kernel, _, by rw [show (slotCommand 0 0x100009104).addr 6 = pad 0x3000 by decide +kernel]; exact h, rfl,
        iff_of_false id ?_⟩)
    show ¬ _ ≤ leNat ((padTargets 0x3000 8).map (targetByte (starting 0 0x100009104) (aSlot 0).agent))
    decide +kernel
  · obtain ⟨hit, h⟩ := load_pad (s := { starting 0 0x8104 with owned := [⟨coreLoc 0 0x2000, 64, some 1⟩] }) (ag := (aSlot 0).agent)
      (via := .engine) (o := 0) (n := 64) (by decide) (by decide) (by decide) (slot_core _) rfl (by decide +kernel) rfl rfl
    obtain ⟨hit', h'⟩ := load_pad (s := { starting 0 0x8104 with owned := [⟨coreLoc 0 0x2000, 64, some 1⟩] }) (ag := (aSlot 0).agent)
      (via := .engine) (o := 0x1040) (n := 64) (by decide) (by decide) (by decide) (slot_core _) rfl (by decide +kernel) rfl rfl
    rw [show pad 0x1040 = (viewAt { starting 0 0x8104 with owned := [⟨coreLoc 0 0x2000, 64, some 1⟩] } (aSlot 0)).slot (aSlot 0).seq by
      decide +kernel] at h'
    refine .lines (viewAt { starting 0 0x8104 with owned := [⟨coreLoc 0 0x2000, 64, some 1⟩] } (aSlot 0)) (slotCommand 0 0x8104)
      [padTargets 0x2000 64] ?_ ⟨_, h', rfl, ?_⟩ (by decide +kernel) (by decide +kernel) (.inl ⟨by decide +kernel, trivial⟩) ?_
      (by decide +kernel)
    · unfold readChain
      rw [show (aSlot 0).chain = pad 0 from rfl, h]
      rfl
    · show slotCommand 0 0x8104 = { slot := aSlot 0, dw := words8 ((padTargets 0x1040 64).map _), phase := .started }
      rw [engine_bytes]
      rfl
    · exact dest_pad (by decide +kernel) (by decide) (by decide +kernel) (by decide +kernel) (by decide +kernel) (slot_core _) rfl

/-- A command of engine e: doublewords 0 to 5 and 7, in a phase. -/
def command (e : Fin 68) (w0 w1 w2 w3 w4 w5 w7 : Word) (p : Phase) : EngCmd :=
  { slot := aSlot e, dw := ⟨#[w0, w1, w2, w3, w4, w5, 0, w7], rfl⟩, phase := p }

/-- Rows of the scratchpad are apart. -/
theorem pad_apart {o n o' n' : Nat} (h : o + n ≤ o' ∨ o' + n' ≤ o) : ∀ x ∈ padTargets o n, x ∉ padTargets o' n' := by
  intro x hx hx'
  obtain ⟨i, hi, rfl⟩ := List.mem_map.mp hx
  obtain ⟨j, hj, e⟩ := List.mem_map.mp hx'
  have := List.mem_range.mp hi
  have := List.mem_range.mp hj
  simp only [Target.mem.injEq, coreLoc] at e
  omega

/-- With or without an arrival at 0x3000. -/
theorem witness_EngineCompletion : base.performedCmd 0 = none ∧
    ∀ w0 ∈ [(0x104 : Word), 0x2104], let c := command 0 w0 0 (pad 0x2000) 0 0 0 (pad 0x3000) .performed
      let s := engines [] [aSlot 0] [c]
      s.performedCmd 0 = some c ∧ s.memoriesWf = true ∧ AllMemory (padTargets 0 8) ∧ AllMemory (padTargets 0x3000 8) ∧
      Sound s (padTargets 0x3000 8) ∧ s.ownedElsewhere c.slot.engine (padTargets 0 8) = false ∧
      s.ownedElsewhere c.slot.engine (padTargets 0x3000 8) = false ∧ (∀ x ∈ padTargets 0x3000 8, x ∉ padTargets 0 8) ∧
      ((c.word 0).getLsbD 13 = true ↔ w0 = 0x2104) ∧
      ∀ touched : Target → Prop, EngineReaches touched s c .store c.slot.chain 8 (padTargets 0 8) ∧
        EngineReaches touched s c .rmw (c.addr 7) 8 (padTargets 0x3000 8) := by
  refine ⟨by decide +kernel, fun w0 hw => ?_⟩
  intro c s
  have ha : c.addr 7 = pad 0x3000 := by show pad 0x3000 &&& 0xFFFFFFFFFFFFF = _; decide +kernel
  have hv : w0 = 0x104 ∨ w0 = 0x2104 := by simpa using hw
  refine ⟨by rcases hv with rfl | rfl <;> decide +kernel, by show base.memoriesWf = true; decide +kernel, allMemory_pad _ _, allMemory_pad _ _, sound_pad _ _ rfl,
    free_pad rfl _ _ _, free_pad rfl _ _ _, pad_apart (by decide), by rcases hv with rfl | rfl <;> decide +kernel, fun touched => ⟨?_, ?_⟩⟩
  · exact engine_pad (by decide) (by decide) (by decide) (by decide) (slot_core _) rfl
  · rw [ha]
    exact engine_pad (by decide) (by decide) (by decide) (by decide) (slot_core _) rfl

/-- A faulted command, and a halted one whose chain has HALT 0 and a good, or malformed, command in its slot. -/
theorem witness_EngineFaults : base.faultedCmd 0 = none ∧
    (let c := command 0 0x104 0 0 0 0 0 0 (.faulted 3 0x40000)
     let s := engines [] [aSlot 0] [c]
     s.faultedCmd 0 = some c ∧ s.memoriesWf = true ∧ (∀ x ∈ padTargets 0x18 8, x ∉ padTargets 0 8) ∧
     Sound s (padTargets 0 8) ∧ Sound s (padTargets 0x18 8) ∧ AllMemory (padTargets 0 8) ∧ AllMemory (padTargets 0x18 8) ∧
     s.ownedElsewhere c.slot.engine (padTargets 0 8 ++ padTargets 0x18 8) = false ∧
     ∀ touched : Target → Prop, EngineReaches touched s c .store c.slot.chain 8 (padTargets 0 8) ∧
       EngineReaches touched s c .rmw (c.slot.chain + 0x18) 8 (padTargets 0x18 8)) ∧
    (∀ w0 ∈ [0x8104, 0x8004], let c := command 0 0x104 0 0 0 0 0 0 .halted
     let s := engines (words (chainWords w0)) [aSlot 0] [c]
     s.engineBusy 0 = false ∧ s.running = [] ++ c :: [] ∧ c.slot.engine = 0 ∧ c.phase = .halted ∧ s.memoriesWf = true ∧
     readChain s c.slot = .ok (s, viewAt s (aSlot 0)) ∧ (viewAt s (aSlot 0)).halt = false ∧
     ReadsCommand s c.slot (viewAt s (aSlot 0)) (slotCommand 0 w0) ∧
     SlotReached s (slotCommand 0 w0) (viewAt s (aSlot 0)) (padTargets 0x1040 8) ∧ (w0 = 0x8004 ↔ (slotCommand 0 w0).malformed = true) ∧
     (w0 = 0x8104 → Triggered s (slotCommand 0 w0) True ∧ (slotCommand 0 w0).dest s = .ok (s, [padTargets 0x2000 64]) ∧
       [padTargets 0x2000 64].any (s.ownedElsewhere 0) = false ∧
       ¬ ((slotCommand 0 w0).isEnqVoid = true ∧ 64 ≤ (0 : Fin 68).val))) ∧
    let c := command 0 0x104 0 0 0 0 0 0 .halted
    let s := engines (words [(0x18, 2 ^ 24)]) [] [c]
    (∀ d ∈ s.running, d.slot.engine = 0 → d.phase = .halted → ∃ v : ChainView, readChain s d.slot = .ok (s, v) ∧ v.halt = true) ∧
    ∀ u v, readChain s lostSlot ≠ .ok (u, v) := by
  refine ⟨by decide +kernel, ⟨by decide +kernel, by decide +kernel, by decide +kernel, sound_pad _ _ rfl, sound_pad _ _ rfl,
    allMemory_pad _ _, allMemory_pad _ _, by decide +kernel, fun touched => ⟨?_, ?_⟩⟩, ?_, fun d hd _ _ => ?_, fun u v h => ?_⟩
  · exact engine_pad (by decide) (by decide) (by decide) (by decide) (slot_core _) rfl
  · rw [show (command 0 0x104 0 0 0 0 0 0 (.faulted 3 0x40000)).slot.chain + 0x18 = pad 0x18 by decide +kernel]
    exact engine_pad (by decide) (by decide) (by decide) (by decide) (slot_core _) rfl
  · intro w0 hw c s
    have ha : (viewAt s (aSlot 0)).slot c.slot.seq = pad 0x1040 := by revert w0; decide +kernel
    have hv : (viewAt s (aSlot 0)).halt = false := by revert w0; decide +kernel
    have hm : s.memoriesWf = true := by revert w0; decide +kernel
    have hb : w0 = 0x8004 ↔ (slotCommand 0 w0).malformed = true := by revert w0; decide +kernel
    refine ⟨by show ([_] : List EngCmd).any _ = false; rfl, rfl, rfl, rfl, hm, chain_pad _ _ _ _, hv, reads_slot _ _ _ _ ha,
      slot_reached ha hm, hb, ?_⟩
    rintro rfl
    refine ⟨.inl ⟨by decide +kernel, trivial⟩, ?_, by decide +kernel, by decide +kernel⟩
    exact dest_pad (by decide +kernel) (by decide) (by decide +kernel) (by decide +kernel) (by decide +kernel) (slot_core _) rfl
  · obtain rfl := List.mem_singleton.mp hd
    exact ⟨_, chain_pad _ _ _ _, by decide +kernel⟩
  · rw [show readChain (engines (words [(0x18, 2 ^ 24)]) [] [command 0 0x104 0 0 0 0 0 0 .halted]) lostSlot = .fault ⟨.xlate, 0x20000⟩ _ from
      faultsWith_eq (u := engines (words [(0x18, 2 ^ 24)]) [] [command 0 0x104 0 0 0 0 0 0 .halted]) (by decide +kernel)] at h
    cases h

/-- A started command of engine 0 of one row of 64 bytes, from 0x1000 to 0x2000, indexes at 0x3000. -/
def copyCommand (op : Word) : EngCmd :=
  command 0 (0x100 + op) (pad 0x1000) (pad 0x2000) (if op = 1 then 64 else 2 ^ 32 + 64) (pad 0x3000) 0 0 .started

/-- The module that runs it. -/
def copying (op : Word) : State := engines [] [] [copyCommand op]

theorem dest_reached {op : Word} (hop : op ∈ [(1 : Word), 2, 3, 4, 5]) :
    DestReached (copying op) (copyCommand op) (fun _ => padTargets 0x2000 64) := by
  have hv : op = 1 ∨ op = 2 ∨ op = 3 ∨ op = 4 ∨ op = 5 := by simpa using hop
  have hr : (copyCommand op).rows = 1 := by rcases hv with rfl | rfl | rfl | rfl | rfl <;> decide +kernel
  have ha : destAddr (copyCommand op) 0 = pad 0x2000 := by rcases hv with rfl | rfl | rfl | rfl | rfl <;> decide +kernel
  have hl : (copyCommand op).len = 64 := by rcases hv with rfl | rfl | rfl | rfl | rfl <;> decide +kernel
  refine ⟨by show base.memoriesWf = true; decide +kernel, fun r h => ?_, fun r h => sound_pad _ _ rfl, fun r r' i i' x h h' e e' => ⟨by omega, ?_⟩⟩
  · obtain rfl : r = 0 := by omega
    rw [ha, hl]
    exact engine_pad (by decide) (by decide) (by decide) (by decide) (slot_core _) rfl
  · obtain ⟨hi, hx⟩ := List.getElem?_eq_some_iff.mp e
    obtain ⟨hi', hx'⟩ := List.getElem?_eq_some_iff.mp e'
    have := hx.trans hx'.symm
    simp only [padTargets, List.getElem_map, List.getElem_range, Target.mem.injEq] at this
    omega

theorem source_reached {op : Word} (hop : op ∈ [(1 : Word), 2, 3, 5]) :
    SourceReached (copying op) (copyCommand op) (fun _ => padTargets 0x2000 64) (fun _ => padTargets 0x1000 64)
      (fun _ => padTargets 0x3000 4) := by
  have hv : op = 1 ∨ op = 2 ∨ op = 3 ∨ op = 5 := by simpa using hop
  have hr : (copyCommand op).rows = 1 := by rcases hv with rfl | rfl | rfl | rfl <;> decide +kernel
  have hl : (copyCommand op).len = 64 := by rcases hv with rfl | rfl | rfl | rfl <;> decide +kernel
  have ho : ∀ o n, (copying op).ownedElsewhere 0 (padTargets o n) = false := by
    intro o n
    unfold State.ownedElsewhere padTargets
    rw [List.any_eq_false]
    intro x hx
    obtain ⟨i, _, rfl⟩ := List.mem_map.mp hx
    exact Bool.false_ne_true
  refine ⟨fun h5 r h => ?_, fun r h => ?_, fun r h => sound_pad _ _ rfl, fun r h => ho _ _, fun r h x hx => ?_⟩
  · obtain rfl : r = 0 := by omega
    have ha : (copyCommand op).word 4 + BitVec.ofNat 64 (4 * 0) = pad 0x3000 := by
      show pad 0x3000 + 0 = _; decide +kernel
    refine ⟨by rw [ha]; exact engine_pad (by decide) (by decide) (by decide) (by decide) (slot_core _) rfl, sound_pad _ _ rfl, ho _ _, ?_⟩
    rintro x hx ⟨_, _, hx'⟩
    exact pad_apart (by decide) x hx hx'
  · obtain rfl : r = 0 := by omega
    have ha : sourceAddr (copyCommand op) (numberAt (copying op) (copyCommand op).slot.agent (padTargets 0x3000 4)) 0 = pad 0x1000 := by
      rcases hv with rfl | rfl | rfl | rfl <;> decide +kernel
    rw [ha, hl]
    exact engine_pad (by decide) (by decide) (by decide) (by decide) (slot_core _) rfl
  · rintro ⟨_, _, hx'⟩
    exact pad_apart (by decide) x hx hx'

theorem witness_EngineCopyResults : ((copying 1).startedOp 0 1 = some (copyCommand 1) ∧ (copying 2).startedOp 0 2 = some (copyCommand 2) ∧
      (copying 3).startedOp 0 3 = some (copyCommand 3) ∧ (copying 5).startedOp 0 5 = some (copyCommand 5)) ∧
    (∀ op ∈ [(1 : Word), 2, 3, 5], (copyCommand op).ds = false ∧
      DestReached (copying op) (copyCommand op) (fun _ => padTargets 0x2000 64) ∧
      SourceReached (copying op) (copyCommand op) (fun _ => padTargets 0x2000 64) (fun _ => padTargets 0x1000 64)
        (fun _ => padTargets 0x3000 4)) ∧
    ((copying 4).startedOp 0 4 = some (copyCommand 4) ∧ (copyCommand 4).ds = false ∧
      DestReached (copying 4) (copyCommand 4) (fun _ => padTargets 0x2000 64)) ∧
    (copying 0).startedOp 0 0 = some (copyCommand 0) ∧ base.startedOp 0 1 = none := by
  refine ⟨⟨by decide +kernel, by decide +kernel, by decide +kernel, by decide +kernel⟩, fun op hop => ?_,
    ⟨by decide +kernel, by decide +kernel, dest_reached (by decide)⟩, by decide +kernel, by decide +kernel⟩
  have hv : op = 1 ∨ op = 2 ∨ op = 3 ∨ op = 5 := by simpa using hop
  exact ⟨by rcases hv with rfl | rfl | rfl | rfl <;> decide +kernel, dest_reached (by rcases hv with rfl | rfl | rfl | rfl <;> decide),
    source_reached hop⟩

/-- A copy of 64 bytes into q1 of the hart, and a delivery that has stalled with the given bytes. -/
def streamCommand (p : Phase) : EngCmd := command 0 0x4102 (pad 0x1000) 0x1000 (2 ^ 32 + 64) 0 0 0 p

/-- The hart of `base` whose q1 holds unread bytes of another command, or none. -/
def buffered (data : List Byte) : Hart :=
  (hartAt 4).setStream 1 ({ live := true, ce := 3, seq := 9, pos := 0, total := 64, data := data } : StreamBuf)

theorem witness_StreamDeliveries :
    (let s := engines [] [] [streamCommand .started]
     s.startedOp 0 2 = some (streamCommand .started) ∧ (streamCommand .started).ds = true ∧
     (∃ h, s.placedHart (streamCommand .started).hartid = some h ∧ h.region = (streamCommand .started).slot.region ∧
       (h.stream (streamCommand .started).streamReg).of (streamCommand .started) = false ∧
       (h.stream (streamCommand .started).streamReg).live = false) ∧
     s.memoriesWf = true ∧
     SourceReached s (streamCommand .started) (fun _ => []) (fun _ => padTargets 0x1000 64) (fun _ => [])) ∧
    (let s : State := { engines [] [] [streamCommand .started] with hart := { hartAt 4 with region := 1 } }
     ∀ h, s.placedHart (streamCommand .started).hartid = some h → h.region ≠ (streamCommand .started).slot.region) ∧
    (∀ d ∈ [[], [(7 : Byte)]], ((buffered d).stream 1).of (streamCommand .started) = false ∧ ((buffered d).stream 1).live = true ∧
      ((buffered d).stream 1).data = d ∧ (buffered d).region = 0) ∧
    base.running.find? (fun _ => true) = none ∧
    let rest : List Byte := [7]
    let c := streamCommand (.stalled rest)
      let s : State := { engines [] [] [c] with
        hart := (hartAt 4).setStream 1 ({ live := true, ce := 0, seq := 1, pos := 0, total := 64, data := [] } : StreamBuf) }
      s.running.find? (fun c => c.slot.engine.val == 0 && match c.phase with
        | .stalled _ => true
        | _ => false) = some c ∧ c.phase = .stalled rest ∧
      (∃ h, s.placedHart c.hartid = some h ∧ h.region = c.slot.region ∧ (h.stream c.streamReg).of c = true) ∧
      ((buffered [7]).stream c.streamReg).live = true ∧ ((buffered [7]).stream c.streamReg).of c = false := by
  refine ⟨⟨by decide +kernel, by decide +kernel, ⟨_, rfl, rfl, by decide +kernel, by decide +kernel⟩, by decide +kernel, ?_⟩,
    ?_, by decide +kernel,
    rfl, by decide +kernel, rfl, ⟨(hartAt 4).setStream 1 { live := true, ce := 0, seq := 1, pos := 0, total := 64, data := [] },
    by decide +kernel, rfl, by decide +kernel⟩, by decide +kernel, by decide +kernel⟩
  rotate_left
  · intro s h e
    have hs : s.placedHart (streamCommand .started).hartid = some { hartAt 4 with region := 1 } := by decide +kernel
    obtain rfl := Option.some.inj (hs.symm.trans e)
    decide
  have hr : (streamCommand .started).rows = 1 := by decide +kernel
  refine ⟨fun h => absurd h (by decide +kernel), fun r h => ?_, fun r h => sound_pad _ _ rfl, fun r h => by decide +kernel, ?_⟩
  · obtain rfl : r = 0 := by omega
    rw [show sourceAddr (streamCommand .started) _ 0 = pad 0x1000 by decide +kernel,
      show (streamCommand .started).len = 64 by decide +kernel]
    exact engine_pad (by decide) (by decide) (by decide) (by decide) (slot_core _) rfl
  · rintro r h x hx ⟨_, _, hx'⟩
    cases hx'

/-! ### Witnesses: memory services -/

/-- A memory service command on the page at 0x10000, which `paged` maps to frame 4. -/
def pageCommand (op w2 w3 : Word) : EngCmd := command 64 (0x100 + op) 0x10000 w2 w3 0 0 0 .started

/-- The module that runs it, with the moves of frames. -/
def servicing (op w2 w3 : Word) (moves : SMap (List Nat)) : State :=
  { paged with running := [pageCommand op w2 w3], ctl := { paged.ctl with moves := moves } }

theorem frame_page {op w2 w3 : Word} {u : State} (h : Paged u (aSlot 64).agent) :
    serviceFrame (pageCommand op w2 w3) 0 u = .ok (u, 4) := by
  have ha : (pageCommand op w2 w3).addr 1 + BitVec.ofNat 64 (65536 * 0) = BitVec.ofNat 64 (0x10000 + 0) := by
    show (0x10000 &&& 0xFFFFFFFFFFFFF : Word) + 0 = _
    decide +kernel
  have hf : u.frameRefused (pageCommand op w2 w3).slot.secure 4 = false := by
    unfold State.frameRefused State.dieSecure
    rw [h.world]
    rfl
  unfold serviceFrame
  dsimp only
  rw [ha, show (pageCommand op w2 w3).slot = aSlot 64 from rfl, translate_page (by decide) h]
  dsimp only
  rw [if_neg (by decide), show (0x40000 + 0) / 65536 = 4 from rfl]
  rw [show (pageCommand op w2 w3).slot = aSlot 64 from rfl] at hf
  rw [hf]
  rfl

theorem wrg_paged : paged.wrg = [] := by decide +kernel
theorem sparing_paged : paged.ctl.sparing = false := by decide +kernel
theorem owned_paged : paged.owned = [] := by decide +kernel
theorem errors_paged : paged.ctl.bad = [] ∧ paged.ctl.blockMeta = [] := by decide +kernel

theorem cores_servicing {op w2 w3 : Word} {moves : SMap (List Nat)} : (servicing op w2 w3 moves).cores = paged.cores := by
  simp only [servicing]

/-- No unit of it has an error. -/
theorem sound_servicing {op w2 w3 : Word} {moves : SMap (List Nat)} (b : Nat) : (servicing op w2 w3 moves).badUnit b = false :=
  sound_of (bad := []) errors_paged.1 errors_paged.2 rfl

/-- The module that runs it has those tables, also after writes elsewhere. -/
theorem paged_servicing {op w2 w3 : Word} {moves : SMap (List Nat)} {touched : Target → Prop} {u : State}
    (hu : Mapped (some 64) touched (servicing op w2 w3 moves) u) (h : ∀ loc : Nat, touched (.mem loc) → 0x40000 ≤ loc) :
    Paged u (aSlot 64).agent where
  tables := fun loc hloc => hu.bytes loc fun ht => by have := h loc ht; omega
  world := by rw [hu.world.1]; exact wrg_paged
  sparing := by rw [hu.sparing]; exact sparing_paged
  root := rfl
  pins := rfl
  tlb := by
    rw [slot_core]
    unfold State.coreSt
    rw [hu.world.2.2.1, cores_servicing]
    exact tlb_paged
  free := fun loc => by
    rw [show (aSlot 64).agent.engine = some 64 from rfl, hu.owned loc]
    unfold State.ownedLoc
    rw [show (servicing op w2 w3 moves).owned = [] from owned_paged]
    rfl
  sound := fun b hb => by
    cases e : u.badUnit b with
    | false => rfl
    | true =>
      have := hu.bad b e
      rw [sound_servicing] at this
      cases this

theorem free_servicing {op w2 w3 : Word} {moves : SMap (List Nat)} : (servicing op w2 w3 moves).owned = [] := owned_paged

theorem unowned_servicing {op w2 w3 : Word} {moves : SMap (List Nat)} (f : Nat) : (servicing op w2 w3 moves).frameOwned f = false := by
  unfold State.frameOwned
  rw [free_servicing]
  rfl

theorem pages_reached {op w3 : Word} {moves : SMap (List Nat)} {touched : Target → Prop}
    (hm : (servicing op 1 w3 moves).mapsWf = true) (h : ∀ loc : Nat, touched (.mem loc) → 0x40000 ≤ loc) :
    PagesReached touched (servicing op 1 w3 moves) (pageCommand op 1 w3) 1 (fun _ => 4) := by
  refine ⟨hm, fun j hj u hu => ?_, fun j _ => unowned_servicing _⟩
  obtain rfl : j = 0 := by omega
  exact frame_page (paged_servicing hu h)

/-- What it changes of a module leaves the maps in their form. -/
theorem maps_moved {s : State} {run : List EngCmd} {moves : SMap (List Nat)} (h : s.mapsWf = true) (hm : mapWf [] moves = true) :
    State.mapsWf { s with running := run, ctl := { s.ctl with moves := moves } } = true := by
  unfold State.mapsWf State.memoriesWf at h ⊢
  simp only [Bool.and_eq_true] at h ⊢
  simp only [h, hm, and_true]

theorem maps_servicing (op w2 w3 : Word) {moves : SMap (List Nat)} (h : mapWf [] moves = true) : (servicing op w2 w3 moves).mapsWf = true := by
  have hm : paged.mapsWf = true := by decide +kernel
  unfold servicing
  exact maps_moved hm h

theorem pages_one {op w3 : Word} : (pageCommand op 1 w3).pages = 1 := by show bitsOf (1 : Word).toNat 0 32 = 1; decide

theorem started_service (op w2 w3 : Word) (moves : SMap (List Nat)) (h : (pageCommand op w2 w3).op = op.toNat) :
    (servicing op w2 w3 moves).startedOp 64 op.toNat = some (pageCommand op w2 w3) := by
  unfold State.startedOp
  rw [show (servicing op w2 w3 moves).running = [pageCommand op w2 w3] from rfl, List.find?_cons_of_pos]
  rw [h]
  rw [show (pageCommand op w2 w3).slot.engine.val = 64 from rfl, show (pageCommand op w2 w3).phase = .started from rfl]
  simp

/-- The four services of one page; HOTREAD writes to the scratchpad. -/
theorem witness_PageServiceResults : (servicing 16 1 1 []).startedOp 64 16 = some (pageCommand 16 1 1) ∧
    (servicing 17 1 0 []).startedOp 64 17 = some (pageCommand 17 1 0) ∧
    (servicing 18 1 (pad 0x3000) []).startedOp 64 18 = some (pageCommand 18 1 (pad 0x3000)) ∧
    (servicing 19 1 0 []).startedOp 64 19 = some (pageCommand 19 1 0) ∧ base.startedOp 64 16 = none ∧
    (∀ p ∈ [((16 : Word), (1 : Word)), (17, 0), (19, 0)], (pageCommand p.1 1 p.2).pages = 1 ∧
      PagesReached (fun x => ∃ loc : Nat, x = .mem loc ∧ IsPage 1 (fun _ => 4) (loc / 65536)) (servicing p.1 1 p.2 [])
        (pageCommand p.1 1 p.2) 1 (fun _ => 4)) ∧
    (∀ b : Nat, (servicing 16 1 1 []).badUnit b = false) ∧
    IsPage 1 (fun _ => 4) 4 ∧ ¬ IsPage 1 (fun _ => 4) 5 ∧
    PagesReached (fun x => ∃ j : Nat, j < 1 ∧ x ∈ padTargets 0x3000 8) (servicing 18 1 (pad 0x3000) [])
      (pageCommand 18 1 (pad 0x3000)) 1 (fun _ => 4) ∧
    AllMemory (padTargets 0x3000 8) ∧ Sound (servicing 18 1 (pad 0x3000) []) (padTargets 0x3000 8) ∧
    (servicing 18 1 (pad 0x3000) []).ownedElsewhere 64 (padTargets 0x3000 8) = false ∧
    EngineReaches (fun x => ∃ j : Nat, j < 1 ∧ x ∈ padTargets 0x3000 8) (servicing 18 1 (pad 0x3000) []) (pageCommand 18 1 (pad 0x3000))
      .store ((pageCommand 18 1 (pad 0x3000)).word 3 + BitVec.ofNat 64 (8 * 0)) 8 (padTargets 0x3000 8) := by
  have hs : ((servicing 18 1 (pad 0x3000) []).coreSt 0).secure = false := by
    unfold State.coreSt
    rw [cores_servicing]
    decide +kernel
  refine ⟨started_service 16 _ _ _ (by decide +kernel), started_service 17 _ _ _ (by decide +kernel),
    started_service 18 _ _ _ (by decide +kernel), started_service 19 _ _ _ (by decide +kernel), by decide +kernel,
    fun p hp => ⟨pages_one, pages_reached (maps_servicing _ _ _ rfl) ?_⟩, sound_servicing, ⟨0, by decide, rfl⟩,
    fun ⟨_, _, h⟩ => absurd (show (4 : Nat) = 5 from h) (by decide), pages_reached (maps_servicing _ _ _ rfl) ?_, allMemory_pad _ _,
    sound_pad _ _ errors_paged.1, free_pad free_servicing _ _ _, ?_⟩
  · rintro loc ⟨l, e, j, _, h4⟩
    injection e with e
    subst e
    dsimp only at h4
    omega
  · rintro loc ⟨_, _, h⟩
    obtain ⟨i, _, e⟩ := List.mem_map.mp h
    injection e with e
    simp only [coreLoc] at e
    omega
  · rw [show (pageCommand 18 1 (pad 0x3000)).word 3 + BitVec.ofNat 64 (8 * 0) = pad 0x3000 by
      show pad 0x3000 + 0 = _; decide +kernel]
    exact engine_pad (by decide) (by decide) (by decide) (by decide) (slot_core _) hs

/-- A page that moves to frame 6, and one that has moved four times. -/
theorem witness_PageMigration : ∀ m ∈ [([] : SMap (List Nat)), [(4, [0, 0, 0, 0])]], let s := servicing 20 0 0x60000 m
    let c := pageCommand 20 0 0x60000
    s.startedOp 64 20 = some c ∧ s.mapsWf = true ∧ serviceFrame c 0 s = .ok (s, 4) ∧ s.frameOwned 4 = false ∧
    physCheck s c.slot.secure (c.word 3 &&& 0xFFFFFFFF0000).toNat = none ∧ s.physLoc (c.word 3 &&& 0xFFFFFFFF0000).toNat / 65536 = 6 ∧
    s.frameRefused c.slot.secure 6 = false ∧ (∀ b : Nat, s.badUnit b = false) ∧ s.frameOwned 6 = false ∧
    (4 ≤ ((mapGet [] s.ctl.moves 4).filter fun x => s.time < x + 5600000).length ↔ m ≠ []) := by
  intro m hm s c
  have h4 : physCheck s c.slot.secure (c.word 3 &&& 0xFFFFFFFF0000).toNat = none := by revert m; decide +kernel
  have h5 : s.physLoc (c.word 3 &&& 0xFFFFFFFF0000).toNat / 65536 = 6 := by revert m; decide +kernel
  have h6 : s.frameRefused c.slot.secure 6 = false := by revert m; decide +kernel
  have h7 : mapWf [] m = true := by revert m; decide +kernel
  have h8 : 4 ≤ ((mapGet [] s.ctl.moves 4).filter fun x => s.time < x + 5600000).length ↔ m ≠ [] := by revert m; decide +kernel
  have hp : Paged s (aSlot 64).agent :=
    { tables := fun _ _ => rfl, world := wrg_paged, sparing := sparing_paged, root := rfl, pins := rfl
      tlb := by rw [slot_core]; unfold State.coreSt; rw [cores_servicing]; exact tlb_paged
      free := fun loc => by
        unfold State.ownedLoc
        rw [show s.owned = [] from owned_paged]
        rfl
      sound := fun b _ => sound_servicing b }
  exact ⟨started_service 20 _ _ _ (by decide +kernel), maps_servicing _ _ _ h7, frame_page hp, unowned_servicing _, h4, h5, h6,
    sound_servicing, unowned_servicing _, h8⟩

/-! ### Witnesses: the Helm and the Gimbal -/

/-- A tree of one region at 0x50000 with one record at 0x51000 of one gang of one hart, ENTRY in the page of `paged`. -/
def launching : State :=
  { paged with
    hart := Hart.reset, host := upAndRunning.host, helm := { paged.helm with root := 0x50001 }
    mem := [(0x50018, 0x51000), (0x50020, 0x3000), (0x50038, 0x10000), (0x51008, 0x10000), (0x51018, 0x10001)].foldl
      (fun m p => writeNat m p.1 8 p.2) paged.mem }

/-- The region as the walk finds it. -/
def launchLeaf : Leaf := (launching.tree.leaves.head?).getD aLeaf

theorem launch_tree : launching.tree = { seen := [launchLeaf.rcb], leaves := [launchLeaf], bad := [], unread := [], waits := false } := by
  have hl : launching.tree.leaves.length = 1 := by decide +kernel
  have hs : launching.tree.seen = [launchLeaf.rcb] := by decide +kernel
  have hb : launching.tree.bad = [] := by decide +kernel
  have hu : launching.tree.unread = [] := by decide +kernel
  have hw : launching.tree.waits = false := by decide +kernel
  obtain ⟨x, hx⟩ := List.length_eq_one_iff.mp hl
  have he : launchLeaf = x := by unfold launchLeaf; rw [hx]; rfl
  cases ht : launching.tree with
  | mk seen leaves bad unread waits =>
    rw [ht] at hs hb hx hu hw
    dsimp only at hs hb hx hu hw
    rw [hs, hb, hx, he, hu, hw]

/-- The region's gang record is the one that the walk comes to, in its own world. -/
theorem launch_current : launchLeaf.current launching = .found 0x51000 false := by
  have h : (match launchLeaf.current launching with
    | .found a w => a == 0x51000 && w == false
    | _ => false) = true := by decide +kernel
  cases e : launchLeaf.current launching with
  | found a w =>
    rw [e] at h
    simp only [Bool.and_eq_true, beq_iff_eq] at h
    rw [h.1, h.2]
  | _ => rw [e] at h; cases h

theorem launch_check : checkRecord launchLeaf.eff 0x51000 launching = .sound launching true := by
  have h : (match checkRecord launchLeaf.eff 0x51000 launching with
    | .sound u m => decide (u = launching) && m
    | _ => false) = true := by decide +kernel
  cases e : checkRecord launchLeaf.eff 0x51000 launching with
  | sound u m =>
    rw [e] at h
    simp only [Bool.and_eq_true, decide_eq_true_eq] at h
    rw [h.1, h.2]
  | _ => rw [e] at h; cases h

theorem witness_HelmWalks : base.helm.root.getLsbD 0 = false ∧ base.helm.todo = [] ∧ Launchable launching launchLeaf 0x51000 0 ∧ launching.mapsWf = true ∧
    recH launching 0x51000 = 1 ∧ let s : State := { launching with helm := { launching.helm with root := 1 } }
    s.helmOn = true ∧ s.helm.todo = [] ∧ s.helm.root &&& 0xFFFFFFFFFF00 = 0 :=
  ⟨by decide +kernel, rfl, ⟨by decide +kernel, by decide +kernel, launch_tree, ⟨rfl, rfl, rfl⟩, rfl, ⟨_, launch_current⟩, by decide +kernel, launch_check,
    by decide +kernel, by decide +kernel, by decide +kernel, by decide +kernel, by decide +kernel⟩, by decide +kernel, by decide +kernel,
    by decide +kernel, by decide +kernel, by decide +kernel⟩

/-- A gang of one record with its pre-emption request. -/
def aGang (p : Option Nat) : Gang := { newGang aLeaf 0x50000 State.reset 0 1 with id := 3, preemptAt := p }

/-- Its hart parked, another hart of the gang placed or not, at a cycle. -/
def leaving (p : Option Nat) (other : Bool) (time : Nat) : State :=
  { base with
    hart := { hartAt 4 with run := .parked, gang := 3 }
    others := if other then [{ hartAt 4 with gang := 3, csr := { (hartAt 4).csr with hartid := 1 } }] else []
    helm := { base.helm with gangs := [aGang p] }, time := time }

theorem witness_HartsLeave : base.hart.settled = false ∧
    (let s : State := { base with hart := { hartAt 4 with run := .parked } }
     s.hart.settled = true ∧ s.gang? s.hart.gang = none) ∧
    (∀ p ∈ [none, some 0], ∀ o : Bool, let s := leaving p o 0
      s.hart.settled = true ∧ s.gang? s.hart.gang = some (aGang p) ∧ (aGang p).preemptAt = p ∧ (aGang p).yielded = [] ∧
      ((∀ h ∈ s.others, h.gang = (aGang p).id → h.run = .vacant) ↔ o = false)) ∧
    (∀ g ∈ (leaving (some 0) false 0).helm.gangs, ∀ t : Nat, g.preemptAt = some t → (leaving (some 0) false 0).time < t + 700000) ∧
    let s := leaving (some 0) true 700000
    s.helm.gangs.find? s.overdue = some (aGang (some 0)) ∧ s.gang? (aGang (some 0)).id = some (aGang (some 0)) ∧
      (aGang (some 0)).preempted = false := by
  refine ⟨by decide +kernel, ⟨by decide +kernel, by decide +kernel⟩, by decide +kernel, ?_, by decide +kernel, by decide +kernel, by decide +kernel⟩
  intro g hg t ht
  obtain rfl := List.mem_singleton.mp hg
  cases ht
  decide

theorem sole {s : State} (h : s.hart.run ≠ .vacant) (ho : s.others = []) : SoleInPartition s :=
  ⟨h, by rw [ho]; intro _ h; cases h⟩

/-- A hart with issued work left, its cap exhausted or not, and a producer of v5 and of w1. -/
def issued (relCap : Nat) : State :=
  { base with hart := { hartAt 4 with groups := 2, relCap := relCap, filling := [(5, 9), (33, 9)] } }

theorem witness_IssueSlots : (∀ h ∈ base.boundHarts, h.viqReady = false) ∧ base.hart.csr.status.cd = false ∧ base.slotFree = true ∧
    (let s : State := { base with hart := { hartAt 4 with used := 1 } }
     s.slotFree = false) ∧
    (let s : State := { base with hart := { hartAt 4 with csr := { (hartAt 4).csr with status := { (hartAt 4).csr.status with cd := true } } } }
     s.slotFree = true ∧ (∀ h ∈ s.boundHarts, h.viqReady = false) ∧ s.hart.csr.status.cd = true ∧ SoleInPartition s) ∧
    (∀ k, SoleInPartition (issued k) ∧ (issued k).hart.csr.status.cd = false ∧ 0 < (issued k).hart.groups ∧ (issued k).hart.viq = [] ∧
      (issued k).hart.used.getLsbD 0 = false) ∧
    (issued 8).capped (issued 8).hart = false ∧ (issued 0).capped (issued 0).hart = true ∧
    (∀ x ∈ (issued 8).hart.filling, x.1 ≠ 6) ∧ (∃ x ∈ (issued 8).hart.filling, x.1 = 32 + (1 : Fin 32).val % 8) :=
  ⟨by decide +kernel, rfl, by decide +kernel, by decide +kernel,
    ⟨by decide +kernel, by decide +kernel, rfl, sole (by show Run.running ≠ .vacant; decide) rfl⟩,
    fun _ => ⟨sole (by show Run.running ≠ .vacant; decide) rfl, rfl, Nat.zero_lt_two, rfl,
      show BitVec.getLsbD (hartAt 4).used 0 = false by decide +kernel⟩, by decide +kernel,
    by decide +kernel, by decide +kernel, ⟨(33, 9), by decide +kernel, rfl⟩⟩

/-- A die that gets hot; readings of power on both sides of the limit; and one that rises by more than LIMIT over a
reading of the last microsecond. -/
theorem witness_IssueCaps : ({ base with agenda := [.heat 1] } : State).agenda = .heat 1 :: [] ∧ base.powered = true ∧
    base.hotDies = 0 ∧ ({ base with hotDies := 1 } : State).hotDies ≠ 0 ∧ 2600 < (3000 : BitVec 16).toNat ∧
    base.helm.powers = [] ∧ ¬ 2600 < (1000 : BitVec 16).toNat ∧
    let s : State := { base with time := 1000, helm := { base.helm with powers := [(700, 800)] } }
    ∃ p ∈ s.helm.powers.filter (fun p => decide (s.time ≤ p.1 + 700)), p.2.toNat + s.helm.limit.toNat < (1000 : BitVec 16).toNat :=
  ⟨rfl, rfl, rfl, by decide, by decide, rfl, by decide, (700, 800), by decide +kernel, by decide +kernel⟩

/-- A ballast whose taper step is due, and one whose taper has not begun. -/
def aBallast (t : Bool) : Ballast := { slot := 0, partition := 0, ste := false, duty0 := 4, duty := 2, tapering := t, stepAt := 0, counted := 0, part := 4, live := true }

/-- Both are ballast of a hart slot of a core. -/
theorem taper_cores : let s : State := { base.setCore 0 { CoreSt.reset with ballast := [aBallast true, aBallast false] } with time := 350 }
    ∀ n : Nat, ∀ b ∈ (s.coreSt n).ballast, n < 512 ∧ b.slot < 8 := by
  intro s n b hb
  have hs : s.cores = [(0, { CoreSt.reset with ballast := [aBallast true, aBallast false] })] := by decide +kernel
  unfold State.coreSt at hb
  rw [hs] at hb
  unfold mapGet at hb
  split at hb
  · next h =>
    simp only [List.mem_cons, List.not_mem_nil, or_false] at hb
    refine ⟨by omega, ?_⟩
    rcases hb with rfl | rfl <;> decide
  · cases hb

theorem witness_RampAndTaper : (let s : State := { base.setCore 0 { CoreSt.reset with ballast := [aBallast true, aBallast false] } with time := 350 }
     s.mapsWf = true ∧ (∀ n : Nat, ∀ b ∈ (s.coreSt n).ballast, n < 512 ∧ b.slot < 8) ∧
     (s.coreSt 0).ballast = [aBallast true, aBallast false] ∧ TaperDue s (aBallast true) ∧
     ¬ TaperDue s (aBallast false)) ∧
    let s : State := { base with time := 175, hart := { hartAt 4 with relCap := 3, relAt := 0 } }
    (∀ h ∈ s.others, h.run = .vacant ∨ h.csr.hartid ≠ s.hart.csr.hartid) ∧ (∀ h ∈ s.hart :: s.others, h.viqReady = false) ∧
      (∃ h ∈ (stripped 5 [heldOf .vlsync []]).hart :: base.others, h.viqReady = true) ∧ base.slotNow = base.helm.slot ∧
      s.hart.run ≠ .vacant ∧ s.hart.relCap < 8 ∧ s.hart.relAt + 175 ≤ s.time ∧ s.mapsWf = true ∧
      mapGet 0 s.helm.rise s.slotNow + (s.hartPart s.hart + 7) / 8 ≤ 16 * s.helm.limit.toNat :=
  ⟨⟨by decide +kernel, taper_cores, by decide +kernel, ⟨rfl, by decide, by decide⟩, fun h => by cases h.1⟩, fun _ h => (nomatch h), by decide +kernel, by decide +kernel, by decide +kernel, by decide +kernel, by decide, by decide,
    by decide +kernel, by decide +kernel⟩

/-! ### Witnesses: samples, the step and the invariants -/

/-- The record of a tagged ADD. -/
def aTag : Tag :=
  { pc := 0x10000, enc := 0x84, fetched := 3, vector := false, trapped := false, restarted := false, code := 0, vl := 4, vstart := 0
    vtype := 2, masked := false, mask := 0 }

/-- A hart with that record and its buffer at 0x4000 of the scratchpad. -/
def tagged (on : Bool) : State :=
  { base with hart := { hartAt 4 with
      tagDone := [aTag], csr := { (hartAt 4).csr with sampctl := pad 0x4000 ||| if on then 1 else 0 } } }

theorem witness_Sampling : base.hart.tagDone = [] ∧ (∀ b, (tagged b).hart.tagDone = aTag :: [] ∧ (tagged b).hart.csr.sampctl.getLsbD 0 = b) ∧
    let s := tagged true
    let at0 := s.hart.csr.sampctl &&& 0xFFFFFFFFFF000
    let ag : Agent := { s.hart.agent with sup := false }
    let ts (j : Nat) : List Target := padTargets (0x4100 + 8 * j) 8
    let touched (x : Target) : Prop := x ∈ padTargets 0x4000 8 ∨ ∃ j : Nat, j < 32 ∧ x ∈ ts j
    let reaches (k : Kind) (va : Word) (l : List Target) : Prop :=
      ∀ u : State, Mapped none touched s u → locate ag .scalar k 2 u va 8 = .ok (u, l)
    s.memoriesWf = true ∧ reaches .load at0 (padTargets 0x4000 8) ∧ reaches .store at0 (padTargets 0x4000 8) ∧
    numberSeen s ag (padTargets 0x4000 8) = 0 ∧ AllMemory (padTargets 0x4000 8) ∧ Sound s (padTargets 0x4000 8) ∧
    (padTargets 0x4000 8).any (s.ownedTarget none) = false ∧
    (∀ j : Nat, j < 32 → AllMemory (ts j) ∧ Sound s (ts j) ∧ (ts j).any (s.ownedTarget none) = false ∧ reaches .store (at0 + BitVec.ofNat 64 (256 * (1 + 0 % 15)) + BitVec.ofNat 64 (8 * j)) (ts j)) ∧
    ∀ j j' : Nat, j < 32 → j' < 32 → j ≠ j' → ∀ x ∈ ts j, x ∉ ts j' ∧ x ∉ padTargets 0x4000 8 := by
  refine ⟨rfl, fun b => ⟨rfl, by revert b; decide +kernel⟩, ?_⟩
  intro s at0 ag ts touched reaches
  have ha : at0 = pad 0x4000 := by decide +kernel
  have hc : ag.core = 0 := core_zero (h := s.hart) rfl
  have go : ∀ (k : Kind) (o : Nat), k ≠ .fetch → o % 4096 + 8 ≤ 4096 → o < 2 ^ 19 → reaches k (pad o) (padTargets o 8) := by
    intro k o hk ho ho' u hu
    refine locate_pad ho (by decide) ho' hk hc ?_ _
    unfold State.coreSt
    rw [hu.world.2.2.1]
    rfl
  refine ⟨by decide +kernel, ha ▸ go _ _ (by decide) (by decide) (by decide), ha ▸ go _ _ (by decide) (by decide) (by decide),
    by decide +kernel, allMemory_pad _ _, sound_pad _ _ rfl, free_pad rfl _ _ _,
    fun j hj => ⟨allMemory_pad _ _, sound_pad _ _ rfl, free_pad rfl _ _ _, ?_⟩, ?_⟩
  · have : at0 + BitVec.ofNat 64 (256 * (1 + 0 % 15)) + BitVec.ofNat 64 (8 * j) = pad (0x4100 + 8 * j) := by
      rw [ha]
      unfold pad
      rw [← BitVec.ofNat_add, ← BitVec.ofNat_add]
      congr 1
      omega
    rw [this]
    exact go _ _ (by decide) (by omega) (by omega)
  · intro j j' hj hj' hne x hx
    exact ⟨pad_apart (by omega) x hx, pad_apart (by omega) x hx⟩

/-! #### The strip log -/

/-- A strip that opened at 0x10010 with VL 4. -/
def aStrip : OpenStrip := { pc := 0x10010, vl := 4, vtype := 2, start := 0, arith := 1, mem := 2, tile := 3, ballast := 4 }

/-- A hart that logs its strips from an address on, in 16 records, with a strip open or none. -/
def logs (h : Hart) (at0 : Word) (o : Option OpenStrip) : Hart :=
  { h with openStrip := o, csr := { h.csr with striplog := at0 ||| 1 } }

/-- The module with that hart. -/
def logging (s : State) (at0 : Word) (o : Option OpenStrip) : State := { s with hart := logs s.hart at0 o }

/-- A log in the scratchpad reaches its first record. -/
theorem logReached_of {s : State} (hon : s.hart.csr.stripEn = true) (hwf : s.memoriesWf = true) (hs : stripRecords s.hart = 16)
    (ho : s.hart.stripOut = []) (hp : s.hart.pend = []) (hb : s.landOwn = s)
    (hr : ∀ j ∈ [0, 1, 2, 3], recordAddr s.hart j = pad (0x4000 + 8 * j)) (hc : s.hart.csr.hartid = 0) (hw : s.owned = [])
    (he : s.ctl.bad = []) (hsec : (s.coreSt 0).secure = false) : LogReached s (fun j => padTargets (0x4000 + 8 * j) 8) where
  on := hon
  wf := hwf
  size := by rw [hs]; decide
  first := ho
  idle := ⟨hp, hb⟩
  reach := by
    intro j hj u hu
    rw [hr j (by simp; omega)]
    refine access_pad (by omega) (by decide) (by omega) (by decide) (core_zero hc) ?_ (hu.owned.trans hw)
    rw [hu.world.2.2.1 0]
    exact hsec
  memory := fun j _ => ⟨allMemory_pad _ _, sound_pad _ _ he⟩
  apart := fun j k hj hk hne => pad_apart (by omega)

theorem logReached_logging : LogReached (logging base (pad 0x4000) (some aStrip)) (fun j => padTargets (0x4000 + 8 * j) 8) :=
  logReached_of (by decide +kernel) (by decide +kernel) (by decide +kernel) rfl rfl (by decide +kernel) (by decide +kernel) rfl rfl rfl rfl

/-- In U with a handler, for the trap's clause. -/
def loggingUser : State := logging paged (pad 0x4000) (some aStrip)

/-- With SETVLI at the head of the VIQ. -/
def loggingSet : State :=
  let s := logging base (pad 0x4000) (some aStrip)
  { s with hart := { s.hart with viq := [heldOf (.setvli ⟨6, 5, 2⟩) [4, 2]] } }

/-- Each clause of the log but VLDFF's: a strip open, none, and a log that no table maps; SETVLI at the head; and a
trap in U. -/
theorem witness_StripLog : LogReached (logging base (pad 0x4000) (some aStrip)) (fun j => padTargets (0x4000 + 8 * j) 8) ∧
    (logging base (pad 0x4000) (some aStrip)).hart.openStrip = some aStrip ∧ (logging base (pad 0x4000) (some aStrip)).hart.viqReady = false ∧
    CrAdmitted (logging base (pad 0x4000) (some aStrip)) 0 ∧
    ((logging base (pad 0x4000) none).hart.csr.stripEn = true ∧ (logging base (pad 0x4000) none).hart.openStrip = none) ∧
    (let s := logging paged 0x20000 (some aStrip)
     s.hart.viqReady = false ∧ s.hart.csr.stripEn = true ∧ s.hart.stripOut = [] ∧ s.hart.openStrip = some aStrip ∧
     s.landOwn = s ∧ memWf s.mem = true ∧ recordAddr s.hart 0 = 0x20000 ∧
     ∀ u : State, Alike (fun _ => False) s u →
       access u { s.hart.agent with sup := false } .scalar .store 0x20000 8 = .fault ⟨.xlate, 0x20000⟩ u) ∧
    (loggingSet.hart.viq = heldOf (.setvli ⟨6, 5, 2⟩) [4, 2] :: [] ∧ TakesSlot loggingSet ∧
      gate loggingSet (heldOf (.setvli ⟨6, 5, 2⟩) [4, 2]) false = .open ∧
      LogReached loggingSet (fun j => padTargets (0x4000 + 8 * j) 8) ∧ loggingSet.hart.openStrip = some aStrip) ∧
    LogReached loggingUser (fun j => padTargets (0x4000 + 8 * j) 8) ∧ loggingUser.hart.openStrip = some aStrip ∧
    loggingUser.hart.csr.status.priv = false ∧ HasHandler loggingUser := by
  refine ⟨logReached_logging, rfl, rfl, ⟨fun h => absurd h (by decide), fun _ => by decide +kernel, fun _ => rfl⟩, ⟨by decide +kernel, rfl⟩,
    ⟨by decide +kernel, by decide +kernel, by decide +kernel, rfl, by decide +kernel, by decide +kernel, by decide +kernel, fun u hu => ?_⟩,
    ⟨rfl, takes_of rfl rfl rfl rfl (uncapped rfl rfl), opens_eq (by decide +kernel), ?_, rfl⟩, ?_, rfl, by decide +kernel,
    by unfold HasHandler; decide +kernel⟩
  · have hp : Paged (logging paged 0x20000 (some aStrip)) { (logging paged 0x20000 (some aStrip)).hart.agent with sup := false } :=
      paged_of rfl wrg_paged sparing_paged (by decide +kernel) (by decide +kernel) (by decide +kernel) owned_paged
        errors_paged.1 errors_paged.2 (by decide)
    exact faults_unmapped (by decide) (paged_alike hp hu fun _ _ h => h)
  · exact logReached_of (by decide +kernel) (by decide +kernel) (by decide +kernel) rfl rfl (by decide +kernel) (by decide +kernel) rfl rfl rfl rfl
  · exact logReached_of (by decide +kernel) (by decide +kernel) (by decide +kernel) (by decide +kernel) (by decide +kernel) (by decide +kernel)
      (by decide +kernel) (by decide +kernel) owned_paged errors_paged.1 (by decide +kernel)

/-- The VLDFF of `witness_FirstFaultLoads` while a strip is open. -/
def loggingFirst : State := logging (pageAt 4 0 65532) (pad 0x4000) (some aStrip)

theorem paged_loggingFirst : Paged loggingFirst loggingFirst.hart.agent :=
  paged_of rfl rfl rfl (by decide +kernel) (by decide +kernel) (by decide +kernel) rfl (bad := []) rfl rfl (by decide)

theorem witness_StripLog_VLDFF : MReady loggingFirst vmop (memBytes (bitsFor loggingFirst vmop true)) ∧
    Admitted loggingFirst (.vm .vldff vmop) ∧ pending loggingFirst 0 = 0 :: 1 :: [2, 3] ∧
    AllReach loggingFirst (laneVia loggingFirst) .load (elemAddr loggingFirst vmop .unit true) (memBytes (bitsFor loggingFirst vmop true)) [0] []
      (fun _ => pageTargets 65532 4) ∧
    (∀ u : State, Alike (fun _ => False) loggingFirst u → access u loggingFirst.hart.agent (laneVia loggingFirst 1) .load
      (elemAddr loggingFirst vmop .unit true 1) (memBytes (bitsFor loggingFirst vmop true)) = .fault ⟨.xlate, 0x20000⟩ u) ∧
    LogReached loggingFirst (fun j => padTargets (0x4000 + 8 * j) 8) ∧ loggingFirst.hart.openStrip = some aStrip := by
  have hb : memBytes (bitsFor loggingFirst vmop true) = 4 := by decide +kernel
  rw [hb]
  refine ⟨⟨memReady_of ⟨idle_of rfl rfl rfl rfl rfl rfl (uncapped rfl rfl) (hs := by decide +kernel), by decide +kernel⟩
      (by decide +kernel) (hq := by decide +kernel), by decide +kernel⟩, opens_eq (by decide +kernel), by decide +kernel, ?_, fun u hu => ?_, ?_, rfl⟩
  · exact allReach_page (fun _ => 65532) (by decide +kernel) (fun _ _ => by decide) (fun _ _ => by decide) (by decide) paged_loggingFirst
      rfl rfl rfl
  · rw [show elemAddr loggingFirst vmop .unit true 1 = 0x20000 by decide +kernel]
    exact faults_unmapped (by decide) (paged_alike paged_loggingFirst hu fun _ _ h => h)
  · exact logReached_of (by decide +kernel) (by decide +kernel) (by decide +kernel) rfl rfl (by decide +kernel) (by decide +kernel) (by decide +kernel)
      rfl rfl (by decide +kernel)

/-- What an access answers, when it answers. -/
def okAnd {α : Type} (x : Acc α) (p : α → Bool) : Bool :=
  match x with
  | .ok a => p a
  | .fault _ _ => false
  | .wait => false

theorem okAnd_eq {α : Type} {x : Acc α} {p : α → Bool} (h : okAnd x p = true) : ∃ a, x = .ok a ∧ p a = true := by
  cases x with
  | ok a => exact ⟨a, rfl, h⟩
  | fault _ _ => cases h
  | wait => cases h

/-- The module with an instruction of the given length at the page of `paged`, and an event to come or none. -/
def about (n w : Nat) : State := base.withFetchWord n w

/-- The state in which the front-end takes its turn. -/
def turnOf (s : State) : State := s.tick.cycleStart

theorem front_of {s : State} (h : s.agenda = [] ∧ s.powered = true ∧ s.loose = false ∧ asyncCause (turnOf s).hart = none ∧
    (turnOf s).time % 16 ≠ 0) : FrontTurn s (turnOf s) :=
  ⟨⟨h.1, h.2.1, h.2.2.1⟩, rfl, h.2.2.2.1, h.2.2.2.2⟩

/-- ADDI at PC; a word of no instruction; and no page tables. -/
theorem witness_StepRunsTheDecodedInstruction :
    (let u := turnOf (about 32 0xFF001284)
     FrontTurn (about 32 0xFF001284) u ∧ u.hart.run = .running ∧
       ∃ s1 w, fetch u = .ok (s1, w) ∧ decodeWord w = some (.addi ⟨5, 1, 0xFF0⟩) ∧ s1.hart.late = []) ∧
    (let u := turnOf (about 32 0x7E)
     FrontTurn (about 32 0x7E) u ∧ u.hart.run = .running ∧ ∃ s1 w, fetch u = .ok (s1, w) ∧ decodeWord w = none ∧ HasHandler s1 ∧
       s1.hart.csr.sampEn = false) ∧
    (let u := turnOf base
     FrontTurn base u ∧ u.hart.run = .running ∧ (∃ f v, fetch u = .fault f v ∧ HasHandler v ∧ v.hart.handlerEntry = false)) ∧
    (let s : State := { paged with owned := [⟨0x40000, 64, some 3⟩] }
     FrontTurn s (turnOf s) ∧ (turnOf s).hart.run = .running ∧ fetch (turnOf s) = .wait) ∧
    Quiet base ∧
    (base.hart.handlerEntry = false ∧ base.hart.run.again = false ∧ base.hart.run ≠ .vacant ∧ base.hart.tag = none ∧
      base.hart.csr.sampEn = false ∧ ∀ (l : Nat) (old : Option Nat) (hit : Bool), base.hart.run ≠ .peer l old hit) ∧
    (let s : State := { base with hart := { hartAt 4 with pendNotify := [7] } }
     OwnCycle s ∧ (asyncCause s.tick.cycleStart.hart).isSome = true) := by
  have get : ∀ (x : Acc (State × Nat)) (p : State × Nat → Bool), okAnd x p = true → ∃ s1 w, x = .ok (s1, w) ∧ p (s1, w) = true := by
    intro x p h
    obtain ⟨⟨s1, w⟩, e, hp⟩ := okAnd_eq h
    exact ⟨s1, w, e, hp⟩
  refine ⟨⟨front_of (by decide +kernel), by decide +kernel, ?_⟩, ⟨front_of (by decide +kernel), by decide +kernel, ?_⟩,
    ⟨front_of (by decide +kernel), by decide +kernel, ?_⟩, ⟨front_of (by decide +kernel), by decide +kernel, waits_eq (by decide +kernel)⟩,
    ⟨by decide +kernel, by decide +kernel, by decide +kernel, by decide +kernel, by decide +kernel, by decide +kernel, by decide +kernel,
      by decide +kernel⟩,
    ⟨rfl, by decide +kernel, by decide +kernel, rfl, by decide +kernel, fun _ _ _ h => by cases h⟩,
    ⟨⟨rfl, rfl, rfl⟩, by decide +kernel⟩⟩
  · obtain ⟨s1, w, e, h⟩ := get (fetch (turnOf (about 32 0xFF001284)))
      (fun p => decide (decodeWord p.2 = some (.addi ⟨5, 1, 0xFF0⟩) ∧ p.1.hart.late = [])) (by decide +kernel)
    exact ⟨s1, w, e, (of_decide_eq_true h).1, (of_decide_eq_true h).2⟩
  · obtain ⟨s1, w, e, h⟩ := get (fetch (turnOf (about 32 0x7E)))
      (fun p => decide (decodeWord p.2 = none ∧ p.1.hart.csr.tvec &&& 0xFFFFFFFFFFFC0 ≠ 0 ∧ p.1.hart.csr.sampEn = false))
      (by decide +kernel)
    have d := of_decide_eq_true h
    exact ⟨s1, w, e, d.1, d.2.1, d.2.2⟩
  · have : (match fetch (turnOf base) with
      | .fault _ v => decide (v.hart.csr.tvec &&& 0xFFFFFFFFFFFC0 ≠ 0) && !v.hart.handlerEntry
      | .ok _ => false
      | .wait => false) = true := by decide +kernel
    cases e : fetch (turnOf base) with
    | fault f v =>
      rw [e] at this
      simp only [Bool.and_eq_true, decide_eq_true_eq, Bool.not_eq_true'] at this
      exact ⟨f, v, rfl, this.1, this.2⟩
    | ok a => rw [e] at this; cases this
    | wait => rw [e] at this; cases this

/-- The turns of an agenda: an event, a front-end's instruction, and a cycle; and a hart that waits takes its turn
again. -/
theorem witness_StepRunsTheDecodedInstruction_turns : base.powered = true ∧ (encode .helmWalk).isNone = true ∧
    (encode (.addi ⟨5, 1, 0xFF0⟩)).isSome = true ∧ base.hart.late = [] ∧ (∀ h ∈ base.hart :: base.others, ∀ e ∈ h.viq, e.early = []) ∧
    (∀ t : Turn, ({ base with agenda := [t] } : State).agenda = t :: []) ∧
    let s : State := { about 32 0xFF001284 with hart := { (about 32 0xFF001284).hart with run := .stalled } }
    FrontTurn s (turnOf s) ∧ (turnOf s).hart.run.again = true ∧
      ∃ a, fetch (turnOf s) = .ok a ∧ decide (decodeWord a.2 = some (.addi ⟨5, 1, 0xFF0⟩) ∧ a.1.hart.late = []) = true :=
  ⟨rfl, by decide +kernel, by decide +kernel, rfl, by decide +kernel, fun _ => rfl, front_of (by decide +kernel), by decide +kernel,
    okAnd_eq (p := fun p : State × Nat => decide (decodeWord p.2 = some (.addi ⟨5, 1, 0xFF0⟩) ∧ p.1.hart.late = [])) (by decide +kernel)⟩

/-- A fetch of four bytes in the page of `paged`, and a module whose writes wait. -/
theorem witness_StepRunsTheDecodedInstruction_fetch : (let s := paged
     let ag := s.hart.agent
     let h := numberAt s ag (pageTargets 0 2)
     locate ag .scalar .fetch 2 s s.hart.pc 2 = .ok (s, pageTargets 0 2) ∧ (pageTargets 0 2).any (s.ownedTarget none) = false ∧
     Sound s (pageTargets 0 2) ∧ lengthOf h = 4 ∧
     locate ag .scalar .fetch 2 s (s.hart.pc + 2) (lengthOf h - 2) = .ok (s, pageTargets 2 2) ∧
     (pageTargets 2 2).any (s.ownedTarget none) = false ∧ Sound s (pageTargets 2 2)) ∧
    let s : State := { base with loose := true }
    s.agenda = [] ∧ s.powered = true ∧ s.loose = true := by
  have hl : lengthOf (numberAt paged paged.hart.agent (pageTargets 0 2)) = 4 := by decide +kernel
  have hp : Paged paged paged.hart.agent :=
    paged_of rfl wrg_paged sparing_paged ptroot_paged (by decide +kernel) (by rw [core_zero (by decide +kernel)]; exact tlb_paged) owned_paged
      errors_paged.1 errors_paged.2 (by decide)
  refine ⟨⟨?_, by decide +kernel, sound_page errors_paged.1 errors_paged.2, hl, ?_, by decide +kernel,
    sound_page errors_paged.1 errors_paged.2⟩, rfl, rfl, rfl⟩
  · exact locate_page (o := 0) (by decide) (by decide) (by decide) hp 1
  · rw [hl]
    exact locate_page (o := 2) (by decide) (by decide) (by decide) hp 1

theorem witness_DecodeReadsBackEveryEncoding : wellFormed (.addi ⟨5, 1, 0xFF0⟩) = true ∧ encode (.addi ⟨5, 1, 0xFF0⟩) = some 0xFF001284 ∧
    decodeWord 0xFF001284 = some (.addi ⟨5, 1, 0xFF0⟩) := by decide +kernel

/-- A legal module with canonical memories that takes a step. -/
theorem witness_StepsKeepTheInvariants : LegalHarts base ∧ (about 32 0xFF001284).mapsWf = true ∧ LegalHarts (about 32 0xFF001284) ∧
    ∃ t, step (about 32 0xFF001284) = .next t := by
  have go : ∀ x : Host.Outcome State Fault Refusal, (match x with
      | .next _ => true
      | .fault _ => false
      | .refused _ => false) = true → ∃ t, x = .next t := by
    intro x h
    cases x with
    | next t => exact ⟨t, rfl⟩
    | fault _ => cases h
    | refused _ => cases h
  have legal : ∀ h : Hart, (decide (h.rstack.length ≤ 16) && decide (h.csr.status.vs ≠ 3) && decide (h.csr.fcsr.toNat ≤ 4) &&
      decide (h.csr.thr.toNat ≤ 32767) && decide (∀ i : Fin 4, (h.csr.evsel[i]).toNat ≤ 0x16) &&
      decide (h.csr.rasp.toNat % 8 = 0 ∧ h.csr.rasl.toNat % 8 = 0) && decide (h.csr.tvec.toNat % 4 ≤ 1) &&
      decide (bitsOf h.csr.striplog.toNat 4 4 ≤ 8)) = true → LegalHart h := by
    intro h e
    simp only [Bool.and_eq_true, decide_eq_true_eq] at e
    exact ⟨e.1.1.1.1.1.1.1, e.1.1.1.1.1.1.2, e.1.1.1.1.1.2, e.1.1.1.1.2, e.1.1.1.2, e.1.1.2, e.1.2, e.2⟩
  exact ⟨⟨legal _ (by decide +kernel), fun _ h => (nomatch h)⟩, by decide +kernel,
    ⟨legal _ (by decide +kernel), fun _ h => (nomatch h)⟩, go _ (by decide +kernel)⟩

end Sys2Proof.Tests
end

section
/-! PROOFS. Scalar instructions: the divisions (R115) and the software traps (R134, R350, R353). -/

namespace Sys2Proof.Proofs

open Sys2Proof.Machine Sys2Proof.Spec

/-! ### Divisions (R115) -/

theorem exec_div (o : R3) (s : State) : exec (.div o) s = aluDiv divSigned o s := rfl

theorem exec_divu (o : R3) (s : State) : exec (.divu o) s = aluDiv divUnsigned o s := rfl

theorem exec_rem (o : R3) (s : State) : exec (.rem o) s = aluDiv remSigned o s := rfl

theorem exec_remu (o : R3) (s : State) : exec (.remu o) s = aluDiv remUnsigned o s := rfl

/-- A result written with flags raised: no other register of the flags changes (R31). -/
theorem writeNext_raise_writesFlags (len : Nat) (d : Reg) (x : Word) (bits : Nat) (s : State) :
    WritesFlags len d x (BitVec.ofNat 7 bits) (BitVec.ofNat 3 (bits / 128)) s (((s.raise bits).setG d x).advance len) where
  value h := by rw [State.getG_advance, State.getG_setG_same _ _ _ h]
  others r h := by rw [State.getG_advance, State.getG_setG_other _ _ _ _ h]; rfl
  pc := by simp [State.raise]
  fflags := by simp [State.raise, Csr.raise]
  iflags := by simp [State.raise, Csr.raise]
  frame := by rw [State.setG_eq]; rfl
  bytes loc := by simp [State.raise]

@[simp] theorem raise_zero (s : State) : s.raise 0 = s := by
  simp [State.raise, State.onCsr, Csr.raise]

/-- Without a flag a division writes its result alone. -/
theorem advance_setG_writes (len : Nat) (d : Reg) (x : Word) (s : State) :
    Writes len d x s ((s.setG d x).advance len) := by
  obtain ⟨t, ht, hw⟩ := writeNext_writes len d x s
  cases ht
  exact hw

/-- The operands that overflow are the two words that the model compares with. -/
theorem divOverflows_iff (a b : Word) : divOverflows a b ↔ a = minWord ∧ b = BitVec.allOnes 64 := by
  have ha : a.toInt = -2 ^ 63 ↔ a = minWord := BitVec.toInt_inj (y := minWord)
  have hb : b.toInt = -1 ↔ b = BitVec.allOnes 64 := BitVec.toInt_inj (y := BitVec.allOnes 64)
  rw [divOverflows, ha, hb]

/-- A division computes, with its flags, what a row of `divTable` says: a result by a divisor of 0, one where the
operands overflow if the member is signed, and the quotient or remainder otherwise. -/
structure Divides (f : Word → Word → Word × Nat) (quot : Word → Word → Word) (zero : Word → Word) (excess : Option Word) :
    Prop where
  byZero : ∀ a, f a 0 = (zero a, fIDZ)
  overflow : ∀ r a b, excess = some r → divOverflows a b → f a b = (r, fIOV)
  plain : ∀ a b, b ≠ 0 → (excess = none ∨ ¬ divOverflows a b) → f a b = (quot a b, 0)

theorem divSigned_divides : Divides divSigned (fun a b => BitVec.ofInt 64 (a.toInt.tdiv b.toInt))
    (fun _ => BitVec.allOnes 64) (some (BitVec.ofInt 64 (-2 ^ 63))) where
  byZero _ := rfl
  overflow r a b hr ho := by
    obtain ⟨rfl, rfl⟩ := (divOverflows_iff a b).mp ho
    cases hr
    decide
  plain a b hb ho := by
    have hn : ¬ (a = minWord ∧ b = BitVec.allOnes 64) := by simpa [divOverflows_iff] using ho
    rw [divSigned, if_neg hb, if_neg hn]

theorem remSigned_divides : Divides remSigned (fun a b => BitVec.ofInt 64 (a.toInt.tmod b.toInt)) (fun a => a) (some 0) where
  byZero _ := rfl
  overflow r a b hr ho := by
    obtain ⟨rfl, rfl⟩ := (divOverflows_iff a b).mp ho
    cases hr
    decide
  plain a b hb ho := by
    have hn : ¬ (a = minWord ∧ b = BitVec.allOnes 64) := by simpa [divOverflows_iff] using ho
    rw [remSigned, if_neg hb, if_neg hn]

theorem divUnsigned_divides :
    Divides divUnsigned (fun a b => BitVec.ofNat 64 (a.toNat / b.toNat)) (fun _ => BitVec.allOnes 64) none where
  byZero _ := rfl
  overflow _ _ _ hr := nomatch hr
  plain _ _ hb _ := if_neg hb

theorem remUnsigned_divides : Divides remUnsigned (fun a b => BitVec.ofNat 64 (a.toNat % b.toNat)) (fun a => a) none where
  byZero _ := rfl
  overflow _ _ _ hr := nomatch hr
  plain _ _ hb _ := if_neg hb

/-- Every row of the table is a division of the model. -/
theorem divTable_divides : ∀ row ∈ divTable, ∃ f, (∀ (o : R3) (s : State), exec (row.1 o) s = aluDiv f o s) ∧
    Divides f row.2.1 row.2.2.1 row.2.2.2 := by
  intro row hrow
  simp only [divTable, List.mem_cons, List.not_mem_nil, or_false] at hrow
  rcases hrow with rfl | rfl | rfl | rfl
  · exact ⟨_, exec_div, divSigned_divides⟩
  · exact ⟨_, exec_divu, divUnsigned_divides⟩
  · exact ⟨_, exec_rem, remSigned_divides⟩
  · exact ⟨_, exec_remu, remUnsigned_divides⟩

/-- Settles O3: each division's value and flags by its row, written by the one way in which flags are raised. -/
theorem divisionCorners : Obligations.DivisionCorners := by
  intro row hrow o s
  obtain ⟨f, hexec, hf⟩ := divTable_divides row hrow
  refine ⟨_, hexec o s, ?_, ?_, ?_⟩
  · intro hz
    rw [hz, hf.byZero]
    exact writeNext_raise_writesFlags 4 o.d _ fIDZ s
  · intro r hr ho
    rw [hf.overflow r _ _ hr ho]
    exact writeNext_raise_writesFlags 4 o.d r fIOV s
  · intro hb ho
    rw [hf.plain _ _ hb ho, raise_zero]
    exact advance_setG_writes 4 o.d _ s

/-! ### Harts and their gangs -/

/-- The harts of `t` are those of `s`, each in its gang, and a front-end without a hart stays so. -/
structure SameGangs (s t : State) : Prop where
  hart : t.hart.gang = s.hart.gang
  others : t.others.map (·.gang) = s.others.map (·.gang)
  vacated : s.hart = Hart.vacated → t.hart = Hart.vacated

theorem SameGangs.refl (s : State) : SameGangs s s := ⟨rfl, rfl, id⟩

theorem SameGangs.trans {s t u : State} (a : SameGangs s t) (b : SameGangs t u) : SameGangs s u :=
  ⟨b.hart.trans a.hart, b.others.trans a.others, b.vacated ∘ a.vacated⟩

/-- One change made in every hart, that moves none to another gang. -/
theorem SameGangs.of_map {s t : State} (f : Hart → Hart) (hgang : ∀ h, (f h).gang = h.gang)
    (hvacated : f Hart.vacated = Hart.vacated) (hart : t.hart = f s.hart) (others : t.others = s.others.map f) :
    SameGangs s t where
  hart := by rw [hart, hgang]
  others := by simp [others, hgang]
  vacated h := by rw [hart, h, hvacated]

/-- A change of the hart whose turn it is. -/
theorem SameGangs.of_hart {s t : State} (hart : t.hart.gang = s.hart.gang)
    (vacated : s.hart = Hart.vacated → t.hart = Hart.vacated) (others : t.others = s.others) : SameGangs s t :=
  ⟨hart, by rw [others], vacated⟩

theorem SameGangs.of_harts {s t : State} (h : t.hart = s.hart ∧ t.others = s.others) : SameGangs s t :=
  .of_hart (by rw [h.1]) (by rw [h.1]; exact id) h.2

theorem SameGangs.foldl {α : Type} {f : State → α → State} (h : ∀ s a, SameGangs s (f s a)) :
    ∀ (l : List α) (s : State), SameGangs s (l.foldl f s) := by
  intro l
  induction l with
  | nil => exact SameGangs.refl
  | cons a l ih => exact fun s => (h s a).trans (ih _)

/-! ### Writes that perform move no hart -/

theorem pendCheck_sameGangs (s : State) (id : BitVec 12) (region : Nat) (d c : BitVec 16) (a : Word) :
    SameGangs s (s.pendCheck id region d c a) := by
  refine .of_map _ (fun h => ?_) rfl rfl rfl
  split <;> rfl

theorem releaseLine_sameGangs (s : State) (line : Nat) : SameGangs s (s.releaseLine line) := by
  refine .of_map (·.seeRelease line) (fun h => ?_) rfl rfl rfl
  unfold Hart.seeRelease
  split <;> rfl

theorem releaseTargets_sameGangs (s : State) (ts : List Target) : SameGangs s (s.releaseTargets ts) := by
  unfold State.releaseTargets
  split
  · exact releaseLine_sameGangs s _
  · exact .refl s

theorem mergeErrors_sameGangs (s : State) (ag : Agent) (ts : List Target) : SameGangs s (s.mergeErrors ag ts) := by
  unfold State.mergeErrors
  split
  · refine .trans ?_ (pendCheck_sameGangs _ _ _ _ _ _)
    exact .of_harts ⟨rfl, rfl⟩
  · exact .refl s

theorem storeBytes_sameGangs (s : State) (ag : Agent) (ts : List Target) (bs : List Byte) :
    SameGangs s (storeBytes s ag ts bs) :=
  (mergeErrors_sameGangs s ag ts).trans (.of_harts (writeTargets_hart ts bs _))

theorem performPend_sameGangs (s : State) (ag : Agent) (p : Pend) : SameGangs s (s.performPend ag p) := by
  unfold State.performPend
  dsimp only
  split
  · exact (storeBytes_sameGangs s ag _ _).trans (releaseTargets_sameGangs _ _)
  · exact storeBytes_sameGangs s ag _ _

theorem flush_sameGangs (s : State) (which : Pend → Bool) : SameGangs s (s.flush which) := by
  refine .trans ?_ (.foldl (fun t p => performPend_sameGangs t s.hart.agent p) _ _)
  exact .of_hart rfl (fun h => by dsimp only; rw [h]; rfl) rfl

theorem flushHarts_sameGangs (s : State) (which : Hart → Bool) : SameGangs s (s.flushHarts which) := by
  refine .trans (.foldl (fun t h => ?_) ((s.hart :: s.others).filter which) s) (.of_map _ (fun h => ?_) ?_ rfl rfl)
  · exact .foldl (fun t p => performPend_sameGangs t h.agent p) _ t
  · split <;> rfl
  · split <;> rfl

theorem vacate_sameGangs (s : State) (ids : List (BitVec 12)) : SameGangs s (s.vacate ids) := by
  refine .foldl (fun t id => ?_) ids s
  exact .of_harts ⟨rfl, rfl⟩

theorem releaseHeld_vacated (ended : Word → Bool) : Hart.vacated.releaseHeld ended = Hart.vacated := rfl

/-- Before a trap the harts are where they were. -/
theorem stopped_sameGangs (s : State) : SameGangs s s.stopped := by
  have land : SameGangs s s.landOwn := by
    rw [landOwn_frame]
    exact .of_harts ⟨rfl, rfl⟩
  have free : SameGangs s.landOwn (s.landOwn.onHart (·.releaseHeld fun _ => true)) :=
    .of_hart rfl (fun h => by rw [State.onHart, h]; exact releaseHeld_vacated _) rfl
  exact (land.trans free).trans (flush_sameGangs _ _)

/-! ### Changes of the Helm move no hart -/

theorem setPhys64_sameGangs (s : State) (pa x : Nat) : SameGangs s (s.setPhys64 pa x) :=
  .of_harts (OnlyBytes.harts (putBytes_only s pa _).1)

theorem helmApply_sameGangs (s : State) (w : HelmWrite) : SameGangs s (s.helmApply w) := by
  unfold State.helmApply
  split
  · exact .refl s
  · split
    · exact .of_harts ⟨rfl, rfl⟩
    · dsimp only
      split
      · exact (setPhys64_sameGangs s _ _).trans (releaseLine_sameGangs _ _)
      · exact setPhys64_sameGangs s _ _

theorem helmDrain_sameGangs : ∀ (ws : List HelmWrite) (s : State), SameGangs s (helmDrain ws s) := by
  intro ws
  induction ws with
  | nil => exact fun s => .of_harts ⟨rfl, rfl⟩
  | cons w ws ih =>
    intro s
    unfold helmDrain
    split
    · exact .of_harts ⟨rfl, rfl⟩
    · exact (helmApply_sameGangs s w).trans (ih _)

/-! ### The end of a gang (R332, R350) -/

/-- A hart that the end of a gang stops: its element writes wait for no higher one of their instruction. -/
def stopIn (id : Nat) (h : Hart) : Hart := if h.gang = id then h.releaseHeld fun _ => true else h

/-- The harts of a gang have stopped, and the writes that they have passed have performed. -/
def gangStopped (s : State) (id : Nat) : State :=
  ({ s with hart := stopIn id s.hart, others := s.others.map (stopIn id) }.flushHarts fun h => h.gang == id).vacate
    (s.gangIds id)

/-- The harts of a gang have left. -/
def gangLeft (s : State) (id : Nat) : State :=
  { gangStopped s id with
    hart := if (gangStopped s id).hart.gang = id then Hart.vacated else (gangStopped s id).hart
    others := (gangStopped s id).others.filter (·.gang != id) }

theorem gangStopped_sameGangs (s : State) (id : Nat) : SameGangs s (gangStopped s id) := by
  have stop : SameGangs s { s with hart := stopIn id s.hart, others := s.others.map (stopIn id) } := by
    refine .of_map (stopIn id) (fun h => ?_) ?_ rfl rfl <;> unfold stopIn <;> split <;> rfl
  exact (stop.trans (flushHarts_sameGangs _ _)).trans (vacate_sameGangs _ _)

/-- When the hart's own gang ends, its front-end holds no hart, and the other harts that stay are those of other gangs. -/
theorem gangLeft_own (s : State) : (gangLeft s s.hart.gang).hart = Hart.vacated ∧
    (gangLeft s s.hart.gang).others.map (·.gang) = (s.others.map (·.gang)).filter (· != s.hart.gang) := by
  have h := gangStopped_sameGangs s s.hart.gang
  refine ⟨if_pos h.hart, ?_⟩
  rw [← h.others, List.filter_map]
  rfl

/-- Once the harts have left, the end of a gang changes the Helm's records and sends a message of kind 6 last. -/
theorem endGang_sends (s : State) (id : Nat) :
    ∃ (u : State) (m : FaultMsg), s.endGang id = u.sendFault m ∧ m.kind = 6 ∧ SameGangs (gangLeft s id) u := by
  unfold State.endGang
  dsimp only
  split
  · exact ⟨_, _, rfl, rfl, .refl _⟩
  · refine ⟨_, _, rfl, rfl, .trans ?_ (helmDrain_sameGangs _ _)⟩
    exact .of_harts ⟨rfl, rfl⟩

/-- Without a handler a trap ends the hart's gang (R350). -/
theorem takeTrap_no_handler (k : Trap) (epc : Word) (s : State) (h : ¬ HasHandler s) :
    s.takeTrap k epc = s.stopped.endGang s.hart.gang :=
  if_pos (Classical.not_not.mp h)

/-- What the end of the hart's gang by a trap leaves of the harts (R332, R350). -/
theorem takeTrap_ends_gang (k : Trap) (epc : Word) (s : State) (h : ¬ HasHandler s) :
    (s.takeTrap k epc).hart = Hart.vacated ∧
      (s.takeTrap k epc).others.map (·.gang) = (s.others.map (·.gang)).filter (· != s.hart.gang) ∧
      ∃ m : FaultMsg, (s.takeTrap k epc).messages.getLast? = some m ∧ m.kind = 6 := by
  have hs := stopped_sameGangs s
  obtain ⟨left, stay⟩ := gangLeft_own s.stopped
  rw [takeTrap_no_handler k epc s h, ← hs.hart, ← hs.others]
  obtain ⟨u, m, he, hm, hu⟩ := endGang_sends s.stopped s.stopped.hart.gang
  rw [he]
  exact ⟨hu.vacated left, hu.others.trans stay, m, by simp [State.sendFault], hm⟩

/-! ### Software traps (R134) -/

theorem exec_trap (code : BitVec 12) (s : State) :
    exec (.trap code) s = .next (s.trapP cSWTRAP (code.setWidth 64) (mkTaux false 4 0 0)) := rfl

theorem exec_cTrap0 (s : State) : exec .cTrap0 s = .next (s.trapP cSWTRAP 0 (mkTaux false 2 0 0)) := rfl

/-- TRAP's immediate stands in TVAL and its length of 4 in CSPEC (R134). -/
theorem trapP_of_trap (code : BitVec 12) (s : State) (h : HasHandler s) :
    Traps { code := 0x04, cls := .scalar, tval := BitVec.ofNat 64 code.toNat, taux := 0x400000000 } s.hart.pc s
      (s.trapP cSWTRAP (code.setWidth 64) (mkTaux false 4 0 0)) := by
  rw [BitVec.ofNat_toNat, ← show mkTaux false 4 0 0 = 0x400000000 by decide]
  exact takeTrap_traps _ _ s h

/-- Settles O15: with a handler both are a trap as R353 says; without one the hart's gang ends. -/
theorem softwareTraps : Obligations.SoftwareTraps := by
  refine ⟨fun code s h => ⟨_, exec_trap code s, trapP_of_trap code s h⟩,
    fun s h => ⟨_, exec_cTrap0 s, takeTrap_traps _ _ s h⟩, fun code s h => ⟨_, exec_trap code s, ?_⟩⟩
  obtain ⟨left, stay, sent⟩ := takeTrap_ends_gang ⟨cSWTRAP, .scalar, code.setWidth 64, mkTaux false 4 0 0⟩ s.hart.pc s h
  refine ⟨left, fun x hx => ?_, ?_, sent⟩
  · have hmem := stay ▸ List.mem_map_of_mem hx
    simpa using (List.mem_filter.mp hmem).2
  · have hlen := congrArg List.length stay
    rwa [List.filter_map, List.length_map, List.length_map] at hlen

end Sys2Proof.Proofs
end
